-- ==== Sys2Proof/Word.lean ====
section
/-! DEFINITION. The word types of the device and their plainest arithmetic (R6: little-endian, bit 0 least
significant). Words that the spec treats as bits are bit vectors; fields are cut out of natural numbers. -/

namespace Sys2Proof

/-- A 64-bit word: a G register, a command word, an instruction word. -/
abbrev Word := BitVec 64

/-- One byte of a store. -/
abbrev Byte := BitVec 8

/-- Bits `[lo + n - 1 : lo]` of the number `w`. -/
def fld (w lo n : Nat) : Nat := w / 2 ^ lo % 2 ^ n

/-- One bit of the number `w`. -/
def bitOf (w i : Nat) : Bool := w / 2 ^ i % 2 == 1

/-- `x` in the bits above a `k`-bit field `y`. -/
def cat (x k y : Nat) : Nat := x * 2 ^ k + y

/-- A natural number read as a two's-complement number of `w` bits. -/
def sgn (w v : Nat) : Int := if v % 2 ^ w < 2 ^ (w - 1) then (v % 2 ^ w : Nat) else (v % 2 ^ w : Nat) - (2 ^ w : Nat)

/-- The `w`-bit two's-complement code of an integer. -/
def wrapTo (w : Nat) (v : Int) : Nat := (v % (2 ^ w : Nat)).toNat

/-- Ceiling division. -/
def ceilDiv (a b : Nat) : Nat := (a + b - 1) / b

/-- A Boolean as a number. -/
def b2n (b : Bool) : Nat := if b then 1 else 0

end Sys2Proof
end

