-- ==== Sys2Proof/Config.lean ====
section
/-! DEFINITION. What the spec leaves open, as free values: opaque constants that nothing can evaluate. Each is applied
to the model's counter `State.fresh` or to an address, so that a statement about one holds for every value of it. -/

namespace Sys2Proof

/-- A free choice between two allowed outcomes: an old or a new value of R23, R83 or R97 (log entry 2). -/
opaque Config.freeChoice : Nat → Bool

/-- A free byte: the registers of a management core in a dump, which nothing else shows (log entry 3). -/
opaque Config.freeByte : Nat → Byte

/-- A free word: the signatures of a report (log entry 5), an indeterminate target after an unknown applied-state (log entry
4), an element at which a remote command is stopped (log entry 2). -/
opaque Config.freeWord : Nat → Word

/-- A bound on how often an elastic issue or landing is left for a later cycle: at the latest in every cycle whose number is
a multiple of `patience + 1` nothing is left (R11, R27, log entry 2). -/
opaque Config.patience : Nat

/-- The integer that a scaled element or a product of scaled factors stands for where the exact value is no integer, or none in
the range that is asked for (log entries 67, 74). -/
opaque Config.freeIndex : Nat → Nat → Int

/-- The FP32 bits of an element divided by a scale of zero, infinity or NaN, from the FP32 bits of both (log entry 68). -/
opaque Config.freeQuotient : Nat → Nat → Nat

/-- Which NaN an element that is NaN has under a scale that is NaN: its own, or the scale's (log entry 69). -/
opaque Config.freeNan : Nat → Nat → Bool

end Sys2Proof
end

