-- ==== Sys2Proof/Machine/Sparse.lean ====
section
/-! DEFINITION. Sparse tables: lists of (key, value) pairs with keys strictly rising and no entry equal to the default
`d`, which is what an unlisted key reads as. Memory, register files and flag stores are all held this way, so that
equal contents are equal data. -/

namespace Sys2Proof

/-- A sparse table from natural numbers to `β`. -/
abbrev Sparse (β : Type) := List (Nat × β)

/-- The value at key `k`; the default where nothing is listed. -/
def spGet {β : Type} (d : β) : Sparse β → Nat → β
  | [], _ => d
  | (a, v) :: t, k => if k < a then d else if k = a then v else spGet d t k

/-- Put `v` at key `k`, keeping the canonical form: the default is never listed. -/
def spSet {β : Type} [DecidableEq β] (d : β) : Sparse β → Nat → β → Sparse β
  | [], k, v => if v = d then [] else [(k, v)]
  | (a, x) :: t, k, v =>
    if k < a then (if v = d then (a, x) :: t else (k, v) :: (a, x) :: t)
    else if k = a then (if v = d then t else (k, v) :: t)
    else (a, x) :: spSet d t k v

/-- Are the keys strictly rising from above `lo`, with no default listed? -/
def spWfFrom {β : Type} [DecidableEq β] (d : β) : Nat → Sparse β → Bool
  | _, [] => true
  | lo, (a, x) :: t => lo ≤ a && x != d && spWfFrom d (a + 1) t

/-- The canonical form. -/
def spWf {β : Type} [DecidableEq β] (d : β) (t : Sparse β) : Bool := spWfFrom d 0 t

/-- Put several entries, in order. -/
def spSetMany {β : Type} [DecidableEq β] (d : β) (t : Sparse β) (ws : List (Nat × β)) : Sparse β :=
  ws.foldl (fun t w => spSet d t w.1 w.2) t

/-- Remove every entry whose key satisfies `f`. -/
def spDrop {β : Type} (f : Nat → Bool) (t : Sparse β) : Sparse β := t.filter (fun e => !f e.1)

/-- `n` values from key `k` upwards. -/
def spRange {β : Type} (d : β) (t : Sparse β) : Nat → Nat → List β
  | _, 0 => []
  | k, n + 1 => spGet d t k :: spRange d t (k + 1) n

/-- The number whose little-endian bytes are `bs` (R6). -/
def leNat : List Byte → Nat
  | [] => 0
  | b :: t => b.toNat + 256 * leNat t

/-- The `n` little-endian bytes of a number (R6). -/
def leBytes : Nat → Nat → List Byte
  | 0, _ => []
  | n + 1, v => BitVec.ofNat 8 v :: leBytes n (v / 256)

/-- Keys from `k` upwards beside the given values. -/
def numbered {β : Type} : Nat → List β → List (Nat × β)
  | _, [] => []
  | k, v :: t => (k, v) :: numbered (k + 1) t

end Sys2Proof
end

