-- ==== Sys2Proof/Machine/Num.lean ====
section
/-! DEFINITION. Exact numbers, the number formats of R57 to R65, and conversion by R66 to R71. -/

namespace Sys2Proof.Machine

/-- A value as the datapaths carry it: a signed fraction `n / d`, an infinity, or a NaN as its FP32 bits (R184). -/
inductive Num where
  | fin (neg : Bool) (n d : Nat)
  | inf (neg : Bool)
  | nan (bits : Nat)
  deriving DecidableEq, Repr

/-- The default NaN (R147, R184). -/
def qnan : Nat := 0x7FC00000

/-- What the special codes of a narrow floating format are (R61). -/
inductive Spec where
  | finite | ieee | oneNan
  deriving DecidableEq, Repr

/-- A number format (R57, R64). `wide` marks FP16, BF16 and FP32, which have subnormals (R60). -/
inductive Fmt where
  | int (w : Nat) (signed : Bool)
  | flt (s e m : Nat) (bias : Int) (spec : Spec) (wide : Bool)
  | e8m0
  | bit
  | level (w : Nat)
  deriving DecidableEq, Repr

/-- Binary32 (R57). -/
def fp32 : Fmt := .flt 1 8 23 127 .ieee true

/-- BF16 (R57). -/
def bf16 : Fmt := .flt 1 8 7 127 .ieee true

/-- The width of an element in bits. -/
def Fmt.width : Fmt → Nat
  | .int w _ => w
  | .flt s e m _ _ _ => s + e + m
  | .e8m0 => 8
  | .bit => 1
  | .level w => w

/-- Does conversion into the format lose every sign (R66: UINT4, UINT8, BYTE, CUSTOM with S = 0)? -/
def Fmt.unsigned : Fmt → Bool
  | .int _ signed => !signed
  | .flt s _ _ _ _ _ => s == 0
  | _ => false

/-- A narrow floating format, with the underflow band of R67. -/
def Fmt.narrow : Fmt → Bool
  | .flt _ _ _ _ _ wide => !wide
  | _ => false

/-- A floating format for R183: FP32, FP16, BF16, the narrow presets and CUSTOM with E ≥ 1. -/
def Fmt.floating : Fmt → Bool
  | .flt .. => true
  | _ => false

/-- The fraction `n / d` times `2 ^ k`. -/
def scale2 (n d : Nat) (k : Int) : Nat × Nat :=
  if 0 ≤ k then (n * 2 ^ k.toNat, d) else (n, d * 2 ^ (-k).toNat)

/-- floor(log2 (n / d)) for n, d > 0. -/
def floorLog2 (n d : Nat) : Int :=
  let k : Int := (Nat.log2 n : Int) - (Nat.log2 d : Int)
  let (a, b) := scale2 n d (-k)
  if b ≤ a then k else k - 1

/-- The number `neg m * 2 ^ k`. -/
def Num.mk2 (neg : Bool) (m : Nat) (k : Int) : Num :=
  let (n, d) := scale2 m 1 k
  .fin neg n d

/-- Exact integer as a number. -/
def Num.ofInt (v : Int) : Num := .fin (v < 0) v.natAbs 1

/-- Zero of either sign. -/
def Num.isZero : Num → Bool
  | .fin _ n _ => n == 0
  | _ => false

/-- Is it a NaN? -/
def Num.isNan : Num → Bool
  | .nan _ => true
  | _ => false

/-- The sign bit. -/
def Num.neg : Num → Bool
  | .fin s _ _ => s
  | .inf s => s
  | .nan b => bitOf b 31

/-- The value with its sign turned. -/
def Num.negate : Num → Num
  | .fin s n d => .fin (!s) n d
  | .inf s => .inf (!s)
  | .nan b => .nan (if bitOf b 31 then b - 2 ^ 31 else b + 2 ^ 31)

/-- A NaN of a narrower format as FP32 bits (R184): sign, all-ones exponent, the fraction's bits at the top; the top
fraction bit is set only where the fraction would be 0. -/
def widenNan (neg : Bool) (m frac : Nat) : Num :=
  let f := frac * 2 ^ (23 - m)
  .nan (cat (cat (b2n neg) 8 0xFF) 23 (if f == 0 then 2 ^ 22 else f))

/-- The exact value of a stored code (R59 to R62). -/
def decodeNum (F : Fmt) (code : Nat) : Num :=
  match F with
  | .int w true => Num.ofInt (sgn w code)
  | .int w false => .fin false (code % 2 ^ w) 1
  | .bit => .fin false (code % 2) 1
  | .level w => .fin false (code % 2 ^ w) 1
  | .e8m0 => if code % 256 == 255 then .nan qnan else Num.mk2 false 1 ((code % 256 : Nat) - 127)
  | .flt s e m bias spec wide =>
    let neg := s == 1 && bitOf code (e + m)
    let ef := fld code m e
    let mf := fld code 0 m
    let top := 2 ^ e - 1
    if wide then
      if ef == top then (if mf == 0 then .inf neg else widenNan neg m mf)
      else if ef == 0 then Num.mk2 neg mf (1 - bias - m)
      else Num.mk2 neg (2 ^ m + mf) (ef - bias - m)
    else if spec == .ieee && ef == top then (if mf == 0 then .inf neg else widenNan neg m mf)
    else if spec == .oneNan && ef == top && mf == 2 ^ m - 1 then widenNan neg m mf
    else if ef == 0 && mf == 0 then .fin neg 0 1
    else Num.mk2 neg (2 ^ m + mf) (ef - bias - m)

/-- The code of a magnitude that the format represents exactly, with the sign in the sign bit if there is one. -/
def encodeNum (F : Fmt) (neg : Bool) (n d : Nat) : Nat :=
  match F with
  | .int w true => wrapTo w (if neg then -((n / d : Nat) : Int) else (n / d : Nat))
  | .int w false => if neg then 0 else n / d % 2 ^ w
  | .bit => if n == 0 then 0 else 1
  | .level w => n / d % 2 ^ w
  | .e8m0 => if n == 0 then 0 else (floorLog2 n d + 127).toNat
  | .flt s e m bias _ wide =>
    let mag :=
      if n == 0 then 0
      else
        let k := floorLog2 n d
        if wide && k < 1 - bias then
          let (a, b) := scale2 n d (-(1 - bias - m))
          a / b
        else
          let (a, b) := scale2 n d (-(k - m))
          cat (k + bias).toNat m (a / b - 2 ^ m)
    if s == 1 then cat (b2n neg) (e + m) mag else mag

/-- The greatest finite magnitude (R57, R61), as a fraction. ONE-NAN with E = 1 and M = 0 has no finite code but 0, and what a magnitude
beyond 0 becomes there is the model's (DESIGN CHOICE, log entry 113). -/
def Fmt.largest : Fmt → Nat × Nat
  | .int w true => (2 ^ (w - 1) - 1, 1)
  | .int w false => (2 ^ w - 1, 1)
  | .bit => (1, 1)
  | .level w => (2 ^ w - 1, 1)
  | .e8m0 => (2 ^ 127, 1)
  | .flt _ e m bias spec _ =>
    let top : Int := 2 ^ e - 1
    match spec with
    | .ieee => scale2 (2 ^ (m + 1) - 1) 1 (top - 1 - bias - m)
    | .oneNan =>
      if m == 0 then scale2 1 1 (top - 1 - bias) else scale2 (2 ^ (m + 1) - 2) 1 (top - bias - m)
    | .finite => scale2 (2 ^ (m + 1) - 1) 1 (top - bias - m)

/-- The smallest positive magnitude of a narrow floating format (R61). -/
def Fmt.smallest : Fmt → Nat × Nat
  | .flt _ _ m bias _ _ => if m == 0 then scale2 1 1 (1 - bias) else scale2 (2 ^ m + 1) 1 (-bias - m)
  | _ => (1, 1)

/-- One step of a generator: the new state, which is also the draw (R70). -/
def draw32 (x : BitVec 32) : BitVec 32 :=
  let x := x ^^^ (x <<< 13)
  let x := x ^^^ (x >>> 17)
  x ^^^ (x <<< 5)

/-- A seed as it is stored: 0 becomes 0x9E37_79B9 (R70). -/
def seedOf (s : BitVec 32) : BitVec 32 := if s = 0 then 0x9E3779B9 else s

/-- The state that seeding with `s` gives lane `i` (R71). -/
def laneSeed (s : BitVec 32) (i : Nat) : BitVec 32 :=
  seedOf (s ^^^ BitVec.ofNat 32 (i * 0x9E3779B9))

/-- Count of leading zero bits of a 32-bit number (R111). -/
def clz32 (u : BitVec 32) : Nat := if u.toNat == 0 then 32 else 31 - Nat.log2 u.toNat

/-- A converted element: its code, whether NANSEEN and SATSEEN are set, and the generator afterwards. -/
structure Conv where
  code : Nat
  nan : Bool := false
  sat : Bool := false
  gen : BitVec 32
  deriving DecidableEq, Repr

/-- A NaN written into a format (R68). `quiet` is false for a value that passes through (R218). -/
def nanInto (F : Fmt) (bits : Nat) (quiet : Bool) (gen : BitVec 32) : Conv :=
  let neg := bitOf bits 31
  match F with
  | .flt s e m _ spec wide =>
    let signed (mag : Nat) : Nat := if s == 1 then cat (b2n neg) (e + m) mag else mag
    if wide then
      let f := bits % 2 ^ 23 / 2 ^ (23 - m)
      let f := if quiet then (if bitOf f (m - 1) then f else f + 2 ^ (m - 1)) else if f == 0 then 2 ^ (m - 1) else f
      { code := signed (cat (2 ^ e - 1) m f), gen }
    else match spec with
      | .ieee =>
        let f := bits % 2 ^ 23 / 2 ^ (23 - m)
        let f := if quiet || f == 0 then 2 ^ (m - 1) else f
        { code := signed (cat (2 ^ e - 1) m f), gen }
      | .oneNan => { code := signed (2 ^ (e + m) - 1), gen }
      | .finite => { code := 0, nan := true, gen }
  | .e8m0 => { code := 0xFF, gen }
  | _ => { code := 0, nan := true, gen }

/-- A finite overflow or an infinity written into a format (R68, R64). -/
def overflowInto (F : Fmt) (sat neg : Bool) (gen : BitVec 32) : Conv :=
  if F.unsigned && neg then { code := 0, sat := true, gen }
  else
    let (n, d) := F.largest
    match F with
    | .int w true => { code := if neg then 2 ^ (w - 1) else 2 ^ (w - 1) - 1, sat := true, gen }
    | .int .. | .level _ => { code := encodeNum F false n d, sat := true, gen }
    | .bit => { code := 1, gen }
    | .e8m0 => { code := 0xFE, sat := true, gen }
    | .flt s e m _ spec _ =>
      if spec == .ieee && !sat then
        { code := if s == 1 then cat (b2n neg) (e + m) (cat (2 ^ e - 1) m 0) else cat (2 ^ e - 1) m 0, gen }
      else { code := encodeNum F neg n d, sat := true, gen }

/-- The weight of the least significant bit for the magnitude `n / d > 0`, as a power of two (R66). -/
def Fmt.lsb (F : Fmt) (n d : Nat) : Int :=
  match F with
  | .flt _ _ m bias _ wide =>
    let k := floorLog2 n d
    if wide && k < 1 - bias then 1 - bias - m else k - m
  | .e8m0 => floorLog2 n d
  | _ => 0

/-- Is rounding down right on a tie? The truncated magnitude is `t` lsbs of weight `2 ^ q`; the code it stands for must be
even (R66, R62). -/
def Fmt.tieDown (F : Fmt) (t : Nat) (q : Int) : Bool :=
  match F with
  | .flt _ _ 0 bias _ _ => (q + bias) % 2 == 0
  | .e8m0 => (q + 127) % 2 == 0
  | _ => t % 2 == 0

/-- `n / d` rounded to a multiple of its lsb: by RNE, or by the 24-bit draw `g` (R66). The result is a fraction. -/
def Fmt.round (F : Fmt) (g : Option Nat) (n d : Nat) : Nat × Nat :=
  if n == 0 then (0, 1)
  else
    let q := F.lsb n d
    let (a, b) := scale2 n d (-q)
    let t := a / b
    let up : Bool :=
      match g with
      | some g => decide (g < (a % b) * 2 ^ 24 / b)
      | none => if 2 * (a % b) == b then !F.tieDown t q else decide (b < 2 * (a % b))
    scale2 (if up then t + 1 else t) 1 q

/-- Is `a / b` greater than `c / d`? -/
def fracLt (c d a b : Nat) : Bool := c * b < a * d

/-- Conversion of a value into a format (R66, R67, R68, R62; log entry 90). `sr` is the entry's RND bit, `sat` its SAT bit. -/
def convert (F : Fmt) (sr sat : Bool) (x : Num) (gen : BitVec 32) : Conv :=
  let gen1 := if sr then draw32 gen else gen
  let g : Option Nat := if sr then some (gen1.toNat / 2 ^ 8) else none
  match x with
  | .nan bits => nanInto F bits true gen1
  | .inf neg => overflowInto F sat neg gen1
  | .fin sgn n d =>
    match F with
    | .bit => { code := if n == 0 then 0 else 1, gen := gen1 }
    | .e8m0 =>
      if n * 2 ^ 127 < d then { code := 0, gen := gen1 }
      else
        let (a, b) := F.round g n d
        if fracLt (2 ^ 127) 1 a b then { code := 0xFE, sat := true, gen := gen1 }
        else { code := encodeNum F false a b, gen := gen1 }
    | _ =>
      let neg := F.unsigned && sgn
      let (sn, sd) := F.smallest
      if F.narrow && n != 0 && fracLt n d sn sd then
        let gen2 := if sr then gen1 else draw32 gen
        let hit := gen2.toNat / 2 ^ 8 < n * sd * 2 ^ 24 / (d * sn)
        if neg && hit then { code := 0, sat := true, gen := gen2 }
        else if hit then { code := encodeNum F sgn sn sd, gen := gen2 }
        else { code := encodeNum F sgn 0 1, gen := gen2 }
      else
        let (a, b) := F.round g n d
        if neg && a != 0 then { code := 0, sat := true, gen := gen1 }
        else
          let lim := match F with
            | .int w true => if sgn then (2 ^ (w - 1), 1) else F.largest
            | _ => F.largest
          if fracLt lim.1 lim.2 a b then overflowInto F sat sgn gen1
          else { code := encodeNum F sgn a b, gen := gen1 }

/-- rne32 of R185: one rounding by RNE to binary32, overflow to an infinity, NaN bits kept. -/
def rne32 (x : Num) : Nat :=
  match x with
  | .nan b => b
  | _ => (convert fp32 false false x 1).code

/-- The value of FP32 bits. -/
def f32 (bits : Nat) : Num := decodeNum fp32 (bits % 2 ^ 32)

/-- The integer of a numerator with its sign. -/
def signed (neg : Bool) (n : Nat) : Int := if neg then -(n : Int) else n

/-- The integer that a value is, if it is one. -/
def Num.whole : Num → Option Int
  | .fin s n d => if n % d == 0 then some (signed s (n / d)) else none
  | _ => none

/-- The integer that a value is; where it is none, which only block scales can make it, a free one (log entry 74). -/
def Num.toInt (x : Num) : Int :=
  match x with
  | .fin s n d => x.whole.getD (Config.freeIndex (2 * n + b2n s) (d + 2))
  | .inf s => Config.freeIndex (b2n s) 0
  | .nan b => Config.freeIndex b 1

/-- The exact sum of two finite values as numerator and denominator. -/
def sumInt (s1 : Bool) (n1 d1 : Nat) (s2 : Bool) (n2 d2 : Nat) : Int × Nat :=
  (signed s1 (n1 * d2) + signed s2 (n2 * d1), d1 * d2)

/-- The exact sum, with the zero signs of R147 and R189: (−0) + (−0) = −0, any other exact zero is +0; an invalid sum is
the default NaN; a NaN operand gives `ifNan`. -/
def Num.add (x y : Num) : Num :=
  match x, y with
  | .nan b, _ => .nan b
  | _, .nan b => .nan b
  | .inf s, .inf s' => if s == s' then .inf s else .nan qnan
  | .inf s, _ => .inf s
  | _, .inf s => .inf s
  | .fin s n d, .fin s' n' d' =>
    let (v, e) := sumInt s n d s' n' d'
    if v == 0 then .fin (s && s' && n == 0 && n' == 0) 0 1 else .fin (v < 0) v.natAbs e

/-- The exact product (R184): 0 × ∞ is the default NaN, a NaN factor gives itself, the first one first. -/
def Num.mul (x y : Num) : Num :=
  match x, y with
  | .nan b, _ => .nan b
  | _, .nan b => .nan b
  | .inf s, .inf s' => .inf (s != s')
  | .inf s, .fin s' n _ => if n == 0 then .nan qnan else .inf (s != s')
  | .fin s n _, .inf s' => if n == 0 then .nan qnan else .inf (s != s')
  | .fin s n d, .fin s' n' d' => .fin (s != s') (n * n') (d * d')

/-- The exact quotient of two values: a NaN gives itself, and the limits are those of R216 for 1 / x. -/
def Num.div (x y : Num) : Num :=
  match x, y with
  | .nan b, _ => .nan b
  | _, .nan b => .nan b
  | .inf _, .inf _ => .nan qnan
  | .inf s, .fin s' _ _ => .inf (s != s')
  | .fin s _ _, .inf s' => .fin (s != s') 0 1
  | .fin s n d, .fin s' n' d' =>
    if n' == 0 then (if n == 0 then .nan qnan else .inf (s != s')) else .fin (s != s') (n * d') (d * n')

/-- The quotient of an element by its scale (R72, R220). The spec gives none by a scale of zero, infinity or NaN: there it is
a free value, but for an element that is NaN itself (log entry 68). -/
def Num.unscale (x y : Num) : Num :=
  match x, y with
  | .nan b, _ => .nan b
  | _, .fin _ (_ + 1) _ => x.div y
  | _, _ => f32 (Config.freeQuotient (rne32 x) (rne32 y))

/-- Ordered comparison of two values that are not NaN: is x < y? Zeros are equal. -/
def Num.lt (x y : Num) : Bool :=
  match x, y with
  | .nan _, _ => false
  | _, .nan _ => false
  | .inf s, .inf s' => s && !s'
  | .inf s, .fin .. => s
  | .fin .., .inf s => !s
  | .fin s n d, .fin s' n' d' => signed s (n * d') < signed s' (n' * d)

/-- Ordered equality; zeros are equal, a NaN equals nothing. -/
def Num.eq (x y : Num) : Bool := !x.isNan && !y.isNan && !x.lt y && !y.lt x

/-- The integer square root of `n`, bit by bit from bit `k`. -/
def isqrtGo (n : Nat) : Nat → Nat → Nat
  | 0, r => r
  | k + 1, r =>
    let c := r + 2 ^ k
    isqrtGo n k (if c * c ≤ n then c else r)

/-- floor(sqrt n). -/
def isqrt (n : Nat) : Nat := isqrtGo n (Nat.log2 n / 2 + 1) 0

/-- sqrt(n / d) as a fraction that rounds as the root does: exact, or with a sticky bit below 64 bits. -/
def sqrtFrac (n d : Nat) : Nat × Nat :=
  let s := 100 + (Nat.log2 d - Nat.log2 n) / 2 + 1
  let a := n * 2 ^ (2 * s)
  let r := isqrt (a / d)
  if r * r * d == a then (r, 2 ^ s) else (2 * r + 1, 2 ^ (s + 1))

/-- 2 ^ f in fixed point with 160 fractional bits, for f = bits / 2 ^ w, from the roots of 2. -/
def exp2Go : Nat → Nat → Nat → Nat → Nat
  | 0, _, _, acc => acc
  | w + 1, f, root, acc =>
    let root := isqrt (root * 2 ^ 160)
    exp2Go w (f % 2 ^ w) root (if f / 2 ^ w % 2 == 1 then acc * root / 2 ^ 160 else acc)

/-- 2 ^ x for a finite x, correctly rounded (R216). A magnitude below 2^-26 gives 1. -/
def exp2Fin (neg : Bool) (n d : Nat) : Nat :=
  if n == 0 then 0x3F800000
  else if n * 2 ^ 26 < d then 0x3F800000
  else if fracLt 1024 1 n d then (if neg then 0 else 0x7F800000)
  else
    let f64 := n * 2 ^ 64 / d
    let v : Int := signed neg f64
    let k := v / 2 ^ 64
    let fr := (v % 2 ^ 64).toNat
    if fr == 0 then rne32 (Num.mk2 false 1 k)
    else
      let m := exp2Go 64 fr (2 ^ 161) (2 ^ 160)
      rne32 (Num.mk2 false (2 * m + 1) (k - 161))

/-- The first `w` bits of log2 of `m / 2^256`, 1 ≤ that < 2, by squaring. -/
def log2Go : Nat → Nat → Nat → Nat
  | 0, _, acc => acc
  | w + 1, m, acc =>
    let q := m * m / 2 ^ 256
    if 2 ^ 257 ≤ q then log2Go w (q / 2) (2 * acc + 1) else log2Go w q (2 * acc)

/-- log2 x for a positive finite x, correctly rounded (R216). -/
def log2Fin (n d : Nat) : Nat :=
  let k := floorLog2 n d
  let (a, b) := scale2 n d (-k)
  if a == b then rne32 (Num.ofInt k)
  else
    let bits := log2Go 90 (a * 2 ^ 256 / b) 0
    let v : Int := 2 * (k * 2 ^ 90 + bits) + 1
    rne32 (.fin (v < 0) v.natAbs (2 ^ 91))

end Sys2Proof.Machine
end

