-- ==== Sys2Proof/Machine/Fields.lean ====
section
/-! DEFINITION. The field types that instructions, commands and events carry (R14, R15, R129, R131), and the small
records of the package's events. -/

namespace Sys2Proof

/-- The three stream engines, in the engine order of R20. -/
inductive EngId where
  | matrix | flume | sluice
  deriving DecidableEq, Repr, Inhabited

/-- The streams that a fault record can name (W0 STREAM of R306). -/
inductive StreamId where
  | control | engine (e : EngId)
  deriving DecidableEq, Repr

/-- The engine's number in wait fields and TWAIT (R15, R168). -/
def EngId.num : EngId → Nat
  | .matrix => 0 | .flume => 1 | .sluice => 2

/-- The engine of a number, if there is one. -/
def EngId.ofNum : Nat → Option EngId
  | 0 => some .matrix | 1 => some .flume | 2 => some .sluice | _ => none

/-- STREAM of R306. -/
def StreamId.num : StreamId → Nat
  | .control => 0 | .engine e => e.num + 1

/-- A qualifying predicate: QP and QN (R127). -/
structure Qual where
  p : BitVec 3
  n : Bool
  deriving DecidableEq, Repr

/-- A wait field (R15). -/
structure Wait where
  eng : BitVec 2
  seq : BitVec 5
  deriving DecidableEq, Repr

/-- The fields every engine command word has (R14). -/
structure CmdHead where
  idle : BitVec 10
  w0 : Wait
  w1 : Wait
  w2 : Wait
  deriving DecidableEq, Repr

/-- The second operand of CMP and FCMP: a register, or an immediate (IMMF, R131). -/
inductive CmpRhs where
  | reg (b : BitVec 5)
  | imm (v : BitVec 32)
  deriving DecidableEq, Repr

/-- Who makes a launch call: a partition's software, or its host through the virtual function (R292, R320). -/
structure Caller where
  part : Nat
  host : Bool
  deriving DecidableEq, Repr

/-- The eight words of a launch record (R291). -/
structure LaunchWords where
  w0 : Word
  w1 : Word
  w2 : Word
  w3 : Word
  w4 : Word
  w5 : Word
  w6 : Word
  w7 : Word
  deriving DecidableEq, Repr

/-- A signed image: its version, its measurement, and whether its two signatures verify against the enrolled keys
(R322). The algorithms themselves are outside the device's instruction set; what the device learns is the verdict. -/
structure SignedImage where
  version : Nat
  measure : Word
  edOk : Bool
  mlOk : Bool
  deriving DecidableEq, Repr

/-- One change that task control makes to a parked task's resident context (R309, R310). -/
inductive ContextEdit where
  /-- Store one 8-byte word of the context layout of R301 at byte offset `off`. -/
  | word (off : Nat) (v : Word)
  /-- Emulate the command at the head of an engine's queue: a counting command has the effect its unit would have (R286);
  for any other word the emulator gives the effect, the bytes it writes by window or virtual address and the flags it
  sets, and `landing`, the cycle that a timed frame records in the slot. -/
  | emulated (e : EngId) (landing : Nat) (writes : List (Nat × Byte)) (nan sat : Bool)
  /-- The emulator did not know the word at which a stream stopped: a record of code ILLEGAL with the same fields. -/
  | unknownWord (st : StreamId)
  /-- A store of the emulator or the debugger into memory that the launch's page tables map (R310, R311). -/
  | store (va : Nat) (bytes : List Byte)
  /-- The debugger emulates the word `w` that a BRK displaced: PREP, XFER, XCALL or RET, with the faults of R160 and R161 (R174,
  R311). The effect of any other word is given word by word. -/
  | displaced (w : Word)
  /-- The hypervisor carries out `iinv.all.pod` for the partition (R311). -/
  | invalidate
  /-- An edit of a saved context image at physical address `addr` (R309, R310). -/
  | image (addr off : Nat) (v : Word)
  deriving DecidableEq, Repr

/-- One section of code of an object: its kind, its first address and its length in bytes (R108). -/
structure Section where
  control : Bool
  base : Nat
  size : Nat
  deriving DecidableEq, Repr

/-- A strong definition of a name, or a reference through a `.links` entry (R110, R111). -/
structure Symbol where
  name : Nat
  addr : Nat
  deriving DecidableEq, Repr

/-- A code object as the loader sees it (R108 to R116): `image` holds the bytes of its sections by address. -/
structure CodeObject where
  id : Nat
  sections : List Section
  image : List (Nat × List Byte)
  profiles : List (Nat × Nat × Nat)
  strong : List Symbol
  weak : List Symbol
  links : List Symbol
  scaleOut : Bool
  deriving DecidableEq, Repr

end Sys2Proof
end

