-- ==== Sys2Proof/Syntax.lean ====
section
/-! DEFINITION. The instructions, commands and events of the opcode table: one constructor for each row. Control-core
instructions come first (R133), then the generic commands (R32 to R35) and the commands of the matrix engine (R196),
the flume (R256) and the sluice (R285), then the events of the package. -/

namespace Sys2Proof

/-- One row of the opcode table. `q` is a qualifying predicate (R127), `h` the head of a command word (R14). -/
inductive Instr where
  | nop (q : Qual)
  | halt (q : Qual)
  | trap (q : Qual) (imm16 : BitVec 16)
  | brk
  | spget (q : Qual) (d : BitVec 5) (fn : BitVec 8)
  | spset (q : Qual) (a : BitVec 5) (fn : BitVec 8)
  | iinv (q : Qual) (a b : BitVec 5) (scope : BitVec 3) (whole : Bool)
  | prime (q : Qual) (a b : BitVec 5)
  | fork (q : Qual) (d a b : BitVec 5) (fn : BitVec 4)
  | join (q : Qual) (d : BitVec 5)
  | twait (q : Qual) (d a : BitVec 5) (eng : BitVec 2) (seq20 : BitVec 20)
  | qcancel (q : Qual) (mask : BitVec 3)
  | tset (q : Qual) (a : BitVec 5) (tid : BitVec 6) (word : BitVec 3)
  | tget (q : Qual) (d : BitVec 5) (tid : BitVec 6) (word : BitVec 3)
  | patw (q : Qual) (a : BitVec 5) (pat : BitVec 4)
  | patr (q : Qual) (d : BitVec 5) (pat : BitVec 4)
  | shpw (q : Qual) (a : BitVec 5) (sh : BitVec 3) (word : BitVec 2)
  | shpr (q : Qual) (d : BitVec 5) (sh : BitVec 3) (word : BitVec 2)
  | bar (q : Qual) (scope : BitVec 3) (bid : BitVec 6)
  | barr (q : Qual) (a b : BitVec 5) (scope : BitVec 3) (bid : BitVec 6) (rop rtype : BitVec 3)
  | launch (q : Qual) (d a : BitVec 5)
  | add (q : Qual) (d a b : BitVec 5)
  | sub (q : Qual) (d a b : BitVec 5)
  | and (q : Qual) (d a b : BitVec 5)
  | or (q : Qual) (d a b : BitVec 5)
  | xor (q : Qual) (d a b : BitVec 5)
  | andn (q : Qual) (d a b : BitVec 5)
  | shl (q : Qual) (d a b : BitVec 5)
  | shr (q : Qual) (d a b : BitVec 5)
  | sar (q : Qual) (d a b : BitVec 5)
  | min (q : Qual) (uns : Bool) (d a b : BitVec 5)
  | max (q : Qual) (uns : Bool) (d a b : BitVec 5)
  | mul (q : Qual) (d a b : BitVec 5)
  | mulh (q : Qual) (uns : Bool) (d a b : BitVec 5)
  | div (q : Qual) (uns : Bool) (d a b : BitVec 5)
  | rem (q : Qual) (uns : Bool) (d a b : BitVec 5)
  | csel (q : Qual) (d a b : BitVec 5) (p : BitVec 3) (pn : Bool)
  | addi (q : Qual) (d a : BitVec 5) (imm : BitVec 32)
  | andi (q : Qual) (d a : BitVec 5) (imm : BitVec 32)
  | ori (q : Qual) (d a : BitVec 5) (imm : BitVec 32)
  | xori (q : Qual) (d a : BitVec 5) (imm : BitVec 32)
  | shli (q : Qual) (d a : BitVec 5) (sh : BitVec 6)
  | shri (q : Qual) (d a : BitVec 5) (sh : BitVec 6)
  | sari (q : Qual) (d a : BitVec 5) (sh : BitVec 6)
  | limm (q : Qual) (d : BitVec 5) (imm : BitVec 32)
  | limmh (q : Qual) (d : BitVec 5) (imm : BitVec 32)
  | bfx (q : Qual) (d a : BitVec 5) (pos lenm1 : BitVec 6) (sx : Bool)
  | bfi (q : Qual) (d a : BitVec 5) (pos lenm1 : BitVec 6)
  | rev (q : Qual) (d a : BitVec 5) (bytes : Bool)
  | clz (q : Qual) (d a : BitVec 5)
  | ctz (q : Qual) (d a : BitVec 5)
  | popc (q : Qual) (d a : BitVec 5)
  | clmul (q : Qual) (hi : Bool) (d a b : BitVec 5)
  | cmp (pd pc : BitVec 3) (a : BitVec 5) (rhs : CmpRhs) (cond : BitVec 4)
  | plog (q : Qual) (pd pa pb : BitVec 3) (tt : BitVec 4)
  | psave (q : Qual) (d : BitVec 5)
  | pload (q : Qual) (a : BitVec 5) (pmask : BitVec 8)
  | fcmp (pd pc : BitVec 3) (a : BitVec 5) (rhs : CmpRhs) (cond : BitVec 4)
  | fadd (q : Qual) (d a b : BitVec 5)
  | fsub (q : Qual) (d a b : BitVec 5)
  | fmul (q : Qual) (d a b : BitVec 5)
  | ffma (q : Qual) (d a b : BitVec 5)
  | fmin (q : Qual) (d a b : BitVec 5)
  | fmax (q : Qual) (d a b : BitVec 5)
  | fcvt (q : Qual) (d a : BitVec 5) (fn : BitVec 2)
  | ld (q : Qual) (d a x : BitVec 5) (cls : BitVec 4) (sz : BitVec 2) (sx : Bool) (off : BitVec 26)
  | st (q : Qual) (d a x : BitVec 5) (cls : BitVec 4) (sz : BitVec 2) (off : BitVec 26)
  | lda (q : Qual) (d a x : BitVec 5) (cls : BitVec 4) (scope : BitVec 3) (sz : BitVec 2) (sx : Bool) (mask : BitVec 16) (off : BitVec 10)
  | stl (q : Qual) (d a x : BitVec 5) (cls : BitVec 4) (scope : BitVec 3) (sz : BitVec 2) (mask : BitVec 16) (off : BitVec 10)
  | pref (q : Qual) (a x : BitVec 5) (off : BitVec 26)
  | fence (q : Qual) (before after : BitVec 16) (scope : BitVec 3)
  | prep (j p : BitVec 3) (pn : Bool) (off : BitVec 48)
  | prepr (q : Qual) (j : BitVec 3) (a : BitVec 5)
  | xfer (j p : BitVec 3) (pn : Bool)
  | xcall (j p : BitVec 3) (pn : Bool)
  | ret (q : Qual)
  | jget (q : Qual) (d : BitVec 5) (j : BitVec 3)
  | jclr (q : Qual) (j : BitVec 3)
  | idle (e : EngId) (h : CmdHead) (extra : BitVec 26)
  | rep (e : EngId) (h : CmdHead) (body : BitVec 4) (countm1 : BitVec 12) (addr tid wstep : BitVec 3)
  | efence (e : EngId) (h : CmdHead) (classes : BitVec 16) (scope : BitVec 3)
  | endStream (e : EngId) (h : CmdHead)
  | mma (h : CmdHead) (a b c : BitVec 6) (semi : BitVec 2) (acc ta tb : Bool)
  | accz (h : CmdHead) (c : BitVec 6)
  | acccp (h : CmdHead) (a c : BitVec 6) (zsrc : Bool)
  | wfill (h : CmdHead) (a c : BitVec 6)
  | winv (h : CmdHead) (c : BitVec 6) (whole : Bool)
  | part (h : CmdHead) (a c : BitVec 6) (neg : Bool)
  | rank (h : CmdHead) (a c : BitVec 6) (asc : Bool)
  | topk (h : CmdHead) (a c : BitVec 6) (km1 : BitVec 7) (asc : Bool)
  | drain (h : CmdHead) (a c : BitVec 6) (sh : BitVec 3)
  | amax (h : CmdHead) (a c : BitVec 6) (sh : BitVec 3)
  | mseed (h : CmdHead) (a : BitVec 6)
  | copy (h : CmdHead) (a c : BitVec 6)
  | fill (h : CmdHead) (a c : BitVec 6) (zero : Bool)
  | gather (h : CmdHead) (a b c : BitVec 6) (skip : Bool)
  | scatter (h : CmdHead) (a b c : BitVec 6) (skip : Bool)
  | gathp (h : CmdHead) (a b c : BitVec 6) (pshift : BitVec 6) (skip : Bool)
  | exp24 (h : CmdHead) (a c : BitVec 6)
  | putr (h : CmdHead) (a c : BitVec 6) (rop : BitVec 2)
  | bcast (h : CmdHead) (a c : BitVec 6) (scope : BitVec 3)
  | fseed (h : CmdHead) (a : BitVec 6)
  | pfetch (h : CmdHead) (a : BitVec 6)
  | cmpb (h : CmdHead) (a b c : BitVec 6)
  | sacc (h : CmdHead) (a b c : BitVec 6) (skip : Bool) (sop : BitVec 3)
  | sfetch (h : CmdHead) (a b c : BitVec 6) (skip : Bool) (sop : BitVec 3)
  | scas (h : CmdHead) (a b c : BitVec 6) (skip : Bool)
  | bset (h : CmdHead) (a c : BitVec 6) (skip : Bool)
  | bclr (h : CmdHead) (a c : BitVec 6) (skip : Bool)
  | btest (h : CmdHead) (a b c : BitVec 6) (skip tas : Bool)
  | cinc (h : CmdHead) (a c : BitVec 6) (skip : Bool)
  | cmerge (h : CmdHead) (a c : BitVec 6)
  | cread (h : CmdHead) (a c : BitVec 6)
  | sseed (h : CmdHead) (a : BitVec 6)
  | sequencerFetch (e : EngId)
  | frameStart (e : EngId)
  | commandLands (e : EngId) (seq : Nat)
  | cancelledAtHead (e : EngId)
  | prefetchComplete (j : BitVec 3)
  | iinvInvalidationPoint (id : Nat)
  | barrierDeparture (lid : Nat) (scope : BitVec 3) (unit : Nat) (bid : BitVec 6)
  | remoteTimeout (agent : StreamId)
  | putrRequestTimeout (e : EngId) (tag : BitVec 32)
  | remoteConfirmation (e : EngId) (tag : BitVec 32)
  | reductionRequest (e : EngId) (tag : BitVec 32)
  | hypervisorLaunchCall (die : Nat) (caller : Caller) (rec : LaunchWords)
  | launchDispatch (die prio : Nat)
  | bind (die : Nat)
  | resume (die : Nat)
  | preempt (die : Nat)
  | kill (die : Nat)
  | bindActionOther (die : Nat)
  | contextFill
  | gangSwap (tag : BitVec 16)
  | contextSaved
  | quantumExpiry (lid gang : Nat)
  | agingPromotion (lid gang : Nat)
  | faultRecordDelivery (part : Nat)
  | taskContinue (lid gang : Nat)
  | taskEdit (edit : ContextEdit)
  | shootdown (part lo hi : Nat)
  | powerRequest (part : Nat) (host : Bool) (w : Word)
  | weirSample (die : Nat) (limit : Bool) (d : Nat)
  | boot
  | firmwareUpdate (img : SignedImage) (cut : Bool)
  | attestationRequest (part : Nat) (nonce : List Byte)
  | fatalError (cause : BitVec 8) (addr : Word)
  | watchdogTimeout (die : Nat)
  | flitReplay (lane : Nat)
  | laneFailure (lane : Nat)
  | opcodeNotListed (w : Word)
  | engineOpcodeNotListed (e : EngId) (w : Word)
  | codeObjectLoad (part : Nat) (obj : CodeObject)
  | powerStateExit
  | scaleOutFrameReceive (port : Nat) (pause : Bool) (data : List Byte)
  deriving DecidableEq, Repr

end Sys2Proof
end

