-- ==== Sys2Proof/Machine/State.lean ====
section
/-! DEFINITION. The state of a package (D4 or D2), its reset, and the reasons a step can stop. State is plain data: it
holds every register, store, queue and record that the spec names. -/

namespace Sys2Proof.Machine

/-- Why a step stops with a fault of the MODEL. The device's own faults (R308) are taken, not stops. -/
inductive Fault where
  /-- Raised by no meaning of this model: every condition the spec names is taken as an exception or completes. Safe. -/
  | unreachable
  deriving DecidableEq, Repr

/-- Why an instruction is refused. -/
inductive Refusal where
  /-- An instruction whose meaning this model does not give; raised by an arm of `exec` alone. Safe. -/
  | notModelled (mnemonic : String)
  deriving DecidableEq, Repr

/-- The fault codes of R308. -/
inductive Code where
  | illegal | unimpl | unprepared | integrity | shadowLimit | break_ | trap | step | fetchBounds | align
  | notPresent | permission | tack | pattern | format | geometry | token | overrun | timedState
  | timedTranslation | remoteTimeout | uncorrectable | privilege | launch
  deriving DecidableEq, Repr

/-- The code's number (R308). -/
def Code.num : Code → Nat
  | .illegal => 0x01 | .unimpl => 0x02 | .unprepared => 0x03 | .integrity => 0x04 | .shadowLimit => 0x05
  | .break_ => 0x06 | .trap => 0x07 | .step => 0x08 | .fetchBounds => 0x09 | .align => 0x0A
  | .notPresent => 0x0B | .permission => 0x0C | .tack => 0x0D | .pattern => 0x0E | .format => 0x0F
  | .geometry => 0x10 | .token => 0x11 | .overrun => 0x12 | .timedState => 0x13 | .timedTranslation => 0x14
  | .remoteTimeout => 0x15 | .uncorrectable => 0x16 | .privilege => 0x17 | .launch => 0x18

/-- A fault as a meaning finds it: its code, the failing address (AVALID), the element (EVALID) and APPLIED. -/
structure Trap where
  code : Code
  addr : Option Nat := none
  elem : Option Nat := none
  applied : Nat := 0
  imm : Nat := 0
  deriving DecidableEq, Repr

/-- The state of a branch-target register (R119). -/
inductive JState where
  | empty | fetching | ready | stale
  deriving DecidableEq, Repr

/-- A branch-target register: TADDR, JSTATE and the 64-byte prefetch buffer (R119), as (address, word) pairs. -/
structure JReg where
  taddr : Word
  st : JState
  buf : List (Nat × Word)
  deriving DecidableEq, Repr

/-- The stores a byte can lie in (R73); `far n` is the scratchpad of launch core `n` (R75), `mem` is physical memory. -/
inductive Space where
  | reg | scr | wbuf | mem | far (n : Nat)
  deriving DecidableEq, Repr

/-- The eight words of a tack entry (R39). -/
structure Entry where
  w0 : Word
  w1 : Word
  w2 : Word
  w3 : Word
  w4 : Word
  w5 : Word
  w6 : Word
  w7 : Word
  deriving DecidableEq, Repr

/-- An operand of a command instance: the snapshot of its entry and the REP stepping offset (R33, R54). -/
structure View where
  t : Entry
  off : Int
  deriving DecidableEq, Repr

/-- A write of the bits `mask` of one byte (R65). -/
structure BWrite where
  sp : Space
  at_ : Nat
  mask : Byte
  val : Byte
  deriving DecidableEq, Repr

/-- TOUCHED and OVF of one 4-byte word of the register space (R38). -/
structure Flag where
  touched : Bool
  ovf : Bool
  deriving DecidableEq, Repr

/-- The flags that a launch fill leaves (R38). -/
def Flag.fresh : Flag := ⟨true, false⟩

/-- The operations of the sluice on its targets (R265, R273 to R282). -/
inductive SluKind where
  | sacc (sop : Nat) | sfetch (sop : Nat) | scas | bset | bclr | btest (tas : Bool) | cinc | cmerge | cread
  deriving DecidableEq, Repr

/-- A sluice command after issue: its snapshot (R54), its index list and values as read at issue, and its elements
`first` to `last` − 1, `first` being the first unperformed one (R284). `tgt` is the target, CMERGE's destination or
CREAD's source; `res` is the slot that old values or estimates go to, or CMERGE's source. Where a read has found some of
the command's updates already (R23, R268), `done` are the elements that have performed, `olds` their values that are still
to be written to slot b, and `rise` by how many levels its draws raise each counter. `late` are the elements whose value could not
be taken over at issue, because an earlier command that will stop is still to update it (R269). -/
structure SluOp where
  kind : SluKind
  idx : List Int
  vals : List Nat
  news : List Nat
  tgt : View
  res : View
  first : Nat
  last : Nat
  done : List Nat
  olds : List (Nat × Nat)
  rise : List (Nat × Nat)
  late : List Nat
  deriving DecidableEq, Repr

/-- A fold of an FP32 value into a word (R221). -/
structure FoldOp where
  sp : Space
  at_ : Nat
  val : Nat
  deriving DecidableEq, Repr

/-- One element of a reduction: the bytes in which its bits stand, from bit `bit` of the first one on, and the value (R248); the
bytes are named one by one, for those of an element of memory can lie in two pages. `done` says that a read has found it
performed already. -/
structure RedElem where
  at_ : List Nat
  bit : Nat
  width : Nat
  val : Nat
  done : Bool
  deriving DecidableEq, Repr

/-- What a tagged request does at its target (R248, R284, R223). -/
inductive ReqOp where
  | putr (rop : Nat) (fmt : Nat) (elems : List RedElem)
  | slu (op : SluOp)
  | fold (op : FoldOp)
  deriving DecidableEq, Repr

/-- A request with its tag (R250): where it goes, the first element it holds, and what has become of it; `lost` says that
its 8 ms have passed, `age` how many cycles of them (R251). -/
structure Req where
  tag : BitVec 32
  seq : Nat
  elem : Nat
  tgt : Space
  op : ReqOp
  applied : Bool
  confirmed : Bool
  lost : Bool
  olds : List (Nat × Nat)
  age : Nat
  deriving DecidableEq, Repr

/-- The commands of the flume that move data (R243 to R248, R252, R255); `bcast` names its targets. -/
inductive FluKind where
  | copy
  | fill (zero : Bool)
  | gather (skip : Bool)
  | scatter (skip : Bool)
  | gathp (pshift : Nat) (skip : Bool)
  | exp24
  | putr (rop : Nat)
  | bcast (targets : List Nat)
  | cmpb
  deriving DecidableEq, Repr

/-- A flume command after issue: its snapshot (R54) with the scale entries of its slots, its index list as read at
issue (R245), FILL's code once it has been converted (R244), whether it is all or nothing because it writes what it reads, with an
operand in memory (R239), whether a command issued after it has drawn or seeded the lanes, the
lane states with which it goes on in that case, and, where its elements do not commit in the order in which they draw, the lane
states before all of them (R71, R231). -/
structure FluOp where
  kind : FluKind
  a : View
  b : View
  c : View
  sa : Entry
  sb : Entry
  sc : Entry
  idx : List Int
  code : Option Nat
  whole : Bool
  passed : Bool
  lanes : Option (Sparse (BitVec 32))
  base : Option (Sparse (BitVec 32))
  deriving DecidableEq, Repr

/-- An element of a flume command whose writes are in flight: its number, the number of byte writes before it, and for
a remote command the lane states before it (R71, R241). PUTR's list ends with the lane states after its last element. -/
structure FluEnd where
  k : Nat
  n : Nat
  gens : Sparse (BitVec 32)
  deriving DecidableEq, Repr

/-- What happens when an issued command lands, beside its byte writes. A weight-port command writes `cells`, out of the
bytes `lo` to `hi` − 1 that it fills, and invalidates ranges of lines. A flume command carries its elements in order. -/
inductive LandOp where
  | none
  | slu (op : SluOp)
  | fold (op : FoldOp)
  | weight (lo hi : Nat) (cells : List (Nat × Byte)) (lines : List (Nat × Nat))
  | fence (classes : Nat)
  | flu (op : FluOp) (ends : List FluEnd)
  deriving DecidableEq, Repr

/-- An issued command that has not completed (R13, R20): whether it issued in timed mode (R305), its landing cycle, its byte
writes, its flag writes, its landing operation, a fault that stops it at an element once the writes before it are performed
(R241), the GEN entries whose RANGE bit it sets (R50), the ordering classes of the entries it writes (R34), the cycles of a
remote access (R75), whether a continued command performs its elements anew from the stop (R241), the byte writes of each unit
that DRAIN commits (R222), the container of the written elements in bytes, with the places of block scales and theirs (R88),
and the granules in which the control core has seen it, whatever its landing cycle (R157). A byte write whose mask is 0 has
been performed already; it keeps the byte that stood there before (R239). -/
structure Flight where
  seq : Nat
  pc : Nat
  word : Word
  timed : Bool
  land : Nat
  writes : List BWrite
  flags : List (Nat × Flag)
  acc : Bool
  op : LandOp
  seedAfter : Option (BitVec 32)
  stop : Option Trap
  ranges : List Nat
  cls : Nat
  age : Nat
  redo : Bool
  units : List Nat
  cont : Nat
  scont : Nat
  scales : List (Space × Nat)
  seen : List (Space × Nat)
  deriving DecidableEq, Repr

/-- A token of the current frame (R24): sequence number, nominal stamp, and how it stands. -/
structure Tok where
  seq : Nat
  stamp : Nat
  done : Bool
  can : Bool
  deriving DecidableEq, Repr

/-- REP in progress (R33): body length, passes, pass number, position in the body, and the three masks. -/
structure RepSt where
  body : Nat
  count : Nat
  pass : Nat
  pos : Nat
  addr : BitVec 3
  tid : BitVec 3
  wstep : BitVec 3
  deriving DecidableEq, Repr

/-- A queue entry: the address of a command word and the word (R13). -/
structure QEnt where
  pc : Nat
  word : Word
  deriving DecidableEq, Repr

/-- The restart entry of R242. -/
structure Restart where
  rvalid : Bool
  applied : Nat
  elem : Nat
  ktag : BitVec 32
  conf : BitVec 32
  deriving DecidableEq, Repr

/-- One stream engine with its sequencer (R13, R16, R30): its frame, its queue, its tokens, what is in flight. `peek` is the next
word of the stream where the sequencer has read it and its token slot is not free yet (R25). -/
structure Eng where
  fid : Nat
  mask : BitVec 3
  timed : Bool
  degr : Bool
  started : Bool
  countdown : Nat
  cnt : Nat
  running : Bool
  ended : Bool
  endSeq : Option Nat
  forked : Bool
  pc : Nat
  rlo : Nat
  rhi : Nat
  fetchFault : Bool
  queue : List QEnt
  peek : Option Word
  rep : Option RepSt
  seq : Nat
  stamp : Nat
  toks : List Tok
  past : List (Nat × List Tok)
  flight : List Flight
  busyA : Nat
  busyB : Nat
  busyC : Nat
  hold : Option Nat
  nan : Bool
  sat : Bool
  can : Bool
  ran : Bool
  tag : BitVec 32
  reqs : List Req
  restart : Restart
  stopped : Option Flight
  deriving DecidableEq, Repr

/-- The control core's registers (R117 to R120, R124, R125, R167), and the model's own `ir`, the word being executed, and
`waiting`, which says that it has not retired and will be executed again without a fetch. -/
structure Ctl where
  g : Sparse Word
  p : BitVec 8
  j : Sparse JReg
  ssp : Word
  ssl : Word
  pc : Word
  ir : Word
  waiting : Bool
  step : Bool
  phys : Bool
  degr : Bool
  timed : Bool
  frame : Bool
  framecnt : Nat
  frameEng : Nat
  tasktime : Nat
  pending : Word
  clo : Nat
  chi : Nat
  remote : Option Nat
  remoteAge : Nat
  deriving DecidableEq, Repr

/-- A translation as a leaf of R80 gives it: the page's size as a power of two, its physical address, its bits. -/
structure Leaf where
  log2 : Nat
  pa : Nat
  prop : Nat
  shadow : Bool
  u : Bool
  x : Bool
  w : Bool
  rd : Bool
  deriving DecidableEq, Repr

/-- A fault record waiting for delivery (R306, R307), as its eight words. -/
structure FaultRec where
  part : Nat
  lid : Nat
  lcn : Nat
  w0 : Word
  w2 : Word
  w3 : Word
  w4 : Word
  w5 : Word
  w6 : Word
  w7 : Word
  deriving DecidableEq, Repr

/-- A task: everything that a context image holds (R301) and the identity its launch gives it (R121), with the launch queue
that its address space belongs to (R79). `parking` says that a fault of this cycle parks it at the cycle's end (R305); `recs` are the
latest fault records of its stopped streams, one for each (R310). -/
structure Task where
  lid : Nat
  lcn : Nat
  gsize : Nat
  gcount : Nat
  part : Nat
  queue : Nat
  argptr : Word
  saveMask : BitVec 32
  wbSave : Bool
  timedLaunch : Bool
  ctl : Ctl
  fidNext : Nat
  t : Sparse Word
  pat : Sparse Word
  sh : Sparse Word
  m : Eng
  f : Eng
  s : Eng
  reg : List Host.Cell
  flags : Sparse Flag
  scr : List Host.Cell
  wb : List Host.Cell
  wbValid : Sparse Bool
  drainGen : Sparse (BitVec 32)
  flumeGen : Sparse (BitVec 32)
  sluGen : BitVec 32
  pins : List (Nat × Leaf)
  tlb : List (Nat × Leaf)
  icache : List (Nat × Word)
  parking : Bool
  parkAll : Bool
  parkCtl : Bool
  saving : Bool
  bad : List (Space × Nat)
  recs : List FaultRec
  deriving DecidableEq, Repr

/-- The state of a context slot (R294). -/
inductive SlotSt where
  | empty | filling | staged | resident | saving
  deriving DecidableEq, Repr

/-- A core of the package with its two context slots (R294). `released` is false from a swap until the last swap of
the group (R297); `fillFrom`, `fillVirt`, `fillCtx` and `stagedRec` belong to a staged slot being filled. -/
structure Core where
  pcore : Nat
  slot : SlotSt
  task : Task
  released : Bool
  staged : SlotSt
  stagedTask : Task
  stagedTag : Nat
  fillFrom : Nat
  fillVirt : Bool
  fillCtx : Bool
  saveTo : Nat
  deriving DecidableEq, Repr

/-- A bind record of the slot table (R294); `started` says that the headgate has acted on it. -/
structure BindRec where
  die : Nat
  action : Nat
  commit : Bool
  groupn : Nat
  tag : Nat
  pcore : Nat
  lid : Nat
  status : Nat
  virt : Bool
  gshape : Nat
  lcn : Nat
  addr : Nat
  started : Bool
  deriving DecidableEq, Repr

/-- What has become of a launch (R291 to R293, R295, R299). -/
inductive LaunchSt where
  | queued | active | finished
  deriving DecidableEq, Repr

/-- An accepted launch (R291, R292): its record, its queue, and what its completion record will say (R293): the launch
core numbers of the tasks that have halted, and the largest TASKTIME. -/
structure Launch where
  lid : Nat
  part : Nat
  die : Nat
  rec_ : LaunchWords
  st : LaunchSt
  halted : List Nat
  maxTime : Nat
  deriving DecidableEq, Repr

/-- Where a gang stands (R298). -/
inductive GangSt where
  | ready | binding | resident | saving | done
  deriving DecidableEq, Repr

/-- A gang of a launch (R10, R298): its effective level, since when it has waited or been resident, and the images of its
tasks once it has been saved. -/
structure Gang where
  lid : Nat
  idx : Nat
  st : GangSt
  level : Nat
  since : Nat
  saved : Bool
  images : List (Nat × Nat)
  deriving DecidableEq, Repr

/-- The power states of R325. -/
inductive PowerSt where
  | s0 | s1 | s2 | s3
  deriving DecidableEq, Repr

/-- A partition (R322): the root of its address space, with those of the launch queues that have one of their own (R79), its
share of memory, cores and application cores, its fault queue (R307), the addresses of its stub and its binding directory
and their contents (R116, R179), its power request, the state of its cores and the clock at which their exit completes
(R325), how its last load ended, what its last launch call returned (R292), the fault record that its host has last read in the
mailbox of its virtual function (R320), and whether its system image has selected a policy of its own (R298). The addresses of stub and directory are given with the partition (log entry 66). -/
structure Partition where
  id : Nat
  running : Bool
  root : Nat
  roots : Sparse Nat
  share : List (Nat × Nat)
  cores : List Nat
  appCores : List Nat
  vf : Bool
  ring : Nat
  ringSlots : Nat
  ringAt : Nat
  stub : Nat
  directory : Nat
  dirCount : Nat
  objects : List CodeObject
  image : SignedImage
  tolNs : Nat
  power : PowerSt
  exitAt : Option Nat
  lastLoad : Nat
  lastCall : Nat
  mail : List Word
  ownPolicy : Bool
  deriving DecidableEq, Repr

/-- An arrival at a barrier (R171, R172). -/
structure Arrival where
  lid : Nat
  lcn : Nat
  scope : BitVec 3
  unit : Nat
  bid : BitVec 6
  barr : Bool
  rop : Nat
  rtype : Nat
  payload : List Byte
  dest : Nat
  deriving DecidableEq, Repr

/-- A departure that its participant has not yet taken: the barrier, and the result, or GEOMETRY on disagreement (R172). -/
structure Depart where
  lid : Nat
  lcn : Nat
  scope : BitVec 3
  bid : BitVec 6
  ok : Bool
  payload : List Byte
  deriving DecidableEq, Repr

/-- An IINV in progress (R163): the range and the scope, the cores that have not passed their invalidation point, and whether an
edit has taken its task past the instruction, so that none waits for it. -/
structure Iinv where
  id : Nat
  lid : Nat
  lcn : Nat
  lo : Nat
  hi : Nat
  scope : Nat
  whole : Bool
  left : Bool
  todo : List Nat
  deriving DecidableEq, Repr

/-- What a saved context holds beside its image: the parts of the engines that no area of R301 names (the addresses and
stamps of a frame, its older tokens, held remote accesses with their requests), and the control core's frame, code region
and remote access, its PC and the instruction in which it waits, and the records of its stopped streams. -/
structure SavedRest where
  lid : Nat
  lcn : Nat
  m : Eng
  f : Eng
  s : Eng
  fidNext : Nat
  frameEng : Nat
  clo : Nat
  chi : Nat
  remote : Option Nat
  remoteAge : Nat
  parkAll : Bool
  parkCtl : Bool
  pc : Word
  ir : Word
  waiting : Bool
  recs : List FaultRec
  deriving DecidableEq, Repr

/-- A tag that a target has applied, with its source and the time (R250). -/
structure TagSeen where
  lid : Nat
  lcn : Nat
  eng : EngId
  tag : BitVec 32
  at_ : Nat
  deriving DecidableEq, Repr

/-- How far the boot of R322 has come. -/
inductive BootSt where
  | off | recovery | running
  deriving DecidableEq, Repr

/-- A dump of R314: cause, the clock at the stop, and the failing address. -/
structure Dump where
  cause : Nat
  at_ : Nat
  addr : Word
  deriving DecidableEq, Repr

/-- An attestation report (R323): the three measurements, the nonce, and its two signatures. -/
structure Report where
  part : Nat
  fw : Word
  descriptor : Word
  image : Word
  nonce : List Byte
  sigEd : Word
  sigMl : Word
  deriving DecidableEq, Repr

/-- A report of the boot to a partition (R315, R316, R314): the application and management cores of its package, the cores
that failed their self-test, and the dump of the fatal error before the boot. -/
structure BootReport where
  part : Nat
  appCores : List Nat
  mgmtCores : List Nat
  failed : List Nat
  dump : Option Dump
  deriving DecidableEq, Repr

/-- The rings of a scale-out port (R321): the partition whose NMC pages hold them, where its receive and transmit slots
lie and how many there are, the next slot of each, the priorities that flow control has paused, and the frames sent. -/
structure PortRing where
  port : Nat
  part : Nat
  rx : Nat
  tx : Nat
  slots : Nat
  rxAt : Nat
  txAt : Nat
  paused : BitVec 8
  sent : List (List Byte)
  deriving DecidableEq, Repr

/-- A shoot-down that has been asked for and has not completed (R83): the partition and the range of addresses. -/
structure Shoot where
  part : Nat
  lo : Nat
  hi : Nat
  deriving DecidableEq, Repr

/-- A translation in the cache of a die (R82): whose it is, the root it was walked from, the page and its leaf. -/
structure DieXlat where
  die : Nat
  part : Nat
  root : Nat
  base : Nat
  leaf : Leaf
  deriving DecidableEq, Repr

/-- Who moves next: a control core, an engine at the head of its queue, an event (focused on a core), the firmware writing
a bind record into a ring (R294) or binding by its policy (R298), a partition that sets up the rings of a port, splits the
port in two or sends a frame from it (R321), a host that reads a fault record in the mailbox of a partition's virtual function or
frees its slot (R307, R320), or the clock. -/
inductive Move where
  | record (r : BindRec)
  | policy
  | ring (r : PortRing)
  | split (port : Nat)
  | send (port prio n : Nat)
  | mailRead (part : Nat)
  | mailFree (part : Nat)
  | control (c : Nat)
  | issue (c : Nat) (e : EngId)
  | event (c : Nat) (i : Instr)
  | tick
  deriving DecidableEq, Repr

/-- The package. `cur` is the core that the next move concerns and `rest` holds the others; a core that is not listed
has two empty slots. `agenda` says which moves of the present cycle are still to be made, `inputs` what the outside
world will do; `left` holds the arrivals whose tasks wait for them no longer (log entry 110). -/
structure State where
  d4 : Bool
  boot : BootSt
  now : Nat
  bootAt : Nat
  fresh : Nat
  cur : Core
  rest : List Core
  mem : List Host.Cell
  badMem : List Nat
  pkg : Nat
  hostLink : Bool
  parts : List Partition
  launches : List Launch
  nextLid : Nat
  gangs : List Gang
  binds : List BindRec
  nextTag : Nat
  ctxNext : Nat
  saved : List (Nat × SavedRest)
  arrivals : List Arrival
  left : List Arrival
  departs : List Depart
  iinvs : List Iinv
  nextIinv : Nat
  faults : List FaultRec
  tagsSeen : List TagSeen
  weir : Sparse Nat
  power : PowerSt
  exitAt : Option Nat
  hostTol : Nat
  fw : SignedImage
  flash : SignedImage
  rollback : Nat
  descriptor : Word
  bootParts : List Partition
  coresFailed : List Nat
  dumpAt : Nat
  lanesDown : List Nat
  replays : Nat
  dumps : List Dump
  bootReports : List BootReport
  reports : List Report
  rings : List PortRing
  splitPorts : List Nat
  xlat : List DieXlat
  shoots : List Shoot
  agenda : List Move
  inputs : List Move
  deriving DecidableEq, Repr

/-- An engine that has never been forked. -/
def Eng.idle : Eng :=
  { fid := 0, mask := 0, timed := false, degr := false, started := false, countdown := 0, cnt := 0,
    running := false, ended := false, endSeq := none, forked := false, pc := 0, rlo := 0, rhi := 0,
    fetchFault := false, queue := [], peek := none, rep := none, seq := 0, stamp := 0, toks := [], past := [], flight := [],
    busyA := 0, busyB := 0, busyC := 0, hold := none, nan := false, sat := false, can := false, ran := false,
    tag := 0, reqs := [], restart := ⟨false, 0, 0, 0, 0⟩, stopped := none }

/-- The control registers before any fill: every register 0, every J register EMPTY (log entry 6). -/
def Ctl.blank : Ctl :=
  { g := [], p := 0, j := [], ssp := 0, ssl := 0, pc := 0, ir := 0, waiting := false, step := false, phys := false, degr := false,
    timed := false, frame := false, framecnt := 0, frameEng := 0, tasktime := 0, pending := 0, clo := 0, chi := 0,
    remote := none, remoteAge := 0 }

/-- The seed that replaces 0 (R70). -/
def seedZero : BitVec 32 := 0x9E3779B9

/-- A slot that nothing has filled (log entry 6): its registers are 0, and every lane generator of the drain and the flume
reads, like that of the sluice, what R70 puts in the place of 0. -/
def Task.blank : Task :=
  { lid := 0, lcn := 0, gsize := 1, gcount := 1, part := 0, argptr := 0, saveMask := 0, wbSave := false,
    queue := 0, timedLaunch := false, ctl := Ctl.blank, fidNext := 1, t := [], pat := [], sh := [], m := Eng.idle,
    f := Eng.idle, s := Eng.idle, reg := [], flags := [], scr := [], wb := [], wbValid := [], drainGen := [],
    flumeGen := [], sluGen := seedZero, pins := [], tlb := [], icache := [], parking := false, parkAll := false, parkCtl := false,
    saving := false, bad := [], recs := [] }

/-- A core with two empty slots. -/
def Core.blank (n : Nat) : Core :=
  { pcore := n, slot := .empty, task := Task.blank, released := true, staged := .empty, stagedTask := Task.blank,
    stagedTag := 0, fillFrom := 0, fillVirt := false, fillCtx := false, saveTo := 0 }

/-- An image that has not been signed. -/
def SignedImage.none_ : SignedImage := ⟨0, 0, false, false⟩

/-- The package right after reset: a D4, not yet booted (R322); memory lists nothing; the log entries 6 and 7 name the
values the spec does not give. -/
def State.reset : State :=
  { d4 := true, boot := .off, now := 0, bootAt := 0, fresh := 0, cur := Core.blank 0, rest := [], mem := [], badMem := [],
    pkg := 0, hostLink := false, parts := [], launches := [], nextLid := 1, gangs := [], binds := [], nextTag := 1,
    ctxNext := 0x2500000000, saved := [], arrivals := [], left := [], departs := [], iinvs := [], nextIinv := 1, faults := [],
    tagsSeen := [], weir := [], power := .s0, exitAt := none, hostTol := 0, fw := SignedImage.none_,
    flash := SignedImage.none_, rollback := 0, descriptor := 0, bootParts := [], coresFailed := [], dumpAt := 0, lanesDown := [], replays := 0,
    dumps := [], bootReports := [], reports := [], rings := [], splitPorts := [], xlat := [], shoots := [], agenda := [], inputs := [] }

/-- What an unlisted byte of memory, of a scratchpad, of the register space or of the weight buffer reads as: 0. For
the core's stores this is the launch fill (R113, R302, R205); for memory it is log entry 1. -/
def emptyByte : Byte := 0

/-- The canonical form of a store's list: addresses strictly rising, no entry equal to `emptyByte`. -/
def Memory.wf (m : List Host.Cell) : Bool := spWf emptyByte m

end Sys2Proof.Machine
end

