-- ==== Sys2Proof/Machine/Ops.lean ====
section
/-! DEFINITION. The named operations over the state: registers, predicates, special words, the stores, the cores of the
package, and TAKING A FAULT (R304 to R306) with the return from one (R309). -/

namespace Sys2Proof.Machine

/-- The outcomes of this model. -/
abbrev Out := Host.Outcome State Fault Refusal

/-! ### The focused core's task -/

/-- The resident task of the focused core. -/
abbrev State.task (s : State) : Task := s.cur.task

/-- The control registers of the focused task. -/
abbrev State.ctl (s : State) : Ctl := s.cur.task.ctl

/-- Replace the focused task. -/
def State.withTask (s : State) (t : Task) : State := { s with cur := { s.cur with task := t } }

/-- Replace the focused task's control registers. -/
def State.withCtl (s : State) (c : Ctl) : State := s.withTask { s.task with ctl := c }

/-! ### Control-core registers (R117) -/

/-- G register `r`; G0 reads 0. -/
def Ctl.getG (c : Ctl) (r : BitVec 5) : Word := if r = 0 then 0 else spGet 0 c.g r.toNat

/-- Write G register `r`; a write to G0 is discarded. -/
def Ctl.setG (c : Ctl) (r : BitVec 5) (v : Word) : Ctl :=
  if r = 0 then c else { c with g := spSet 0 c.g r.toNat v }

/-- Predicate `i`; P0 reads 1. -/
def Ctl.getP (c : Ctl) (i : BitVec 3) : Bool := i == 0 || c.p.getLsbD i.toNat

/-- Write predicate `i`; a write to P0 is discarded. -/
def Ctl.setP (c : Ctl) (i : BitVec 3) (v : Bool) : Ctl :=
  if i = 0 then c
  else
    let m : BitVec 8 := 1#8 <<< i.toNat
    { c with p := if v then c.p ||| m else c.p &&& ~~~m }

/-- A J register that nothing has prepared. -/
def JReg.blank : JReg := ⟨0, .empty, []⟩

/-- J register `i` (R119). -/
def Ctl.getJ (c : Ctl) (i : BitVec 3) : JReg := spGet JReg.blank c.j i.toNat

/-- Write J register `i`. -/
def Ctl.setJ (c : Ctl) (i : BitVec 3) (v : JReg) : Ctl := { c with j := spSet JReg.blank c.j i.toNat v }

/-- JSTATE as JGET reads it (R119). -/
def JState.num : JState → Nat
  | .empty => 0 | .fetching => 1 | .ready => 2 | .stale => 3

/-- G register of the focused task. -/
def State.getG (s : State) (r : BitVec 5) : Word := s.ctl.getG r

/-- Write a G register of the focused task. -/
def State.setG (s : State) (r : BitVec 5) (v : Word) : State := s.withCtl (s.ctl.setG r v)

/-- A predicate of the focused task. -/
def State.getP (s : State) (i : BitVec 3) : Bool := s.ctl.getP i

/-- Write a predicate of the focused task. -/
def State.setP (s : State) (i : BitVec 3) (v : Bool) : State := s.withCtl (s.ctl.setP i v)

/-- Write a J register of the focused task. -/
def State.setJ (s : State) (i : BitVec 3) (v : JReg) : State := s.withCtl (s.ctl.setJ i v)

/-- Write the program counter. -/
def State.setPc (s : State) (v : Word) : State := s.withCtl { s.ctl with pc := v }

/-- Does the qualified instruction execute (R127)? -/
def State.holds (s : State) (q : Qual) : Bool := s.getP q.p != q.n

/-- LO of the shadow stack (R120). -/
def Ctl.shadowLo (c : Ctl) : Nat := c.ssl.toNat / 2 ^ 16 * 2 ^ 16

/-- HI of the shadow stack (R120). -/
def Ctl.shadowHi (c : Ctl) : Nat := c.shadowLo + (c.ssl.toNat % 2 ^ 16 + 1) * 2 ^ 16

/-- The MODE word (R124). -/
def Ctl.mode (c : Ctl) : Word :=
  BitVec.ofNat 64 (b2n c.step * 128 + b2n c.phys * 8 + b2n c.degr * 4 + b2n c.timed * 2 + b2n c.frame)

/-- A timed frame of the core is open (R21). -/
def Ctl.timedOpen (c : Ctl) : Bool := c.frame && c.timed

/-! ### Engines of a task -/

/-- An engine of the task. -/
def Task.eng (t : Task) : EngId → Eng
  | .matrix => t.m | .flume => t.f | .sluice => t.s

/-- Replace an engine of the task. -/
def Task.setEng (t : Task) : EngId → Eng → Task
  | .matrix, v => { t with m := v }
  | .flume, v => { t with f := v }
  | .sluice, v => { t with s := v }

/-- An engine of the focused task. -/
def State.eng (s : State) (e : EngId) : Eng := s.task.eng e

/-- Replace an engine of the focused task. -/
def State.setEng (s : State) (e : EngId) (v : Eng) : State := s.withTask (s.task.setEng e v)

/-- The three engines in the engine order of R20. -/
def engines : List EngId := [.matrix, .flume, .sluice]

/-- The engine issues in timed mode: its frame was forked timed and is not degraded (R19, R22). -/
def Eng.strict (e : Eng) : Bool := e.timed && !e.degr

/-- No queued command and none in flight (R16, R18). -/
def Eng.quiet (e : Eng) : Bool := !e.running && e.flight.isEmpty && e.stopped.isNone && e.toks.all (·.done)

/-- Every frame of the task has ended (R18, R167). -/
def Task.framesDone (t : Task) : Bool := engines.all fun e => (t.eng e).quiet

/-- The frame `fid` has ended: each engine that runs it is quiet (R18). -/
def Task.frameDone (t : Task) (fid : Nat) : Bool :=
  engines.all fun e => (t.eng e).fid != fid || (t.eng e).quiet

/-! ### Operand registers (R39, R47, R53) -/

/-- Word `w` of tack entry `tid`. -/
def Task.tword (t : Task) (tid w : Nat) : Word := spGet 0 t.t (8 * tid + w)

/-- Tack entry `tid` as a snapshot (R54). -/
def Task.entry (t : Task) (tid : Nat) : Entry :=
  ⟨t.tword tid 0, t.tword tid 1, t.tword tid 2, t.tword tid 3, t.tword tid 4, t.tword tid 5, t.tword tid 6,
    t.tword tid 7⟩

/-- Write word `w` of tack entry `tid`. -/
def Task.setTword (t : Task) (tid w : Nat) (v : Word) : Task := { t with t := spSet 0 t.t (8 * tid + w) v }

/-- Pattern register `n`. -/
def Task.patReg (t : Task) (n : Nat) : Word := spGet 0 t.pat n

/-- Word `w` of shape register `n`. -/
def Task.shapeWord (t : Task) (n w : Nat) : Word := spGet 0 t.sh (4 * n + w)

/-! ### The cores of the package -/

/-- Cores per package (R121). -/
def State.coresPerPkg (s : State) : Nat := if s.d4 then 576 else 288

/-- Dies (R2, R3). -/
def State.dies (s : State) : Nat := if s.d4 then 4 else 2

/-- Every listed core. -/
def State.cores (s : State) : List Core := s.cur :: s.rest

/-- Insert a core in the order of core numbers. -/
def insertCore (c : Core) : List Core → List Core
  | [] => [c]
  | d :: t => if c.pcore < d.pcore then c :: d :: t else d :: insertCore c t

/-- Bring core `n` into focus; a core not listed has two empty slots. -/
def State.focus (s : State) (n : Nat) : State :=
  if s.cur.pcore = n then s
  else
    let rest := s.rest.filter fun c => c.pcore != n
    { s with
      cur := (s.rest.find? fun c => c.pcore == n).getD (Core.blank n)
      rest := if s.cur = Core.blank s.cur.pcore then rest else insertCore s.cur rest }

/-- Apply `f` to every listed core. -/
def State.mapCores (s : State) (f : Core → Core) : State := { s with cur := f s.cur, rest := s.rest.map f }

/-- Core `n` as it stands; one that is not listed has two empty slots. -/
def State.coreAt (s : State) (n : Nat) : Core := (s.cores.find? fun c => c.pcore == n).getD (Core.blank n)

/-- Do something at core `n`; the focus comes back. -/
def State.onCore (s : State) (n : Nat) (f : State → State) : State := (f (s.focus n)).focus s.cur.pcore

/-- Does the core hold the resident task `lcn` of launch `lid`? -/
def Core.holdsTask (c : Core) (lid lcn : Nat) : Bool :=
  c.slot == .resident && c.task.lid == lid && c.task.lcn == lcn

/-- The resident task `lcn` of launch `lid`, if there is one. -/
def State.findTask (s : State) (lid lcn : Nat) : Option Task :=
  (s.cores.find? fun c => c.holdsTask lid lcn).map (·.task)

/-- Die of a core number in the package: PCORE counts 144 cores a die (R315). -/
def dieOf (pcore : Nat) : Nat := pcore / 144

/-- PCORE in the layout of R123. -/
def pcoreWord (pkg pcore : Nat) : Nat := pkg * 2 ^ 16 + dieOf pcore * 2 ^ 8 + pcore % 144 / 4 * 4 + pcore % 4

/-- The core number of a PCORE field (R123). -/
def pcoreNum (w : Nat) : Nat := fld w 8 2 * 144 + fld w 2 6 * 4 + fld w 0 2

/-! ### Stores -/

/-- The size of a store (R43). -/
def Space.size : Space → Nat
  | .reg => 0x40000 | .wbuf => 0x40000 | .scr => 0x200000 | .far _ => 0x200000 | .mem => 2 ^ 52

/-- One byte of a store, as it stands. -/
def State.rdByte (s : State) : Space → Nat → Byte
  | .reg, a => spGet emptyByte s.task.reg a
  | .scr, a => spGet emptyByte s.task.scr a
  | .wbuf, a => if spGet false s.task.wbValid (a / 256) then spGet emptyByte s.task.wb a else 0
  | .mem, a => spGet emptyByte s.mem a
  | .far n, a =>
    if n = s.task.lcn then spGet emptyByte s.task.scr a
    else match s.findTask s.task.lid n with
      | some t => spGet emptyByte t.scr a
      | none => 0

/-- The bits `mask` of `old` replaced by those of `val` (R65). -/
def mergeByte (old mask val : Byte) : Byte := (old &&& ~~~mask) ||| (val &&& mask)

/-- Write one byte of the register space: the word gets TOUCHED = 1 and OVF = 0 (R38). -/
def Task.putReg (t : Task) (a : Nat) (v : Byte) : Task :=
  { t with reg := spSet emptyByte t.reg a v, flags := spSet Flag.fresh t.flags (a / 4) Flag.fresh }

/-- Write one byte of the scratchpad. -/
def Task.putScr (t : Task) (a : Nat) (v : Byte) : Task := { t with scr := spSet emptyByte t.scr a v }

/-- Write one byte of the weight buffer. -/
def Task.putWb (t : Task) (a : Nat) (v : Byte) : Task := { t with wb := spSet emptyByte t.wb a v }

/-- Perform one byte write. A write of no bit does nothing. -/
def State.wrByte (s : State) (w : BWrite) : State :=
  if w.mask = 0 then s
  else
    let v := mergeByte (s.rdByte w.sp w.at_) w.mask w.val
    match w.sp with
    | .reg => s.withTask (s.task.putReg w.at_ v)
    | .scr => s.withTask (s.task.putScr w.at_ v)
    | .wbuf => s.withTask (s.task.putWb w.at_ v)
    | .mem => { s with mem := spSet emptyByte s.mem w.at_ v }
    | .far n =>
      if n = s.task.lcn then s.withTask (s.task.putScr w.at_ v)
      else
        { s with rest := s.rest.map fun c =>
            if c.holdsTask s.task.lid n then { c with task := c.task.putScr w.at_ v } else c }

/-- No byte that a task can read has an uncorrectable error. -/
def State.sound (s : State) : Bool := s.badMem.isEmpty && s.cores.all fun c => c.task.bad.isEmpty

/-- The byte holds good data again in one of the task's stores. -/
def Task.unmark (t : Task) (sp : Space) (a : Nat) : Task := { t with bad := t.bad.filter fun b => b != (sp, a) }

/-- The byte holds good data again (R308). -/
def State.unmark (s : State) (p : Space × Nat) : State :=
  match p.1 with
  | .mem => { s with badMem := s.badMem.filter (· != p.2) }
  | .far n =>
    if n = s.task.lcn then s.withTask (s.task.unmark .scr p.2)
    else
      { s with rest := s.rest.map fun c =>
          if c.holdsTask s.task.lid n then { c with task := c.task.unmark .scr p.2 } else c }
  | sp => s.withTask (s.task.unmark sp p.2)

/-- The bytes of which the writes together cover every bit: what covers a failing container clears its error, what replaces
some bits of it does not (R308). -/
def covered (ws : List BWrite) : List (Space × Nat) :=
  (ws.filter fun w => (ws.filter fun x => x.sp == w.sp && x.at_ == w.at_).foldl (fun m x => m ||| x.mask) 0 == 0xFF).map
    fun w => (w.sp, w.at_)

/-- The writes have replaced bad data, where there is any. -/
def State.unmarkAll (s : State) (ws : List BWrite) : State :=
  if s.sound then s else (covered ws).foldl State.unmark s

/-- Perform byte writes in order. -/
def State.wrBytes (s : State) (ws : List BWrite) : State := (ws.foldl State.wrByte s).unmarkAll ws

/-- One byte write of an accumulator command: it says itself what becomes of the hidden flags (R38, R189). -/
def State.wrAcc (s : State) (w : BWrite) : State :=
  if w.mask = 0 ∨ w.sp ≠ .reg then s
  else
    s.withTask { s.task with
      reg := spSet emptyByte s.task.reg w.at_ (mergeByte (s.rdByte .reg w.at_) w.mask w.val) }

/-- `n` bytes of a store as a little-endian number (R6). -/
def State.rdNat (s : State) (sp : Space) (a : Nat) : Nat → Nat
  | 0 => 0
  | n + 1 => (s.rdByte sp a).toNat + 256 * s.rdNat sp (a + 1) n

/-- The byte writes that store `v` in `n` bytes at `a`. -/
def natWrites (sp : Space) (a : Nat) : Nat → Nat → List BWrite
  | 0, _ => []
  | n + 1, v => ⟨sp, a, 0xFF, BitVec.ofNat 8 v⟩ :: natWrites sp (a + 1) n (v / 256)

/-- Store `v` in `n` bytes at `a`. -/
def State.wrNat (s : State) (sp : Space) (a n v : Nat) : State := s.wrBytes (natWrites sp a n v)

/-- Set hidden flags of register-space words (R38). -/
def State.putFlags (s : State) (fs : List (Nat × Flag)) : State :=
  s.withTask { s.task with flags := spSetMany Flag.fresh s.task.flags fs }

/-- Perform writes with the flags that go with them; `acc` says that they are an accumulator command's. -/
def State.perform (s : State) (acc : Bool) (ws : List BWrite) (fs : List (Nat × Flag)) : State :=
  ((ws.foldl (if acc then State.wrAcc else State.wrByte) s).unmarkAll ws).putFlags fs

/-- A byte of a range of one of the task's stores whose error correction fails. -/
def Task.badIn (t : Task) (sp : Space) (a n : Nat) : Option Nat :=
  (t.bad.find? fun b => b.1 == sp && a ≤ b.2 && b.2 < a + n).map (·.2)

/-- A byte of the range whose error correction fails (R308), if there is one. -/
def State.badIn (s : State) (sp : Space) (a n : Nat) : Option Nat :=
  match sp with
  | .mem => s.badMem.find? fun b => a ≤ b && b < a + n
  | .far k =>
    if k = s.task.lcn then s.task.badIn .scr a n else (s.findTask s.task.lid k).bind fun t => t.badIn .scr a n
  | _ => s.task.badIn sp a n

/-- The window address of a byte of a store (R74, R75); the weight buffer and physical memory have none. -/
def Space.window (sp : Space) (a : Nat) : Option Nat :=
  match sp with
  | .reg => some (0xFF80000000000000 + a)
  | .scr => some (0xFF80000001000000 + a)
  | .far n => some (0xFF00000000000000 + n * 2 ^ 24 + a)
  | _ => none

/-! ### Free choices -/

/-- The next free choice, and the state with the counter advanced (log entry 2). -/
def State.choose (s : State) : Bool × State := (Config.freeChoice s.fresh, { s with fresh := s.fresh + 1 })

/-! ### Taking a fault (R304, R305, R306) -/

/-- OP of a command word (R14). -/
def opOf (w : Word) : Nat := fld w.toNat 47 7

/-- The numbers of the commands that some queued words have a token slot for, the first of the words being command number `n`: a
command takes its slot when it enters the queue, an instance of a REP's body when it comes to issue (R25, R33). -/
def queuedSeqs : Nat → List Word → Nat → List Nat
  | 0, _, _ => []
  | _, [], _ => []
  | fuel + 1, w :: t, n =>
    if opOf w == 0x71 then
      let b := fld w.toNat 22 4
      n :: queuedSeqs fuel (t.drop b) (n + 1 + b * (fld w.toNat 10 12 + 1))
    else n :: queuedSeqs fuel t (n + 1)

/-- The unissued commands of the queue that have their token slots (R25), the one at the head among them (log entry 107). -/
def Eng.queuedSlots (g : Eng) : List Nat :=
  let ws := g.queue.map (·.word)
  match g.rep with
  | none => queuedSeqs 17 ws g.seq
  | some r => g.seq :: queuedSeqs 17 (ws.drop r.body) (g.seq + (r.body - r.pos) + r.body * (r.count - r.pass - 1))

/-- TOKDONE and TOKCAN of R306: bit `k` says that slot `k` has completed, and whether it completed cancelled. A queued command
has its slot already and has not completed (R25). -/
def Eng.slotBits (e : Eng) (can : Bool) : Nat :=
  let queued := e.queuedSlots
  (List.range 32).foldl (fun acc k =>
    if queued.any fun n => n % 32 == k then acc
    else
      match e.toks.find? fun t => t.seq % 32 == k with
      | some t => if t.done && (!can || t.can) then acc + 2 ^ k else acc
      | none => acc) 0

/-- The fault record of R306. -/
def faultRecord (t : Task) (st : StreamId) (tr : Trap) (pc word : Word) (seq : Nat) : FaultRec :=
  let timed := match st with
    | .control => t.ctl.timedOpen
    | .engine e => (t.eng e).strict
  let tok (can : Bool) : Nat := match st with
    | .control => 0
    | .engine e => (t.eng e).slotBits can
  { part := t.part, lid := t.lid, lcn := t.lcn
    w0 := BitVec.ofNat 64 (cat (cat (cat (cat (cat (cat (cat (cat tr.imm 17 t.lcn) 2 tr.applied) 1 (b2n tr.elem.isSome))
      1 (b2n tr.addr.isSome)) 1 (b2n timed)) 15 0) 3 st.num) 8 tr.code.num)
    w2 := BitVec.ofNat 64 (seq % 2 ^ 48)
    w3 := pc
    w4 := if tr.code = .fetchBounds then 0 else word
    w5 := BitVec.ofNat 64 (tr.addr.getD 0)
    w6 := BitVec.ofNat 64 (tok false * 2 ^ 32 + tr.elem.getD 0 % 2 ^ 32)
    w7 := BitVec.ofNat 64 (tok true * 2 ^ 32) }

/-- STEP, BREAK and TRAP park the control core alone; every other fault parks the whole task (R305). -/
def Code.parksAll : Code → Bool
  | .step | .break_ | .trap => false
  | _ => true

/-- After an OVERRUN the open timed frame is degraded: the rest of it is elastic once the task resumes (R22). -/
def Task.degrade (t : Task) : Task :=
  let fix (e : Eng) : Eng := if e.timed && e.fid == t.ctl.frameEng && t.ctl.degr then { e with degr := true } else e
  { t with m := fix t.m, f := fix t.f, s := fix t.s }

/-- Park the task for a fault of code `c` (R305): the whole task from the end of this cycle on. -/
def Task.park (t : Task) (c : Code) : Task :=
  { t with parking := t.parking || c.parksAll, parkCtl := t.parkCtl || !c.parksAll }

/-- The stream of a record (R306). -/
def FaultRec.stream (r : FaultRec) : Nat := fld r.w0.toNat 8 3

/-- A record becomes the latest one of its stream. -/
def Task.noteRec (t : Task) (r : FaultRec) : List FaultRec := r :: t.recs.filter fun x => x.stream != r.stream

/-- TAKING A FAULT: the record is written for delivery and the task is parked (R305, R306, R307). `pc`, `word` and `seq`
are the stop point. -/
def State.takeFault (s : State) (st : StreamId) (tr : Trap) (pc word : Word) (seq : Nat) : State :=
  let t := if tr.code = .overrun then { s.task with ctl := { s.task.ctl with degr := true } } else s.task
  let r := faultRecord s.task st tr pc word seq
  { s.withTask { t.park tr.code with recs := t.noteRec r } with faults := s.faults ++ [r] }

/-- The control core faults at the instruction being executed: nothing else changes (R304). -/
def State.trapHere (s : State) (tr : Trap) : State :=
  (s.withCtl { s.ctl with waiting := false }).takeFault .control tr s.ctl.pc s.ctl.ir 0

/-- THE RETURN FROM A FAULT (R309): the park latch of the task is released and every stream goes on from its stop
point, a frame that met OVERRUN in elastic mode (R22). A task stays parked while a record of it is undelivered (R305). -/
def Task.unpark (t : Task) : Task := { t.degrade with parking := false, parkAll := false, parkCtl := false, recs := [] }

/-- A record of this task is undelivered (R305). -/
def State.undelivered (s : State) (lid lcn : Nat) : Bool := s.faults.any fun r => r.lid == lid && r.lcn == lcn

/-! ### Retiring an instruction -/

/-- The instruction retires and `pc` is the next one; with MODE.STEP set, STEP is raised after it (R312). -/
def State.retireTo (s : State) (pc : Word) : Out :=
  let s' := s.withCtl { s.ctl with pc, waiting := false }
  .next (if s.ctl.step then s'.takeFault .control { code := .step } pc s.ctl.ir 0 else s')

/-- The instruction retires in sequence (R126). -/
def State.retire (s : State) : Out := s.retireTo (s.ctl.pc + 8)

/-- The instruction raises a fault (R304). -/
def State.fail (s : State) (tr : Trap) : Out := .next (s.trapHere tr)

/-- The instruction waits: it has not retired and is executed again (R126). -/
def State.wait (s : State) : Out := .next (s.withCtl { s.ctl with waiting := true })

/-- A qualified instruction: squashed, it only retires (R127). -/
def State.qualified (s : State) (q : Qual) (k : State → Out) : Out := if s.holds q then k s else s.retire

/-- A qualified instruction that writes one G register and retires. -/
def State.writeG (s : State) (q : Qual) (d : BitVec 5) (v : Word) : Out :=
  s.qualified q fun s => (s.setG d v).retire

end Sys2Proof.Machine
end

