-- ==== Sys2Proof/Machine/Flags.lean ====
section
/-! DEFINITION. The conditions and predicates of the control core (R142, R143, R144) and the value functions of its
integer instructions (R136 to R141). The control core has no arithmetic flags (R135); the sticky flags of the engines
are R69's. -/

namespace Sys2Proof.Machine

/-- The condition COND of CMP on `x` and `y` (R142). -/
def intCond (cond : BitVec 4) (x y : Word) : Bool :=
  match cond.toNat with
  | 0 => x == y
  | 1 => x != y
  | 2 => x.slt y
  | 3 => !x.slt y
  | 4 => x.ult y
  | 5 => !x.ult y
  | 6 => !y.slt x
  | 7 => y.slt x
  | 8 => !y.ult x
  | 9 => y.ult x
  | 10 => x &&& y != 0
  | _ => x &&& y == 0

/-- The condition COND of FCMP on two values (R143). -/
def fpCond (cond : Nat) (x y : Num) : Bool :=
  let un := x.isNan || y.isNan
  match cond with
  | 0 => x.eq y
  | 1 => !x.eq y
  | 2 => x.lt y
  | 3 => !un && !y.lt x
  | 4 => un
  | _ => !un

/-- Write a compare's result to P[PD] and its complement to P[PC] unless PC is 0 (R142). -/
def State.writeCond (s : State) (pd pc : BitVec 3) (c : Bool) : State :=
  let s := s.setP pd c
  if pc = 0 then s else s.setP pc (!c)

/-- DIV (R137): truncated toward zero; a zero divisor gives all ones. -/
def divW (uns : Bool) (x y : Word) : Word :=
  if y = 0 then BitVec.allOnes 64 else if uns then x / y else x.sdiv y

/-- REM (R137): x − DIV(x, y) × y; a zero divisor gives x. -/
def remW (uns : Bool) (x y : Word) : Word :=
  if y = 0 then x else if uns then x % y else x.srem y

/-- MULH (R136): bits [127:64] of the product. -/
def mulhW (uns : Bool) (x y : Word) : Word :=
  if uns then BitVec.ofNat 64 (x.toNat * y.toNat / 2 ^ 64)
  else BitVec.ofInt 64 (x.toInt * y.toInt / 2 ^ 64)

/-- MIN (R136). -/
def minW (uns : Bool) (x y : Word) : Word := if (if uns then y.ult x else y.slt x) then y else x

/-- MAX (R136). -/
def maxW (uns : Bool) (x y : Word) : Word := if (if uns then x.ult y else x.slt y) then y else x

/-- Bits reversed: bit i of the result is bit n − 1 − i of `x`. -/
def revNat : Nat → Nat → Nat → Nat
  | 0, _, acc => acc
  | n + 1, x, acc => revNat n (x / 2) (2 * acc + x % 2)

/-- Bytes reversed. -/
def revBytes : Nat → Nat → Nat → Nat
  | 0, _, acc => acc
  | n + 1, x, acc => revBytes n (x / 256) (256 * acc + x % 256)

/-- REV (R141). -/
def revW (bytes : Bool) (x : Word) : Word :=
  BitVec.ofNat 64 (if bytes then revBytes 8 x.toNat 0 else revNat 64 x.toNat 0)

/-- CLZ (R141). -/
def clzW (x : Word) : Nat := if x.toNat = 0 then 64 else 63 - Nat.log2 x.toNat

/-- Trailing zeros among the `n` low bits. -/
def ctzNat : Nat → Nat → Nat
  | 0, _ => 0
  | n + 1, x => if x % 2 = 1 then 0 else 1 + ctzNat n (x / 2)

/-- One bits among the `n` low bits. -/
def popNat : Nat → Nat → Nat
  | 0, _ => 0
  | n + 1, x => x % 2 + popNat n (x / 2)

/-- The carry-less product over GF(2) of `x` and the `n` low bits of `y` (R141). -/
def clmulNat : Nat → Nat → Nat → Nat
  | 0, _, _ => 0
  | n + 1, x, y => (if y % 2 = 1 then x else 0) ^^^ (2 * clmulNat n x (y / 2))

/-- CLMUL (R141). -/
def clmulW (hi : Bool) (x y : Word) : Word :=
  let c := clmulNat 64 x.toNat y.toNat
  BitVec.ofNat 64 (if hi then c / 2 ^ 64 else c)

/-- BFX (R140). -/
def bfxW (x : Word) (pos len : Nat) (sx : Bool) : Word :=
  let v := fld x.toNat pos len
  if sx then BitVec.ofInt 64 (sgn len v) else BitVec.ofNat 64 v

/-- BFI (R140): bits [pos + len − 1 : pos] of `d` replaced by the low bits of `x`. -/
def bfiW (d x : Word) (pos len : Nat) : Word :=
  let m : Word := BitVec.ofNat 64 ((2 ^ len - 1) * 2 ^ pos)
  (d &&& ~~~m) ||| ((x <<< pos) &&& m)

/-- PSAVE (R145): bit i is P[i], bit 0 is 1. -/
def Ctl.psave (c : Ctl) : Nat := c.p.toNat / 2 * 2 + 1

/-- PLOAD (R146). -/
def Ctl.pload (c : Ctl) (mask v : BitVec 8) : Ctl := { c with p := (c.p &&& ~~~mask) ||| (v &&& mask) }

/-! ### FP32 on the control core (R147 to R150) -/

/-- A result of R147: a NaN becomes the default NaN, everything else is rounded once. -/
def fpResult (x : Num) : Nat := if x.isNan then qnan else rne32 x

/-- FADD (R148). -/
def faddN (a b : Nat) : Nat := fpResult ((f32 a).add (f32 b))

/-- FSUB (R148). -/
def fsubN (a b : Nat) : Nat := fpResult ((f32 a).add (f32 b).negate)

/-- FMUL (R148). -/
def fmulN (a b : Nat) : Nat := fpResult ((f32 a).mul (f32 b))

/-- FFMA (R148): one rounding of a × b + d. -/
def ffmaN (a b d : Nat) : Nat := fpResult (((f32 a).mul (f32 b)).add (f32 d))

/-- Does `a` go before `b` in the order of R149, −0 below +0? -/
def fpBefore (a b : Num) : Bool := a.lt b || (a.isZero && b.isZero && a.neg && !b.neg)

/-- FMIN (R149). -/
def fminN (a b : Nat) : Nat :=
  let x := f32 a
  let y := f32 b
  if x.isNan && y.isNan then qnan
  else if x.isNan then b % 2 ^ 32
  else if y.isNan then a % 2 ^ 32
  else if fpBefore y x then b % 2 ^ 32 else a % 2 ^ 32

/-- FMAX (R149). -/
def fmaxN (a b : Nat) : Nat :=
  let x := f32 a
  let y := f32 b
  if x.isNan && y.isNan then qnan
  else if x.isNan then b % 2 ^ 32
  else if y.isNan then a % 2 ^ 32
  else if fpBefore x y then b % 2 ^ 32 else a % 2 ^ 32

/-- FCVT FN = 1 (R150): to a signed 64-bit integer by RNE, saturating, NaN to 0. -/
def f2iW (a : Nat) : Word :=
  match f32 a with
  | .nan _ => 0
  | x => BitVec.ofNat 64 (convert (.int 64 true) false false x 1).code

/-- FCVT FN = 2 (R150): to BF16 by RNE; a NaN keeps G[A][31:16] with the quiet bit set. -/
def f2bN (a : Nat) : Nat :=
  match f32 a with
  | .nan _ => (a % 2 ^ 32 / 2 ^ 16) ||| 0x40
  | x => (convert bf16 false false x 1).code

/-- FCVT by FN (R150). -/
def fcvtW (fn : BitVec 2) (a : Word) : Word :=
  match fn.toNat with
  | 0 => BitVec.ofNat 64 (rne32 (Num.ofInt a.toInt))
  | 1 => f2iW a.toNat
  | 2 => BitVec.ofNat 64 (f2bN a.toNat)
  | _ => BitVec.ofNat 64 (a.toNat % 2 ^ 16 * 2 ^ 16)

end Sys2Proof.Machine
end

