-- ==== Sys2Proof/WellFormed.lean ====
section
/-! DEFINITION. Which instructions are well formed: the coded fields hold no reserved code and the field combinations
that the spec calls ILLEGAL do not occur (R132, R7 and the field rules of the single entries). -/

namespace Sys2Proof

/-- Scope codes 0 to 5 exist (R8). -/
def scopeOk (s : BitVec 3) : Bool := s.toNat ≤ 5

/-- A wait field with ENG = 3 carries SEQ = 0 (R15). -/
def Wait.wf (w : Wait) : Bool := w.eng.toNat ≠ 3 || w.seq.toNat == 0

/-- The three wait fields of a command (R15). -/
def CmdHead.wf (h : CmdHead) : Bool := h.w0.wf && h.w1.wf && h.w2.wf

/-- Is this control-core opcode listed in R133? -/
def controlListed (op : Nat) : Bool :=
  op ≤ 0x14 || (0x20 ≤ op && op ≤ 0x44) || (0x48 ≤ op && op ≤ 0x4E) || (0x50 ≤ op && op ≤ 0x55)
    || (0x60 ≤ op && op ≤ 0x66)

/-- Is this opcode in the map of the engine (R196, R256, R285)? -/
def engineListed (e : EngId) (op : Nat) : Bool :=
  (0x70 ≤ op && op ≤ 0x73) ||
    match e with
    | .matrix => op ≤ 0x0A
    | .flume => op ≤ 0x0A
    | .sluice => op ≤ 0x09

/-- A number of the special registers: 13 and those from 19 on are reserved (R121, R124, R132). -/
def specialListed (fn : BitVec 8) : Bool := fn.toNat ≤ 18 && fn.toNat ≠ 13

/-- A field of a disabled engine is 0 in FORK (R166). -/
def forkOk (d a b : BitVec 5) (fn : BitVec 4) : Bool :=
  fn.toNat % 8 ≠ 0 && (bitOf fn.toNat 0 || a.toNat == 0) && (bitOf fn.toNat 1 || b.toNat == 0)
    && (bitOf fn.toNat 2 || d.toNat == 0)

/-- The field rules of every instruction and command; an event has none. An engine word whose opcode is not listed has no rule of its
own: one from 0x40 to 0x5F whose wait breaks R15 raises UNIMPL, not ILLEGAL (log entry 80). -/
def Instr.wf : Instr → Bool
  | .spget _ _ fn => specialListed fn
  | .spset _ _ fn => specialListed fn
  | .iinv _ a b scope whole => scopeOk scope && (!whole || (a.toNat == 0 && b.toNat == 0))
  | .fork _ d a b fn => forkOk d a b fn
  | .twait _ _ _ eng _ => eng.toNat ≠ 3
  | .bar _ scope _ => scope.toNat ≤ 4
  | .barr _ _ _ scope _ rop rtype =>
      scope.toNat ≤ 4 && rop.toNat ≠ 7 && rtype.toNat ≤ 4
        && !(rtype.toNat == 4 && 3 ≤ rop.toNat && rop.toNat ≤ 5)
  | .bfx _ _ _ pos lenm1 _ => pos.toNat + lenm1.toNat + 1 ≤ 64
  | .bfi _ _ _ pos lenm1 => pos.toNat + lenm1.toNat + 1 ≤ 64
  | .cmp pd pc _ _ cond => cond.toNat ≤ 11 && !(pd == pc && pd.toNat ≠ 0)
  | .fcmp pd pc _ _ cond => cond.toNat ≤ 5 && !(pd == pc && pd.toNat ≠ 0)
  | .pload _ _ pmask => pmask.toNat % 2 == 0
  | .ld _ _ _ _ _ sz sx _ => !(sx && sz.toNat == 3)
  | .lda _ _ _ _ _ scope sz sx _ _ => scopeOk scope && !(sx && sz.toNat == 3)
  | .stl _ _ _ _ _ scope _ _ _ => scopeOk scope
  | .fence _ _ _ scope => scopeOk scope
  | .idle _ h _ => h.wf
  | .rep _ h body _ _ _ _ => h.wf && body.toNat ≠ 0
  | .efence _ h _ scope => h.wf && scopeOk scope
  | .endStream _ h => h.wf
  | .mma h _ _ _ _ _ _ _ => h.wf
  | .accz h _ => h.wf
  | .acccp h _ _ _ => h.wf
  | .wfill h _ _ => h.wf
  | .winv h c whole => h.wf && (!whole || c.toNat == 0)
  | .part h _ _ _ => h.wf
  | .rank h _ _ _ => h.wf
  | .topk h _ _ _ _ => h.wf
  | .drain h _ _ _ => h.wf
  | .amax h _ _ _ => h.wf
  | .mseed h _ => h.wf
  | .copy h _ _ => h.wf
  | .fill h a _ zero => h.wf && (!zero || a.toNat == 0)
  | .gather h _ _ _ _ => h.wf
  | .scatter h _ _ _ _ => h.wf
  | .gathp h _ _ _ _ _ => h.wf
  | .exp24 h _ _ => h.wf
  | .putr h _ _ rop => h.wf && rop.toNat ≠ 3
  | .bcast h _ _ scope => h.wf && 1 ≤ scope.toNat && scope.toNat ≤ 4
  | .fseed h _ => h.wf
  | .pfetch h _ => h.wf
  | .cmpb h _ _ _ => h.wf
  | .sacc h _ _ _ _ sop => h.wf && sop.toNat ≠ 7
  | .sfetch h _ _ _ _ sop => h.wf && sop.toNat ≠ 7
  | .scas h _ _ _ _ => h.wf
  | .bset h _ _ _ => h.wf
  | .bclr h _ _ _ => h.wf
  | .btest h _ _ _ _ _ => h.wf
  | .cinc h _ _ _ => h.wf
  | .cmerge h _ _ => h.wf
  | .cread h _ _ => h.wf
  | .sseed h _ => h.wf
  | .opcodeNotListed w => !controlListed (fld w.toNat 56 8)
  | .engineOpcodeNotListed e w => !engineListed e (fld w.toNat 47 7)
  | _ => true

end Sys2Proof
end

