-- ==== Sys2Proof/Decode.lean ====
section
/-! DEFINITION. Decoding of control-core words (R129 to R134) and of command words (R14, R15, R32 to R35, R196, R256,
R285), total on every word and rejecting by name, and after it the encoder of well-formed instructions. -/

namespace Sys2Proof

/-- Why a word is no instruction; each of these raises ILLEGAL (R132, R7). -/
inductive DecodeErr where
  /-- a reserved bit, or a field that the entry does not use, is nonzero -/
  | reservedField
  /-- a coded field holds a reserved code, or the fields are a combination that the entry calls ILLEGAL -/
  | reservedCode
  deriving DecidableEq, Repr

/-- Accept `i` unless one of the must-be-zero fields `zs` (low bit, width) of `w` is nonzero or `i` is ill formed. -/
def gate (w : Nat) (zs : List (Nat × Nat)) (i : Instr) : Except DecodeErr Instr :=
  if zs.any (fun z => fld w z.1 z.2 != 0) then .error .reservedField
  else if i.wf then .ok i else .error .reservedCode

/-- A field as a bit vector. -/
def bv (n w lo : Nat) : BitVec n := BitVec.ofNat n (fld w lo n)

/-- QP [40:38] and QN [37] (R129). -/
def qualAt (w : Nat) : Qual := ⟨bv 3 w 38, bitOf w 37⟩

/-- The second operand of the CC format (R131). -/
def ccRhs (w : Nat) : CmpRhs := if bitOf w 35 then .imm (bv 32 w 3) else .reg (bv 5 w 40)

/-- The must-be-zero fields of a CC word: B with an immediate, IMM32 without one, and [2:0] (R131, R142). -/
def ccZero (w : Nat) : List (Nat × Nat) := if bitOf w 35 then [(40, 5), (0, 3)] else [(3, 32), (0, 3)]

/-- Decode a control-core word by R133; an opcode that R133 does not list decodes to OPCODE_NOT_LISTED (R134). -/
def decodeControl (w : Nat) : Except DecodeErr Instr :=
  let q := qualAt w
  let d := bv 5 w 51
  let a := bv 5 w 46
  let b := bv 5 w 41
  let x := bv 5 w 41
  match fld w 56 8 with
  | 0x00 => gate w [(51, 5), (46, 5), (41, 5), (29, 8), (0, 29)] (.nop q)
  | 0x01 => gate w [(51, 5), (46, 5), (41, 5), (29, 8), (0, 29)] (.halt q)
  | 0x02 => gate w [(51, 5), (46, 5), (41, 5), (0, 21)] (.trap q (bv 16 w 21))
  | 0x03 => gate w [(0, 56)] (.brk)
  | 0x04 => gate w [(46, 5), (41, 5), (0, 29)] (.spget q d (bv 8 w 29))
  | 0x05 => gate w [(51, 5), (41, 5), (0, 29)] (.spset q a (bv 8 w 29))
  | 0x06 => gate w [(51, 5), (0, 33)] (.iinv q a b (bv 3 w 34) (bitOf w 33))
  | 0x07 => gate w [(51, 5), (0, 37)] (.prime q a b)
  | 0x08 => gate w [(33, 4), (0, 29)] (.fork q d a b (bv 4 w 29))
  | 0x09 => gate w [(46, 5), (41, 5), (29, 8), (0, 29)] (.join q d)
  | 0x0A => gate w [(41, 5), (0, 15)] (.twait q d a (bv 2 w 35) (bv 20 w 15))
  | 0x0B => gate w [(51, 5), (46, 5), (41, 5), (0, 34)] (.qcancel q (bv 3 w 34))
  | 0x0C => gate w [(51, 5), (41, 5), (0, 28)] (.tset q a (bv 6 w 31) (bv 3 w 28))
  | 0x0D => gate w [(46, 5), (41, 5), (0, 28)] (.tget q d (bv 6 w 31) (bv 3 w 28))
  | 0x0E => gate w [(51, 5), (41, 5), (0, 33)] (.patw q a (bv 4 w 33))
  | 0x0F => gate w [(46, 5), (41, 5), (0, 33)] (.patr q d (bv 4 w 33))
  | 0x10 => gate w [(51, 5), (41, 5), (0, 32)] (.shpw q a (bv 3 w 34) (bv 2 w 32))
  | 0x11 => gate w [(46, 5), (41, 5), (0, 32)] (.shpr q d (bv 3 w 34) (bv 2 w 32))
  | 0x12 => gate w [(51, 5), (46, 5), (41, 5), (0, 28)] (.bar q (bv 3 w 34) (bv 6 w 28))
  | 0x13 => gate w [(51, 5), (0, 22)] (.barr q a b (bv 3 w 34) (bv 6 w 28) (bv 3 w 25) (bv 3 w 22))
  | 0x14 => gate w [(41, 5), (0, 37)] (.launch q d a)
  | 0x20 => gate w [(29, 8), (0, 29)] (.add q d a b)
  | 0x21 => gate w [(29, 8), (0, 29)] (.sub q d a b)
  | 0x22 => gate w [(29, 8), (0, 29)] (.and q d a b)
  | 0x23 => gate w [(29, 8), (0, 29)] (.or q d a b)
  | 0x24 => gate w [(29, 8), (0, 29)] (.xor q d a b)
  | 0x25 => gate w [(29, 8), (0, 29)] (.andn q d a b)
  | 0x26 => gate w [(29, 8), (0, 29)] (.shl q d a b)
  | 0x27 => gate w [(29, 8), (0, 29)] (.shr q d a b)
  | 0x28 => gate w [(29, 8), (0, 29)] (.sar q d a b)
  | 0x29 => gate w [(30, 7), (0, 29)] (.min q (bitOf w 29) d a b)
  | 0x2A => gate w [(30, 7), (0, 29)] (.max q (bitOf w 29) d a b)
  | 0x2B => gate w [(29, 8), (0, 29)] (.mul q d a b)
  | 0x2C => gate w [(30, 7), (0, 29)] (.mulh q (bitOf w 29) d a b)
  | 0x2D => gate w [(30, 7), (0, 29)] (.div q (bitOf w 29) d a b)
  | 0x2E => gate w [(30, 7), (0, 29)] (.rem q (bitOf w 29) d a b)
  | 0x2F => gate w [(33, 4), (0, 29)] (.csel q d a b (bv 3 w 29) (bitOf w 32))
  | 0x30 => gate w [(41, 5), (0, 5)] (.addi q d a (bv 32 w 5))
  | 0x31 => gate w [(41, 5), (0, 5)] (.andi q d a (bv 32 w 5))
  | 0x32 => gate w [(41, 5), (0, 5)] (.ori q d a (bv 32 w 5))
  | 0x33 => gate w [(41, 5), (0, 5)] (.xori q d a (bv 32 w 5))
  | 0x34 => gate w [(41, 5), (11, 26), (0, 5)] (.shli q d a (bv 6 w 5))
  | 0x35 => gate w [(41, 5), (11, 26), (0, 5)] (.shri q d a (bv 6 w 5))
  | 0x36 => gate w [(41, 5), (11, 26), (0, 5)] (.sari q d a (bv 6 w 5))
  | 0x37 => gate w [(46, 5), (41, 5), (0, 5)] (.limm q d (bv 32 w 5))
  | 0x38 => gate w [(46, 5), (41, 5), (0, 5)] (.limmh q d (bv 32 w 5))
  | 0x39 => gate w [(41, 5), (0, 24)] (.bfx q d a (bv 6 w 31) (bv 6 w 25) (bitOf w 24))
  | 0x3A => gate w [(41, 5), (0, 25)] (.bfi q d a (bv 6 w 31) (bv 6 w 25))
  | 0x3B => gate w [(41, 5), (30, 7), (0, 29)] (.rev q d a (bitOf w 29))
  | 0x3C => gate w [(41, 5), (29, 8), (0, 29)] (.clz q d a)
  | 0x3D => gate w [(41, 5), (29, 8), (0, 29)] (.ctz q d a)
  | 0x3E => gate w [(41, 5), (29, 8), (0, 29)] (.popc q d a)
  | 0x3F => gate w [(30, 7), (0, 29)] (.clmul q (bitOf w 29) d a b)
  | 0x40 => gate w (ccZero w) (.cmp (bv 3 w 53) (bv 3 w 50) (bv 5 w 45) (ccRhs w) (bv 4 w 36))
  | 0x41 => gate w [(51, 5), (46, 5), (41, 5), (0, 24)] (.plog q (bv 3 w 34) (bv 3 w 31) (bv 3 w 28) (bv 4 w 24))
  | 0x42 => gate w [(46, 5), (41, 5), (0, 37)] (.psave q d)
  | 0x43 => gate w [(51, 5), (41, 5), (0, 29)] (.pload q a (bv 8 w 29))
  | 0x44 => gate w (ccZero w) (.fcmp (bv 3 w 53) (bv 3 w 50) (bv 5 w 45) (ccRhs w) (bv 4 w 36))
  | 0x48 => gate w [(29, 8), (0, 29)] (.fadd q d a b)
  | 0x49 => gate w [(29, 8), (0, 29)] (.fsub q d a b)
  | 0x4A => gate w [(29, 8), (0, 29)] (.fmul q d a b)
  | 0x4B => gate w [(29, 8), (0, 29)] (.ffma q d a b)
  | 0x4C => gate w [(29, 8), (0, 29)] (.fmin q d a b)
  | 0x4D => gate w [(29, 8), (0, 29)] (.fmax q d a b)
  | 0x4E => gate w [(41, 5), (31, 6), (0, 29)] (.fcvt q d a (bv 2 w 29))
  | 0x50 => gate w [(30, 3), (29, 1)] (.ld q d a x (bv 4 w 33) (bv 2 w 27) (bitOf w 26) (bv 26 w 0))
  | 0x51 => gate w [(30, 3), (29, 1), (26, 1)] (.st q d a x (bv 4 w 33) (bv 2 w 27) (bv 26 w 0))
  | 0x52 => gate w [(29, 1)] (.lda q d a x (bv 4 w 33) (bv 3 w 30) (bv 2 w 27) (bitOf w 26) (bv 16 w 10) (bv 10 w 0))
  | 0x53 => gate w [(29, 1), (26, 1)] (.stl q d a x (bv 4 w 33) (bv 3 w 30) (bv 2 w 27) (bv 16 w 10) (bv 10 w 0))
  | 0x54 => gate w [(51, 5), (33, 4), (30, 3), (26, 4)] (.pref q a x (bv 26 w 0))
  | 0x55 => gate w [(51, 5), (46, 5), (41, 5), (0, 2)] (.fence q (bv 16 w 21) (bv 16 w 5) (bv 3 w 2))
  | 0x60 => gate w [(48, 1)] (.prep (bv 3 w 53) (bv 3 w 50) (bitOf w 49) (bv 48 w 0))
  | 0x61 => gate w [(54, 2), (41, 5), (29, 8), (0, 29)] (.prepr q (bv 3 w 51) a)
  | 0x62 => gate w [(0, 49)] (.xfer (bv 3 w 53) (bv 3 w 50) (bitOf w 49))
  | 0x63 => gate w [(0, 49)] (.xcall (bv 3 w 53) (bv 3 w 50) (bitOf w 49))
  | 0x64 => gate w [(51, 5), (46, 5), (41, 5), (29, 8), (0, 29)] (.ret q)
  | 0x65 => gate w [(46, 5), (41, 5), (32, 5), (0, 29)] (.jget q d (bv 3 w 29))
  | 0x66 => gate w [(51, 5), (46, 5), (41, 5), (32, 5), (0, 29)] (.jclr q (bv 3 w 29))
  | _ => gate w [] (.opcodeNotListed (BitVec.ofNat 64 w))

/-- A wait field with its low bit at `lo` (R15). -/
def waitAt (w lo : Nat) : Wait := ⟨bv 2 w (lo + 5), bv 5 w lo⟩

/-- IDLE, W0, W1 and W2 of a command word (R14). -/
def headAt (w : Nat) : CmdHead := ⟨bv 10 w 54, waitAt w 40, waitAt w 33, waitAt w 26⟩

/-- The generic commands, the same in every engine (R32 to R35). -/
def decodeGeneric (e : EngId) (w : Nat) : Except DecodeErr Instr :=
  let h := headAt w
  match fld w 47 7 with
  | 0x70 => gate w [] (.idle e h (bv 26 w 0))
  | 0x71 => gate w [(0, 1)] (.rep e h (bv 4 w 22) (bv 12 w 10) (bv 3 w 7) (bv 3 w 4) (bv 3 w 1))
  | 0x72 => gate w [(0, 7)] (.efence e h (bv 16 w 10) (bv 3 w 7))
  | 0x73 => gate w [(0, 26)] (.endStream e h)
  | _ => gate w [] (.engineOpcodeNotListed e (BitVec.ofNat 64 w))

/-- The opcode map of the matrix engine (R196). -/
def decodeMatrix (w : Nat) : Except DecodeErr Instr :=
  let h := headAt w
  let a := bv 6 w 20
  let b := bv 6 w 14
  let c := bv 6 w 8
  match fld w 47 7 with
  | 0x00 => gate w [(0, 3)] (.mma h a b c (bv 2 w 6) (bitOf w 5) (bitOf w 4) (bitOf w 3))
  | 0x01 => gate w [(20, 6), (14, 6), (0, 8)] (.accz h c)
  | 0x02 => gate w [(14, 6), (1, 7)] (.acccp h a c (bitOf w 0))
  | 0x03 => gate w [(14, 6), (0, 8)] (.wfill h a c)
  | 0x04 => gate w [(20, 6), (14, 6), (1, 7)] (.winv h c (bitOf w 0))
  | 0x05 => gate w [(14, 6), (1, 7)] (.part h a c (bitOf w 0))
  | 0x06 => gate w [(14, 6), (1, 7)] (.rank h a c (bitOf w 0))
  | 0x07 => gate w [(14, 6)] (.topk h a c (bv 7 w 0) (bitOf w 7))
  | 0x08 => gate w [(14, 6), (3, 5)] (.drain h a c (bv 3 w 0))
  | 0x09 => gate w [(14, 6), (3, 5)] (.amax h a c (bv 3 w 0))
  | 0x0A => gate w [(14, 6), (8, 6), (0, 8)] (.mseed h a)
  | _ => decodeGeneric .matrix w

/-- The opcode map of the flume (R256). -/
def decodeFlume (w : Nat) : Except DecodeErr Instr :=
  let h := headAt w
  let a := bv 6 w 20
  let b := bv 6 w 14
  let c := bv 6 w 8
  match fld w 47 7 with
  | 0x00 => gate w [(14, 6), (0, 8)] (.copy h a c)
  | 0x01 => gate w [(14, 6), (1, 7)] (.fill h a c (bitOf w 0))
  | 0x02 => gate w [(1, 7)] (.gather h a b c (bitOf w 0))
  | 0x03 => gate w [(1, 7)] (.scatter h a b c (bitOf w 0))
  | 0x04 => gate w [(7, 1)] (.gathp h a b c (bv 6 w 1) (bitOf w 0))
  | 0x05 => gate w [(14, 6), (0, 8)] (.exp24 h a c)
  | 0x06 => gate w [(14, 6), (0, 6)] (.putr h a c (bv 2 w 6))
  | 0x07 => gate w [(14, 6), (3, 5)] (.bcast h a c (bv 3 w 0))
  | 0x08 => gate w [(14, 6), (8, 6), (0, 8)] (.fseed h a)
  | 0x09 => gate w [(14, 6), (8, 6), (0, 8)] (.pfetch h a)
  | 0x0A => gate w [(0, 8)] (.cmpb h a b c)
  | _ => decodeGeneric .flume w

/-- The opcode map of the sluice (R285). -/
def decodeSluice (w : Nat) : Except DecodeErr Instr :=
  let h := headAt w
  let a := bv 6 w 20
  let b := bv 6 w 14
  let c := bv 6 w 8
  match fld w 47 7 with
  | 0x00 => gate w [(4, 4)] (.sacc h a b c (bitOf w 3) (bv 3 w 0))
  | 0x01 => gate w [(4, 4)] (.sfetch h a b c (bitOf w 3) (bv 3 w 0))
  | 0x02 => gate w [(4, 4), (0, 3)] (.scas h a b c (bitOf w 3))
  | 0x03 => gate w [(14, 6), (4, 4), (0, 3)] (.bset h a c (bitOf w 3))
  | 0x04 => gate w [(14, 6), (4, 4), (0, 3)] (.bclr h a c (bitOf w 3))
  | 0x05 => gate w [(4, 4), (1, 2)] (.btest h a b c (bitOf w 3) (bitOf w 0))
  | 0x06 => gate w [(14, 6), (4, 4), (0, 3)] (.cinc h a c (bitOf w 3))
  | 0x07 => gate w [(14, 6), (0, 8)] (.cmerge h a c)
  | 0x08 => gate w [(14, 6), (0, 8)] (.cread h a c)
  | 0x09 => gate w [(14, 6), (8, 6), (0, 8)] (.sseed h a)
  | _ => decodeGeneric .sluice w

/-- Decode a command word of an engine. -/
def decodeEngine : EngId → Nat → Except DecodeErr Instr
  | .matrix, w => decodeMatrix w
  | .flume, w => decodeFlume w
  | .sluice, w => decodeSluice w

/-! ### The encoder -/

/-- QP and QN below an upper part `x`. -/
def encQual (x : Nat) (q : Qual) : Nat := cat (cat x 3 q.p.toNat) 1 (b2n q.n)

/-- OP, D, A, B, QP, QN of the CR, CI, CE and CM formats (R129, R130), 37 bits below. -/
def encTop (op d a b : Nat) (q : Qual) : Nat := encQual (cat (cat (cat op 5 d) 5 a) 5 b) q

/-- A CR word: FN in [36:29] (R129). -/
def encCR (op d a b : Nat) (q : Qual) (fn : Nat) : Nat := cat (cat (encTop op d a b q) 8 fn) 29 0

/-- A CI word: IMM32 in [36:5] (R129). -/
def encCI (op d a : Nat) (q : Qual) (imm : Nat) : Nat := cat (cat (encTop op d a 0 q) 32 imm) 5 0

/-- A CE word with its low 37 bits `low`. -/
def encCE (op d a b : Nat) (q : Qual) (low : Nat) : Nat := cat (encTop op d a b q) 37 low

/-- A CM word: CLASS, SCOPE, SZ, SX and the low 26 bits (R130). -/
def encCM (op d a x : Nat) (q : Qual) (cls scope sz sx low : Nat) : Nat :=
  cat (cat (cat (cat (cat (encTop op d a x q) 4 cls) 3 scope) 3 sz) 1 sx) 26 low

/-- A CC word (R131). -/
def encCC (op pd pc a : Nat) (rhs : CmpRhs) (cond : Nat) : Nat :=
  let top := cat (cat (cat op 3 pd) 3 pc) 5 a
  match rhs with
  | .reg b => cat (cat (cat top 5 b.toNat) 4 cond) 36 0
  | .imm v => cat (cat (cat (cat (cat top 5 0) 4 cond) 1 1) 32 v.toNat) 3 0

/-- A CT word (R131). -/
def encCT (op j p : Nat) (pn : Bool) (off : Nat) : Nat := cat (cat (cat (cat (cat op 3 j) 3 p) 1 (b2n pn)) 1 0) 48 off

/-- A wait field below an upper part. -/
def encWait (x : Nat) (w : Wait) : Nat := cat (cat x 2 w.eng.toNat) 5 w.seq.toNat

/-- IDLE, OP and the waits, with OPERANDS below (R14). -/
def encCmd (h : CmdHead) (op operands : Nat) : Nat :=
  cat (encWait (encWait (encWait (cat h.idle.toNat 7 op) h.w0) h.w1) h.w2) 26 operands

/-- T1, T2, T3 and MOD (R14). -/
def encSlots (a b c mod : Nat) : Nat := cat (cat (cat a 6 b) 6 c) 8 mod

/-- The word of an instruction or command; an event has no word and answers 0. -/
def encode : Instr → Nat
  | .nop q => encCR 0x00 0 0 0 q 0
  | .halt q => encCR 0x01 0 0 0 q 0
  | .trap q i => encCE 0x02 0 0 0 q (cat i.toNat 21 0)
  | .brk => 0x0300000000000000
  | .spget q d f => encCR 0x04 d.toNat 0 0 q f.toNat
  | .spset q a f => encCR 0x05 0 a.toNat 0 q f.toNat
  | .iinv q a b s w => encCE 0x06 0 a.toNat b.toNat q (cat (cat s.toNat 1 (b2n w)) 33 0)
  | .prime q a b => encCE 0x07 0 a.toNat b.toNat q 0
  | .fork q d a b f => encCR 0x08 d.toNat a.toNat b.toNat q f.toNat
  | .join q d => encCR 0x09 d.toNat 0 0 q 0
  | .twait q d a g s => encCE 0x0A d.toNat a.toNat 0 q (cat (cat g.toNat 20 s.toNat) 15 0)
  | .qcancel q m => encCE 0x0B 0 0 0 q (cat m.toNat 34 0)
  | .tset q a t w => encCE 0x0C 0 a.toNat 0 q (cat (cat t.toNat 3 w.toNat) 28 0)
  | .tget q d t w => encCE 0x0D d.toNat 0 0 q (cat (cat t.toNat 3 w.toNat) 28 0)
  | .patw q a p => encCE 0x0E 0 a.toNat 0 q (cat p.toNat 33 0)
  | .patr q d p => encCE 0x0F d.toNat 0 0 q (cat p.toNat 33 0)
  | .shpw q a s w => encCE 0x10 0 a.toNat 0 q (cat (cat s.toNat 2 w.toNat) 32 0)
  | .shpr q d s w => encCE 0x11 d.toNat 0 0 q (cat (cat s.toNat 2 w.toNat) 32 0)
  | .bar q s i => encCE 0x12 0 0 0 q (cat (cat s.toNat 6 i.toNat) 28 0)
  | .barr q a b s i r t => encCE 0x13 0 a.toNat b.toNat q (cat (cat (cat (cat s.toNat 6 i.toNat) 3 r.toNat) 3 t.toNat) 22 0)
  | .launch q d a => encCE 0x14 d.toNat a.toNat 0 q 0
  | .add q d a b => encCR 0x20 d.toNat a.toNat b.toNat q 0
  | .sub q d a b => encCR 0x21 d.toNat a.toNat b.toNat q 0
  | .and q d a b => encCR 0x22 d.toNat a.toNat b.toNat q 0
  | .or q d a b => encCR 0x23 d.toNat a.toNat b.toNat q 0
  | .xor q d a b => encCR 0x24 d.toNat a.toNat b.toNat q 0
  | .andn q d a b => encCR 0x25 d.toNat a.toNat b.toNat q 0
  | .shl q d a b => encCR 0x26 d.toNat a.toNat b.toNat q 0
  | .shr q d a b => encCR 0x27 d.toNat a.toNat b.toNat q 0
  | .sar q d a b => encCR 0x28 d.toNat a.toNat b.toNat q 0
  | .min q u d a b => encCR 0x29 d.toNat a.toNat b.toNat q (b2n u)
  | .max q u d a b => encCR 0x2A d.toNat a.toNat b.toNat q (b2n u)
  | .mul q d a b => encCR 0x2B d.toNat a.toNat b.toNat q 0
  | .mulh q u d a b => encCR 0x2C d.toNat a.toNat b.toNat q (b2n u)
  | .div q u d a b => encCR 0x2D d.toNat a.toNat b.toNat q (b2n u)
  | .rem q u d a b => encCR 0x2E d.toNat a.toNat b.toNat q (b2n u)
  | .csel q d a b p n => encCR 0x2F d.toNat a.toNat b.toNat q (cat (b2n n) 3 p.toNat)
  | .addi q d a i => encCI 0x30 d.toNat a.toNat q i.toNat
  | .andi q d a i => encCI 0x31 d.toNat a.toNat q i.toNat
  | .ori q d a i => encCI 0x32 d.toNat a.toNat q i.toNat
  | .xori q d a i => encCI 0x33 d.toNat a.toNat q i.toNat
  | .shli q d a i => encCI 0x34 d.toNat a.toNat q i.toNat
  | .shri q d a i => encCI 0x35 d.toNat a.toNat q i.toNat
  | .sari q d a i => encCI 0x36 d.toNat a.toNat q i.toNat
  | .limm q d i => encCI 0x37 d.toNat 0 q i.toNat
  | .limmh q d i => encCI 0x38 d.toNat 0 q i.toNat
  | .bfx q d a p l s => encCE 0x39 d.toNat a.toNat 0 q (cat (cat (cat p.toNat 6 l.toNat) 1 (b2n s)) 24 0)
  | .bfi q d a p l => encCE 0x3A d.toNat a.toNat 0 q (cat (cat p.toNat 6 l.toNat) 25 0)
  | .rev q d a y => encCR 0x3B d.toNat a.toNat 0 q (b2n y)
  | .clz q d a => encCR 0x3C d.toNat a.toNat 0 q 0
  | .ctz q d a => encCR 0x3D d.toNat a.toNat 0 q 0
  | .popc q d a => encCR 0x3E d.toNat a.toNat 0 q 0
  | .clmul q h d a b => encCR 0x3F d.toNat a.toNat b.toNat q (b2n h)
  | .cmp pd pc a r c => encCC 0x40 pd.toNat pc.toNat a.toNat r c.toNat
  | .plog q pd pa pb tt => encCE 0x41 0 0 0 q (cat (cat (cat (cat pd.toNat 3 pa.toNat) 3 pb.toNat) 4 tt.toNat) 24 0)
  | .psave q d => encCE 0x42 d.toNat 0 0 q 0
  | .pload q a m => encCE 0x43 0 a.toNat 0 q (cat m.toNat 29 0)
  | .fcmp pd pc a r c => encCC 0x44 pd.toNat pc.toNat a.toNat r c.toNat
  | .fadd q d a b => encCR 0x48 d.toNat a.toNat b.toNat q 0
  | .fsub q d a b => encCR 0x49 d.toNat a.toNat b.toNat q 0
  | .fmul q d a b => encCR 0x4A d.toNat a.toNat b.toNat q 0
  | .ffma q d a b => encCR 0x4B d.toNat a.toNat b.toNat q 0
  | .fmin q d a b => encCR 0x4C d.toNat a.toNat b.toNat q 0
  | .fmax q d a b => encCR 0x4D d.toNat a.toNat b.toNat q 0
  | .fcvt q d a f => encCR 0x4E d.toNat a.toNat 0 q f.toNat
  | .ld q d a x c z s o => encCM 0x50 d.toNat a.toNat x.toNat q c.toNat 0 z.toNat (b2n s) o.toNat
  | .st q d a x c z o => encCM 0x51 d.toNat a.toNat x.toNat q c.toNat 0 z.toNat 0 o.toNat
  | .lda q d a x c p z s m o => encCM 0x52 d.toNat a.toNat x.toNat q c.toNat p.toNat z.toNat (b2n s) (cat m.toNat 10 o.toNat)
  | .stl q d a x c p z m o => encCM 0x53 d.toNat a.toNat x.toNat q c.toNat p.toNat z.toNat 0 (cat m.toNat 10 o.toNat)
  | .pref q a x o => encCM 0x54 0 a.toNat x.toNat q 0 0 0 0 o.toNat
  | .fence q b a s => encCE 0x55 0 0 0 q (cat (cat (cat b.toNat 16 a.toNat) 3 s.toNat) 2 0)
  | .prep j p n o => encCT 0x60 j.toNat p.toNat n o.toNat
  | .prepr q j a => encCR 0x61 j.toNat a.toNat 0 q 0
  | .xfer j p n => encCT 0x62 j.toNat p.toNat n 0
  | .xcall j p n => encCT 0x63 j.toNat p.toNat n 0
  | .ret q => encCR 0x64 0 0 0 q 0
  | .jget q d j => encCR 0x65 d.toNat 0 0 q j.toNat
  | .jclr q j => encCR 0x66 0 0 0 q j.toNat
  | .opcodeNotListed w => w.toNat
  | .engineOpcodeNotListed _ w => w.toNat
  | .idle _ h x => encCmd h 0x70 x.toNat
  | .rep _ h b c a t w => encCmd h 0x71 (cat (cat (cat (cat (cat b.toNat 12 c.toNat) 3 a.toNat) 3 t.toNat) 3 w.toNat) 1 0)
  | .efence _ h c s => encCmd h 0x72 (cat (cat c.toNat 3 s.toNat) 7 0)
  | .endStream _ h => encCmd h 0x73 0
  | .mma h a b c s k t u => encCmd h 0x00 (encSlots a.toNat b.toNat c.toNat (cat (cat (cat (cat s.toNat 1 (b2n k)) 1 (b2n t)) 1 (b2n u)) 3 0))
  | .accz h c => encCmd h 0x01 (encSlots 0 0 c.toNat 0)
  | .acccp h a c z => encCmd h 0x02 (encSlots a.toNat 0 c.toNat (b2n z))
  | .wfill h a c => encCmd h 0x03 (encSlots a.toNat 0 c.toNat 0)
  | .winv h c w => encCmd h 0x04 (encSlots 0 0 c.toNat (b2n w))
  | .part h a c n => encCmd h 0x05 (encSlots a.toNat 0 c.toNat (b2n n))
  | .rank h a c n => encCmd h 0x06 (encSlots a.toNat 0 c.toNat (b2n n))
  | .topk h a c k n => encCmd h 0x07 (encSlots a.toNat 0 c.toNat (cat (b2n n) 7 k.toNat))
  | .drain h a c s => encCmd h 0x08 (encSlots a.toNat 0 c.toNat s.toNat)
  | .amax h a c s => encCmd h 0x09 (encSlots a.toNat 0 c.toNat s.toNat)
  | .mseed h a => encCmd h 0x0A (encSlots a.toNat 0 0 0)
  | .copy h a c => encCmd h 0x00 (encSlots a.toNat 0 c.toNat 0)
  | .fill h a c z => encCmd h 0x01 (encSlots a.toNat 0 c.toNat (b2n z))
  | .gather h a b c s => encCmd h 0x02 (encSlots a.toNat b.toNat c.toNat (b2n s))
  | .scatter h a b c s => encCmd h 0x03 (encSlots a.toNat b.toNat c.toNat (b2n s))
  | .gathp h a b c p s => encCmd h 0x04 (encSlots a.toNat b.toNat c.toNat (cat (cat 0 6 p.toNat) 1 (b2n s)))
  | .exp24 h a c => encCmd h 0x05 (encSlots a.toNat 0 c.toNat 0)
  | .putr h a c r => encCmd h 0x06 (encSlots a.toNat 0 c.toNat (cat r.toNat 6 0))
  | .bcast h a c s => encCmd h 0x07 (encSlots a.toNat 0 c.toNat s.toNat)
  | .fseed h a => encCmd h 0x08 (encSlots a.toNat 0 0 0)
  | .pfetch h a => encCmd h 0x09 (encSlots a.toNat 0 0 0)
  | .cmpb h a b c => encCmd h 0x0A (encSlots a.toNat b.toNat c.toNat 0)
  | .sacc h a b c s o => encCmd h 0x00 (encSlots a.toNat b.toNat c.toNat (cat (b2n s) 3 o.toNat))
  | .sfetch h a b c s o => encCmd h 0x01 (encSlots a.toNat b.toNat c.toNat (cat (b2n s) 3 o.toNat))
  | .scas h a b c s => encCmd h 0x02 (encSlots a.toNat b.toNat c.toNat (cat (b2n s) 3 0))
  | .bset h a c s => encCmd h 0x03 (encSlots a.toNat 0 c.toNat (cat (b2n s) 3 0))
  | .bclr h a c s => encCmd h 0x04 (encSlots a.toNat 0 c.toNat (cat (b2n s) 3 0))
  | .btest h a b c s t => encCmd h 0x05 (encSlots a.toNat b.toNat c.toNat (cat (b2n s) 3 (b2n t)))
  | .cinc h a c s => encCmd h 0x06 (encSlots a.toNat 0 c.toNat (cat (b2n s) 3 0))
  | .cmerge h a c => encCmd h 0x07 (encSlots a.toNat 0 c.toNat 0)
  | .cread h a c => encCmd h 0x08 (encSlots a.toNat 0 c.toNat 0)
  | .sseed h a => encCmd h 0x09 (encSlots a.toNat 0 0 0)
  | _ => 0

/-- The instruction that the control core's decoder reads from a word numbered as the opcode table numbers it: one
64-bit little-endian word, so bit 0 is bit 0 (R6, R129). An instruction of more than 64 bits does not exist. -/
def decodeTableWord (nbits w : Nat) : Option Instr :=
  if nbits ≤ 64 then
    match decodeControl (w % 2 ^ 64) with
    | .ok i => some i
    | .error _ => none
  else none

end Sys2Proof
end

