-- ==== Sys2Proof/Machine/Access.lean ====
section
/-! DEFINITION. Addresses and translation: the windows of R74 and R75, the page-table walk of R78 to R81, the
translations that cores and dies hold (R82 to R84), and where an access of the control core goes (R151). -/

namespace Sys2Proof.Machine

/-- What an access wants of its page (R81). -/
inductive Acc where
  | load | store | fetch | push | pop | reduce
  | loader
  deriving DecidableEq, Repr

/-- Where a virtual address lies (R74). -/
inductive Loc where
  | window (sp : Space) (off : Nat)
  | virt
  | none
  deriving DecidableEq, Repr

/-- Classify a 64-bit address by the table of R74. -/
def locate (va : Nat) : Loc :=
  if va < 2 ^ 56 then .virt
  else if 0xFF80000000000000 ≤ va && va < 0xFF80000000040000 then .window .reg (va - 0xFF80000000000000)
  else if 0xFF80000001000000 ≤ va && va < 0xFF80000001200000 then .window .scr (va - 0xFF80000001000000)
  else if 0xFF00000000000000 ≤ va && (va - 0xFF00000000000000) / 2 ^ 24 ≤ 73727
      && (va - 0xFF00000000000000) % 2 ^ 24 < 0x200000 then
    .window (.far ((va - 0xFF00000000000000) / 2 ^ 24)) ((va - 0xFF00000000000000) % 2 ^ 24)
  else .none

/-- The partition of the focused task. -/
def State.partOf (s : State) (id : Nat) : Option Partition := s.parts.find? fun p => p.id == id

/-- The populated bytes of one die's HBM: three stacks of 64 GB, decimal (R2, R6, R315). -/
def hbmPerDie : Nat := 192 * 10 ^ 9

/-- Is the physical range populated (R78)? -/
def State.populated (s : State) (host : Bool) (pa n : Nat) : Bool :=
  if bitOf pa 51 then host && s.hostLink
  else fld pa 47 4 == 0 && fld pa 40 7 == s.pkg && decide (fld pa 38 2 < s.dies)
    && decide (pa % 2 ^ 38 + n ≤ hbmPerDie)

/-- Does the range lie in the partition's share (R78)? -/
def Partition.holds (p : Partition) (pa n : Nat) : Bool :=
  bitOf pa 51 || p.share.any fun r => r.1 ≤ pa && pa + n ≤ r.2

/-- Is a table entry at `level` malformed or invalid (R80)? -/
def entryBad (level e : Nat) : Bool :=
  let leaf := bitOf e 7
  !bitOf e 0 || fld e 60 4 != 0 || fld e 52 5 != 0 || fld e 1 2 != 0
    || (if leaf then
          fld e 58 2 == 3
            || (match level with
                | 0 => fld e 8 8 != 0
                | 1 => fld e 8 13 != 0
                | 2 => fld e 8 22 != 0
                | _ => true)
        else
          fld e 58 2 != 0 || bitOf e 57 || fld e 3 4 != 0
            || (match level with
                | 3 => fld e 8 4 != 0
                | 2 => fld e 8 4 != 0
                | 1 => false
                | _ => true))

/-- The index of a virtual address at a level (R79). -/
def vaIndex (level va : Nat) : Nat :=
  match level with
  | 3 => fld va 39 17
  | 2 => fld va 30 9
  | 1 => fld va 21 9
  | _ => fld va 16 5

/-- The bytes of a table below a level, and of a page mapped at it (R79). -/
def tableSize (level : Nat) : Nat := if level == 0 then 256 else 4096

/-- The size of a page mapped at a level, as a power of two (R79). -/
def pageLog2 (level : Nat) : Nat := match level with | 2 => 30 | 1 => 21 | _ => 16

/-- A leaf entry as a translation (R80). -/
def leafOf (level e : Nat) : Leaf :=
  { log2 := pageLog2 level, pa := fld e 8 44 * 2 ^ 8, prop := fld e 58 2, shadow := bitOf e 57, u := bitOf e 6
    x := bitOf e 5, w := bitOf e 4, rd := bitOf e 3 }

/-- The walk from the table at `table` on `level`, to the leaf as it stands (R79 to R81): every lower table is checked for
its place. -/
def State.walkFrom (s : State) (p : Partition) (va : Nat) : Nat → Nat → Except Code Leaf
  | 0, table =>
    let e := s.rdNat .mem (table + 8 * vaIndex 0 va) 8
    if (s.badIn .mem (table + 8 * vaIndex 0 va) 8).isSome then .error .uncorrectable
    else if entryBad 0 e || !bitOf e 7 then .error .notPresent
    else .ok (leafOf 0 e)
  | level + 1, table =>
    let e := s.rdNat .mem (table + 8 * vaIndex (level + 1) va) 8
    if (s.badIn .mem (table + 8 * vaIndex (level + 1) va) 8).isSome then .error .uncorrectable
    else if entryBad (level + 1) e then .error .notPresent
    else if bitOf e 7 then .ok (leafOf (level + 1) e)
    else
      let next := fld e 8 44 * 2 ^ 8
      if !s.populated p.vf next (tableSize level) then .error .notPresent
      else if !p.holds next (tableSize level) then .error .permission
      else s.walkFrom p va level next

/-- The number of the launch queue of a die and a priority. -/
def queueNo (die prio : Nat) : Nat := 4 * die + prio

/-- The root table of the address space of a launch queue (R79). -/
def Partition.rootFor (p : Partition) (queue : Nat) : Nat := spGet p.root p.roots queue

/-- The leaf of an address space from its root table at `root`, which R78 checks like every other table of the walk. -/
def State.leafIn (s : State) (p : Partition) (root va : Nat) : Except Code Leaf :=
  if 2 ^ 56 ≤ va || !s.populated p.vf root 0x100000 then .error .notPresent
  else if !p.holds root 0x100000 then .error .permission
  else s.walkFrom p va 3 root

/-- The walk of an address space: its leaf, whose page must be populated and in the share (R78, the first four rows of R81's
table). -/
def State.walkIn (s : State) (p : Partition) (root va : Nat) : Except Code Leaf :=
  match s.leafIn p root va with
  | .error c => .error c
  | .ok l =>
    if !s.populated p.vf l.pa (2 ^ l.log2) then .error .notPresent
    else if !p.holds l.pa (2 ^ l.log2) then .error .permission
    else .ok l

/-- The walk of the focused task's address space. -/
def State.walk (s : State) (va : Nat) : Except Code Leaf :=
  match s.partOf s.task.part with
  | none => .error .notPresent
  | some p => s.walkIn p (p.rootFor s.task.queue) va

/-- The root of the focused task's address space. -/
def State.root (s : State) : Nat := ((s.partOf s.task.part).map fun p => p.rootFor s.task.queue).getD 0

/-- The permission rows of R81. -/
def Leaf.check (l : Leaf) (k : Acc) : Option Code :=
  let host := bitOf l.pa 51
  let badHost := host && l.prop != 1
  match k with
  | .loader => none
  | .load => if !l.u || !l.rd || badHost then some .permission else none
  | .store => if !l.u || !l.w || l.shadow || badHost then some .permission else none
  | .fetch => if !l.u || !l.x || badHost then some .permission else none
  | .push => if !l.u || !l.shadow || badHost then some .permission else none
  | .pop => if !l.u || !l.rd || !l.shadow || badHost then some .permission else none
  | .reduce => if !l.u || !l.w || l.shadow || l.prop == 2 || host then some .permission else none

/-- The first address of the page of a virtual address under a leaf. -/
def Leaf.base (l : Leaf) (va : Nat) : Nat := va / 2 ^ l.log2 * 2 ^ l.log2

/-- The translation held for `va` in a list of (page address, leaf) pairs. -/
def heldLeaf (ts : List (Nat × Leaf)) (va : Nat) : Option Leaf :=
  (ts.find? fun t => t.1 ≤ va && va < t.1 + 2 ^ t.2.log2).map (·.2)

/-- The translations of the focused task's address space in the cache of its die (R82). -/
def State.dieLeaves (s : State) : List (Nat × Leaf) :=
  (s.xlat.filter fun x => x.die == dieOf s.cur.pcore && x.part == s.task.part && x.root == s.root).map
    fun x => (x.base, x.leaf)

/-- The translation that the core's buffer or the die's cache holds for an address (R82). -/
def State.heldFor (s : State) (va : Nat) : Option Leaf :=
  match heldLeaf s.task.pins va with
  | some l => some l
  | none =>
    match heldLeaf s.task.tlb va with
    | some l => some l
    | none => heldLeaf s.dieLeaves va

/-- An older translation than the walk's that is still held (R83). -/
def State.oldLeaf (s : State) (va : Nat) : Option Leaf :=
  match s.heldFor va, s.walk va with
  | some l, .ok l' => if l = l' then none else some l
  | some l, .error _ => some l
  | none, _ => none

/-- The translation that one access uses: the walk's, or until a shoot-down an older one that core or die holds, and then
which of the two is free (R83, log entry 2). -/
def State.leafFor (s : State) (va : Nat) : Except Code Leaf × State :=
  match s.oldLeaf va with
  | none => (s.walk va, s)
  | some l =>
    let (old, s) := s.choose
    (if old then .ok l else s.walk va, s)

/-- Keep a valid translation in the core's buffer and the die's cache (R82). -/
def State.noteTlb (s : State) (va : Nat) (l : Leaf) : State :=
  let s := if (heldLeaf s.dieLeaves va).isSome then s
    else { s with xlat := s.xlat ++ [⟨dieOf s.cur.pcore, s.task.part, s.root, l.base va, l⟩] }
  if (heldLeaf s.task.tlb va).isSome then s
  else s.withTask { s.task with tlb := s.task.tlb ++ [(l.base va, l)] }

/-- What R81 makes of a translation: the physical address, or the fault. `timed` asks for a primed translation, the last
row of its table. -/
def State.judge (s : State) (va : Nat) (k : Acc) (timed : Bool) : Except Code Leaf → Except Code Nat
  | .error c => .error c
  | .ok l =>
    match l.check k with
    | some c => .error c
    | none =>
      if timed && (heldLeaf s.task.pins va).isNone then .error .timedTranslation else .ok (l.pa + va % 2 ^ l.log2)

/-- Translate one access by R81; the record of a fault has the accessed address, also where an entry of the walk cannot be read
(log entry 106). -/
def State.translate (s : State) (va : Nat) (k : Acc) (timed : Bool) : Except Trap Nat × State :=
  let (r, s) := s.leafFor va
  match r, s.judge va k timed r with
  | .ok l, .ok pa => (.ok pa, s.noteTlb va l)
  | _, .ok pa => (.ok pa, s)
  | _, .error c => (.error { code := c, addr := some va }, s)

/-- Where a control-core access goes: a byte of a store, a fault, or a task that is not resident (R75). -/
inductive Target where
  | at_ (sp : Space) (a : Nat)
  | trap (tr : Trap)
  | held
  deriving DecidableEq, Repr

/-- The launch's cores (R75). -/
def Task.extent (t : Task) : Nat := t.gcount * t.gsize

/-- Is the scratchpad of launch core `n` reachable now (R75)? -/
def State.reachable (s : State) (n : Nat) : Bool := n == s.task.lcn || (s.findTask s.task.lid n).isSome

/-- Find the target of a control-core load or store, in the order of R151: ALIGN, TIMED-STATE (R156), R81. -/
def State.target (s : State) (va n : Nat) (k : Acc) : Target × State :=
  if va % n != 0 then (.trap { code := .align, addr := some va }, s)
  else
    match locate va with
    | .none => (.trap { code := .notPresent, addr := some va }, s)
    | .window (.far m) off =>
      if s.ctl.timedOpen then (.trap { code := .timedState, addr := some va }, s)
      else if s.task.extent ≤ m then (.trap { code := .notPresent, addr := some va }, s)
      else if s.reachable m then (.at_ (.far m) off, s) else (.held, s)
    | .window sp off => (.at_ sp off, s)
    | .virt =>
      match s.translate va k s.ctl.timedOpen with
      | (.error tr, s) => (.trap tr, s)
      | (.ok pa, s) => (.at_ .mem pa, s)

/-- The effective address of R151. -/
def State.ea (s : State) (a x : BitVec 5) (sz : BitVec 2) (off : Word) : Nat :=
  (s.getG a + (s.getG x <<< sz.toNat) + off).toNat

end Sys2Proof.Machine
end

