-- ==== Sys2Proof/Machine/Operands.lean ====
section
/-! DEFINITION. Operand registers as commands use them: tack entries (R39 to R46, R329), their formats (R57, R58, R63,
R64), their walks and furrows (R43, R44), lane modifiers (R46), packing (R65), block scales (R72), patterns (R48, R49)
and generators (R50 to R52). -/

namespace Sys2Proof.Machine

/-! ### Fields of an entry -/

/-- A field of an entry's word. -/
def ef (w : Word) (lo n : Nat) : Nat := fld w.toNat lo n

/-- A signed 32-bit field. -/
def ei (w : Word) (lo : Nat) : Int := sgn 32 (ef w lo 32)

def Entry.kind (t : Entry) : Nat := ef t.w0 60 4
def Entry.fmtCode (t : Entry) : Nat := ef t.w0 52 8
def Entry.layout (t : Entry) : Nat := ef t.w0 48 4
def Entry.rows (t : Entry) : Nat := ef t.w0 32 16
def Entry.cols (t : Entry) : Nat := ef t.w0 16 16
def Entry.valid (t : Entry) : Bool := bitOf t.w0.toNat 15
def Entry.wr (t : Entry) : Bool := bitOf t.w0.toNat 14
def Entry.cls (t : Entry) : Nat := ef t.w0 10 4
def Entry.cscope (t : Entry) : Nat := ef t.w0 7 3
def Entry.sr (t : Entry) : Bool := bitOf t.w0.toNat 6
def Entry.sat (t : Entry) : Bool := bitOf t.w0.toNat 5
def Entry.acc (t : Entry) : Bool := bitOf t.w0.toNat 4
def Entry.range (t : Entry) : Bool := bitOf t.w0.toNat 3
def Entry.rowStride (t : Entry) : Int := ei t.w2 32
def Entry.passStride (t : Entry) : Int := ei t.w2 0
def Entry.kExp (t : Entry) : Nat := ef t.w3 37 3
def Entry.lw8 (t : Entry) : Bool := bitOf t.w3.toNat 36
def Entry.laneMod (t : Entry) : Nat := ef t.w3 24 12
def Entry.custom (t : Entry) : Nat := ef t.w3 0 24
def Entry.sen (t : Entry) : Bool := bitOf t.w4.toNat 20
def Entry.saxis (t : Entry) : Nat := ef t.w4 18 2
def Entry.sfmt (t : Entry) : Nat := ef t.w4 10 8
def Entry.slog2 (t : Entry) : Nat := ef t.w4 6 4
def Entry.stid (t : Entry) : Nat := ef t.w4 0 6
def Entry.cnt (t : Entry) (k : Nat) : Nat := ef t.w5 (16 * k) 16
def Entry.furrowed (t : Entry) : Bool := t.w5 != 0

/-- Byte stride of furrow loop `k` (R44). -/
def Entry.str (t : Entry) (k : Nat) : Int :=
  match k with
  | 0 => ei t.w6 0
  | 1 => ei t.w6 32
  | 2 => ei t.w7 0
  | _ => ei t.w7 32

/-- The base of the entry's store: W1 by KIND (R41). -/
def Entry.base (t : Entry) : Nat :=
  match t.kind with
  | 1 => ef t.w1 0 18
  | 4 => ef t.w1 0 18
  | 3 => t.w1.toNat
  | _ => ef t.w1 0 21

/-- The launch core number of a REMOTE entry (R41). -/
def Entry.core (t : Entry) : Nat := ef t.w1 24 17

/-- The store of an entry that has one; a MEM entry is reached through translation. -/
def Entry.space (t : Entry) : Space :=
  match t.kind with
  | 1 => .reg
  | 4 => .wbuf
  | 3 => .mem
  | 8 => .far t.core
  | _ => .scr

/-- A CUSTOM format word (R63, R64). -/
def customFmt (c : Nat) : Option Fmt :=
  let sb := fld c 0 1
  let e := fld c 1 3
  let m := fld c 4 3
  let bias := sgn 8 (fld c 7 8)
  let spec := fld c 15 2
  let w := sb + e + m
  if fld c 17 7 != 0 || spec == 3 || w < 2 || 8 < w then none
  else if e == 0 then (if bias != 0 || spec != 0 then none else some (.int w (sb == 1)))
  else if spec == 1 && (e < 2 || m < 1) then none
  else
    some (.flt sb e m bias (match spec with | 0 => .finite | 1 => .ieee | _ => .oneNan) false)

/-- The format that a code names (R57, R58). -/
def fmtOf (code custom : Nat) : Option Fmt :=
  match code with
  | 0x00 => some (.int 4 true)
  | 0x01 => some (.int 4 false)
  | 0x02 => some (.int 8 true)
  | 0x03 => some (.int 8 false)
  | 0x04 => some (.int 16 true)
  | 0x05 => some (.int 32 true)
  | 0x08 => some (.flt 1 4 3 7 .oneNan false)
  | 0x09 => some (.flt 1 5 2 15 .ieee false)
  | 0x0A => some (.flt 1 2 1 1 .finite false)
  | 0x0B => some (.flt 1 2 3 1 .finite false)
  | 0x0C => some (.flt 1 3 2 3 .finite false)
  | 0x0D => some .e8m0
  | 0x10 => some (.flt 1 5 10 15 .ieee true)
  | 0x11 => some bf16
  | 0x12 => some fp32
  | 0x20 => some .bit
  | 0x21 => some (.int 8 false)
  | 0x30 => some (.level 4)
  | 0x31 => some (.level 8)
  | 0x40 => customFmt custom
  | _ => none

/-- The entry's format; BIT where the code is undefined (such an entry raises FORMAT before it is read). -/
def Entry.fmt (t : Entry) : Fmt := (fmtOf t.fmtCode t.custom).getD .bit

/-- The container of an element in bytes (R43). -/
def Fmt.container (F : Fmt) : Nat := if F.width ≤ 8 then 1 else if F.width ≤ 16 then 2 else 4

/-! ### Checks at use (R40 to R46, R52, R58, R329) -/

/-- Is the entry of a kind that holds data in a store? -/
def Entry.stored (t : Entry) : Bool := t.kind != 5 && t.kind != 6

/-- W1's unused bits are nonzero, or its value breaks its limit (R41). -/
def Entry.w1Bad (t : Entry) : Bool :=
  match t.kind with
  | 1 => ef t.w1 18 46 != 0
  | 4 => ef t.w1 18 46 != 0
  | 2 => ef t.w1 21 43 != 0
  | 7 => ef t.w1 21 43 != 0
  | 3 => !(ef t.w1 56 8 == 0 || ef t.w1 56 8 == 255)
  | 5 => ef t.w1 4 60 != 0
  | 6 => ef t.w1 6 2 != 0 || ef t.w1 12 20 != 0 || 1 < ef t.w1 8 4 || (ef t.w1 8 4 == 1 && ef t.w1 32 32 != 0)
  | 8 => ef t.w1 21 3 != 0 || ef t.w1 41 23 != 0 || 73727 < t.core
  | _ => true

/-- The lane modifier breaks R46. -/
def Entry.laneBad (t : Entry) : Bool :=
  let lm := t.laneMod
  let cls := fld lm 10 2
  if cls == 0 then lm != 0 else 2 ^ fld lm 7 3 ≤ fld lm 0 7 || t.fmtCode == 0x12

/-- The furrow breaks R44: not row-major, or a stride off its container. -/
def Entry.furrowBad (t : Entry) : Bool :=
  t.furrowed && (t.layout != 0 || [0, 1, 2, 3].any fun k => t.str k % (t.fmt.container : Int) != 0)

/-- The entry fails one of the TACK checks that do not depend on its slot (the W4 of a COUNT entry: log entry 95). RANGE = 1 in an entry
other than GEN ONEHOT, of which R40 says only that it is 0 there, is one of them (DESIGN CHOICE, log entry 118). -/
def Entry.tackBad (t : Entry) : Bool :=
  let k := t.kind
  k == 0 || 8 < k || !t.valid || 3 < t.layout || (1 < t.layout && k != 4) || t.rows == 0 || t.cols == 0
    || 5 < t.cscope || fld t.w0.toNat 0 3 != 0
    || (t.acc && (k != 1 || !(t.fmtCode == 0x12 || t.fmtCode == 0x05 || t.fmtCode == 0x20)))
    || (t.range && !(k == 6 && ef t.w1 8 4 == 0))
    || t.w1Bad || ef t.w3 40 24 != 0
    || (if k == 7 then t.kExp == 0 || 4 < t.kExp || t.layout != 0 else ef t.w3 36 4 != 0)
    || (t.fmtCode != 0x40 && t.custom != 0)
    || (if t.sen && k != 7 then ef t.w4 21 43 != 0 || t.saxis == 3 || 7 < t.slog2 else t.w4 != 0)
    || (match k with
        | 5 => t.fmtCode != 0 || t.layout != 0 || t.wr || t.sr || t.sat || t.acc || t.w2 != 0 || t.w3 != 0
            || t.w4 != 0 || t.w5 != 0 || t.w6 != 0 || t.w7 != 0
        | 6 => t.fmtCode != 0 || t.layout != 0 || t.w2 != 0 || t.w3 != 0 || t.w4 != 0 || t.w5 != 0 || t.w6 != 0
            || t.w7 != 0
        | _ => t.laneBad || t.furrowBad || t.base % t.fmt.container != 0
            || t.rowStride % (t.fmt.container : Int) != 0 || (t.layout == 3 && t.rowStride != 0))

/-- The entry's format code is undefined or does not suit its kind (R58, R64, R42). -/
def Entry.formatBad (t : Entry) : Bool :=
  t.stored
    && ((fmtOf t.fmtCode t.custom).isNone
      || (if t.kind == 7 then t.fmtCode != (if t.lw8 then 0x31 else 0x30)
          else t.fmtCode == 0x30 || t.fmtCode == 0x31)
      || (t.sen && !(t.sfmt == 0x0D || t.sfmt == 0x11 || t.sfmt == 0x12)))

/-! ### Views, walks and packing -/

/-- The view's element width in bits. -/
def View.w (v : View) : Nat := v.t.fmt.width

/-- The first byte of line `i`: a row when row-major, a column when column-major (R43). -/
def View.line (v : View) (i : Nat) : Int := (v.t.base : Int) + v.off + (i : Int) * v.t.rowStride

/-- The bit address of element (i, c) (R43, R65): line bit j is bit j mod 8 of byte j div 8. -/
def View.bitAt (v : View) (i c : Nat) : Int :=
  if v.t.layout == 1 then 8 * v.line c + (i * v.w : Nat) else 8 * v.line i + (c * v.w : Nat)

/-- The bytes of a line of `n` elements (R65). -/
def lineBytes (n w : Nat) : Nat := ceilDiv (n * w) 8

/-- The lines of the view and the elements each holds. -/
def View.lines (v : View) : Nat × Nat := if v.t.layout == 1 then (v.t.cols, v.t.rows) else (v.t.rows, v.t.cols)

/-- Does a run of `n` bytes at `a` leave the store (R43)? MEM walks go through translation instead. -/
def View.outside (v : View) (a : Int) (n : Nat) : Bool :=
  v.t.kind != 3 && (a < 0 || (v.t.space.size : Int) < a + n)

/-- Does the whole walk stay within the store? The first and the last line decide, since lines lie at a fixed
distance. -/
def View.walkBad (v : View) : Bool :=
  let (n, m) := v.lines
  v.outside (v.line 0) (lineBytes m v.w) || v.outside (v.line (n - 1)) (lineBytes m v.w)

/-- The byte address of pop `n` of the furrow (R44). -/
def View.pop (v : View) (n : Nat) : Int :=
  let c (k : Nat) : Nat := max (v.t.cnt k) 1
  let q := n % (c 0 * c 1 * c 2 * c 3)
  (v.t.base : Int) + v.off + (q % c 0 : Nat) * v.t.str 0 + (q / c 0 % c 1 : Nat) * v.t.str 1
    + (q / (c 0 * c 1) % c 2 : Nat) * v.t.str 2 + (q / (c 0 * c 1 * c 2) % c 3 : Nat) * v.t.str 3

/-- The translation of a 64 KiB page of a MEM walk (R79 to R81): the walk's, and an older one that is still held. Each
access uses one of the two: `at_` is the first of the free choices between them (R83, log entry 2). -/
structure PageRes where
  cur : Except Code Nat
  old : Option (Except Code Nat)
  at_ : Nat

/-- The pages of a MEM walk by number, with their translations. -/
abbrev PageMap := List (Nat × PageRes)

/-- The translation that the access to an element's container at byte `off` of the page uses. -/
def PageRes.pick (r : PageRes) (off : Nat) : Except Code Nat :=
  match r.old with
  | none => r.cur
  | some o => if Config.freeChoice (r.at_ + off / 4) then o else r.cur

/-- Wrap an address of a MEM walk to 64 bits. -/
def wrapVa (a : Int) : Nat := wrapTo 64 a

/-- The state as a command's sources are read, with the translations of its MEM walks. -/
structure Env where
  s : State
  pages : PageMap

/-- The physical address of a virtual one, or the fault of its page. -/
def PageMap.find (p : PageMap) (va : Nat) : Except Code Nat :=
  match List.find? (fun e => e.1 == va / 2 ^ 16) p with
  | some (_, r) => (r.pick (va % 2 ^ 16)).map (· + va % 2 ^ 16)
  | none => .error .notPresent

/-- One byte of a view's store. -/
def Env.byte (env : Env) (t : Entry) (a : Int) : Byte :=
  if t.kind == 3 then
    match env.pages.find (wrapVa a) with
    | .ok pa => env.s.rdByte .mem pa
    | .error _ => 0
  else env.s.rdByte t.space a.toNat

/-- `n` bytes as a little-endian number. -/
def Env.bytes (env : Env) (t : Entry) (a : Int) : Nat → Nat
  | 0 => 0
  | n + 1 => (env.byte t a).toNat + 256 * env.bytes t (a + 1) n

/-- The code of `w` bits at a bit address (R65). -/
def Env.codeAt (env : Env) (t : Entry) (bit : Int) (w : Nat) : Nat :=
  let sh := (bit % 8).toNat
  env.bytes t (bit / 8) (ceilDiv (sh + w) 8) / 2 ^ sh % 2 ^ w

/-- The code of element (i, c). -/
def Env.code (env : Env) (v : View) (i c : Nat) : Nat := env.codeAt v.t (v.bitAt i c) v.w

/-- The byte writes of `n` bytes from a masked number. -/
def maskWrites (dest : Int → Space × Nat) (a : Int) : Nat → Nat → Nat → List BWrite
  | 0, _, _ => []
  | n + 1, mask, v =>
    ⟨(dest a).1, (dest a).2, BitVec.ofNat 8 mask, BitVec.ofNat 8 v⟩ :: maskWrites dest (a + 1) n (mask / 256) (v / 256)

/-- Where a byte of a written view lies. -/
def Env.dest (env : Env) (t : Entry) (a : Int) : Space × Nat :=
  if t.kind == 3 then
    match env.pages.find (wrapVa a) with
    | .ok pa => (.mem, pa)
    | .error _ => (.mem, 0)
  else (t.space, a.toNat)

/-- The writes of a code of `w` bits at a bit address: only its own bits change (R65). -/
def Env.put (env : Env) (t : Entry) (bit : Int) (w code : Nat) : List BWrite :=
  let sh := (bit % 8).toNat
  maskWrites (env.dest t) (bit / 8) (ceilDiv (sh + w) 8) ((2 ^ w - 1) * 2 ^ sh) (code % 2 ^ w * 2 ^ sh)

/-- The writes of element (i, c). -/
def Env.putAt (env : Env) (v : View) (i c code : Nat) : List BWrite := env.put v.t (v.bitAt i c) v.w code

/-! ### Block scales (R72) -/

/-- The scale that element (i, c) uses: its place in the scale entry. -/
def Entry.scaleAt (t : Entry) (i c : Nat) : Nat × Nat :=
  match t.saxis with
  | 0 => (i, c / 2 ^ t.slog2)
  | 1 => (i / 2 ^ t.slog2, c)
  | _ => (0, 0)

/-- The scale entry is too small for the data entry. -/
def scaleShort (t sc : Entry) : Bool :=
  match t.saxis with
  | 0 => sc.rows < t.rows || sc.cols < ceilDiv t.cols (2 ^ t.slog2)
  | 1 => sc.rows < ceilDiv t.rows (2 ^ t.slog2) || sc.cols < t.cols
  | _ => false

/-- The code of the scale of element (i, c) in the scale entry, whose own scales are not applied (log entry 88). -/
def Env.scaleCode (env : Env) (v : View) (sc : Entry) (i c : Nat) : Nat :=
  env.code ⟨sc, 0⟩ (v.t.scaleAt i c).1 (v.t.scaleAt i c).2

/-- The value of a code of the view at (i, c) times its scale, exactly (R72). Where both are NaN, which NaN it is is free
(log entry 69). -/
def Env.scaled (env : Env) (v : View) (sc : Entry) (i c code : Nat) : Num :=
  let x := decodeNum v.t.fmt code
  if v.t.sen then
    match x, decodeNum sc.fmt (env.scaleCode v sc i c) with
    | .nan b, .nan b' => .nan (if Config.freeNan b b' then b else b')
    | _, .nan b => .nan b
    | x, y => x.mul y
  else x

/-- The value of element (i, c). -/
def Env.value (env : Env) (v : View) (sc : Entry) (i c : Nat) : Num := env.scaled v sc i c (env.code v i c)

/-! ### Patterns (R47 to R49) -/

/-- The semirings (R199). -/
inductive Semi where
  | sum | max | or | xor
  deriving DecidableEq, Repr

/-- SEMI of an MMA (R199). -/
def Semi.of (b : BitVec 2) : Semi :=
  match b.toNat with | 0 => .sum | 1 => .max | 2 => .or | _ => .xor

def patKind (w : Word) : Nat := ef w 60 4
def patRows (w : Word) : Nat := ef w 50 10 + 1
def patCols (w : Word) : Nat := ef w 40 10 + 1
def patSeg (w : Word) : Nat := ef w 30 10 + 1
def patDist (w : Word) : Int := sgn 10 (ef w 20 10)
def patBand (w : Word) : Nat := ef w 10 10
def patPow (w : Word) : Nat := ef w 5 5
def patNeg (w : Word) : Bool := bitOf w.toNat 4

/-- Is `n` a power of two? -/
def isPow2 (n : Nat) : Bool := n != 0 && 2 ^ Nat.log2 n == n

/-- The pattern raises PATTERN in the semiring (R49). R48 does not say whether POW and NEG are fields that a ZERO pattern, which has
no entry to which they could apply, uses: the model accepts them there in SUM (DESIGN CHOICE, log entry 112). -/
def patBad (sem : Semi) (w : Word) : Bool :=
  let k := patKind w
  11 < k || ef w 0 4 != 0
    || (patDist w != 0 && !(k == 7 || k == 9 || k == 10))
    || (patBand w != 0 && k != 10)
    || (k == 9 && (!isPow2 (patSeg w) || patDist w < 1 || !isPow2 (patDist w).toNat || (patSeg w : Int) < patDist w))
    || (k == 11 && (match sem with
        | .sum => !(patSeg w == 16 || patSeg w == 32 || patSeg w == 64 || patSeg w == 128)
        | .max => true
        | _ => !isPow2 (patSeg w) || patSeg w < 16))
    || (sem != .sum && (patPow w != 0 || patNeg w))

/-- Parity of popcount(a AND b). -/
def hadamard (a b : Nat) : Bool := go 10 (a &&& b) false
where
  /-- Parity of the `n` low bits. -/
  go : Nat → Nat → Bool → Bool
    | 0, _, acc => acc
    | n + 1, x, acc => go n (x / 2) (acc != (x % 2 == 1))

/-- Entry (k, j) of a pattern in a semiring: none where it is absent (R48). -/
def patAt (sem : Semi) (w : Word) (k j : Nat) : Option Num :=
  let seg := patSeg w
  let k' := k % seg
  let j' := j % seg
  let dist := patDist w
  let here : Bool :=
    match patKind w with
    | 0 => false
    | 1 => true
    | 2 => k' ≤ j'
    | 3 => j' ≤ k'
    | 4 => k' < j'
    | 5 => j' < k'
    | 6 => k' == j'
    | 7 => (j' : Int) == ((k' : Int) + dist) % (seg : Int)
    | 8 => j' == seg - 1 - k'
    | 9 => j' == k' % dist.toNat * (seg / dist.toNat) + k' / dist.toNat
    | 10 => dist ≤ (j' : Int) - k' && (j' : Int) - k' ≤ dist + patBand w
    | _ => sem == .sum || hadamard k' j'
  if k < patRows w && j < patCols w && k / seg == j / seg && here then
    match sem with
    | .sum => some (.fin (patNeg w != (patKind w == 11 && hadamard k' j')) (2 ^ patPow w) 1)
    | .max => some (.fin false 0 1)
    | _ => some (.fin false 1 1)
  else none

/-- A present generated entry has the value of POW = 0 and NEG = 0 (R52). -/
def genOne (sem : Semi) : Num := match sem with | .max => .fin false 0 1 | _ => .fin false 1 1

/-! ### Generators (R50 to R52) -/

/-- The place of element `n` of an entry's data, counted row by row, which the spec does not say (log entry 81). -/
def Entry.nth (t : Entry) (n : Nat) : Nat × Nat := (n / t.cols, n % t.cols)

/-- Does `key_j` order before `key_i` for RANKCMP: greater, or equal with the lower index; NaNs last (R51)? `asc` turns
the comparison of numbers round (R208). -/
def rankBefore (asc : Bool) (x y : Num) (i j : Nat) : Bool :=
  -- x = key_i, y = key_j
  match x.isNan, y.isNan with
  | true, true => j < i
  | true, false => true
  | false, true => false
  | false, false => (if asc then y.lt x else x.lt y) || (x.eq y && j < i)

/-- Element (r, c) of an index list as an integer (R232, R264), scaled where its entry has scales (R72): a product that is
no integer gives a free one (log entry 67). -/
def Env.index (env : Env) (v : View) (sc : Entry) (r c : Nat) : Int :=
  ((env.value v sc r c).whole).getD (Config.freeIndex (env.code v r c) (env.scaleCode v sc r c))

/-- The column of row `i` of a ONEHOT generator over its source list, if it is in range (R50). -/
def oneHotCol (env : Env) (g src sc : Entry) (i : Nat) : Option Nat :=
  let (r, c) := src.nth i
  let idx := env.index ⟨src, 0⟩ sc r c
  let col := idx - ei g.w1 32
  if 0 ≤ col && col < (g.cols : Int) then some col.toNat else none

/-- Entry (i, j) of a generator: is it present? -/
def genAt (env : Env) (g src sc : Entry) (i j : Nat) : Bool :=
  if ef g.w1 8 4 == 0 then i < g.rows && oneHotCol env g src sc i == some j
  else
    i < g.rows && j < g.cols
      && (let (ri, ci) := src.nth i
          let (rj, cj) := src.nth j
          rankBefore false (env.value ⟨src, 0⟩ sc ri ci) (env.value ⟨src, 0⟩ sc rj cj) i j)

/-! ### Lane modifier (R46) -/

/-- The input lane of output lane `i`. -/
def laneFrom (lm i : Nat) : Nat :=
  let seg := 2 ^ fld lm 7 3
  let dist := fld lm 0 7
  let b := i - i % seg
  match fld lm 10 2 with
  | 0 => i
  | 1 => b + (i - b + dist) % seg
  | 2 => i ^^^ dist
  | _ => b + dist

/-- The source position of position `k` of a vector whose lanes carry groups of `g` positions. -/
def laneSource (lm g k : Nat) : Nat := laneFrom lm (k / g) * g + k % g

end Sys2Proof.Machine
end

