-- ==== Sys2Proof/Machine/Updates.lean ====
section
/-! DEFINITION. Updates of single locations, each a read-modify-write (R94): those of the sluice with its windows and the
counting memory (R264 to R268, R277 to R284), the drain's fold (R221), and the requests that carry them to another core or to
memory (R248 to R251, R284). -/

namespace Sys2Proof.Machine

/-- An entry that stands for a slot that a command does not have. -/
def View.none_ : View := ⟨⟨0, 0, 0, 0, 0, 0, 0, 0⟩, 0⟩

/-- The uncorrectable error that a read of `n` bytes of an entry's store from `a` meets, with the first failing byte: a
virtual or window address, or for the weight buffer its line (R306, R308). -/
def Env.badRun (env : Env) (t : Entry) (a : Int) (n : Nat) : Option Trap :=
  if env.s.sound then none
  else
    (List.range n).findSome? fun k =>
      let p := env.dest t (a + k)
      if (env.s.badIn p.1 p.2 1).isNone then none
      else
        some (match p.1 with
          | .wbuf => { code := .uncorrectable, elem := some (p.2 / 256) }
          | .mem => { code := .uncorrectable, addr := some (wrapVa (a + k)) }
          | sp => { code := .uncorrectable, addr := sp.window p.2 })

/-! ### One update (R265) -/

/-- The entry of R265's table for SOP: what an update makes of `old` and `v`, as codes of the format. -/
def sluCombine (F : Fmt) (sop old v : Nat) : Nat :=
  match sop with
  | 6 => v
  | 3 => old ||| v
  | 4 => old &&& v
  | 5 => old ^^^ v
  | _ =>
    match F with
    | .flt .. => match sop with | 0 => faddN old v | 1 => fmaxN old v | _ => fminN old v
    | .int w signed =>
      let val (x : Nat) : Int := if signed then sgn w x else (x % 2 ^ w : Nat)
      match sop with
      | 0 => (old + v) % 2 ^ w
      | 1 => if val old < val v then v else old
      | _ => if val v < val old then v else old
    | _ => v

/-- The combinations that R265's table allows. -/
def sopAllowed (fmt sop : Nat) : Bool :=
  match fmt with
  | 0x02 => true
  | 0x03 => true
  | 0x04 => true
  | 0x05 => true
  | 0x21 => true
  | 0x12 => sop ≤ 2 || sop == 6
  | 0x20 => 3 ≤ sop
  | _ => false

/-- The code at element `e` of a target (R264). -/
def State.sluGet (s : State) (v : View) (e : Nat) : Nat := (Env.mk s []).code v (e / v.t.cols) (e % v.t.cols)

/-- Write the code of element `e` of a target: only its bits change (R65, R268). -/
def State.sluPut (s : State) (v : View) (e code : Nat) : State :=
  s.wrBytes ((Env.mk s []).putAt v (e / v.t.cols) (e % v.t.cols) code)

/-- A sluice command of `n` elements with its index list, before any of them has performed. -/
def SluOp.start (kind : SluKind) (idx : List Int) (tgt res : View) (n : Nat) : SluOp :=
  { kind, idx, vals := [], news := [], tgt, res, first := 0, last := n, done := [], olds := [], rise := [], late := [] }

/-- Is the index in range (R264)? -/
def SluOp.ok (op : SluOp) (x : Int) : Bool := 0 ≤ x && x < ((op.tgt.t.rows * op.tgt.t.cols : Nat) : Int)

/-- Element `e` of a target cannot be read (R308): its address for the record. -/
def State.sluBad (s : State) (v : View) (e : Nat) : Option Trap :=
  let b := v.bitAt (e / v.t.cols) (e % v.t.cols)
  (Env.mk s []).badRun v.t (b / 8) (ceilDiv ((b % 8).toNat + v.w) 8)

/-! ### Windows (R267) -/

/-- Add element (e, v) to the groups of a window, in order of first elements. -/
def addGroup (comb : Nat → Nat → Nat) (e v : Nat) : List (Nat × Nat) → List (Nat × Nat)
  | [] => [(e, v)]
  | (x, g) :: t => if x = e then (x, comb g v) :: t else (x, g) :: addGroup comb e v t

/-- The target element that element `i` of a command is for: none where it is skipped. -/
def SluOp.aim (op : SluOp) (i : Nat) : Option Nat :=
  match op.kind with
  | .cmerge => some i
  | .cread => some i
  | _ => let x := op.idx.getD i (-1); if op.ok x then some x.toNat else none

/-- The target element on which element `i` is still to perform. -/
def SluOp.at_ (op : SluOp) (i : Nat) : Option Nat := if op.done.contains i then none else op.aim i

/-- The groups of elements `lo` to `hi` − 1. -/
def SluOp.groups (op : SluOp) (comb : Nat → Nat → Nat) (lo hi : Nat) : List (Nat × Nat) :=
  (List.range (hi - lo)).foldl (fun gs k =>
    match op.at_ (lo + k) with
    | some e => addGroup comb e (op.vals.getD (lo + k) 0) gs
    | none => gs) []

/-- How far a command came: the state, the old values with their places, and where it stopped. -/
structure SluRun where
  s : State
  olds : List (Nat × Nat)
  stop : Option Trap

/-- Perform windows from element `lo` to `hi`: the first that meets an unreadable target stops the command there. -/
def SluOp.windows (op : SluOp) (sop : Nat) : Nat → Nat → SluRun → SluRun
  | 0, _, r => r
  | fuel + 1, lo, r =>
    if op.last ≤ lo then r
    else
      let comb := sluCombine op.tgt.t.fmt sop
      let gs := op.groups comb lo (min (lo + 64) op.last)
      match gs.findSome? fun g => r.s.sluBad op.tgt g.1 with
      | some tr => { r with stop := some { tr with elem := some lo } }
      | none =>
        op.windows sop fuel (lo + 64)
          { r with s := gs.foldl (fun s g => s.sluPut op.tgt g.1 (comb (s.sluGet op.tgt g.1) g.2)) r.s }

/-! ### Element by element (R274 to R276, R280 to R282) -/

/-- The greatest level (R277). -/
def lmax (t : Entry) : Nat := if t.lw8 then 255 else 15

/-- The estimate of a level (R278). -/
def estimate (k l : Nat) : Nat := (2 ^ (k * l) - 1) / (2 ^ k - 1)

/-- A draw of the sluice generator (R279). -/
def State.sluDraw (s : State) : Nat × State :=
  let g := draw32 s.task.sluGen
  (clz32 g, s.withTask { s.task with sluGen := g })

/-- One counter's increment (R280). -/
def State.countUp (s : State) (v : View) (e : Nat) : State :=
  let l := s.sluGet v e
  let k := v.t.kExp
  if l == lmax v.t then s
  else if l == 0 then s.sluPut v e 1
  else if 32 ≤ k * l then s
  else
    let (z, s) := s.sluDraw
    if k * l ≤ z then s.sluPut v e (l + 1) else s

/-- The trials of one counter's merge (R281): `n` are left, the next is number `j`. -/
def mergeTrials (k lim : Nat) : Nat → Nat → Nat → State → Nat × State
  | 0, _, z, s => (z, s)
  | n + 1, j, z, s =>
    let t := k * (z + 1 - j)
    if z == lim || 32 ≤ t then mergeTrials k lim n (j + 1) z s
    else
      let (c, s) := s.sluDraw
      mergeTrials k lim n (j + 1) (if t ≤ c then z + 1 else z) s

/-- Merge level `y` into counter `e` (R281). -/
def State.mergeInto (s : State) (v : View) (e y : Nat) : State :=
  let x := s.sluGet v e
  let (z, s) := mergeTrials v.t.kExp (lmax v.t) (min x y) 1 (max x y) s
  if z = x then s else s.sluPut v e z

/-- Raise counter `e` by the levels that draws taken before have given it; never past the greatest (log entry 73). -/
def State.raise (s : State) (v : View) (e d : Nat) : State :=
  if d = 0 then s else s.sluPut v e (min (s.sluGet v e + d) (lmax v.t))

/-- By how many levels the draws of element `i` raise its counter, where they have been taken. -/
def SluOp.raised (op : SluOp) (i : Nat) : Option Nat := (op.rise.find? fun r => r.1 == i).map (·.2)

/-- The view and the element whose value element `i` takes over as it stood at issue: CMERGE's source, CREAD's counter. Every
other access reads when it performs (R34, R268, R281). -/
def SluOp.early (op : SluOp) (i : Nat) : Option (View × Nat) :=
  match op.kind with
  | .cmerge => some (op.res, i)
  | .cread => some (op.tgt, i)
  | _ => none

/-- The value of element `i` was taken over at issue. -/
def SluOp.holds (op : SluOp) (i : Nat) : Bool := decide (i < op.vals.length) && !op.late.contains i

/-- The value that was taken over at issue; one that could not be read then is read now (R269, R284). -/
def SluOp.taken (op : SluOp) (i : Nat) (s : State) : Nat :=
  if op.holds i then op.vals.getD i 0 else (op.early i).elim 0 fun x => s.sluGet x.1 x.2

/-- Perform element `i` on target element `e`: the state and the old value, if the command returns one. -/
def SluOp.element (op : SluOp) (i e : Nat) (s : State) : State × Option Nat :=
  match op.kind with
  | .sfetch sop =>
    let old := s.sluGet op.tgt e
    (s.sluPut op.tgt e (sluCombine op.tgt.t.fmt sop old (op.taken i s)), some old)
  | .scas =>
    let old := s.sluGet op.tgt e
    (if old = op.taken i s then s.sluPut op.tgt e (op.news.getD i 0) else s, some old)
  | .btest true => (s.sluPut op.tgt e 1, some (s.sluGet op.tgt e))
  | .btest false => (s, some (s.sluGet op.tgt e))
  | .cinc => ((op.raised i).elim (s.countUp op.tgt e) (s.raise op.tgt e), none)
  | .cmerge => ((op.raised i).elim (s.mergeInto op.tgt e (op.taken i s)) (s.raise op.tgt e), none)
  | .cread => (s, some (op.taken i s))
  | _ => (s, none)

/-- What element `i`, on target element `e`, still has to read and cannot (R308). -/
def SluOp.unreadable (op : SluOp) (i e : Nat) (s : State) : Option Trap :=
  let src := if op.holds i then none else (op.early i).bind fun x => s.sluBad x.1 x.2
  match op.kind with
  | .cread => src
  | _ => src.or (s.sluBad op.tgt e)

/-- Perform `n` elements from number `i` on. -/
def SluOp.elements (op : SluOp) : Nat → Nat → SluRun → SluRun
  | 0, _, r => r
  | n + 1, i, r =>
    match op.at_ i with
    | none => op.elements n (i + 1) r
    | some e =>
      match op.unreadable i e r.s with
      | some tr => { r with stop := some { tr with elem := some i } }
      | none =>
        let (s, old) := op.element i e r.s
        op.elements n (i + 1) { r with s, olds := match old with | some o => (i, o) :: r.olds | none => r.olds }

/-- Perform a command's elements: windows for SACC, BSET and BCLR, one by one otherwise (R267). -/
def SluOp.perform (op : SluOp) (s : State) : SluRun :=
  let r : SluRun := ⟨s, [], none⟩
  match op.kind with
  | .sacc sop => op.windows sop (op.last - op.first) op.first r
  | .bset => op.windows 6 (op.last - op.first) op.first r
  | .bclr => op.windows 6 (op.last - op.first) op.first r
  | _ => op.elements (op.last - op.first) op.first r

/-- Write what a command returns: old values verbatim, or CREAD's estimates converted, and divided by the scales that `news`
holds where slot c has them (R72, R274, R282; log entry 67); no other target is scaled (log entry 82). -/
def SluOp.deliver (op : SluOp) (olds : List (Nat × Nat)) (s : State) : State :=
  match op.kind with
  | .cread =>
    let F := op.res.t.fmt
    olds.reverse.foldl (fun s p =>
      let x := Num.fin false (estimate op.tgt.t.kExp p.2) 1
      let x := match op.news[p.1]? with
        | some c => x.unscale (decodeNum ((fmtOf op.res.t.sfmt 0).getD fp32) c)
        | none => x
      let r := convert F false op.res.t.sat x 1
      let s := s.sluPut op.res p.1 r.code
      let g := s.eng .sluice
      s.setEng .sluice { g with nan := g.nan || r.nan, sat := g.sat || r.sat }) s
  | _ =>
    olds.reverse.foldl (fun s p => s.wrBytes ((Env.mk s []).putAt op.res 0 p.1 p.2)) s

/-- The landing of a local command from element `first` on: the state, and the fault with the command from its stop on. All old
values are written after the last update, so that a slot b that overlaps the command's own target is not read as the command
goes on (DESIGN CHOICE, log entry 117). A seed that a later SSEED has left is stored after the command's own draws (R283). -/
def SluOp.land (op : SluOp) (seed : Option (BitVec 32)) (s : State) : State × Option (Trap × SluOp) :=
  let r := op.perform s
  let s := op.deliver (r.olds ++ op.olds) r.s
  match r.stop with
  | some tr => (s, some (tr, { op with first := tr.elem.getD 0, olds := [], rise := [] }))
  | none =>
    (match seed with
      | some x => s.withTask { s.task with sluGen := x }
      | none => s, none)

/-! ### Updates that a read finds performed (R23, R157, R268) -/

/-- The elements of a command. -/
def SluOp.elems (op : SluOp) : List Nat := (List.range (op.last - op.first)).map (· + op.first)

/-- The command reads its targets when it performs: all but CREAD, which has read its counters at issue (R268, R282). -/
def SluOp.accesses (op : SluOp) : Bool := match op.kind with | .cread => false | _ => true

/-- The command updates its targets. -/
def SluOp.updates (op : SluOp) : Bool := match op.kind with | .btest false => false | .cread => false | _ => true

/-- The command writes values to a slot (R274 to R276, R282). -/
def SluOp.returns (op : SluOp) : Bool :=
  match op.kind with | .sfetch _ => true | .scas => true | .btest _ => true | .cread => true | _ => false

/-- The command draws (R280, R281). -/
def SluOp.draws (op : SluOp) : Bool := match op.kind with | .cinc => true | .cmerge => true | _ => false

/-- The bytes of element `e` of a view in a store of the task. -/
def View.span (v : View) (e : Nat) : List (Space × Nat) :=
  let b := v.bitAt (e / v.t.cols) (e % v.t.cols)
  (List.range (ceilDiv ((b % 8).toNat + v.w) 8)).map fun k => (v.t.space, (b / 8).toNat + k)

/-- The places that the command is still to write: its targets, and the elements of slot b that take values. -/
def SluOp.places (op : SluOp) : List (Space × Nat) :=
  (if op.updates then op.elems.flatMap fun i => (op.at_ i).elim [] op.tgt.span else [])
    ++ if op.returns then
        op.elems.flatMap (fun i => (op.at_ i).elim [] fun _ => op.res.span i) ++ op.olds.flatMap fun o => op.res.span o.1
      else []

/-- Does element `i` perform where the places `p` are found new? One that reads its target there does, and one whose value, or
that of a later element of the same target, is found in slot b (log entry 73). -/
def SluOp.shown (op : SluOp) (p : Space → Nat → Bool) (i : Nat) : Bool :=
  match op.at_ i with
  | none => false
  | some e =>
    let at_ (x : Space × Nat) : Bool := p x.1 x.2
    (op.accesses && (op.tgt.span e).any at_)
      || (op.returns && op.elems.any fun j => decide (i ≤ j) && op.at_ j == some e && (op.res.span j).any at_)

/-- The bytes of the targets on which elements perform at the places `p`. -/
def SluOp.targetsAt (op : SluOp) (p : Space → Nat → Bool) : List (Space × Nat) :=
  (op.elems.filter (op.shown p)).flatMap fun i => (op.at_ i).elim [] op.tgt.span

/-- Where earlier commands perform first when this one performs at the places `p`: there, and on the targets of the elements that
perform (R269). -/
def SluOp.reach (op : SluOp) (p : Space → Nat → Bool) (sp : Space) (a : Nat) : Bool := p sp a || (op.targetsAt p).contains (sp, a)

/-- Elements that draw perform at the places `p`. -/
def SluOp.drawsAt (op : SluOp) (p : Space → Nat → Bool) : Bool := op.draws && op.elems.any (op.shown p)

/-- Perform the part of a command that a read finds at the places `p`, up to where the command would stop: the state, and the
command with what is left of it. -/
def SluOp.performAt (op : SluOp) (p : Space → Nat → Bool) (s : State) : State × SluOp :=
  let stop := (((op.perform s).stop).bind (·.elem)).getD op.last
  let now := op.elems.filter fun i => decide (i < stop) && op.shown p i
  let r := { op with last := stop, done := op.done ++ op.elems.filter fun i => !now.contains i }.perform s
  let found (o : Nat × Nat) : Bool := (op.res.span o.1).any fun x => p x.1 x.2
  let olds := r.olds ++ op.olds
  (op.deliver (olds.filter found) r.s,
    { op with done := op.done ++ now, olds := olds.filter fun o => !found o })

/-- The draws of `n` elements from number `i` on, in their order: by how many levels each counter rises, and the state after
them. -/
def SluOp.rises (op : SluOp) : Nat → Nat → State → List (Nat × Nat) × State
  | 0, _, s => ([], s)
  | n + 1, i, s =>
    match op.at_ i with
    | none => op.rises n (i + 1) s
    | some e =>
      if (op.unreadable i e s).isSome then ([], s)
      else
        let u := (op.element i e s).1
        let (l, v) := op.rises n (i + 1) u
        ((i, u.sluGet op.tgt e - s.sluGet op.tgt e) :: l, v)

/-- A command that has taken its draws, up to an element that it cannot read, and the generator after them; those that it has taken
before stay as they are. -/
def SluOp.drawn (op : SluOp) (s : State) : SluOp × BitVec 32 :=
  if op.draws then
    let (l, u) := op.rises (op.last - op.first) op.first s
    ({ op with rise := op.rise ++ l.filter fun r => (op.raised r.1).isNone }, u.task.sluGen)
  else (op, s.task.sluGen)

/-- An element of the command is still to read what cannot be read (R308). -/
def SluOp.blocked (op : SluOp) (s : State) : Bool :=
  !s.sound && op.elems.any fun i => (op.at_ i).any fun e => (op.unreadable i e s).isSome

/-! ### The fold (R221) -/

/-- A fold (R221): the word becomes `v` if it orders before it by R187, −0 below +0; a NaN word stays. -/
def foldWord (old v : Nat) : Nat :=
  let x := f32 old
  let y := f32 v
  if x.isNan then old else if x.lt y || (x.isZero && y.isZero && x.neg && !y.neg) then v else old

/-- Perform a fold. -/
def State.doFold (s : State) (f : FoldOp) : State := s.wrNat f.sp f.at_ 4 (foldWord (s.rdNat f.sp f.at_ 4) f.val)

/-! ### Tagged requests (R249 to R251, R284, R223) -/

/-- Requests that the engine keeps in flight: up to 32 unconfirmed ones (R250). A stopped command has none in flight. -/
def Eng.window (g : Eng) : List Req :=
  (g.reqs.filter fun r => !r.confirmed && g.stopped.all fun f => f.seq != r.seq).take 32

/-- What a reduction makes of a target element (R248). -/
def reduceCode (fmt rop old v : Nat) : Nat :=
  match fmt with
  | 0x20 => match rop with | 0 => old ^^^ v | 1 => old ||| v | _ => old &&& v
  | 0x12 => sluCombine fp32 rop old v
  | _ => sluCombine (.int 32 true) rop old v

/-- The bits of a target element. -/
def State.redGet (s : State) (sp : Space) (x : RedElem) : Nat :=
  leNat (x.at_.map (s.rdByte sp)) / 2 ^ x.bit % 2 ^ x.width

/-- Write the bits of a target element and no others (R65). -/
def State.redPut (s : State) (sp : Space) (x : RedElem) (v : Nat) : State :=
  s.wrBytes (maskWrites (fun k => (sp, x.at_.getD k.toNat 0)) 0 x.at_.length ((2 ^ x.width - 1) * 2 ^ x.bit)
    (v % 2 ^ x.width * 2 ^ x.bit))

/-- The virtual or window address of byte number `k` of element `e` of a request's target view, which stands at byte `b` of its
store (R306). -/
def Req.address (r : Req) (v : View) (e k b : Nat) : Option Nat :=
  match r.tgt with
  | .mem => some (wrapVa (v.bitAt (e / v.t.cols) (e % v.t.cols) / 8 + k))
  | sp => sp.window b

/-- The view of slot c of a flume command's flight. -/
def Flight.target (f : Flight) : View := match f.op with | .flu op _ => op.c | _ => View.none_

/-- The uncorrectable error that a request of the command `f` meets at its target (R308), which refuses the whole request (log
entry 103). -/
def State.reqBad (s : State) (f : Flight) (r : Req) : Option Trap :=
  match r.op with
  | .putr _ _ es =>
    ((numbered r.elem es).filter fun p => !p.2.done).findSome? fun p =>
      (numbered 0 p.2.at_).findSome? fun b =>
        (s.badIn r.tgt b.2 1).map fun _ =>
          { code := .uncorrectable, addr := r.address f.target p.1 b.1 b.2, elem := some r.elem }
  | .slu op => (op.perform s).stop.map fun tr => { tr with elem := some r.elem }
  | .fold o => (s.badIn o.sp o.at_ 4).map fun b => { code := .uncorrectable, addr := o.sp.window b }

/-- Perform one element of a reduction. -/
def State.reduce (s : State) (sp : Space) (rop fmt : Nat) (x : RedElem) : State :=
  if x.done then s else s.redPut sp x (reduceCode fmt rop (s.redGet sp x) x.val)

/-- Apply a request at its target: each element one read-modify-write (R249, R268, R221); the old values. -/
def State.applyReq (s : State) (r : Req) : State × List (Nat × Nat) :=
  match r.op with
  | .putr rop fmt es => (es.foldl (fun s x => s.reduce r.tgt rop fmt x) s, [])
  | .slu op => let x := op.perform s; (x.s, x.olds ++ op.olds)
  | .fold o => (s.doFold o, [])

/-- Perform the part of a request that a read finds at the places `p` of its target: the state, and what is left of it. -/
def State.applyAt (s : State) (r : Req) (p : Space → Nat → Bool) : State × ReqOp :=
  match r.op with
  | .putr rop fmt es =>
    let now (x : RedElem) : Bool := x.at_.any (p r.tgt)
    ((es.filter now).foldl (fun s x => s.reduce r.tgt rop fmt x) s,
      .putr rop fmt (es.map fun x => if now x then { x with done := true } else x))
  | .slu op => let x := op.performAt (fun sp a => sp == r.tgt && p sp a) s; (x.1, .slu x.2)
  | .fold o => (s, .fold o)

/-- The places that a request is still to write at its target, where a read finds them with the request; a fold's word it finds
with the fold's command. -/
def Req.places (r : Req) : List (Space × Nat) :=
  match r.op with
  | .putr _ _ es => (es.filter fun x => !x.done).flatMap fun x => x.at_.map fun a => (r.tgt, a)
  | .slu op => op.places.filter fun x => x.1 == r.tgt
  | .fold _ => []

/-- The bytes of a fold's word. -/
def FoldOp.bytes (o : FoldOp) : List (Space × Nat) := (List.range 4).map fun k => (o.sp, o.at_ + k)

/-- The bytes that a request is still to write, a fold's word among them. -/
def Req.bytes (r : Req) : List (Space × Nat) := match r.op with | .fold o => o.bytes | _ => r.places

/-- Some of the request has performed at its target. -/
def Req.begun (r : Req) : Bool :=
  r.applied || match r.op with
    | .putr _ _ es => es.any (·.done)
    | .slu op => !op.done.isEmpty
    | .fold _ => false

/-- Is the request's target resident (R75)? -/
def State.reqReaches (s : State) (r : Req) : Bool := match r.tgt with | .far n => s.reachable n | _ => true

/-- 8 ms and 16 ms in cycles of the 1.75 GHz clock (R75, R250). -/
def cycles8ms : Nat := 14000000
def cycles16ms : Nat := 28000000

/-- Has the target applied this tag within the last 16 ms (R250)? -/
def State.tagApplied (s : State) (e : EngId) (tag : BitVec 32) : Bool :=
  s.tagsSeen.any fun t => t.lid == s.task.lid && t.lcn == s.task.lcn && t.eng == e && t.tag == tag
    && s.now ≤ t.at_ + cycles16ms

end Sys2Proof.Machine
end

