-- ==== Sys2Proof/Machine/InFlight.lean ====
section
/-! DEFINITION. Effects in flight as a read finds them: old or new by granules and containers (R23, R88, R157), in the order
that the engines keep among their own commands (R190, R205, R269). -/

namespace Sys2Proof.Machine

/-! ### Effects in flight (R23, R88, R157, R190, R205) -/

/-- The bits of a byte write that a later-issued write does not cover. -/
def BWrite.under (w : BWrite) (later : List BWrite) : Option BWrite :=
  let m := later.foldl (fun (m : Byte) l => if l.sp == w.sp && l.at_ == w.at_ then m &&& ~~~l.mask else m) w.mask
  if m = 0 then none else some { w with mask := m }

/-- Keep one of each run of equal neighbours. -/
def dedupAdj {α : Type} [BEq α] : List α → List α
  | [] => []
  | [x] => [x]
  | x :: y :: t => if x == y then dedupAdj (y :: t) else x :: dedupAdj (y :: t)

/-- The weight buffer's line range without the lines that a fill of the bytes `lo` to `hi` − 1 touches. -/
def linesOutside (lo hi : Nat) (r : Nat × Nat) : List (Nat × Nat) :=
  [(r.1, min r.2 (lo / 256)), (max r.1 ((hi + 255) / 256), r.2)].filter fun x => x.1 < x.2

/-- The bytes of the lines of a range that such a fill touches but does not write: zero after an invalidation that the
fill followed (R205). -/
def zerosBeside (lo hi : Nat) (r : Nat × Nat) : List (Nat × Byte) :=
  let a := 256 * max r.1 (lo / 256)
  let b := 256 * min r.2 ((hi + 255) / 256)
  ((List.range (b - a)).map (· + a)).filterMap fun k => if lo ≤ k && k < hi then none else some (k, 0)

/-- Does a line range hold the line? -/
def inLines (rs : List (Nat × Nat)) (l : Nat) : Bool := rs.any fun r => r.1 ≤ l && l < r.2

/-- When an accumulator command lands before an earlier-issued one, the earlier one's writes no longer show where the
later one wrote (R190); the weight port's commands keep their issue order likewise (R205). -/
def Flight.underLater (f later : Flight) : Flight :=
  if f.acc && later.acc then
    { f with
      writes := f.writes.filterMap fun w => w.under later.writes
      flags := f.flags.filter fun x => !(later.flags.any fun y => y.1 == x.1) }
  else
    match f.op, later.op with
    | .weight lo hi cells lines, .weight lo' hi' cells' lines' =>
      let filled := lo' < hi'
      let kept := cells.filter fun c => !(lo' ≤ c.1 && c.1 < hi') && !inLines lines' (c.1 / 256) && !cells'.any fun x => x.1 == c.1
      { f with
        op := .weight lo hi (kept ++ if filled then lines.flatMap (zerosBeside lo' hi') else [])
          (if filled then lines.flatMap (linesOutside lo' hi') else lines) }
    | _, _ => f

/-- Requests of a command that have been confirmed. -/
def Eng.confirmed (g : Eng) (seq : Nat) : List Req := g.reqs.filter fun r => r.seq == seq && r.confirmed

/-- The command has a REMOTE target, whose updates travel in requests (R284). -/
def SluOp.far (op : SluOp) : Bool := op.tgt.t.kind == 8

/-- The places that a command in flight is still to write: those of its own operation beside its byte writes. -/
def Eng.places (g : Eng) (f : Flight) : List (Space × Nat) :=
  (f.writes.filter fun w => w.mask != 0).map (fun w => (w.sp, w.at_))
    ++ match f.op with
      | .weight _ _ cells lines =>
        cells.map (fun c => (Space.wbuf, c.1))
          ++ lines.flatMap fun r => (List.range (4 * (r.2 - r.1))).map fun k => (Space.wbuf, 256 * r.1 + 64 * k)
      | .slu op =>
        if op.far then ((g.confirmed f.seq).flatMap (·.olds)).flatMap fun o => op.res.span o.1 else op.places
      | .fold o => o.bytes
      | _ => []

/-- Some of what a command in flight writes at the places `p` has been performed already. -/
def Flight.begun (f : Flight) (p : Space → Nat → Bool) : Bool :=
  f.writes.any (fun w => w.mask == 0 && p w.sp w.at_)
    || match f.op with
      | .slu op => op.updates && op.done.any fun i => (op.aim i).any fun e => (op.tgt.span e).any fun x => p x.1 x.2
      | _ => false

/-- A line of the weight buffer becomes valid: one that was invalid holds zeros (R205). -/
def Task.openLine (t : Task) (l : Nat) : Task :=
  if spGet false t.wbValid l then t
  else
    { t with
      wb := spDrop (fun k => k / 256 == l) t.wb
      wbValid := spSet false t.wbValid l true
      bad := t.bad.filter fun b => !(b.1 == .wbuf && b.2 / 256 == l) }

/-- Write cells of the weight buffer: a line that was invalid reads as zero where it is not written (R205). -/
def Task.fillWeights (t : Task) (cells : List (Nat × Byte)) : Task :=
  let t := (dedupAdj (cells.map (·.1 / 256))).foldl Task.openLine t
  { t with
    wb := spSetMany emptyByte t.wb cells
    bad := t.bad.filter fun b => !(b.1 == .wbuf && cells.any fun c => c.1 == b.2) }

/-- Invalidate lines of the weight buffer (R205, R207). -/
def Task.dropLines (t : Task) (lines : List (Nat × Nat)) : Task :=
  { t with
    wbValid := t.wbValid.filter fun e => !inLines lines e.1
    bad := t.bad.filter fun b => !(b.1 == .wbuf && inLines lines (b.2 / 256)) }

/-- What a weight-port command leaves (R205). -/
def Task.landWeights (t : Task) (cells : List (Nat × Byte)) (lines : List (Nat × Nat)) : Task :=
  (t.dropLines lines).fillWeights cells

/-- An invalidated line reads as zero; in one aligned 64-byte granule before the line itself is invalid. -/
def Task.zeroGranule (t : Task) (a : Nat) : Task :=
  { t with
    wb := spDrop (fun k => k / 64 == a / 64) t.wb
    bad := t.bad.filter fun b => !(b.1 == .wbuf && b.2 / 64 == a / 64) }

/-- Replace the flight numbered `seq` of an engine. -/
def Eng.mapFlight (g : Eng) (seq : Nat) (f : Flight → Flight) : Eng :=
  { g with flight := g.flight.map fun x => if x.seq = seq then f x else x }

/-- The bytes of some places as they stand, kept as writes that have been performed. -/
def State.priors (s : State) (ps : List (Space × Nat)) : List BWrite := ps.map fun x => ⟨x.1, x.2, 0, s.rdByte x.1 x.2⟩

/-- Perform the fold of a command in flight if it is at the places `p` and its word can be read. -/
def State.foldPart (s : State) (e : EngId) (f : Flight) (p : Space → Nat → Bool) : State :=
  match f.op with
  | .fold o =>
    if p o.sp o.at_ && (s.badIn o.sp o.at_ 4).isNone then
      (s.doFold o).setEng e ((s.eng e).mapFlight f.seq fun x => { x with op := .none, writes := x.writes ++ s.priors o.bytes })
    else s
  | _ => s

/-- A fill of the cells, whose addresses rise without a gap, and of no others. -/
def fillOf (cells : List (Nat × Byte)) : LandOp :=
  match cells.head?, cells.getLast? with
  | some x, some y => .weight x.1 (y.1 + 1) cells []
  | _, _ => .none

/-- What a weight-port command writes and zeroes at the places `p` is performed: the fill that has been done, the granules that
have been zeroed, what is left of the command, and the state. -/
def State.weightPart (s : State) (op : LandOp) (p : Space → Nat → Bool) : LandOp × List Nat × LandOp × State :=
  match op with
  | .weight lo hi cells lines =>
    let now := cells.filter fun c => p .wbuf c.1
    let gs := (lines.flatMap fun r => (List.range (4 * (r.2 - r.1))).map fun k => 256 * r.1 + 64 * k).filter (p .wbuf)
    (fillOf now, gs, .weight lo hi (cells.filter fun c => !p .wbuf c.1) lines,
      s.withTask (gs.foldl Task.zeroGranule (s.task.fillWeights now)))
  | op => (.none, [], op, s)

/-- An earlier weight-port command no longer writes in granules that a later one has zeroed (R205). -/
def Flight.underZeros (f : Flight) (gs : List Nat) : Flight :=
  match f.op with
  | .weight lo hi cells lines =>
    { f with op := .weight lo hi (cells.filter fun c => !(gs.any fun a => a / 64 == c.1 / 64)) lines }
  | _ => f

/-! ### What follows a command that has not landed (R20, R88, R157) -/

/-- The place of a store of core `c`'s task in the package: the core that holds it, and which store of it. -/
def State.home (s : State) (c : Core) (sp : Space) : Nat × Space :=
  match sp with
  | .mem => (0, .mem)
  | .far n =>
    if n = c.task.lcn then (c.pcore, .scr)
    else (((s.cores.find? fun x => x.holdsTask c.task.lid n).map (·.pcore)).getD c.pcore, .scr)
  | k => (c.pcore, k)

/-- Insert into a list that a key orders, after equal keys. -/
def insertBy {α : Type} (key : α → Nat) (x : α) : List α → List α
  | [] => [x]
  | y :: t => if key x < key y then x :: y :: t else y :: insertBy key x t

/-- Put a list in the order of a key; equal keys keep their order. -/
def orderBy {α : Type} (key : α → Nat) (l : List α) : List α := l.foldl (fun acc x => insertBy key x acc) []

/-- The commands that the task's engines have issued in timed mode, in the order of their landings (R20). -/
def State.toLand (s : State) : List (EngId × Flight) :=
  orderBy (·.2.land) (engines.flatMap fun e => ((s.eng e).flight.filter (·.timed)).map fun f => (e, f))

/-- A load of the core's task has seen a command before its landing cycle. -/
def Core.sawAhead (c : Core) : Bool := engines.any fun e => (c.task.eng e).flight.any fun f => !f.seen.isEmpty

/-- A load has seen a command before its landing cycle: what a release, a fence or a launch orders has not all performed (R91,
R157; log entry 8). -/
def State.seesAhead (s : State) : Bool := s.cur.sawAhead

/-- A place lies in a granule in which a load has seen the command. -/
def Flight.saw (f : Flight) (x : Space × Nat) : Bool := f.seen.contains (x.1, x.2 / 64)

/-- A byte in which command number `seq` of engine `e`, which a load has seen there, has performed before an earlier landing: its write
keeps what stood there before. -/
structure Buried where
  e : EngId
  seq : Nat
  w : BWrite
  deriving DecidableEq, Repr

/-- The bytes in which command `f` of a timed frame performs beneath what stands there: a command that lands after it has performed
there already, because a store or another effect follows what a load has seen of it (R20, R88, R157). Each is given with the first
such command; accumulator commands of the matrix engine keep their issue order instead (R190). -/
def State.buried (s : State) (e : EngId) (f : Flight) : List Buried :=
  if f.timed && s.seesAhead then
    ((s.toLand.dropWhile fun x => !(x.1 == e && x.2.seq == f.seq)).drop 1).foldl (fun bs x =>
      if f.acc && x.2.acc && x.2.seq < f.seq then bs
      else
        bs ++ (x.2.writes.filter fun w => w.mask == 0 && x.2.saw (w.sp, w.at_) && !bs.any fun b =>
          s.home s.cur b.w.sp == s.home s.cur w.sp && b.w.at_ == w.at_).map fun w => (⟨x.1, x.2.seq, w⟩ : Buried)) []
  else []

/-- Those bytes as they stood before. -/
def State.exhume (s : State) (bs : List Buried) : State := bs.foldl (fun s b => s.wrByte { b.w with mask := 0xFF }) s

/-- The state `t` in which a command has performed beneath what stands at some bytes in `s`: what it has left there is what stood there
before, and the bytes, with their flags and their errors, are as they were. -/
def State.rebury (s : State) (bs : List Buried) (t : State) : State :=
  if bs.isEmpty then t
  else
    let at_ (b : Buried) (w : BWrite) : Bool := w.mask == 0 && w.sp == b.w.sp && w.at_ == b.w.at_
    let u := bs.foldl (fun u b => u.setEng b.e ((u.eng b.e).mapFlight b.seq fun x =>
      { x with writes := x.writes.map fun w => if at_ b w then { w with val := t.rdByte w.sp w.at_ } else w })) t
    let u := bs.foldl (fun u b => u.wrByte ⟨b.w.sp, b.w.at_, 0xFF, s.rdByte b.w.sp b.w.at_⟩) u
    let u := u.putFlags ((bs.filter fun b => b.w.sp == .reg).map fun b => (b.w.at_ / 4, spGet Flag.fresh s.task.flags (b.w.at_ / 4)))
    let was (x : Space × Nat) : Bool := bs.any fun b => x == (b.w.sp, b.w.at_)
    let u := u.withTask { u.task with bad := u.task.bad ++ s.task.bad.filter fun x => !u.task.bad.contains x && was x }
    { u with badMem := u.badMem ++ s.badMem.filter fun a => !u.badMem.contains a && was (.mem, a) }

/-- Do what command `f` does beneath what follows it. -/
def State.beneath (s : State) (e : EngId) (f : Flight) (act : State → State) : State :=
  let bs := s.buried e f
  s.rebury bs (act (s.exhume bs))

/-! ### Parts of a command -/

/-- What a flight writes at the places `p`, but for the updates of the sluice, is performed; the rest of it stays in flight. What
earlier commands of the engine are still to write there no longer shows (R190, R205). -/
def State.landOwn (s : State) (e : EngId) (seq : Nat) (p : Space → Nat → Bool) : State :=
  match (s.eng e).flight.find? fun f => f.seq == seq with
  | none => s
  | some f =>
    let ws := f.writes.filter fun w => p w.sp w.at_
    let fs := f.flags.filter fun x => p .reg (4 * x.1)
    s.beneath e f fun s =>
      let gone (w : BWrite) : BWrite := if p w.sp w.at_ && w.mask != 0 then { w with mask := 0, val := s.rdByte w.sp w.at_ } else w
      let kept := f.writes.map gone
      let s := s.perform f.acc ws fs
      let (done, gs, rest, s) := s.weightPart f.op p
      let g := s.eng e
      let s := s.setEng e { g with flight := g.flight.map fun x =>
        if x.seq = seq then { f with writes := kept, flags := f.flags.filter fun x => !p .reg (4 * x.1), op := rest }
        else if x.seq < seq then (x.underLater { f with writes := ws, flags := fs, op := done }).underZeros gs
        else x }
      s.foldPart e f p

/-- The sluice's generator is seeded as a later SSEED has left it for after command `f` (R283). -/
def State.seeded (s : State) (f : Flight) : State :=
  match f.seedAfter with
  | some x => (s.withTask { s.task with sluGen := x }).setEng .sluice
      ((s.eng .sluice).mapFlight f.seq fun y => { y with seedAfter := none })
  | none => s

/-- Perform what one sluice command in flight updates and returns at the places `p`. One of a timed frame keeps what stood there
before. -/
def State.sluPart (s : State) (f : Flight) (p : Space → Nat → Bool) : State :=
  s.beneath .sluice f fun s => match f.op with
  | .slu op =>
    let found (o : Nat × Nat) : Bool := (op.res.span o.1).any fun x => p x.1 x.2
    let mine (r : Req) : Bool := r.seq == f.seq && r.confirmed
    if op.far then
      let g := s.eng .sluice
      let s := op.deliver ((((g.reqs.filter mine).flatMap (·.olds)).filter found).reverse) s
      s.setEng .sluice { s.eng .sluice with
        reqs := g.reqs.map fun r => if mine r then { r with olds := r.olds.filter fun o => !found o } else r }
    else
      let (u, left) := op.performAt p s
      let kept := if f.timed then s.priors (op.places.filter fun x => !left.places.contains x) else []
      u.setEng .sluice ((u.eng .sluice).mapFlight f.seq fun x => { x with op := .slu left, writes := x.writes ++ kept })
  | _ => s

/-- Perform the part of sluice commands, given latest first, at the places `p`; before each of them the earlier ones perform also
where it updates its targets (R269). -/
def State.sluBack : List Flight → (Space → Nat → Bool) → State → State
  | [], _, s => s
  | f :: t, p, s =>
    match f.op with
    | .slu op => (State.sluBack t (op.reach p) s).sluPart f p
    | _ => State.sluBack t p s

/-- The last of some sluice commands, given latest first, of which elements that draw perform where the places `p` are found new. -/
def drawsUpTo : List Flight → (Space → Nat → Bool) → Option Nat
  | [], _ => none
  | f :: t, p =>
    match f.op with
    | .slu op => if !op.far && op.drawsAt p then some f.seq else drawsUpTo t (op.reach p)
    | _ => drawsUpTo t p

/-- Take all draws of the sluice commands among some commands, given in the order in which they perform, each on the counters as the
earlier ones leave them, with the seeds that follow the earlier ones (R268, R269, R279, R283); `w` is the state in which
those have performed whole. No command draws behind one that will stop (R284). -/
def State.takeDraws : List (EngId × Flight) → State → State → State
  | [], _, s => s
  | (e, f) :: t, w, s =>
    match f.op with
    | .slu op =>
      if op.far then State.takeDraws t (w.seeded f) (s.seeded f)
      else
        let x := op.drawn (w.exhume (w.buried .sluice f))
        let s := (s.withTask { s.task with sluGen := x.2 }).setEng .sluice
          ((s.eng .sluice).mapFlight f.seq fun y => { y with op := .slu x.1 })
        if t.isEmpty || x.1.blocked w then s
        else
          let w := w.withTask { w.task with sluGen := x.2 }
          State.takeDraws t ((w.beneath .sluice f fun w => (x.1.land none w).1).seeded f) (s.seeded f)
    | _ => State.takeDraws t (w.landOwn e f.seq fun _ _ => true) s

/-- The sluice's commands in flight up to number `seq`. -/
def State.sluUpTo (s : State) (seq : Nat) : List Flight := (s.eng .sluice).flight.filter fun x => x.seq ≤ seq

/-- The commands in flight that come before the draws of the sluice's command number `n`, in their order, with that command: of a
timed frame those of every engine that land before it (R20, R268), and the sluice's own of elastic mode. -/
def State.drawOrder (s : State) (n : Nat) : List (EngId × Flight) :=
  (s.toLand.reverse.dropWhile fun x => !(x.1 == .sluice && decide (x.2.seq ≤ n))).reverse
    ++ ((s.sluUpTo n).filter fun f => !f.timed).map fun f => (.sluice, f)

/-- The draws that come before what is found new at the places `p` of a sluice command are taken, those of whole commands. -/
def State.drawsFor (s : State) (f : Flight) (p : Space → Nat → Bool) : State :=
  match drawsUpTo (s.sluUpTo f.seq).reverse p with
  | some n => State.takeDraws (s.drawOrder n) s s
  | none => s

/-- A fold in another core's scratchpad that has not been applied (R223). -/
def Eng.foldLeft (g : Eng) (seq : Nat) : Option Req :=
  g.reqs.find? fun r => r.seq == seq && !r.applied && !r.confirmed && (match r.op with | .fold _ => true | _ => false)

/-- The fold of the command meets an uncorrectable error, which stops the command before any of it lands (R223, R308). -/
def State.foldBad (s : State) (e : EngId) (f : Flight) : Bool :=
  !s.sound && ((match f.op with | .fold o => (s.badIn o.sp o.at_ 4).isSome | _ => false)
    || ((s.eng e).foldLeft f.seq).any fun r => (s.reqBad f r).isSome)

/-- The command will stop at an uncorrectable error, unless it is repaired before: nothing of the sluice's later ones performs before
it (R269, R284). -/
def State.blocked (s : State) (e : EngId) (f : Flight) : Bool :=
  match f.op with
  | .slu op =>
    if op.far then
      !s.sound && (s.eng e).reqs.any fun r => r.seq == f.seq && !r.applied && !r.confirmed && (s.reqBad f r).isSome
    else op.blocked s
  | _ => s.foldBad e f

/-- An earlier sluice command comes first: a request of one to the core's own scratchpad is still to be applied, one is stopped or will
stop, or one that was issued in timed mode is still to land before this one of elastic mode. -/
def State.ownAhead (s : State) (f : Flight) : Bool :=
  let g := s.eng .sluice
  (g.flight.any fun x => decide (x.seq < f.seq) && s.blocked .sluice x)
    || (g.reqs.any fun r => decide (r.seq < f.seq) && !r.applied && !r.confirmed && r.tgt == .far s.task.lcn)
    || (g.stopped.any fun x => decide (x.seq < f.seq))
    || (!f.timed && g.flight.any fun x => x.timed && decide (x.seq < f.seq))

/-- Perform what a sluice command in flight updates and returns at the places `p`, what earlier ones update there and at its
targets first (R269; log entry 73). -/
def State.sluParts (s : State) (f : Flight) (p : Space → Nat → Bool) : State :=
  match f.op with
  | .slu _ =>
    if s.ownAhead f then s
    else
      let s := s.drawsFor f p
      State.sluBack (s.sluUpTo f.seq).reverse p s
  | _ => s

/-- What a flight writes at the places `p` is performed; the rest of it stays in flight. -/
def State.landPart (s : State) (e : EngId) (seq : Nat) (p : Space → Nat → Bool) : State :=
  match (s.eng e).flight.find? fun f => f.seq == seq with
  | none => s
  | some f => (s.landOwn e seq p).sluParts f p

/-! ### What loads have seen of a timed frame's commands (R85, R88, R157) -/

/-- The draws of the command have been taken: its counters rise by them when they are reached (log entry 73). -/
def Flight.drew (f : Flight) : Bool := match f.op with | .slu op => !op.rise.isEmpty | _ => false

/-- What else comes to the places of some command in flight of the core's task comes after it: a load has seen it there, or its draws
have been taken. -/
def Core.ahead (c : Core) : Bool := c.sawAhead || (c.task.eng .sluice).flight.any Flight.drew

/-- The other cores of which that holds. -/
def State.seers (s : State) : List Nat := (s.rest.filter Core.ahead).map (·.pcore)

/-- The place is one of the `n` bytes from `a` of the store at home `h`. -/
def State.lies (s : State) (h : Nat × Space) (a n : Nat) (sp : Space) (b : Nat) : Bool :=
  s.home s.cur sp == h && decide (a ≤ b) && decide (b < a + n)

/-- What commands write to those bytes has performed, each in its turn. -/
def State.landAt (s : State) (h : Nat × Space) (a n : Nat) (l : List (EngId × Flight)) : State :=
  l.foldl (fun s x => s.landPart x.1 x.2.seq (s.lies h a n)) s

/-- What is written to `n` bytes of a store comes after the updates of elastic mode there whose draws have been taken. -/
def State.behindDrawn (s : State) (h : Nat × Space) (a n : Nat) : State :=
  s.landAt h a n <| ((s.eng .sluice).flight.filter fun f =>
    !f.timed && f.drew && ((s.eng .sluice).places f).any fun x => s.lies h a n x.1 x.2).map fun f => (.sluice, f)

/-- What is written to `n` bytes from `a` of the store at home `h` comes after what the focused core's loads have seen there, and
after what counts there by draws that have been taken: those bytes of the commands have performed (R88, R94). -/
def State.behind (s : State) (h : Nat × Space) (a n : Nat) : State :=
  (s.landAt h a n (s.toLand.filter fun x => x.2.seen.any fun k => s.home s.cur k.1 == h && k.2 == a / 64)).behindDrawn h a n

/-- It comes after what other cores' commands have been seen to write there. -/
def State.behindOthers (s : State) (h : Nat × Space) (a n : Nat) : State :=
  s.seers.foldl (fun s m => s.onCore m fun s => s.behind h a n) s

/-- A store of the task comes after what any core's loads have seen at its bytes (R85, R88). -/
def State.behindSeen (s : State) (sp : Space) (a n : Nat) : State :=
  let h := s.home s.cur sp
  (s.behind h a n).behindOthers h a n

/-- What engine `e` of the task writes at the places `ps` comes after the counting there for which the sluice has drawn; the sluice's
own commands keep their order (R94, R269). -/
def State.overDrawn (s : State) (e : EngId) (ps : List (Space × Nat)) : State :=
  if e = .sluice || !s.cur.ahead then s else ps.foldl (fun s x => s.behindDrawn (s.home s.cur x.1) x.2 1) s

/-- Writes of the task's engines come after what other cores' commands have been seen to write at their places. -/
def State.overOthers (s : State) (ps : List (Space × Nat)) : State :=
  if s.seers.isEmpty then s else ps.foldl (fun s x => s.behindOthers (s.home s.cur x.1) x.2 1) s

/-- They come after both (R85, R88, R94). -/
def State.overAhead (s : State) (e : EngId) (ps : List (Space × Nat)) : State := (s.overDrawn e ps).overOthers ps

/-- What the core's loads have seen of its engines' commands has performed, in the order of the landings (R20, R85). -/
def State.ownSeen (s : State) : State :=
  s.toLand.foldl (fun w x => w.landPart x.1 x.2.seq fun sp b => x.2.seen.contains (sp, b / 64)) s

/-- The state as the streams of the focused core find it: what loads of other cores have seen has performed for every agent but the
streams of the core whose command it is (R85). -/
def State.elsewhere (s : State) : State := s.seers.foldl (fun v m => v.onCore m State.ownSeen) s

/-- The state as every agent that is no stream of the focused core finds it (R85). -/
def State.beheld (s : State) : State := s.ownSeen.elsewhere

/-! ### Requests that a read finds applied (R249, R268, R284) -/

/-- Is the command's landing cycle come? Issued in timed mode at its cycle, not while the task is parked (R305); in elastic
mode from that cycle on, and at any time in a park, where no clock counts for it. -/
def State.cycleCome (s : State) (e : EngId) (f : Flight) : Bool :=
  let g := s.eng e
  if f.timed then !s.task.parkAll && (f.land ≤ g.cnt || (s.task.saving && !g.timed))
  else f.land ≤ g.cnt || s.task.parkAll

/-- A fold is sent when its command lands, its data and scales first (R223). -/
def State.foldSent (s : State) (e : EngId) (r : Req) : Bool :=
  match r.op with
  | .fold _ => (s.eng e).flight.any fun f => f.seq == r.seq && s.cycleCome e f && f.writes.isEmpty
  | _ => true

/-- A request of a command that has passed its 8 ms, and no command is stopped for it yet. -/
def Eng.loses (g : Eng) : Bool := g.reqs.any fun x => x.lost && g.stopped.all fun f => f.seq != x.seq

/-- Behind a stopped command the sluice applies nothing more (R269), and no request goes out that would stop a second one; every
other request of a command that has issued does (R305; log entry 65). -/
def State.reqAllowed (s : State) (e : EngId) (r : Req) : Bool :=
  let g := s.eng e
  g.stopped.isNone || (e != .sluice && g.flight.all fun f => f.seq != r.seq || (s.reqBad f r).isNone)

/-- May a read find elements of the request performed: it is in flight, its target resident, and neither it nor an earlier
request of its command, or of the sluice (R269), meets an uncorrectable error? -/
def State.reqOpen (s : State) (e : EngId) (f : Flight) (r : Req) : Bool :=
  let g := s.eng e
  r.seq == f.seq && !r.applied && !r.confirmed && g.window.contains r && s.reqReaches r && s.reqAllowed e r && !g.loses
    && (e != .sluice || g.flight.all fun x => r.seq ≤ x.seq || (match x.op with | .slu op => op.far | _ => true))
    && ((g.reqs.takeWhile fun x => x.tag != r.tag) ++ [r]).all fun x =>
      (e != .sluice && x.seq != f.seq) || x.confirmed || x.begun || (s.reqBad f x).isNone

/-- Perform what request `tag` of a command updates at the places `p`, what earlier requests of the engine update there first
(R249, R269). -/
def State.reqPart (s : State) (e : EngId) (tag : BitVec 32) (p : Space → Nat → Bool) : State :=
  let g := s.eng e
  let upTo := (g.reqs.takeWhile fun x => x.tag != tag) ++ (g.reqs.find? fun x => x.tag == tag).toList
  upTo.foldl (fun s r =>
    if r.applied || r.confirmed || g.stopped.any (fun f => f.seq == r.seq) then s
    else
      let (s, op) := (s.overAhead e (r.places.filter fun x => p x.1 x.2)).applyAt r p
      s.setEng e { s.eng e with reqs := (s.eng e).reqs.map fun x => if x.tag = r.tag then { x with op } else x }) s

/-! ### What a read finds (R23, R88, R157) -/

/-- What command `f` of an engine updates by requests at the places `want`: for each of `key`, found performed or not. -/
def State.showReqs (s : State) (e : EngId) (f : Flight) (want : Space → Nat → Bool) (key : Space → Nat → Nat) : State :=
  ((s.eng e).reqs.filter (s.reqOpen e f)).foldl (fun s r =>
    (dedupAdj ((r.places.filter fun x => want x.1 x.2).map fun x => (x.1, key x.1 x.2))).foldl (fun s k =>
      let (new, s) := s.choose
      if new then s.reqPart e r.tag fun sp a => sp == k.1 && key sp a == k.2 else s) s) s

/-- The focused task's effects in flight at the places `want`: what each command issued in elastic mode writes under one
key is performed now or not, which is free (R23, R88); where some of it has been performed, it is. What was issued in timed
mode shows at its landing cycle (R20). -/
def State.showAt (s : State) (want : Space → Nat → Bool) (key : Flight → Space → Nat → Nat) : State :=
  engines.foldl (fun s e => (s.eng e).flight.foldl (fun s f =>
    if f.timed || s.foldBad e f then s
    else
      let ks := dedupAdj ((((s.eng e).places f).filter fun x => want x.1 x.2).map fun x => (x.1, key f x.1 x.2))
      (ks.foldl (fun s k =>
        let p (sp : Space) (a : Nat) : Bool := sp == k.1 && key f sp a == k.2
        let (new, s) := if f.begun p then (true, s) else s.choose
        if new then (s.overAhead e (((s.eng e).places f).filter fun x => p x.1 x.2)).landPart e f.seq p else s) s).showReqs e f
          want (key f)) s) s

/-- The key of a place for the reads of other cores: the first byte of its container (R88). -/
def Flight.container (f : Flight) (sp : Space) (a : Nat) : Nat :=
  let c := max (if f.scales.contains (sp, a) then f.scont else f.cont) 1
  a / c * c

/-- An engine of the core's task has a command in flight. -/
def Core.inFlight (c : Core) : Bool := engines.any fun e => !(c.task.eng e).flight.isEmpty

/-- The place is one of the `n` bytes from `a` of the store at home `h`, by 4-byte words. -/
def State.touches (s : State) (h : Nat × Space) (a n : Nat) (sp : Space) (b : Nat) : Bool :=
  s.home s.cur sp == h && decide (b / 4 * 4 < a + n) && decide (a < b / 4 * 4 + 4)

/-- What is in flight at the `n` bytes from `a` of a store, as a load of the focused core finds it: of its own engines
whole 64-byte granules, of other cores' whole containers (R88, R157). -/
def State.showFor (s : State) (sp : Space) (a n : Nat) : State :=
  let h := s.home s.cur sp
  let s := s.showAt (fun x b => s.home s.cur x == h && b / 64 == a / 64) fun _ _ b => b / 64
  ((s.rest.filter Core.inFlight).map (·.pcore)).foldl (fun s m =>
    s.onCore m fun s => s.showAt (s.touches h a n) Flight.container) s

/-- The bytes at the places `p` of which a command uses the value before it: the targets that it updates or tests, those of folds, and
bytes of which it writes some bits. -/
def Flight.builds (f : Flight) (p : Space → Nat → Bool) : List (Space × Nat) :=
  ((f.writes.filter fun w => w.mask != 0 && w.mask != 0xFF && p w.sp w.at_).map fun w => (w.sp, w.at_))
    ++ match f.op with
      | .slu op => op.targetsAt p
      | .fold o => if p o.sp o.at_ then o.bytes else []
      | _ => []

/-- What lands before a command in flight of engine `e` is known: no stream of the task is still to issue anything, nothing of elastic
mode is in flight, and no command is stopped or will stop; the sluice's own later commands land after it (R269). -/
def State.settled (s : State) (e : EngId) : Bool :=
  engines.all fun x =>
    (s.eng x).stopped.isNone && (s.eng x).flight.all (fun f => !s.blocked x f)
      && ((x == .sluice && e == .sluice) || (!(s.eng x).running && (s.eng x).flight.all (·.timed)))

/-- The new value of the command at the places `here` can still change before it lands. -/
def State.unsettled (s : State) (here : Space → Nat → Bool) (x : EngId × Flight) : Bool :=
  !s.settled x.1 && !(x.2.builds here).isEmpty

/-- The command updates counters of the core by draws (R280, R281). -/
def Flight.draws (f : Flight) : Bool := match f.op with | .slu op => op.draws && !op.far | _ => false

/-- A command of a timed frame that a load finds new: its engine, its number, whether in the whole granule of the load, whether
everywhere for its draws, and the places where what lands after it has been found new, or builds on it. -/
structure Found where
  e : EngId
  seq : Nat
  whole : Bool
  draws : Bool
  later : List ((Nat × Space) × Nat)

/-- What a load finds in the granule `here` of commands given last landing first: it finds new what it has found new before, and what
lands before something found new, or that this builds on, in the same byte. One that draws it finds new everywhere, and with it
those that draw before it, so that every later effect comes after the draws (R279). For the rest the choice is free, but for
values that can still change, which are old. The answer is what is found new, first landing first. -/
def State.pickSeen (s : State) (here : Space → Nat → Bool) : List (EngId × Flight) → List ((Nat × Space) × Nat) →
    List Found → List Found × State
  | [], _, found => (found, s)
  | (e, f) :: t, later, found =>
    let ps := (s.eng e).places f
    let mine := ps.filter fun x => here x.1 x.2
    let under := ps.any fun x => later.contains (s.home s.cur x.1, x.2)
    let sure := !s.unsettled here (e, f)
    let free := !mine.isEmpty && sure && !s.foldBad e f && t.all fun x => !s.unsettled here x || x.2.seen.any fun k => here k.1 (64 * k.2)
    let first := f.draws && found.any (·.draws)
    let (whole, s) := if mine.any f.saw || ((under || first) && sure) then (true, s) else if free then s.choose else (false, s)
    if whole || under then
      let all := whole && f.draws
      let p (sp : Space) (b : Nat) : Bool := all || (whole && here sp b) || later.contains (s.home s.cur sp, b)
      let shown := (ps.filter fun x => p x.1 x.2) ++ f.builds p
      let s := match whole, f.op with | true, .slu _ => s.drawsFor f p | _, _ => s
      let s := if whole then s.setEng e ((s.eng e).mapFlight f.seq fun x =>
          { x with seen := ((shown.map fun (y : Space × Nat) => (y.1, y.2 / 64)) ++ x.seen).eraseDups })
        else s
      State.pickSeen s here t (shown.map (fun x => (s.home s.cur x.1, x.2)) ++ later) (⟨e, f.seq, whole, all, later⟩ :: found)
    else State.pickSeen s here t later found

/-- What a load finds of commands issued in timed mode: beside the state, which keeps in what granules they have been seen, the
state as the load finds it, in which those of its own core have performed in the order of their landings, and those of others
that have been seen (R20, R85, R88, R157; log entry 73). -/
def State.glimpse (s : State) (sp : Space) (a : Nat) : State × State :=
  let h := s.home s.cur sp
  let here (x : Space) (b : Nat) : Bool := s.home s.cur x == h && b / 64 == a / 64
  let (found, u) := s.pickSeen here s.toLand.reverse [] []
  (u, (found.foldl (fun v k =>
    v.landPart k.e k.seq fun x b => k.draws || (k.whole && here x b) || k.later.contains (s.home s.cur x, b)) u).elsewhere)

/-- The value of `n` bytes that a load reads, and the state after it (R157). -/
def State.loaded (s : State) (sp : Space) (a n : Nat) : Nat × State :=
  let (s, v) := (s.showFor sp a n).glimpse sp a
  (v.rdNat sp a n, s)

/-- Order what the core's loads have seen before what follows, at a scope beyond the core: wait for it (R91, R153, R155, R156). -/
def State.afterSeen (s : State) (wide : Bool) (k : State → Out) : Out := if wide && s.seesAhead then s.wait else k s

end Sys2Proof.Machine
end

