-- ==== Sys2Proof/Machine/Loads.lean ====
section
/-! DEFINITION. The loads and stores of the control core (R151 to R157), its instruction fetch (R97, R158, R313), the fetches by
virtual address (R13, R36), and the accesses to the shadow stack (R161). -/

namespace Sys2Proof.Machine

/-! ### Loads and stores of the control core (R151 to R157) -/

/-- The launch core of an address in the remote window (R75). -/
def farCore (va : Nat) : Nat := (va - 0xFF00000000000000) / 2 ^ 24

/-- Is the store another core's scratchpad, reached through the remote path (R75)? -/
def Space.remote : Space → Bool
  | .far _ => true
  | _ => false

/-- A remote access is issued first and completes in a later move, so that REMOTE_TIMEOUT can fall between (R75). -/
def State.remoteGate (s : State) (sp : Space) (va : Nat) (k : State → Out) : Out :=
  if sp.remote then
    if s.ctl.remote = some va then k (s.withCtl { s.ctl with remote := none, remoteAge := 0 })
    else (s.withCtl { s.ctl with remote := some va, remoteAge := 0 }).wait
  else k s

/-- The uncorrectable error that a read of `n` bytes meets, with the address of the failing byte (R308). -/
def State.readBad (s : State) (va : Nat) (sp : Space) (a n : Nat) : Option Trap :=
  (s.badIn sp a n).map fun b => { code := .uncorrectable, addr := some (va + (b - a)) }

/-- A load of `2 ^ sz` bytes into G[d] (R152, R153); what engines are still to write there it finds old or new (R157). -/
def State.load (s : State) (d : BitVec 5) (va : Nat) (sz : BitVec 2) (sx : Bool) : Out :=
  match s.target va (2 ^ sz.toNat) .load with
  | (.trap tr, s) => s.fail tr
  | (.held, s) => s.wait
  | (.at_ sp a, s) =>
    match s.readBad va sp a (2 ^ sz.toNat) with
    | some tr => s.fail tr
    | none =>
      s.remoteGate sp va fun s =>
        let (v, s) := s.loaded sp a (2 ^ sz.toNat)
        (s.setG d (if sx then BitVec.ofInt 64 (sgn (8 * 2 ^ sz.toNat) v) else BitVec.ofNat 64 v)).retire

/-- A store of the low `2 ^ sz` bytes of G[d] (R152, R153). -/
def State.store (s : State) (d : BitVec 5) (va : Nat) (sz : BitVec 2) : Out :=
  match s.target va (2 ^ sz.toNat) .store with
  | (.trap tr, s) => s.fail tr
  | (.held, s) => s.wait
  | (.at_ sp a, s) =>
    s.remoteGate sp va fun s =>
      ((s.behindSeen sp a (2 ^ sz.toNat)).wrNat sp a (2 ^ sz.toNat) (s.getG d).toNat).retire

/-- LD (R152). -/
def execLd (q : Qual) (d a x : BitVec 5) (_cls : BitVec 4) (sz : BitVec 2) (sx : Bool) (off : BitVec 26)
    (s : State) : Out :=
  s.qualified q fun s => s.load d (s.ea a x sz (off.signExtend 64)) sz sx

/-- ST (R152). -/
def execSt (q : Qual) (d a x : BitVec 5) (_cls : BitVec 4) (sz : BitVec 2) (off : BitVec 26) (s : State) : Out :=
  s.qualified q fun s => s.store d (s.ea a x sz (off.signExtend 64)) sz

/-- LDA (R153): in one copy of memory its acquire orders every later access already (log entry 8). -/
def execLda (q : Qual) (d a x : BitVec 5) (_cls : BitVec 4) (_scope : BitVec 3) (sz : BitVec 2) (sx : Bool)
    (_mask : BitVec 16) (off : BitVec 10) (s : State) : Out :=
  s.qualified q fun s => s.load d (s.ea a x sz (off.signExtend 64)) sz sx

/-- STL (R153): every earlier access has performed already (log entry 8), but for a command that a load has seen early, which
the store waits for (R91, R157). -/
def execStl (q : Qual) (d a x : BitVec 5) (_cls : BitVec 4) (scope : BitVec 3) (sz : BitVec 2)
    (mask : BitVec 16) (off : BitVec 10) (s : State) : Out :=
  s.qualified q fun s => s.afterSeen (mask != 0 && scope != 0) fun s => s.store d (s.ea a x sz (off.signExtend 64)) sz

/-- PREF (R154): a hint without a program-visible effect. -/
def execPref (q : Qual) (_a _x : BitVec 5) (_off : BitVec 26) (s : State) : Out := s.qualified q fun s => s.retire

/-- FENCE (R155): every earlier access has performed, so it retires (log entry 8), once what a load has seen early has performed too
(R91, R157). -/
def execFence (q : Qual) (before after : BitVec 16) (scope : BitVec 3) (s : State) : Out :=
  s.qualified q fun s => s.afterSeen (before != 0 && after != 0 && scope != 0) State.retire

/-! ### Fetches by virtual address -/

/-- Read `n` bytes in one access at a virtual or window address: a fetch by a sequencer, which finds what loads of other cores have
seen (R85). Fetches need no primed translation while a timed frame is open: R156 binds loads and stores to them, and the worked
timed frames prime no code (log entry 20). -/
def State.vread (s : State) (va : Nat) (k : Acc) (n : Nat) : Except Trap Nat × State :=
  let get (sp : Space) (a : Nat) (s : State) : Except Trap Nat × State :=
    let v := s.elsewhere
    match v.readBad va sp a n with
    | some tr => (.error tr, s)
    | none => (.ok (v.rdNat sp a n), s)
  match locate va with
  | .none => (.error { code := .notPresent, addr := some va }, s)
  | .window sp off => get sp off s
  | .virt =>
    match s.translate va k false with
    | (.error tr, s) => (.error tr, s)
    | (.ok pa, s) => get .mem pa s

/-- The control code region that holds an address (R158): the `.control` section of a loaded object. -/
def State.regionOf (s : State) (part va : Nat) (control : Bool) : Option (Nat × Nat) :=
  match s.partOf part with
  | none => none
  | some p =>
    ((p.objects.flatMap (·.sections)).find? fun r => r.control == control && r.base ≤ va && va < r.base + r.size).map
      fun r => (r.base, r.base + r.size)

/-- The words of a 64-byte line that a cache or a prefetch buffer holds (R97). -/
def lineOf (ts : List (Nat × Word)) (va : Nat) : List (Nat × Word) := ts.filter fun t => t.1 / 64 == va / 64

/-- Hold a line in place of what was held of it. -/
def noteLine (ts : List (Nat × Word)) (va : Nat) (l : List (Nat × Word)) : List (Nat × Word) :=
  l ++ ts.filter fun t => t.1 / 64 != va / 64

/-- The word at an address among held ones. -/
def heldWord (ts : List (Nat × Word)) (va : Nat) : Word := ((ts.find? fun t => t.1 == va).map (·.2)).getD 0

/-- The line at `va` as memory holds it, from its physical address: the words that can be read (R308). -/
def State.memLine (s : State) (va pa : Nat) : List (Nat × Word) :=
  ((List.range 8).filter fun k => (s.badIn .mem (pa / 64 * 64 + 8 * k) 8).isNone).map fun k =>
    (va / 64 * 64 + 8 * k, (BitVec.ofNat 64 (s.rdNat .mem (pa / 64 * 64 + 8 * k) 8) : Word))

/-- Fetch the line of one instruction word: memory's with all that a load has seen of it (R85), or an older one in which the
instruction cache still holds the word, and then which of the two is free (R97, log entry 2). -/
def State.fetchLineAt (s : State) (va pa : Nat) : List (Nat × Word) × State :=
  let new := s.beheld.memLine va pa
  let old := lineOf s.task.icache va
  if !(old.any fun t => t.1 == va) || old == new then (new, s)
  else
    let (b, s) := s.choose
    (if b then old else new, s)

/-- The physical address of an instruction word, or the fault of its fetch (R81, R308). -/
def State.fetchAt (s : State) (va : Nat) : Except Trap Nat × State :=
  match locate va with
  | .virt =>
    match s.translate va .fetch false with
    | (.error tr, s) => (.error tr, s)
    | (.ok pa, s) =>
      match s.beheld.readBad va .mem pa 8 with
      | some tr => (.error tr, s)
      | none => (.ok pa, s)
  | _ => (.error { code := .notPresent, addr := some va }, s)

/-- Fetch one instruction word through the instruction cache; its address is checked afresh (log entry 93). -/
def State.fetchWord (s : State) (va : Nat) : Except Trap Word × State :=
  match s.fetchAt va with
  | (.error tr, s) => (.error tr, s)
  | (.ok pa, s) =>
    let (l, s) := s.fetchLineAt va pa
    (.ok (heldWord l va), s.withTask { s.task with icache := noteLine s.task.icache va l })

/-- The lines of a prefetch: those of up to eight words, to the end of the region (R158), each memory's or an older one that
the instruction cache still holds (R97, log entry 17). -/
def State.fetchLine (s : State) (hi : Nat) : Nat → Nat → Except Trap (List (Nat × Word)) × State
  | 0, _ => (.ok [], s)
  | n + 1, va =>
    if hi ≤ va then (.ok [], s)
    else
      match s.fetchAt va with
      | (.error tr, s) => (.error tr, s)
      | (.ok pa, s) =>
        match s.fetchLine hi n (va + 8) with
        | (.error tr, s) => (.error tr, s)
        | (.ok ws, s) =>
          let (l, s) := s.fetchLineAt va pa
          (.ok (noteLine ws va l), s)

/-- Prefetch a target (R158): its words, or the fault that a transfer to it would raise (R160). -/
def State.prefetch (s : State) (taddr : Nat) : Except Trap (List (Nat × Word)) × State :=
  match s.regionOf s.task.part taddr true with
  | none => (.error { code := .fetchBounds, addr := some taddr }, s)
  | some (_, hi) => s.fetchLine hi 8 taddr

/-- Control moves to `va`: the region that holds it becomes the current one, and the lines of a prefetch buffer may be
executed in place of memory's (R97). -/
def State.enter (s : State) (va : Nat) (buf : List (Nat × Word)) : State :=
  let (lo, hi) := (s.regionOf s.task.part va true).getD (0, 0)
  s.withTask { s.task with
    ctl := { s.task.ctl with clo := lo, chi := hi }
    icache := buf ++ s.task.icache.filter fun t => (lineOf buf t.1).isEmpty }

/-- A shadow-stack access is an implicit access, checked like any other while a timed frame is open; a window never carries SHADOW
(R74, R81). -/
def State.shadowTarget (s : State) (va : Nat) (k : Acc) : Except Trap Nat × State :=
  match locate va with
  | .virt => s.translate va k s.ctl.timedOpen
  | .none => (.error { code := .notPresent, addr := some va }, s)
  | .window .. => (.error { code := .permission, addr := some va }, s)

end Sys2Proof.Machine
end

