-- ==== Sys2Proof/Machine/Streams.lean ====
section
/-! DEFINITION. Streams, tokens and frames: waits (R15, R24 to R26), issue (R13, R17, R19, R23), the generic commands
(R32 to R35), fetching (R13, R35, R36), the frame's start (R16), cancelling (R28, R29), and the control core's FORK,
JOIN, TWAIT and QCANCEL (R166 to R169). -/

namespace Sys2Proof.Machine

/-! ### The head of a queue -/

/-- The entry at the head: in a REP, the body word of the current position (R33). -/
def Eng.head (g : Eng) : Option QEnt :=
  match g.rep with
  | some r => g.queue[r.pos]?
  | none => g.queue.head?

/-- IDLE of a command word (R14). -/
def idleOf (w : Word) : Nat := fld w.toNat 54 10

/-- A stamp or a sequence number: 48 bits wide (R23, log entry 64). -/
def wrap48 (n : Nat) : Nat := n % 2 ^ 48

/-- The nominal stamp of the next command with this IDLE (R17). -/
def Eng.nextStamp (g : Eng) (idle : Nat) : Nat := wrap48 (g.stamp + idle + 1)

/-- The stamp of word `w` after stamp `st` (R17). -/
def stampOf (w : Word) (st : Nat) : Nat := wrap48 (st + idleOf w + 1)

/-- The stamp that the commands after word `w`, stamped `st`, count from: IDLE adds its EXTRA (R17, R32). -/
def stampAfter (w : Word) (st : Nat) : Nat := if opOf w == 0x70 then wrap48 (st + fld w.toNat 0 26) else st

/-- The queue after the head's instance has issued (R33): the body words stay until the last pass. -/
def Eng.pop (g : Eng) : Eng :=
  match g.rep with
  | none => { g with queue := g.queue.tail }
  | some r =>
    if r.pos + 1 < r.body then { g with rep := some { r with pos := r.pos + 1 } }
    else if r.pass + 1 < r.count then { g with rep := some { r with pos := 0, pass := r.pass + 1 } }
    else { g with rep := none, queue := g.queue.drop r.body }

/-- Bit of a three-slot mask: slot a or wait 0 is the high bit (R33). -/
def maskBit (m : BitVec 3) (slot : Nat) : Bool := m.getLsbD (2 - slot)

/-- The tack number of a slot after REP stepping: it may pass 63 (R33). -/
def Eng.stepTid (g : Eng) (slot : Nat) (tid : BitVec 6) : Nat :=
  match g.rep with
  | some r => if maskBit r.tid slot then tid.toNat + r.pass else tid.toNat
  | none => tid.toNat

/-- The number of pass strides by which a slot's base is offset (R33). -/
def Eng.stepPass (g : Eng) (slot : Nat) : Nat :=
  match g.rep with
  | some r => if maskBit r.addr slot then r.pass else 0
  | none => 0

/-- SEQ of wait `i` in a pass whose first command lies `shift` commands after the first pass's (R33). -/
def stepSeq (wstep : BitVec 3) (shift i : Nat) (w : Wait) : Nat :=
  if maskBit wstep i then (w.seq.toNat + shift) % 32 else w.seq.toNat

/-- The waits of a command in such a pass as (engine number, SEQ) pairs (R15, R33). -/
def waitsAt (wstep : BitVec 3) (shift : Nat) (h : CmdHead) : List (Nat × Nat) :=
  [(h.w0.eng.toNat, stepSeq wstep shift 0 h.w0), (h.w1.eng.toNat, stepSeq wstep shift 1 h.w1),
    (h.w2.eng.toNat, stepSeq wstep shift 2 h.w2)]

/-- The waits of the head (R15, R33). -/
def Eng.waits (g : Eng) (h : CmdHead) : List (Nat × Nat) :=
  match g.rep with
  | some r => waitsAt r.wstep (r.pass * r.body) h
  | none => waitsAt 0 0 h

/-! ### Stamps of queued commands (R17, R25) -/

/-- Count the commands of a run of words whose stamps stay below `S`: the stamp reached, the count, and whether a stamp
of at least `S` was met. -/
def runWords (S : Nat) : List Word → Nat → Nat → Nat × Nat × Bool
  | [], st, n => (st, n, false)
  | w :: t, st, n =>
    let st' := stampOf w st
    if S ≤ st' then (st', n, true) else runWords S t (stampAfter w st') (n + 1)

/-- The same over `k` passes of a body. -/
def runPasses (S : Nat) (body : List Word) : Nat → Nat → Nat → Nat × Nat × Bool
  | 0, st, n => (st, n, false)
  | k + 1, st, n =>
    match runWords S body st n with
    | (st, n, true) => (st, n, true)
    | (st, n, false) => runPasses S body k st n

/-- The same over queued words with their REPs; a REP whose body is not yet queued ends the count. -/
def runQueue (S : Nat) : Nat → List Word → Nat → Nat → Nat × Nat × Bool
  | 0, _, st, n => (st, n, false)
  | _, [], st, n => (st, n, false)
  | fuel + 1, w :: t, st, n =>
    match runWords S [w] st n with
    | (st, n, true) => (st, n, true)
    | (st, n, false) =>
      if opOf w == 0x71 then
        let b := fld w.toNat 22 4
        if t.length < b then (st, n, false)
        else
          match runPasses S (t.take b) (fld w.toNat 10 12 + 1) st n with
          | (st, n, true) => (st, n, true)
          | (st, n, false) => runQueue S fuel (t.drop b) st n
      else runQueue S fuel t st n

/-- The unissued queued commands with stamps below `S`: the stamp reached, how many, and whether a later one was met. -/
def Eng.scan (g : Eng) (S : Nat) : Nat × Nat × Bool :=
  let ws := g.queue.map (·.word)
  match g.rep with
  | none => runQueue S 17 ws g.stamp 0
  | some r =>
    match runWords S ((ws.take r.body).drop r.pos) g.stamp 0 with
    | (st, n, true) => (st, n, true)
    | (st, n, false) =>
      match runPasses S (ws.take r.body) (r.count - r.pass - 1) st n with
      | (st, n, true) => (st, n, true)
      | (st, n, false) => runQueue S 17 (ws.drop r.body) st n

/-- The unissued queued commands with stamps below `S`: how many, and whether a later one was met. -/
def Eng.upcoming (g : Eng) (S : Nat) : Nat × Bool := (g.scan S).2

/-! ### Waits (R25, R26, R29) -/

/-- How a wait stands. -/
inductive WaitRes where
  | met | cancelled | notYet | token
  deriving DecidableEq, Repr

/-- The stream was cancelled: END never issued (R28). -/
def Eng.cut (g : Eng) : Bool := g.forked && !g.running && !g.ended

/-- The tokens of an engine in frame `fid`: the current frame's, or an earlier frame's that is not yet joined. -/
def Eng.toksOf (g : Eng) (fid : Nat) : List Tok :=
  if g.fid = fid then g.toks else ((g.past.find? fun p => p.1 == fid).map (·.2)).getD []

/-- No command that the stream has still to fetch is stamped below `S`: the sequencer has read the next word, or a timed frame,
in which every command issues at its stamp (R19), has reached `S`. `st` is the stamp of the last queued command. -/
def Eng.noneBelow (g : Eng) (st S : Nat) : Bool :=
  (g.peek.any fun w => decide (S ≤ stampOf w st)) || (g.strict && g.started && decide (S ≤ g.cnt))

/-- m of R25 for a waiter with stamp `S`: none while a command with a smaller stamp may still be fetched. The Boolean
says that the stream was cancelled and what follows is not known. -/
def Eng.lastBelow (g : Eng) (fid S : Nat) : Option Nat × Bool :=
  let ts := g.toksOf fid
  let n := (ts.filter fun t => t.stamp < S).length
  if g.fid != fid || n < ts.length then (some n, false)
  else
    let (st, k, met) := g.scan S
    if met || g.ended || g.noneBelow st S then (some (n + k), false)
    else if g.cut then (some n, true)
    else (none, false)

/-- Resolve one wait of engine `e`'s command with stamp `S` and sequence number `seq` (R25, R26). -/
def Task.resolve (t : Task) (e : EngId) (S seq : Nat) (w : Nat × Nat) : WaitRes :=
  let me := t.eng e
  match EngId.ofNum w.1 with
  | none => .met
  | some E =>
    if !me.mask.getLsbD w.1 then .token
    else if E = e && w.2 == seq % 32 then .token
    else
      let g := t.eng E
      match g.lastBelow me.fid S with
      | (none, _) => .notYet
      | (some n, unknown) =>
        -- m = n − 1; the command named is the last s ≤ m with s ≡ SEQ (mod 32)
        if n ≤ w.2 then (if unknown then .cancelled else .token)
        else
          let s := (n - 1) - ((n - 1 + 32 - w.2) % 32)
          match (g.toksOf me.fid).find? fun k => k.seq == s with
          | none => .notYet
          | some k => if !k.done then .notYet else if k.can then .cancelled else .met

/-- How the waits of a command stand together. -/
def Task.resolveAll (t : Task) (e : EngId) (S seq : Nat) (ws : List (Nat × Nat)) : WaitRes :=
  let rs := ws.map (t.resolve e S seq)
  if rs.contains .token then .token
  else if rs.contains .cancelled then .cancelled
  else if rs.contains .notYet then .notYet
  else .met

/-- Token slot `n mod 32` is free for command `n`: its occupant `n − 32` has completed (R25). -/
def Eng.slotFree (g : Eng) (n : Nat) : Bool :=
  n < 32 || ((g.toks.find? fun t => t.seq + 32 == n).map (·.done)).getD false

/-- The waits, as (stamp, waits) pairs, of the queued commands of a run of words whose stamps do not pass `S`; the stamp
reached, and whether one passed it. -/
def waitWords (S : Nat) (wstep : BitVec 3) (shift : Nat) : List Word → Nat → List (Nat × List (Nat × Nat)) × Nat × Bool
  | [], st => ([], st, false)
  | w :: t, st =>
    let st' := stampOf w st
    if S < st' then ([], st', true)
    else
      let (l, r) := waitWords S wstep shift t (stampAfter w st')
      ((st', waitsAt wstep shift (headAt w.toNat)) :: l, r)

/-- The same over the passes of a body, `k` of them, the first with shift `shift`. -/
def waitPasses (S : Nat) (wstep : BitVec 3) (body : List Word) :
    Nat → Nat → Nat → List (Nat × List (Nat × Nat)) × Nat × Bool
  | 0, _, st => ([], st, false)
  | k + 1, shift, st =>
    match waitWords S wstep shift body st with
    | (l, st, true) => (l, st, true)
    | (l, st, false) =>
      let (m, r) := waitPasses S wstep body k (shift + body.length) st
      (l ++ m, r)

/-- The same over queued words with their REPs. -/
def waitQueue (S : Nat) : Nat → List Word → Nat → List (Nat × List (Nat × Nat))
  | 0, _, _ => []
  | _, [], _ => []
  | fuel + 1, w :: t, st =>
    match waitWords S 0 0 [w] st with
    | (l, _, true) => l
    | (l, st, false) =>
      if opOf w == 0x71 then
        let b := fld w.toNat 22 4
        match waitPasses S (BitVec.ofNat 3 (fld w.toNat 1 3)) (t.take b)
            (if t.length < b then 1 else fld w.toNat 10 12 + 1) 0 st with
        | (m, _, true) => l ++ m
        | (m, st, false) => l ++ m ++ waitQueue S fuel (t.drop b) st
      else l ++ waitQueue S fuel t st

/-- The waits of every queued command of the engine, each pass of a REP for itself, whose stamp does not pass `S`. -/
def Eng.queuedWaits (g : Eng) (S : Nat) : List (Nat × List (Nat × Nat)) :=
  let ws := g.queue.map (·.word)
  match g.rep with
  | none => waitQueue S 17 ws g.stamp
  | some r =>
    match waitWords S r.wstep (r.pass * r.body) ((ws.take r.body).drop r.pos) g.stamp with
    | (l, _, true) => l
    | (l, st, false) =>
      match waitPasses S r.wstep (ws.take r.body) (r.count - r.pass - 1) ((r.pass + 1) * r.body) st with
      | (m, _, true) => l ++ m
      | (m, st, false) => l ++ m ++ waitQueue S 17 (ws.drop r.body) st

/-- How many commands of the stream that it has issued or queued are stamped below `S`. -/
def Eng.countBelow (g : Eng) (fid S : Nat) : Nat :=
  ((g.toksOf fid).filter fun t => t.stamp < S).length + (g.upcoming S).1

/-- The waits of queued commands of the task, stamped `lim` or below, that name command `n` of engine `E` (R25), no command of
`E` but those that it has issued or queued being stamped below `lim`. -/
def Task.waiters (t : Task) (E : EngId) (n lim : Nat) : List (Nat × Nat) :=
  engines.flatMap fun x =>
    let g := t.eng x
    if g.fid != (t.eng E).fid then []
    else
      (g.queuedWaits lim).flatMap fun q =>
        q.2.filter fun w =>
          let m := (t.eng E).countBelow g.fid q.1
          w.1 == E.num && m ≤ n + 32 && n < m && n % 32 == w.2

/-- Token slot of command `n` of engine `E`, stamped `st`, is free: its occupant has completed, and no queued command waits on it
(R25). A command stamped above `st` waits on `n` or on a later one. -/
def Task.slotOpen (t : Task) (E : EngId) (n st : Nat) : Bool :=
  (t.eng E).slotFree n && (n < 32 || (t.waiters E (n - 32) st).isEmpty)

/-- The head may issue by R25: a pass of a REP needs its slot, which a queued command has had since it was fetched. -/
def Task.headSlot (t : Task) (e : EngId) : Bool :=
  let g := t.eng e
  g.rep.isNone || g.head.all fun q => t.slotOpen e g.seq (g.nextStamp (idleOf q.word))

/-! ### Issue -/

/-- How long a command takes the resource that it needs, and the latency to its landing (R195, R234, R271). -/
structure Cost where
  occ : Nat := 0
  lat : Nat := 0
  deriving DecidableEq, Repr

/-- What a command does when it issues: what its flight carries, `cont` being the container of its written elements in
bytes, `scont` that of the block scales at the places `scales`. `instant` commands have no effect that lands: their tokens complete at issue. A `held` command reads a core that
is not resident and stays at the head (R75). -/
structure Issued where
  writes : List BWrite := []
  flags : List (Nat × Flag) := []
  acc : Bool := false
  op : LandOp := .none
  stop : Option Trap := none
  ranges : List Nat := []
  cls : Nat := 0
  instant : Bool := false
  units : List Nat := []
  cont : Nat := 4
  scont : Nat := 1
  scales : List (Space × Nat) := []
  held : Bool := false

/-- A structural resource: none, or one of an engine's three (R195, R234, R271). -/
inductive Res where
  | none | a | b | c
  deriving DecidableEq, Repr

/-- The first frame cycle at which the resource is free. -/
def Eng.freeAt (g : Eng) : Res → Nat
  | .none => 0 | .a => g.busyA | .b => g.busyB | .c => g.busyC

/-- Occupy a resource until a frame cycle. -/
def Eng.occupy (g : Eng) (r : Res) (upto : Nat) : Eng :=
  match r with
  | .none => g
  | .a => { g with busyA := upto }
  | .b => { g with busyB := upto }
  | .c => { g with busyC := upto }

/-- Stamps and landing cycles of a timed frame stay below this (R19). -/
def timedLimit : Nat := 2 ^ 20

/-- May the engine issue at all: its frame has started, the task is not parked, and no stopped command is to be
continued first, nor one about to stop (R16, R241, R305)? -/
def State.mayIssue (s : State) (e : EngId) : Bool :=
  let g := s.eng e
  g.started && !s.task.parkAll && (!s.task.saving || g.timed) && g.stopped.isNone
    && g.flight.all (·.stop.isNone) && s.cur.released

/-- The engine faults at the head command: the command has not issued (R304). -/
def State.failAt (s : State) (e : EngId) (tr : Trap) : State :=
  match (s.eng e).head with
  | some q => s.takeFault (.engine e) tr (BitVec.ofNat 64 q.pc) q.word (s.eng e).seq
  | none => s

/-- What stands in the way of the head command (R19, R23, R25, R26), in the order of R198, R233 and R263. -/
inductive Ready where
  | go | wait | trap (c : Code)
  deriving DecidableEq, Repr

/-- What stands in the way of the head command at its stamp, with resource `r`, to land `lat` cycles after it issues. In a timed
frame a landing at 2^20 or later is OVERRUN like a stamp there (R19). -/
def State.readyNow (s : State) (e : EngId) (h : CmdHead) (r : Res) (lat : Nat) : Ready :=
  let g := s.eng e
  let S := g.nextStamp h.idle.toNat
  let ws := s.task.resolveAll e S g.seq (g.waits h)
  if ws = .token then .trap .token
  else if g.strict then
    if ws = .cancelled then .wait
    else if ws = .notYet || S < g.cnt || timedLimit ≤ S + lat || g.cnt < g.freeAt r || !s.task.headSlot e then
      .trap .overrun
    else .go
  else if ws = .met && g.freeAt r ≤ g.cnt && s.task.headSlot e && g.hold.isNone then .go
  else .wait

/-- Is the head command ready: the engine may issue, and its stamp has come? A stamp of 2^20 or more in a timed frame raises its
OVERRUN when the frame cycle reaches it (log entry 13). -/
def State.ready (s : State) (e : EngId) (h : CmdHead) (r : Res) (lat : Nat) : Ready :=
  if !s.mayIssue e || (s.eng e).cnt < (s.eng e).nextStamp h.idle.toNat then .wait else s.readyNow e h r lat

/-- A head command that raises `c` at the first of its checks, before TOKEN (R198, R233, R263): in a timed frame at its stamp, in an
elastic frame, whose checks are made when the command would issue, once nothing keeps it waiting (log entry 72). -/
def State.failFirst (s : State) (e : EngId) (r : Res) (c : Code) : Out :=
  match (s.eng e).head with
  | some q => match s.ready e (headAt q.word.toNat) r 0 with
    | .wait => .next s
    | _ => .next (s.failAt e { code := c })
  | none => .next s

/-- The command has issued: its token, its flight, the resource, the head. -/
def Eng.issued (g : Eng) (h : CmdHead) (q : QEnt) (r : Res) (k : Cost) (i : Issued) : Eng :=
  let S := g.nextStamp h.idle.toNat
  let g' := (g.occupy r (if r = .none then 0 else g.cnt + k.occ)).pop
  { g' with
    seq := wrap48 (g.seq + 1)
    stamp := S
    toks := ⟨g.seq, S, i.instant, false⟩ :: g.toks
    flight := if i.instant then g.flight else g.flight ++
      [{ seq := g.seq, pc := q.pc, word := q.word, timed := g.strict, land := g.cnt + k.lat, writes := i.writes, flags := i.flags
         acc := i.acc, op := i.op, seedAfter := none, stop := i.stop, ranges := i.ranges, cls := i.cls, age := 0
         redo := false, units := i.units, cont := i.cont, scont := i.scont, scales := i.scales, seen := [] }] }

/-- An issued command stops: it leaves the engine's flight for the restart entry, and the fault is taken at it (R241,
R242, R305). `f` is the command as it will be continued. -/
def State.stopAt (s : State) (e : EngId) (f : Flight) (tr : Trap) (ktag conf : BitVec 32) : State :=
  let g := s.eng e
  (s.setEng e { g with
      flight := g.flight.filter fun x => x.seq != f.seq
      stopped := some f
      restart := ⟨true, tr.applied, tr.elem.getD 0, ktag, conf⟩ }).takeFault
    (.engine e) tr (BitVec.ofNat 64 f.pc) f.word f.seq

/-- A command issued in timed mode that will stop at an element stops at once: no later command of its stream issues
before it is continued (R241). What it writes before that element is held to its landing cycle (R305, log entry 65). -/
def State.stopNow (s : State) (e : EngId) : State :=
  match (s.eng e).flight.getLast? with
  | none => s
  | some f =>
    match f.stop with
    | some tr =>
      if f.timed then s.stopAt e { f with stop := none, redo := true } tr 0 0 else s
    | none => s

/-- What becomes of the head command once it is known what stands in its way: the checks of its own entry are `body`, which
answers a fault or the state with its immediate effects and what the flight carries; `cost` is its occupancy and latency. -/
def State.issueAs (s : State) (e : EngId) (h : CmdHead) (r : Res) (cost : State → Cost)
    (body : State → Except Trap (State × Issued)) (ready : Ready) : Out :=
  match ready, (s.eng e).head with
  | .trap c, _ => .next (s.failAt e { code := c })
  | .go, some q =>
    match body s with
    | .error tr => .next (s.failAt e tr)
    | .ok (s', i) =>
      if i.held then .next s
      else .next ((s'.setEng e ((s'.eng e).issued h q r (cost s) i)).stopNow e)
  | _, _ => .next s

/-- Issue the head command of engine `e`. -/
def State.issue (s : State) (e : EngId) (h : CmdHead) (r : Res) (cost : State → Cost)
    (body : State → Except Trap (State × Issued)) : Out :=
  s.issueAs e h r cost body (s.ready e h r (cost s).lat)

/-- The cost of a command that takes no resource and has no landing. -/
def noCost (_ : State) : Cost := {}

/-! ### Completion -/

/-- Mark a token done (R24). -/
def Eng.complete (g : Eng) (seq : Nat) : Eng :=
  { g with toks := g.toks.map fun t => if t.seq = seq then { t with done := true } else t }

/-- END's token completes when every earlier command of the stream has completed (R24). -/
def Eng.settle (g : Eng) : Eng :=
  match g.endSeq with
  | some n => if g.flight.isEmpty && g.stopped.isNone then g.complete n else g
  | none => g

/-- IDLE (R32): its token completes at issue, and EXTRA is added to the stamps of all later commands. -/
def execIdle (e : EngId) (h : CmdHead) (extra : BitVec 26) (s : State) : Out :=
  match s.issue e h .none noCost fun s => .ok (s, { instant := true }) with
  | .next s' =>
    if (s'.eng e).seq = (s.eng e).seq then .next s'
    else .next (s'.setEng e { s'.eng e with stamp := wrap48 ((s'.eng e).stamp + extra.toNat) })
  | o => o

/-- The slots that a command word has, for REP's check of ADDR and TID (R33): bit a, b, c. FILL with ZERO has no slot a, WINV
with ALL no slot c (R207, R244). -/
def slotsOf (e : EngId) (w : Word) : Bool × Bool × Bool :=
  match e, opOf w with
  | .matrix, 0x00 => (true, true, true)
  | .matrix, 0x01 => (false, false, true)
  | .matrix, 0x04 => (false, false, !bitOf w.toNat 0)
  | .matrix, 0x0A => (true, false, false)
  | .matrix, n => if n ≤ 0x09 then (true, false, true) else (false, false, false)
  | .flume, 0x01 => (!bitOf w.toNat 0, false, true)
  | .flume, 0x02 => (true, true, true)
  | .flume, 0x03 => (true, true, true)
  | .flume, 0x04 => (true, true, true)
  | .flume, 0x08 => (true, false, false)
  | .flume, 0x09 => (true, false, false)
  | .flume, 0x0A => (true, true, true)
  | .flume, n => if n ≤ 0x07 then (true, false, true) else (false, false, false)
  | .sluice, 0x00 => (true, true, true)
  | .sluice, 0x01 => (true, true, true)
  | .sluice, 0x02 => (true, true, true)
  | .sluice, 0x05 => (true, true, true)
  | .sluice, 0x09 => (true, false, false)
  | .sluice, n => if n ≤ 0x08 then (true, false, true) else (false, false, false)

/-- A body word that REP refuses: REP or END, or stepping a slot that the command does not have (R33). -/
def bodyBad (e : EngId) (addr tid : BitVec 3) (w : Word) : Bool :=
  let op := opOf w
  let (a, b, c) := slotsOf e w
  let step (i : Nat) : Bool := maskBit addr i || maskBit tid i
  op == 0x71 || op == 0x73 || (step 0 && !a) || (step 1 && !b) || (step 2 && !c)

/-- REP (R33): it issues once its body stands in the queue; ILLEGAL on a bad body word, FETCH-BOUNDS where the region
ends before the body does. -/
def execRep (e : EngId) (h : CmdHead) (body : BitVec 4) (countm1 : BitVec 12) (addr tid wstep : BitVec 3)
    (s : State) : Out :=
  let g := s.eng e
  let b := body.toNat
  let at_ := (g.head.map (·.pc)).getD 0
  match s.ready e h .none 0 with
  | .go =>
    if g.rhi < at_ + 8 + 8 * b then
      .next (s.takeFault (.engine e) { code := .fetchBounds, addr := some g.rhi } (BitVec.ofNat 64 g.rhi) 0 g.seq)
    else if g.queue.length < b + 1 then
      if g.strict then .next (s.failAt e { code := .overrun }) else .next s
    else if ((g.queue.drop 1).take b).any fun q => bodyBad e addr tid q.word then
      .next (s.failAt e { code := .illegal })
    else
      match s.issue e h .none noCost fun s => .ok (s, { instant := true }) with
      | .next s' =>
        .next (s'.setEng e { s'.eng e with
          rep := some ⟨b, countm1.toNat + 1, 0, 0, addr, tid, wstep⟩ })
      | o => o
  | .trap c => .next (s.failAt e { code := c })
  | .wait => .next s

/-- Cycles until the last earlier access in a named class performs (R34). -/
def Eng.fenceLat (g : Eng) (classes : Nat) : Nat :=
  (g.flight.filter fun f => f.cls &&& classes != 0).foldl (fun m f => max m (f.land - g.cnt)) 0

/-- EFENCE (R34): in a timed frame SCOPE must be core, and the token completes when the last earlier access in a named
class performs; in an elastic frame later commands are held until then. Reads have performed at their commands' issue,
so that only landings still hold it. A mask of zero only produces a token, as IDLE with EXTRA = 0
does, whatever its SCOPE (log entry 78). -/
def execEfence (e : EngId) (h : CmdHead) (classes : BitVec 16) (scope : BitVec 3) (s : State) : Out :=
  let g := s.eng e
  match s.issue e h .none (fun s => { lat := (s.eng e).fenceLat classes.toNat }) fun s =>
      if classes = 0 then .ok (s, { instant := true })
      else if g.strict && scope.toNat ≠ 0 then .error { code := .timedState }
      else .ok (s, { op := .fence classes.toNat }) with
  | .next s' =>
    if (s'.eng e).seq = g.seq || g.strict || classes = 0 then .next s'
    else .next (s'.setEng e { s'.eng e with hold := some g.seq })
  | o => o

/-- END (R35): the stream has ended; the sequencer fetches nothing more; the token completes when every earlier command
has (R24). -/
def execEndStream (e : EngId) (h : CmdHead) (s : State) : Out :=
  let g := s.eng e
  match s.issue e h .none noCost fun s => .ok (s, { instant := true }) with
  | .next s' =>
    let g' := s'.eng e
    if g'.seq = g.seq then .next s'
    else
      .next (s'.setEng e (Eng.settle { g' with
        running := false, ended := true, endSeq := some g.seq, queue := []
        toks := g'.toks.map fun t => if t.seq = g.seq then { t with done := false } else t }))
  | o => o

/-- CANCELLED_AT_HEAD (R29): a command whose wait resolves to a cancelled token does not issue; its own token completes
with the cancelled flag, in an elastic frame as soon as it is at the head, in a timed frame at its stamp. The stamps of
later commands count it like any other (R17). A cancelled END ends the stream. -/
def execCancelledAtHead (e : EngId) (s : State) : Out :=
  let g := s.eng e
  match g.head with
  | none => .next s
  | some q =>
    let h := headAt q.word.toNat
    let S := g.nextStamp h.idle.toNat
    if s.mayIssue e && s.task.resolveAll e S g.seq (g.waits h) = .cancelled
        && (if g.strict then decide (S ≤ g.cnt) else s.task.headSlot e) then
      let g' := { g.pop with
        seq := wrap48 (g.seq + 1), stamp := stampAfter q.word S, can := true
        toks := ⟨g.seq, S, true, true⟩ :: g.toks }
      let g' := if opOf q.word == 0x73 then
          { g' with running := false, ended := true, endSeq := some g.seq, queue := [] } else g'
      .next (s.setEng e g'.settle)
    else .next s

/-! ### Fetching (R13, R35, R36) -/

/-- The code region of a stream address (R36). -/
def State.streamRegion (s : State) (va : Nat) : Option (Nat × Nat) :=
  match locate va with
  | .window .reg _ => some (va, 0xFF80000000040000)
  | .window .scr _ => some (va, 0xFF80000001200000)
  | .virt => s.regionOf s.task.part va false
  | _ => none

/-- How many commands stand between the last issued one and the end of the queue, every REP pass counted (R24). -/
def Eng.pending (g : Eng) : Nat := (g.upcoming (2 ^ 64)).1

/-- What the last REP of some queued words still lacks of its body, and whether an END outside a body stands among them
(R33). -/
def scanBody : Nat → List Word → Bool × Bool
  | 0, _ => (false, false)
  | _, [] => (false, false)
  | fuel + 1, w :: t =>
    if opOf w == 0x71 then
      let b := fld w.toNat 22 4
      if t.length < b then (true, false) else scanBody fuel (t.drop b)
    else
      let (lacks, ended) := scanBody fuel t
      (lacks, ended || opOf w == 0x73)

/-- Body words that a queued REP still expects, and whether END has been fetched (R33, R35). -/
def Eng.bodyAndEnd (g : Eng) : Bool × Bool :=
  let ws := g.queue.map (·.word)
  match g.rep with
  | some r => if ws.length < r.body then (true, false) else scanBody 17 (ws.drop r.body)
  | none => scanBody 17 ws

/-- Body words that a queued REP still expects (R33). -/
def Eng.bodyWanted (g : Eng) : Bool := g.bodyAndEnd.1

/-- The sequencer reads the next word of the stream, if the queue has room for it (R13). The body of a REP is fetched whole,
whatever it holds (R33). -/
def State.canFetch (s : State) (e : EngId) : Bool :=
  let g := s.eng e
  g.running && !s.task.parkAll && s.cur.released && (!s.task.saving || g.timed) && g.queue.length < 16 && !g.bodyAndEnd.2

/-- The next word may enter the queue: its token slot is free (R25); the words of a body take their slots pass by pass. -/
def Task.admits (t : Task) (e : EngId) (w : Word) : Bool :=
  let g := t.eng e
  g.bodyWanted || t.slotOpen e (g.seq + g.pending) (stampOf w (g.scan (2 ^ 64)).1)

/-- The next word of a stream: the one that the sequencer has read already, or a fetch. -/
def State.nextWord (s : State) (e : EngId) : Except Trap Nat × State :=
  match (s.eng e).peek with
  | some w => (.ok w.toNat, s)
  | none => s.vread (s.eng e).pc .fetch 8

/-- The word that the sequencer is to fetch is the next to be executed, as itself or for the body of a REP that is to issue
(R33, R313). -/
def State.fetchesNext (s : State) (e : EngId) : Bool :=
  let g := s.eng e
  g.started && match g.queue.head? with
    | none => true
    | some q => g.rep.isNone && opOf q.word == 0x71 && g.bodyWanted && s.ready e (headAt q.word.toNat) .none 0 == .go

/-- The fault of a stream whose next word lies outside its region: NOT-PRESENT where FORK named an address at which nothing is
(R74), FETCH-BOUNDS otherwise (R35, R36). -/
def Eng.outside (g : Eng) : Trap :=
  { code := if g.rhi < g.rlo && locate g.pc == .none then .notPresent else .fetchBounds, addr := some g.pc }

/-- SEQUENCER_FETCH (R13): the next word of the stream enters the queue as soon as its token slot is free (R25). A fetch outside
the region, or one that R81 refuses, raises its fault only where that word is the next to be executed (R35, R313). -/
def execSequencerFetch (e : EngId) (s : State) : Out :=
  let g := s.eng e
  if s.canFetch e then
    if g.rlo ≤ g.pc && g.pc + 8 ≤ g.rhi then
      match s.nextWord e with
      | (.ok n, u) =>
        let w : Word := BitVec.ofNat 64 n
        if s.task.admits e w then
          .next (u.setEng e { u.eng e with queue := g.queue ++ [⟨g.pc, w⟩], pc := g.pc + 8, peek := none })
        else .next (u.setEng e { u.eng e with peek := some w })
      | (.error tr, u) =>
        if s.fetchesNext e then .next (u.takeFault (.engine e) tr (BitVec.ofNat 64 g.pc) 0 g.seq) else .next u
    else if g.queue.isEmpty && g.started then .next (s.takeFault (.engine e) g.outside (BitVec.ofNat 64 g.pc) 0 g.seq)
    else .next s
  else .next s

/-- In a timed frame a command that is not in its queue at its stamp raises OVERRUN there (R19): the next word of the
stream, whose stamp has come while the queue is empty. -/
def State.overdue (s : State) (e : EngId) : Out :=
  let g := s.eng e
  if g.strict && g.running && s.mayIssue e && g.rlo ≤ g.pc && g.pc + 8 ≤ g.rhi then
    match s.nextWord e with
    | (.ok w, _) =>
      if g.nextStamp (idleOf (BitVec.ofNat 64 w)) ≤ g.cnt then
        .next (s.takeFault (.engine e) { code := .overrun } (BitVec.ofNat 64 g.pc) (BitVec.ofNat 64 w) g.seq)
      else .next s
    | (.error _, _) => .next s
  else .next s

/-- FRAME_START (R16): 64 cycles after FORK and the weir's deferral (R326, R327), the engine's frame counter starts from 0. -/
def execFrameStart (e : EngId) (s : State) : Out :=
  let g := s.eng e
  if g.running && !g.started && g.countdown = 0 && !s.task.parkAll && !s.task.saving then
    .next (s.setEng e { g with started := true, cnt := 0 })
  else .next s

/-! ### FORK, JOIN, TWAIT, QCANCEL -/

/-- An engine's part of the JOIN report (R167): its flags, which a launch image or an edit can set before its first frame too (R166),
whether a frame of it ran, and that frame's mode. -/
def Eng.report (e : EngId) (g : Eng) : Nat :=
  (b2n g.sat * 8 + b2n g.nan * 4 + b2n g.can * 2 + b2n g.ran) * 2 ^ (4 * e.num)
    + if g.ran then b2n g.degr * 2 ^ 12 + b2n g.timed * 2 ^ 13 else 0

/-- The part of an engine that a JOIN reports: that of its frame, if it ran one (R167; log entry 89). -/
def Eng.joins (e : EngId) (g : Eng) : Word := if g.ran then BitVec.ofNat 64 (g.report e) else 0

/-- The JOIN report of the frames that have not been joined (R167). -/
def Task.report (t : Task) : Word :=
  t.ctl.pending ||| t.m.joins .matrix ||| t.f.joins .flume ||| t.s.joins .sluice

/-- The D of the weir for this core's die (R326, R327). -/
def State.weirD (s : State) : Nat := spGet 0 s.weir (dieOf s.cur.pcore)

/-- Start one engine's stream (R16, R166). -/
def Eng.start (g : Eng) (fid : Nat) (mask : BitVec 3) (timed : Bool) (addr : Nat) (region : Nat × Nat) (wait : Nat) :
    Eng :=
  { Eng.idle with
    fid, mask, timed, countdown := wait, running := true, forked := true, pc := addr, rlo := region.1
    rhi := region.2, ran := true, past := if g.forked then (g.fid, g.toks) :: g.past else g.past
    tag := g.tag, restart := g.restart }

/-- The engine and address pairs that a FORK enables (R166). -/
def forkList (fn : BitVec 4) (m f sl : Word) : List (EngId × Nat) :=
  (if fn.getLsbD 0 then [(.matrix, m.toNat)] else []) ++ (if fn.getLsbD 1 then [(.flume, f.toNat)] else [])
    ++ (if fn.getLsbD 2 then [(.sluice, sl.toNat)] else [])

/-- Is an address in the register-space or the scratchpad window (R21)? -/
def inStreamWindow (va : Nat) : Bool :=
  match locate va with
  | .window .reg _ => true
  | .window .scr _ => true
  | _ => false

/-- A FORK stalls while an enabled engine is busy, a timed one while any is, and an elastic one while a timed frame has
not ended (R16). -/
def Task.forkStalls (t : Task) (fn : BitVec 4) : Bool :=
  let timed := fn.getLsbD 3
  engines.any fun e => !(t.eng e).quiet && (timed || fn.getLsbD e.num || (t.ctl.timedOpen && (t.eng e).timed))

/-- FORK (R166). Where several of its addresses are misaligned, or outside the windows for a timed frame, the record carries the
first in engine order (log entry 10). -/
def execFork (q : Qual) (d a b : BitVec 5) (fn : BitVec 4) (s : State) : Out :=
  s.qualified q fun s =>
    let timed := fn.getLsbD 3
    let list := forkList fn (s.getG a) (s.getG b) (s.getG d)
    match list.find? fun p => p.2 % 8 != 0 with
    | some p => s.fail { code := .align, addr := some p.2 }
    | none =>
      match list.find? fun p => timed && !inStreamWindow p.2 with
      | some p => s.fail { code := .timedState, addr := some p.2 }
      | none =>
        if s.task.forkStalls fn then s.wait
        else
          let fid := s.task.fidNext
          let mask : BitVec 3 := fn.truncate 3
          let wait := 64 + s.weirD
          let t := list.foldl (fun (t : Task) p =>
            let g := t.eng p.1
            let t := { t with ctl := { t.ctl with pending := t.ctl.pending ||| BitVec.ofNat 64 (g.report p.1) } }
            t.setEng p.1 (g.start fid mask timed p.2 ((s.streamRegion p.2).getD (1, 0)) wait)) s.task
          (s.withTask { t with
            fidNext := fid + 1
            ctl := { t.ctl with frame := true, timed := timed, degr := false, framecnt := 0, frameEng := fid } }).retire

/-- Every engine of the task after a JOIN: the flags of its frame are reported and no longer pending; those of an engine that ran
none stay for its next FORK (R166, R167; log entry 89). -/
def Eng.joined (g : Eng) : Eng :=
  if g.ran then { g with ran := false, nan := false, sat := false, can := false, past := [] } else { g with past := [] }

/-- The task after a JOIN: the pending report is cleared and no frame is open (R167). -/
def Task.joined (t : Task) : Task :=
  { t with m := t.m.joined, f := t.f.joined, s := t.s.joined, ctl := { t.ctl with pending := 0, frame := false } }

/-- JOIN (R167): waits for the end of every frame since the previous JOIN, then writes the report. -/
def execJoin (q : Qual) (d : BitVec 5) (s : State) : Out :=
  s.qualified q fun s =>
    if s.task.framesDone then ((s.withTask s.task.joined).setG d s.task.report).retire else s.wait

/-- What TWAIT learns of command `n` of an engine (R168): none while it must wait. -/
def Eng.twait (g : Eng) (n : Nat) : Option Nat :=
  if !g.forked then some 4
  else
    match g.toks.find? fun t => t.seq == n with
    | some t => if t.done then some (if t.can then 2 else 0) else none
    | none =>
      if n < g.seq then some 0
      else if g.cut then some 2
      else if g.ended then
        match g.toks.find? fun t => some t.seq == g.endSeq with
        | some t => if t.done then some 4 else none
        | none => some 4
      else none

/-- TWAIT (R168). -/
def execTwait (q : Qual) (d a : BitVec 5) (eng : BitVec 2) (seq20 : BitVec 20) (s : State) : Out :=
  s.qualified q fun s =>
    match EngId.ofNum eng.toNat with
    | none => s.fail { code := .illegal }
    | some e =>
      match (s.eng e).twait (s.getG a + seq20.zeroExtend 64).toNat with
      | some v => (s.setG d (BitVec.ofNat 64 v)).retire
      | none => s.wait

/-- The stamps of a run of words after stamp `st`, and the last one with its EXTRA. -/
def stampWords : List Word → Nat → List Nat × Nat
  | [], st => ([], st)
  | w :: t, st =>
    let st' := stampOf w st
    let (ss, last) := stampWords t (stampAfter w st')
    (st' :: ss, last)

/-- The stamps of `k` passes of a body. -/
def stampPasses (body : List Word) : Nat → Nat → List Nat × Nat
  | 0, st => ([], st)
  | k + 1, st =>
    let (ss, st) := stampWords body st
    let (ts, st) := stampPasses body k st
    (ss ++ ts, st)

/-- The stamps of queued words with the passes of their REPs. -/
def stampQueue : Nat → List Word → Nat → List Nat
  | 0, _, _ => []
  | _, [], _ => []
  | fuel + 1, w :: t, st =>
    let (ss, st) := stampWords [w] st
    if opOf w == 0x71 then
      let b := fld w.toNat 22 4
      let (ts, st) := stampPasses (t.take b) (if t.length < b then 1 else fld w.toNat 10 12 + 1) st
      ss ++ ts ++ stampQueue fuel (t.drop b) st
    else ss ++ stampQueue fuel t st

/-- The stamps of every unissued command that the queue holds. -/
def Eng.stamps (g : Eng) : List Nat :=
  let ws := g.queue.map (·.word)
  match g.rep with
  | none => stampQueue (ws.length + 1) ws g.stamp
  | some r =>
    let (ss, st) := stampWords ((ws.take r.body).drop r.pos) g.stamp
    let (ts, st) := stampPasses (ws.take r.body) (r.count - r.pass - 1) st
    ss ++ ts ++ stampQueue (ws.length + 1) (ws.drop r.body) st

/-- Cancel one stream (R28): the queue, REP and the rest of the stream are discarded, and the tokens of what the queue
held complete with the cancelled flag, END's among them; issued commands finish. -/
def Eng.cancel (g : Eng) : Eng :=
  if g.running then
    let ss := g.stamps
    let last := g.queue.any fun q => opOf q.word == 0x73
    { g with
      running := false, can := true, queue := [], peek := none, rep := none, ended := last
      endSeq := if last then some (g.seq + ss.length - 1) else none
      toks := ((numbered g.seq ss).map fun p => (⟨p.1, p.2, true, true⟩ : Tok)).reverse ++ g.toks
      seq := wrap48 (g.seq + ss.length) }
  else g

/-- QCANCEL (R169). -/
def execQcancel (q : Qual) (mask : BitVec 3) (s : State) : Out :=
  s.qualified q fun s =>
    (s.withTask (engines.foldl (fun (t : Task) e =>
      if mask.getLsbD e.num then t.setEng e (t.eng e).cancel else t) s.task)).retire

end Sys2Proof.Machine
end

