-- ==== Sys2Proof/Machine/Commands.lean ====
section
/-! DEFINITION. What every command shares: its slots and their checks (R197, R198, R232, R233, R262, R263), the state in
which its sources are read (R20, R23), its translations, and the landing of its effects (R20, R24, COMMAND_LANDS). -/

namespace Sys2Proof.Machine

/-- Raise `c` if `b`. -/
def need (c : Code) (b : Bool) : Except Trap Unit := if b then .error { code := c } else .ok ()

/-- The view of a slot of the head command of engine `e`: TACK for a number above 63 after REP stepping; the base steps by
the pass stride of the entry that the word names (R33). -/
def State.slotView (s : State) (e : EngId) (slot : Nat) (tid : BitVec 6) : Except Trap View :=
  let g := s.eng e
  let n := g.stepTid slot tid
  if 63 < n then .error { code := .tack }
  else
    .ok ⟨s.task.entry n, (g.stepPass slot : Int) * (s.task.entry tid.toNat).passStride⟩

/-- The views of the slots whose tack numbers exist: what TIMED-STATE is judged by, which stands before TACK (R198,
R233, R263). -/
def State.peek (s : State) (e : EngId) (slots : List (Nat × BitVec 6)) : List View :=
  slots.filterMap fun p =>
    match s.slotView e p.1 p.2 with
    | .ok v => some v
    | .error _ => none

/-- The view of a slot whatever its checks say: what a command's cost is computed from. -/
def State.slotOr (s : State) (e : EngId) (slot : Nat) (tid : BitVec 6) : View :=
  match s.slotView e slot tid with
  | .ok v => v
  | .error _ => View.none_

/-- The entries that a command names through a view (R54): the view's, its scale entry, a generator's source with its own
scale entry. -/
def State.named (s : State) (v : View) : List Entry :=
  let scaled (t : Entry) : List Entry := t :: if t.sen then [s.task.entry t.stid] else []
  scaled v.t ++ if v.t.kind == 6 then scaled (s.task.entry (ef v.t.w1 0 6)) else []

/-- A command of the matrix engine or the sluice names a MEM entry: TIMED-STATE in a timed frame (R84). -/
def State.namesMem (s : State) (vs : List View) : Bool := vs.any fun v => (s.named v).any fun t => t.kind == 3

/-- A REMOTE entry names a launch core outside the launch (R75). -/
def State.remoteGone (s : State) (t : Entry) : Bool := t.kind == 8 && decide (s.task.extent ≤ t.core)

/-- NOT-PRESENT of a view in such a core's scratchpad, with the window address of its first byte (R75, R306). -/
def State.gone (s : State) (v : View) : Option Trap :=
  if s.remoteGone v.t then some { code := .notPresent, addr := v.t.space.window (v.line 0).toNat } else none

/-- The tack number of a slot after stepping. -/
def State.slotTid (s : State) (e : EngId) (slot : Nat) (tid : BitVec 6) : Nat := (s.eng e).stepTid slot tid

/-- The scale entry of a view (R42). -/
def State.scaleOf (s : State) (v : View) : Entry := s.task.entry v.t.stid

/-- TACK of the scale entry of `t`, if it has scales: it must be REG, SCRATCH or MEM, plain, and sound (R42; log
entry 88). -/
def State.scaleTack (s : State) (t : Entry) : Bool :=
  let sc := s.task.entry t.stid
  t.sen && (!([1, 2, 3].contains sc.kind) || sc.tackBad || sc.furrowed || sc.laneMod != 0)

/-- FORMAT of the scale entry of `t`: its own code, or one that is not SFMT (R58, R72). -/
def State.scaleFormat (s : State) (t : Entry) : Bool :=
  let sc := s.task.entry t.stid
  t.sen && (sc.formatBad || sc.fmtCode != t.sfmt)

/-- GEOMETRY of the scale entry of `t`: its size and its walk (R43, R72). -/
def State.scaleWalk (s : State) (t : Entry) : Bool :=
  let sc := s.task.entry t.stid
  t.sen && (scaleShort t sc || (View.mk sc 0).walkBad)

/-- TACK of a plain slot: a kind that the slot refuses, a failed check of the entry, WR = 0 on a written slot, a furrow or
a lane modifier (R197, R232, R262), or a scale entry that is refused. -/
def State.slotTack (s : State) (v : View) (kinds : List Nat) (written : Bool) : Bool :=
  !kinds.contains v.t.kind || v.t.tackBad || (written && !v.t.wr) || v.t.furrowed || v.t.laneMod != 0 || s.scaleTack v.t

/-- An accumulator slot: KIND REG with ACC = 1, written (R197). -/
def State.accTack (s : State) (v : View) (written : Bool) : Bool := s.slotTack v [1] written || !v.t.acc

/-- FORMAT of a slot: its own code and its scale entry's (R58, R72). -/
def State.slotFormat (s : State) (v : View) : Bool := v.t.formatBad || s.scaleFormat v.t

/-- GEOMETRY of a slot: its walk and its scale entry's (R43, R72). -/
def State.slotWalk (s : State) (v : View) : Bool := v.walkBad || s.scaleWalk v.t

/-- An index list's format: INT4, UINT4, INT8, UINT8, INT16 or INT32 (R232). -/
def Entry.indexFormat (t : Entry) : Bool := t.fmtCode ≤ 5

/-! ### Sources as they stand at issue (R20, R23) -/

/-- The state in which a command reads its sources. Of its own task's commands it finds in a timed frame exactly what has landed
(R20), in an elastic frame in each granule the old or the new bytes (R23). Of what other cores' engines are still to write in
memory and in the scratchpads of the launch it finds each container old or new (R88). -/
def State.asRead (s : State) (e : EngId) : State :=
  let lid := s.task.lid
  let s := if (s.eng e).strict then s else s.showAt (fun _ _ => true) fun _ _ a => a / 64
  (s.rest.filter Core.inFlight).foldl (fun s c => s.onCore c.pcore fun s =>
    s.showAt (fun sp _ => sp == .mem || (s.task.lid == lid && (sp == .scr || sp.remote))) Flight.container) s

/-- The state as an MMA finds its accumulator: every earlier accumulator write of the matrix engine has been applied, in
issue order (R190). -/
def State.forwarded (r : State) : State :=
  (r.task.m.flight.filter (·.acc)).foldl (fun r f => r.perform true f.writes f.flags) r

/-! ### Translations of a command (R81, R84) -/

/-- A run of bytes that a command reads or writes in an entry's store. -/
structure Run where
  t : Entry
  store : Bool
  a : Int
  n : Nat
  deriving DecidableEq, Repr

/-- The 64 KiB pages that a run in memory touches. -/
def Run.pages (r : Run) : List Nat :=
  if r.t.kind == 3 && r.n != 0 then
    let a := wrapVa r.a
    (List.range ((a + r.n - 1) / 2 ^ 16 - a / 2 ^ 16 + 1)).map fun j => (a / 2 ^ 16 + j) % 2 ^ 48
  else []

/-- The lines of a view as runs (R43, R65). -/
def View.runs (v : View) (store : Bool) : List Run :=
  let (n, m) := v.lines
  (List.range n).map fun i => ⟨v.t, store, v.line i, lineBytes m v.w⟩

/-- The pages of several runs, each once. -/
def pagesOf (rs : List Run) : List Nat := (rs.flatMap Run.pages).eraseDups

/-- The 64 KiB pages that the lines of a MEM view touch. -/
def View.pages (v : View) : List Nat := if v.t.kind == 3 then pagesOf (v.runs false) else []

/-- Translate one page of a MEM walk: by the walk, and by an older translation that is still held (R83). A page in the window
region raises PERMISSION (R74). -/
def State.mapPage (s : State) (k : Acc) (timed : Bool) (page : Nat) : PageRes × State :=
  let va := page * 2 ^ 16
  if va < 2 ^ 56 then
    let l := s.walk va
    let r : PageRes := ⟨s.judge va k timed l, (s.oldLeaf va).map fun l => s.judge va k timed (.ok l), s.fresh⟩
    let s := if r.old.isSome then { s with fresh := s.fresh + 2 ^ 14 } else s
    (r, match l, r.cur with
      | .ok l, .ok _ => s.noteTlb va l
      | _, _ => s)
  else (⟨.error (if 0xFF00000000000000 ≤ va then .permission else .notPresent), none, 0⟩, s)

/-- Translate a list of pages, each once. -/
def State.mapPages (s : State) (k : Acc) (timed : Bool) : List Nat → PageMap × State
  | [] => ([], s)
  | p :: t =>
    let (r, s) := s.mapPage k timed p
    let (m, s) := s.mapPages k timed t
    ((p, r) :: m, s)

/-- The first fault among the accesses to the bytes `lo` to `hi` of a page, with its address. -/
def PageMap.faultIn (p : PageMap) (lo hi : Nat) : Option Trap :=
  let at_ (a : Nat) : Option Trap := match p.find a with
    | .ok _ => none
    | .error c => some { code := c, addr := some a }
  if p.any fun e => e.1 == lo / 2 ^ 16 && e.2.old.isSome then
    (List.range (hi / 4 + 1 - lo / 4)).findSome? fun k => at_ (max lo (4 * (lo / 4 + k)))
  else at_ lo

/-- The faults of a run's pages, each with the address of its first failing byte (R81). -/
def Run.faults (p : PageMap) (r : Run) : List Trap :=
  let a := wrapVa r.a
  let z := wrapVa (r.a + r.n - 1)
  r.pages.filterMap fun k =>
    p.faultIn (if k == a / 2 ^ 16 then a else k * 2 ^ 16) (if k == z / 2 ^ 16 then z else k * 2 ^ 16 + 65535)

/-- The fault of a walk that is checked whole: in R81's order over all of its pages, TIMED-TRANSLATION last (R233). -/
def firstFault (fs : List Trap) : Option Trap :=
  match fs.find? fun f => f.code == .notPresent with
  | some f => some f
  | none =>
    match fs.find? fun f => f.code == .permission with
    | some f => some f
    | none => fs.head?

/-- The fault of the lines of several views, with their pages translated. -/
def PageMap.faultOf (p : PageMap) (vs : List View) : Option Trap :=
  firstFault ((vs.filter fun v => v.t.kind == 3).flatMap fun v => (v.runs false).flatMap (Run.faults p))

/-- A read of the view would meet an uncorrectable error (R308). -/
def Env.badView (env : Env) (v : View) : Option Trap :=
  let (n, m) := v.lines
  if env.s.sound then none else (List.range n).findSome? fun i => env.badRun v.t (v.line i) (lineBytes m v.w)

/-- Fail with a fault if there is one. -/
def failIf (t : Option Trap) : Except Trap Unit :=
  match t with
  | some tr => .error tr
  | none => .ok ()

/-! ### Landing (R20, R24, R190, R205) -/

/-- The container of a flight's written entries in bytes (R43, R88). -/
def contOf (vs : List View) : Nat := (vs.map fun v => v.t.fmt.container).foldl min 4

/-- Set RANGE of the GEN entries whose rows were out of range (R50). -/
def Task.setRanges (t : Task) (tids : List Nat) : Task :=
  tids.foldl (fun t n => t.setTword n 0 (t.tword n 0 ||| 8)) t

end Sys2Proof.Machine
end

