-- ==== Sys2Proof/Machine/Matrix.lean ====
section
/-! DEFINITION. The commands of the matrix engine but for its drain: MMA, ACCZ, ACCCP, WFILL, WINV, PART, RANK, TOPK and
MSEED (R182 to R210). -/

namespace Sys2Proof.Machine

/-! ### Pass classes and semirings (R182 to R188) -/

/-- The multiplier class of an operand format: 4, 8, 16 or 32; none where it is no numeric operand (R57, R183). -/
def multClass (code : Nat) (F : Fmt) : Option Nat :=
  match code with
  | 0x05 => none
  | 0x0D => none
  | 0x20 => none
  | 0x30 => none
  | 0x31 => none
  | _ => some (if F.width ≤ 4 then 4 else if F.width ≤ 8 then 8 else if F.width ≤ 16 then 16 else 32)

/-- Pass depth of a numeric class (R182). -/
def depthOf (cls : Nat) : Nat := match cls with | 32 => 32 | 16 => 128 | 8 => 256 | _ => 512

/-- The sum of the terms truncated to multiples of 2 ^ q, as an integer count of them (R185). -/
def truncSum (q : Int) : List Num → Int
  | [] => 0
  | .fin s n d :: t =>
    let (a, b) := scale2 n d (-q)
    signed s (a / b) + truncSum q t
  | _ :: t => truncSum q t

/-- pass_sum of R185. -/
def passSum (ps : List Num) : Num :=
  match ps.find? (·.isNan) with
  | some p => p
  | none =>
    let pos := ps.contains (.inf false)
    let neg := ps.contains (.inf true)
    if pos && neg then .nan qnan
    else if pos then .inf false
    else if neg then .inf true
    else if ps.all (·.isZero) then .fin (ps.all (·.neg)) 0 1
    else
      let e := (ps.filterMap fun p => match p with
        | .fin _ n d => if n == 0 then none else some (floorLog2 n d)
        | _ => none)
      let q := e.foldl max (e.headD 0) - 64
      let v := truncSum q ps
      if v == 0 then .fin false 0 1 else Num.mk2 (v < 0) v.natAbs q

/-- Does `x` order before `y` in −∞ < finite < +∞ < NaN with −0 < +0 (R187)? -/
def maxBefore (x y : Num) : Bool :=
  match x.isNan, y.isNan with
  | true, _ => false
  | false, true => true
  | false, false => x.lt y || (x.isZero && y.isZero && x.neg && !y.neg)

/-- The greatest term, the first of equals (R187). -/
def passMax : List Num → Num
  | [] => .fin false 0 1
  | p :: t => t.foldl (fun m x => if maxBefore m x then x else m) p

/-- An accumulator element: its 32 bits and its two hidden flags. -/
structure AccEl where
  bits : Nat
  fl : Flag
  deriving DecidableEq, Repr

/-- Update an FP32 accumulator element (R185, R187, R189). `plain` says that the single term took no addition. C and S
that are infinities of opposite sign give 0x7FC0_0000 (log entry 79). -/
def accFp32 (mx plain : Bool) (c : AccEl) (terms : List Num) : AccEl :=
  if terms.isEmpty then c
  else
    let S := if mx then passMax terms else passSum terms
    if !c.fl.touched then ⟨rne32 S, ⟨true, terms.length == 1 && plain⟩⟩
    else
      let x := f32 c.bits
      let v :=
        if x.isNan then c.bits
        else if S.isNan then rne32 S
        else if mx then (if maxBefore x S then rne32 S else c.bits)
        else rne32 (x.add S)
      ⟨v, ⟨true, false⟩⟩

/-- Update an INT32 accumulator element (R186, R187). -/
def accInt32 (mx : Bool) (c : AccEl) (terms : List Num) : AccEl :=
  if terms.isEmpty then c
  else
    let old := sgn 32 c.bits
    let v : Int :=
      if mx then
        let m := (passMax terms).toInt
        if c.fl.touched then max old m else m
      else
        let S := (terms.map Num.toInt).foldl (· + ·) 0
        if c.fl.touched then old + S else S
    let out := v < -(2 ^ 31 : Int) || (2 ^ 31 - 1 : Int) < v
    ⟨wrapTo 32 v, ⟨true, c.fl.ovf || out⟩⟩

/-- A term of a pass (R184, R187): in MAX a present generated entry is 0, and the term is the other factor. -/
def term (sem : Semi) (gen intAcc : Bool) (a b : Num) : Num :=
  match sem with
  | .sum => a.mul b
  | .max =>
    if gen then (if a.isZero && !a.neg then b else a)
    else
      match a, b with
      | .nan x, _ => .nan x
      | _, .nan y => .nan y
      | _, _ => if intAcc then a.add b else f32 (rne32 (a.add b))
  | _ => .fin false (if a.isZero || b.isZero then 0 else 1) 1

/-! ### Operands of an MMA (R197 to R201) -/

/-- An operand: stored, a pattern's word, or a generator with its source. -/
inductive Operand where
  | stored (v : View)
  | pattern (w : Word)
  | gen (g src : Entry)
  deriving DecidableEq, Repr

/-- The operand that a view stands for. -/
def State.operand (s : State) (v : View) : Operand :=
  match v.t.kind with
  | 5 => .pattern (s.task.patReg (ef v.t.w1 0 4))
  | 6 => .gen v.t (s.task.entry (ef v.t.w1 0 6))
  | _ => .stored v

/-- Generated operands take the class of the other one (R183). -/
def Operand.generated : Operand → Bool
  | .stored _ => false
  | _ => true

/-- Rows and columns before transposition; a PATTERN's extents come from its word (R329). -/
def Operand.extent : Operand → Nat × Nat
  | .stored v => (v.t.rows, v.t.cols)
  | .pattern w => (patRows w, patCols w)
  | .gen g _ => (g.rows, g.cols)

/-- TACK of an MMA's operand slot (R41, R42, R44 to R46, R52, R197), a generator's source with its scale entry included. -/
def State.operandTack (s : State) (v : View) (kinds : List Nat) (furrow : Bool) : Bool :=
  !kinds.contains v.t.kind || v.t.tackBad || (v.t.furrowed && !furrow) || s.scaleTack v.t
    || (match s.operand v with
        | .gen _ src =>
          !([1, 2, 3, 8].contains src.kind) || src.tackBad || src.furrowed || src.laneMod != 0 || s.scaleTack src
        | _ => false)

/-- FORMAT of an operand on its own: its codes, and a ONEHOT source that is no index list (R50, R58, R72). -/
def State.operandFormat (s : State) (v : View) : Bool :=
  s.slotFormat v
    || (match s.operand v with
        | .gen g src => src.formatBad || s.scaleFormat src || (ef g.w1 8 4 == 0 && !src.indexFormat)
        | _ => false)

/-- Does the operand suit the semiring (R183)? -/
def Operand.suits (o : Operand) (sem : Semi) : Bool :=
  match o with
  | .stored v =>
    match sem with
    | .sum => (multClass v.t.fmtCode v.t.fmt).isSome
    | .max => (multClass v.t.fmtCode v.t.fmt).isSome
    | _ => v.t.fmtCode == 0x20 || v.t.fmtCode == 0x21
  | _ => true

/-- The class of an operand; a generated one has none of its own. -/
def Operand.cls : Operand → Nat
  | .stored v => (multClass v.t.fmtCode v.t.fmt).getD 0
  | _ => 0

/-- A floating operand forbids an INT32 accumulator (R183). -/
def Operand.floating : Operand → Bool
  | .stored v => v.t.fmt.floating
  | _ => false

/-- A BYTE operand counts 8 positions of k for each element in OR and XOR (R59, R200). -/
def Operand.bits (o : Operand) (sem : Semi) : Nat :=
  match o, sem with
  | .stored v, .or => if v.t.fmtCode == 0x21 then 8 else 1
  | .stored v, .xor => if v.t.fmtCode == 0x21 then 8 else 1
  | _, _ => 1

/-- Where the 2:4 values, their metadata and the block-sparse bitmap lie (R193): the offset of the metadata. -/
def View.metaBase (v : View) : Int := (v.t.base : Int) + v.off + (v.t.rows / 2 : Nat) * v.t.rowStride

/-- The 2-bit index of value (h, j) of a 2:4 tile whose metadata starts at `base` (R193). -/
def Env.sparseIdx (env : Env) (v : View) (base : Int) (h j : Nat) : Nat :=
  env.codeAt v.t (8 * (base + (h * ceilDiv v.t.cols 4 : Nat)) + (2 * j : Nat)) 2

/-- Number of blocks and whether block `b` is present in a block-sparse tile (R193). -/
def View.blocks (v : View) : Nat := v.t.rows / 32 * (v.t.cols / 32)

/-- Bit `b` of the occupancy bitmap at `base`. -/
def Env.blockBit (env : Env) (t : Entry) (base : Int) (b : Nat) : Bool := env.codeAt t (8 * base + (b : Int)) 1 == 1

/-- How many of the first `n` blocks are present. -/
def Env.blockRank (env : Env) (t : Entry) (base : Int) : Nat → Nat
  | 0 => 0
  | n + 1 => env.blockRank t base n + b2n (env.blockBit t base n)

/-- Bytes of the bitmap of `nb` blocks (R193). -/
def bitmapBytes (nb : Nat) : Nat := 8 * ceilDiv nb 64

/-- The factor that a code of the view at (i, c) is: code times scale (R72). OR and XOR take the bits of that value where it is
one that the format holds; a scaled value that is none gives free bits (log entry 74). -/
def Env.factor (env : Env) (v : View) (sc : Entry) (sem : Semi) (i c code : Nat) : Num :=
  let x := env.scaled v sc i c code
  if v.t.sen && (sem == .or || sem == .xor) then
    match x.whole.filter fun n => decide ((0 : Int) ≤ n) && decide (n < (2 ^ v.w : Int)) with
    | some _ => x
    | none => .fin false ((Config.freeIndex code (env.scaleCode v sc i c)).toNat % 2 ^ v.w) 1
  else x

/-- The value of stored element (i, c), none where it is a structural zero of a sparse layout (R193). -/
def Env.stored (env : Env) (v : View) (sc : Entry) (sem : Semi) (i c : Nat) : Option Num :=
  match v.t.layout with
  | 2 =>
    let h := 2 * (i / 4)
    let hit (h : Nat) : Option Num :=
      if env.sparseIdx v v.metaBase h c == i % 4 then
        some (env.factor v sc sem i c (env.codeAt v.t (8 * v.line h + (c * v.w : Nat)) v.w))
      else none
    (hit h).orElse fun _ => hit (h + 1)
  | 3 =>
    let base := (v.t.base : Int) + v.off
    let b := i / 32 * (v.t.cols / 32) + c / 32
    if env.blockBit v.t base b then
      let at_ := base + (bitmapBytes v.blocks + env.blockRank v.t base b * 128 * v.w + i % 32 * 4 * v.w : Nat)
      some (env.factor v sc sem i c (env.codeAt v.t (8 * at_ + (c % 32 * v.w : Nat)) v.w))
    else none
  | _ => some (env.factor v sc sem i c (env.code v i c))

/-- Metadata of a 2:4 tile whose indices are not rising (R193); bytes outside the weight buffer count as 0 here (log entry 84). -/
def Env.sparseBad (env : Env) (v : View) : Bool :=
  v.t.layout == 2
    && (List.range (v.t.rows / 4)).any fun g =>
      (List.range v.t.cols).any fun j =>
        env.sparseIdx v v.metaBase (2 * g + 1) j ≤ env.sparseIdx v v.metaBase (2 * g) j

/-- The uncorrectable error in what selects the values of a tile: the metadata of layout 2, the bitmap of layout 3 (R193, R308). -/
def Env.selectorBad (env : Env) (layout : Nat) : Operand → Option Trap
  | .stored v =>
    if v.t.layout != layout then none
    else if layout == 2 && v.t.rows % 4 == 0 then env.badRun v.t v.metaBase (v.t.rows / 2 * ceilDiv v.t.cols 4)
    else if layout == 3 && v.t.rows % 32 == 0 && v.t.cols % 32 == 0 then
      env.badRun v.t ((v.t.base : Int) + v.off) (bitmapBytes v.blocks)
    else none
  | _ => none

/-- The whole extent of a WBUF tile stays in the weight buffer (R193, R206). -/
def Env.tileBad (env : Env) (v : View) : Bool :=
  match v.t.layout with
  | 2 =>
    v.t.rows % 4 != 0
      || v.outside (v.line 0) (lineBytes v.t.cols v.w) || v.outside (v.line (v.t.rows / 2 - 1)) (lineBytes v.t.cols v.w)
      || v.outside v.metaBase (v.t.rows / 2 * ceilDiv v.t.cols 4)
  | 3 =>
    v.t.rows % 32 != 0 || v.t.cols % 32 != 0
      || v.outside ((v.t.base : Int) + v.off)
          (bitmapBytes v.blocks + env.blockRank v.t ((v.t.base : Int) + v.off) v.blocks * 128 * v.w)
  | _ => v.walkBad

/-- Entry (i, k) of an operand before transposition and lane modifier, none where it is a structural zero (R184). -/
def Env.operandAt (env : Env) (o : Operand) (sc gsc : Entry) (sem : Semi) (i k : Nat) : Option Num :=
  match o with
  | .pattern w => patAt sem w i k
  | .gen g src => if genAt env g src gsc i k then some (genOne sem) else none
  | .stored v =>
    if v.t.rows ≤ i || v.t.cols ≤ k then none
    else if v.t.furrowed then
      some (env.factor v sc sem i k (env.codeAt v.t (8 * v.pop i + (k * v.w : Nat)) v.w))
    else env.stored v sc sem i k

/-- Row `i` of A': positions 0 to n − 1 (R46, R200). `lm` is the lane modifier and `g` the positions a lane carries. -/
def Env.rowOf (env : Env) (o : Operand) (sc gsc : Entry) (sem : Semi) (ta : Bool) (ext bits lm g n i : Nat) :
    List (Option Num) :=
  (List.range n).map fun k =>
    let k := if lm == 0 then k else laneSource lm g k
    if ext ≤ k then none
    else
      let e := k / bits
      match if ta then env.operandAt o sc gsc sem e i else env.operandAt o sc gsc sem i e with
      | none => none
      | some x => if bits == 1 then some x else some (.fin false (x.toInt.toNat / 2 ^ (k % 8) % 2) 1)

/-- Column `j` of B': positions 0 to n − 1 of k (R46, R200). -/
def Env.colOf (env : Env) (o : Operand) (sc gsc : Entry) (sem : Semi) (tb : Bool) (N bits lm g n j : Nat) :
    List (Option Num) :=
  let j := if lm == 0 then j else laneSource lm g j
  (List.range n).map fun k =>
    if N ≤ j then none
    else
      let e := k / bits
      match if tb then env.operandAt o sc gsc sem j e else env.operandAt o sc gsc sem e j with
      | none => none
      | some x => if bits == 1 then some x else some (.fin false (x.toInt.toNat / 2 ^ (k % 8) % 2) 1)

/-- The terms of one element: the products for which neither factor is a structural zero, in increasing k (R184). -/
def termsOf (sem : Semi) (gen intAcc : Bool) : List (Option Num) → List (Option Num) → List Num
  | some a :: s, some b :: t => term sem gen intAcc a b :: termsOf sem gen intAcc s t
  | _ :: s, _ :: t => termsOf sem gen intAcc s t
  | _, _ => []

/-- Does a row of a ONEHOT generator have its index out of range (R50)? `sc` is the source's scale entry. -/
def Env.outOfRange (env : Env) (o : Operand) (sc : Entry) : Bool :=
  match o with
  | .gen g src => ef g.w1 8 4 == 0 && (List.range g.rows).any fun i => (oneHotCol env g src sc i).isNone
  | _ => false

/-- GEOMETRY of a generator: more rows than the source has elements, or a RANKCMP that is not square (R52). -/
def Operand.genBad : Operand → Bool
  | .gen g src => src.rows * src.cols < g.rows || (ef g.w1 8 4 == 1 && g.rows != g.cols)
  | _ => false

/-- The furrow's pops leave the store (R44, R198). -/
def View.popsBad (v : View) (m : Nat) : Bool :=
  (List.range m).any fun i => v.outside (v.pop i) (lineBytes v.t.cols v.w)

/-- GEOMETRY of the walk of an operand over M rows. -/
def Env.operandWalkBad (env : Env) (s : State) (o : Operand) (m : Nat) : Bool :=
  match o with
  | .stored v => (if v.t.furrowed then v.popsBad m else env.tileBad v) || s.scaleWalk v.t
  | .gen _ src => s.slotWalk ⟨src, 0⟩
  | .pattern _ => false

/-- The pattern word of an operand breaks R49. -/
def Operand.patternBad (o : Operand) (sem : Semi) : Bool :=
  match o with
  | .pattern w => patBad sem w
  | _ => false

/-- The tack numbers of GEN operands whose RANGE bit the command sets when it lands (R50). -/
def Env.rangeTid (env : Env) (o : Operand) (sc : Entry) (tid : Nat) : List Nat :=
  if env.outOfRange o sc then [tid] else []

/-- A generator's source that another core's scratchpad holds (R52): a remote transfer, TIMED-STATE in a timed frame
(R21). -/
def Operand.remote : Operand → Option Entry
  | .gen _ src => if src.kind == 8 then some src else none
  | _ => none

/-- What reading a view means: its lines and those of its scale entry. -/
def State.readRuns (s : State) (v : View) : List Run :=
  v.runs false ++ if v.t.sen then (View.mk (s.scaleOf v) 0).runs false else []

/-- The bytes of a WBUF tile or of a furrowed entry that an MMA of M rows reads (R44, R193, R206). -/
def Env.tileRuns (env : Env) (v : View) (m : Nat) : List Run :=
  let base := (v.t.base : Int) + v.off
  if v.t.furrowed then (List.range m).map fun i => ⟨v.t, false, v.pop i, lineBytes v.t.cols v.w⟩
  else match v.t.layout with
    | 2 => (List.range (v.t.rows / 2)).map (fun h => ⟨v.t, false, v.line h, lineBytes v.t.cols v.w⟩)
        ++ [⟨v.t, false, v.metaBase, v.t.rows / 2 * ceilDiv v.t.cols 4⟩]
    | 3 => [⟨v.t, false, base, bitmapBytes v.blocks + env.blockRank v.t base v.blocks * 128 * v.w⟩]
    | _ => v.runs false

/-- What reading an operand over M rows means. -/
def Env.operandRuns (env : Env) (s : State) (o : Operand) (m : Nat) : List Run :=
  match o with
  | .stored v => env.tileRuns v m ++ if v.t.sen then (View.mk (s.scaleOf v) 0).runs false else []
  | .gen _ src => s.readRuns ⟨src, 0⟩
  | .pattern _ => []

/-- The environment in which a command reads runs of bytes: a page that faults, and then a byte whose error correction
fails, stops the command before issue (R81, R308). -/
def State.readIn (s : State) (e : EngId) (rs : List Run) : Except Trap (Env × State) := do
  let view := s.elsewhere
  let (pages, s) := s.mapPages .load (s.eng e).strict (pagesOf rs)
  failIf (firstFault (rs.flatMap (Run.faults pages)))
  let env : Env := ⟨view, pages⟩
  failIf (rs.findSome? fun r => env.badRun r.t r.a r.n)
  pure (env, s)

/-- The environment in which a command reads its views whole. -/
def State.readEnv (s : State) (e : EngId) (vs : List View) : Except Trap (Env × State) :=
  let s := s.asRead e
  s.readIn e (vs.flatMap s.readRuns)

/-- The ordering-class mask of the written entries. -/
def classMask (vs : List View) : Nat := (vs.map fun v => 2 ^ v.t.cls).foldl (· ||| ·) 0

/-- The hidden flags of the word at a bit address; of an element across two words, those of the lower (log entry 87). -/
def State.flagAt (r : State) (bit : Int) : Flag := spGet Flag.fresh r.task.flags (bit / 32).toNat

/-- One row of an FP32 or INT32 accumulator (R189): the writes and the flags of columns 0 to N − 1, without a scale of C's own (log
entry 82). -/
def accRow (r : State) (v : View) (int mx plain acc : Bool) (i : Nat) : List (List Num) → Nat →
    List BWrite × List (Nat × Flag)
  | [], _ => ([], [])
  | ts :: rest, j =>
    let bit := v.bitAt i j
    let old : AccEl :=
      if acc then ⟨(Env.mk r []).codeAt v.t bit 32, r.flagAt bit⟩ else ⟨0, ⟨false, false⟩⟩
    let new := if int then accInt32 mx old ts else accFp32 mx plain old ts
    let (ws, fs) := accRow r v int mx plain acc i rest (j + 1)
    if acc && ts.isEmpty then (ws, fs)
    else ((Env.mk r []).put v.t bit 32 new.bits ++ ws, ((bit / 32).toNat, new.fl) :: fs)

/-- The value that a pass gives a BIT element: the OR or the XOR of its terms (R188). -/
def bitPass (xor : Bool) (ts : List Num) : Nat :=
  let ones := (ts.filter fun t => !t.isZero).length
  if xor then ones % 2 else if ones == 0 then 0 else 1

/-- A BIT accumulator over the whole command (R188, R189), its elements given as bit addresses with their terms. Their flags
stand for 32-bit words (R38): a word is touched when an element of it has a term, and the covered bits of an untouched word
count as 0. Bits that the command does not cover keep their value, and with them a word that was touched keeps TOUCHED (R200;
log entry 22). -/
def accBits (r : State) (v : View) (xor acc : Bool) (els : List (Int × List Num)) : List BWrite × List (Nat × Flag) :=
  let word (b : Int) : Nat := (b / 32).toNat
  let flag (w : Nat) : Flag := spGet Flag.fresh r.task.flags w
  let hits := spSetMany false [] ((els.filter fun x => !x.2.isEmpty).map fun x => (word x.1, true))
  let hit (w : Nat) : Bool := spGet false hits w
  let env : Env := ⟨r, []⟩
  let put (x : Int × List Num) : List BWrite :=
    let w := word x.1
    let pass := bitPass xor x.2
    if !acc || (!(flag w).touched && hit w) then env.put v.t x.1 1 pass
    else if x.2.isEmpty then []
    else
      let old := env.codeAt v.t x.1 1
      env.put v.t x.1 1 (if xor then (old + pass) % 2 else max old pass)
  let shared (w : Nat) : Bool := decide ((els.filter fun x => word x.1 == w).length < 32)
  (els.flatMap put,
    if acc then hits.map fun w => (w.1, ⟨true, (flag w.1).ovf⟩)
    else (spSetMany false [] (els.map fun x => (word x.1, true))).map fun w =>
      (w.1, ⟨hit w.1 || ((flag w.1).touched && shared w.1), false⟩))

/-- The bytes of C that an MMA with ACC = 1 uses cannot be read (R198, R308): those of the touched words that it covers. -/
def State.accBad (r : State) (v : View) (m n : Nat) : Option Trap :=
  if r.sound then none
  else
    (List.range m).findSome? fun i => (List.range n).findSome? fun j =>
      let b := v.bitAt i j
      if (r.flagAt b).touched then (Env.mk r []).badRun v.t (b / 8) (ceilDiv v.w 8) else none

/-- M, Ka, Kb and N of R200: the extents after transposition, in positions of k for BYTE operands of OR and XOR. -/
def mmaExtents (oa ob : Operand) (sem : Semi) (ta tb : Bool) : Nat × Nat × Nat × Nat :=
  let (ra, ca) := oa.extent
  let (rb, cb) := ob.extent
  (if ta then ca else ra, (if ta then ra else ca) * oa.bits sem, (if tb then cb else rb) * ob.bits sem,
    if tb then rb else cb)

/-- Occupancy and landing of an MMA (R195). -/
def mmaCost (a b : BitVec 6) (sem : Semi) (ta : Bool) (s : State) : Cost :=
  let vb := s.slotOr .matrix 1 b
  let M := (mmaExtents (s.operand (s.slotOr .matrix 0 a)) (s.operand vb) sem ta false).1
  let port := vb.t.kind == 1 || vb.t.kind == 2
  { occ := max M (if port then 128 else 32), lat := M + (if port then 280 else 150) }

/-- The positions of k and the columns that a pass has (R182, R188). -/
def passDims (oa ob : Operand) (sem : Semi) : Nat × Nat :=
  if sem == .or || sem == .xor then (1024, 1024) else (depthOf (max oa.cls ob.cls), 128)

/-- The scale entry of a generator's source. -/
def Env.genScale (env : Env) (o : Operand) : Entry :=
  match o with | .gen _ src => env.s.task.entry src.stid | _ => View.none_.t

/-- The terms of every element of a pass, row by row, from the rows of A' and the columns of B' (R184, R200). -/
def Env.mmaTerms (env : Env) (oa ob : Operand) (va vb vc : View) (sem : Semi) (ta tb : Bool) : List (List (List Num)) :=
  let (Kp, Np) := passDims oa ob sem
  let (M, Ka, Kb, N) := mmaExtents oa ob sem ta tb
  let lanes (o : Operand) (v : View) : Nat := if o.generated then 0 else v.t.laneMod
  let cols := (List.range N).map fun j =>
    env.colOf ob (env.s.scaleOf vb) (env.genScale ob) sem tb N (ob.bits sem) (lanes ob vb) (max (Np / 128) 1) Kb j
  (List.range M).map fun i =>
    let row := env.rowOf oa (env.s.scaleOf va) (env.genScale oa) sem ta Ka (oa.bits sem) (lanes oa va) (max (Kp / 128) 1)
      Kb i
    cols.map fun col => termsOf sem (oa.generated || ob.generated) (vc.t.fmtCode == 0x05) row col

/-- What a pass leaves in the accumulator that stands in `r`, from the terms of its elements (R185 to R189). -/
def passWrites (r : State) (v : View) (sem : Semi) (gen acc : Bool) (rows : List (List (List Num))) :
    List BWrite × List (Nat × Flag) :=
  if sem == .or || sem == .xor then
    accBits r v (sem == .xor) acc
      ((numbered 0 rows).flatMap fun i => (numbered 0 i.2).map fun j => (v.bitAt i.1 j.1, j.2))
  else
    let out := (numbered 0 rows).map fun i =>
      accRow r v (v.t.fmtCode == 0x05) (sem == .max) (sem == .sum || gen) acc i.1 i.2 0
    (out.flatMap (·.1), out.flatMap (·.2))

/-- MMA (R199 to R201): the checks of R198 in their order, what selects a tile's values before it is used (R308), then one pass for
each row of A'. A generator's source may lie in
memory or with another core (R52): its accesses come last, and one to a core that is not resident is held (R75). The order of a 2:4
tile's indices is judged only where its ROWS are a multiple of 4: otherwise the tile has no groups, and GEOMETRY stands (R193;
DESIGN CHOICE, log entry 119). -/
def mmaBody (a b c : BitVec 6) (sem : Semi) (acc ta tb : Bool) (s : State) : Except Trap (State × Issued) := do
  let strict := (s.eng .matrix).strict
  need .timedState (strict && (s.namesMem (s.peek .matrix [(0, a), (1, b), (2, c)])
    || (s.peek .matrix [(0, a), (1, b)]).any fun v => (s.operand v).remote.isSome))
  let va ← s.slotView .matrix 0 a
  let vb ← s.slotView .matrix 1 b
  let vc ← s.slotView .matrix 2 c
  let oa := s.operand va
  let ob := s.operand vb
  need .tack (s.operandTack va [1, 2, 5, 6] true || s.operandTack vb [1, 2, 4, 5, 6] false || s.accTack vc true
    || (oa.generated && ob.generated) || (va.t.furrowed && ta) || (vb.t.layout == 2 && tb))
  let s := s.asRead .matrix
  let env : Env := ⟨s, []⟩
  let bitSem := sem == .or || sem == .xor
  let gen := oa.generated || ob.generated
  need .format (s.operandFormat va || s.operandFormat vb || s.slotFormat vc || !oa.suits sem || !ob.suits sem
    || (if bitSem then vc.t.fmtCode != 0x20
        else !(vc.t.fmtCode == 0x12 || (vc.t.fmtCode == 0x05 && !oa.floating && !ob.floating))))
  failIf (env.selectorBad 2 ob)
  need .format (match ob with | .stored v => v.t.rows % 4 == 0 && env.sparseBad v | _ => false)
  need .pattern (oa.patternBad sem || ob.patternBad sem)
  let (Kp, Np) := passDims oa ob sem
  let (M, Ka, Kb, N) := mmaExtents oa ob sem ta tb
  need .geometry (4096 < M || Kp < Ka || Kp < Kb || Np < N || vc.t.rows < M || vc.t.cols < N || oa.genBad || ob.genBad)
  failIf ((env.selectorBad 3 oa).or (env.selectorBad 3 ob))
  need .geometry (env.operandWalkBad s oa M || env.operandWalkBad s ob M || s.slotWalk vc)
  let far := oa.remote.toList ++ ob.remote.toList
  failIf (far.findSome? fun t => s.gone ⟨t, 0⟩)
  if far.any fun t => !s.reachable t.core then pure (s, { held := true })
  else
    let (env, s) ← s.readIn .matrix (env.operandRuns s oa M ++ env.operandRuns s ob M)
    let r := env.s.forwarded
    failIf (if acc then r.accBad vc M N else none)
    let out := passWrites r vc sem gen acc (env.mmaTerms oa ob va vb vc sem ta tb)
    pure (s,
      { acc := true, writes := out.1, flags := out.2, cls := classMask [vc]
        ranges := env.rangeTid oa (env.genScale oa) (s.slotTid .matrix 0 a)
          ++ env.rangeTid ob (env.genScale ob) (s.slotTid .matrix 1 b) })

/-- MMA (R199). -/
def execMma (h : CmdHead) (a b c : BitVec 6) (semi : BitVec 2) (acc ta tb : Bool) (s : State) : Out :=
  s.issue .matrix h .a (mmaCost a b (Semi.of semi) ta) (mmaBody a b c (Semi.of semi) acc ta tb)

/-- The 4-byte words that a view's lines cover, wholly or in part, as word numbers of the register space (R202). -/
def View.words (v : View) : List Nat :=
  let (n, m) := v.lines
  (List.range n).flatMap fun i =>
    let lo := (v.line i).toNat
    (List.range ((lo + lineBytes m v.w + 3) / 4 - lo / 4)).map (· + lo / 4)

/-- Occupancy and landing of ACCZ (R202). -/
def acczCost (c : BitVec 6) (s : State) : Cost :=
  let t := (s.slotOr .matrix 2 c).t
  let occ := 8 * ceilDiv (t.rows * 4 * if t.fmtCode == 0x20 then ceilDiv t.cols 32 else t.cols) 65536
  { occ, lat := occ }

/-- What ACCZ checks and does at issue (R202). -/
def acczBody (c : BitVec 6) (s : State) : Except Trap (State × Issued) := do
  need .timedState ((s.eng .matrix).strict && s.namesMem (s.peek .matrix [(2, c)]))
  let vc ← s.slotView .matrix 2 c
  need .tack (s.accTack vc true)
  need .format (s.slotFormat vc)
  need .geometry (s.slotWalk vc)
  let ws := vc.words
  pure (s, { acc := true, writes := ws.flatMap fun w => natWrites .reg (4 * w) 4 0
             flags := ws.map fun w => (w, ⟨false, false⟩), cls := classMask [vc] })

/-- ACCZ (R202). -/
def execAccz (h : CmdHead) (c : BitVec 6) (s : State) : Out :=
  s.issue .matrix h .a (acczCost c) (acczBody c)

/-- Occupancy and landing of the commands that take the drain for the rows of slot a: `extra` cycles after them (R195). -/
def rowsCost (a : BitVec 6) (extra : Nat) (s : State) : Cost :=
  let R := (s.slotOr .matrix 0 a).t.rows
  { occ := R, lat := R + extra }

/-- What ACCCP checks and does at issue (R203); of words that its rows cover in part: log entry 99. -/
def acccpBody (a c : BitVec 6) (zsrc : Bool) (s : State) : Except Trap (State × Issued) := do
  need .timedState ((s.eng .matrix).strict && s.namesMem (s.peek .matrix [(0, a), (2, c)]))
  let va ← s.slotView .matrix 0 a
  let vc ← s.slotView .matrix 2 c
  need .tack (s.accTack va zsrc || s.accTack vc true)
  need .format (s.slotFormat va || s.slotFormat vc || va.t.fmtCode != vc.t.fmtCode)
  need .geometry (va.t.cols != vc.t.cols || 4096 < va.t.rows || vc.t.rows < va.t.rows || s.slotWalk va
    || s.slotWalk vc)
  let (env, s) ← s.readEnv .matrix [va]
  let R := va.t.rows
  let els := (List.range R).flatMap fun i => (List.range va.t.cols).map fun j => (i, j)
  let put := els.flatMap fun p => env.putAt vc p.1 p.2 (env.code va p.1 p.2)
  let flags := els.map fun p => ((vc.bitAt p.1 p.2 / 32).toNat, env.s.flagAt (va.bitAt p.1 p.2))
  let dst := flags.map (·.1)
  let gone := if zsrc then va.words.filter fun w => !dst.contains w else []
  pure (s, { acc := true
             writes := put ++ gone.flatMap fun w => natWrites .reg (4 * w) 4 0
             flags := flags ++ gone.map fun w => (w, ⟨false, false⟩)
             cls := classMask (vc :: if zsrc then [va] else []) })

/-- ACCCP (R203): rows with their hidden flags, read without forwarding (R190); ZSRC clears the rest of the source. -/
def execAcccp (h : CmdHead) (a c : BitVec 6) (zsrc : Bool) (s : State) : Out :=
  s.issue .matrix h .b (rowsCost a 16) (acccpBody a c zsrc)

/-- The image size of a WBUF entry (R206); `base` is where the bitmap of a block-sparse image stands. -/
def Env.imageBytes (env : Env) (v : View) (bitmapIn : Entry) (base : Int) : Nat :=
  let t := v.t
  match t.layout with
  | 0 => (((t.rows : Int) - 1) * t.rowStride).toNat + lineBytes t.cols v.w
  | 1 => (((t.cols : Int) - 1) * t.rowStride).toNat + lineBytes t.rows v.w
  | 2 => t.rows / 2 * (t.rowStride.toNat + ceilDiv t.cols 4)
  | _ => bitmapBytes v.blocks + env.blockRank bitmapIn base v.blocks * 128 * v.w

/-- ROWSTRIDE of a filled entry is positive and at least a line long (R206). -/
def View.strideShort (v : View) : Bool :=
  v.t.layout != 3
    && v.t.rowStride < (max 1 (lineBytes (if v.t.layout == 1 then v.t.rows else v.t.cols) v.w) : Nat)

/-- The shape of a sparse image (R193). -/
def View.sparseShapeBad (v : View) : Bool :=
  (v.t.layout == 2 && v.t.rows % 4 != 0) || (v.t.layout == 3 && (v.t.rows % 32 != 0 || v.t.cols % 32 != 0))

/-- The image size of a WFILL: a block-sparse image is counted by the bitmap in the source (R206). -/
def fillBytes (s : State) (va vc : View) : Nat :=
  let env : Env := ⟨s, []⟩
  let src := (va.t.base : Int) + va.off
  if vc.t.layout == 3 && (env.badRun va.t src (bitmapBytes vc.blocks)).isSome then 0 else env.imageBytes vc va.t src

/-- Occupancy and landing of WFILL (R206). -/
def wfillCost (a c : BitVec 6) (s : State) : Cost :=
  let n := ceilDiv (fillBytes (s.asRead .matrix) (s.slotOr .matrix 0 a) (s.slotOr .matrix 2 c)) 256
  { occ := n, lat := n + 40 }

/-- What WFILL checks and does at issue (R206): its source is a run of bytes, whose format and extents play no part. That a source
which is not row-major raises TACK is the model's (DESIGN CHOICE, log entry 114). -/
def wfillBody (a c : BitVec 6) (s : State) : Except Trap (State × Issued) := do
  need .timedState ((s.eng .matrix).strict && s.namesMem (s.peek .matrix [(0, a), (2, c)]))
  let va ← s.slotView .matrix 0 a
  let vc ← s.slotView .matrix 2 c
  need .tack (s.slotTack va [1, 2] false || va.t.layout != 0 || s.slotTack vc [4] true || vc.strideShort)
  need .format (va.t.formatBad || s.slotFormat vc)
  let src := (va.t.base : Int) + va.off
  let dst := (vc.t.base : Int) + vc.off
  let s := s.asRead .matrix
  let env : Env := ⟨s, []⟩
  need .geometry (vc.sparseShapeBad || (vc.t.layout == 3 && va.outside src (bitmapBytes vc.blocks)))
  failIf (if vc.t.layout == 3 then env.badRun va.t src (bitmapBytes vc.blocks) else none)
  let b := fillBytes s va vc
  need .geometry (va.outside src b || vc.outside dst b || s.scaleWalk vc.t)
  failIf (env.badRun va.t src b)
  let bytes := (List.range b).map fun (k : Nat) => env.byte va.t (src + (k : Int))
  pure (s, { op := .weight dst.toNat (dst.toNat + b) (numbered dst.toNat bytes) [], cls := classMask [vc] })

/-- WFILL (R206). -/
def execWfill (h : CmdHead) (a c : BitVec 6) (s : State) : Out :=
  s.issue .matrix h .c (wfillCost a c) (wfillBody a c)

/-- What WINV checks and does at issue (R207), the bitmap of layout 3 read like any source (R23). That a ROWSTRIDE which is not
positive or too short raises TACK, as R206 has it for WFILL, is the model's (DESIGN CHOICE, log entry 114). -/
def winvBody (c : BitVec 6) (whole : Bool) (s : State) : Except Trap (State × Issued) := do
  if whole then pure (s, { op := .weight 0 0 [] [(0, 1024)] })
  else
    need .timedState ((s.eng .matrix).strict && s.namesMem (s.peek .matrix [(2, c)]))
    let vc ← s.slotView .matrix 2 c
    need .tack (s.slotTack vc [4] true || vc.strideShort)
    need .format (s.slotFormat vc)
    let dst := (vc.t.base : Int) + vc.off
    let s := if vc.t.layout = 3 then s.asRead .matrix else s
    let env : Env := ⟨s, []⟩
    need .geometry (vc.sparseShapeBad || vc.outside dst (if vc.t.layout = 3 then bitmapBytes vc.blocks else 1))
    failIf (if vc.t.layout == 3 then env.badRun vc.t dst (bitmapBytes vc.blocks) else none)
    let b := env.imageBytes vc vc.t dst
    need .geometry (vc.outside dst b || s.scaleWalk vc.t)
    pure (s, { cls := classMask [vc], op := .weight 0 0 [] [(dst.toNat / 256, ceilDiv (dst.toNat + b) 256)] })

/-- WINV (R207). -/
def execWinv (h : CmdHead) (c : BitVec 6) (whole : Bool) (s : State) : Out :=
  s.issue .matrix h .c (fun _ => { occ := 1, lat := 1 }) (winvBody c whole)

/-- The ranks of a list of keys (R208). -/
def ranksOf (asc : Bool) (keys : List Num) : List Nat :=
  let ks := numbered 0 keys
  ks.map fun p => (ks.filter fun r => rankBefore asc p.2 r.2 p.1 r.1).length

/-- The index of each rank, in rank order. -/
def byRank (ranks : List Nat) (k : Nat) : List Nat := (List.range k).map fun r => ranks.idxOf r

/-- Occupancy and landing of PART, RANK and TOPK (R208). -/
def rankCost (a : BitVec 6) (s : State) : Cost :=
  let n := (s.slotOr .matrix 0 a).t.cols
  { occ := 2 * n + 64, lat := 2 * n + 320 }

/-- PART, RANK and TOPK share their operands (R208): `f` gives the written list from the keys, `len` its length. The
integers are written as they are (log entry 82). -/
def rankCommand (a c : BitVec 6) (len : Nat → Nat) (small : Nat → Bool) (f : List Num → List Nat) (s : State) :
    Except Trap (State × Issued) := do
  need .timedState ((s.eng .matrix).strict && s.namesMem (s.peek .matrix [(0, a), (2, c)]))
  let va ← s.slotView .matrix 0 a
  let vc ← s.slotView .matrix 2 c
  need .tack (s.slotTack va [1, 2] false || s.accTack vc true)
  need .format (s.slotFormat va || s.slotFormat vc || vc.t.fmtCode != 0x05)
  let n := va.t.cols
  need .geometry (va.t.rows != 1 || 128 < n || small n || vc.t.cols < len n || s.slotWalk va || s.slotWalk vc)
  let (env, s) ← s.readEnv .matrix [va]
  let keys := (List.range n).map fun i => env.value va (s.scaleOf va) 0 i
  let out := (numbered 0 (f keys)).take (len n)
  pure (s, { acc := true
             writes := out.flatMap fun p => env.put vc.t (vc.bitAt 0 p.1) 32 p.2
             flags := out.map fun p => ((vc.bitAt 0 p.1 / 32).toNat, ⟨true, false⟩), cls := classMask [vc] })

/-- What RANK checks and does at issue (R209). -/
def rankBody (a c : BitVec 6) (asc : Bool) : State → Except Trap (State × Issued) :=
  rankCommand a c id (fun _ => false) (ranksOf asc)

/-- RANK (R209). -/
def execRank (h : CmdHead) (a c : BitVec 6) (asc : Bool) (s : State) : Out :=
  s.issue .matrix h .a (rankCost a) (rankBody a c asc)

/-- What TOPK checks and does at issue (R209). -/
def topkBody (a c : BitVec 6) (km1 : BitVec 7) (asc : Bool) : State → Except Trap (State × Issued) :=
  rankCommand a c (fun _ => km1.toNat + 1) (fun n => n < km1.toNat + 1) fun ks => byRank (ranksOf asc ks) (km1.toNat + 1)

/-- TOPK (R209). -/
def execTopk (h : CmdHead) (a c : BitVec 6) (km1 : BitVec 7) (asc : Bool) (s : State) : Out :=
  s.issue .matrix h .a (rankCost a) (topkBody a c km1 asc)

/-- Is a key selected by PART: nonzero and not NaN (R209)? -/
def selected (x : Num) : Bool := !x.isNan && !x.isZero

/-- The list of PART: the indices that come first, the others, and how many come first (R209). -/
def partList (neg : Bool) (keys : List Num) : List Nat :=
  let ks := numbered 0 keys
  let first := ks.filter fun p => selected p.2 != neg
  let after := ks.filter fun p => selected p.2 == neg
  first.map (·.1) ++ after.map (·.1) ++ [first.length]

/-- What PART checks and does at issue (R209). -/
def partBody (a c : BitVec 6) (neg : Bool) : State → Except Trap (State × Issued) :=
  rankCommand a c (· + 1) (fun _ => false) (partList neg)

/-- PART (R209). -/
def execPart (h : CmdHead) (a c : BitVec 6) (neg : Bool) (s : State) : Out :=
  s.issue .matrix h .a (rankCost a) (partBody a c neg)

/-- The 128 lane states that seeding gives (R71). -/
def lanesFrom (seed : BitVec 32) : Sparse (BitVec 32) :=
  (List.range 128).foldl (fun t i => spSet seedZero t i (laneSeed seed i)) []

/-- The seed operand of MSEED, FSEED and SSEED: element (0, 0) of an INT32 entry (R210, R253, R283), scaled where the entry
has scales; a product that is no 32-bit integer gives a free seed (log entry 67). -/
def seedOperand (e : EngId) (a : BitVec 6) (s : State) : Except Trap (State × BitVec 32 × View) := do
  let va ← s.slotView e 0 a
  need .tack (s.slotTack va [1, 2] false)
  need .format (s.slotFormat va || va.t.fmtCode != 0x05)
  need .geometry (s.slotWalk va)
  let sc := s.scaleOf va
  let one (v : View) : Run := ⟨v.t, false, v.line 0, lineBytes 1 v.w⟩
  let (env, s) ← (s.asRead e).readIn e (one va :: if va.t.sen then [one ⟨sc, 0⟩] else [])
  let v := ((env.value va sc 0 0).whole.filter fun v => -(2 ^ 31 : Int) ≤ v && v < (2 ^ 31 : Int)).getD
    (Config.freeIndex (env.code va 0 0) (env.scaleCode va sc 0 0))
  pure (s, BitVec.ofInt 32 v, va)

/-- What MSEED checks and does at issue (R210). -/
def mseedBody (a : BitVec 6) (s : State) : Except Trap (State × Issued) := do
  need .timedState ((s.eng .matrix).strict && s.namesMem (s.peek .matrix [(0, a)]))
  let (s, seed, _) ← seedOperand .matrix a s
  pure (s.withTask { s.task with drainGen := lanesFrom seed }, {})

/-- MSEED (R210): the new states serve every draw of the commands that issue after it. -/
def execMseed (h : CmdHead) (a : BitVec 6) (s : State) : Out :=
  s.issue .matrix h .none (fun _ => { lat := 1 }) (mseedBody a)

end Sys2Proof.Machine
end

