-- ==== Sys2Proof/Machine/Drain.lean ====
section
/-! DEFINITION. The drain of the matrix engine: shape registers (R212 to R214), the chain of stages (R215 to R217),
output (R218 to R220), the fold (R221), and the commands DRAIN and AMAX (R223). -/

namespace Sys2Proof.Machine

/-! ### Shape registers (R212, R213) -/

/-- A shape register as a snapshot. -/
structure Shape where
  w0 : Nat
  w1 : Nat
  w2 : Nat
  w3 : Nat
  deriving DecidableEq, Repr

/-- Shape register `n`. -/
def Task.shape (t : Task) (n : Nat) : Shape :=
  ⟨(t.shapeWord n 0).toNat, (t.shapeWord n 1).toNat, (t.shapeWord n 2).toNat, (t.shapeWord n 3).toNat⟩

def Shape.func (p : Shape) : Nat := fld p.w0 60 4
def Shape.smode (p : Shape) : Nat := fld p.w0 58 2
def Shape.stk (p : Shape) : Nat := fld p.w0 52 6
def Shape.ben (p : Shape) : Bool := bitOf p.w0 51
def Shape.btk (p : Shape) : Nat := fld p.w0 45 6
def Shape.ccond (p : Shape) : Nat := fld p.w0 42 3
def Shape.csrc (p : Shape) : Bool := bitOf p.w0 41
def Shape.ctk (p : Shape) : Nat := fld p.w0 35 6
def Shape.sel (p : Shape) : Nat := fld p.w0 33 2
def Shape.clen (p : Shape) : Bool := bitOf p.w0 32
def Shape.aen (p : Shape) : Bool := bitOf p.w0 31
def Shape.atk (p : Shape) : Nat := fld p.w0 25 6
def Shape.outm (p : Shape) : Bool := bitOf p.w0 24
def Shape.simm (p : Shape) : Nat := fld p.w1 32 32
def Shape.thr (p : Shape) : Nat := fld p.w1 0 32
def Shape.clo (p : Shape) : Nat := fld p.w2 32 32
def Shape.chi (p : Shape) : Nat := fld p.w2 0 32
def Shape.selc (p : Shape) : Nat := fld p.w3 32 32

/-- Stage 1 reads the vector STK. -/
def Shape.useStk (p : Shape) : Bool := 2 ≤ p.smode
/-- Stage 4 or 5 reads the tile CTK. -/
def Shape.useCtk (p : Shape) : Bool := (p.ccond != 0 && p.csrc) || 2 ≤ p.sel

/-- FORMAT of the register itself (R214): a reserved code or field, a field of a stage that is off, a stage that needs
the compare without it, and bad constants. -/
def Shape.bad (p : Shape) : Bool :=
  10 ≤ p.func || p.ccond == 7 || fld p.w0 0 24 != 0 || fld p.w3 0 32 != 0
    || (p.smode == 0 && (p.stk != 0 || p.simm != 0)) || (!p.ben && p.btk != 0)
    || (p.ccond == 0 && (p.csrc || p.ctk != 0 || p.thr != 0 || p.sel != 0 || p.outm))
    || (p.sel == 0 && p.selc != 0) || (!p.clen && (p.clo != 0 || p.chi != 0)) || (!p.aen && p.atk != 0)
    || (p.smode == 1 && (match f32 p.simm with | .fin .. => false | _ => true))
    || (p.clen && ((f32 p.clo).isNan || (f32 p.chi).isNan || (f32 p.chi).lt (f32 p.clo)))

/-! ### Stage 3 (R216, R217) -/

/-- exp2 on FP32 bits. -/
def exp2Bits (b : Nat) : Nat :=
  match f32 b with
  | .nan b => b
  | .inf neg => if neg then 0 else 0x7F800000
  | .fin neg n d => exp2Fin neg n d

/-- log2 on FP32 bits. -/
def log2Bits (b : Nat) : Nat :=
  match f32 b with
  | .nan b => b
  | .inf neg => if neg then qnan else 0x7F800000
  | .fin neg n d => if n == 0 then 0xFF800000 else if neg then qnan else log2Fin n d

/-- recip on FP32 bits; that of a negative subnormal which overflows is −∞ (log entry 100). -/
def recipBits (b : Nat) : Nat :=
  match f32 b with
  | .nan b => b
  | x => rne32 ((Num.fin false 1 1).div x)

/-- rsqrt on FP32 bits. -/
def rsqrtBits (b : Nat) : Nat :=
  match f32 b with
  | .nan b => b
  | .inf neg => if neg then qnan else 0
  | .fin neg n d =>
    if n == 0 then (if neg then 0xFF800000 else 0x7F800000)
    else if neg then qnan
    else
      let (a, c) := sqrtFrac d n
      rne32 (.fin false a c)

/-- sqrt on FP32 bits. -/
def sqrtBits (b : Nat) : Nat :=
  match f32 b with
  | .nan b => b
  | .inf neg => if neg then qnan else 0x7F800000
  | .fin neg n d =>
    if n == 0 then b
    else if neg then qnan
    else
      let (a, c) := sqrtFrac n d
      rne32 (.fin false a c)

/-- sigmoid (R217). -/
def sigmoidBits (b : Nat) : Nat :=
  match f32 b with
  | .nan b => b
  | x =>
    let t := rne32 (x.negate.mul (f32 0x3FB8AA3B))
    recipBits (rne32 ((Num.fin false 1 1).add (f32 (exp2Bits t))))

/-- The magnitude of a value; −0 counts as +0. -/
def Num.abs (x : Num) : Num :=
  match x with
  | .fin _ n d => .fin false n d
  | .inf _ => .inf false
  | .nan b => .nan b

/-- tanh (R217). -/
def tanhBits (b : Nat) : Nat :=
  match f32 b with
  | .nan b => b
  | x =>
    if x.abs.lt (.fin false 1 4096) then b
    else
      let t := rne32 (x.abs.mul (f32 0x4038AA3B))
      let w := recipBits (rne32 ((f32 (exp2Bits t)).add (.fin false 1 1)))
      let r := rne32 ((Num.fin false 1 1).add ((Num.fin true 2 1).mul (f32 w)))
      r % 2 ^ 31 + (if bitOf b 31 then 2 ^ 31 else 0)

/-- Stage 3 on FP32 bits. -/
def stage3 (func b : Nat) : Nat :=
  match func with
  | 1 => if (f32 b).isNan then b else if bitOf b 31 then 0 else b
  | 2 => b % 2 ^ 31
  | 3 => exp2Bits b
  | 4 => log2Bits b
  | 5 => recipBits b
  | 6 => rsqrtBits b
  | 7 => sqrtBits b
  | 8 => tanhBits b
  | 9 => sigmoidBits b
  | _ => b

/-! ### The chain (R215) -/

/-- The compare of stage 4 by CCOND (R212, R143). -/
def drainCond (cc : Nat) (x y : Num) : Bool :=
  match cc with
  | 1 => fpCond 0 x y
  | 2 => fpCond 1 x y
  | 3 => fpCond 2 x y
  | 4 => fpCond 3 x y
  | 5 => fpCond 2 y x
  | _ => fpCond 3 y x

/-- An element on its way: its value, the single-term mark, and the mask m. -/
structure DrainEl where
  x : Num
  mark : Bool
  m : Bool
  deriving DecidableEq, Repr

/-- Stages 1 to 6 for one element: `sc`, `bi` and `ct` are the scale, the bias and the element of the second tile
(R215; of two NaNs: log entry 101). -/
def Shape.chain (p : Shape) (x : Num) (mark : Bool) (sc bi ct : Num) : DrainEl :=
  let (x, mark) := if p.smode != 0 then (f32 (rne32 (x.mul sc)), false) else (x, mark)
  let (x, mark) := if p.ben then (f32 (rne32 (x.add bi)), false) else (x, mark)
  let (x, mark) := if p.func != 0 then (f32 (stage3 p.func (rne32 x)), false) else (x, mark)
  let m := p.ccond == 0 || drainCond p.ccond x (if p.csrc then ct else f32 p.thr)
  let (x, mark) :=
    if p.sel == 1 && !m then (f32 p.selc, false)
    else if (p.sel == 2 && !m) || (p.sel == 3 && m) then (ct, false)
    else (x, mark)
  if p.clen && !x.isNan then
    let lo := f32 p.clo
    let hi := f32 p.chi
    if x.lt lo then ⟨lo, false, m⟩ else if hi.lt x then ⟨hi, false, m⟩ else ⟨x, mark, m⟩
  else ⟨x, mark, m⟩

/-- Conversion of a marked value, which passes through (R218); a draw is still taken under SR. -/
def passConvert (F : Fmt) (sr sat : Bool) (x : Num) (gen : BitVec 32) : Conv :=
  let gen1 := if sr then draw32 gen else gen
  match x with
  | .nan b => nanInto F b false gen1
  | .inf neg => overflowInto F false neg gen1
  | .fin .. => convert F sr sat x gen

/-- The code of 0 or 1 that OUTM writes (R218). -/
def maskCode (F : Fmt) (m : Bool) : Nat := if m then (convert F false true (.fin false 1 1) 1).code else 0

/-- Does the format hold 1.0, as OUTM needs (R218)? -/
def Entry.noOne (t : Entry) : Bool :=
  t.fmtCode == 0x0D || t.fmtCode == 0x30 || t.fmtCode == 0x31
    || !((decodeNum t.fmt (maskCode t.fmt true)).eq (.fin false 1 1))

/-! ### Block scales (R220) -/

/-- The largest magnitude of a list that leaves NaNs out; none when nothing is left (R220, R221). -/
def amaxOf (xs : List Num) : Option Num :=
  xs.foldl (fun m x =>
    if x.isNan then m
    else match m with
      | none => some x.abs
      | some y => some (if y.lt x.abs then x.abs else y)) none

/-- A computed scale: its code in SFMT and whether SATSEEN is set. A block that is all NaN has a = 0. -/
def blockScale (F S : Fmt) (xs : List Num) : Nat × Bool :=
  let (ln, ld) := F.largest
  match (amaxOf xs).getD (.fin false 0 1) with
  | .fin _ n d =>
    let qn := n * ld
    let qd := d * ln
    match S with
    | .e8m0 =>
      if n == 0 then (127, false)
      else
        let k := floorLog2 qn qd
        let (a, b) := scale2 qn qd (-k)
        let e := if a == b then k else k + 1
        if 127 < e then (254, true) else ((max e (-127) + 127).toNat, false)
    | _ =>
      if n == 0 then (encodeNum S false 1 1, false)
      else
        let q := S.lsb qn qd
        let (a, b) := scale2 qn qd (-q)
        let (rn, rd) := scale2 (ceilDiv a b) 1 q
        let (mn, md) := S.largest
        if fracLt mn md rn rd then (encodeNum S false mn md, true) else (encodeNum S false rn rd, false)
  | _ =>
    match S with
    | .e8m0 => (254, true)
    | _ => (encodeNum S false S.largest.1 S.largest.2, true)

/-! ### A whole drain -/

/-- What a drain accumulates: lane generators, flags, magnitudes for the fold, writes. -/
structure DrainOut where
  gens : Sparse (BitVec 32)
  nan : Bool
  sat : Bool
  writes : List (List BWrite)
  deriving DecidableEq, Repr

/-- Write one element of column `j`: `sc` is its block's scale when the destination has one. -/
def DrainOut.put (o : DrainOut) (env : Env) (p : Shape) (vc : View) (sc : Option Num) (i j : Nat) (x : DrainEl) :
    DrainOut :=
  let F := vc.t.fmt
  if p.outm then { o with writes := env.putAt vc i j (maskCode F x.m) :: o.writes }
  else
    let v := match sc with | some s => x.x.unscale s | none => x.x
    let gen := spGet seedZero o.gens (j % 128)
    let r := (if x.mark then passConvert else convert) F vc.t.sr vc.t.sat v gen
    { gens := spSet seedZero o.gens (j % 128) r.gen
      nan := o.nan || r.nan || (sc.isSome && x.x.isNan), sat := o.sat || r.sat
      writes := env.putAt vc i j r.code :: o.writes }

/-- Write one row of a destination with block scales: each scale and its block are one unit (R222). -/
def DrainOut.blocks (o : DrainOut) (env : Env) (p : Shape) (vc : View) (sc : Entry) (i : Nat) :
    Nat → Nat → List DrainEl → DrainOut
  | 0, _, _ => o
  | _, _, [] => o
  | fuel + 1, j, els =>
    let n := 2 ^ vc.t.slog2
    let blk := els.take n
    let (code, sat) := blockScale vc.t.fmt sc.fmt (blk.map (·.x))
    let b : DrainOut := { o with sat := o.sat || sat, writes := [env.putAt ⟨sc, 0⟩ i (j / n) code] }
    let s := decodeNum sc.fmt code
    let b := (numbered j blk).foldl (fun o q => o.put env p vc (some s) i q.1 q.2) b
    let o := { b with writes := b.writes.reverse.flatten :: o.writes }
    o.blocks env p vc sc i fuel (j + n) (els.drop n)

/-- The elements of one row after stage 6. An accumulator with block scales is read like any other element (R72), and keeps its
mark (R215). -/
def Env.drainRow (env : Env) (s : State) (p : Shape) (va : View) (vs vb vt : Option View) (i : Nat) : List DrainEl :=
  let val (v : Option View) (r c : Nat) : Num :=
    match v with
    | some v => env.value v (s.scaleOf v) r c
    | none => .fin false 0 1
  (List.range va.t.cols).map fun j =>
    let mark := va.t.fmtCode == 0x12 && (env.s.flagAt (va.bitAt i j)).ovf
    p.chain (env.value va (s.scaleOf va) i j) mark
      (if p.smode == 1 then f32 p.simm else if p.smode == 2 then val vs 0 j else val vs 0 i) (val vb 0 j) (val vt i j)

/-- DRAIN and AMAX (R223) at issue; `amax` tells them apart (log entry 94). -/
def drainBody (amax : Bool) (a c : BitVec 6) (sh : BitVec 3) (s : State) : Except Trap (State × Issued) := do
  let p := s.task.shape sh.toNat
  let g := s.eng .matrix
  let pick (use : Bool) (n : Nat) : Option View := if use then some ⟨s.task.entry n, 0⟩ else none
  let vs := pick p.useStk p.stk
  let vb := pick p.ben p.btk
  let vt := pick p.useCtk p.ctk
  let vf := pick (p.aen && !amax) p.atk
  let read := vs.toList ++ vb.toList ++ vt.toList
  need .timedState (g.strict && (s.namesMem (s.peek .matrix [(0, a), (2, c)] ++ read ++ vf.toList)
    || (s.peek .matrix [(2, c)] ++ vf.toList).any fun v => v.t.kind == 8))
  let va ← s.slotView .matrix 0 a
  let vc ← s.slotView .matrix 2 c
  let sc := s.scaleOf vc
  need .tack (s.accTack va false || s.slotTack vc (if amax then [2, 8] else [1, 2, 3]) true
    || (!amax && vc.t.sen && !sc.wr) || read.any (fun v => s.slotTack v [1, 2] false)
    || vf.toList.any fun v => s.slotTack v [2, 8] true)
  let bit := va.t.fmtCode == 0x20
  let code (v : Option View) : Nat := match v with | some v => v.t.fmtCode | none => 0x12
  need .format (p.bad || s.slotFormat va || s.slotFormat vc || (read ++ vf.toList).any s.slotFormat
    || code vs == 0x20 || code vb == 0x0D || code vb == 0x20 || code vf != 0x12
    || (if amax then vc.t.fmtCode != 0x12 || p.aen || p.outm
        else (p.outm && vc.t.noOne) || (vc.t.fmtCode == 0x20 && vc.t.sr)
          || (vc.t.sen && (vc.t.saxis != 0 || p.outm)))
    || (bit && (p.smode != 0 || p.ben || p.func != 0 || p.clen || p.aen || amax
          || (p.useCtk && code vt != 0x20) || !([0, 0x80000000, 0x3F800000].contains p.selc)
          || vc.t.fmtCode != 0x20)))
  let R := va.t.rows
  let N := va.t.cols
  let wide (v : Option View) (n : Nat) : Bool := match v with | some v => v.t.cols < n | none => false
  need .geometry (4096 < R || (if bit then 1024 else 128) < N || s.slotWalk va || s.slotWalk vc
    || (read ++ vf.toList).any s.slotWalk
    || (!amax && (vc.t.rows < R || vc.t.cols < N)) || wide vs (if p.smode == 2 then N else R) || wide vb N
    || wide vt N || (match vt with | some v => v.t.rows < R | none => false))
  let fold := if amax then some vc else vf
  failIf (fold.bind s.gone)
  let scv : List View := if vc.t.sen && !amax then [⟨sc, 0⟩] else []
  let wr := if amax then [] else vc :: scv
  let (pages, s) := s.mapPages .store g.strict (wr.flatMap (·.pages)).eraseDups
  failIf (pages.faultOf wr)
  let (env, s) ← s.readEnv .matrix ([va] ++ read)
  let out : Env := ⟨env.s, pages⟩
  let rows := (List.range R).map (env.drainRow s p va vs vb vt)
  let ovf := va.t.fmtCode == 0x05
    && (List.range R).any fun i => (List.range N).any fun j => (env.s.flagAt (va.bitAt i j)).ovf
  let o : DrainOut := ⟨s.task.drainGen, false, ovf, []⟩
  let o := if amax then o
    else (numbered 0 rows).foldl (fun (o : DrainOut) r =>
      if vc.t.sen then o.blocks out p vc sc r.1 N 0 r.2
      else (numbered 0 r.2).foldl (fun o q => o.put out p vc none r.1 q.1 q.2) o) o
  let xs := rows.flatMap fun r => r.map (·.x)
  let g := s.eng .matrix
  let word : Option FoldOp := fold.bind fun v => (amaxOf xs).map fun m =>
    let d := env.dest v.t (v.line 0)
    ⟨d.1, d.2, rne32 m⟩
  let g := { g with nan := g.nan || o.nan || (fold.isSome && xs.any (·.isNan)), sat := g.sat || o.sat }
  let far := match fold with | some v => v.t.kind == 8 | none => false
  let (g, op) : Eng × LandOp := match word with
    | none => (g, .none)
    | some f =>
      if far then
        ({ g with
            tag := g.tag + 1
            reqs := g.reqs ++ [⟨g.tag, g.seq, 0, f.sp, .fold f, false, false, false, [], 0⟩] }, .none)
      else (g, .fold f)
  let s := (s.withTask { s.task with drainGen := o.gens }).setEng .matrix g
  let scalePlaces := scv.flatMap fun v => (v.runs true).flatMap fun r => (List.range r.n).map fun k => out.dest v.t (r.a + k)
  pure (s, { writes := o.writes.reverse.flatten, op, units := if scv.isEmpty then [] else o.writes.reverse.map List.length
             cont := contOf (if amax then [] else [vc]), scont := sc.fmt.container, scales := scalePlaces
             cls := classMask (wr ++ fold.toList) })

/-- DRAIN (R223). -/
def execDrain (h : CmdHead) (a c : BitVec 6) (sh : BitVec 3) (s : State) : Out :=
  s.issue .matrix h .b (rowsCost a 60) (drainBody false a c sh)

/-- AMAX (R223). -/
def execAmax (h : CmdHead) (a c : BitVec 6) (sh : BitVec 3) (s : State) : Out :=
  s.issue .matrix h .b (rowsCost a 48) (drainBody true a c sh)

end Sys2Proof.Machine
end

