-- ==== Sys2Proof/Machine/Flume.lean ====
section
/-! DEFINITION. The commands of the flume (R230 to R256): slots and checks, elements and restart (R238 to R242), and
COPY, FILL, GATHER, SCATTER, GATHP, EXP24, PUTR, BCAST, FSEED, PFETCH and CMPB. -/

namespace Sys2Proof.Machine

/-! ### Runs of bytes that an element touches -/

/-- The bytes of row `i` of a view (R43, R65). -/
def View.rowRuns (v : View) (store : Bool) (i : Nat) : List Run :=
  if v.t.layout == 1 then
    (List.range v.t.cols).map fun c =>
      let b := v.bitAt i c
      ⟨v.t, store, b / 8, ceilDiv ((b % 8).toNat + v.w) 8⟩
  else [⟨v.t, store, v.line i, lineBytes v.t.cols v.w⟩]

/-- The scale that element (i, c) of a view uses, if it has one (R72). -/
def scaleRun (v : View) (sc : Entry) (i c : Nat) : List Run :=
  if v.t.sen then
    let p := v.t.scaleAt i c
    [⟨sc, false, (View.mk sc 0).bitAt p.1 p.2 / 8, sc.fmt.container⟩]
  else []

/-- The scales that row `i` of a view uses (R72). -/
def scaleRuns (v : View) (sc : Entry) (i : Nat) : List Run :=
  if v.t.sen then ((List.range v.t.cols).flatMap (scaleRun v sc i)).eraseDups else []

/-- A store, with the scratchpad of core `lcn` under one name. -/
def Space.at_ (lcn : Nat) : Space → Space
  | .far n => if n = lcn then .scr else .far n
  | k => k

/-- Does a run in one of some stores share a byte with another run (R239)? Memory is judged on virtual addresses. -/
def Run.meets (lcn : Nat) (x : Run) (sps : List Space) (y : Run) : Bool :=
  (sps.any fun sp => sp.at_ lcn == y.t.space.at_ lcn) && decide (x.a < y.a + y.n) && decide (y.a < x.a + x.n)

/-! ### Elements (R241) -/

/-- A flume command of a kind on its slots, with their scale entries. -/
def State.fluOp (s : State) (kind : FluKind) (a b c : View) : FluOp :=
  { kind, a, b, c, sa := s.task.entry a.t.stid, sb := s.task.entry b.t.stid, sc := s.task.entry c.t.stid, idx := []
    code := none, whole := false, passed := false, lanes := none, base := none }

/-- What an element does. -/
inductive FluAct where
  | nothing
  | bad (tr : Trap)
  | rows (ps : List (View × Nat × Nat))
  | code (row : Nat)
  | group (g : Nat)
  | compare (i : Nat)
  | reduce (i j : Nat)
  deriving DecidableEq, Repr

/-- One element: its number, the runs it reads and writes, and what it does. -/
structure FluStep where
  k : Nat
  runs : List Run
  act : FluAct
  deriving DecidableEq, Repr

/-- The runs of copying row `i` of `v` into row `j` of slot c. -/
def FluOp.copyRuns (op : FluOp) (v : View) (i j : Nat) : List Run :=
  v.rowRuns false i ++ scaleRuns v op.sa i ++ op.c.rowRuns true j ++ scaleRuns op.c op.sc j

/-- An element that copies rows. -/
def FluOp.copyStep (op : FluOp) (k : Nat) (ps : List (View × Nat × Nat)) : FluStep :=
  ⟨k, ps.flatMap fun p => op.copyRuns p.1 p.2.1 p.2.2, .rows ps⟩

/-- Where line `h` of EXP24's metadata stands (R247). -/
def FluOp.metaLine (op : FluOp) (h : Nat) : Int :=
  op.a.line op.a.t.rows + (h * ceilDiv op.a.t.cols 4 : Nat)

/-- The page-p walk of GATHP (R246). -/
def View.page (v : View) (p pshift : Nat) : View := { v with off := v.off + (p * 2 ^ pshift : Nat) }

/-- A walk that leaves the 64-bit address range: NOT-PRESENT by the first row of R81's table, at its first byte (log entry 51). -/
def View.beyond (v : View) : Option Trap :=
  if (v.runs false).any fun r => (2 ^ 64 : Int) < r.a + r.n then
    some { code := .notPresent, addr := (v.runs false).head?.map fun r => wrapVa r.a }
  else none

/-- The run of one element, with its scale's (R43, R72). -/
def elemRuns (v : View) (sc : Entry) (i c : Nat) : List Run :=
  let b := v.bitAt i c
  ⟨v.t, false, b / 8, ceilDiv ((b % 8).toNat + v.w) 8⟩ :: scaleRun v sc i c

/-- The elements of a command, in order (R241). -/
def FluOp.plan (op : FluOp) : List FluStep :=
  match op.kind with
  | .copy => (List.range op.c.t.rows).map fun i => op.copyStep i [(op.a, i, i)]
  | .bcast _ => (List.range op.c.t.rows).map fun i => op.copyStep i [(op.a, i, i)]
  | .fill zero =>
    (List.range op.c.t.rows).map fun i =>
      ⟨i, (if !zero && op.code.isNone && i == 0 then elemRuns op.a op.sa 0 0 ++ scaleRun op.c op.sc 0 0 else [])
        ++ op.c.rowRuns true i, .code i⟩
  | .gather skip =>
    (numbered 0 op.idx).map fun p =>
      if 0 ≤ p.2 && p.2 < (op.a.t.rows : Int) then op.copyStep p.1 [(op.a, p.2.toNat, p.1)]
      else ⟨p.1, [], if skip then .nothing else .bad { code := .geometry }⟩
  | .scatter skip =>
    (numbered 0 op.idx).map fun p =>
      if 0 ≤ p.2 && p.2 < (op.c.t.rows : Int) then op.copyStep p.1 [(op.a, p.1, p.2.toNat)]
      else ⟨p.1, [], if skip then .nothing else .bad { code := .geometry }⟩
  | .gathp pshift skip =>
    (numbered 0 op.idx).map fun (p : Nat × Int) =>
      if 0 ≤ p.2 then
        let v := op.a.page p.2.toNat pshift
        match v.beyond with
        | some tr => ⟨p.1, [], .bad tr⟩
        | none => op.copyStep p.1 ((List.range op.a.t.rows).map fun r => (v, r, p.1 * op.a.t.rows + r))
      else ⟨p.1, [], if skip then .nothing else .bad { code := .geometry }⟩
  | .exp24 =>
    (List.range (op.c.t.rows / 4)).map fun g =>
      ⟨g, ([2 * g, 2 * g + 1].flatMap fun h =>
          op.a.rowRuns false h ++ [⟨op.a.t, false, op.metaLine h, ceilDiv op.a.t.cols 4⟩])
        ++ [0, 1, 2, 3].flatMap fun r => op.c.rowRuns true (4 * g + r), .group g⟩
  | .putr _ =>
    (List.range (op.c.t.rows * op.c.t.cols)).map fun e =>
      let i := e / op.c.t.cols
      let j := e % op.c.t.cols
      let b := op.c.bitAt i j
      ⟨e, ⟨op.c.t, true, b / 8, ceilDiv ((b % 8).toNat + op.c.w) 8⟩
        :: (elemRuns op.a op.sa i j ++ scaleRun op.c op.sc i j), .reduce i j⟩
  | .cmpb =>
    (List.range op.a.t.rows).map fun i =>
      ⟨i, op.a.rowRuns false i ++ scaleRuns op.a op.sa i ++ op.b.rowRuns false i ++ scaleRuns op.b op.sb i
        ++ [⟨op.c.t, true, op.c.bitAt 0 i / 8, 4⟩] ++ scaleRun op.c op.sc 0 i, .compare i⟩

/-- What the elements have produced so far: lane states, flags, the writes of the element at hand, PUTR's converted elements,
FILL's code. -/
structure FluOut where
  gens : Sparse (BitVec 32)
  nan : Bool
  sat : Bool
  writes : List (List BWrite)
  red : List (Nat × RedElem)
  code : Option Nat
  deriving DecidableEq, Repr

/-- Same FMT, same CUSTOM word and no scale on either side: the bits are copied (R238). -/
def verbatim (a c : Entry) : Bool := a.fmtCode == c.fmtCode && a.custom == c.custom && !a.sen && !c.sen

/-- The code that a value gives element (di, dj) of slot c, which has number `e` and draws from lane `e mod 128` (R231, R238). -/
def FluOut.into (o : FluOut) (env : Env) (op : FluOp) (x : Num) (di dj e : Nat) : FluOut × Nat :=
  let x :=
    if op.c.t.sen then
      let p := op.c.t.scaleAt di dj
      x.unscale (decodeNum op.sc.fmt (env.code ⟨op.sc, 0⟩ p.1 p.2))
    else x
  let r := convert op.c.t.fmt op.c.t.sr op.c.t.sat x (spGet seedZero o.gens (e % 128))
  ({ o with
      gens := spSet seedZero o.gens (e % 128) r.gen
      nan := o.nan || r.nan, sat := o.sat || r.sat }, r.code)

/-- The code that element (si, sj) of `v` gives element (di, dj) of slot c (R238). -/
def FluOut.conv (o : FluOut) (env : Env) (op : FluOp) (v : View) (si sj di dj e : Nat) : FluOut × Nat :=
  let raw := env.code v si sj
  if verbatim v.t op.c.t then (o, raw) else o.into env op (env.scaled v op.sa si sj raw) di dj e

/-- Write a code to element (i, j) of slot c; BCAST writes it in every target (R252). -/
def FluOp.put (op : FluOp) (out : Env) (i j code : Nat) : List BWrite :=
  match op.kind with
  | .bcast ns => ns.flatMap fun n => (out.putAt op.c i j code).map fun w => { w with sp := .far n }
  | _ => out.putAt op.c i j code

/-- Copy one row. -/
def FluOut.row (o : FluOut) (env out : Env) (op : FluOp) (v : View) (i j : Nat) : FluOut :=
  (List.range op.c.t.cols).foldl (fun o c =>
    let (o, code) := o.conv env op v i c j c (j * op.c.t.cols + c)
    { o with writes := op.put out j c code :: o.writes }) o

/-- The metadata index of value (h, j) of EXP24 (R247). -/
def FluOp.index24 (op : FluOp) (env : Env) (h j : Nat) : Nat := env.codeAt op.a.t (8 * op.metaLine h + (2 * j : Nat)) 2

/-- One group of EXP24 (R247). -/
def FluOut.group (o : FluOut) (env out : Env) (op : FluOp) (g : Nat) : FluOut :=
  { o with
    writes := ((List.range op.c.t.cols).flatMap fun j => (List.range 4).flatMap fun r =>
      out.putAt op.c (4 * g + r) j
        (if op.index24 env (2 * g) j == r then env.code op.a (2 * g) j
         else if op.index24 env (2 * g + 1) j == r then env.code op.a (2 * g + 1) j else 0)) :: o.writes }

/-- The first byte at which rows `i` of slots a and b differ, or 0xFFFF (R255): in its code, or where a slot has block scales in
its value (R72, R238; a NaN differs from everything, log entry 75). -/
def Env.firstDiff (env : Env) (op : FluOp) (i : Nat) : Nat :=
  ((List.range op.a.t.cols).find? fun j =>
    if op.a.t.sen || op.b.t.sen then !(env.value op.a op.sa i j).eq (env.value op.b op.sb i j)
    else env.code op.a i j != env.code op.b i j).getD 0xFFFF

/-- Perform what an element does. -/
def FluOut.act (o : FluOut) (env out : Env) (op : FluOp) : FluAct → FluOut
  | .nothing => o
  | .bad _ => o
  | .rows ps => ps.foldl (fun o p => o.row env out op p.1 p.2.1 p.2.2) o
  | .code i =>
    let (o, code) : FluOut × Nat :=
      match op.kind, o.code with
      | .fill true, _ => (o, 0)
      | _, some c => (o, c)
      | _, none => o.conv env op op.a 0 0 0 0 0
    { o with
      code := some code
      writes := ((List.range op.c.t.cols).flatMap fun c => out.putAt op.c i c code) :: o.writes }
  | .group g => o.group env out op g
  | .compare i =>
    let j := env.firstDiff op i
    let (o, code) := if op.c.t.sen then o.into env op (.fin false j 1) 0 i i else (o, j)
    { o with writes := out.putAt op.c 0 i code :: o.writes }
  | .reduce i j =>
    let e := i * op.c.t.cols + j
    let (o, code) := o.conv env op op.a i j i j e
    let b := op.c.bitAt i j
    let bytes := (List.range (ceilDiv ((b % 8).toNat + op.c.w) 8)).map fun k => (out.dest op.c.t (b / 8 + k)).2
    { o with red := (e, ⟨bytes, (b % 8).toNat, op.c.w, code, false⟩) :: o.red }

/-- The faults of an element's pages (R81). -/
def FluStep.pageFaults (st : FluStep) (load store : PageMap) : List Trap :=
  st.runs.flatMap fun r => r.faults (if r.store then store else load)

/-- The fault that stops a command at an element (R241): R81 on its pages, an uncorrectable error in what it reads (R308), an
index out of range (R245, R246), or a group of EXP24 whose indices do not rise (R247). -/
def FluStep.stops (st : FluStep) (env out : Env) (op : FluOp) : Option Trap :=
  let reads : List Run := st.runs.filter fun (r : Run) => !r.store
  let own : Option Trap := match st.act with
    | .bad tr => some tr
    | .group g =>
      if (List.range op.c.t.cols).any fun j => op.index24 env (2 * g + 1) j ≤ op.index24 env (2 * g) j then
        some { code := .format }
      else none
    | _ => none
  (((firstFault (st.pageFaults env.pages out.pages)).or (reads.findSome? fun r => env.badRun r.t r.a r.n)).or own).map
    fun tr => { tr with elem := some st.k }

/-- The elements before the first that stops the command, and its fault. -/
def FluOp.upTo (op : FluOp) (env out : Env) : List FluStep → List FluStep × Option Trap
  | [] => ([], none)
  | st :: t =>
    match st.stops env out op with
    | some tr => ([], some tr)
    | none => let (l, tr) := op.upTo env out t; (st :: l, tr)

/-- The destination row with which an element's numbering starts (R231). -/
def FluStep.row (st : FluStep) : Nat :=
  match st.act with
  | .rows ((_, _, j) :: _) => j
  | _ => 0

/-- The elements in the order in which they draw: a lane serves its elements in increasing number, which for SCATTER is not
the order of the list (R71, R231). -/
def FluOp.drawOrder (op : FluOp) (steps : List FluStep) : List FluStep :=
  match op.kind with
  | .scatter _ => orderBy FluStep.row steps
  | _ => steps

/-- The elements do not commit in the order in which they draw: a SCATTER whose list does not rise (R231, R241). -/
def FluOp.crossed (op : FluOp) : Bool :=
  match op.kind with
  | .scatter _ =>
    let rs := op.idx.filter fun i => 0 ≤ i && i < (op.c.t.rows : Int)
    !(rs.zip (rs.drop 1)).all fun p => p.1 ≤ p.2
  | _ => false

/-- The element's sources can be read. -/
def FluStep.readable (st : FluStep) (env : Env) : Bool :=
  (st.runs.filter (!·.store)).all fun r => (r.faults env.pages).isEmpty && (env.badRun r.t r.a r.n).isNone

/-- The lanes pass over elements that cannot be read yet: under SR each of them takes its one draw whatever its value; under RNE
whether its value lies in the band and draws is free, by the choices from number `n` on (R66; log entry 76). -/
def FluOut.pass (o : FluOut) (op : FluOp) (n : Nat) (act : FluAct) : FluOut :=
  match act with
  | .rows ps =>
    if verbatim op.a.t op.c.t then o
    else ps.foldl (fun o p => (List.range op.c.t.cols).foldl (fun (o : FluOut) c =>
      let e := p.2.2 * op.c.t.cols + c
      if op.c.t.sr || (op.c.t.fmt.narrow && Config.freeChoice (n + e)) then
        { o with gens := spSet seedZero o.gens (e % 128) (draw32 (spGet seedZero o.gens (e % 128))) }
      else o) o) o
  | _ => o

/-- What one element has written, and the lane states after it. -/
structure FluPiece where
  k : Nat
  ws : List BWrite
  gens : Sparse (BitVec 32)
  deriving DecidableEq, Repr

/-- Perform elements in draw order; those that are not among the elements `lo` to `hi` − 1 only draw, by the free choices from number
`n` on where they cannot be read. -/
def FluOut.run (env out : Env) (op : FluOp) (lo hi n : Nat) : List FluStep → FluOut → FluOut × List FluPiece
  | [], o => (o, [])
  | st :: t, o =>
    if lo ≤ st.k && st.k < hi then
      let x := ({ o with writes := [] } : FluOut).act env out op st.act
      let (o', l) := FluOut.run env out op lo hi n t x
      (o', ⟨st.k, x.writes.reverse.flatten, x.gens⟩ :: l)
    else
      let x := if st.readable env then o.act env out op st.act else o.pass op n st.act
      FluOut.run env out op lo hi n t { o with gens := x.gens }

/-- A command's elements as they come out: the pieces in commit order, the lane states before the first of them and after the last
one, those before the whole command where they are kept, the fault that stops them, the faults of every page of every element,
and whether the command writes bytes that it reads (R239). -/
structure FluDone where
  out : FluOut
  pieces : List FluPiece
  before : Sparse (BitVec 32)
  after : Sparse (BitVec 32)
  base : Option (Sparse (BitVec 32))
  stop : Option Trap
  whole : List Trap
  clash : Bool
  deriving DecidableEq, Repr

/-- The lanes have moved on after the commands in flight: what one of them draws anew no longer follows their state (R71). -/
def Eng.lanesPassed (g : Eng) : Eng :=
  { g with flight := g.flight.map fun f =>
      match f.op with
      | .flu op ends => { f with op := .flu { op with passed := true } ends }
      | _ => f }

/-- Where the byte writes of pieces begin, `n` writes and the lane states `g` standing before them; `keep` says that lane states
are wanted. -/
def fluEnds (keep : Bool) : Nat → Sparse (BitVec 32) → List FluPiece → List FluEnd
  | _, _, [] => []
  | n, g, p :: t => ⟨p.k, n, if keep then g else []⟩ :: fluEnds keep (n + p.ws.length) p.gens t

/-- How a store of slot c is checked by R81: PUTR's target as a reduction. -/
def FluKind.acc : FluKind → Acc
  | .putr _ => .reduce
  | _ => .store

/-- GATHER, SCATTER and GATHP: the commands whose faults carry an element index wherever they are found (R81). -/
def FluKind.listed : FluKind → Bool
  | .gather _ | .scatter _ | .gathp .. => true
  | _ => false

/-- Every fault of R81 that an element's accesses meet: those of its pages, and a page of GATHP beyond the address range. -/
def FluStep.walkFaults (st : FluStep) (load store : PageMap) : List Trap :=
  st.pageFaults load store ++ match st.act with
    | .bad tr => if tr.code = .notPresent then [tr] else []
    | _ => []

/-- The stores that a command writes: BCAST those of every core of its unit (R252). -/
def FluOp.stores (op : FluOp) : List Space :=
  match op.kind with
  | .bcast ns => ns.map .far
  | _ => [op.c.t.space]

/-- Perform the elements of a command from number `k` on, its sources read in `r`; `il` are the runs of its index list. Where the
elements do not commit in the order in which they draw, every element of the command takes its draws in that order, from the
lane states that stood before the command, and the lanes are left as they are after the element that was written last (R71,
R241; log entry 76). -/
def State.flumeElems (s r : State) (op : FluOp) (k : Nat) (il : List Run) : FluDone × State :=
  let g := s.eng .flume
  let steps := op.plan.filter fun st => k ≤ st.k
  let drawing := if op.crossed then op.plan else steps
  let (lp, s) := s.mapPages .load g.strict (pagesOf ((drawing.flatMap (·.runs)).filter (!·.store)))
  let (sp, s) := s.mapPages op.kind.acc g.strict (pagesOf ((drawing.flatMap (·.runs)).filter (·.store)))
  let env : Env := ⟨r, lp⟩
  let out : Env := ⟨r, sp⟩
  let (done, stop) := op.upTo env out steps
  let before := op.lanes.getD s.task.flumeGen
  let base := if op.crossed then some (op.base.getD before) else none
  let (o, ps) := FluOut.run env out op k (k + done.length) s.fresh (op.drawOrder (if op.crossed then drawing else done))
    ⟨base.getD before, false, false, [], [], op.code⟩
  let s := if op.crossed && !op.c.t.sr && stop.isSome then { s with fresh := s.fresh + op.c.t.rows * op.c.t.cols } else s
  let pieces := orderBy FluPiece.k ps
  let after := if op.crossed && stop.isSome then (pieces.getLast?.map (·.gens)).getD before else o.gens
  let runs := steps.flatMap (·.runs)
  let clash := (runs ++ il).any (fun r => r.t.kind == 3)
    && (runs.filter (·.store)).any fun x => (runs.filter (!·.store) ++ il).any fun y =>
      x.meets s.task.lcn op.stores y
  let s := if op.lanes.isSome then s else s.withTask { s.task with flumeGen := after }
  let g := if op.lanes.isNone && after != before then g.lanesPassed else g
  ({ out := o, pieces, before, after, base, stop, clash
     whole := steps.flatMap fun st =>
       (st.walkFaults lp sp).map fun tr => if op.kind.listed then { tr with elem := some st.k } else tr },
    s.setEng .flume { g with nan := g.nan || o.nan, sat := g.sat || o.sat })

/-! ### Checks common to the commands (R232, R233, R237) -/

/-- The leaf of a page as it stands, wherever it lies. -/
def State.leafAt (s : State) (p : Nat) : Option Leaf :=
  match heldLeaf s.task.pins (p * 2 ^ 16) with
  | some l => some l
  | none => (s.partOf s.task.part).bind fun q => (s.leafIn q (q.rootFor s.task.queue) (p * 2 ^ 16)).toOption

/-- A page outside the issuing core's package (R237). -/
def State.pageOff (s : State) (p : Nat) : Bool :=
  match s.leafAt p with
  | some l => bitOf l.pa 51 || fld l.pa 40 7 != s.pkg
  | none => false

/-- A MEM walk that reaches such a page. -/
def State.offPackage (s : State) (v : View) : Bool := v.pages.any s.pageOff

/-- TIMED-STATE of a flume command (R237). -/
def State.flumeTimed (s : State) (ban : Bool) (read written : List View) : Bool :=
  (s.eng .flume).strict
    && (ban || (read ++ written).any (fun v => v.t.kind == 8 || s.offPackage v
          || (v.t.sen && s.offPackage ⟨s.scaleOf v, 0⟩))
        || written.any fun v => v.t.cscope != 0)

/-- Bytes of the first `n` rows of a view (R234). -/
def View.bytes (v : View) (n : Nat) : Nat :=
  if v.t.layout == 1 then v.t.cols * lineBytes n v.w else n * lineBytes v.t.cols v.w

/-- Bytes of the scales that the first `n` rows of a view use (R72, R234; log entry 70). -/
def State.scaleBytes (s : State) (v : View) (n : Nat) : Nat :=
  if v.t.sen then
    (s.scaleOf v).fmt.container * match v.t.saxis with
      | 0 => n * ceilDiv v.t.cols (2 ^ v.t.slog2)
      | 1 => ceilDiv n (2 ^ v.t.slog2) * v.t.cols
      | _ => 1
  else 0

/-- The row of R234 for PUTR, BCAST and REMOTE operands. -/
def remoteCost (b : Nat) : Cost := { occ := ceilDiv b 128, lat := ceilDiv b 128 }

/-- Occupancy and latency by R234, for `b` bytes and the entries a command names. -/
def flumeCost (b : Nat) (ts : List Entry) : Cost :=
  if ts.any fun t => t.kind == 3 then { occ := ceilDiv b 64, lat := ceilDiv b 64 + 2048 }
  else if ts.any fun t => t.kind == 8 then remoteCost b
  else { occ := ceilDiv b 128, lat := ceilDiv b 128 + 24 }

/-- The cost of moving `n` rows of `va` into `m` rows of `vc` with the help of other entries: `ts`, of `extra` bytes; the entries of
scales choose no row of R234 (log entry 102). -/
def State.moveCost (s : State) (va vc : View) (n m : Nat) (ts : List Entry) (extra : Nat) : Cost :=
  flumeCost (max (va.bytes n + s.scaleBytes va n + s.scaleBytes vc m + extra) (vc.bytes m)) (va.t :: vc.t :: ts)

/-- What the flume of slot a, b and c cost from their views. -/
def slots3 (a b c : BitVec 6) (f : State → View → View → View → Cost) (s : State) : Cost :=
  f s (s.slotOr .flume 0 a) (s.slotOr .flume 1 b) (s.slotOr .flume 2 c)

/-- The first `n` elements of row `i` of a view, with the runs that reading each of them means. -/
def State.listRuns (s : State) (v : View) (i n : Nat) : List (Nat × Run) :=
  (List.range n).flatMap fun j => (elemRuns v (s.scaleOf v) i j).map fun r => (j, r)

/-- The faults of a list's pages, each with its element (R81). -/
def listFaults (p : PageMap) (rs : List (Nat × Run)) : List Trap :=
  rs.flatMap fun x => (Run.faults p x.2).map fun tr => { tr with elem := some x.1 }

/-- The first uncorrectable error in a list, with its element (R308). -/
def Env.listBad (env : Env) (rs : List (Nat × Run)) : Option Trap :=
  if env.s.sound then none
  else rs.findSome? fun x => (env.badRun x.2.t x.2.a x.2.n).map fun tr => { tr with elem := some x.1 }

/-- The entries through which elements that are performed anew read: the sources and the scales (R34, R241); FILL has read its value
once and for all. -/
def FluOp.rereads (op : FluOp) : List View :=
  let with_ (v : View) (sc : Entry) : List View := v :: if v.t.sen then [⟨sc, 0⟩] else []
  let scales : List View := if op.c.t.sen then [⟨op.sc, 0⟩] else []
  match op.kind with
  | .fill _ => if op.code.isSome then [] else with_ op.a op.sa ++ scales
  | .cmpb => with_ op.a op.sa ++ with_ op.b op.sb ++ scales
  | _ => with_ op.a op.sa ++ scales

/-- The flight of the elements that are done. Of a command that may be stopped at an element the fences of a class see the entries
that it would read again too. -/
def FluDone.issued (d : FluDone) (op : FluOp) : Issued :=
  let op := { op with code := d.out.code, base := d.base, whole := d.clash }
  let far := op.a.t.kind == 8 || op.c.t.kind == 8
  { writes := d.pieces.flatMap (·.ws), stop := d.stop
    cls := classMask (op.c :: if far || d.stop.isSome then op.rereads else []), cont := contOf [op.c]
    op := .flu op (fluEnds far 0 d.before d.pieces) }

/-- The faults of the whole walks of a command, its elements' pages apart (R233 step 8, R239): GATHP has no walk but those of the
pages it fetches. -/
def State.walkFaults (s : State) (op : FluOp) (timed : Bool) : List Trap :=
  let loads := (match op.kind with
      | .gathp .. => []
      | .fill true => []
      | .cmpb => s.readRuns op.a ++ s.readRuns op.b
      | _ => s.readRuns op.a) ++ if op.c.t.sen then (View.mk op.sc 0).runs false else []
  let stores := op.c.runs true
  let (lp, s) := s.mapPages .load timed (pagesOf loads)
  let (sp, _) := s.mapPages op.kind.acc timed (pagesOf stores)
  loads.flatMap (Run.faults lp) ++ stores.flatMap (Run.faults sp)

/-- A command that writes bytes which it reads, with a MEM operand: every page of every walk is checked before it writes anything, and
it is all or nothing but for an uncorrectable error (R239). -/
def FluDone.clashFault (d : FluDone) (s : State) (op : FluOp) : Option Trap :=
  if d.clash then
    (if (s.eng .flume).strict then none else firstFault (d.whole ++ s.walkFaults op false)).or
      (d.stop.filter fun tr => tr.code != .uncorrectable)
  else none

/-- The end of every data command's issue: steps 8 and 9 of R233 for the index list `il`, the elements, and what the
flight carries. A command whose source is with a core that is not resident is held (R75). -/
def State.flumeGo (s : State) (op : FluOp) (il : Option View) : Except Trap (State × Issued) := do
  let strict := (s.eng .flume).strict
  let lists := il.toList.flatMap fun v => s.listRuns v 0 v.t.cols
  failIf ((s.gone op.a).or (s.gone op.c))
  if op.a.t.kind == 8 && !s.reachable op.a.t.core then pure (s, { held := true })
  else
    let s := s.asRead .flume
    let view := s.elsewhere
    let (ip, s) := s.mapPages .load strict (pagesOf (lists.map (·.2)))
    let env : Env := ⟨view, ip⟩
    failIf (if strict then none else firstFault (listFaults ip lists))
    let op := { op with idx := match il with
      | some v => (List.range v.t.cols).map (env.index v (s.scaleOf v) 0)
      | none => [] }
    let (d, s) := s.flumeElems view op 0 (lists.map (·.2))
    let bad := (env.listBad lists).isSome
    failIf (if strict then firstFault (listFaults ip lists ++ (if bad then [] else d.whole) ++ s.walkFaults op true) else none)
    failIf (env.listBad lists)
    failIf (d.clashFault s op)
    pure (s, d.issued op)

/-- TACK of the slots of a flume command: (view, kinds, written). -/
def State.flumeTack (s : State) (vs : List (View × List Nat × Bool)) : Bool :=
  vs.any fun v => s.slotTack v.1 v.2.1 v.2.2

/-! ### COPY and FILL -/

/-- What COPY checks and does at issue (R243). -/
def copyBody (a c : BitVec 6) (s : State) : Except Trap (State × Issued) := do
  need .timedState (s.flumeTimed false (s.peek .flume [(0, a)]) (s.peek .flume [(2, c)]))
  let va ← s.slotView .flume 0 a
  let vc ← s.slotView .flume 2 c
  need .tack (s.flumeTack [(va, [1, 2, 3, 8], false), (vc, [1, 2, 3, 8], true)])
  need .format (s.slotFormat va || s.slotFormat vc)
  need .geometry (va.t.rows != vc.t.rows || va.t.cols != vc.t.cols || s.slotWalk va || s.slotWalk vc)
  s.flumeGo (s.fluOp .copy va View.none_ vc) none

/-- Occupancy and landing of COPY (R234). -/
def copyCost (a c : BitVec 6) : State → Cost := slots3 a 0 c fun s va _ vc => s.moveCost va vc va.t.rows vc.t.rows [] 0

/-- COPY (R243). -/
def execCopy (h : CmdHead) (a c : BitVec 6) (s : State) : Out :=
  s.issue .flume h .a (copyCost a c) (copyBody a c)

/-- What FILL checks and does at issue (R244). -/
def fillBody (a c : BitVec 6) (zero : Bool) (s : State) : Except Trap (State × Issued) := do
  need .timedState (s.flumeTimed false (if zero then [] else s.peek .flume [(0, a)]) (s.peek .flume [(2, c)]))
  let va ← if zero then .ok View.none_ else s.slotView .flume 0 a
  let vc ← s.slotView .flume 2 c
  need .tack (s.flumeTack ((if zero then [] else [(va, [1, 2], false)]) ++ [(vc, [1, 2, 3, 8], true)]))
  need .format ((!zero && s.slotFormat va) || s.slotFormat vc)
  need .geometry ((!zero && s.slotWalk va) || s.slotWalk vc)
  s.flumeGo { s.fluOp (.fill zero) va View.none_ vc with code := if zero then some 0 else none } none

/-- Occupancy and landing of FILL (R234). -/
def fillCost (c : BitVec 6) : State → Cost := slots3 0 0 c fun _ _ _ vc => flumeCost (vc.bytes vc.t.rows) [vc.t]

/-- FILL (R244). -/
def execFill (h : CmdHead) (a c : BitVec 6) (zero : Bool) (s : State) : Out :=
  s.issue .flume h .a (fillCost c) (fillBody a c zero)

/-! ### GATHER, SCATTER, GATHP -/

/-- GATHER and SCATTER share their checks (R245): `table` is the view whose rows the list names. -/
def gatherBody (scatter skip : Bool) (a b c : BitVec 6) (s : State) : Except Trap (State × Issued) := do
  need .timedState (s.flumeTimed false (s.peek .flume [(0, a), (1, b)]) (s.peek .flume [(2, c)]))
  let va ← s.slotView .flume 0 a
  let vb ← s.slotView .flume 1 b
  let vc ← s.slotView .flume 2 c
  need .tack (s.flumeTack [(va, if scatter then [1, 2, 3] else [1, 2, 3, 8], false), (vb, [1, 2, 3], false),
    (vc, if scatter then [1, 2, 3, 8] else [1, 2, 3], true)])
  need .format (s.slotFormat va || s.slotFormat vb || s.slotFormat vc || !vb.t.indexFormat)
  let n := vb.t.cols
  need .geometry (vb.t.rows != 1 || va.t.cols != vc.t.cols || (if scatter then va.t.rows else vc.t.rows) < n
    || s.slotWalk va || s.slotWalk vb || s.slotWalk vc)
  s.flumeGo (s.fluOp (if scatter then .scatter skip else .gather skip) va vb vc)
    (some vb)

/-- Occupancy and landing of GATHER and SCATTER (R234). -/
def gatherCost (a b c : BitVec 6) : State → Cost :=
  slots3 a b c fun s va vb vc => s.moveCost va vc vb.t.cols vb.t.cols [vb.t] (vb.bytes 1 + s.scaleBytes vb 1)

/-- GATHER (R245). -/
def execGather (h : CmdHead) (a b c : BitVec 6) (skip : Bool) (s : State) : Out :=
  s.issue .flume h .a (gatherCost a b c) (gatherBody false skip a b c)

/-- SCATTER (R245). -/
def execScatter (h : CmdHead) (a b c : BitVec 6) (skip : Bool) (s : State) : Out :=
  s.issue .flume h .a (gatherCost a b c) (gatherBody true skip a b c)

/-- The walk of page 0 does not fit within the page stride (R246). -/
def View.pageShort (v : View) (pshift : Nat) : Bool :=
  (v.runs false).any fun r =>
    r.a < (v.t.base : Int) + v.off || (v.t.base : Int) + v.off + (2 ^ pshift : Nat) < r.a + r.n

/-- The indices of a list as GATHP reads them in a timed frame, those of a list that cannot be read left out (R81, R308). -/
def State.timedIndices (s : State) (v : View) : List Int :=
  let lists := s.listRuns v 0 v.t.cols
  let r := s.asRead .flume
  let (pages, _) := r.mapPages .load true (pagesOf (lists.map (·.2)))
  let env : Env := ⟨r.elsewhere, pages⟩
  if (firstFault (listFaults pages lists)).isSome || (env.listBad lists).isSome then []
  else (List.range v.t.cols).map (env.index v (s.scaleOf v) 0)

/-- GATHP fetches a page outside the issuing core's package (R237); a list that cannot be read names none. -/
def State.gathpOff (s : State) (a b : BitVec 6) (pshift : Nat) : Bool :=
  match s.slotView .flume 0 a, s.slotView .flume 1 b with
  | .ok va, .ok vb =>
    va.t.kind == 8 || (va.t.sen && s.offPackage ⟨s.scaleOf va, 0⟩)
      || (s.timedIndices vb).any fun i => 0 ≤ i && s.offPackage (va.page i.toNat pshift)
  | _, _ => false

/-- What GATHP checks and does at issue (R246). -/
def gathpBody (a b c : BitVec 6) (pshift : BitVec 6) (skip : Bool) (s : State) : Except Trap (State × Issued) := do
  need .timedState (s.flumeTimed (s.gathpOff a b pshift.toNat) (s.peek .flume [(1, b)]) (s.peek .flume [(2, c)]))
  let va ← s.slotView .flume 0 a
  let vb ← s.slotView .flume 1 b
  let vc ← s.slotView .flume 2 c
  need .tack (s.flumeTack [(va, [3], false), (vb, [1, 2], false), (vc, [1, 2], true)])
  need .format (s.slotFormat va || s.slotFormat vb || s.slotFormat vc || !vb.t.indexFormat)
  let n := vb.t.cols
  let p := pshift.toNat
  need .geometry (vb.t.rows != 1 || p < 6 || 46 < p || va.pageShort p || vc.t.rows < n * va.t.rows
    || vc.t.cols != va.t.cols || s.slotWalk va || s.slotWalk vb || s.slotWalk vc)
  s.flumeGo (s.fluOp (.gathp p skip) va vb vc) (some vb)

/-- Occupancy and landing of GATHP (R234). -/
def gathpCost (a b c : BitVec 6) : State → Cost := slots3 a b c fun s va vb vc =>
  let n := vb.t.cols
  let R := va.t.rows
  flumeCost (max (n * (va.bytes R + s.scaleBytes va R) + vb.bytes 1 + s.scaleBytes vb 1 + s.scaleBytes vc (n * R))
    (vc.bytes (n * R))) [va.t, vb.t, vc.t]

/-- GATHP (R246). -/
def execGathp (h : CmdHead) (a b c : BitVec 6) (pshift : BitVec 6) (skip : Bool) (s : State) : Out :=
  s.issue .flume h .a (gathpCost a b c) (gathpBody a b c pshift skip)

/-! ### EXP24, BCAST, CMPB -/

/-- A view whose SEN is not read (R247). -/
def View.unscaled (v : View) : View := { v with t := { v.t with w4 := 0 } }

/-- The run of EXP24's metadata (R247). -/
def View.metaRun (v : View) : Run := ⟨v.t, false, v.line v.t.rows, v.t.rows * ceilDiv v.t.cols 4⟩

/-- What EXP24 checks and does at issue (R247). -/
def exp24Body (a c : BitVec 6) (s : State) : Except Trap (State × Issued) := do
  let pa := s.peek .flume [(0, a)]
  need .timedState (s.flumeTimed ((pagesOf (pa.map View.metaRun)).any s.pageOff) (pa.map View.unscaled)
    ((s.peek .flume [(2, c)]).map View.unscaled))
  let va ← s.slotView .flume 0 a
  let vc ← s.slotView .flume 2 c
  need .tack (va.t.tackBad || vc.t.tackBad
    || s.flumeTack [(va.unscaled, [1, 2, 3], false), (vc.unscaled, [1, 2], true)])
  let va := va.unscaled
  let vc := vc.unscaled
  need .format (s.slotFormat va || s.slotFormat vc || va.t.fmtCode != vc.t.fmtCode || va.t.custom != vc.t.custom)
  need .geometry (va.t.layout != 0 || vc.t.layout != 0 || vc.t.rows % 4 != 0 || 2 * va.t.rows != vc.t.rows
    || va.t.cols != vc.t.cols || s.slotWalk va || s.slotWalk vc || va.outside va.metaRun.a va.metaRun.n)
  s.flumeGo (s.fluOp .exp24 va View.none_ vc) none

/-- Occupancy and landing of EXP24 (R234). -/
def exp24Cost (a c : BitVec 6) : State → Cost := slots3 a 0 c fun _ va _ vc =>
  flumeCost (max (va.bytes va.t.rows + va.metaRun.n) (vc.bytes vc.t.rows)) [va.t, vc.t]

/-- EXP24 (R247). -/
def execExp24 (h : CmdHead) (a c : BitVec 6) (s : State) : Out :=
  s.issue .flume h .a (exp24Cost a c) (exp24Body a c)

/-- The launch cores of a unit of scope `scope` that holds `n` (R171). -/
def State.unitOf (s : State) (scope n : Nat) : Nat :=
  match scope with
  | 0 => n
  | 1 => n / 4
  | 2 => n / 144
  | 3 => n / s.coresPerPkg
  | _ => 0

/-- The tasks of the launch in the same unit as launch core `n` (R171, R252). -/
def State.unitCores (s : State) (scope n : Nat) : List Nat :=
  (List.range s.task.extent).filter fun m => s.unitOf scope m == s.unitOf scope n

/-- What BCAST checks and does at issue (R252). -/
def bcastBody (a c : BitVec 6) (scope : BitVec 3) (s : State) : Except Trap (State × Issued) := do
  need .timedState (s.flumeTimed true [] [])
  let va ← s.slotView .flume 0 a
  let vc ← s.slotView .flume 2 c
  need .tack (s.flumeTack [(va, [1, 2, 3], false), (vc, [8], true)])
  need .format (s.slotFormat va || s.slotFormat vc)
  need .geometry (va.t.rows != vc.t.rows || va.t.cols != vc.t.cols || s.slotWalk va || s.slotWalk vc)
  let ns := s.unitCores scope.toNat vc.t.core
  s.flumeGo (s.fluOp (.bcast ns) va View.none_ vc) none

/-- Occupancy and landing of BCAST: every target counts in full, and the row of R234 that names it holds whatever its source
is. -/
def bcastCost (a c : BitVec 6) (scope : BitVec 3) : State → Cost := slots3 a 0 c fun s va _ vc =>
  remoteCost (max (va.bytes va.t.rows + s.scaleBytes va va.t.rows + s.scaleBytes vc vc.t.rows)
    ((s.unitCores scope.toNat vc.t.core).length * vc.bytes vc.t.rows))

/-- BCAST (R252). -/
def execBcast (h : CmdHead) (a c : BitVec 6) (scope : BitVec 3) (s : State) : Out :=
  s.issue .flume h .a (bcastCost a c scope) (bcastBody a c scope)

/-- What CMPB checks and does at issue (R255). -/
def cmpbBody (a b c : BitVec 6) (s : State) : Except Trap (State × Issued) := do
  need .timedState (s.flumeTimed false (s.peek .flume [(0, a), (1, b)]) (s.peek .flume [(2, c)]))
  let va ← s.slotView .flume 0 a
  let vb ← s.slotView .flume 1 b
  let vc ← s.slotView .flume 2 c
  need .tack (s.flumeTack [(va, [1, 2, 3], false), (vb, [1, 2, 3], false), (vc, [1, 2], true)])
  need .format (s.slotFormat va || s.slotFormat vb || s.slotFormat vc || va.t.fmtCode != 0x21
    || vb.t.fmtCode != 0x21 || vc.t.fmtCode != 0x05)
  need .geometry (va.t.rows != vb.t.rows || va.t.cols != vb.t.cols || vc.t.cols < va.t.rows
    || s.slotWalk va || s.slotWalk vb || s.slotWalk vc)
  s.flumeGo (s.fluOp .cmpb va vb vc) none

/-- Occupancy and landing of CMPB, whose bytes are counted for one of its sources (R234, R255). -/
def cmpbCost (a b c : BitVec 6) : State → Cost := slots3 a b c fun _ va vb vc =>
  flumeCost (va.t.rows * va.t.cols) [va.t, vb.t, vc.t]

/-- CMPB (R255). -/
def execCmpb (h : CmdHead) (a b c : BitVec 6) (s : State) : Out :=
  s.issue .flume h .a (cmpbCost a b c) (cmpbBody a b c)

/-! ### PUTR (R248 to R251) -/

/-- Elements of a request: 64 bytes of consecutive elements of one row (R250). -/
def perRequest (w : Nat) : Nat := max 1 (512 / max w 1)

/-- Cut the elements of one command into requests: `n` elements each, never across a row of `cols`. -/
def cutRequests (n cols : Nat) : List (Nat × RedElem) → List (Nat × RedElem) → List (List (Nat × RedElem))
  | [], acc => if acc.isEmpty then [] else [acc.reverse]
  | e :: t, [] => cutRequests n cols t [e]
  | e :: t, f :: acc =>
    if e.1 % cols % n == 0 then (f :: acc).reverse :: cutRequests n cols t [e]
    else cutRequests n cols t (e :: f :: acc)

/-- Give the requests of a command to the engine, each with the next tag (R250). -/
def Eng.send (g : Eng) (seq : Nat) (tgt : Space) (mk : List (Nat × RedElem) → ReqOp) :
    List (List (Nat × RedElem)) → Eng
  | [] => g
  | es :: t =>
    Eng.send { g with
      tag := g.tag + 1
      reqs := g.reqs ++ [⟨g.tag, seq, (es.head?.map (·.1)).getD 0, tgt, mk es, false, false, false, [], 0⟩] } seq tgt mk t

/-- Send the converted elements of a PUTR. -/
def State.sendPutr (s : State) (seq : Nat) (op : FluOp) (rop : Nat) (red : List (Nat × RedElem)) : State :=
  s.setEng .flume ((s.eng .flume).send seq op.c.t.space (fun es => .putr rop op.c.t.fmtCode (es.map (·.2)))
    (cutRequests (perRequest op.c.w) op.c.t.cols red []))

/-- The bytes of the targets of the elements that a PUTR has sent, as writes that are done: a command that goes on reads them as they
were before its own requests (R239). -/
def FluDone.sentOver (d : FluDone) (s : State) (op : FluOp) : List BWrite :=
  if d.stop.isSome then
    d.out.red.flatMap fun x => x.2.at_.map fun a => ⟨op.c.t.space, a, 0, s.elsewhere.rdByte op.c.t.space a⟩
  else []

/-- The elements of a PUTR with the lane states before each of them, and those after the last (R71). -/
def FluDone.sentEnds (d : FluDone) (n : Nat) : List FluEnd :=
  fluEnds true n d.before d.pieces ++ [⟨(d.pieces.getLast?.map (·.k + 1)).getD 0, n, d.after⟩]

/-- What PUTR checks and does at issue (R248 to R250). -/
def putrBody (a c : BitVec 6) (rop : BitVec 2) (s : State) : Except Trap (State × Issued) := do
  need .timedState (s.flumeTimed true [] [])
  let va ← s.slotView .flume 0 a
  let vc ← s.slotView .flume 2 c
  need .tack (s.flumeTack [(va, [1, 2], false), (vc, [3, 8], true)])
  need .format (s.slotFormat va || s.slotFormat vc
    || !(vc.t.fmtCode == 0x05 || vc.t.fmtCode == 0x12 || vc.t.fmtCode == 0x20))
  need .geometry (va.t.rows != vc.t.rows || va.t.cols != vc.t.cols || s.slotWalk va || s.slotWalk vc)
  failIf (s.gone vc)
  let op : FluOp := (s.fluOp (.putr rop.toNat) va View.none_ vc)
  let s := s.asRead .flume
  let (d, s) := s.flumeElems s.elsewhere op 0 []
  failIf (d.clashFault s op)
  pure (s.sendPutr (s.eng .flume).seq op rop.toNat d.out.red.reverse,
    { writes := d.sentOver s op, stop := d.stop, op := .flu op (d.sentEnds 0), cont := contOf [vc]
      cls := classMask (vc :: if d.stop.isSome then op.rereads else []) })

/-- Occupancy and landing of PUTR (R234). -/
def putrCost (a c : BitVec 6) : State → Cost := slots3 a 0 c fun s va _ vc =>
  remoteCost (max (va.bytes va.t.rows + s.scaleBytes va va.t.rows + s.scaleBytes vc vc.t.rows) (vc.bytes vc.t.rows))

/-- PUTR (R248 to R250): its elements are converted at issue and go out as tagged requests. -/
def execPutr (h : CmdHead) (a c : BitVec 6) (rop : BitVec 2) (s : State) : Out :=
  s.issue .flume h .a (putrCost a c) (putrBody a c rop)

/-! ### FSEED, PFETCH -/

/-- What FSEED checks and does at issue (R253). -/
def fseedBody (a : BitVec 6) (s : State) : Except Trap (State × Issued) := do
  need .timedState (s.flumeTimed false (s.peek .flume [(0, a)]) [])
  let (s, seed, _) ← seedOperand .flume a s
  let s := s.setEng .flume (s.eng .flume).lanesPassed
  pure (s.withTask { s.task with flumeGen := lanesFrom seed }, {})

/-- FSEED (R253). -/
def execFseed (h : CmdHead) (a : BitVec 6) (s : State) : Out :=
  s.issue .flume h .none (fun _ => { lat := 1 }) (fseedBody a)

/-- What PFETCH checks and does at issue (R254). -/
def pfetchBody (a : BitVec 6) (s : State) : Except Trap (State × Issued) := do
  need .timedState (s.flumeTimed true [] [])
  let va ← s.slotView .flume 0 a
  need .tack (s.flumeTack [(va, [3], false)])
  need .format (s.slotFormat va)
  pure ((s.mapPages .load false va.pages).2, {})

/-- PFETCH (R254): the translations of the walk's pages enter the buffer unpinned; a page that would fault is skipped. It
never raises OVERRUN: in a timed frame TIMED-STATE stands at its stamp, after TOKEN alone. -/
def execPfetch (h : CmdHead) (a : BitVec 6) (s : State) : Out :=
  let g := s.eng .flume
  let S := g.nextStamp h.idle.toNat
  if g.strict && s.mayIssue .flume && decide (S ≤ g.cnt) then
    match s.task.resolveAll .flume S g.seq (g.waits h) with
    | .token => .next (s.failAt .flume { code := .token })
    | .cancelled => .next s
    | _ => .next (s.failAt .flume { code := .timedState })
  else s.issue .flume h .a (fun _ => { occ := 1, lat := 1 }) (pfetchBody a)

end Sys2Proof.Machine
end

