-- ==== Sys2Proof/Machine/Sluice.lean ====
section
/-! DEFINITION. The commands of the sluice (R261 to R286): slots and checks (R262, R263), what they read and carry, and their
costs (R271). Every update performs when its command lands (R268). -/

namespace Sys2Proof.Machine

/-- The state as the sluice's own earlier commands will leave it, in issue order (R269). -/
def State.sluAhead (s : State) : State :=
  let reqs := (s.eng .sluice).reqs
  (s.eng .sluice).flight.foldl (fun s f =>
    match f.op with
    | .slu op =>
      if op.far then
        ((reqs.filter fun r => r.seq == f.seq && !r.applied && !r.confirmed).foldl (fun s r => (s.applyReq r).1) s).seeded f
      else (op.land f.seedAfter s).1
    | _ => s) s

/-- The places that the sluice's commands are still to write from the first one on that will stop (R269, R284). -/
def State.sluHeld (s : State) : List (Space × Nat) :=
  if s.sound then []
  else
    let g := s.eng .sluice
    (g.flight.dropWhile fun f => !s.blocked .sluice f).flatMap g.places

/-- Take over at issue what a command reads without updating it, up to the first element that cannot be read (R284), but for what
earlier commands write only after a stop: that is read when the command performs, after all of them (R269). -/
def SluOp.readAhead (op : SluOp) (s : State) : SluOp :=
  if op.far || (op.early 0).isNone then op
  else
    let held := s.sluHeld
    let s := s.sluAhead
    let good (i : Nat) : Bool := match op.early i with
      | some x => (s.sluBad x.1 x.2).isNone
      | none => true
    { op with
      vals := ((List.range op.last).takeWhile good).map fun i =>
        match op.early i with
        | some x => s.sluGet x.1 x.2
        | none => 0
      late := if held.isEmpty then []
        else (List.range op.last).filter fun i => (op.early i).any fun x => (x.1.span x.2).any held.contains }

/-! ### Issue -/

/-- TIMED-STATE of a sluice command (R84, R272). -/
def State.sluTimed (s : State) (read written : List View) : Bool :=
  (s.eng .sluice).strict
    && (s.namesMem (read ++ written) || (read ++ written).any (fun v => (s.named v).any fun t => t.kind == 8)
        || written.any fun v => v.t.cscope != 0)

/-- The landing of a sluice command that accesses memory: never before the previous one's (R269). -/
def State.sluLat (s : State) (lat : Nat) : Nat :=
  let g := s.eng .sluice
  (g.flight.filter fun f => match f.op with | .slu _ => true | _ => false).foldl (fun m f => max m (f.land - g.cnt)) lat

/-- The requests of a command with a REMOTE target: one for each window, or one for each element that is not skipped (R267,
R284). -/
def SluOp.pieces (op : SluOp) : List SluOp :=
  let n := match op.kind with
    | .sacc _ => 64
    | .bset => 64
    | .bclr => 64
    | _ => 1
  ((List.range (ceilDiv op.last n)).map fun k => { op with first := k * n, last := min op.last (k * n + n) }).filter
    fun p => p.elems.any fun i => (op.aim i).isSome

/-- Give the pieces of a command to the engine as tagged requests (R250, R284). -/
def Eng.sendSlu (g : Eng) (seq : Nat) : List SluOp → Eng
  | [] => g
  | op :: t =>
    Eng.sendSlu { g with
      tag := g.tag + 1
      reqs := g.reqs ++ [⟨g.tag, seq, op.first, op.tgt.t.space, .slu op, false, false, false, [], 0⟩] } seq t

/-- The cost of a sluice command with target `t`: a REMOTE one by R271's row for it (`n` elements), a local one by its own; the
landing is never before the previous command's (R269). -/
def State.sluCost (s : State) (t : Entry) (n : Nat) (k : Cost) : Cost :=
  if t.kind == 8 then { occ := ceilDiv n 16, lat := s.sluLat (ceilDiv n 16) } else { k with lat := s.sluLat k.lat }

/-- The entries that a command reads after its issue and does not write: the bitmap of BTEST with TAS = 0, and a source that could
not be read whole at issue (R34, R284). -/
def SluOp.readLate (op : SluOp) : List View :=
  match op.kind, op.early 0 with
  | .btest false, _ => [op.tgt]
  | _, some x => if op.vals.length < op.last || !op.late.isEmpty then [x.1] else []
  | _, none => []

/-- The end of a sluice command's issue: a local one takes effect when it lands, a remote one through requests. The fences of
a class see the entries it writes or reads later, and a remote one's target (R34). -/
def State.sluGo (s : State) (op : SluOp) (written : List View) : State × Issued :=
  let op := op.readAhead s
  let i : Issued := { op := .slu op, cls := classMask (op.readLate ++ written), cont := contOf written }
  if op.far then
    let g := s.eng .sluice
    (s.setEng .sluice (g.sendSlu g.seq op.pieces), { i with cls := classMask (op.tgt :: written) })
  else (s, i)

/-- Slots and index list of a command of R264 to R276: the checks in the order of R263. `kinds` is what slot c takes,
`bSlot` says what slot b is, and `bad` the command's own format and extent rules. The values of skipped elements are converted with
the others (log entry 104). -/
def sluBody (kind : SluKind) (a : BitVec 6) (b : Option (BitVec 6)) (c : BitVec 6) (skip bWritten cWritten : Bool)
    (kinds : List Nat) (fmtBad : View → Option View → Bool) (bShort : View → Nat → Bool)
    (s : State) : Except Trap (State × Issued) := do
  let pb := match b with | some b => s.peek .sluice [(1, b)] | none => []
  let pc := s.peek .sluice [(2, c)]
  need .timedState (s.sluTimed (s.peek .sluice [(0, a)] ++ (if bWritten then [] else pb) ++ if cWritten then [] else pc)
    ((if bWritten then pb else []) ++ if cWritten then pc else []))
  let va ← s.slotView .sluice 0 a
  let vb ← match b with
    | some b => (s.slotView .sluice 1 b).map some
    | none => .ok none
  let vc ← s.slotView .sluice 2 c
  need .tack (s.slotTack va [1, 2] false || s.slotTack vc kinds cWritten
    || (match vb with | some v => s.slotTack v [1, 2] bWritten | none => false))
  need .format (s.slotFormat va || s.slotFormat vc || !va.t.indexFormat || fmtBad vc vb
    || (match vb with | some v => s.slotFormat v | none => false))
  let n := va.t.cols
  need .geometry (va.t.rows != 1 || s.slotWalk va || s.slotWalk vc
    || (match vb with | some v => bShort v n || s.slotWalk v | none => false))
  let s := s.asRead .sluice
  let rows : Nat := match kind with
    | .btest _ => 0
    | .scas => 2
    | _ => 1
  let lists := s.listRuns va 0 n ++ vb.toList.flatMap fun v => (List.range rows).flatMap fun r => s.listRuns v r n
  let view := s.elsewhere
  let (pages, s) := s.mapPages .load (s.eng .sluice).strict (pagesOf (lists.map (·.2)))
  failIf (firstFault (listFaults pages lists))
  let env : Env := ⟨view, pages⟩
  failIf (env.listBad lists)
  let idx := (List.range n).map (env.index va (s.scaleOf va) 0)
  let op : SluOp := SluOp.start kind idx vc (vb.getD View.none_) n
  failIf (if skip then none
    else ((numbered 0 idx).find? fun p => !op.ok p.2).map fun p => { code := .geometry, elem := some p.1 })
  failIf (s.gone vc)
  let sb := match vb with | some v => s.scaleOf v | none => View.none_.t
  let row (r : Nat) : List Conv := match vb with
    | some v => (List.range n).map fun i =>
        if verbatim v.t vc.t || v.t.fmtCode == vc.t.fmtCode && !v.t.sen then { code := env.code v r i, gen := 1 }
        else convert vc.t.fmt false vc.t.sat (env.value v sb r i) 1
    | none => []
  let vals := match kind with
    | .bset => List.replicate n (1 : Nat)
    | .bclr => List.replicate n 0
    | .btest _ => []
    | .cinc => []
    | _ => (row 0).map (·.code)
  let flags := match kind with | .sacc _ => row 0 | _ => []
  let g := s.eng .sluice
  let s := s.setEng .sluice { g with nan := g.nan || flags.any (·.nan), sat := g.sat || flags.any (·.sat) }
  let news := match kind with | .scas => (row 1).map (·.code) | _ => []
  pure (s.sluGo { op with vals, news } ((if bWritten then vb.toList else []) ++ if cWritten then [vc] else []))

/-- Occupancy and landing of the windowed commands (R271). -/
def costWide (a c : BitVec 6) (s : State) : Cost :=
  let n := (s.slotOr .sluice 0 a).t.cols
  s.sluCost (s.slotOr .sluice 2 c).t n { occ := ceilDiv n 16, lat := ceilDiv n 16 + 40 }

/-- Occupancy and landing of the element-wise commands (R271). -/
def costEach (a c : BitVec 6) (s : State) : Cost :=
  let n := (s.slotOr .sluice 0 a).t.cols
  s.sluCost (s.slotOr .sluice 2 c).t n { occ := ceilDiv n 8, lat := ceilDiv n 8 + 48 }

/-- Slot b does not have the target's format, verbatim (R266). -/
def notVerbatim (c : View) : Option View → Bool
  | some v => v.t.fmtCode != c.t.fmtCode || v.t.custom != c.t.custom || v.t.sen
  | none => false

/-- The target's own format rules for SACC and SFETCH (R265). -/
def targetBad (sop : Nat) (c : View) : Bool := !sopAllowed c.t.fmtCode sop || c.t.sen || c.t.sr

/-- What SACC checks and does at issue (R273). -/
def saccBody (a b c : BitVec 6) (skip : Bool) (sop : BitVec 3) : State → Except Trap (State × Issued) :=
  sluBody (.sacc sop.toNat) a (some b) c skip false true [2, 8]
    (fun c _ => targetBad sop.toNat c) (fun v n => v.t.cols < n)

/-- SACC (R273). -/
def execSacc (h : CmdHead) (a b c : BitVec 6) (skip : Bool) (sop : BitVec 3) (s : State) : Out :=
  s.issue .sluice h .a (costWide a c) (saccBody a b c skip sop)

/-- What SFETCH checks and does at issue (R274). -/
def sfetchBody (a b c : BitVec 6) (skip : Bool) (sop : BitVec 3) : State → Except Trap (State × Issued) :=
  sluBody (.sfetch sop.toNat) a (some b) c skip true true [2, 8]
    (fun c b => targetBad sop.toNat c || notVerbatim c b) (fun v n => v.t.cols < n)

/-- SFETCH (R274). -/
def execSfetch (h : CmdHead) (a b c : BitVec 6) (skip : Bool) (sop : BitVec 3) (s : State) : Out :=
  s.issue .sluice h .a (costEach a c) (sfetchBody a b c skip sop)

/-- What SCAS checks and does at issue (R275). -/
def scasBody (a b c : BitVec 6) (skip : Bool) : State → Except Trap (State × Issued) :=
  sluBody .scas a (some b) c skip true true [2, 8]
    (fun c b => !([0x02, 0x03, 0x21, 0x04, 0x05, 0x12].contains c.t.fmtCode) || notVerbatim c b)
    (fun v n => v.t.cols < n || v.t.rows < 2)

/-- SCAS (R275). -/
def execScas (h : CmdHead) (a b c : BitVec 6) (skip : Bool) (s : State) : Out :=
  s.issue .sluice h .a (costEach a c) (scasBody a b c skip)

/-- What BSET checks and does at issue (R276). -/
def bsetBody (a c : BitVec 6) (skip : Bool) : State → Except Trap (State × Issued) :=
  sluBody .bset a none c skip false true [2, 8] (fun c _ => c.t.fmtCode != 0x20) (fun _ _ => false)

/-- BSET (R276). -/
def execBset (h : CmdHead) (a c : BitVec 6) (skip : Bool) (s : State) : Out :=
  s.issue .sluice h .a (costWide a c) (bsetBody a c skip)

/-- What BCLR checks and does at issue (R276). -/
def bclrBody (a c : BitVec 6) (skip : Bool) : State → Except Trap (State × Issued) :=
  sluBody .bclr a none c skip false true [2, 8] (fun c _ => c.t.fmtCode != 0x20) (fun _ _ => false)

/-- BCLR (R276). -/
def execBclr (h : CmdHead) (a c : BitVec 6) (skip : Bool) (s : State) : Out :=
  s.issue .sluice h .a (costWide a c) (bclrBody a c skip)

/-- What BTEST checks and does at issue (R276). -/
def btestBody (a b c : BitVec 6) (skip tas : Bool) : State → Except Trap (State × Issued) :=
  sluBody (.btest tas) a (some b) c skip true tas [2, 8]
    (fun c b => c.t.fmtCode != 0x20 || (match b with | some v => v.t.fmtCode != 0x20 | none => false))
    (fun v n => v.t.cols < n || v.t.rows != 1)

/-- BTEST (R276): with TAS = 0 its slot c is not written. -/
def execBtest (h : CmdHead) (a b c : BitVec 6) (skip tas : Bool) (s : State) : Out :=
  s.issue .sluice h .a (costEach a c) (btestBody a b c skip tas)

/-- What CINC checks and does at issue (R280). -/
def cincBody (a c : BitVec 6) (skip : Bool) : State → Except Trap (State × Issued) :=
  sluBody .cinc a none c skip false true [7] (fun _ _ => false) (fun _ _ => false)

/-- CINC (R280): UNIMPL on the D2 (R286). -/
def execCinc (h : CmdHead) (a c : BitVec 6) (skip : Bool) (s : State) : Out :=
  if s.d4 then
    s.issue .sluice h .a (costEach a c) (cincBody a c skip)
  else s.failFirst .sluice .a .unimpl

/-- Port occupancy of a merge of `n` counters (R271). -/
def mergeOcc (t : Entry) (n : Nat) : Nat := ceilDiv (n * min (lmax t) (31 / t.kExp)) 16

/-- Occupancy and landing of CMERGE (R271). -/
def cmergeCost (c : BitVec 6) (s : State) : Cost :=
  let t := (s.slotOr .sluice 2 c).t
  let m := mergeOcc t (t.rows * t.cols)
  s.sluCost t 0 { occ := m, lat := m + 64 }

/-- What CMERGE checks and does at issue (R281). -/
def cmergeBody (a c : BitVec 6) (s : State) : Except Trap (State × Issued) := do
  need .timedState (s.sluTimed (s.peek .sluice [(0, a)]) (s.peek .sluice [(2, c)]))
  let va ← s.slotView .sluice 0 a
  let vc ← s.slotView .sluice 2 c
  need .tack (s.slotTack va [7] false || s.slotTack vc [7] true)
  need .format (s.slotFormat va || s.slotFormat vc || va.t.fmtCode != vc.t.fmtCode || va.t.kExp != vc.t.kExp
    || va.t.lw8 != vc.t.lw8)
  need .geometry (va.t.rows != vc.t.rows || va.t.cols != vc.t.cols || s.slotWalk va || s.slotWalk vc)
  pure ((s.asRead .sluice).sluGo (SluOp.start .cmerge [] vc va (vc.t.rows * vc.t.cols)) [vc])

/-- CMERGE (R281): UNIMPL on the D2 (R286). -/
def execCmerge (h : CmdHead) (a c : BitVec 6) (s : State) : Out :=
  if s.d4 then
    s.issue .sluice h .a (cmergeCost c) (cmergeBody a c)
  else s.failFirst .sluice .a .unimpl

/-- What CREAD checks and does at issue (R282). -/
def creadBody (a c : BitVec 6) (s : State) : Except Trap (State × Issued) := do
  need .timedState (s.sluTimed (s.peek .sluice [(0, a)]) (s.peek .sluice [(2, c)]))
  let va ← s.slotView .sluice 0 a
  let vc ← s.slotView .sluice 2 c
  need .tack (s.slotTack va [7] false || s.slotTack vc [1, 2] true)
  need .format (s.slotFormat va || s.slotFormat vc || !(vc.t.fmtCode == 0x05 || vc.t.fmtCode == 0x12) || vc.t.sr)
  need .geometry (va.t.rows != vc.t.rows || va.t.cols != vc.t.cols || s.slotWalk va || s.slotWalk vc)
  let n := va.t.rows * va.t.cols
  let sc := s.scaleOf vc
  let scales := (List.range n).flatMap fun e =>
    (scaleRun vc sc (e / vc.t.cols) (e % vc.t.cols)).map fun r => (e, r)
  let s := s.asRead .sluice
  let view := s.elsewhere
  let (pages, s) := s.mapPages .load (s.eng .sluice).strict (pagesOf (scales.map (·.2)))
  failIf (firstFault (listFaults pages scales))
  let env : Env := ⟨view, pages⟩
  failIf (env.listBad scales)
  let news := if vc.t.sen then (List.range n).map fun e => env.scaleCode vc sc (e / vc.t.cols) (e % vc.t.cols) else []
  pure (s.sluGo { SluOp.start .cread [] va vc n with news } [vc])

/-- Occupancy and landing of CREAD (R271). -/
def creadCost (a : BitVec 6) (s : State) : Cost :=
  let t := (s.slotOr .sluice 0 a).t
  let n := ceilDiv (t.rows * t.cols) 16
  s.sluCost t 0 { occ := n, lat := n + 32 }

/-- CREAD (R282): UNIMPL on the D2 (R286). -/
def execCread (h : CmdHead) (a c : BitVec 6) (s : State) : Out :=
  if s.d4 then
    s.issue .sluice h .a (creadCost a) (creadBody a c)
  else s.failFirst .sluice .a .unimpl

/-- What SSEED checks and does at issue (R283). -/
def sseedBody (a : BitVec 6) (s : State) : Except Trap (State × Issued) := do
  need .timedState (s.sluTimed (s.peek .sluice [(0, a)]) [])
  let (s, seed, _) ← seedOperand .sluice a s
  let g := s.eng .sluice
  let later := (g.flight.filter fun f => match f.op with | .slu _ => true | _ => false).getLast?
  match later with
  | some l =>
    pure (s.setEng .sluice { g with
      flight := g.flight.map fun f => if f.seq = l.seq then { f with seedAfter := some (seedOf seed) } else f }, {})
  | none => pure (s.withTask { s.task with sluGen := seedOf seed }, {})

/-- SSEED (R283): the new state serves the draws of later commands only, so it waits for the landing of the last earlier
command that may draw. -/
def execSseed (h : CmdHead) (a : BitVec 6) (s : State) : Out :=
  s.issue .sluice h .none (fun _ => { lat := 1 }) (sseedBody a)

end Sys2Proof.Machine
end

