-- ==== Sys2Proof/Machine/Landing.lean ====
section
/-! DEFINITION. The landing of commands (R20, R24), tagged requests and their targets (R249, R250, R284), timeouts (R75,
R251), and the continuation of a stopped command (R241, R242, R284, R309). -/

namespace Sys2Proof.Machine

/-! ### When a command lands -/

/-- Every byte that the command is still to write in another core's scratchpad has its task resident (R75). -/
def State.reaches (s : State) (f : Flight) : Bool :=
  f.writes.all fun w => w.mask == 0 || match w.sp with | .far n => s.reachable n | _ => true

/-- The requests of a command that are not confirmed. -/
def Eng.unconfirmed (g : Eng) (seq : Nat) : List Req := g.reqs.filter fun r => r.seq == seq && !r.confirmed

/-- Behind a stopped command of its engine the command does not land: a sluice command keeps its order (R269), and one that meets a
fault itself finds the restart entry taken (R242; log entry 65). -/
def State.mayStop (s : State) (e : EngId) (f : Flight) : Bool :=
  f.stop.isSome || s.foldBad e f || (match f.op with | .slu _ => true | _ => false)

/-- The command has a fold in another core's scratchpad that is still to be applied, and its target is resident: the fold goes out with
all that the command lands (R75, R223). -/
def State.foldGoes (s : State) (e : EngId) (f : Flight) : Bool := ((s.eng e).foldLeft f.seq).any s.reqReaches

/-- May the command land now? Its other requests are confirmed first (R250), the sluice keeps its issue order (R269), and
EFENCE waits for the classes it names, a stopped command's among them (R34). A request past its 8 ms keeps its command (R251). -/
def State.due (s : State) (e : EngId) (f : Flight) : Bool :=
  let g := s.eng e
  s.cycleCome e f && ((g.unconfirmed f.seq).isEmpty || s.foldGoes e f) && s.reaches f
    && g.reqs.all (fun r => r.seq != f.seq || !r.lost)
    && !(g.stopped.isSome && s.mayStop e f)
    && (match f.op with
        | .slu _ => g.flight.all fun x => x.seq ≥ f.seq || (match x.op with | .slu _ => false | _ => true)
        | .fence m => (g.flight ++ g.stopped.toList).all fun x => x.seq ≥ f.seq || x.cls &&& m == 0
        | _ => true)

/-- An issued command is held at a core whose task is not resident (R75). -/
def State.holdsFar (s : State) (e : EngId) (f : Flight) : Bool :=
  !s.reaches f || ((s.eng e).unconfirmed f.seq).any fun r => !r.applied && !s.reqReaches r

/-- A request that may not go out behind a stopped command, or for which there is no room behind such ones. -/
def State.reqBlocked (s : State) (e : EngId) (r : Req) : Bool :=
  let w := (s.eng e).window
  !r.applied && (!s.reqAllowed e r || (!w.contains r && w.any fun x => !s.reqAllowed e x))

/-- An issued command cannot finish before the stopped command of its engine goes on. -/
def State.heldBehind (s : State) (e : EngId) (f : Flight) : Bool :=
  let g := s.eng e
  let held (x : Flight) : Bool := s.mayStop e x || (g.unconfirmed x.seq).any (s.reqBlocked e)
  g.stopped.isSome && (held f || match f.op with
    | .fence m => (g.stopped.toList ++ g.flight.filter held).any fun x => decide (x.seq < f.seq) && x.cls &&& m != 0
    | _ => false)

/-- An issued command can finish: neither a core that holds no task nor a stopped command keeps it (R30, R75, R305). -/
def State.canFinish (s : State) (e : EngId) (f : Flight) : Bool := !s.holdsFar e f && !s.heldBehind e f

/-! ### The lanes of a stopped command (R71) -/

/-- The lanes when a command is stopped at an element: they hold the state `gens` before it (R71). Where a later command has drawn
or seeded already, the stopped one keeps that state for itself. -/
def State.rewind (s : State) (op : FluOp) (gens : Sparse (BitVec 32)) : State × FluOp :=
  if op.lanes.isNone && !op.passed then (s.withTask { s.task with flumeGen := gens }, op)
  else (s, { op with lanes := some gens })

/-- A PUTR is stopped at the request of element `k`: the lanes hold the state before that element (R71, R251). -/
def State.rewindSent (s : State) (f : Flight) (k : Nat) : State × Flight :=
  match f.op with
  | .flu op ends =>
    match op.kind, ends.find? fun x => x.k == k with
    | .putr _, some x => let (s, op) := s.rewind op x.gens; (s, { f with op := .flu op ends })
    | _, _ => (s, f)
  | _ => (s, f)

/-- A PUTR whose elements have all been converted goes on: its lanes stand again as after the last of them (R71). -/
def State.resumeSent (s : State) (f : Flight) : State × Flight :=
  match f.op with
  | .flu op ends =>
    match op.kind, ends.getLast? with
    | .putr _, some x => let (s, op) := s.rewind op x.gens; (s, { f with op := .flu op ends })
    | _, _ => (s, f)
  | _ => (s, f)

/-! ### Tagged requests (R249 to R251, R284, R223) -/

/-- Replace the request with tag `tag`. -/
def Eng.setReq (g : Eng) (tag : BitVec 32) (f : Req → Req) : Eng :=
  { g with reqs := g.reqs.map fun r => if r.tag = tag then f r else r }

/-- CONF of the restart entry: bit k says that request `tag + k` has been confirmed (R242). -/
def Eng.confBits (g : Eng) (tag : BitVec 32) : BitVec 32 :=
  BitVec.ofNat 32 ((List.range 32).foldl (fun acc k =>
    if g.reqs.any fun r => r.tag == tag + BitVec.ofNat 32 k && r.confirmed then acc + 2 ^ k else acc) 0)

/-- May a request be applied now: in flight, its target resident, after the earlier requests of its command (R241), and for the
sluice in issue order (R269)? Behind a stopped command only one that stops nothing. -/
def State.reqReady (s : State) (e : EngId) (r : Req) : Bool :=
  let g := s.eng e
  let before := g.reqs.takeWhile fun x => x.tag != r.tag
  !r.applied && !r.confirmed && g.window.contains r && s.reqReaches r && s.reqAllowed e r && s.foldSent e r
    && (r.age != 0 || !g.loses)
    && before.all (fun x => x.applied || (e != .sluice && x.seq != r.seq))
    && (e != .sluice
      || g.flight.all fun f => r.seq ≤ f.seq
            || (match f.op with | .slu op => op.tgt.t.kind == 8 | _ => true))

/-- The old values that confirmed requests of a sluice command have brought back are written, once (R284). -/
def State.deliverConfirmed (s : State) (e : EngId) (f : Flight) : State :=
  match f.op with
  | .slu op =>
    let mine (r : Req) : Bool := r.seq == f.seq && r.confirmed
    let s := op.deliver (((s.eng e).reqs.filter mine).flatMap (·.olds)).reverse s
    let g := s.eng e
    s.setEng e { g with reqs := g.reqs.map fun r => if mine r then { r with olds := [] } else r }
  | _ => s

/-- A request that may be applied arrives at its target (R249, R250): one whose tag has been applied is dropped, and one that
meets an uncorrectable error stops its command once every earlier request of it is confirmed. -/
def State.arrive (s : State) (e : EngId) (r : Req) : State :=
  let g := s.eng e
  if s.tagApplied e r.tag then s.setEng e (g.setReq r.tag fun r => { r with applied := true })
  else
    match g.flight.find? fun f => f.seq == r.seq with
    | none => s
    | some f =>
      match s.reqBad f r with
      | some tr =>
        if (g.reqs.takeWhile fun x => x.tag != r.tag).all fun x => x.confirmed || x.seq != r.seq then
          let (s, f) := s.rewindSent f r.elem
          (s.deliverConfirmed e f).stopAt e f tr r.tag (g.confBits r.tag)
        else s
      | none =>
        let (s', olds) := (s.overAhead e r.bytes).applyReq r
        { s'.setEng e ((s'.eng e).setReq r.tag fun r => { r with applied := true, olds }) with
          tagsSeen := ⟨s.task.lid, s.task.lcn, e, r.tag, s.now⟩
            :: s.tagsSeen.filter fun t => s.now ≤ t.at_ + cycles16ms }

/-- REDUCTION_REQUEST (R249, R250): a tagged request of the focused task's engine arrives at its target. -/
def execReductionRequest (e : EngId) (tag : BitVec 32) (s : State) : Out :=
  match (s.eng e).reqs.find? fun r => r.tag == tag with
  | none => .next s
  | some r => if s.reqReady e r then .next (s.arrive e r) else .next s

/-! ### Landing -/

/-- The landing of a command's own operation: the state, and the fault with the operation from its stop point on. A command with
a REMOTE target writes the old values that its requests have brought back. -/
def State.landOp (s : State) (e : EngId) (f : Flight) : State × Option (Trap × LandOp) :=
  match f.op with
  | .slu op =>
    if op.far then
      let s := op.deliver (((s.eng e).reqs.filter fun r => r.seq == f.seq).flatMap (·.olds)).reverse s
      (match f.seedAfter with
        | some x => s.withTask { s.task with sluGen := x }
        | none => s, none)
    else
      let (s, stop) := op.land f.seedAfter s
      (s, stop.map fun x => (x.1, .slu x.2))
  | .fold o =>
    match s.badIn o.sp o.at_ 4 with
    | some b => (s, some ({ code := .uncorrectable, addr := o.sp.window b }, f.op))
    | none => (s.doFold o, none)
  | .weight _ _ cells lines => (s.withTask (s.task.landWeights cells lines), none)
  | _ => (s, none)

/-- Byte writes that have been performed: they keep what stood there before in `s` (R239). -/
def State.performed (s : State) (ws : List BWrite) : List BWrite :=
  ws.map fun w => if w.mask = 0 then w else { w with mask := 0, val := s.rdByte w.sp w.at_ }

/-- KTAG of a flume command that stops before it has sent element k: the tag that the request will carry (R242). -/
def Eng.nextTag (g : Eng) (f : Flight) : BitVec 32 :=
  match f.op with
  | .flu op _ => (match op.kind with | .putr _ => g.tag | _ => 0)
  | _ => 0

/-- The bytes that a command of the matrix engine or the flume writes when it lands. -/
def Flight.bytes (f : Flight) : List (Space × Nat) :=
  ((f.writes.filter fun w => w.mask != 0).map fun w => (w.sp, w.at_)) ++ match f.op with | .fold o => o.bytes | _ => []

/-- What a command finds that lands: what other cores' loads have seen in its places has performed (R85, R88), and where it lands beneath
something, what stood there before. -/
def State.found (s : State) (e : EngId) (f : Flight) : State :=
  let s := s.overAhead e f.bytes
  s.exhume (s.buried e f)

/-- There its byte writes and flags land. -/
def State.landing (s : State) (e : EngId) (f : Flight) : State := (s.found e f).perform f.acc f.writes f.flags

/-- The state after the landing, given what the command makes of what it finds: what it lands beneath does not change (R20, R88, R157). -/
def State.landed (s : State) (e : EngId) (f : Flight) (t : State) : State :=
  let s := s.overAhead e f.bytes
  s.rebury (s.buried e f) t

/-- The effects of a command land: its writes and flags, its operation, the RANGE bits; what earlier commands of the engine are
still to write in the same places no longer shows (R190, R205). Beside the state, the fault that stops the operation. -/
def State.landEffects (s : State) (e : EngId) (f : Flight) : State × Option (Trap × LandOp) :=
  let (t, bad) := (s.landing e f).landOp e f
  let s := s.landed e f t
  let s := s.withTask (s.task.setRanges f.ranges)
  let g := s.eng e
  (s.setEng e { g with
    flight := g.flight.map fun x => if x.seq < f.seq then x.underLater f else x
    hold := if g.hold = some f.seq then none else g.hold }, bad)

/-- The command has completed: it leaves the engine's flight with its requests, and its token is done (R24). -/
def Eng.finish (g : Eng) (seq : Nat) : Eng :=
  (({ g with
    flight := g.flight.filter fun x => x.seq != seq
    reqs := g.reqs.filter fun r => r.seq != seq }).complete seq).settle

/-- The error that a fold of the command meets once its data have landed, `bad` being that of one in the core's own scratchpad: the
fault, and the tag of its request (R223, R308). -/
def State.foldStops (s : State) (e : EngId) (f : Flight) (bad : Option (Trap × LandOp)) : Option (Trap × BitVec 32) :=
  match f.op, bad with
  | .fold _, some x => some (x.1, 0)
  | _, _ => ((s.eng e).foldLeft f.seq).bind fun r => (s.reqBad f r).map fun tr => (tr, r.tag)

/-- COMMAND_LANDS (R20, R24): the effects of an issued command of the engine land, and its token completes. A fold in another
core's scratchpad is sent with them and confirmed later; where the word of a fold cannot be read, none of them lands (R223). -/
def execCommandLands (e : EngId) (seq : Nat) (s : State) : Out :=
  match (s.eng e).flight.find? fun f => f.seq == seq with
  | none => .next s
  | some f =>
    if !s.due e f then .next s
    else
      let (s', bad) := s.landEffects e f
      match s'.foldStops e f bad with
      | some (tr, tag) => .next (s.stopAt e f tr tag ((s.eng e).confBits tag))
      | none =>
        match f.stop, bad, (s'.eng e).foldLeft f.seq with
        | some tr, _, _ =>
          .next (s'.stopAt e { f with writes := (s.found e f).performed f.writes, flags := [], stop := none, redo := true } tr
            ((s.eng e).nextTag f) 0)
        | none, some (tr, op), _ => .next (s'.stopAt e { f with writes := [], flags := [], op } tr 0 0)
        | none, none, some r =>
          let g := s'.eng e
          let s' := s'.setEng e { g with
            flight := g.flight.map fun x => if x.seq = f.seq then { x with writes := [], flags := [] } else x }
          if s'.reqReady e r then .next (s'.arrive e r) else .next s'
        | none, none, none => .next (s'.setEng e ((s'.eng e).finish f.seq))

/-! ### Timeouts of requests (R251, R284, R223) -/

/-- The bits of the requests that became unknown are indeterminate (R251, R284, R223): free values (log entry 4). -/
def State.scramble (s : State) (r : Req) : State :=
  let put (s : State) (x : RedElem) : State :=
    { s.redPut r.tgt x (Config.freeWord s.fresh).toNat with fresh := s.fresh + 1 }
  match r.op with
  | .putr _ _ es => es.foldl put s
  | .fold o => put s ⟨o.bytes.map (·.2), 0, 32, 0, false⟩
  | .slu op =>
    let one (s : State) (v : View) (e : Nat) : State :=
      { s.sluPut v e (Config.freeWord s.fresh).toNat with fresh := s.fresh + 1 }
    let s := (op.elems.filterMap op.aim).foldl (fun s e => one s op.tgt e) s
    if op.returns then op.elems.foldl (fun s i => if (op.aim i).isSome then one s op.res i else s) s else s

/-- The address of the first byte that a request of the command `f` is for (R306). -/
def Req.first (r : Req) (f : Flight) : Option Nat :=
  match r.op with
  | .putr _ _ (x :: _) => r.address f.target r.elem 0 (x.at_.headD 0)
  | .slu op =>
    (op.elems.findSome? op.aim).bind fun e =>
      r.tgt.window (op.tgt.bitAt (e / op.tgt.t.cols) (e % op.tgt.t.cols) / 8).toNat
  | .fold o => o.sp.window o.at_
  | _ => none

/-- Once a request has reached its limit and every other one in flight is confirmed, refused or past its own, the fault
is raised with the applied-state at the command of the oldest unconfirmed request (R251). Whether an unconfirmed request that
was not applied was refused is free. -/
def State.settleTimeout (s : State) (e : EngId) : State :=
  let g := s.eng e
  match g.reqs.find? (·.lost) with
  | none => s
  | some r0 =>
    if g.stopped.isSome || g.window.any fun r => !r.lost && (r.applied || r.age != 0) then s
    else
      let un := g.reqs.filter fun r => !r.confirmed
      let old := un.headD r0
      match g.flight.find? fun f => f.seq == old.seq with
      | none => s
      | some f =>
        let sent := un.filter (·.lost)
        let (free, s) := s.choose
        let applied := if un.isEmpty then 2 else if sent.isEmpty then 1
          else if sent.any Req.begun then 3 else if free then 1 else 3
        let s := if applied = 3 then sent.foldl State.scramble s else s
        let (s, f) := if un.isEmpty then (s, f) else s.rewindSent f old.elem
        (s.deliverConfirmed e f).stopAt e f
          { code := .remoteTimeout, addr := old.first f, elem := match old.op with | .fold _ => none | _ => some old.elem
            applied } old.tag (g.confBits old.tag)

/-- A request has been confirmed: the restart entry of a stopped command marks it in CONF (R242). -/
def Eng.confirm (g : Eng) (tag : BitVec 32) : Eng :=
  let d := (tag - g.restart.ktag).toNat
  { g.setReq tag fun r => { r with confirmed := true } with
    restart := if g.restart.rvalid && decide (d < 32) then
        { g.restart with conf := g.restart.conf ||| (1#32 <<< d) }
      else g.restart }

/-- REMOTE_CONFIRMATION (R250): a confirmation of a request that has been applied arrives at the source. -/
def execRemoteConfirmation (e : EngId) (tag : BitVec 32) (s : State) : Out :=
  let g := s.eng e
  if g.reqs.any fun r => r.tag == tag && r.applied && !r.confirmed then
    .next ((s.setEng e (g.confirm tag)).settleTimeout e)
  else .next s

/-- PUTR_REQUEST_TIMEOUT (R251): an unconfirmed request has reached its 8 ms; held time does not count. -/
def execPutrRequestTimeout (e : EngId) (tag : BitVec 32) (s : State) : Out :=
  let g := s.eng e
  match g.reqs.find? fun r => r.tag == tag with
  | some r =>
    if !r.confirmed && !r.lost && cycles8ms ≤ r.age && s.reqReaches r && g.stopped.isNone then
      .next ((s.setEng e (g.setReq tag fun r => { r with lost := true })).settleTimeout e)
    else .next s
  | none => .next s

/-! ### Timeouts of plain remote accesses (R75) -/

/-- Does an issued command make plain remote accesses? -/
def Flight.plainRemote (f : Flight) : Bool :=
  match f.op with
  | .flu op _ =>
    match op.kind with
    | .putr _ => false
    | _ => op.a.t.kind == 8 || op.c.t.kind == 8
  | _ => false

/-- The number of byte writes of a command before its element number `k` in commit order. -/
def Flight.before (f : Flight) (ends : List FluEnd) (k : Nat) : Nat := ((ends[k]?).map (·.n)).getD f.writes.length

/-- The elements at which a plain remote command can have stopped: none after them has been written yet, but for BCAST, whose
targets receive their rows one by one (R241, R252); one that is all or nothing has written nothing (R239). -/
def Flight.cuts (f : Flight) (op : FluOp) (ends : List FluEnd) : List Nat :=
  (List.range (if op.whole then min ends.length 1 else ends.length)).filter fun k =>
    (!op.whole && match op.kind with | .bcast _ => true | _ => false) || (f.writes.drop (f.before ends k)).all fun w => w.mask != 0

/-- The writes that a BCAST has performed beside the rows that every target has: the target `t` has received none of the rows
from element `k` on, of the others each has received a free number (R252). -/
def State.castSome (s : State) (f : Flight) (ends : List FluEnd) (k t : Nat) : List Nat → State × List BWrite
  | [] => (s, [])
  | n :: ns =>
    let m := (Config.freeWord s.fresh).toNat % (ends.length - k + 1)
    let ws := ((f.writes.take (f.before ends (k + m))).drop (f.before ends k)).filter fun w => w.sp == .far n && n != t
    let (s', l) := State.castSome { s with fresh := s.fresh + 1 } f ends k t ns
    (s', ws ++ l)

/-- The address of the first byte that an element moves to or from another core (R306). -/
def FluOp.farAddr (op : FluOp) (k : Nat) : Option Nat :=
  ((op.plan.find? fun st => st.k == k).bind fun st => st.runs.find? fun r => r.t.kind == 8).bind fun r =>
    r.t.space.window r.a.toNat

/-- Stop a plain remote command at one of its elements (R243, R252): what was written before it stays, what was fetched for the
rest is discarded (R241). Which element is free. -/
def State.cutRemote (s : State) (e : EngId) (f : Flight) : State :=
  match f.op with
  | .flu op ends =>
    let ks := f.cuts op ends
    let free := (Config.freeWord s.fresh).toNat
    match ks[free % max ks.length 1]? with
    | none => s
    | some k =>
      match ends[k]? with
      | none => s
      | some x =>
        let s := { s with fresh := s.fresh + 1 }
        let (s, more) := match op.kind with
          | .bcast ns => if op.whole then (s, []) else s.castSome f ends k (ns.getD (free / 2 ^ 32 % max ns.length 1) 0) ns
          | _ => (s, [])
        let ws := f.writes.take (f.before ends k) ++ more
        let kept := s.performed ws
        let (s, op) := (s.wrBytes ws).rewind op x.gens
        s.stopAt e { f with writes := kept, age := 0, stop := none, redo := true, op := .flu op [] }
          { code := .remoteTimeout, addr := op.farAddr x.k, elem := some x.k } 0 0
  | _ => s

/-- REMOTE_TIMEOUT (R75): a remote access of the focused task has not completed within 8 ms of counted time. -/
def execRemoteTimeout (agent : StreamId) (s : State) : Out :=
  match agent with
  | .control =>
    match s.ctl.remote with
    | some va =>
      if cycles8ms ≤ s.ctl.remoteAge then
        .next ((s.withCtl { s.ctl with remote := none, remoteAge := 0 }).trapHere
          { code := .remoteTimeout, addr := some va })
      else .next s
    | none => .next s
  | .engine e =>
    match (s.eng e).flight.find? fun f => f.plainRemote && cycles8ms ≤ f.age with
    | some f => if (s.eng e).stopped.isNone && s.reaches f then .next (s.cutRemote e f) else .next s
    | none => .next s

/-! ### Continuing a stopped command (R241, R251, R284, R309) -/

/-- The state as a continued command reads it: what it has itself written shows as it was before (R239). -/
def State.unwritten (s : State) (f : Flight) : State :=
  (f.writes.filter fun w => w.mask == 0).reverse.foldl (fun s w => s.wrByte { w with mask := 0xFF }) s

/-- Perform the elements of a stopped flume command anew from number `k` on: its sources are read again (R241). -/
def State.redoFlume (s : State) (f : Flight) (op : FluOp) (k : Nat) : Flight × State :=
  let s := s.asRead .flume
  let (d, s) := s.flumeElems (s.elsewhere.unwritten f) op k []
  let s := match op.kind with
    | .putr rop => s.sendPutr f.seq op rop d.out.red.reverse
    | _ => s
  let far := op.a.t.kind == 8 || op.c.t.kind == 8
  let sent := match op.kind with | .putr _ => true | _ => false
  ({ f with
      writes := f.writes ++ if sent then d.sentOver s op else d.pieces.flatMap (·.ws)
      stop := d.stop, redo := false
      op := .flu { op with code := d.out.code, lanes := op.lanes.map (fun _ => d.after), base := d.base }
        (if sent then d.sentEnds f.writes.length else fluEnds far f.writes.length d.before d.pieces) }, s)

/-- The command reads another core whose task is not resident: it is held (R75). -/
def State.heldAt (s : State) (f : Flight) : Bool :=
  match f.op with
  | .flu op _ => f.redo && op.a.t.kind == 8 && !s.reachable op.a.t.core
  | _ => false

/-- The command's updates travel in requests. -/
def Flight.sends (f : Flight) : Bool :=
  match f.op with
  | .slu op => op.far
  | .flu op _ => (match op.kind with | .putr _ => true | _ => false)
  | _ => false

/-- A request as a command that goes on leaves it (R251): those before ELEM and those that CONF marks are confirmed, every other
one is sent again with its tag. -/
def Req.again (r : Req) (f : Flight) (x : Restart) : Req :=
  let d := (r.tag - x.ktag).toNat
  let sent := if f.sends && r.seq == f.seq && decide (r.elem < x.elem) then true
    else if f.sends && decide (d < 32) then x.conf.getLsbD d
    else r.confirmed
  if sent then { r with confirmed := true, lost := false } else { r with applied := false, confirmed := false, lost := false, age := 0 }

/-- The operation of a stopped command goes on from element `k`: the sluice from there (R284), the flume performs its elements
anew (R241). -/
def Flight.goesOn (f : Flight) (k : Nat) : Flight :=
  match f.op with
  | .slu op => if op.far then f else { f with op := .slu { op with first := k } }
  | _ => f

/-- Put a stopped command back in flight: its elements are performed from the stop on, and unconfirmed requests are sent
again with their tags, as the restart entry has them, which an edit may have changed (R242, R251, R309). -/
def State.continueEng (s : State) (e : EngId) : State :=
  let g := s.eng e
  match g.stopped with
  | none => s
  | some f =>
    if s.heldAt f then s
    else
      let k := g.restart.elem
      let s := s.setEng e { g with
        stopped := none, restart := ⟨false, 0, 0, 0, 0⟩, reqs := g.reqs.map fun r => r.again f g.restart }
      let (f, s) := match f.redo, f.op with
        | true, .flu op _ => s.redoFlume f op k
        | _, _ => let (s, f) := s.resumeSent f; (f.goesOn k, s)
      let g := s.eng e
      s.setEng e { g with flight := { f with land := if f.timed then max f.land g.cnt else g.cnt } :: g.flight }

end Sys2Proof.Machine
end

