-- ==== Sys2Proof/Machine/Records.lean ====
section
/-! DEFINITION. Launch records (R291), completion records (R293), and the end of a task and of a launch (R176, R293,
R299). -/

namespace Sys2Proof

/-! ### Fields of a launch record (R291) -/

def LaunchWords.gshape (r : LaunchWords) : Nat := fld r.w3.toNat 62 2
def LaunchWords.prio (r : LaunchWords) : Nat := fld r.w3.toNat 60 2
def LaunchWords.timed (r : LaunchWords) : Bool := bitOf r.w3.toNat 59
def LaunchWords.phys (r : LaunchWords) : Bool := bitOf r.w3.toNat 58
def LaunchWords.wbsave (r : LaunchWords) : Bool := bitOf r.w3.toNat 57
def LaunchWords.gcount (r : LaunchWords) : Nat := fld r.w3.toNat 0 17
def LaunchWords.regbytes (r : LaunchWords) : Nat := fld r.w4.toNat 32 32
def LaunchWords.scrbytes (r : LaunchWords) : Nat := fld r.w4.toNat 0 32
def LaunchWords.savemask (r : LaunchWords) : BitVec 32 := BitVec.ofNat 32 (fld r.w5.toNat 32 32)

/-- The profile nibble of profile id `i` (R291). -/
def LaunchWords.prof (r : LaunchWords) (i : Nat) : Nat := fld r.w5.toNat (4 * i) 4

/-- Canonical by R74: sign-extended from bit 56. -/
def canonical (va : Nat) : Bool := va < 2 ^ 56 || 0xFF00000000000000 ≤ va

/-- The record breaks a rule marked LAUNCH (R291). -/
def LaunchWords.bad (r : LaunchWords) : Bool :=
  !canonical r.w0.toNat || r.w0.toNat % 4096 != 0 || r.w2.toNat % 64 != 0 || fld r.w3.toNat 17 40 != 0
    || r.gcount == 0 || fld r.w5.toNat 24 8 != 0 || fld r.w5.toNat 4 4 == 0 || fld r.w5.toNat 0 4 != 0
    || r.w6 != 0 || r.w7 != 0

end Sys2Proof

namespace Sys2Proof.Machine

/-- Tasks of a gang of a shape (R10). -/
def State.gangSize (s : State) (shape : Nat) : Nat :=
  match shape with
  | 0 => 1
  | 1 => 4
  | 2 => 144
  | _ => s.coresPerPkg

/-- The tasks of a launch. -/
def State.launchExtent (s : State) (r : LaunchWords) : Nat := r.gcount * s.gangSize r.gshape

/-- An accepted launch by its LAUNCHID. -/
def State.findLaunch (s : State) (lid : Nat) : Option Launch := s.launches.find? fun l => l.lid == lid

/-- Replace an accepted launch. -/
def State.setLaunch (s : State) (l : Launch) : State :=
  { s with launches := s.launches.map fun x => if x.lid = l.lid then l else x }

/-- The places taken in the queue of a die and a priority (R292). -/
def State.queueLen (s : State) (die prio : Nat) : Nat :=
  (s.launches.filter fun l => l.die == die && l.rec_.prio == prio && l.st == .queued).length

/-- A record enters its queue and gets its LAUNCHID, or 0 when the queue is full (R292). -/
def State.submit (s : State) (die part : Nat) (r : LaunchWords) : Nat × State :=
  if 256 ≤ s.queueLen die r.prio then (0, s)
  else
    (s.nextLid, { s with
      nextLid := s.nextLid + 1, launches := s.launches ++ [⟨s.nextLid, part, die, r, .queued, [], 0⟩] })

/-! ### Memory by virtual address of a partition -/

/-- Translate an address in the address space of a launch queue of a partition, or in the partition's own, for one kind of access
(R79, R81). A window belongs to a core, and no access but that core's reaches it. -/
def State.translateIn (s : State) (part : Nat) (queue : Option Nat) (va : Nat) (k : Acc) : Except Code Nat :=
  match s.partOf part, locate va with
  | some p, .virt =>
    match s.walkIn p (queue.elim p.root p.rootFor) va with
    | .error c => .error c
    | .ok l =>
      match l.check k with
      | some c => .error c
      | none => .ok (l.pa + va % 2 ^ l.log2)
  | some _, .window .. => .error .permission
  | _, _ => .error .notPresent

/-- The launch queue of an accepted launch (R292). -/
def Launch.queue (l : Launch) : Nat := queueNo l.die l.rec_.prio

/-! ### Completion (R293) -/

/-- A record that the firmware puts in a partition's fault queue for a lost completion record (R293). -/
def launchFault (part lid : Nat) : FaultRec :=
  { part, lid, lcn := 0, w0 := BitVec.ofNat 64 (2 ^ 27 + Code.launch.num), w2 := 0, w3 := 0, w4 := 0
    w5 := BitVec.ofNat 64 lid, w6 := 0, w7 := 0 }

/-- Write the completion record with a STATUS and an FCODE; one that cannot be written is reported (R293). -/
def State.writeCompletion (s : State) (l : Launch) (status fcode : Nat) : State :=
  match s.translateIn l.part (some l.queue) l.rec_.w2.toNat .store with
  | .error _ => { s with faults := s.faults ++ [launchFault l.part l.lid] }
  | .ok pa =>
    let s := s.wrNat .mem pa 8 (fcode * 256 + status)
    let s := s.wrNat .mem (pa + 16) 8 l.halted.length
    let s := s.wrNat .mem (pa + 24) 8 l.maxTime
    let s := s.wrNat .mem (pa + 32) 32 0
    s.wrNat .mem (pa + 8) 8 l.lid

/-- A launch ends: its completion record is written and it is finished. -/
def State.finishLaunch (s : State) (l : Launch) (status fcode : Nat) : State :=
  (s.setLaunch { l with st := .finished }).writeCompletion l status fcode

/-- The launch core numbers of a gang of a launch. -/
def State.gangCores (s : State) (l : Launch) (idx : Nat) : List Nat :=
  (List.range (s.gangSize l.rec_.gshape)).map (· + idx * s.gangSize l.rec_.gshape)

/-- The focused core no longer holds a task that an IINV covers: a task that comes to it fetches no old line (R163). -/
def State.uncover (s : State) : State :=
  { s with iinvs := s.iinvs.map fun i => { i with todo := i.todo.filter (· != s.cur.pcore) } }

/-- The focused task retires by HALT (R176): it leaves its slot, and the last one writes the completion record (R293). -/
def State.retireTask (s : State) : State :=
  let t := s.task
  let s := { s.uncover with cur := { s.cur with slot := .empty, task := Task.blank } }
  match s.findLaunch t.lid with
  | none => s
  | some l =>
    let l := { l with halted := l.halted ++ [t.lcn], maxTime := max l.maxTime t.ctl.tasktime }
    let s := s.setLaunch l
    let s := { s with gangs := s.gangs.map fun g =>
      if g.lid = t.lid && (s.gangCores l g.idx).all l.halted.contains then { g with st := .done } else g }
    if l.halted.length = s.launchExtent l.rec_ && l.st != .finished then s.finishLaunch l 0 0 else s

end Sys2Proof.Machine
end

