-- ==== Sys2Proof/Machine/System.lean ====
section
/-! DEFINITION. The coupling and system instructions of the control core: NOP, HALT, TRAP, BRK, the special registers,
IINV, PRIME, the operand registers, the barriers and LAUNCH (R121 to R125, R163 to R165, R170 to R176), with the events
that complete IINV and a barrier. -/

namespace Sys2Proof.Machine

/-! ### NOP, HALT, TRAP, BRK (R174, R176) -/

/-- NOP (R176). -/
def execNop (q : Qual) (s : State) : Out := s.qualified q fun s => s.retire

/-- HALT (R176): waits for every frame as JOIN does, then the task retires. -/
def execHalt (q : Qual) (s : State) : Out :=
  s.qualified q fun s => if s.task.framesDone then .next s.retireTask else s.wait

/-- TRAP (R174): the instruction retires, and the fault's PC is the next instruction. -/
def execTrap (q : Qual) (imm16 : BitVec 16) (s : State) : Out :=
  s.qualified q fun s =>
    .next ((s.setPc (s.ctl.pc + 8)).takeFault .control { code := .trap, imm := imm16.toNat } (s.ctl.pc + 8) s.ctl.ir 0)

/-- BRK (R174): BREAK with PC at the BRK. -/
def execBrk (s : State) : Out := s.fail { code := .break_ }

/-! ### Special registers (R121 to R125) -/

/-- CAPS (R4). -/
def State.caps (s : State) : Nat :=
  (if s.d4 then 0x0C04480810 else 0x0602240000) + b2n s.hostLink * 8

/-- PROF (R122). -/
def State.prof (s : State) : Nat := if s.d4 then 0x0000001010101010 else 0x0000009010101010

/-- The value that SPGET reads, or its fault (R121, R124). -/
def State.special (s : State) (fn : Nat) : Except Code Nat :=
  let t := s.task
  let lcore := t.lcn % max t.gsize 1
  match fn with
  | 0 => .ok s.caps
  | 1 => .ok s.prof
  | 2 => .ok lcore
  | 3 => .ok (lcore / 4)
  | 4 => .ok (lcore / 144)
  | 5 => .ok (t.lcn / s.coresPerPkg)
  | 6 => .ok 0
  | 7 => if t.ctl.phys then .ok (pcoreWord s.pkg s.cur.pcore) else .error .privilege
  | 8 => .ok (t.ctl.framecnt % 2 ^ 48)
  | 9 => .ok t.ctl.tasktime
  | 10 => .error .privilege
  | 11 => .ok t.ctl.ssp.toNat
  | 12 => .ok t.ctl.ssl.toNat
  | 14 => .ok t.ctl.mode.toNat
  | 15 => .ok t.lid
  | 16 => .ok (t.lcn / max t.gsize 1)
  | 17 => .ok t.gsize
  | 18 => .ok t.argptr.toNat
  | _ => .error .illegal

/-- SPGET (R175). -/
def execSpget (q : Qual) (d : BitVec 5) (fn : BitVec 8) (s : State) : Out :=
  s.qualified q fun s =>
    match s.special fn.toNat with
    | .ok v => (s.setG d (BitVec.ofNat 64 v)).retire
    | .error c => s.fail { code := c }

/-- SPSET (R124, R175): SSP may only be raised, to a multiple of 8 up to HI. -/
def execSpset (q : Qual) (a : BitVec 5) (fn : BitVec 8) (s : State) : Out :=
  s.qualified q fun s =>
    let v := s.getG a
    if fn.toNat = 13 || 19 ≤ fn.toNat then s.fail { code := .illegal }
    else if fn.toNat = 11 && v.toNat % 8 == 0 && s.ctl.ssp.toNat ≤ v.toNat && v.toNat ≤ s.ctl.shadowHi then
      (s.withCtl { s.ctl with ssp := v }).retire
    else s.fail { code := .privilege }

/-! ### IINV (R163, R164) -/

/-- Is physical core `n` in the unit of scope `scope` that holds core `m` (R87)? -/
def sameUnit (scope m n : Nat) : Bool :=
  match scope with
  | 0 => m == n
  | 1 => m / 4 == n / 4
  | 2 => m / 144 == n / 144
  | _ => true

/-- The covered cores: those of the unit that run a task of the issuer's partition (R163). -/
def State.covered (s : State) (scope : Nat) : List Nat :=
  (s.cores.filter fun c => c.slot == .resident && c.task.part == s.task.part && sameUnit scope s.cur.pcore c.pcore).map
    (·.pcore)

/-- The task waits for the IINV. -/
def Iinv.isFor (i : Iinv) (lid lcn : Nat) : Bool := i.lid == lid && i.lcn == lcn && !i.left

/-- The task waits for no IINV: one in progress goes on to its end without it. -/
def State.leaveIinv (s : State) (lid lcn : Nat) : State :=
  { s with iinvs := s.iinvs.map fun i => if i.isFor lid lcn then { i with left := true } else i }

/-- IINV (R163): it retires when every covered core has passed its invalidation point. A range that would pass the last address
ends there (DESIGN CHOICE, log entry 108). -/
def execIinv (q : Qual) (a b : BitVec 5) (scope : BitVec 3) (whole : Bool) (s : State) : Out :=
  s.qualified q fun s =>
    let lo := (s.getG a).toNat / 64 * 64
    let hi := if (s.getG b).toNat = 0 then lo else ceilDiv ((s.getG a).toNat + (s.getG b).toNat) 64 * 64
    match s.iinvs.find? fun i => i.isFor s.task.lid s.task.lcn && i.lo == lo && i.hi == hi && i.scope == scope.toNat
        && i.whole == whole with
    | some i =>
      if i.todo.isEmpty then State.retire { s with iinvs := s.iinvs.filter fun x => x.id != i.id }
      else s.wait
    | none =>
      let s := s.leaveIinv s.task.lid s.task.lcn
      State.wait { s with
        nextIinv := s.nextIinv + 1
        iinvs := s.iinvs
          ++ [⟨s.nextIinv, s.task.lid, s.task.lcn, lo, hi, scope.toNat, whole, false, s.covered scope.toNat⟩] }

/-- A J register at an invalidation point, a save or a launch fill (R158): EMPTY stays, everything else is STALE. -/
def JReg.staled (r : JReg) : JReg := if r.st = .empty then r else ⟨r.taddr, .stale, []⟩

/-- The instruction cache and the J registers of a task at its invalidation point (R163). -/
def Task.invalidate (t : Task) (lo hi : Nat) (whole : Bool) : Task :=
  { t with
    icache := if whole then [] else t.icache.filter fun w => !(lo ≤ w.1 && w.1 < hi)
    ctl := { t.ctl with j := t.ctl.j.map fun e => (e.1, e.2.staled) } }

/-- Every core of the partition passes an invalidation point, as `iinv.all.pod` has it (R163, R180, R311). -/
def State.invalidatePart (s : State) (part : Nat) : State :=
  s.mapCores fun c => if c.slot != .empty && c.task.part = part then { c with task := c.task.invalidate 0 0 true } else c

/-- IINV_INVALIDATION_POINT (R163): the focused core passes its point of invalidation `id`. -/
def execIinvInvalidationPoint (id : Nat) (s : State) : Out :=
  match s.iinvs.find? fun i => i.id == id && i.todo.contains s.cur.pcore with
  | none => .next s
  | some i =>
    .next { s.withTask (s.task.invalidate i.lo i.hi i.whole) with
      iinvs := (s.iinvs.map fun x => if x.id = id then { x with todo := x.todo.filter (· != s.cur.pcore) } else x).filter
        fun x => !(x.left && x.todo.isEmpty) }

/-! ### Lists in memory that PRIME and LAUNCH load -/

/-- What a series of class-0 loads gives. -/
inductive Loaded where
  | words (ws : List Word)
  | trap (tr : Trap)
  | held
  deriving DecidableEq, Repr

/-- Load `n` 8-byte words from `va` upwards (R81). -/
def State.loadWords (s : State) : Nat → Nat → Loaded × State
  | 0, _ => (.words [], s)
  | n + 1, va =>
    match s.target va 8 .load with
    | (.trap tr, s) => (.trap tr, s)
    | (.held, s) => (.held, s)
    | (.at_ sp a, s) =>
      match s.readBad va sp a 8 with
      | some tr => (.trap tr, s)
      | none =>
        let (v, s) := s.loaded sp a 8
        match s.loadWords n (va + 8) with
        | (.words ws, s) => (.words (BitVec.ofNat 64 v :: ws), s)
        | r => r

/-- How PRIME's walk of its list ends. -/
inductive Primed where
  | pins (ls : List (Nat × Leaf))
  | trap (tr : Trap)
  | held
  deriving DecidableEq, Repr

/-- The translations that PRIME pins from `n` entries of its list at `va`, each loaded and then walked (R165): windows are
skipped, the first of the first four rows of R81 faults. -/
def State.primeList (s : State) : Nat → Nat → List (Nat × Leaf) → Primed × State
  | 0, _, ls => (.pins ls, s)
  | n + 1, va, ls =>
    match s.loadWords 1 va with
    | (.trap tr, s) => (.trap tr, s)
    | (.held, s) => (.held, s)
    | (.words ws, s) =>
      let v := (ws.headD 0).toNat
      match locate v with
      | .window .. => s.primeList n (va + 8) ls
      | .none => (.trap { code := .notPresent, addr := some v }, s)
      | .virt =>
        match s.leafFor v with
        | (.error c, s) => (.trap { code := c, addr := some v }, s)
        | (.ok l, s) => s.primeList n (va + 8) (if ls.contains (l.base v, l) then ls else ls ++ [(l.base v, l)])

/-- PRIME (R165). -/
def execPrime (q : Qual) (a b : BitVec 5) (s : State) : Out :=
  s.qualified q fun s =>
    if 256 < (s.getG b).toNat then s.fail { code := .geometry }
    else if (s.getG a).toNat % 8 != 0 then s.fail { code := .align, addr := some (s.getG a).toNat }
    else if s.ctl.timedOpen then s.fail { code := .timedState }
    else
      match s.primeList (s.getG b).toNat (s.getG a).toNat [] with
      | (.trap tr, s) => s.fail tr
      | (.held, s) => s.wait
      | (.pins ls, s) => (s.withTask { s.task with pins := ls }).retire

/-! ### Operand registers (R170) -/

/-- A write of an operand register: TIMED-STATE while a timed frame is open (R55, R170). -/
def State.opWrite (s : State) (q : Qual) (f : Task → Task) : Out :=
  s.qualified q fun s =>
    if s.ctl.timedOpen then s.fail { code := .timedState } else (s.withTask (f s.task)).retire

/-- TSET (R170). -/
def execTset (q : Qual) (a : BitVec 5) (tid : BitVec 6) (word : BitVec 3) (s : State) : Out :=
  s.opWrite q fun t => t.setTword tid.toNat word.toNat (s.getG a)

/-- TGET (R170). -/
def execTget (q : Qual) (d : BitVec 5) (tid : BitVec 6) (word : BitVec 3) (s : State) : Out :=
  s.writeG q d (s.task.tword tid.toNat word.toNat)

/-- PATW (R170). -/
def execPatw (q : Qual) (a : BitVec 5) (pat : BitVec 4) (s : State) : Out :=
  s.opWrite q fun t => { t with pat := spSet 0 t.pat pat.toNat (s.getG a) }

/-- PATR (R170). -/
def execPatr (q : Qual) (d : BitVec 5) (pat : BitVec 4) (s : State) : Out := s.writeG q d (s.task.patReg pat.toNat)

/-- SHPW (R170). -/
def execShpw (q : Qual) (a : BitVec 5) (sh : BitVec 3) (word : BitVec 2) (s : State) : Out :=
  s.opWrite q fun t => { t with sh := spSet 0 t.sh (4 * sh.toNat + word.toNat) (s.getG a) }

/-- SHPR (R170). -/
def execShpr (q : Qual) (d : BitVec 5) (sh : BitVec 3) (word : BitVec 2) (s : State) : Out :=
  s.writeG q d (s.task.shapeWord sh.toNat word.toNat)

/-! ### Barriers (R171, R172) -/

/-- The byte of a window of the core's own register space or scratchpad, for a BARR payload (R172). -/
def ownWindow (va : Nat) : Option (Space × Nat) :=
  match locate va with
  | .window .reg a => some (.reg, a)
  | .window .scr a => some (.scr, a)
  | _ => none

/-- 64 bytes of a store. -/
def State.payload (s : State) (p : Space × Nat) : List Byte := (List.range 64).map fun k => s.rdByte p.1 (p.2 + k)

/-- Write 64 bytes of a store (R172, R38). -/
def State.putPayload (s : State) (p : Space × Nat) (bs : List Byte) : State :=
  s.wrBytes ((numbered p.2 bs).map fun b => ⟨p.1, b.1, 0xFF, b.2⟩)

/-- The task waits at no barrier: an arrival of it still counts in its generation, and a departure is for nobody (R171; DESIGN
CHOICE, log entry 110). -/
def State.leaveBarrier (s : State) (lid lcn : Nat) : State :=
  let mine (a : Arrival) : Bool := a.lid == lid && a.lcn == lcn
  { s with
    arrivals := s.arrivals.filter fun a => !mine a
    left := s.left ++ s.arrivals.filter mine
    departs := s.departs.filter fun x => !(x.lid == lid && x.lcn == lcn) }

/-- Arrive at the barrier of a scope and an id, or take the departure from it that waits for this task: `done` retires with the
payload (R171). -/
def State.barrier (s : State) (arr : Arrival) (done : List Byte → State → Out) : Out :=
  match s.departs.find? fun x => x.lid == arr.lid && x.lcn == arr.lcn && x.scope == arr.scope && x.bid == arr.bid with
  | some x =>
    let s := { s with departs := s.departs.filter fun y => !(y.lid == arr.lid && y.lcn == arr.lcn) }
    if x.ok then done x.payload s else s.fail { code := .geometry }
  | none =>
    if s.arrivals.any fun x => x.lid == arr.lid && x.lcn == arr.lcn && x.scope == arr.scope && x.bid == arr.bid then s.wait
    else
      let s := s.leaveBarrier arr.lid arr.lcn
      State.wait { s with arrivals := s.arrivals ++ [arr] }

/-- BAR (R171): scope core completes at once. -/
def execBar (q : Qual) (scope : BitVec 3) (bid : BitVec 6) (s : State) : Out :=
  s.qualified q fun s =>
    if s.ctl.timedOpen then s.fail { code := .timedState }
    else if scope = 0 then s.retire
    else
      s.barrier ⟨s.task.lid, s.task.lcn, scope, s.unitOf scope.toNat s.task.lcn, bid, false, 0, 0, [], 0⟩
        fun _ s => s.retire

/-- BARR (R172): ALIGN, TIMED-STATE, PERMISSION; the source is read at arrival, the destination written at departure. Where
both addresses break one of these rules the record carries G[A] (log entry 10). -/
def execBarr (q : Qual) (a b : BitVec 5) (scope : BitVec 3) (bid : BitVec 6) (rop rtype : BitVec 3) (s : State) :
    Out :=
  s.qualified q fun s =>
    let va := (s.getG a).toNat
    let vb := (s.getG b).toNat
    if va % 64 != 0 then s.fail { code := .align, addr := some va }
    else if vb % 64 != 0 then s.fail { code := .align, addr := some vb }
    else if s.ctl.timedOpen then s.fail { code := .timedState }
    else
      match ownWindow va, ownWindow vb with
      | none, _ => s.fail { code := .permission, addr := some va }
      | _, none => s.fail { code := .permission, addr := some vb }
      | some src, some dst =>
        match s.readBad va src.1 src.2 64 with
        | some tr => s.fail tr
        | none =>
          let s := s.showFor src.1 src.2 64
          if scope = 0 then ((s.behindSeen dst.1 dst.2 64).putPayload dst (s.payload src)).retire
          else
            s.barrier ⟨s.task.lid, s.task.lcn, scope, s.unitOf scope.toNat s.task.lcn, bid, true, rop.toNat,
                rtype.toNat, s.payload src, vb⟩
              fun bs s => ((s.behindSeen dst.1 dst.2 64).putPayload dst bs).retire

/-- One step of the tree of R172. -/
def pairUp (op : Nat → Nat → Nat) : List Nat → List Nat
  | x :: y :: t => op x y :: pairUp op t
  | l => l

/-- The tree of R172 with fuel. -/
def reduceTree (op : Nat → Nat → Nat) : Nat → List Nat → Nat
  | 0, l => l.headD 0
  | n + 1, l => if l.length ≤ 1 then l.headD 0 else reduceTree op n (pairUp op l)

/-- The operation of ROP on RTYPE (R172). -/
def barrOp (rop rtype : Nat) (x y : Nat) : Nat :=
  let w := if rtype = 2 || rtype = 3 then 64 else 32
  let signed := rtype = 0 || rtype = 2
  let val (v : Nat) : Int := if signed then sgn w v else v
  match rop with
  | 0 => if rtype = 4 then faddN x y else (x + y) % 2 ^ w
  | 1 => if rtype = 4 then fmaxN x y else if val x < val y then y else x
  | 2 => if rtype = 4 then fminN x y else if val y < val x then y else x
  | 3 => x &&& y
  | 4 => x ||| y
  | 5 => x ^^^ y
  | _ => x

/-- The reduced payload of the participants' payloads in rank order. -/
def reducePayload (rop rtype : Nat) (ps : List (List Byte)) : List Byte :=
  let n := if rtype = 2 || rtype = 3 then 8 else 4
  (List.range (64 / n)).flatMap fun k =>
    leBytes n (reduceTree (barrOp rop rtype) ps.length (ps.map fun p => leNat ((p.drop (n * k)).take n)))

/-- The participants of a barrier: the tasks of the launch in the unit, by increasing launch core number (R171). -/
def State.participants (s : State) (lid scope unit : Nat) : List Nat :=
  match s.findLaunch lid with
  | none => []
  | some l => (List.range (s.launchExtent l.rec_)).filter fun n => s.unitOf scope n == unit

/-- BARRIER_DEPARTURE (R171, R172): once every participant of the generation has arrived, all depart, but for those that an edit has
taken past the barrier, whose earlier arrival counts and whose next one is of the next generation. -/
def execBarrierDeparture (lid : Nat) (scope : BitVec 3) (unit : Nat) (bid : BitVec 6) (s : State) : Out :=
  let here (a : Arrival) : Bool := a.lid == lid && a.scope == scope && a.unit == unit && a.bid == bid
  let ps := s.participants lid scope.toNat unit
  let as := ps.filterMap fun n => (s.left ++ s.arrivals).find? fun a => here a && a.lcn == n
  let gone := ps.filter fun n => s.left.any fun a => here a && a.lcn == n
  match as with
  | [] => .next s
  | a0 :: _ =>
    if as.length ≠ ps.length then .next s
    else
      let ok := as.all fun a => a.barr == a0.barr && a.rop == a0.rop && a.rtype == a0.rtype
      let bs := if ok && a0.barr then reducePayload a0.rop a0.rtype (as.map (·.payload)) else []
      .next { s with
        arrivals := s.arrivals.filter fun a => !here a || gone.contains a.lcn
        left := gone.foldl (fun l n => l.eraseP fun a => here a && a.lcn == n) s.left
        departs := s.departs ++ (as.filter fun a => !gone.contains a.lcn).map fun a => ⟨a.lid, a.lcn, scope, bid, ok, bs⟩ }

/-! ### Leaving an instruction that waits (R309) -/

/-- Control registers `c` no longer stand at the waiting instruction `ir` at `pc`: PC has another value, or the predicate squashes
it. -/
def Ctl.leaves (c : Ctl) (pc ir : Word) : Bool :=
  let q := qualAt ir.toNat
  c.pc != pc || c.getP q.p == q.n

/-- An edit has taken a task past what it waited for, an IINV or a barrier. -/
def State.leaveWaits (s : State) (lid lcn : Nat) : State := (s.leaveIinv lid lcn).leaveBarrier lid lcn

/-! ### LAUNCH (R173) -/

/-- The record of eight words. -/
def launchWords : List Word → LaunchWords
  | [a, b, c, d, e, f, g, h] => ⟨a, b, c, d, e, f, g, h⟩
  | _ => ⟨0, 0, 0, 0, 0, 0, 0, 0⟩

/-- LAUNCH (R173); what its core's loads have seen early it orders before the child's tasks by waiting for it. -/
def execLaunch (q : Qual) (d a : BitVec 5) (s : State) : Out :=
  s.qualified q fun s =>
    let va := (s.getG a).toNat
    if va % 64 != 0 then s.fail { code := .align, addr := some va }
    else
      match s.loadWords 8 va with
      | (.trap tr, s) => s.fail tr
      | (.held, s) => s.wait
      | (.words ws, s) =>
        let r := launchWords ws
        if r.bad then s.fail { code := .launch }
        else s.afterSeen true fun s =>
          let (lid, s) := s.submit (dieOf s.cur.pcore) s.task.part r
          (s.setG d (BitVec.ofNat 64 lid)).retire

end Sys2Proof.Machine
end

