-- ==== Sys2Proof/Machine/Context.lean ====
section
/-! DEFINITION. Launch images and context images (R301): writing one from a task, and filling a task from one (R302). -/

namespace Sys2Proof.Machine

/-! ### Writing (R301, R303) -/

/-- The banks of a mask, in increasing order. -/
def banksOf (m : BitVec 32) : List Nat := (List.range 32).filter fun b => m.getLsbD b

/-- The bytes of an image with `n` banks and perhaps the weight buffer. -/
def imageSize (n : Nat) (wb : Bool) : Nat := 0x50000 + 0x10000 * n + if wb then 0x40080 else 0

/-- The two words of a restart entry (R242). -/
def Restart.words (r : Restart) : Nat × Nat :=
  (cat (cat (b2n r.rvalid) 2 r.applied) 61 (r.elem % 2 ^ 32), cat r.ktag.toNat 32 r.conf.toNat)

/-- A byte of the hidden-flag area (R301): word w's TOUCHED at bit 2w, OVF at bit 2w + 1. -/
def flagByte (t : Task) (k : Nat) : Nat :=
  (List.range 4).foldl (fun acc i =>
    let f := spGet Flag.fresh t.flags (4 * k + i)
    acc + (b2n f.touched + 2 * b2n f.ovf) * 4 ^ i) 0

/-- The area of an engine in an image (R301). -/
def engAt (e : EngId) : Nat := 0x2000 + 0x200 * e.num

/-- The waits of the queue entry at position `i`, one byte each: engine and token slot, valid (log entry 3). -/
def Eng.entryWaits (g : Eng) (i : Nat) (w : Word) : Nat :=
  let ws := match g.rep with
    | some r => if i < r.body then waitsAt r.wstep (r.pass * r.body) (headAt w.toNat) else waitsAt 0 0 (headAt w.toNat)
    | none => waitsAt 0 0 (headAt w.toNat)
  2 ^ 63 + ws.foldr (fun x acc => 256 * acc + 32 * x.1 + x.2) 0

/-- REP progress as a word: in progress, pass number and position, the body and its masks (R30, R33; log entry 3). -/
def repWord : Option RepSt → Nat
  | none => 0
  | some r => 2 ^ 63 + cat (cat (cat (cat (cat (cat r.wstep.toNat 3 r.tid.toNat) 3 r.addr.toNat) 12 (r.count - 1)) 12 r.pass) 4
      r.pos) 4 r.body

/-- The mode of an engine's frame as a word (log entry 3). -/
def Eng.modeWord (g : Eng) : Nat :=
  cat (cat (cat (cat (cat (cat (cat (cat g.mask.toNat 1 (b2n g.ran)) 1 (b2n g.can)) 1 (b2n g.ended)) 1 (b2n g.running))
    1 (b2n g.started)) 1 (b2n g.degr)) 1 (b2n g.timed)) 1 (b2n g.forked)

/-- The words of an engine's area: its queue, the stream's PC, the number that the next fetched command gets, REP progress, the
frame's mode, its counter and the last stamp (R30, R301; log entry 3). -/
def Eng.areaWords (g : Eng) (e : EngId) : List (Nat × Nat) :=
  (numbered 0 g.queue).flatMap (fun q =>
      [(engAt e + 16 * q.1, q.2.word.toNat), (engAt e + 16 * q.1 + 8, g.entryWaits q.1 q.2.word)])
    ++ [(engAt e + 0x100, g.pc), (engAt e + 0x108, wrap48 (g.seq + g.pending)), (engAt e + 0x110, repWord g.rep),
      (engAt e + 0x118, g.modeWord), (engAt e + 0x120, g.cnt), (engAt e + 0x128, g.stamp)]

/-- Waits up to this stamp have resolved to a command of the engine (R25). -/
def Eng.resolvedTo (g : Eng) : Nat := if g.ended then 2 ^ 64 else (g.scan (2 ^ 64)).1

/-- Token slot `k` of an engine: its latest occupant, whether that has completed and cancelled, and how many queued waits have
resolved to it (R30, R301; log entry 3). -/
def Task.slotWords (t : Task) (e : EngId) : List (Nat × Nat) :=
  (List.range 32).filterMap fun k =>
    ((t.eng e).toks.find? fun x => x.seq % 32 == k).map fun x =>
      (0x2600 + 0x100 * e.num + 8 * k,
        cat (cat (cat (cat (t.waiters e x.seq (t.eng e).resolvedTo).length 1 1) 1 (b2n x.can)) 1 (b2n x.done)) 48 x.seq)

/-- A leaf in the form of R80. -/
def Leaf.word (l : Leaf) : Nat :=
  l.prop * 2 ^ 58 + b2n l.shadow * 2 ^ 57 + l.pa + b2n l.u * 64 + b2n l.x * 32 + b2n l.w * 16 + b2n l.rd * 8
    + 0x81

/-- The pinned translations: the page's first address with its size, valid, and the leaf (R84, R301; log entry 3). -/
def pinWords (ps : List (Nat × Leaf)) : List (Nat × Nat) :=
  (numbered 0 ps).flatMap fun p =>
    [(0x4000 + 16 * p.1, 2 ^ 63 + p.2.1 + p.2.2.log2), (0x4000 + 16 * p.1 + 8, p.2.2.word)]

/-- The six flags of R69, two for each engine. -/
def Task.flagBits (t : Task) : Nat :=
  b2n t.m.nan + 2 * b2n t.m.sat + 4 * b2n t.f.nan + 8 * b2n t.f.sat + 16 * b2n t.s.nan + 32 * b2n t.s.sat

/-- The 8-byte words of an image but for its stores. -/
def Task.imageWords (t : Task) (kind : Nat) (mask : BitVec 32) (wb : Bool) : List (Nat × Nat) :=
  [(0x0, 2 ^ 48 + kind * 2 ^ 40), (0x8, mask.toNat), (0x10, b2n wb), (0x18, imageSize (banksOf mask).length wb)]
    ++ (t.ctl.g.filter (·.1 != 0)).map (fun e => (0x100 + 8 * e.1, e.2.toNat))
    ++ [(0x200, t.ctl.psave)]
    ++ t.ctl.j.map (fun e => (0x208 + 8 * e.1, e.2.taddr.toNat / 8 * 8 + e.2.st.num))
    ++ [(0x248, t.ctl.ssp.toNat), (0x250, t.ctl.ssl.toNat), (0x258, t.ctl.pc.toNat), (0x260, t.ctl.framecnt % 2 ^ 48),
      (0x268, t.ctl.tasktime), (0x270, t.ctl.mode.toNat), (0x278, t.ctl.pending.toNat)]
    ++ t.t.map (fun e => (0x400 + 8 * e.1, e.2.toNat))
    ++ t.pat.map (fun e => (0x1400 + 8 * e.1, e.2.toNat))
    ++ t.sh.map (fun e => (0x1480 + 8 * e.1, e.2.toNat))
    ++ engines.flatMap (fun e => (t.eng e).areaWords e ++ t.slotWords e)
    ++ [(0x2D00, t.sluGen.toNat + 2 ^ 32 * t.flagBits), (0x2D08, t.m.tag.toNat + 2 ^ 32 * t.f.tag.toNat), (0x2D10, t.s.tag.toNat),
      (0x3100, t.f.restart.words.1), (0x3108, t.f.restart.words.2), (0x3110, t.s.restart.words.1),
      (0x3118, t.s.restart.words.2)]
    ++ pinWords t.pins

/-- The bytes of an image, as (offset, byte) pairs; what is not listed is 0. -/
def Task.imageBytes (t : Task) (kind : Nat) (mask : BitVec 32) (wb : Bool) : List (Nat × Byte) :=
  let lanes (base : Nat) (g : Sparse (BitVec 32)) : List (Nat × Byte) :=
    (List.range 128).flatMap fun i => numbered (base + 4 * i) (leBytes 4 (spGet seedZero g i).toNat)
  (t.imageWords kind mask wb).flatMap (fun w => numbered w.1 (leBytes 8 w.2))
    ++ lanes 0x2900 t.drainGen ++ lanes 0x2B00 t.flumeGen
    ++ t.reg.map (fun c => (0x8000 + c.1, c.2))
    ++ (List.range 0x4000).map (fun k => (0x48000 + k, BitVec.ofNat 8 (flagByte t k)))
    ++ (numbered 0 (banksOf mask)).flatMap (fun b =>
        (t.scr.filter fun c => c.1 / 0x10000 == b.2).map fun c => (0x50000 + 0x10000 * b.1 + c.1 % 0x10000, c.2))
    ++ (if wb then
          let at_ := 0x50000 + 0x10000 * (banksOf mask).length
          t.wb.map (fun c => (at_ + c.1, c.2))
            ++ (List.range 128).map fun k =>
              (at_ + 0x40000 + k, BitVec.ofNat 8 ((List.range 8).foldl (fun acc i =>
                acc + b2n (spGet false t.wbValid (8 * k + i)) * 2 ^ i) 0))
        else [])

/-- A byte that an image of the task holds has an uncorrectable error (R308). -/
def Task.imageBad (t : Task) : Bool :=
  t.bad.any fun b =>
    match b.1 with
    | .scr => t.saveMask.getLsbD (b.2 / 0x10000)
    | .wbuf => t.wbSave
    | _ => true

/-- Write a context image at a physical address. -/
def State.writeImage (s : State) (t : Task) (pa : Nat) : State :=
  let size := imageSize (banksOf t.saveMask).length t.wbSave
  let clear := spDrop (fun a => decide (pa ≤ a) && decide (a < pa + size)) s.mem
  { s with
    mem := spSetMany emptyByte clear ((t.imageBytes 2 t.saveMask t.wbSave).map fun c => (pa + c.1, c.2))
    badMem := s.badMem.filter fun a => decide (a < pa) || decide (pa + size ≤ a) }

/-- What a saved context holds beside its image (log entry 3). -/
def Task.savedRest (t : Task) : SavedRest :=
  { lid := t.lid, lcn := t.lcn, m := t.m, f := t.f, s := t.s, fidNext := t.fidNext, frameEng := t.ctl.frameEng, clo := t.ctl.clo
    chi := t.ctl.chi, remote := t.ctl.remote, remoteAge := t.ctl.remoteAge, parkAll := t.parkAll || t.parking
    parkCtl := t.parkCtl, pc := t.ctl.pc, ir := t.ctl.ir, waiting := t.ctl.waiting, recs := t.recs }

/-! ### Reading (R302) -/

/-- An image as read: offsets from its first byte. -/
abbrev Img := Sparse Byte

/-- Listed bytes of physical memory from `pa`, as offsets from `off` on. -/
def State.cellsAt (s : State) (pa n off : Nat) : Img :=
  (s.mem.filter fun c => decide (pa ≤ c.1) && decide (c.1 < pa + n)).map fun c => (c.1 - pa + off, c.2)

/-- An 8-byte word of an image. -/
def Img.word (i : Img) (off : Nat) : Word := BitVec.ofNat 64 (leNat (spRange emptyByte i off 8))

/-- A 4-byte word of an image. -/
def Img.word32 (i : Img) (off : Nat) : BitVec 32 := BitVec.ofNat 32 (leNat (spRange emptyByte i off 4))

/-- The bytes of an area, from offset 0 on. -/
def Img.area (i : Img) (off n : Nat) : Sparse Byte :=
  (i.filter fun c => decide (off ≤ c.1) && decide (c.1 < off + n)).map fun c => (c.1 - off, c.2)

/-- The words of an area as a table from number `k0` on. -/
def Img.words (i : Img) (off n : Nat) : Sparse Word :=
  (List.range n).foldr (fun k t => if i.word (off + 8 * k) = 0 then t else (k, i.word (off + 8 * k)) :: t) []

/-- JSTATE of a saved register (R119). -/
def jstateOf (n : Nat) : JState := match n with | 0 => .empty | 1 => .fetching | 2 => .ready | _ => .stale

/-- The J registers of an image, every state but EMPTY loaded as STALE (R119, R302). -/
def Img.jregs (i : Img) : Sparse JReg :=
  (List.range 8).foldl (fun t k =>
    let w := i.word (0x208 + 8 * k)
    spSet JReg.blank t k (JReg.staled ⟨w &&& ~~~7#64, jstateOf (w.toNat % 4), []⟩)) []

/-- The lane states of an area, 0 loaded as the seed of R70. -/
def Img.lanes (i : Img) (off : Nat) : Sparse (BitVec 32) :=
  (List.range 128).foldl (fun t k => spSet seedZero t k (seedOf (i.word32 (off + 4 * k)))) []

/-- The hidden flags of an image (R301). -/
def Img.flags (i : Img) : Sparse Flag :=
  (List.range 0x4000).foldr (fun k t =>
    let b := (spGet emptyByte i (0x48000 + k)).toNat
    if b == 0x55 then t
    else
      ((List.range 4).filterMap fun j =>
        let f : Flag := ⟨b / 4 ^ j % 2 == 1, b / 4 ^ j / 2 % 2 == 1⟩
        if f = Flag.fresh then none else some (4 * k + j, f)) ++ t) []

/-- The scratchpad of an image: banks outside the mask read zero (R302). -/
def Img.scratch (i : Img) : List Host.Cell :=
  let m : BitVec 32 := BitVec.ofNat 32 (i.word 8).toNat
  (numbered 0 (banksOf m)).flatMap fun b =>
    (i.area (0x50000 + 0x10000 * b.1) 0x10000).map fun c => (0x10000 * b.2 + c.1, c.2)

/-- Where the weight buffer of an image starts. -/
def Img.wbAt (i : Img) : Nat := 0x50000 + 0x10000 * (banksOf (BitVec.ofNat 32 (i.word 8).toNat)).length

/-- Is the weight buffer present? -/
def Img.hasWb (i : Img) : Bool := bitOf (i.word 0x10).toNat 0

/-- The weight buffer's valid bits (R205, R301). -/
def Img.wbValid (i : Img) : Sparse Bool :=
  if i.hasWb then
    (List.range 1024).foldr (fun l t =>
      if bitOf (spGet emptyByte i (i.wbAt + 0x40000 + l / 8)).toNat (l % 8) then (l, true) :: t else t) []
  else []

/-- The header has VERSION 0x0001 and the KIND that the fill expects (R301). -/
def Img.header (i : Img) (kind : Nat) : Bool :=
  fld (i.word 0).toNat 48 16 == 1 && fld (i.word 0).toNat 40 8 == kind

/-- The pinned translations of an image (R84, R302). -/
def Img.pins (i : Img) : List (Nat × Leaf) :=
  (List.range 256).filterMap fun k =>
    let w := (i.word (0x4000 + 16 * k)).toNat
    if bitOf w 63 then
      let n := w % 2 ^ 16
      some (w % 2 ^ 56 - n, leafOf (if n = 30 then 2 else if n = 21 then 1 else 0) (i.word (0x4000 + 16 * k + 8)).toNat)
    else none

/-- The restart entry of an image (R242). -/
def restartOf (w0 w1 : Word) : Restart :=
  ⟨bitOf w0.toNat 63, fld w0.toNat 61 2, fld w0.toNat 0 32, BitVec.ofNat 32 (fld w1.toNat 32 32),
    BitVec.ofNat 32 (fld w1.toNat 0 32)⟩

/-- An engine with the flags of R69 and the restart entry that an image has for it (R242, R301). -/
def Img.engineWords (i : Img) (e : EngId) (g : Eng) : Eng :=
  let fl := (i.word32 0x2D04).toNat / 4 ^ e.num
  { g with
    nan := bitOf fl 0, sat := bitOf fl 1
    restart := match e with
      | .matrix => g.restart
      | .flume => restartOf (i.word 0x3100) (i.word 0x3108)
      | .sluice => restartOf (i.word 0x3110) (i.word 0x3118) }

/-- The parts that launch and restore load alike. G0 has no place but its slot of zeros (R117). -/
def Img.common (i : Img) (t : Task) : Task :=
  { t with
    ctl := { t.ctl with
      g := (i.words 0x100 32).filter (·.1 != 0), p := BitVec.ofNat 8 (i.word 0x200).toNat, j := i.jregs
      pc := i.word 0x258 &&& ~~~7#64, pending := i.word 0x278, step := bitOf (i.word 0x270).toNat 7 }
    m := i.engineWords .matrix t.m, f := i.engineWords .flume t.f, s := i.engineWords .sluice t.s, pins := i.pins
    t := i.words 0x400 512, pat := i.words 0x1400 16, sh := i.words 0x1480 32
    reg := i.area 0x8000 0x40000, scr := i.scratch, wb := if i.hasWb then i.area i.wbAt 0x40000 else []
    wbValid := i.wbValid, icache := [], tlb := [], bad := [], saving := false, parking := false }

/-- The shadow stack of launch core `n` (R302): SSL and SSP. -/
def shadowFor (ssl : Word) (n : Nat) : Word × Word :=
  if ssl = 0 then (0, 0)
  else
    let size := ssl.toNat % 2 ^ 16 + 1
    let ssl' := ssl + BitVec.ofNat 64 (n * size * 2 ^ 16)
    (ssl', BitVec.ofNat 64 (ssl'.toNat / 2 ^ 16 * 2 ^ 16 + size * 2 ^ 16))

/-- The queue entries of an engine's area: the valid ones in order. Where an entry stands at the place that it had at the save, its
address is the one it had; otherwise the entries are the last words that the stream has fetched. -/
def Img.queue (i : Img) (e : EngId) (old : List QEnt) : List QEnt :=
  let ws := ((List.range 16).filter fun k => bitOf (i.word (engAt e + 16 * k + 8)).toNat 63).map fun k =>
    i.word (engAt e + 16 * k)
  let pc := (i.word (engAt e + 0x100)).toNat
  (numbered 0 ws).map fun w =>
    ⟨if ws.length = old.length then ((old[w.1]?).map (·.pc)).getD 0 else pc - 8 * (ws.length - w.1), w.2⟩

/-- REP progress of an engine's area. -/
def repOf (w : Nat) : Option RepSt :=
  if bitOf w 63 then
    some ⟨fld w 0 4, fld w 20 12 + 1, fld w 8 12, fld w 4 4, BitVec.ofNat 3 (fld w 32 3), BitVec.ofNat 3 (fld w 35 3),
      BitVec.ofNat 3 (fld w 38 3)⟩
  else none

/-- The token slots of an engine, its `old` tokens supplying the stamps and what has left the slots; a command that has been
emulated outside has the stamp `st`. -/
def Img.toks (i : Img) (e : EngId) (seq st : Nat) (old : List Tok) : List Tok :=
  let slot (n : Nat) : Nat := (i.word (0x2600 + 0x100 * e.num + 8 * (n % 32))).toNat
  let new := (List.range (min 32 seq)).filterMap fun k =>
    let n := seq - 1 - k
    let w := slot n
    if bitOf w 50 && w % 2 ^ 48 == n then
      let o := old.find? fun x => x.seq == n
      some (⟨n, (o.map (·.stamp)).getD st, bitOf w 48 || (o.map (·.done)).getD false, bitOf w 49 || (o.map (·.can)).getD false⟩ : Tok)
    else none
  new ++ old.filter fun x => !(new.any fun y => y.seq == x.seq)

/-- An engine as its areas have it, `g` supplying what no area names (R30, R301). -/
def Img.engine (i : Img) (e : EngId) (g : Eng) : Eng :=
  let w (k : Nat) : Nat := (i.word (engAt e + k)).toNat
  let m := w 0x118
  let g := { i.engineWords e g with
    tag := i.word32 (0x2D08 + 4 * e.num), queue := i.queue e g.queue, pc := w 0x100, rep := repOf (w 0x110)
    cnt := w 0x120, stamp := w 0x128, forked := bitOf m 0
    timed := bitOf m 1, degr := bitOf m 2, started := bitOf m 3, running := bitOf m 4, ended := bitOf m 5, can := bitOf m 6
    ran := bitOf m 7, mask := BitVec.ofNat 3 (fld m 8 3), peek := none }
  let seq := wrap48 (w 0x108 + 2 ^ 48 - g.pending)
  { g with seq, toks := i.toks e seq g.stamp g.toks }

/-- Fill a task from a launch image (R302): `t` carries its identity, and the clocks, the frame and the request tags of a task that
has not begun, which start at 0 (R121, R124, R125, R230, R261; log entry 91). None where the queue or token areas are not empty
(log entry 96). -/
def Img.launch (i : Img) (t : Task) (phys : Bool) : Option Task :=
  if i.any fun c => decide (0x2000 ≤ c.1) && decide (c.1 < 0x2900) then none
  else
    let t := i.common t
    let (ssl, ssp) := shadowFor (i.word 0x250) t.lcn
    some { t with
      ctl := { t.ctl with ssl, ssp, phys }
      flags := []
      drainGen := lanesFrom (i.word32 0x2900), flumeGen := lanesFrom (i.word32 0x2B00)
      sluGen := seedOf (i.word32 0x2D00) }

/-- With RVALID 0 no command of the engine is stopped (R242). -/
def Eng.restarted (g : Eng) : Eng := { g with stopped := if g.restart.rvalid then g.stopped else none }

/-- Restore a task from a context image, `r` supplying what no area names (R302). It still waits in the instruction in which it was
saved unless an edit of the image has taken it past that (R171, R309). -/
def Img.restore (i : Img) (t : Task) (phys : Bool) (r : SavedRest) : Task :=
  let t := i.common t
  let m := (i.word 0x270).toNat
  { t with
    ctl := { t.ctl with
      framecnt := (i.word 0x260).toNat % 2 ^ 48, tasktime := (i.word 0x268).toNat, frame := bitOf m 0, timed := bitOf m 1
      degr := bitOf m 2, ssl := i.word 0x250, ssp := i.word 0x248 &&& ~~~7#64, phys
      frameEng := r.frameEng, clo := r.clo, chi := r.chi, remote := r.remote, remoteAge := r.remoteAge
      ir := r.ir, waiting := r.waiting && !t.ctl.leaves r.pc r.ir }
    fidNext := r.fidNext, m := i.engine .matrix r.m
    f := (i.engine .flume r.f).restarted, s := (i.engine .sluice r.s).restarted
    flags := i.flags, drainGen := i.lanes 0x2900, flumeGen := i.lanes 0x2B00, sluGen := seedOf (i.word32 0x2D00)
    parkAll := r.parkAll, parkCtl := r.parkCtl, recs := r.recs }

/-- `n` bytes of an image at a physical address, or UNCORRECTABLE where one of them cannot be read (R308). -/
def State.physImage (s : State) (pa n off : Nat) : Except Code Img :=
  if s.badMem.any fun b => decide (pa ≤ b) && decide (b < pa + n) then .error .uncorrectable else .ok (s.cellsAt pa n off)

/-- The first `size` bytes of a virtual image, page by page from offset `off` on, or the fault that a page raises (R302). -/
def State.virtImage (s : State) (part queue va size : Nat) : Nat → Nat → Except Code Img
  | 0, _ => .ok []
  | fuel + 1, off =>
    let a := va + off
    let n := min (0x10000 - a % 0x10000) (size - off)
    match (s.translateIn part (some queue) a .load).bind fun pa => s.physImage pa n off with
    | .error c => .error c
    | .ok i =>
      match s.virtImage part queue va size fuel (off + n) with
      | .error c => .error c
      | .ok t => .ok (i ++ t)

/-- The 64 KiB pages of `n` bytes at `va`. -/
def pageCount (va n : Nat) : Nat := (va % 0x10000 + n + 0xFFFF) / 0x10000

/-- Read an image: its header first, then as many bytes as the header's parts take, whatever its VERSION and KIND (log entry 105). -/
def State.readImage (s : State) (part queue addr : Nat) (virt : Bool) : Except Code Img :=
  let read (n : Nat) : Except Code Img :=
    if virt then s.virtImage part queue addr n (pageCount addr n) 0 else s.physImage addr n 0
  (read 0x20).bind fun h => read (imageSize (banksOf (BitVec.ofNat 32 (Img.word h 8).toNat)).length (Img.hasWb h))

/-! ### Editing in place (R309) -/

/-- The task with one word of its context changed: every other part stays as it is. -/
def Task.editWord (t : Task) (off : Nat) (v : Word) : Task :=
  let cells := spSetMany emptyByte [] (t.imageBytes 2 0xFFFFFFFF#32 true)
  let img : Img := spSetMany emptyByte cells (numbered off (leBytes 8 v.toNat))
  let u := Img.restore img t t.ctl.phys t.savedRest
  let inJ := decide (0x208 ≤ off) && decide (off < 0x248)
  let k := (off - 0x208) / 8
  let covers (a : Nat) : Bool := decide (off ≤ a) && decide (a < off + 8)
  let j := if inJ then spSet JReg.blank t.ctl.j k (spGet JReg.blank u.ctl.j k) else t.ctl.j
  { u with
    ctl := { u.ctl with j := j }
    icache := t.icache, tlb := t.tlb, saving := t.saving
    bad := t.bad.filter fun b =>
      match b.1 with
      | .reg => !covers (0x8000 + b.2)
      | .scr => !covers (0x50000 + b.2)
      | .wbuf => !covers (0x250000 + b.2)
      | _ => true }

end Sys2Proof.Machine
end

