-- ==== Sys2Proof/Machine/Power.lean ====
section
/-! DEFINITION. Boot (R322, R324), power states (R325) and the weir (R326, R327). -/

namespace Sys2Proof.Machine

/-! ### Boot (R316, R322) -/

/-- Both signatures verify and the version has not been rolled back (R322). -/
def State.verified (s : State) (i : SignedImage) : Bool := i.edOk && i.mlOk && decide (s.rollback ≤ i.version)

/-- A partition's cores are whole quads, and so whole dies, of this device (R322). -/
def State.wholeQuads (s : State) (p : Partition) : Bool :=
  p.cores.all fun c => decide (c < s.coresPerPkg) && [0, 1, 2, 3].all fun k => p.cores.contains (c / 4 * 4 + k)

/-- Two partitions share a unit: a core, an application core, memory (R322). -/
def Partition.shares (p q : Partition) : Bool :=
  p.cores.any q.cores.contains || p.appCores.any q.appCores.contains
    || p.share.any fun x => q.share.any fun y => decide (x.1 < y.2) && decide (y.1 < x.2)

/-- The partitions of a boot descriptor that are sets of whole units, none shared with an earlier one, the first 16 that it
names with a virtual function (R320, R322; log entry 42). -/
def State.legalParts (s : State) : List Partition → List Partition → List Partition
  | done, [] => done
  | done, p :: t =>
    if s.wholeQuads p && (p.appCores.all fun a => decide (a < 8 * s.dies)) && !(done.any p.shares) then
      s.legalParts (done ++ [{ p with vf := p.vf && decide ((done.filter (·.vf)).length < 16) }]) t
    else s.legalParts done t

/-- A partition starts if its image verifies with both algorithms and every core of it has passed its self-test (R316,
R322). -/
def State.starts (s : State) (p : Partition) : Bool :=
  p.image.edOk && p.image.mlOk && p.cores.all fun c => !s.coresFailed.contains c

/-- The partitions that the hypervisor forms from the boot descriptor (R322 step 3), each with its TOLNS at reset (R325). -/
def State.formParts (s : State) : List Partition :=
  (s.legalParts [] s.bootParts).map fun p =>
    { p with running := s.starts p, tolNs := 0, power := .s0, exitAt := none }

/-- The reports of a boot to its partitions: the package's application and management cores, the cores that failed, and the dump
of the fatal error before it (R315, R316, R314). -/
def State.reportsOf (s : State) (dump : Option Dump) : List BootReport :=
  s.formParts.map fun p => ⟨p.id, List.range (8 * s.dies), List.range s.dies, s.coresFailed, dump⟩

/-- BOOT (R322): the firmware is verified and the partitions are formed, or the package waits for recovery. -/
def execBoot (s : State) : Out :=
  if s.boot ≠ .off then .next s
  else if s.verified s.flash then
    .next { s with
      boot := .running, fw := s.flash, parts := s.formParts, bootAt := s.now, bootReports := s.reportsOf s.dumps.getLast?
      dumps := [] }
  else .next { s with boot := .recovery }

/-- FIRMWARE_UPDATE (R324): a verified image goes to flash and the rollback counter advances; a write that is cut leaves
an image that fails verification. -/
def execFirmwareUpdate (img : SignedImage) (cut : Bool) (s : State) : Out :=
  if s.boot ≠ .running || !s.verified img then .next s
  else if cut then
    .next { s with
      flash := ⟨img.version, Config.freeWord s.fresh, false, false⟩, fresh := s.fresh + 1 }
  else .next { s with flash := img, rollback := img.version }

/-! ### Power states (R325) -/

/-- Exit latency in ns. -/
def PowerSt.exitNs : PowerSt → Nat
  | .s0 => 0 | .s1 => 2000 | .s2 => 150000 | .s3 => 20000000

/-- Exit latency in cycles of the 1.75 GHz clock. -/
def PowerSt.exitCycles (p : PowerSt) : Nat := p.exitNs * 7 / 4

/-- A partition has a task in a slot, or an accepted launch that is not finished. -/
def State.busyPart (s : State) (id : Nat) : Bool :=
  (s.cores.any fun c => (c.slot != .empty && c.task.part == id) || c.staged != .empty && c.stagedTask.part == id)
    || s.launches.any fun l => l.part == id && l.st != .finished

/-- The tolerance that the host has given allows a state; without a host link there is none (R325). -/
def State.hostAllows (s : State) (p : PowerSt) : Bool := !s.hostLink || decide (p.exitNs ≤ s.hostTol)

/-- Every tolerance that applies to the package allows a state. -/
def State.allowed (s : State) (p : PowerSt) : Bool := (s.parts.all fun q => decide (p.exitNs ≤ q.tolNs)) && s.hostAllows p

/-- The deepest package state that every tolerance allows, of which there is at least one; S2 and S3 are entered with nothing resident,
S2 with nothing queued either (log entry 31). -/
def State.deepest (s : State) : PowerSt :=
  let resident := s.cores.any fun c => c.slot != .empty || c.staged != .empty
  if (s.parts.isEmpty && !s.hostLink) || resident then .s0
  else if s.allowed .s3 then .s3
  else if s.allowed .s2 && s.launches.all (fun l => l.st == .finished) then .s2
  else .s0

/-- The exit from the package's state starts, unless it has started. -/
def State.startExit (s : State) : State :=
  if s.power ≠ .s0 && s.exitAt.isNone then { s with exitAt := some (s.now + s.power.exitCycles) } else s

/-- The exit of a partition's cores from S1 starts, unless it has started. -/
def Partition.wake (p : Partition) (now : Nat) : Partition :=
  if p.power == .s1 && p.exitAt.isNone then { p with exitAt := some (now + PowerSt.s1.exitCycles) } else p

/-- A launch arrives at a partition: the exit from S1 or S2 starts (R325). -/
def State.wakeFor (s : State) (part : Nat) : State :=
  { s.startExit with parts := s.parts.map fun p => if p.id = part then p.wake s.now else p }

/-- S3 loses HBM, every partition's state and every queued launch (R325); memory of the host is not HBM. -/
def State.loseAll (s : State) : State :=
  { s with
    cur := Core.blank s.cur.pcore, rest := [], mem := s.mem.filter fun c => bitOf c.1 51
    badMem := s.badMem.filter fun a => bitOf a 51, parts := [], launches := [], gangs := [], binds := [], saved := []
    arrivals := [], left := [], departs := [], iinvs := [], faults := [], tagsSeen := [], rings := [], xlat := [] }

/-- S1 fits a partition: its tolerance and the host's allow it, and it has no resident task and no queued launch. -/
def State.mayDoze (s : State) (p : Partition) : Bool :=
  decide (PowerSt.s1.exitNs ≤ p.tolNs) && s.hostAllows .s1 && !s.busyPart p.id

/-- Each partition's cores enter S1 where it fits, and leave it where its tolerances no longer allow it. -/
def State.settleParts (s : State) : State :=
  { s with parts := s.parts.map fun p =>
      if p.power == .s1 then (if decide (PowerSt.s1.exitNs ≤ p.tolNs) && s.hostAllows .s1 then p else p.wake s.now)
      else if s.mayDoze p then { p with power := .s1 } else p }

/-- Enter the deepest state that fits, or start the exit from one that no longer fits (R325). The spec names what starts the exit from
S1 and S2, a launch that arrives, and nothing for S3: in the model the host's tolerance alone starts that exit (DESIGN CHOICE, log
entry 116). -/
def State.settlePower (s : State) : State :=
  if s.boot ≠ .running || s.exitAt.isSome then s
  else
    match s.power, s.deepest with
    | .s3, _ => if s.hostAllows .s3 then s else s.startExit
    | .s2, .s3 => { s.loseAll with power := .s3 }
    | .s2, .s2 => s
    | .s2, _ => s.startExit
    | _, .s3 => { s.loseAll with power := .s3 }
    | _, .s2 => { s with power := .s2 }
    | _, _ => s.settleParts

/-- POWER_REQUEST (R325): a word with a reserved bit set, or SCOPEP 1 from a partition, is refused; the host asks through its link
(R320). R325 gives no meaning to SCOPEP 2 to 255, which are refused too, nor to SCOPEP 0 from the host, which sets the tolerance of
the partition that the request names (DESIGN CHOICE, log entry 121). -/
def execPowerRequest (part : Nat) (host : Bool) (w : Word) (s : State) : Out :=
  let scope := fld w.toNat 32 8
  let tol := fld w.toNat 0 32
  if fld w.toNat 40 24 != 0 || decide (1 < scope) || (scope == 1 && !host) || (host && !s.hostLink) then .next s
  else if scope = 1 then .next (State.settlePower { s with hostTol := tol })
  else
    .next (State.settlePower { s with
      parts := s.parts.map fun p => if p.id = part then { p with tolNs := tol } else p })

/-- The partitions whose exit from S1 has completed are awake. -/
def State.wokenParts (s : State) : List Partition :=
  s.parts.map fun p => if p.exitAt.any (fun c => c ≤ s.now) then { p with power := .s0, exitAt := none } else p

/-- POWER_STATE_EXIT (R325): an exit completes after its latency; out of S3 each partition starts afresh. -/
def execPowerStateExit (s : State) : Out :=
  if s.exitAt.any (fun c => c ≤ s.now) then
    if s.power = .s3 then
      .next { s with power := .s0, exitAt := none, parts := s.formParts, bootAt := s.now, bootReports := s.reportsOf none }
    else .next { s with power := .s0, exitAt := none, parts := s.parts.map fun p => { p with power := .s0, exitAt := none } }
  else .next { s with parts := s.wokenParts }

/-- WEIR_SAMPLE (R326, R327): D of a die, at most 2^20, and 0 while its limit is not exceeded. -/
def execWeirSample (die : Nat) (limit : Bool) (d : Nat) (s : State) : Out :=
  if die < s.dies then .next { s with weir := spSet 0 s.weir die (if limit then min d (2 ^ 20) else 0) }
  else .next s

end Sys2Proof.Machine
end

