-- ==== Sys2Proof/Machine/Fatal.lean ====
section
/-! DEFINITION. Cutting what is in flight when a task is killed or every die stops (R222, R299), and fatal errors with their dump
(R314). -/

namespace Sys2Proof.Machine

/-! ### Cutting what is in flight (R222, R299) -/

/-- Split a list into runs of the given lengths; what is left is a run of its own. -/
def splitRuns {α : Type} : List Nat → List α → List (List α)
  | [], l => if l.isEmpty then [] else [l]
  | n :: t, l => l.take n :: splitRuns t (l.drop n)

/-- The byte writes of a command in runs that lie in one container (R88). -/
def Flight.containers (f : Flight) : List (Space × Nat) :=
  dedupAdj ((f.writes.filter fun w => w.mask != 0).map fun w => (w.sp, f.container w.sp w.at_))

/-- The units in which an issued command's bytes become new (R222): a block with its scale where DRAIN writes scales, an element
container otherwise. -/
def Flight.parts (f : Flight) : List (List BWrite) :=
  if f.units.isEmpty then f.containers.map fun k => f.writes.filter fun w => (w.sp, f.container w.sp w.at_) == k
  else splitRuns f.units f.writes

/-- Each unit of an issued command ends wholly old or wholly new; which is free, unless a read has found some of it new already
(R222, log entry 2). -/
def State.cutUnits (s : State) (acc : Bool) : List (List BWrite) → State
  | [] => s
  | u :: t =>
    let (new, s) := if u.any fun w => w.mask == 0 then (true, s) else s.choose
    State.cutUnits (if new then s.perform acc u [] else s) acc t

/-- An issued command of engine `e` is cut: its byte writes by units, its landing operation performed or not. -/
def State.cutFlight (s : State) (e : EngId) (f : Flight) : State :=
  let s := s.cutUnits f.acc f.parts
  let (new, s) := s.choose
  if !new then s
  else
    match f.op with
    | .slu op =>
      if op.tgt.t.kind == 8 then s
      else
        let k := (Config.freeWord s.fresh).toNat % (op.last - op.first + 1)
        (State.landOp { s with fresh := s.fresh + 1 } e { f with op := .slu { op with last := op.first + k } }).1
    | .fold _ => (s.landOp e f).1
    | _ => s

/-- A request that has not been applied is applied or lost. -/
def State.cutReq (e : EngId) (s : State) (r : Req) : State :=
  if r.applied || r.confirmed then s
  else
    let (new, s) := s.choose
    let sound := (s.eng e).flight.any fun f => f.seq == r.seq && (s.reqBad f r).isNone
    if new && sound && s.reqReaches r then (s.applyReq r).1 else s

/-- What the focused core's task has issued is cut. -/
def State.cutInFlight (s : State) : State :=
  let s := engines.foldl (fun s e => ((s.eng e).flight.foldl (fun s f => s.cutFlight e f) s)) s
  engines.foldl (fun s e => ((s.eng e).reqs.foldl (State.cutReq e) s)) s

/-! ### Fatal errors (R314) -/

/-- WALLCLK in whole ns since the boot: four for every seven cycles (R2, R121; log entry 97). -/
def State.wallclk (s : State) : Nat := (s.now - s.bootAt) * 4 / 7

/-- The size of one core's part of a dump: the parts follow each other without a gap, for R314 gives no stride (DESIGN CHOICE, log entry
120). -/
def dumpCore : Nat := imageSize 32 true

/-- The size of a dump. -/
def State.dumpSize (s : State) : Nat := 0x1000 + 0x10000 * s.dies + dumpCore * s.coresPerPkg

/-- The header words of a dump. -/
def State.dumpHeader (s : State) (cause : BitVec 8) (addr : Word) : List (Nat × Nat) :=
  [(0, 2 ^ 48 + 3 * 2 ^ 40 + cause.toNat), (8, s.wallclk), (16, 2 ^ s.dies - 1), (24, s.dumpSize), (32, addr.toNat)]

/-- The commands that an engine has issued and not completed, one stopped in mid-course among them, in issue order. -/
def Eng.inCourse (g : Eng) : List Flight :=
  match g.stopped with
  | none => g.flight
  | some f => g.flight.filter (fun x => x.seq < f.seq) ++ f :: g.flight.filter fun x => f.seq < x.seq

/-- An engine stopped in mid-command: what is in course stands before its queue, unissued; the number of the next command to be
fetched stays (R314). The area holds 16 entries; the latest words do not fit (log entry 77). -/
def Eng.asDumped (g : Eng) : Eng :=
  let d := { g with queue := (g.inCourse.map (fun (f : Flight) => (⟨f.pc, f.word⟩ : QEnt)) ++ g.queue).take 16 }
  { d with seq := wrap48 (g.seq + g.pending + 2 ^ 48 - d.pending) }

/-- A task as its core's part of a dump shows it. -/
def Task.asDumped (t : Task) : Task := { t with m := t.m.asDumped, f := t.f.asDumped, s := t.s.asDumped }

/-- The head and the tail of a launch queue: how many of its records have left it, and how many it has accepted (log entry
3). -/
def State.queueEnds (s : State) (die prio : Nat) : Nat × Nat :=
  let ls := s.launches.filter fun l => l.die == die && l.rec_.prio == prio
  ((ls.filter fun l => l.st != .queued).length, ls.length)

/-- The four words of a bind record (R294). -/
def BindRec.words (s : State) (r : BindRec) : List Nat :=
  [cat (cat (cat (cat (cat r.action 1 (b2n r.commit)) 11 r.groupn) 16 r.tag) 9 0) 23 (pcoreWord s.pkg r.pcore), r.lid,
    cat (cat (cat (cat r.status 36 0) 1 (b2n r.virt)) 2 r.gshape) 17 r.lcn, r.addr]

/-- The bind records of a die that its part of a dump has room for, 1,792 of them: the latest (log entry 3). -/
def State.dumpRing (s : State) (die : Nat) : List BindRec :=
  let rs := s.binds.filter fun r => r.die == die
  rs.drop (rs.length - 1792)

/-- The part of a die in a dump: the management core's registers, which nothing else shows, as free bytes, then the queues' heads
and tails and the slot-table ring (log entry 3). -/
def State.dumpDie (s : State) (die : Nat) : List (Nat × Byte) :=
  let at_ := 0x1000 + 0x10000 * die
  (List.range 0x1000).map (fun k => (at_ + k, Config.freeByte (s.fresh + 0x1000 * die + k)))
    ++ (List.range 4).flatMap (fun p =>
        let q := s.queueEnds die p
        numbered (at_ + 0x1000 + 16 * p) (leBytes 8 q.1 ++ leBytes 8 q.2))
    ++ (numbered 0 (s.dumpRing die)).flatMap fun r =>
        numbered (at_ + 0x2000 + 32 * r.1) ((BindRec.words s r.2).flatMap (leBytes 8))

/-- The bytes of a dump from its first byte on: the header, the dies, and the resident slot of every core in physical order. -/
def State.dumpBytes (s : State) (cause : BitVec 8) (addr : Word) : List (Nat × Byte) :=
  (s.dumpHeader cause addr).flatMap (fun w => numbered w.1 (leBytes 8 w.2)) ++ (List.range s.dies).flatMap s.dumpDie
    ++ (List.range s.coresPerPkg).flatMap fun n =>
        ((s.coreAt n).task.asDumped.imageBytes 3 0xFFFFFFFF#32 true).map fun b =>
          (0x1000 + 0x10000 * s.dies + dumpCore * n + b.1, b.2)

/-- Write the dump into the region that the boot descriptor reserves. -/
def State.writeDump (s : State) (cause : BitVec 8) (addr : Word) : State :=
  let at_ := s.dumpAt
  let clear := spDrop (fun a => decide (at_ ≤ a) && decide (a < at_ + s.dumpSize)) s.mem
  { s with
    mem := spSetMany emptyByte clear ((s.dumpBytes cause addr).map fun c => (at_ + c.1, c.2))
    badMem := s.badMem.filter fun a => decide (a < at_) || decide (at_ + s.dumpSize ≤ a)
    fresh := s.fresh + 0x1000 * s.dies }

/-- The package after a reset: the parts outside the reset domain keep their contents, memory among them (log entry 7). -/
def State.afterReset (s : State) : State :=
  { State.reset with
    d4 := s.d4, now := s.now, bootAt := s.bootAt, fresh := s.fresh, mem := s.mem, badMem := s.badMem, pkg := s.pkg, hostLink := s.hostLink
    flash := s.flash, rollback := s.rollback, descriptor := s.descriptor, bootParts := s.bootParts
    coresFailed := s.coresFailed, dumpAt := s.dumpAt, dumps := s.dumps, inputs := s.inputs }

/-- Every die stops: what is in flight is cut, every unit of it wholly old or wholly new (R222, R314). -/
def State.stopDies (s : State) : State := (s.cores.map (·.pcore)).foldl (fun s n => s.onCore n State.cutInFlight) s

/-- A fatal error: every die stops, the dump is written, the package is reset (R314). -/
def State.fatal (s : State) (cause : BitVec 8) (addr : Word) : State :=
  let s := s.stopDies.writeDump cause addr
  State.afterReset { s with dumps := s.dumps ++ [⟨cause.toNat, s.wallclk, addr⟩] }

end Sys2Proof.Machine
end

