-- ==== Sys2Proof/Machine/Headgate.lean ====
section
/-! DEFINITION. Binding and scheduling: the slot table and its actions (R294 to R297, R299), the context engine (R302,
R303), the launch calls (R292, R295) and the default policy (R298, R300). -/

namespace Sys2Proof.Machine

/-! ### Cores and records -/

/-- Does a core hold, in either slot, a task of launch `lid`? -/
def Core.holdsLaunch (c : Core) (lid : Nat) : Bool :=
  (c.slot != .empty && c.task.lid == lid) || (c.staged != .empty && c.stagedTask.lid == lid)

/-- Empty the staged slot. -/
def Core.unstage (c : Core) : Core :=
  { c with staged := .empty, stagedTask := Task.blank, stagedTag := 0, fillFrom := 0, fillVirt := false, fillCtx := false }

/-- Empty the resident slot. -/
def Core.vacate (c : Core) : Core := { c with slot := .empty, task := Task.blank, released := true, saveTo := 0 }

/-- Replace the bind records that satisfy `p` by their image under `f`. -/
def State.mapBinds (s : State) (p : BindRec → Bool) (f : BindRec → BindRec) : State :=
  { s with binds := s.binds.map fun r => if p r then f r else r }

/-- Replace the gangs of launch `lid` with index `idx`. -/
def State.mapGang (s : State) (lid idx : Nat) (f : Gang → Gang) : State :=
  { s with gangs := s.gangs.map fun g => if g.lid = lid && g.idx = idx then f g else g }

/-- The gang of a launch core number. -/
def State.gangOf (s : State) (r : LaunchWords) (lcn : Nat) : Nat := lcn / s.gangSize r.gshape

/-! ### Stopping a task without an image (R222, R299) -/

/-- The focused core's task stops and is discarded: nothing of it is kept but what its issued commands leave in memory
and in other cores (R299). -/
def State.discard (s : State) : State :=
  let s := s.cutInFlight
  { s.uncover with cur := s.cur.vacate }

/-- The cores whose task of the launch has been swapped in and waits for the last swap of its gang (R297). -/
def State.midSwap (s : State) (lid : Nat) : List Nat :=
  (s.cores.filter fun c => c.slot != .empty && !c.released && c.task.lid == lid).map (·.pcore)

/-- The launch can never run again: its pending BIND and RESUME records end in error, its staged slots are emptied, and gangs that
are not resident are dropped, those in the midst of their swap with the tasks that have swapped already (R297, R299, R302). -/
def State.dropLaunch (s : State) (lid : Nat) : State :=
  let cs := s.midSwap lid
  let s := cs.foldl (fun s n => s.onCore n State.discard) s
  let s := s.mapBinds (fun r => r.lid == lid && r.status == 0
      && (r.action == 1 || r.action == 2 || (r.action == 3 && r.started && cs.contains r.pcore))) fun r =>
    { r with status := 3, started := true }
  let s := s.mapCores fun c => if c.staged != .empty && c.stagedTask.lid = lid then c.unstage else c
  { s with gangs := s.gangs.map fun g => if g.lid = lid && g.st != .resident then { g with st := .done } else g }

/-! ### Saved gangs (R298) -/

/-- The unhalted tasks of a gang. -/
def State.living (s : State) (l : Launch) (idx : Nat) : List Nat :=
  (s.gangCores l idx).filter fun n => !l.halted.contains n

/-- Does a core hold the task, resident or being saved? -/
def Core.occupiedBy (c : Core) (lid lcn : Nat) : Bool := c.slot != .empty && c.task.lid == lid && c.task.lcn == lcn

/-- With its last task saved or halted, a gang that is being saved is ready again, behind the others, at its launch
priority (R298). -/
def State.settleSaved (s : State) (l : Launch) (idx : Nat) : State :=
  match s.gangs.find? fun g => g.lid == l.lid && g.idx == idx with
  | none => s
  | some g =>
    if g.st == .saving && (s.living l idx).all fun n => s.cores.all fun c => !c.occupiedBy l.lid n then
      { s with gangs := (s.gangs.filter fun x => !(x.lid == l.lid && x.idx == idx))
                 ++ [{ g with st := .ready, saved := true, level := l.rec_.prio, since := s.now }] }
    else s

/-- The image of a task of the gang has been written. -/
def State.noteSaved (s : State) (lid lcn addr : Nat) : State :=
  match s.findLaunch lid with
  | none => s
  | some l =>
    (s.mapGang lid (s.gangOf l.rec_ lcn) fun g =>
      { g with images := (lcn, addr) :: g.images.filter fun i => i.1 != lcn }).settleSaved l (s.gangOf l.rec_ lcn)

/-! ### The slot table (R294, R296) -/

/-- The next record of a die's ring that the headgate has not acted on. -/
def State.nextBind (s : State) (die : Nat) : Option BindRec := s.binds.find? fun r => r.die == die && !r.started

/-- Replace the next record of a die's ring, which is `r`. -/
def replaceFirst (die : Nat) (v : BindRec) : List BindRec → List BindRec
  | [] => []
  | r :: t => if r.die == die && !r.started then v :: t else r :: replaceFirst die v t

/-- The headgate has acted on the next record of a die's ring. -/
def State.putBind (s : State) (die : Nat) (v : BindRec) : State := { s with binds := replaceFirst die v s.binds }

/-- The cores of a launch's partition are clocked: a bind follows the exit from a power state (R325). -/
def State.clocked (s : State) (l : Launch) : Bool :=
  s.power == .s0 && s.exitAt.isNone && (s.partOf l.part).all fun p => p.power == .s0

/-- Start to fill the staged slot that a record names, once it is EMPTY and the cores are clocked (R296, R325). A record of a
launch that is not active ends in error. -/
def State.startFill (s : State) (die : Nat) (r : BindRec) : State :=
  if (s.findLaunch r.lid).any fun l => l.st == .active then
    if (s.coreAt r.pcore).staged = .empty && (s.findLaunch r.lid).all s.clocked then
      (s.putBind die { r with started := true }).onCore r.pcore fun s =>
        { s with cur := { s.cur with
            staged := .filling, stagedTask := { Task.blank with lid := r.lid, lcn := r.lcn }, stagedTag := r.tag
            fillFrom := r.addr, fillVirt := r.virt && r.action == 1, fillCtx := r.action == 2 } }
    else s
  else s.putBind die { r with started := true, status := 3 }

/-- BIND (R296). -/
def execBind (die : Nat) (s : State) : Out :=
  match s.nextBind die with
  | some r => if r.action = 1 then .next (s.startFill die r) else .next s
  | none => .next s

/-- RESUME (R296). -/
def execResume (die : Nat) (s : State) : Out :=
  match s.nextBind die with
  | some r => if r.action = 2 then .next (s.startFill die r) else .next s
  | none => .next s

/-- The PREEMPT records of a gang group that the headgates have taken and that have no STATUS yet. -/
def State.preempts (s : State) (tag : Nat) : List BindRec :=
  s.binds.filter fun r => r.tag == tag && r.action == 3 && r.started && r.status == 0

/-- The task that a PREEMPT record names starts to be saved; STATUS 2 if it has retired; a record that names neither ends in
error (R296, R303). -/
def State.startSave (s : State) (r : BindRec) : State :=
  let ends (n : Nat) : State := s.mapBinds (fun x => x == r) fun x => { x with status := n }
  match s.findLaunch r.lid with
  | some l =>
    let idx := s.gangOf l.rec_ r.lcn
    if (s.coreAt r.pcore).holdsTask r.lid r.lcn then
      (s.mapGang r.lid idx fun g => { g with st := .saving }).onCore r.pcore fun s =>
        { s with cur := { s.cur with slot := .saving, saveTo := r.addr, task := { s.cur.task with saving := true } } }
    else if l.halted.contains r.lcn then (ends 2).settleSaved l idx
    else ends 3
  | none => ends 3

/-- PREEMPT (R296, R297, R303): it acts on the whole gang, so the tasks of a gang group start to be saved together, once the headgates
have taken all GROUPN records of it (log entry 86). -/
def execPreempt (die : Nat) (s : State) : Out :=
  match s.nextBind die with
  | some r =>
    if r.action ≠ 3 then .next s
    else
      let s := s.putBind die { r with started := true }
      let rs := s.preempts r.tag
      .next (if rs.any (·.commit) && rs.all (fun x => x.groupn == rs.length) then rs.foldl State.startSave s else s)
  | none => .next s

/-- The index of the task's gang in its launch (R121). -/
def Task.gang (t : Task) : Nat := t.lcn / max t.gsize 1

/-- A task of the launch stands in the core's resident slot. -/
def Core.runsLaunch (c : Core) (lid : Nat) : Bool := c.slot != .empty && c.task.lid == lid

/-- The cores in whose resident slots tasks of a launch stand on a die, and those of the other tasks of the same gangs. -/
def State.coresWith (s : State) (die lid : Nat) : List Nat :=
  let cs := s.cores.filter fun c => c.runsLaunch lid
  let gangs := (cs.filter fun c => dieOf c.pcore == die).map (·.task.gang)
  (cs.filter fun c => gangs.contains c.task.gang).map (·.pcore)

/-- KILL (R296, R297, R299): every task of the launch on this die stops, with its whole gang wherever that stands, and the slots of the
launch are emptied, those in which its tasks are staged without their cores' resident tasks; once no core holds one, the completion record carries STATUS 2. -/
def execKill (die : Nat) (s : State) : Out :=
  match s.nextBind die with
  | some r =>
    if r.action ≠ 4 then .next s
    else
      let s := s.putBind die { r with started := true, status := 1 }
      let cs := s.coresWith die r.lid
      let s := cs.foldl (fun s n => s.onCore n State.discard) s
      let s := s.dropLaunch r.lid
      let s := s.mapBinds (fun x => x.lid == r.lid && x.action == 3 && x.status == 0 && x.started
          && (x.die == die || cs.contains x.pcore))
        fun x => { x with status := 3 }
      if s.cores.any fun c => c.holdsLaunch r.lid then .next s
      else
        let s : State := { s with
          gangs := s.gangs.map fun (g : Gang) => if g.lid = r.lid then { g with st := .done } else g
          saved := s.saved.filter fun x => x.2.lid != r.lid
          arrivals := s.arrivals.filter fun a => a.lid != r.lid
          left := s.left.filter fun a => a.lid != r.lid
          departs := s.departs.filter fun a => a.lid != r.lid
          iinvs := s.iinvs.filter fun a => a.lid != r.lid }
        match s.findLaunch r.lid with
        | some l => .next (if l.st = .finished then s else s.finishLaunch l 2 0)
        | none => .next s
  | none => .next s

/-- BIND_ACTION_OTHER (R296): nothing, and STATUS 3. -/
def execBindActionOther (die : Nat) (s : State) : Out :=
  match s.nextBind die with
  | some r =>
    if r.action = 0 || 5 ≤ r.action then .next (s.putBind die { r with started := true, status := 3 }) else .next s
  | none => .next s

/-! ### The context engine (R302, R303) -/

/-- A forked frame that has not started starts 64 cycles after the restore, again subject to the weir (R31). -/
def State.rearm (s : State) (g : Eng) : Eng :=
  if g.running && !g.started then { g with countdown := 64 + s.weirD } else g

/-- What the model supplies beside an image that this package has not saved: engines that hold nothing (log entry 3). -/
def SavedRest.blank : SavedRest :=
  { lid := 0, lcn := 0, m := Eng.idle, f := Eng.idle, s := Eng.idle, fidNext := 1, frameEng := 0, clo := 0, chi := 0
    remote := none, remoteAge := 0, parkAll := false, parkCtl := false, pc := 0, ir := 0, waiting := false, recs := [] }

/-- The task with the code region that holds its PC (R158, R313). -/
def State.withRegion (s : State) (t : Task) : Task :=
  let (lo, hi) := (s.regionOf t.part t.ctl.pc.toNat true).getD (0, 0)
  { t with ctl := { t.ctl with clo := lo, chi := hi } }

/-- The identity that the launch gives a task (R121, R302). -/
def State.identity (s : State) (l : Launch) (lcn : Nat) : Task :=
  { Task.blank with
    lid := l.lid, lcn, gsize := s.gangSize l.rec_.gshape, gcount := l.rec_.gcount, part := l.part
    queue := l.queue, argptr := l.rec_.w1, saveMask := l.rec_.savemask, wbSave := l.rec_.wbsave, timedLaunch := l.rec_.timed }

/-- The staged slot has been filled with `t`: the whole instruction cache of the core is invalid (R163, R302). -/
def State.stagedWith (s : State) (t : Task) : State :=
  { s with cur := { s.cur with staged := .staged, stagedTask := t, task := { s.cur.task with icache := [] } } }

/-- The bind record that fills the focused core's staged slot ends in error. -/
def State.bindError (s : State) : State :=
  (s.mapBinds (fun r => r.pcore == s.cur.pcore && r.started && r.status == 0 && (r.action == 1 || r.action == 2)
      && r.tag == s.cur.stagedTag) fun r => { r with status := 3 })

/-- The launch is refused while its image is being filled: STATUS 3 with the code that stopped the fill (R293, R301). -/
def State.refuseFill (s : State) (l : Launch) (fcode : Nat) : State :=
  let s := s.dropLaunch l.lid
  if l.st = .finished then s else s.finishLaunch l 3 fcode

/-- CONTEXT_FILL (R301, R302): the focused core's staged slot has been filled, or the launch is refused; the image is read with all
that loads have seen of it (R85). A task that was saved parked stays parked until it is continued, unless its image has been
edited (R297, R309; log entry 85). -/
def execContextFill (s : State) : Out :=
  if s.cur.staged ≠ .filling then .next s
  else
    match s.findLaunch s.cur.stagedTask.lid with
    | none => .next { s.bindError with cur := s.cur.unstage }
    | some l =>
      let t := s.identity l s.cur.stagedTask.lcn
      match s.beheld.readImage l.part l.queue s.cur.fillFrom s.cur.fillVirt with
      | .error c =>
        if s.cur.fillCtx then .next { s.bindError with cur := s.cur.unstage } else .next (s.refuseFill l c.num)
      | .ok img =>
        if s.cur.fillCtx then
          if img.header 2 then
            let r := ((s.saved.find? fun e => e.1 == s.cur.fillFrom).map (·.2)).getD SavedRest.blank
            let t := img.restore t l.rec_.phys r
            let t := { t with m := s.rearm t.m, f := s.rearm t.f, s := s.rearm t.s }
            let t := if r.parkAll || r.parkCtl then t else t.unpark
            let s := if r.waiting && !t.ctl.waiting then s.leaveWaits t.lid t.lcn else s
            .next { s.stagedWith (if t.ctl.pc = r.pc then t else s.withRegion t) with
              saved := s.saved.filter fun e => e.1 != s.cur.fillFrom }
          else .next { s.bindError with cur := s.cur.unstage }
        else if img.header 1 then
          match img.launch t l.rec_.phys with
          | some t => .next (s.stagedWith (s.withRegion t))
          | none => .next (s.refuseFill l 0)
        else .next (s.refuseFill l 0)

/-- The core still has to be swapped or released for this record. -/
def State.inGroup (s : State) (tag : Nat) (r : BindRec) : Bool :=
  r.tag == tag && (r.action == 1 || r.action == 2)
    && (r.status == 0 || (let c := s.coreAt r.pcore
                          !c.released && c.holdsTask r.lid r.lcn))

/-- The record's task stands in the staged slot, filled. -/
def State.stagedFor (s : State) (r : BindRec) : Bool :=
  let c := s.coreAt r.pcore
  r.started && c.staged == .staged && c.stagedTag == r.tag && c.stagedTask.lid == r.lid && c.stagedTask.lcn == r.lcn

/-- The record's task has swapped into the resident slot. -/
def State.swappedFor (s : State) (r : BindRec) : Bool := (s.coreAt r.pcore).holdsTask r.lid r.lcn

/-- Swap the staged task of a record's core into its EMPTY resident slot; it is not released yet (R297). -/
def State.swapIn (s : State) (r : BindRec) : State :=
  if s.stagedFor r && (s.coreAt r.pcore).slot == .empty then
    (s.mapBinds (fun x => x.tag == r.tag && x.lid == r.lid && x.lcn == r.lcn && x.status == 0
        && (x.action == 1 || x.action == 2)) fun x => { x with status := 1 }).onCore r.pcore fun s =>
      { s with cur := { s.cur.unstage with slot := .resident, task := s.cur.stagedTask, released := false } }
  else s

/-- Do something with the engines of the task whose context has been saved in `e`, as if it stood, its streams stopped, on a core of its
own. -/
def State.asSaved (s : State) (e : Nat × SavedRest) (f : State → State) : State :=
  let r := e.2
  let n := s.coresPerPkg
  let t : Task := { Task.blank with
    lid := r.lid, lcn := r.lcn, part := ((s.findLaunch r.lid).map (·.part)).getD 0, m := r.m, f := r.f, s := r.s, parkAll := true }
  let x := f { s with cur := { Core.blank n with slot := .saving, task := t }, rest := insertCore s.cur s.rest }
  let u := x.task
  let x := x.focus s.cur.pcore
  { x with
    rest := x.rest.filter fun c => c.pcore != n
    saved := x.saved.map fun y =>
      if y.1 = e.1 then (y.1, { r with m := u.m, f := u.f, s := u.s, parkAll := r.parkAll || u.parking }) else y }

/-- Remote accesses that saved tasks of a launch have left pending perform where their target is bound now (R75, R303). -/
def State.deliverHeld (s : State) (lid : Nat) : State :=
  (s.saved.filter fun e => e.2.lid == lid).foldl (fun s e =>
    s.asSaved e fun s => engines.foldl (fun s g =>
      let s := (s.eng g).reqs.foldl (fun s r => if s.reqReady g r then s.arrive g r else s) s
      ((s.eng g).flight.filter fun f => f.plainRemote).foldl (fun s f =>
        match execCommandLands g f.seq s with
        | .next s => s
        | _ => s) s) s) s

/-- GANG_SWAP (R297): when every record of the group is STAGED, each core swaps as soon as its resident slot is EMPTY, and
the last swap releases every task of the group. -/
def execGangSwap (tag : BitVec 16) (s : State) : Out :=
  let rs := s.binds.filter (s.inGroup tag.toNat)
  match rs with
  | [] => .next s
  | r0 :: _ =>
    if rs.length = r0.groupn && rs.any (·.commit) && rs.all fun r => s.stagedFor r || s.swappedFor r then
      let s := rs.foldl State.swapIn s
      if rs.all s.swappedFor then
        let s := rs.foldl (fun s r => s.onCore r.pcore fun s => { s with cur := { s.cur with released := true } }) s
        match s.findLaunch r0.lid with
        | some l =>
          .next ((s.mapGang r0.lid (s.gangOf l.rec_ r0.lcn) fun g => { g with st := .resident, since := s.now }).deliverHeld
            r0.lid)
        | none => .next s
      else .next s
    else .next s

/-- Every stream of the task has stopped at a boundary: issued commands have finished, and a timed frame that has started has
ended (R30, R31); what is held at a core whose task is not resident, or behind a stopped command, stays pending (R303). -/
def State.stoppedForSave (s : State) : Bool :=
  (engines.all fun e =>
    let g := s.eng e
    g.flight.all (fun f => !s.canFinish e f) && (!(g.timed && g.started) || g.quiet))
  && s.ctl.remote.all fun va => !s.reachable (farCore va)

/-- Every task of the focused core's gang that is being saved has stopped: they leave their slots as one gang (R297). -/
def State.gangStopped (s : State) : Bool :=
  let idx (t : Task) : Option Nat := (s.findLaunch t.lid).map fun l => s.gangOf l.rec_ t.lcn
  s.cores.all fun c => !(c.slot == .saving && c.task.lid == s.task.lid && idx c.task == idx s.task)
    || (s.focus c.pcore).stoppedForSave

/-- The part of held commands that is not held is performed (R303); one with a fold that is held, or that will stop it, lands whole
(R223). -/
def State.landReached (s : State) : State :=
  engines.foldl (fun s e => (s.eng e).flight.foldl (fun s f =>
    if ((s.eng e).foldLeft f.seq).isSome || s.foldBad e f then s else s.landPart e f.seq fun sp _ => match sp with | .far n => s.reachable n | _ => true) s) s

/-- CONTEXT_SAVED (R303): once the gang has stopped, the image is written, the slot is EMPTY, and STATUS 1 is the report of it. Bad
data in what the image takes is fatal (R314, log entry 77). -/
def execContextSaved (s : State) : Out :=
  if s.cur.slot ≠ .saving || !s.gangStopped then .next s
  else if s.task.imageBad then .next (s.fatal 1 0)
  else
    let s := s.landReached.uncover
    let t := s.task
    let addr := s.cur.saveTo
    let s := s.writeImage t addr
    let s := { s with
      saved := (addr, t.savedRest) :: s.saved.filter fun e => e.1 != addr
      cur := s.cur.vacate }
    let s := s.mapBinds (fun r => r.action == 3 && r.pcore == s.cur.pcore && r.lid == t.lid && r.lcn == t.lcn
        && r.started && r.status == 0) fun r => { r with status := 1 }
    .next (s.noteSaved t.lid t.lcn addr)

/-! ### Launch calls and dispatch (R292, R295) -/

/-- What the last launch call of a partition has returned. -/
def State.callReturns (s : State) (part lid : Nat) : State :=
  { s with parts := s.parts.map fun p => if p.id = part then { p with lastCall := lid } else p }

/-- HYPERVISOR_LAUNCH_CALL (R292): the checks of LAUNCH, then the queue of the record's priority; it returns the LAUNCHID, or 0
where nothing was accepted, also for a record that fails the checks, of which the spec says nothing (DESIGN CHOICE, log entry 111).
A host calls through the mailbox of the partition's virtual function (R320). A launch that arrives in S1 or S2 starts the exit
(R325). -/
def execHypervisorLaunchCall (die : Nat) (caller : Caller) (r : LaunchWords) (s : State) : Out :=
  let part := caller.part
  if s.dies ≤ die || !((s.partOf part).any fun p => p.running && (!caller.host || (p.vf && s.hostLink))) then .next s
  else if r.bad then .next (s.callReturns part 0)
  else
    let (lid, s) := s.submit die part r
    .next ((s.wakeFor part).callReturns part lid)

/-- The cores of unit `u` of a shape. -/
def State.unitCoresOf (s : State) (shape u : Nat) : List Nat :=
  (List.range (s.gangSize shape)).map (· + u * s.gangSize shape)

/-- The units of a shape that lie wholly in a partition. -/
def State.unitsOf (s : State) (p : Partition) (shape : Nat) : List Nat :=
  (List.range (s.coresPerPkg / s.gangSize shape)).filter fun u => (s.unitCoresOf shape u).all p.cores.contains

/-- The record does not fit this device and partition (R295). -/
def State.misfit (s : State) (part : Nat) (r : LaunchWords) : Bool :=
  0x40000 < r.regbytes || 0x200000 < r.scrbytes
    || [1, 2, 3, 4, 5].any (fun i => r.prof i != 0 && r.prof i != 1)
    || (match s.partOf part with | some p => (s.unitsOf p r.gshape).isEmpty | none => true)
    || 73728 < s.launchExtent r

/-- LAUNCH_DISPATCH (R295): the first record of a queue is refused with SHAPE or its gangs become ready. The first bind
follows the exit from a power state (R325). -/
def execLaunchDispatch (die prio : Nat) (s : State) : Out :=
  if s.power ≠ .s0 || s.exitAt.isSome then .next s
  else
    match s.launches.find? fun l => l.die == die && l.rec_.prio == prio && l.st == .queued with
    | none => .next s
    | some l =>
      if s.misfit l.part l.rec_ then .next (s.finishLaunch l 1 0)
      else
        .next { s.setLaunch { l with st := .active } with
          gangs := s.gangs ++ (List.range l.rec_.gcount).map fun i => ⟨l.lid, i, .ready, l.rec_.prio, s.now, false, []⟩ }

/-! ### The default policy (R298, R300) -/

/-- 2 ms in cycles of the 1.75 GHz clock. -/
def quantum : Nat := 3500000

/-- The launch that a gang belongs to. -/
def State.launchOf (s : State) (g : Gang) : Option Launch := s.findLaunch g.lid

/-- The gang waits to be resident. -/
def Gang.waiting (g : Gang) : Bool := g.st == .ready || g.st == .binding

/-- The default policy governs a partition: its system image has selected no other (R298). -/
def State.byDefault (s : State) (part : Nat) : Bool := (s.partOf part).any fun p => !p.ownPolicy

/-- Another gang of the partition waits at or above the level of resident gang `g` (R298). -/
def State.rival (s : State) (g : Gang) (l : Launch) : Bool :=
  s.gangs.any fun x => x.waiting && g.level ≤ x.level && (s.launchOf x).any fun m => m.part == l.part

/-- The PREEMPT records of the tasks of a gang, each with an image area of its own (log entry 3). -/
def State.preemptRecords (s : State) (l : Launch) (idx : Nat) : List BindRec :=
  let here := (s.living l idx).filterMap fun n => (s.cores.find? fun c => c.holdsTask l.lid n).map fun c => (n, c.pcore)
  (numbered 0 here).map fun q =>
    { die := dieOf q.2.2, action := 3, commit := q.1 + 1 == here.length, groupn := here.length, tag := s.nextTag % 65536
      pcore := q.2.2, lid := l.lid, status := 0, virt := false, gshape := l.rec_.gshape, lcn := q.2.1
      addr := s.ctxNext + 0x300000 * q.1, started := false }

/-- QUANTUM_EXPIRY (R298, R300): a resident gang whose quantum has ended is pre-empted if a rival is ready. -/
def execQuantumExpiry (lid gang : Nat) (s : State) : Out :=
  match s.gangs.find? (fun g => g.lid == lid && g.idx == gang), s.findLaunch lid with
  | some g, some l =>
    if g.st == .resident && decide (g.since + quantum - (if l.rec_.timed then 2 ^ 20 else 0) ≤ s.now) && s.rival g l
        && s.byDefault l.part then
      let rs := s.preemptRecords l gang
      .next ({ s with binds := s.binds ++ rs, nextTag := s.nextTag + 1
                      ctxNext := s.ctxNext + 0x300000 * rs.length }.mapGang lid gang fun g => { g with st := .saving })
    else .next s
  | _, _ => .next s

/-- AGING_PROMOTION (R298): a ready gang that has waited four quanta at its level goes one level up, to 3. -/
def execAgingPromotion (lid gang : Nat) (s : State) : Out :=
  .next (s.mapGang lid gang fun g =>
    if g.waiting && decide (g.level < 3) && decide (g.since + 4 * quantum ≤ s.now)
        && (s.launchOf g).any fun l => s.byDefault l.part then
      { g with level := g.level + 1, since := s.now }
    else g)

/-- A core whose staged slot can take a task, with no BIND or RESUME record on its way to it. -/
def State.stageable (s : State) (n : Nat) : Bool :=
  (s.coreAt n).staged == .empty
    && s.binds.all fun r => !(r.pcore == n && r.status == 0 && (r.action == 1 || r.action == 2))

/-- The units of cores on which the gangs of a launch can run, while the partition's cores are clocked (R325). -/
def State.unitsFor (s : State) (l : Launch) : List (List Nat) :=
  match s.partOf l.part with
  | none => []
  | some p => if p.power == .s0 then (s.unitsOf p l.rec_.gshape).map (s.unitCoresOf l.rec_.gshape) else []

/-- Where a gang fits beside the cores `kept` for gangs ahead of it: cores whose two slots are empty before cores that a task
still occupies (R298). -/
def State.fits (s : State) (l : Launch) (kept : List Nat) : Option (List Nat) :=
  let us := (s.unitsFor l).filter fun cs => cs.all fun n => s.stageable n && !kept.contains n
  match us.find? fun cs => cs.all fun n => (s.coreAt n).slot == .empty with
  | some cs => some cs
  | none => us.head?

/-- The cores that are kept for a gang that does not fit yet: the unit with the fewest staged slots in use (log entry 38). -/
def State.keptFor (s : State) (l : Launch) : List Nat :=
  let used (cs : List Nat) : Nat := (cs.filter fun n => !s.stageable n).length
  (s.unitsFor l).foldl (fun best cs => if best.isEmpty || used cs < used best then cs else best) []

/-- The bind records that make a gang resident on cores `cs` (R294): launch images by virtual address, saved tasks from
their context images. -/
def State.bindRecords (s : State) (l : Launch) (g : Gang) (cs : List Nat) : List BindRec :=
  let size := s.gangSize l.rec_.gshape
  let live := s.living l g.idx
  (numbered 0 live).map fun q =>
    let core := cs.getD (q.2 % size) 0
    { die := dieOf core, action := if g.saved then 2 else 1, commit := q.1 + 1 == live.length, groupn := live.length
      tag := s.nextTag % 65536, pcore := core, lid := l.lid, status := 0, virt := !g.saved, gshape := l.rec_.gshape
      lcn := q.2, addr := if g.saved then ((g.images.find? fun i => i.1 == q.2).map (·.2)).getD 0 else l.rec_.w0.toNat
      started := false }

/-- The first of some gangs in order that fits and is not below level `least`. A gang that does not fit keeps a unit from those
behind it, and holds back the later ones of its own queue and level; one that fits but for that shuts out the levels below
its own (R292, R298). -/
def State.pickFrom (s : State) : Nat → List Nat → List (Nat × Nat) → List Gang → Option (Gang × Launch × List Nat)
  | _, _, _, [] => none
  | least, kept, back, g :: t =>
    match s.launchOf g with
    | none => s.pickFrom least kept back t
    | some l =>
      if !s.byDefault l.part || g.level < least then s.pickFrom least kept back t
      else
        let least := if (s.fits l []).isSome then g.level else least
        match s.fits l kept, back.contains (l.queue, g.level) with
        | some cs, false => some (g, l, cs)
        | _, true => s.pickFrom least kept back t
        | none, false => s.pickFrom least (kept ++ s.keptFor l) ((l.queue, g.level) :: back) t

/-- The gang to bind next: the ready ones, highest level first and in order within a level (R298). -/
def State.pickGang (s : State) : Option (Gang × Launch × List Nat) :=
  s.pickFrom 0 [] [] ([3, 2, 1, 0].flatMap fun lv => s.gangs.filter fun g => g.st == .ready && min g.level 3 == lv)

/-- The firmware binds the gang that the policy picks: it writes its records into the rings (R294, R298). -/
def State.schedule (s : State) : State :=
  if s.power ≠ .s0 || s.exitAt.isSome then s
  else
    match s.pickGang with
    | none => s
    | some (g, l, cs) =>
      { s with binds := s.binds ++ s.bindRecords l g cs, nextTag := s.nextTag + 1 }.mapGang g.lid g.idx
        fun g => { g with st := .binding }

end Sys2Proof.Machine
end

