-- ==== Sys2Proof/Machine/Integer.lean ====
section
/-! DEFINITION. The integer, bit-field, compare, predicate and FP32 instructions of the control core (R135 to R150).
Each meaning reads its sources before it writes (R135), writes no flag and raises no arithmetic fault. -/

namespace Sys2Proof.Machine

/-- ADD (R136). -/
def execAdd (q : Qual) (d a b : BitVec 5) (s : State) : Out := s.writeG q d (s.getG a + s.getG b)

/-- SUB (R136). -/
def execSub (q : Qual) (d a b : BitVec 5) (s : State) : Out := s.writeG q d (s.getG a - s.getG b)

/-- AND (R136). -/
def execAnd (q : Qual) (d a b : BitVec 5) (s : State) : Out := s.writeG q d (s.getG a &&& s.getG b)

/-- OR (R136). -/
def execOr (q : Qual) (d a b : BitVec 5) (s : State) : Out := s.writeG q d (s.getG a ||| s.getG b)

/-- XOR (R136). -/
def execXor (q : Qual) (d a b : BitVec 5) (s : State) : Out := s.writeG q d (s.getG a ^^^ s.getG b)

/-- ANDN (R136). -/
def execAndn (q : Qual) (d a b : BitVec 5) (s : State) : Out := s.writeG q d (s.getG a &&& ~~~s.getG b)

/-- SHL (R136): bits [63:6] of the amount are ignored. -/
def execShl (q : Qual) (d a b : BitVec 5) (s : State) : Out := s.writeG q d (s.getG a <<< ((s.getG b).toNat % 64))

/-- SHR (R136). -/
def execShr (q : Qual) (d a b : BitVec 5) (s : State) : Out := s.writeG q d (s.getG a >>> ((s.getG b).toNat % 64))

/-- SAR (R136). -/
def execSar (q : Qual) (d a b : BitVec 5) (s : State) : Out :=
  s.writeG q d ((s.getG a).sshiftRight ((s.getG b).toNat % 64))

/-- MIN (R136). -/
def execMin (q : Qual) (uns : Bool) (d a b : BitVec 5) (s : State) : Out :=
  s.writeG q d (minW uns (s.getG a) (s.getG b))

/-- MAX (R136). -/
def execMax (q : Qual) (uns : Bool) (d a b : BitVec 5) (s : State) : Out :=
  s.writeG q d (maxW uns (s.getG a) (s.getG b))

/-- MUL (R136). -/
def execMul (q : Qual) (d a b : BitVec 5) (s : State) : Out := s.writeG q d (s.getG a * s.getG b)

/-- MULH (R136). -/
def execMulh (q : Qual) (uns : Bool) (d a b : BitVec 5) (s : State) : Out :=
  s.writeG q d (mulhW uns (s.getG a) (s.getG b))

/-- DIV (R136, R137). -/
def execDiv (q : Qual) (uns : Bool) (d a b : BitVec 5) (s : State) : Out :=
  s.writeG q d (divW uns (s.getG a) (s.getG b))

/-- REM (R136, R137). -/
def execRem (q : Qual) (uns : Bool) (d a b : BitVec 5) (s : State) : Out :=
  s.writeG q d (remW uns (s.getG a) (s.getG b))

/-- CSEL (R141): x if P[p] XOR pn = 1, else y. -/
def execCsel (q : Qual) (d a b : BitVec 5) (p : BitVec 3) (pn : Bool) (s : State) : Out :=
  s.writeG q d (if s.getP p != pn then s.getG a else s.getG b)

/-- ADDI (R138). -/
def execAddi (q : Qual) (d a : BitVec 5) (imm : BitVec 32) (s : State) : Out :=
  s.writeG q d (s.getG a + imm.signExtend 64)

/-- ANDI (R138). -/
def execAndi (q : Qual) (d a : BitVec 5) (imm : BitVec 32) (s : State) : Out :=
  s.writeG q d (s.getG a &&& imm.signExtend 64)

/-- ORI (R138). -/
def execOri (q : Qual) (d a : BitVec 5) (imm : BitVec 32) (s : State) : Out :=
  s.writeG q d (s.getG a ||| imm.signExtend 64)

/-- XORI (R138). -/
def execXori (q : Qual) (d a : BitVec 5) (imm : BitVec 32) (s : State) : Out :=
  s.writeG q d (s.getG a ^^^ imm.signExtend 64)

/-- SHLI (R138). -/
def execShli (q : Qual) (d a : BitVec 5) (sh : BitVec 6) (s : State) : Out :=
  s.writeG q d (s.getG a <<< sh.toNat)

/-- SHRI (R138). -/
def execShri (q : Qual) (d a : BitVec 5) (sh : BitVec 6) (s : State) : Out :=
  s.writeG q d (s.getG a >>> sh.toNat)

/-- SARI (R138). -/
def execSari (q : Qual) (d a : BitVec 5) (sh : BitVec 6) (s : State) : Out :=
  s.writeG q d ((s.getG a).sshiftRight sh.toNat)

/-- LIMM (R139). -/
def execLimm (q : Qual) (d : BitVec 5) (imm : BitVec 32) (s : State) : Out := s.writeG q d (imm.signExtend 64)

/-- LIMMH (R139): reads G[D] as its source. -/
def execLimmh (q : Qual) (d : BitVec 5) (imm : BitVec 32) (s : State) : Out :=
  s.writeG q d ((imm.zeroExtend 64 <<< 32) ||| ((s.getG d).truncate 32).zeroExtend 64)

/-- BFX (R140). -/
def execBfx (q : Qual) (d a : BitVec 5) (pos lenm1 : BitVec 6) (sx : Bool) (s : State) : Out :=
  s.writeG q d (bfxW (s.getG a) pos.toNat (lenm1.toNat + 1) sx)

/-- BFI (R140): reads G[D] as a source. -/
def execBfi (q : Qual) (d a : BitVec 5) (pos lenm1 : BitVec 6) (s : State) : Out :=
  s.writeG q d (bfiW (s.getG d) (s.getG a) pos.toNat (lenm1.toNat + 1))

/-- REV (R141). -/
def execRev (q : Qual) (d a : BitVec 5) (bytes : Bool) (s : State) : Out := s.writeG q d (revW bytes (s.getG a))

/-- CLZ (R141). -/
def execClz (q : Qual) (d a : BitVec 5) (s : State) : Out := s.writeG q d (BitVec.ofNat 64 (clzW (s.getG a)))

/-- CTZ (R141). -/
def execCtz (q : Qual) (d a : BitVec 5) (s : State) : Out :=
  s.writeG q d (BitVec.ofNat 64 (ctzNat 64 (s.getG a).toNat))

/-- POPC (R141). -/
def execPopc (q : Qual) (d a : BitVec 5) (s : State) : Out :=
  s.writeG q d (BitVec.ofNat 64 (popNat 64 (s.getG a).toNat))

/-- CLMUL (R141). -/
def execClmul (q : Qual) (hi : Bool) (d a b : BitVec 5) (s : State) : Out :=
  s.writeG q d (clmulW hi (s.getG a) (s.getG b))

/-- The second operand of CMP (R142). -/
def State.cmpRhs (s : State) : CmpRhs → Word
  | .reg b => s.getG b
  | .imm v => v.signExtend 64

/-- CMP (R142): no qualifying predicate. -/
def execCmp (pd pc : BitVec 3) (a : BitVec 5) (rhs : CmpRhs) (cond : BitVec 4) (s : State) : Out :=
  (s.writeCond pd pc (intCond cond (s.getG a) (s.cmpRhs rhs))).retire

/-- The second operand of FCMP: register bits [31:0], or the immediate as FP32 bits (R143). -/
def State.fcmpRhs (s : State) : CmpRhs → Nat
  | .reg b => (s.getG b).toNat
  | .imm v => v.toNat

/-- FCMP (R143). -/
def execFcmp (pd pc : BitVec 3) (a : BitVec 5) (rhs : CmpRhs) (cond : BitVec 4) (s : State) : Out :=
  (s.writeCond pd pc (fpCond cond.toNat (f32 (s.getG a).toNat) (f32 (s.fcmpRhs rhs)))).retire

/-- PLOG (R144). -/
def execPlog (q : Qual) (pd pa pb : BitVec 3) (tt : BitVec 4) (s : State) : Out :=
  s.qualified q fun s => (s.setP pd (tt.getLsbD (2 * b2n (s.getP pa) + b2n (s.getP pb)))).retire

/-- PSAVE (R145). -/
def execPsave (q : Qual) (d : BitVec 5) (s : State) : Out := s.writeG q d (BitVec.ofNat 64 s.ctl.psave)

/-- PLOAD (R146). -/
def execPload (q : Qual) (a : BitVec 5) (pmask : BitVec 8) (s : State) : Out :=
  s.qualified q fun s => (s.withCtl (s.ctl.pload pmask ((s.getG a).truncate 8))).retire

/-- FADD (R148). -/
def execFadd (q : Qual) (d a b : BitVec 5) (s : State) : Out :=
  s.writeG q d (BitVec.ofNat 64 (faddN (s.getG a).toNat (s.getG b).toNat))

/-- FSUB (R148). -/
def execFsub (q : Qual) (d a b : BitVec 5) (s : State) : Out :=
  s.writeG q d (BitVec.ofNat 64 (fsubN (s.getG a).toNat (s.getG b).toNat))

/-- FMUL (R148). -/
def execFmul (q : Qual) (d a b : BitVec 5) (s : State) : Out :=
  s.writeG q d (BitVec.ofNat 64 (fmulN (s.getG a).toNat (s.getG b).toNat))

/-- FFMA (R148): d is the old G[D]. -/
def execFfma (q : Qual) (d a b : BitVec 5) (s : State) : Out :=
  s.writeG q d (BitVec.ofNat 64 (ffmaN (s.getG a).toNat (s.getG b).toNat (s.getG d).toNat))

/-- FMIN (R149). -/
def execFmin (q : Qual) (d a b : BitVec 5) (s : State) : Out :=
  s.writeG q d (BitVec.ofNat 64 (fminN (s.getG a).toNat (s.getG b).toNat))

/-- FMAX (R149). -/
def execFmax (q : Qual) (d a b : BitVec 5) (s : State) : Out :=
  s.writeG q d (BitVec.ofNat 64 (fmaxN (s.getG a).toNat (s.getG b).toNat))

/-- FCVT (R150). -/
def execFcvt (q : Qual) (d a : BitVec 5) (fn : BitVec 2) (s : State) : Out := s.writeG q d (fcvtW fn (s.getG a))

end Sys2Proof.Machine
end

