-- ==== Sys2Proof/Machine/Package.lean ====
section
/-! DEFINITION. The package: attestation (R323), fatal errors and the dump (R314), the Wenide links (R317) and the
scale-out ports (R321), the loader (R108 to R116, R179, R180), and words whose opcode is not listed (R134, R196, R256,
R285). -/

namespace Sys2Proof.Machine

/-! ### Attestation (R323) -/

/-- ATTESTATION_REQUEST (R323): measurements and a nonce of up to 64 bytes; the signatures are free (log entry 5). -/
def execAttestationRequest (part : Nat) (nonce : List Byte) (s : State) : Out :=
  match s.partOf part with
  | none => .next s
  | some p =>
    if s.boot ≠ .running || 64 < nonce.length then .next s
    else
      .next { s with
        reports := s.reports ++ [⟨part, s.fw.measure, s.descriptor, p.image.measure, nonce, Config.freeWord s.fresh,
          Config.freeWord (s.fresh + 1)⟩]
        fresh := s.fresh + 2 }

/-! ### Fatal errors (R314) -/

/-- FATAL_ERROR (R314), of one of the four causes. -/
def execFatalError (cause : BitVec 8) (addr : Word) (s : State) : Out :=
  if 1 ≤ cause.toNat && cause.toNat ≤ 4 then .next (s.fatal cause addr) else .next s

/-- WATCHDOG_TIMEOUT (R314): cause 2. -/
def execWatchdogTimeout (die : Nat) (s : State) : Out :=
  if die < s.dies then .next (s.fatal 2 0) else .next s

/-! ### Links and ports (R315, R317, R321) -/

/-- Wenide lanes of the package (R4, R315). -/
def State.lanes (s : State) : Nat := 18 * s.dies

/-- FLIT_REPLAY (R317): a flit is sent again until it is received intact; nothing that a program sees changes. -/
def execFlitReplay (lane : Nat) (s : State) : Out :=
  if lane < s.lanes && !s.lanesDown.contains lane then .next { s with replays := s.replays + 1 } else .next s

/-- LANE_FAILURE (R317): the lane is removed; the loss of the last lane of a die is fatal (R314, log entry 32). -/
def execLaneFailure (lane : Nat) (s : State) : Out :=
  if s.lanes ≤ lane || s.lanesDown.contains lane then .next s
  else
    let s := { s with lanesDown := s.lanesDown ++ [lane] }
    if (List.range 18).all (fun k => s.lanesDown.contains (lane / 18 * 18 + k)) then .next (s.fatal 3 0) else .next s

/-- The priorities that a flow-control frame pauses: those with a pause time (IEEE 802.1Qbb, log entry 33). -/
def pauseMask (data : List Byte) : BitVec 8 :=
  BitVec.ofNat 8 ((List.range 8).foldl (fun m k => if data.getD k 0 = 0 then m else m + 2 ^ k) 0)

/-- Bytes of one slot of a ring: the frame's length in 8 bytes, then the frame (log entry 33). -/
def ringSlot : Nat := 0x2800

/-- The scale-out ports: two per die of a D4, each of which may be split into two, the second numbered after them all (R321; log
entry 33). -/
def State.portUsable (s : State) (port : Nat) : Bool :=
  s.d4 && (decide (port < 2 * s.dies) || (decide (port < 4 * s.dies) && s.splitPorts.contains (port - 2 * s.dies)))

/-- `n` bytes of a partition's virtual memory in a page of property NMC, by physical address (R73, R321). -/
def State.nmcBytes (s : State) (part va n : Nat) : Option (List Nat) :=
  (List.range n).mapM fun k =>
    match s.partOf part, locate (va + k) with
    | some p, .virt =>
      match s.walkIn p p.root (va + k) with
      | .ok l => if l.prop = 1 then some (l.pa + (va + k) % 2 ^ l.log2) else none
      | .error _ => none
    | _, _ => none

/-- A partition's network stack sets up the rings of a port, in NMC pages of its own, in place of earlier ones (R321). -/
def State.setRing (s : State) (r : PortRing) : State :=
  if s.portUsable r.port && decide (0 < r.slots) && (s.nmcBytes r.part r.rx (ringSlot * r.slots)).isSome
      && (s.nmcBytes r.part r.tx (ringSlot * r.slots)).isSome then
    { s with rings := { r with rxAt := 0, txAt := 0, paused := 0, sent := [] } :: s.rings.filter fun x => x.port != r.port }
  else s

/-- A port is split into two of half its rate (R321). -/
def State.splitPort (s : State) (port : Nat) : State :=
  if s.d4 && decide (port < 2 * s.dies) && !s.splitPorts.contains port then { s with splitPorts := port :: s.splitPorts } else s

/-- Replace the rings of a port. -/
def State.putRing (s : State) (r : PortRing) : State :=
  { s with rings := s.rings.map fun x => if x.port = r.port then r else x }

/-- The port sends `n` bytes, the frame in the next slot of its transmit ring, at priority `prio`, unless flow control has paused
that priority (R321). -/
def State.sendFrame (s : State) (port prio n : Nat) : State :=
  match s.rings.find? fun r => r.port == port with
  | none => s
  | some r =>
    if r.paused.getLsbD prio || 8 ≤ prio || 9216 < n then s
    else
      match s.nmcBytes r.part (r.tx + ringSlot * r.txAt + 8) n with
      | none => s
      | some pas => s.putRing { r with txAt := (r.txAt + 1) % r.slots, sent := r.sent ++ [pas.map (s.rdByte .mem)] }

/-- A received frame is stored in the next slot of the port's receive ring, its length before it. -/
def State.storeFrame (s : State) (r : PortRing) (data : List Byte) : State :=
  let bs := leBytes 8 data.length ++ data
  match s.nmcBytes r.part (r.rx + ringSlot * r.rxAt) bs.length with
  | none => s
  | some pas => (s.wrBytes ((pas.zip bs).map fun x => ⟨.mem, x.1, 0xFF, x.2⟩)).putRing { r with rxAt := (r.rxAt + 1) % r.slots }

/-- SCALE_OUT_FRAME_RECEIVE (R321): a frame of up to 9,216 bytes goes to the receive ring of its port; a flow-control frame pauses
priorities. -/
def execScaleOutFrameReceive (port : Nat) (pause : Bool) (data : List Byte) (s : State) : Out :=
  match s.rings.find? fun r => r.port == port with
  | none => .next s
  | some r =>
    if !s.portUsable port || 9216 < data.length then .next s
    else .next (if pause then s.putRing { r with paused := pauseMask data } else s.storeFrame r data)

/-! ### The loader (R114 to R116, R179, R180, R321) -/

/-- How a load ends: loaded, loaded with WEAK-SHADOWED, refused with LOAD-CONFLICT, or refused by profile or port. -/
inductive LoadEnd where
  | ok | shadowed | conflict | refused
  deriving DecidableEq, Repr

/-- The numbers by which a partition's `lastLoad` keeps how its last load ended. -/
def LoadEnd.num : LoadEnd → Nat
  | .ok => 0 | .shadowed => 1 | .conflict => 2 | .refused => 3

/-- The profile note is refused: core1 is missing, an id is unknown, or a major version is not the reported one (R114). -/
def profileRefused (o : CodeObject) : Bool :=
  !(o.profiles.any fun p => p.1 == 1) || o.profiles.any fun p => p.1 < 1 || 5 < p.1 || p.2.1 != 1

/-- A name has a definition of this kind among the loaded objects. -/
def Partition.defines (p : Partition) (strong : Bool) (name : Nat) : Bool :=
  p.objects.any fun o => (if strong then o.strong else o.weak).any fun x => x.name == name

/-- The definition that serves a name: the strong one, or the first weak one (R116). -/
def servedBy (os : List CodeObject) (name : Nat) : Option Nat :=
  match os.findSome? fun o => (o.strong.find? fun x => x.name == name).map (·.addr) with
  | some a => some a
  | none => os.findSome? fun o => (o.weak.find? fun x => x.name == name).map (·.addr)

/-- How the load of an object ends (R114, R116, R321); the refusal of a profile comes before a conflict (log entry 42). -/
def State.loadEnd (s : State) (p : Partition) (o : CodeObject) : LoadEnd :=
  if profileRefused o || (o.scaleOut && !s.d4) then .refused
  else if o.strong.any (fun x => p.defines true x.name) then .conflict
  else if o.strong.any (fun x => p.defines false x.name) then .shadowed
  else .ok

/-- The loader's store of bytes at a virtual address of the partition; it passes over pages without W (R179), and over bytes that
no page of the partition maps (log entry 42). -/
def State.loaderPut (s : State) (part va : Nat) (bs : List Byte) : State :=
  (numbered va bs).foldl (fun s b =>
    match s.translateIn part none b.1 .loader with
    | .ok pa => s.wrBytes [⟨.mem, pa, 0xFF, b.2⟩]
    | .error _ => s) s

/-- The loader's store of an 8-byte word. -/
def State.loaderWord (s : State) (part va v : Nat) : State := s.loaderPut part va (leBytes 8 v)

/-- Write the directory records of `links`, from record `k` on, with the targets that serve now (R179, R180). -/
def State.putRecords (s : State) (part dir : Nat) (os : List CodeObject) (k : Nat) (links : List Symbol) : State :=
  (numbered k links).foldl (fun (s : State) q =>
    let at_ := dir + 16 + 16 * q.1
    (s.loaderWord part at_ q.2.addr).loaderWord part (at_ + 8) ((servedBy os q.2.name).getD 0)) s

/-- A definition of the object serves entries under R116, those that are yet to be loaded too (R180; log entry 83): among the
objects `os`, which hold it, the definition is not ignored. -/
def servesEntry (o : CodeObject) (os : List CodeObject) : Bool :=
  (o.strong ++ o.weak).any fun x => servedBy os x.name == some x.addr

/-- Write again the TARGET of every earlier record whose name the new object serves (R180; log entry 98). -/
def State.putTargets (s : State) (part dir : Nat) (os : List CodeObject) (o : CodeObject) (links : List Symbol) : State :=
  (numbered 0 links).foldl (fun (s : State) q =>
    if (o.strong ++ o.weak).any fun x => x.name == q.2.name then
      s.loaderWord part (dir + 16 + 16 * q.1 + 8) ((servedBy os q.2.name).getD 0)
    else s) s

/-- CODE_OBJECT_LOAD (R116, R180): the object's bytes, its entries with the stub's address, its records, COUNT; then, where its
definitions serve entries, the invalidation and the TARGETs. -/
def execCodeObjectLoad (part : Nat) (o : CodeObject) (s : State) : Out :=
  match s.partOf part with
  | none => .next s
  | some p =>
    let e := s.loadEnd p o
    let note (q : Partition) : Partition := if q.id = part then { q with lastLoad := e.num } else q
    if e = .refused || e = .conflict then .next { s with parts := s.parts.map note }
    else
      let os := p.objects ++ [o]
      let s := o.image.foldl (fun (s : State) b => s.loaderPut part b.1 b.2) s
      let s := o.links.foldl (fun (s : State) l => s.loaderWord part l.addr p.stub) s
      let s := s.putRecords part p.directory os p.dirCount o.links
      let s := if o.links.isEmpty then s else s.loaderWord part p.directory (p.dirCount + o.links.length)
      let s := if servesEntry o os then (s.invalidatePart part).putTargets part p.directory os o (p.objects.flatMap (·.links)) else s
      .next { s with
        parts := s.parts.map fun q =>
          if q.id = part then { q with objects := os, dirCount := p.dirCount + o.links.length, lastLoad := e.num }
          else q }

/-! ### Words whose opcode is not listed -/

/-- OPCODE_NOT_LISTED (R134): 0x80 to 0xBF raise UNIMPL, every other ILLEGAL, whatever the predicate (R127). -/
def execOpcodeNotListed (w : Word) (s : State) : Out :=
  let op := fld w.toNat 56 8
  s.fail { code := if 0x80 ≤ op && op ≤ 0xBF then .unimpl else .illegal }

/-- ENGINE_OPCODE_NOT_LISTED (R196, R256, R285): 0x40 to 0x5F raise UNIMPL, every other ILLEGAL, at issue. -/
def execEngineOpcodeNotListed (e : EngId) (w : Word) (s : State) : Out :=
  s.failFirst e .none (if 0x40 ≤ opOf w && opOf w ≤ 0x5F then .unimpl else .illegal)

end Sys2Proof.Machine
end

