-- ==== Sys2Proof/Machine/Transfer.lean ====
section
/-! DEFINITION. Branch-target registers and transfers of control (R158 to R162), and the completion of a prefetch. -/

namespace Sys2Proof.Machine

/-- Prepare J register `j` for a target: FETCHING, the old fetch discarded (R158, R159). -/
def State.prepare (s : State) (j : BitVec 3) (taddr : Word) : State := s.setJ j ⟨taddr &&& ~~~7#64, .fetching, []⟩

/-- PREP (R159): its predicate is P with PN. -/
def execPrep (j p : BitVec 3) (pn : Bool) (off : BitVec 48) (s : State) : Out :=
  s.qualified ⟨p, pn⟩ fun s => (s.prepare j (s.ctl.pc + (off.signExtend 64 <<< 3))).retire

/-- PREPR (R159). -/
def execPrepr (q : Qual) (j : BitVec 3) (a : BitVec 5) (s : State) : Out :=
  s.qualified q fun s => (s.prepare j (s.getG a)).retire

/-- The fetch of a transfer through J register `j` (R158, R160): READY needs none; FETCHING and STALE fetch now, and a
fetch that faults leaves STALE behind. The buffer's words are the answer. -/
def State.transferFetch (s : State) (j : BitVec 3) : Except Trap (List (Nat × Word)) × State :=
  let r := s.ctl.getJ j
  match r.st with
  | .empty => (.error { code := .unprepared, addr := some r.taddr.toNat }, s)
  | .ready => (.ok r.buf, s)
  | _ =>
    match s.prefetch r.taddr.toNat with
    | (.error tr, s) =>
      (.error { code := tr.code, addr := some r.taddr.toNat }, s.setJ j { r with st := .stale, buf := [] })
    | (.ok ws, s) => (.ok ws, s.setJ j { r with st := .ready, buf := ws })

/-- XFER (R160). -/
def execXfer (j p : BitVec 3) (pn : Bool) (s : State) : Out :=
  s.qualified ⟨p, pn⟩ fun s =>
    let t := (s.ctl.getJ j).taddr
    match s.transferFetch j with
    | (.error tr, s) => s.fail tr
    | (.ok ws, s) => (s.enter t.toNat ws).retireTo (t &&& ~~~7#64)

/-- The shadow push of XCALL at SSP − 8 (R160): SHADOW-LIMIT below LO, then R81; the physical address it writes. -/
def State.shadowPush (s : State) : Except Trap Nat × State :=
  if s.ctl.ssp.toNat < s.ctl.shadowLo + 8 then (.error { code := .shadowLimit }, s)
  else s.shadowTarget (s.ctl.ssp.toNat - 8) .push

/-- XCALL (R160): its push comes after what loads have seen there (R88, R89). On a fault only the STALE state of a failed fetch is left
behind; a shadow push that faults leaves the J register as it was. -/
def execXcall (j p : BitVec 3) (pn : Bool) (s : State) : Out :=
  s.qualified ⟨p, pn⟩ fun s =>
    let r := s.ctl.getJ j
    let t := r.taddr
    match s.transferFetch j with
    | (.error tr, s) => s.fail tr
    | (.ok ws, s) =>
      match s.shadowPush with
      | (.error tr, s) => (s.setJ j r).fail { tr with addr := some t.toNat }
      | (.ok pa, s) =>
        let link := s.ctl.pc + 8
        let s := (s.behindSeen .mem pa 8).wrNat .mem pa 8 link.toNat
        let s := (s.withCtl { s.ctl with ssp := s.ctl.ssp - 8 }).setG 31 link
        (s.enter t.toNat ws).retireTo (t &&& ~~~7#64)

/-- RET (R161): SHADOW-LIMIT, the shadow read, which finds what a load would find (R89), INTEGRITY, the fetch at G31; every fault leaves
SSP, G31 and PC. The records of SHADOW-LIMIT and INTEGRITY carry no address (log entry 10). -/
def execRet (q : Qual) (s : State) : Out :=
  s.qualified q fun s =>
    if s.ctl.shadowHi < s.ctl.ssp.toNat + 8 then s.fail { code := .shadowLimit }
    else
      match s.shadowTarget s.ctl.ssp.toNat .pop with
      | (.error tr, s) => s.fail tr
      | (.ok pa, s) =>
        let link := s.getG 31
        match s.readBad s.ctl.ssp.toNat .mem pa 8 with
        | some tr => s.fail tr
        | none =>
        let (top, s) := s.loaded .mem pa 8
        if top ≠ link.toNat then s.fail { code := .integrity }
        else
          match s.prefetch link.toNat with
          | (.error tr, s) => s.fail { code := tr.code, addr := some link.toNat }
          | (.ok ws, s) =>
            ((s.withCtl { s.ctl with ssp := s.ctl.ssp + 8 }).enter link.toNat ws).retireTo (link &&& ~~~7#64)

/-- JGET (R162). -/
def execJget (q : Qual) (d : BitVec 5) (j : BitVec 3) (s : State) : Out :=
  s.writeG q d (((s.ctl.getJ j).taddr &&& ~~~7#64) ||| BitVec.ofNat 64 (s.ctl.getJ j).st.num)

/-- JCLR (R162): any fetch is discarded, TADDR is kept. -/
def execJclr (q : Qual) (j : BitVec 3) (s : State) : Out :=
  s.qualified q fun s => (s.setJ j ⟨(s.ctl.getJ j).taddr, .empty, []⟩).retire

/-- PREFETCH_COMPLETE (R158): FETCHING becomes READY, or STALE where the fetch would fault, with nothing raised. -/
def execPrefetchComplete (j : BitVec 3) (s : State) : Out :=
  let r := s.ctl.getJ j
  if r.st = .fetching then
    match s.prefetch r.taddr.toNat with
    | (.error _, s) => .next (s.setJ j { r with st := .stale, buf := [] })
    | (.ok ws, s) => .next (s.setJ j { r with st := .ready, buf := ws })
  else .next s

end Sys2Proof.Machine
end

