-- ==== Sys2Proof/Machine/TaskControl.lean ====
section
/-! DEFINITION. Fault records on their way to the partition (R305, R307), and the hypervisor's task control: continuing a
parked task, editing it in place (R309, R310), and the shoot-down of translations (R83). -/

namespace Sys2Proof.Machine

/-! ### Delivery (R307) -/

/-- The words of a record that are written before its LID. -/
def FaultRec.early (r : FaultRec) : List (Nat × Word) :=
  [(0, r.w0), (16, r.w2), (24, r.w3), (32, r.w4), (40, r.w5), (48, r.w6), (56, r.w7)]

/-- Where the next record of a partition goes. -/
def Partition.slotAt (p : Partition) : Nat := p.ring + 64 * p.ringAt

/-- Remove the first record of a partition. -/
def dropFault (part : Nat) : List FaultRec → List FaultRec
  | [] => []
  | r :: t => if r.part = part then t else r :: dropFault part t

/-- FAULT_RECORD_DELIVERY (R307): the oldest record of the partition is written into its ring, LID last, once a slot is
free. -/
def execFaultRecordDelivery (part : Nat) (s : State) : Out :=
  match s.partOf part, s.faults.find? fun r => r.part == part with
  | some p, some r =>
    if p.ringSlots = 0 || s.rdNat .mem (p.slotAt + 8) 8 ≠ 0 then .next s
    else
      let s := r.early.foldl (fun (s : State) w => s.wrNat .mem (p.slotAt + w.1) 8 w.2.toNat) s
      let s := s.wrNat .mem (p.slotAt + 8) 8 r.lid
      .next { s with
        faults := dropFault part s.faults
        parts := s.parts.map fun q => if q.id = part then { q with ringAt := (q.ringAt + 1) % q.ringSlots } else q }
  | _, _ => .next s

/-! ### The mailbox of a virtual function (R320) -/

/-- The host reaches the mailbox of a partition's virtual function: the partition runs and has one, and the link is trained. -/
def State.mailbox (s : State) (part : Nat) : Option Partition :=
  (s.partOf part).filter fun p => p.running && p.vf && s.hostLink

/-- The slot of a partition's ring that holds its oldest delivered record, if one holds a record: slots are written in the order of the
ring, the next one at `ringAt` (R307). -/
def State.oldestSlot (s : State) (p : Partition) : Option Nat :=
  ((List.range p.ringSlots).map fun k => p.ring + 64 * ((p.ringAt + k) % p.ringSlots)).find? fun a => s.rdNat .mem (a + 8) 8 != 0

/-- A host reads the oldest record of a partition's fault queue through the mailbox: its eight words, or none where the queue is empty
(R306, R307, R320; log entry 122). -/
def State.mailRead (s : State) (part : Nat) : State :=
  match s.mailbox part with
  | none => s
  | some p =>
    let v := s.beheld
    let ws := (v.oldestSlot p).elim [] fun a => (List.range 8).map fun k => BitVec.ofNat 64 (v.rdNat .mem (a + 8 * k) 8)
    { s with parts := s.parts.map fun q => if q.id = part then { q with mail := ws } else q }

/-- A host frees the slot of that record through the mailbox: it stores 0 into its LID (R307, R320; log entry 122). -/
def State.mailFree (s : State) (part : Nat) : State :=
  match (s.mailbox part).bind s.oldestSlot with
  | none => s
  | some a => s.wrNat .mem (a + 8) 8 0

/-! ### Continuing (R309) -/

/-- The focused task's park latch is released and every stream goes on from its stop point; not while a record of it is
undelivered (R305). -/
def State.continueTask (s : State) : State :=
  if s.undelivered s.task.lid s.task.lcn then s
  else engines.foldl State.continueEng (s.withTask s.task.unpark)

/-- A task of the gang whose park latch may be released: no record of it is undelivered (R305). -/
def State.releasable (s : State) (lid idx lid' lcn : Nat) : Bool :=
  lid' == lid && (s.findLaunch lid).any (fun l => (s.gangCores l idx).contains lcn) && !s.undelivered lid' lcn

/-- The park latches of the saved tasks of a gang are released: they go on once they are resident again (R297, R309). -/
def State.releaseSaved (s : State) (lid idx : Nat) : State :=
  { s with saved := s.saved.map fun e =>
      if s.releasable lid idx e.2.lid e.2.lcn then (e.1, { e.2 with parkAll := false, parkCtl := false, recs := [] }) else e }

/-- The park latches of the staged tasks of a gang are released. -/
def State.releaseStaged (s : State) (lid idx : Nat) : State :=
  s.mapCores fun c =>
    if c.staged == .staged && s.releasable lid idx c.stagedTask.lid c.stagedTask.lcn then
      { c with stagedTask := c.stagedTask.unpark }
    else c

/-- The cores on which tasks of a gang are resident. -/
def State.gangAt (s : State) (lid idx : Nat) : List Nat :=
  match s.findLaunch lid with
  | none => []
  | some l =>
    (s.cores.filter fun c => (c.slot == .resident || c.slot == .saving) && c.task.lid == lid
      && (s.gangCores l idx).contains c.task.lcn).map (·.pcore)

/-- TASK_CONTINUE (R309): the park latch of the whole gang is released, of its staged and saved tasks too. -/
def execTaskContinue (lid gang : Nat) (s : State) : Out :=
  .next ((s.gangAt lid gang).foldl (fun s n => s.onCore n State.continueTask)
    ((s.releaseStaged lid gang).releaseSaved lid gang))

/-! ### Editing in place (R309, R310) -/

/-- The partition whose memory a debugger at the focused core sees, and the launch queue of its task: where the slot is EMPTY, the
partition that the core belongs to (log entry 52). -/
def State.debugPart (s : State) : Option (Nat × Option Nat) :=
  if s.cur.slot = .empty then (s.parts.find? fun p => p.cores.contains s.cur.pcore).map fun p => (p.id, none)
  else some (s.task.part, some s.task.queue)

/-- The byte write of an emulator's or a debugger's store to virtual memory; none where nothing is mapped. -/
def State.mappedWrite (s : State) (w : Nat × Byte) : Option BWrite :=
  s.debugPart.bind fun q => (s.translateIn q.1 q.2 w.1 .loader).toOption.map fun pa => ⟨.mem, pa, 0xFF, w.2⟩

/-- The byte write of an emulator's store, by window or virtual address. -/
def State.emulatedWrite (s : State) (w : Nat × Byte) : Option BWrite :=
  match locate w.1 with
  | .window sp a => some ⟨sp, a, 0xFF, w.2⟩
  | .virt => s.mappedWrite w
  | .none => none

/-- The head command of an engine has been emulated (R310): its entry leaves the queue and its token is complete. In a timed
frame it completes, and its effect is observed, at the landing cycle that the emulator records. -/
def State.emulatedBy (s : State) (e : EngId) (landing : Nat) (ws : List BWrite) (nan sat : Bool) : State :=
  let g := s.eng e
  match g.head with
  | none => s
  | some q =>
    let later := g.strict && decide (g.cnt < landing)
    let s := if later then s else s.wrBytes ws
    let g := s.eng e
    s.setEng e ({ g with nan := g.nan || nan, sat := g.sat || sat }.issued (headAt q.word.toNat) q .none { lat := landing - g.cnt }
      { writes := ws, cont := 1, instant := !later })

/-- Emulate a counting command with the checks, the cost and the effect of its own unit (R286, R310); one that still waits, which no
UNIMPL has stopped, stays as it is (log entry 72). -/
def State.emulateAs (s : State) (h : CmdHead) (cost : State → Cost) (body : State → Except Trap (State × Issued)) : Out :=
  s.issueAs .sluice h .a cost body (s.readyNow .sluice h .a (cost s).lat)

/-- Emulate the command at the head of an engine's queue (R310). -/
def State.emulate (s : State) (e : EngId) (landing : Nat) (ws : List (Nat × Byte)) (nan sat : Bool) : Out :=
  match e, (s.eng e).head.map fun q => decodeEngine e q.word.toNat with
  | .sluice, some (.ok (.cinc h a c skip)) => s.emulateAs h (costEach a c) (cincBody a c skip)
  | .sluice, some (.ok (.cmerge h a c)) => s.emulateAs h (cmergeCost c) (cmergeBody a c)
  | .sluice, some (.ok (.cread h a c)) => s.emulateAs h (creadCost a) (creadBody a c)
  | _, _ => .next (s.emulatedBy e landing (ws.filterMap s.emulatedWrite) nan sat)

/-- The J register that a displaced word prepares (R174). -/
def State.prepares (s : State) : Instr → Option (BitVec 3)
  | .prep j p pn _ => if s.holds ⟨p, pn⟩ then some j else none
  | .prepr q j _ => if s.holds q then some j else none
  | _ => none

/-- The state after an emulated transfer: a J register that it has written, `wrote` among them, is STALE, and the core goes on
under the MODE.STEP that it had (R174, R309). -/
def State.afterEmulation (s s' : State) (wrote : Option (BitVec 3)) : State :=
  let kept (n : Nat) (r : JReg) : Bool :=
    decide (r = s.ctl.getJ (BitVec.ofNat 3 n)) && wrote != some (BitVec.ofNat 3 n)
  s'.withCtl { s'.ctl with j := s'.ctl.j.map fun e => (e.1, if kept e.1 e.2 then e.2 else e.2.staled), step := s.ctl.step }

/-- Emulate the transfer that a BRK displaced, at the PC of the BRK (R174, R311). -/
def State.emulateDisplaced (s : State) (w : Word) : Out :=
  let u := s.withCtl { s.ctl with ir := w, step := false }
  let wrote := (decodeControl w.toNat).toOption.bind s.prepares
  let o : Out := match decodeControl w.toNat with
    | .ok (.prep j p pn off) => execPrep j p pn off u
    | .ok (.prepr q j a) => execPrepr q j a u
    | .ok (.xfer j p pn) => execXfer j p pn u
    | .ok (.xcall j p pn) => execXcall j p pn u
    | .ok (.ret q) => execRet q u
    | _ => .next u
  match o with
  | .next s' => .next (s.afterEmulation s' wrote)
  | o => o

/-- The record with code ILLEGAL and the same fields (R310). -/
def FaultRec.illegal (r : FaultRec) : FaultRec :=
  { r with w0 := (r.w0 &&& ~~~0xFF#64) ||| BitVec.ofNat 64 Code.illegal.num }

/-- The record of the fault at which a stream stands stopped (R310; log entry 123). -/
def State.recordOf (s : State) (st : StreamId) : Option FaultRec := s.task.recs.find? fun r => r.stream == st.num

/-- A word of the resident context of the focused core's task is changed. With a changed PC or predicate the task can leave the
instruction in which it waited. -/
def State.editWord (s : State) (off : Nat) (v : Word) : State :=
  let c := s.ctl
  let t := s.task.editWord off v
  let u := s.withTask (if off = 0x258 then s.withRegion t else t)
  if c.waiting && t.ctl.leaves c.pc c.ir then u.leaveWaits t.lid t.lcn else u

/-- A change to the resident context of the focused core's parked task. -/
def State.editParked (s : State) : ContextEdit → Out
  | .word off v => .next (s.editWord off v)
  | .emulated e landing ws nan sat => s.emulate e landing ws nan sat
  | .displaced w => if s.ctl.waiting then .next s else s.emulateDisplaced w
  | .unknownWord st =>
    match s.recordOf st with
    | some r => .next { s.withTask { s.task with recs := s.task.noteRec r.illegal } with faults := s.faults ++ [r.illegal] }
    | none => .next s
  | _ => .next s

/-- A change to the context image at `addr` of a task that has been saved: with it the system image has acted on the gang, which goes
on when it is resumed (R309; log entry 85). -/
def State.editImage (s : State) (addr off : Nat) (v : Word) : State :=
  match s.saved.find? fun e => e.1 == addr with
  | none => s
  | some e =>
    let idx := ((s.findLaunch e.2.lid).map fun l => s.gangOf l.rec_ e.2.lcn).getD 0
    (s.releaseSaved e.2.lid idx).wrNat .mem (addr + off) 8 v.toNat

/-- TASK_EDIT (R309 to R311): a change to the resident context of the focused core's parked task, which a PREEMPT that waits for
the end of its timed frame leaves in place (R31), to a saved context image, or to memory that its launch's page tables map, and the
invalidation that follows a debugger's store. -/
def execTaskEdit (edit : ContextEdit) (s : State) : Out :=
  match edit with
  | .store va bs =>
    .next (s.wrBytes ((numbered va bs).filterMap fun b =>
      match locate b.1 with
      | .virt => s.mappedWrite b
      | _ => none))
  | .invalidate => .next ((s.debugPart.map fun q => s.invalidatePart q.1).getD s)
  | .image addr off v => .next (s.editImage addr off v)
  | _ => if (s.cur.slot == .resident || s.cur.slot == .saving) && (s.task.parkAll || s.task.parkCtl) then s.editParked edit
      else .next s

/-! ### Shoot-down (R83) -/

/-- A held translation maps an address of the range. -/
def heldIn (lo hi : Nat) (t : Nat × Leaf) : Bool := t.1 < hi && lo < t.1 + 2 ^ t.2.log2

/-- An issued command still accesses memory through a translation: it has bytes to write there, or names a MEM entry that it reads
or writes element by element. -/
def Flight.inMemory (f : Flight) : Bool :=
  f.writes.any (fun w => w.sp == .mem && w.mask != 0)
    || (match f.op with | .flu op _ => op.a.t.kind == 3 || op.c.t.kind == 3 | _ => false)

/-- The task must finish something before a shoot-down of the range completes: an access that a translation served, or a timed
frame that holds a primed translation of the range. -/
def Task.blocksShootdown (t : Task) (lo hi : Nat) : Bool :=
  engines.any (fun e =>
      (t.eng e).flight.any Flight.inMemory || (t.eng e).reqs.any fun r => r.tgt == .mem && !r.applied && !r.confirmed)
    || (t.pins.any (heldIn lo hi) && engines.any fun e => (t.eng e).timed && !(t.eng e).quiet)

/-- The task without the translations of a range. -/
def Task.shotDown (t : Task) (lo hi : Nat) : Task :=
  { t with pins := t.pins.filter fun p => !heldIn lo hi p, tlb := t.tlb.filter fun p => !heldIn lo hi p }

/-- A saved context without its pinned translations of a range: their words in the image are cleared (R84, R301). -/
def State.unpinImage (s : State) (lo hi addr : Nat) : State :=
  (List.range 256).foldl (fun s k =>
    let at_ := addr + 0x4000 + 16 * k
    let w := s.rdNat .mem at_ 8
    let n := w % 2 ^ 16
    if bitOf w 63 && decide (w % 2 ^ 56 - n < hi) && decide (lo < w % 2 ^ 56 - n + 2 ^ n) then s.wrNat .mem at_ 16 0 else s) s

/-- SHOOTDOWN (R83): it completes once every access that used an old translation has performed and every timed frame that
holds a primed one has ended; then no core of the partition holds a translation of the range. Until then it stays asked for. -/
def execShootdown (part lo hi : Nat) (s : State) : Out :=
  let mine (c : Core) : Bool := c.slot != .empty && c.task.part == part
  let others := s.shoots.filter (· != ⟨part, lo, hi⟩)
  if s.cores.any (fun c => mine c && c.task.blocksShootdown lo hi) then .next { s with shoots := ⟨part, lo, hi⟩ :: others }
  else
    let s' := s.mapCores fun c =>
      { c with
        task := if c.task.part = part then c.task.shotDown lo hi else c.task
        stagedTask := if c.stagedTask.part = part then c.stagedTask.shotDown lo hi else c.stagedTask }
    let s' := (s.saved.filter fun e => (s.findLaunch e.2.lid).any fun l => l.part == part).foldl
      (fun (s : State) e => s.unpinImage lo hi e.1) s'
    .next { s' with
      shoots := others
      xlat := s.xlat.filter fun x => !(x.part == part && x.base < hi && lo < x.base + 2 ^ x.leaf.log2) }

end Sys2Proof.Machine
end

