-- ==== Sys2Proof/Machine/Dispatch.lean ====
section
/-! DEFINITION. The dispatch: one arm for each constructor of Instr, a direct call of its meaning. -/

namespace Sys2Proof.Machine

/-- The meaning of an instruction, command or event at the focused core. -/
def exec (i : Instr) (s : State) : Host.Outcome State Fault Refusal :=
  match i with
  | .nop q => Sys2Proof.Machine.execNop q s
  | .halt q => Sys2Proof.Machine.execHalt q s
  | .trap q imm16 => Sys2Proof.Machine.execTrap q imm16 s
  | .brk => Sys2Proof.Machine.execBrk s
  | .spget q d fn => Sys2Proof.Machine.execSpget q d fn s
  | .spset q a fn => Sys2Proof.Machine.execSpset q a fn s
  | .iinv q a b scope whole => Sys2Proof.Machine.execIinv q a b scope whole s
  | .prime q a b => Sys2Proof.Machine.execPrime q a b s
  | .fork q d a b fn => Sys2Proof.Machine.execFork q d a b fn s
  | .join q d => Sys2Proof.Machine.execJoin q d s
  | .twait q d a eng seq20 => Sys2Proof.Machine.execTwait q d a eng seq20 s
  | .qcancel q mask => Sys2Proof.Machine.execQcancel q mask s
  | .tset q a tid word => Sys2Proof.Machine.execTset q a tid word s
  | .tget q d tid word => Sys2Proof.Machine.execTget q d tid word s
  | .patw q a pat => Sys2Proof.Machine.execPatw q a pat s
  | .patr q d pat => Sys2Proof.Machine.execPatr q d pat s
  | .shpw q a sh word => Sys2Proof.Machine.execShpw q a sh word s
  | .shpr q d sh word => Sys2Proof.Machine.execShpr q d sh word s
  | .bar q scope bid => Sys2Proof.Machine.execBar q scope bid s
  | .barr q a b scope bid rop rtype => Sys2Proof.Machine.execBarr q a b scope bid rop rtype s
  | .launch q d a => Sys2Proof.Machine.execLaunch q d a s
  | .add q d a b => Sys2Proof.Machine.execAdd q d a b s
  | .sub q d a b => Sys2Proof.Machine.execSub q d a b s
  | .and q d a b => Sys2Proof.Machine.execAnd q d a b s
  | .or q d a b => Sys2Proof.Machine.execOr q d a b s
  | .xor q d a b => Sys2Proof.Machine.execXor q d a b s
  | .andn q d a b => Sys2Proof.Machine.execAndn q d a b s
  | .shl q d a b => Sys2Proof.Machine.execShl q d a b s
  | .shr q d a b => Sys2Proof.Machine.execShr q d a b s
  | .sar q d a b => Sys2Proof.Machine.execSar q d a b s
  | .min q uns d a b => Sys2Proof.Machine.execMin q uns d a b s
  | .max q uns d a b => Sys2Proof.Machine.execMax q uns d a b s
  | .mul q d a b => Sys2Proof.Machine.execMul q d a b s
  | .mulh q uns d a b => Sys2Proof.Machine.execMulh q uns d a b s
  | .div q uns d a b => Sys2Proof.Machine.execDiv q uns d a b s
  | .rem q uns d a b => Sys2Proof.Machine.execRem q uns d a b s
  | .csel q d a b p pn => Sys2Proof.Machine.execCsel q d a b p pn s
  | .addi q d a imm => Sys2Proof.Machine.execAddi q d a imm s
  | .andi q d a imm => Sys2Proof.Machine.execAndi q d a imm s
  | .ori q d a imm => Sys2Proof.Machine.execOri q d a imm s
  | .xori q d a imm => Sys2Proof.Machine.execXori q d a imm s
  | .shli q d a sh => Sys2Proof.Machine.execShli q d a sh s
  | .shri q d a sh => Sys2Proof.Machine.execShri q d a sh s
  | .sari q d a sh => Sys2Proof.Machine.execSari q d a sh s
  | .limm q d imm => Sys2Proof.Machine.execLimm q d imm s
  | .limmh q d imm => Sys2Proof.Machine.execLimmh q d imm s
  | .bfx q d a pos lenm1 sx => Sys2Proof.Machine.execBfx q d a pos lenm1 sx s
  | .bfi q d a pos lenm1 => Sys2Proof.Machine.execBfi q d a pos lenm1 s
  | .rev q d a bytes => Sys2Proof.Machine.execRev q d a bytes s
  | .clz q d a => Sys2Proof.Machine.execClz q d a s
  | .ctz q d a => Sys2Proof.Machine.execCtz q d a s
  | .popc q d a => Sys2Proof.Machine.execPopc q d a s
  | .clmul q hi d a b => Sys2Proof.Machine.execClmul q hi d a b s
  | .cmp pd pc a rhs cond => Sys2Proof.Machine.execCmp pd pc a rhs cond s
  | .plog q pd pa pb tt => Sys2Proof.Machine.execPlog q pd pa pb tt s
  | .psave q d => Sys2Proof.Machine.execPsave q d s
  | .pload q a pmask => Sys2Proof.Machine.execPload q a pmask s
  | .fcmp pd pc a rhs cond => Sys2Proof.Machine.execFcmp pd pc a rhs cond s
  | .fadd q d a b => Sys2Proof.Machine.execFadd q d a b s
  | .fsub q d a b => Sys2Proof.Machine.execFsub q d a b s
  | .fmul q d a b => Sys2Proof.Machine.execFmul q d a b s
  | .ffma q d a b => Sys2Proof.Machine.execFfma q d a b s
  | .fmin q d a b => Sys2Proof.Machine.execFmin q d a b s
  | .fmax q d a b => Sys2Proof.Machine.execFmax q d a b s
  | .fcvt q d a fn => Sys2Proof.Machine.execFcvt q d a fn s
  | .ld q d a x cls sz sx off => Sys2Proof.Machine.execLd q d a x cls sz sx off s
  | .st q d a x cls sz off => Sys2Proof.Machine.execSt q d a x cls sz off s
  | .lda q d a x cls scope sz sx mask off => Sys2Proof.Machine.execLda q d a x cls scope sz sx mask off s
  | .stl q d a x cls scope sz mask off => Sys2Proof.Machine.execStl q d a x cls scope sz mask off s
  | .pref q a x off => Sys2Proof.Machine.execPref q a x off s
  | .fence q before after scope => Sys2Proof.Machine.execFence q before after scope s
  | .prep j p pn off => Sys2Proof.Machine.execPrep j p pn off s
  | .prepr q j a => Sys2Proof.Machine.execPrepr q j a s
  | .xfer j p pn => Sys2Proof.Machine.execXfer j p pn s
  | .xcall j p pn => Sys2Proof.Machine.execXcall j p pn s
  | .ret q => Sys2Proof.Machine.execRet q s
  | .jget q d j => Sys2Proof.Machine.execJget q d j s
  | .jclr q j => Sys2Proof.Machine.execJclr q j s
  | .idle e h extra => Sys2Proof.Machine.execIdle e h extra s
  | .rep e h body countm1 addr tid wstep => Sys2Proof.Machine.execRep e h body countm1 addr tid wstep s
  | .efence e h classes scope => Sys2Proof.Machine.execEfence e h classes scope s
  | .endStream e h => Sys2Proof.Machine.execEndStream e h s
  | .mma h a b c semi acc ta tb => Sys2Proof.Machine.execMma h a b c semi acc ta tb s
  | .accz h c => Sys2Proof.Machine.execAccz h c s
  | .acccp h a c zsrc => Sys2Proof.Machine.execAcccp h a c zsrc s
  | .wfill h a c => Sys2Proof.Machine.execWfill h a c s
  | .winv h c whole => Sys2Proof.Machine.execWinv h c whole s
  | .part h a c neg => Sys2Proof.Machine.execPart h a c neg s
  | .rank h a c asc => Sys2Proof.Machine.execRank h a c asc s
  | .topk h a c km1 asc => Sys2Proof.Machine.execTopk h a c km1 asc s
  | .drain h a c sh => Sys2Proof.Machine.execDrain h a c sh s
  | .amax h a c sh => Sys2Proof.Machine.execAmax h a c sh s
  | .mseed h a => Sys2Proof.Machine.execMseed h a s
  | .copy h a c => Sys2Proof.Machine.execCopy h a c s
  | .fill h a c zero => Sys2Proof.Machine.execFill h a c zero s
  | .gather h a b c skip => Sys2Proof.Machine.execGather h a b c skip s
  | .scatter h a b c skip => Sys2Proof.Machine.execScatter h a b c skip s
  | .gathp h a b c pshift skip => Sys2Proof.Machine.execGathp h a b c pshift skip s
  | .exp24 h a c => Sys2Proof.Machine.execExp24 h a c s
  | .putr h a c rop => Sys2Proof.Machine.execPutr h a c rop s
  | .bcast h a c scope => Sys2Proof.Machine.execBcast h a c scope s
  | .fseed h a => Sys2Proof.Machine.execFseed h a s
  | .pfetch h a => Sys2Proof.Machine.execPfetch h a s
  | .cmpb h a b c => Sys2Proof.Machine.execCmpb h a b c s
  | .sacc h a b c skip sop => Sys2Proof.Machine.execSacc h a b c skip sop s
  | .sfetch h a b c skip sop => Sys2Proof.Machine.execSfetch h a b c skip sop s
  | .scas h a b c skip => Sys2Proof.Machine.execScas h a b c skip s
  | .bset h a c skip => Sys2Proof.Machine.execBset h a c skip s
  | .bclr h a c skip => Sys2Proof.Machine.execBclr h a c skip s
  | .btest h a b c skip tas => Sys2Proof.Machine.execBtest h a b c skip tas s
  | .cinc h a c skip => Sys2Proof.Machine.execCinc h a c skip s
  | .cmerge h a c => Sys2Proof.Machine.execCmerge h a c s
  | .cread h a c => Sys2Proof.Machine.execCread h a c s
  | .sseed h a => Sys2Proof.Machine.execSseed h a s
  | .sequencerFetch e => Sys2Proof.Machine.execSequencerFetch e s
  | .frameStart e => Sys2Proof.Machine.execFrameStart e s
  | .commandLands e seq => Sys2Proof.Machine.execCommandLands e seq s
  | .cancelledAtHead e => Sys2Proof.Machine.execCancelledAtHead e s
  | .prefetchComplete j => Sys2Proof.Machine.execPrefetchComplete j s
  | .iinvInvalidationPoint id => Sys2Proof.Machine.execIinvInvalidationPoint id s
  | .barrierDeparture lid scope unit bid => Sys2Proof.Machine.execBarrierDeparture lid scope unit bid s
  | .remoteTimeout agent => Sys2Proof.Machine.execRemoteTimeout agent s
  | .putrRequestTimeout e tag => Sys2Proof.Machine.execPutrRequestTimeout e tag s
  | .remoteConfirmation e tag => Sys2Proof.Machine.execRemoteConfirmation e tag s
  | .reductionRequest e tag => Sys2Proof.Machine.execReductionRequest e tag s
  | .hypervisorLaunchCall die caller r => Sys2Proof.Machine.execHypervisorLaunchCall die caller r s
  | .launchDispatch die prio => Sys2Proof.Machine.execLaunchDispatch die prio s
  | .bind die => Sys2Proof.Machine.execBind die s
  | .resume die => Sys2Proof.Machine.execResume die s
  | .preempt die => Sys2Proof.Machine.execPreempt die s
  | .kill die => Sys2Proof.Machine.execKill die s
  | .bindActionOther die => Sys2Proof.Machine.execBindActionOther die s
  | .contextFill => Sys2Proof.Machine.execContextFill s
  | .gangSwap tag => Sys2Proof.Machine.execGangSwap tag s
  | .contextSaved => Sys2Proof.Machine.execContextSaved s
  | .quantumExpiry lid gang => Sys2Proof.Machine.execQuantumExpiry lid gang s
  | .agingPromotion lid gang => Sys2Proof.Machine.execAgingPromotion lid gang s
  | .faultRecordDelivery part => Sys2Proof.Machine.execFaultRecordDelivery part s
  | .taskContinue lid gang => Sys2Proof.Machine.execTaskContinue lid gang s
  | .taskEdit edit => Sys2Proof.Machine.execTaskEdit edit s
  | .shootdown part lo hi => Sys2Proof.Machine.execShootdown part lo hi s
  | .powerRequest part host w => Sys2Proof.Machine.execPowerRequest part host w s
  | .weirSample die limit d => Sys2Proof.Machine.execWeirSample die limit d s
  | .boot => Sys2Proof.Machine.execBoot s
  | .firmwareUpdate img cut => Sys2Proof.Machine.execFirmwareUpdate img cut s
  | .attestationRequest part nonce => Sys2Proof.Machine.execAttestationRequest part nonce s
  | .fatalError cause addr => Sys2Proof.Machine.execFatalError cause addr s
  | .watchdogTimeout die => Sys2Proof.Machine.execWatchdogTimeout die s
  | .flitReplay lane => Sys2Proof.Machine.execFlitReplay lane s
  | .laneFailure lane => Sys2Proof.Machine.execLaneFailure lane s
  | .opcodeNotListed w => Sys2Proof.Machine.execOpcodeNotListed w s
  | .engineOpcodeNotListed e w => Sys2Proof.Machine.execEngineOpcodeNotListed e w s
  | .codeObjectLoad part obj => Sys2Proof.Machine.execCodeObjectLoad part obj s
  | .powerStateExit => Sys2Proof.Machine.execPowerStateExit s
  | .scaleOutFrameReceive port pause data => Sys2Proof.Machine.execScaleOutFrameReceive port pause data s

end Sys2Proof.Machine
end

