-- ==== Sys2Proof/Machine/Round.lean ====
section
/-! DEFINITION. One cycle of the package as a list of moves: landings, requests, issues, fetches, control cores, the
headgates, the firmware, what the outside world does, and the clock (R16, R20, R125, R126). -/

namespace Sys2Proof.Machine

/-! ### The control core's move (R126, R305, R313) -/

/-- The control core may execute: its task is resident and released, and nothing has parked or stopped it (R297, R303,
R305). A remote access in progress comes to its end, so that the core stops at an instruction boundary (R303, R305). -/
def State.canRun (s : State) : Bool :=
  s.cur.slot != .empty && s.cur.released
    && ((!s.task.parkAll && !s.task.parkCtl && !s.task.saving) || (s.ctl.waiting && s.ctl.remote.isSome))

/-- Execute the word in `ir`: decoding raises ILLEGAL whatever the predicate (R127, R132). -/
def State.execute (s : State) : Out :=
  match decodeControl s.ctl.ir.toNat with
  | .ok i => exec i s
  | .error _ => s.fail { code := .illegal }

/-- Fetch the word at PC into `ir` and execute it: FETCH-BOUNDS outside the region (R313), and the faults of R81. -/
def State.fetchExecute (s : State) : Out :=
  let pc := s.ctl.pc.toNat
  if pc < s.ctl.clo || s.ctl.chi ≤ pc then
    .next (s.takeFault .control { code := .fetchBounds, addr := some pc } s.ctl.pc 0 0)
  else
    match s.fetchWord pc with
    | (.error tr, s) => .next (s.takeFault .control tr s.ctl.pc 0 0)
    | (.ok w, s) => (s.withCtl { s.ctl with ir := w }).execute

/-- The move of the focused control core. An instruction that waits is executed again as it was fetched. -/
def State.controlMove (s : State) : Out :=
  if !s.canRun then .next s
  else if s.ctl.waiting then s.execute
  else s.fetchExecute

/-- The move of an engine of the focused core: the command at the head of its queue (R13). A word that decoding refuses
raises ILLEGAL at issue (R14, R15); with nothing queued, a word whose stamp has come raises OVERRUN (R19). -/
def State.issueMove (s : State) (e : EngId) : Out :=
  match (s.eng e).head with
  | none => s.overdue e
  | some q =>
    match decodeEngine e q.word.toNat with
    | .ok i => exec i s
    | .error _ => s.failFirst e .none .illegal

/-! ### The clock (R16, R125) -/

/-- Does the engine's frame clock run (R30, R305)? Once the streams have stopped for a save, that of an elastic frame runs until its
issued commands have finished (R30, R288). -/
def State.clockRuns (s : State) (g : Eng) : Bool :=
  !s.task.parkAll && !s.task.parking && s.cur.released
    && (!s.task.saving || g.timed
      || engines.any fun x => (s.eng x).fid == g.fid && (s.eng x).flight.any (s.canFinish x))

/-- One cycle for an engine: the countdown to its frame's start, or its frame's counter until the frame ends. -/
def State.tickEng (s : State) (g : Eng) : Eng :=
  if !s.clockRuns g then g
  else if g.started then (if s.task.frameDone g.fid then g else { g with cnt := g.cnt + 1 })
  else { g with countdown := g.countdown - 1 }

/-- One cycle of an engine's remote accesses; time held for a task that is not resident does not count (R75). -/
def State.ageEng (s : State) (e : EngId) (g : Eng) : Eng :=
  { g with
    reqs := g.reqs.map fun r =>
      if g.window.contains r && s.reqReaches r && s.foldSent e r then { r with age := r.age + 1 } else r
    flight := g.flight.map fun f => if f.plainRemote && s.reaches f then { f with age := f.age + 1 } else f }

/-- FRAMECNT counts: the frame of the latest FORK has started and has not ended (R125). -/
def State.frameRuns (s : State) : Bool :=
  (engines.any fun e =>
      let g := s.eng e
      g.fid == s.ctl.frameEng && g.started && s.clockRuns g)
    && !s.task.frameDone s.ctl.frameEng

/-- The stopped commands of a task that runs go on (R241, R309): one that reads a core which is not resident waits (R75). -/
def State.goOn (s : State) : State :=
  if s.cur.slot = .resident && s.cur.released && !s.task.parkAll && !s.task.saving then engines.foldl State.continueEng s else s

/-- One cycle of the focused core (R125): TASKTIME while the task is resident and not parked, FRAMECNT, the engines; a
fault of the cycle has parked the task at its end (R305). TASKTIME of a task that is saved: log entry 92. -/
def State.tickCore (s : State) : State :=
  if s.cur.slot ≠ .resident && s.cur.slot ≠ .saving then s
  else
    let t := s.task
    let c := t.ctl
    let eng (e : EngId) : Eng := s.ageEng e (s.tickEng (t.eng e))
    State.goOn <| s.withTask { t with
      parking := false, parkAll := t.parkAll || t.parking, m := eng .matrix, f := eng .flume, s := eng .sluice
      ctl := { c with
        tasktime := if t.parkAll || t.parking || s.cur.slot ≠ .resident then c.tasktime else (c.tasktime + 1) % 2 ^ 64
        framecnt := if s.frameRuns then c.framecnt + 1 else c.framecnt
        remoteAge := match c.remote with
          | some va => if s.reachable (farCore va) then c.remoteAge + 1 else c.remoteAge
          | none => 0 } }

/-- One cycle of the package. -/
def State.tick (s : State) : State :=
  { (s.cores.map (·.pcore)).foldl (fun s n => s.onCore n State.tickCore) s with now := s.now + 1 }

/-! ### What a cycle holds -/

/-- A planned move; a `late` one may also be left for a later cycle, and whether it is left is free, but not for ever (R11, R27;
log entry 2). -/
structure Plan where
  late : Bool
  move : Move
  deriving DecidableEq, Repr

/-- The landings that an engine plans, in sequence order: those issued in elastic mode may come later (R23). -/
def planLandings (c : Nat) (e : EngId) (g : Eng) : List Plan :=
  (g.flight.filter fun f => !g.strict || f.land ≤ g.cnt).map fun f => ⟨!f.timed, .event c (.commandLands e f.seq)⟩

/-- The requests that an engine plans (R250): arrivals, confirmations and timeouts, none of them at a known time. -/
def planRequests (c : Nat) (e : EngId) (g : Eng) : List Plan :=
  g.reqs.flatMap fun r =>
    if r.confirmed then []
    else
      (if r.applied then [⟨true, .event c (.remoteConfirmation e r.tag)⟩]
        else [⟨true, .event c (.reductionRequest e r.tag)⟩])
      ++ (if cycles8ms ≤ r.age then [⟨false, .event c (.putrRequestTimeout e r.tag)⟩] else [])

/-- The timeouts of plain remote accesses (R75). -/
def planTimeouts (c : Nat) (t : Task) : List Plan :=
  (if t.ctl.remote.isSome && decide (cycles8ms ≤ t.ctl.remoteAge) then [⟨false, .event c (.remoteTimeout .control)⟩]
    else [])
  ++ engines.flatMap fun e =>
    if (t.eng e).flight.any (fun f => f.plainRemote && decide (cycles8ms ≤ f.age)) then
      [⟨false, .event c (.remoteTimeout (.engine e))⟩]
    else []

/-- An engine's own moves: the start of its frame, its head, its fetch (R13, R16, R29). -/
def planEngine (c : Nat) (e : EngId) (g : Eng) : List Plan :=
  (if g.running && !g.started then [⟨false, .event c (.frameStart e)⟩] else [])
  ++ (if g.started && (g.head.isSome || g.running) then
      [⟨false, .event c (.cancelledAtHead e)⟩, ⟨!g.strict, .issue c e⟩] else [])

/-- Prefetches and invalidation points of a core (R158, R163). -/
def State.planCaches (s : State) (k : Core) : List Plan :=
  ((k.task.ctl.j.filter fun e => e.2.st == .fetching).map fun e =>
    (⟨true, .event k.pcore (.prefetchComplete (BitVec.ofNat 3 e.1))⟩ : Plan))
  ++ (s.iinvs.filter fun i => i.todo.contains k.pcore).map fun i =>
    ⟨true, .event k.pcore (.iinvInvalidationPoint i.id)⟩

/-- The moves of one core in a cycle: what lands is seen by what issues in the same cycle (R20). A sequencer fetches one word a
cycle, after the issues of that cycle: the spec gives no rate (R13, log entry 71). The control core executes one instruction in every
cycle: the spec has at most one and gives no latency (R126; DESIGN CHOICE, log entry 109). -/
def State.planCore (s : State) (k : Core) : List Plan :=
  let t := k.task
  let c := k.pcore
  (if k.slot == .resident || k.slot == .saving then
      engines.flatMap (fun e => planLandings c e (t.eng e))
        ++ engines.flatMap (fun e => planRequests c e (t.eng e)) ++ planTimeouts c t
        ++ engines.flatMap (fun e => planEngine c e (t.eng e))
        ++ engines.flatMap (fun e =>
            if (t.eng e).running then [(⟨false, .event c (.sequencerFetch e)⟩ : Plan)] else [])
        ++ [⟨t.ctl.remote.isSome, .control c⟩] ++ s.planCaches k
    else [])
  ++ (if k.slot == .saving then [⟨false, .event c .contextSaved⟩] else [])
  ++ (if k.staged == .filling then [⟨false, .event c .contextFill⟩] else [])

/-- What the headgate of a die does next (R296). -/
def planHeadgate (r : BindRec) : Instr :=
  match r.action with
  | 1 => .bind r.die
  | 2 => .resume r.die
  | 3 => .preempt r.die
  | 4 => .kill r.die
  | _ => .bindActionOther r.die

/-- The moves of barriers, headgates, firmware and hypervisor in a cycle. The queues' records are taken in acceptance order (R298). -/
def State.planPackage (s : State) : List Plan :=
  let ev (i : Instr) : Plan := ⟨false, .event s.cur.pcore i⟩
  (((s.left ++ s.arrivals).map fun a => (a.lid, a.scope, a.unit, a.bid)).eraseDups.map fun a =>
      ev (.barrierDeparture a.1 a.2.1 a.2.2.1 a.2.2.2))
    ++ ((s.launches.filter fun l => l.st == .queued).map fun l => ev (.launchDispatch l.die l.rec_.prio))
    ++ (List.range s.dies).flatMap (fun d => ((s.nextBind d).map fun r => ev (planHeadgate r)).toList)
    ++ ((s.binds.filter fun r => s.inGroup r.tag r).map fun r => ev (.gangSwap (BitVec.ofNat 16 r.tag))).eraseDups
    ++ s.gangs.flatMap (fun g =>
        if g.st == .resident then [ev (.quantumExpiry g.lid g.idx)]
        else if g.waiting then [ev (.agingPromotion g.lid g.idx)] else [])
    ++ (s.faults.map fun r => ev (.faultRecordDelivery r.part)).eraseDups
    ++ s.shoots.map (fun x => ev (.shootdown x.part x.lo x.hi))
    ++ (if s.exitAt.isSome || s.parts.any (·.exitAt.isSome) then [ev .powerStateExit] else []) ++ [⟨false, .policy⟩]

/-- What the outside world may do: the hypervisor, the system image, the loader, the host, the links, the weir's sensors
and errors. -/
def Instr.external : Instr → Bool
  | .hypervisorLaunchCall .. | .taskContinue .. | .taskEdit _ | .shootdown .. | .powerRequest .. | .weirSample ..
  | .firmwareUpdate .. | .attestationRequest .. | .fatalError .. | .watchdogTimeout _ | .flitReplay _ | .laneFailure _
  | .codeObjectLoad .. | .scaleOutFrameReceive .. => true
  | _ => false

/-- An input that the outside world can make. -/
def Move.admissible : Move → Bool
  | .event _ i => Instr.external i
  | .record _ | .ring _ | .split _ | .send .. | .mailRead _ | .mailFree _ => true
  | _ => false

/-- All plans of a cycle, the first input before all else; before the boot there is the boot alone (R322). -/
def State.plan (s : State) : List Plan :=
  ((s.inputs.take 1).filter Move.admissible).map (fun m => ⟨false, m⟩) ++ (match s.boot with
    | .off => [⟨false, .event s.cur.pcore .boot⟩]
    | .recovery => []
    | .running => s.cores.flatMap s.planCore ++ s.planPackage) ++ [⟨false, .tick⟩]

/-- The moves of the next cycle: those that are not left for later, the first input, the clock. In every cycle whose number is a
multiple of `Config.patience + 1` nothing is left, so that what can happen happens in bounded time (R11, R27). -/
def State.newCycle (s : State) : State :=
  let ps := s.plan
  { s with
    agenda := (numbered s.fresh ps).filterMap fun p =>
      if p.2.late && Config.freeChoice p.1 && s.now % (Config.patience + 1) != 0 then none else some p.2.move
    fresh := s.fresh + ps.length
    inputs := s.inputs.drop 1 }

/-- Make one move. -/
def State.makeMove (s : State) : Move → Out
  | .control c => (s.focus c).controlMove
  | .issue c e => (s.focus c).issueMove e
  | .event c i => exec i (s.focus c)
  | .record r => .next { s with binds := s.binds ++ [{ r with status := 0, started := false }] }
  | .policy => .next s.schedule.settlePower
  | .ring r => .next (s.setRing r)
  | .split p => .next (s.splitPort p)
  | .send p prio n => .next (s.sendFrame p prio n)
  | .mailRead p => .next (s.mailRead p)
  | .mailFree p => .next (s.mailFree p)
  | .tick => .next s.tick

/-- The next move of the agenda, or a new cycle. -/
def State.advance (s : State) : Out :=
  match s.agenda with
  | [] => .next s.newCycle
  | m :: t => State.makeMove { s with agenda := t } m

end Sys2Proof.Machine
end

