-- ==== Sys2Proof/Machine/Fetch.lean ====
section
/-! DEFINITION. A load from outside: the package with one instruction word placed where its next step fetches (log entry
9). The spec's own way to a program is a launch (R291 to R302). -/

namespace Sys2Proof.Machine

/-- The table entries that map the 1 GiB page of an address, readable, writable and executable, to the first GiB of die
0's HBM, with the tables above it (R79, R80). -/
def fetchTables (pkg va : Nat) : List (Nat × Nat) :=
  let root := pkg * 2 ^ 40 + 0x80000000
  [(root + 8 * vaIndex 3 va, root + 0x200000 + 1), (root + 0x200000 + 8 * vaIndex 2 va, pkg * 2 ^ 40 + 0xF9)]

/-- The partition that owns the page: one code region covers it (R158). -/
def fetchPart (id pkg va : Nat) : Partition :=
  { id, running := true, root := pkg * 2 ^ 40 + 0x80000000, roots := [], share := [(pkg * 2 ^ 40, pkg * 2 ^ 40 + 2 ^ 33)]
    cores := [], appCores := [], vf := false, ring := 0, ringSlots := 0, ringAt := 0, stub := 0, directory := 0, dirCount := 0
    objects := [{ id := 0, sections := [⟨true, va / 2 ^ 30 * 2 ^ 30, 2 ^ 30⟩], image := [], profiles := [], strong := []
                  weak := [], links := [], scaleOut := false }]
    image := SignedImage.none_, tolNs := 0, power := .s0, exitAt := none, lastLoad := 0, lastCall := 0, mail := [], ownPolicy := false }

/-- The words of the tables, and the instruction word itself. -/
def fetchWords (pkg va w : Nat) : List (Nat × Byte) :=
  (fetchTables pkg va ++ [(pkg * 2 ^ 40 + va % 2 ^ 30, w)]).flatMap fun (e : Nat × Nat) => numbered e.1 (leBytes 8 e.2)

/-- The focused core runs its task from `pc`: resident, released, not parked, with nothing cached for that address. -/
def Core.fetching (c : Core) (pc : Word) : Core :=
  let t := c.task
  { c with
    slot := .resident, released := true
    task := { t with
      parking := false, parkAll := false, parkCtl := false, saving := false
      tlb := t.tlb.filter fun p => !heldIn pc.toNat (pc.toNat + 8) p
      pins := t.pins.filter fun p => !heldIn pc.toNat (pc.toNat + 8) p
      icache := t.icache.filter fun w => w.1 / 64 != pc.toNat / 64
      ctl := { t.ctl with
        pc, waiting := false, clo := pc.toNat / 2 ^ 30 * 2 ^ 30, chi := pc.toNat / 2 ^ 30 * 2 ^ 30 + 2 ^ 30 } } }

/-- The address that the placed word gets: PC, or 0 where PC is no address of a partition's space (R74). -/
def fetchAddr (pc : Word) : Word := if pc.toNat < 2 ^ 56 then pc &&& ~~~7#64 else 0

/-- Place a word where the focused core fetches next, and let that core move next. -/
def State.placeWord (s : State) (w : Nat) : State :=
  let pc := fetchAddr s.ctl.pc
  let ws := fetchWords s.pkg pc.toNat (w % 2 ^ 64)
  { s with
    boot := .running, cur := s.cur.fetching pc, agenda := [.control s.cur.pcore]
    parts := fetchPart s.task.part s.pkg pc.toNat :: s.parts.filter fun p => p.id != s.task.part
    xlat := s.xlat.filter fun x => x.part != s.task.part
    mem := spSetMany emptyByte s.mem ws, badMem := s.badMem.filter fun a => !(ws.any fun x => x.1 == a) }

end Sys2Proof.Machine
end

