-- ==== Sys2Proof/Machine/Step.lean ====
section
/-! DEFINITION. One step of the package, and the placing of an instruction where the next step fetches. -/

namespace Sys2Proof.Machine

/-- One step: the next move of the present cycle, or the plan of a new one. -/
def step (s : State) : Host.Outcome State Fault Refusal := s.advance

/-- `s` with the instruction of the opcode table's numbering stored where `step` fetches its next instruction. Every
instruction is one 64-bit little-endian word (R6, R129), so `nbits` does not change where its bits stand. -/
def State.withFetchWord (s : State) (_nbits w : Nat) : State := s.placeWord w

end Sys2Proof.Machine
end

