-- ==== Sys2Proof/Safety.lean ====
section
/-! DEFINITION. The words that statements use: when the package's stores are in canonical form, what the retirement of
an instruction does, what an instruction names as its destination, and what one leaves unchanged. -/

namespace Sys2Proof.Machine

/-! ### A safe run -/

/-- The step answers a next state: no fault of the model and no refusal. -/
def State.steps (s : State) : Prop := ∃ t, step s = .next t

/-- The register files and the stores of a task are held in canonical form, so that equal contents are equal data. -/
def Task.canonical (t : Task) : Prop :=
  spWf 0 t.ctl.g = true ∧ spWf JReg.blank t.ctl.j = true ∧ spWf 0 t.t = true ∧ spWf 0 t.pat = true ∧ spWf 0 t.sh = true
    ∧ Memory.wf t.reg = true ∧ Memory.wf t.scr = true ∧ Memory.wf t.wb = true ∧ spWf Flag.fresh t.flags = true

/-- Physical memory and the stores of every task, resident or staged, are in canonical form. -/
def State.canonical (s : State) : Prop :=
  Memory.wf s.mem = true ∧ ∀ c ∈ s.cores, c.task.canonical ∧ c.stagedTask.canonical

/-- Bits [2:0] of PC and of every TADDR are 0 (R117, R119). -/
def Task.aligned (t : Task) : Prop := t.ctl.pc.toNat % 8 = 0 ∧ ∀ e ∈ t.ctl.j, e.2.taddr.toNat % 8 = 0

/-- Every task of the package has an aligned PC and aligned branch targets. -/
def State.aligned (s : State) : Prop := ∀ c ∈ s.cores, c.task.aligned ∧ c.stagedTask.aligned

/-- No core is listed twice. -/
def State.distinct (s : State) : Prop := (s.cores.map (·.pcore)).Nodup

/-- The cores out of focus are listed in the order of their numbers, and the focused one is not among them. -/
def State.ordered (s : State) : Prop :=
  (s.rest.map (·.pcore)).Pairwise (· < ·) ∧ s.cur.pcore ∉ s.rest.map (·.pcore)

/-- No command that the focused task's engines have issued in timed mode has been seen by one of its loads before its landing cycle
(R157). -/
def State.unseen (s : State) : Prop := ∀ e, ∀ f ∈ (s.eng e).flight, f.seen = []

/-- That holds of every core's task, and no read has had draws taken of a command that is still to count by them (log entry 73). -/
def State.unseenAnywhere (s : State) : Prop :=
  ∀ c ∈ s.cores, ∀ e, ∀ f ∈ (c.task.eng e).flight, f.seen = [] ∧ f.drew = false

/-- No engine has a command in flight. -/
def State.still (s : State) : Prop := ∀ c ∈ s.cores, ∀ e, (c.task.eng e).flight = []

/-! ### Retirement -/

/-- The instruction has retired and `pc` is the next one (R126); with MODE.STEP set, STEP is raised after it (R312). -/
def State.retired (s : State) (pc : Word) : State :=
  let u := s.withCtl { s.ctl with pc, waiting := false }
  if s.ctl.step then u.takeFault .control { code := .step } pc s.ctl.ir 0 else u

/-- An instruction with the effect `u` has retired in sequence, or without any effect if `q` squashes it (R127). -/
def State.completes (s : State) (q : Qual) (u : State) : State :=
  if (s.getP q.p != q.n) = true then u.retired (s.ctl.pc + 8) else s.retired (s.ctl.pc + 8)

/-- The value that an instruction writes to G[d] (R117: a write to G0 is discarded). -/
def State.writes (s : State) (q : Qual) (d : BitVec 5) (v : Word) : State := s.completes q (s.setG d v)

end Sys2Proof.Machine

namespace Sys2Proof

/-! ### Which words an instruction belongs to -/

/-- Who executes the instruction's word; an event has no word. -/
def Instr.agent : Instr → Option StreamId
  | .nop _ | .halt _ | .trap .. | .brk | .spget .. | .spset .. | .iinv .. | .prime .. | .fork .. | .join .. | .twait ..
  | .qcancel .. | .tset .. | .tget .. | .patw .. | .patr .. | .shpw .. | .shpr .. | .bar .. | .barr .. | .launch ..
  | .add .. | .sub .. | .and .. | .or .. | .xor .. | .andn .. | .shl .. | .shr .. | .sar .. | .min .. | .max ..
  | .mul .. | .mulh .. | .div .. | .rem .. | .csel .. | .addi .. | .andi .. | .ori .. | .xori .. | .shli .. | .shri ..
  | .sari .. | .limm .. | .limmh .. | .bfx .. | .bfi .. | .rev .. | .clz .. | .ctz .. | .popc .. | .clmul .. | .cmp ..
  | .plog .. | .psave .. | .pload .. | .fcmp .. | .fadd .. | .fsub .. | .fmul .. | .ffma .. | .fmin .. | .fmax ..
  | .fcvt .. | .ld .. | .st .. | .lda .. | .stl .. | .pref .. | .fence .. | .prep .. | .prepr .. | .xfer .. | .xcall ..
  | .ret _ | .jget .. | .jclr .. | .opcodeNotListed _ => some .control
  | .idle e .. | .rep e .. | .efence e .. | .endStream e _ | .engineOpcodeNotListed e _ => some (.engine e)
  | .mma .. | .accz .. | .acccp .. | .wfill .. | .winv .. | .part .. | .rank .. | .topk .. | .drain .. | .amax ..
  | .mseed .. => some (.engine .matrix)
  | .copy .. | .fill .. | .gather .. | .scatter .. | .gathp .. | .exp24 .. | .putr .. | .bcast .. | .fseed ..
  | .pfetch .. | .cmpb .. => some (.engine .flume)
  | .sacc .. | .sfetch .. | .scas .. | .bset .. | .bclr .. | .btest .. | .cinc .. | .cmerge .. | .cread .. | .sseed .. =>
    some (.engine .sluice)
  | _ => none

/-- The qualifying predicate of an instruction that has one: QP with QN (R127), or the P with PN of a CT word (R131). -/
def Instr.qual : Instr → Option Qual
  | .nop q | .halt q | .trap q _ | .spget q .. | .spset q .. | .iinv q .. | .prime q .. | .fork q .. | .join q _
  | .twait q .. | .qcancel q _ | .tset q .. | .tget q .. | .patw q .. | .patr q .. | .shpw q .. | .shpr q .. | .bar q ..
  | .barr q .. | .launch q .. | .add q .. | .sub q .. | .and q .. | .or q .. | .xor q .. | .andn q .. | .shl q ..
  | .shr q .. | .sar q .. | .min q .. | .max q .. | .mul q .. | .mulh q .. | .div q .. | .rem q .. | .csel q ..
  | .addi q .. | .andi q .. | .ori q .. | .xori q .. | .shli q .. | .shri q .. | .sari q .. | .limm q .. | .limmh q ..
  | .bfx q .. | .bfi q .. | .rev q .. | .clz q .. | .ctz q .. | .popc q .. | .clmul q .. | .plog q .. | .psave q _
  | .pload q .. | .fadd q .. | .fsub q .. | .fmul q .. | .ffma q .. | .fmin q .. | .fmax q .. | .fcvt q .. | .ld q ..
  | .st q .. | .lda q .. | .stl q .. | .pref q .. | .fence q .. | .prepr q .. | .ret q | .jget q .. | .jclr q _ => some q
  | .prep _ p pn _ | .xfer _ p pn | .xcall _ p pn => some ⟨p, pn⟩
  | _ => none

/-- The common fields of a command that the spec names (R14). -/
def Instr.cmdHead : Instr → Option CmdHead
  | .idle _ h .. | .rep _ h .. | .efence _ h .. | .endStream _ h | .mma h .. | .accz h .. | .acccp h ..
  | .wfill h .. | .winv h .. | .part h .. | .rank h .. | .topk h .. | .drain h .. | .amax h .. | .mseed h ..
  | .copy h .. | .fill h .. | .gather h .. | .scatter h .. | .gathp h .. | .exp24 h .. | .putr h .. | .bcast h ..
  | .fseed h .. | .pfetch h .. | .cmpb h .. | .sacc h .. | .sfetch h .. | .scas h .. | .bset h .. | .bclr h ..
  | .btest h .. | .cinc h .. | .cmerge h .. | .cread h .. | .sseed h .. => some h
  | _ => none

/-- The same instruction with P0 as its qualifying predicate. -/
def Instr.unqualified : Instr → Instr
  | .nop _ => .nop ⟨0, false⟩
  | .halt _ => .halt ⟨0, false⟩
  | .trap _ imm16 => .trap ⟨0, false⟩ imm16
  | .spget _ d fn => .spget ⟨0, false⟩ d fn
  | .spset _ a fn => .spset ⟨0, false⟩ a fn
  | .iinv _ a b scope whole => .iinv ⟨0, false⟩ a b scope whole
  | .prime _ a b => .prime ⟨0, false⟩ a b
  | .fork _ d a b fn => .fork ⟨0, false⟩ d a b fn
  | .join _ d => .join ⟨0, false⟩ d
  | .twait _ d a eng seq20 => .twait ⟨0, false⟩ d a eng seq20
  | .qcancel _ mask => .qcancel ⟨0, false⟩ mask
  | .tset _ a tid word => .tset ⟨0, false⟩ a tid word
  | .tget _ d tid word => .tget ⟨0, false⟩ d tid word
  | .patw _ a pat => .patw ⟨0, false⟩ a pat
  | .patr _ d pat => .patr ⟨0, false⟩ d pat
  | .shpw _ a sh word => .shpw ⟨0, false⟩ a sh word
  | .shpr _ d sh word => .shpr ⟨0, false⟩ d sh word
  | .bar _ scope bid => .bar ⟨0, false⟩ scope bid
  | .barr _ a b scope bid rop rtype => .barr ⟨0, false⟩ a b scope bid rop rtype
  | .launch _ d a => .launch ⟨0, false⟩ d a
  | .add _ d a b => .add ⟨0, false⟩ d a b
  | .sub _ d a b => .sub ⟨0, false⟩ d a b
  | .and _ d a b => .and ⟨0, false⟩ d a b
  | .or _ d a b => .or ⟨0, false⟩ d a b
  | .xor _ d a b => .xor ⟨0, false⟩ d a b
  | .andn _ d a b => .andn ⟨0, false⟩ d a b
  | .shl _ d a b => .shl ⟨0, false⟩ d a b
  | .shr _ d a b => .shr ⟨0, false⟩ d a b
  | .sar _ d a b => .sar ⟨0, false⟩ d a b
  | .min _ uns d a b => .min ⟨0, false⟩ uns d a b
  | .max _ uns d a b => .max ⟨0, false⟩ uns d a b
  | .mul _ d a b => .mul ⟨0, false⟩ d a b
  | .mulh _ uns d a b => .mulh ⟨0, false⟩ uns d a b
  | .div _ uns d a b => .div ⟨0, false⟩ uns d a b
  | .rem _ uns d a b => .rem ⟨0, false⟩ uns d a b
  | .csel _ d a b p pn => .csel ⟨0, false⟩ d a b p pn
  | .addi _ d a imm => .addi ⟨0, false⟩ d a imm
  | .andi _ d a imm => .andi ⟨0, false⟩ d a imm
  | .ori _ d a imm => .ori ⟨0, false⟩ d a imm
  | .xori _ d a imm => .xori ⟨0, false⟩ d a imm
  | .shli _ d a sh => .shli ⟨0, false⟩ d a sh
  | .shri _ d a sh => .shri ⟨0, false⟩ d a sh
  | .sari _ d a sh => .sari ⟨0, false⟩ d a sh
  | .limm _ d imm => .limm ⟨0, false⟩ d imm
  | .limmh _ d imm => .limmh ⟨0, false⟩ d imm
  | .bfx _ d a pos lenm1 sx => .bfx ⟨0, false⟩ d a pos lenm1 sx
  | .bfi _ d a pos lenm1 => .bfi ⟨0, false⟩ d a pos lenm1
  | .rev _ d a bytes => .rev ⟨0, false⟩ d a bytes
  | .clz _ d a => .clz ⟨0, false⟩ d a
  | .ctz _ d a => .ctz ⟨0, false⟩ d a
  | .popc _ d a => .popc ⟨0, false⟩ d a
  | .clmul _ hi d a b => .clmul ⟨0, false⟩ hi d a b
  | .plog _ pd pa pb tt => .plog ⟨0, false⟩ pd pa pb tt
  | .psave _ d => .psave ⟨0, false⟩ d
  | .pload _ a pmask => .pload ⟨0, false⟩ a pmask
  | .fadd _ d a b => .fadd ⟨0, false⟩ d a b
  | .fsub _ d a b => .fsub ⟨0, false⟩ d a b
  | .fmul _ d a b => .fmul ⟨0, false⟩ d a b
  | .ffma _ d a b => .ffma ⟨0, false⟩ d a b
  | .fmin _ d a b => .fmin ⟨0, false⟩ d a b
  | .fmax _ d a b => .fmax ⟨0, false⟩ d a b
  | .fcvt _ d a fn => .fcvt ⟨0, false⟩ d a fn
  | .ld _ d a x cls sz sx off => .ld ⟨0, false⟩ d a x cls sz sx off
  | .st _ d a x cls sz off => .st ⟨0, false⟩ d a x cls sz off
  | .lda _ d a x cls scope sz sx mask off => .lda ⟨0, false⟩ d a x cls scope sz sx mask off
  | .stl _ d a x cls scope sz mask off => .stl ⟨0, false⟩ d a x cls scope sz mask off
  | .pref _ a x off => .pref ⟨0, false⟩ a x off
  | .fence _ before after scope => .fence ⟨0, false⟩ before after scope
  | .prepr _ j a => .prepr ⟨0, false⟩ j a
  | .ret _ => .ret ⟨0, false⟩
  | .jget _ d j => .jget ⟨0, false⟩ d j
  | .jclr _ j => .jclr ⟨0, false⟩ j
  | .prep j _ _ off => .prep j 0 false off
  | .xfer j _ _ => .xfer j 0 false
  | .xcall j _ _ => .xcall j 0 false
  | i => i

/-- The destination of an instruction that writes one G register and nothing else but the PC. -/
def Instr.writesReg : Instr → Option (BitVec 5)
  | .spget _ d _ | .tget _ d .. | .patr _ d _ | .shpr _ d .. | .add _ d .. | .sub _ d .. | .and _ d .. | .or _ d ..
  | .xor _ d .. | .andn _ d .. | .shl _ d .. | .shr _ d .. | .sar _ d .. | .min _ _ d .. | .max _ _ d .. | .mul _ d ..
  | .mulh _ _ d .. | .div _ _ d .. | .rem _ _ d .. | .csel _ d .. | .addi _ d .. | .andi _ d .. | .ori _ d ..
  | .xori _ d .. | .shli _ d .. | .shri _ d .. | .sari _ d .. | .limm _ d _ | .limmh _ d _ | .bfx _ d .. | .bfi _ d ..
  | .rev _ d .. | .clz _ d _ | .ctz _ d _ | .popc _ d _ | .clmul _ _ d .. | .psave _ d | .fadd _ d .. | .fsub _ d ..
  | .fmul _ d .. | .ffma _ d .. | .fmin _ d .. | .fmax _ d .. | .fcvt _ d .. | .jget _ d _ => some d
  | _ => none

end Sys2Proof

namespace Sys2Proof.Machine

/-! ### What stays the same -/

/-- The special registers and the status bits of the control core, PC and the model's own `ir` and `waiting` apart. -/
def Ctl.sameSpecial (c d : Ctl) : Prop :=
  c.ssp = d.ssp ∧ c.ssl = d.ssl ∧ c.step = d.step ∧ c.phys = d.phys ∧ c.degr = d.degr ∧ c.timed = d.timed
    ∧ c.frame = d.frame ∧ c.framecnt = d.framecnt ∧ c.tasktime = d.tasktime ∧ c.pending = d.pending

/-- The operand registers, the engines, the generators, the hidden flags and the identity of a task. -/
def Task.sameUnits (t u : Task) : Prop :=
  t.t = u.t ∧ t.pat = u.pat ∧ t.sh = u.sh ∧ t.m = u.m ∧ t.f = u.f ∧ t.s = u.s ∧ t.flags = u.flags
    ∧ t.wbValid = u.wbValid ∧ t.drainGen = u.drainGen ∧ t.flumeGen = u.flumeGen ∧ t.sluGen = u.sluGen ∧ t.lid = u.lid
    ∧ t.lcn = u.lcn ∧ t.gsize = u.gsize ∧ t.gcount = u.gcount ∧ t.argptr = u.argptr

/-- The other cores, the launches, the bindings and the partitions. -/
def State.sameOutside (s t : State) : Prop :=
  t.rest = s.rest ∧ t.parts = s.parts ∧ t.launches = s.launches ∧ t.gangs = s.gangs ∧ t.binds = s.binds
    ∧ t.arrivals = s.arrivals ∧ t.left = s.left ∧ t.departs = s.departs ∧ t.iinvs = s.iinvs ∧ t.saved = s.saved ∧ t.power = s.power
    ∧ t.cur.slot = s.cur.slot ∧ t.cur.pcore = s.cur.pcore

/-- Every byte of every store reads as before. -/
def State.sameBytes (s t : State) : Prop := ∀ sp a, t.rdByte sp a = s.rdByte sp a

/-- All that an instruction of the control core leaves alone when it writes at most G[d], the PC and the fault records. -/
def State.sameBut (s t : State) (d : BitVec 5) : Prop :=
  (∀ r, r ≠ d → t.getG r = s.getG r) ∧ t.ctl.p = s.ctl.p ∧ t.ctl.j = s.ctl.j ∧ t.ctl.sameSpecial s.ctl
    ∧ t.task.sameUnits s.task ∧ s.sameOutside t ∧ s.sameBytes t

/-- Where in the package a store of core `c`'s task lies: memory, or a store of a core. -/
def State.holders (s : State) (c : Core) (sp : Space) : List (Nat × Space) :=
  match sp with
  | .mem => [(0, .mem)]
  | .far n =>
    if n = c.task.lcn then [(c.pcore, .scr)]
    else (s.cores.filter fun x => x.holdsTask c.task.lid n).map fun x => (x.pcore, .scr)
  | k => [(c.pcore, k)]

/-- The command has more to do than its byte writes: an update, a fold, or cells of the weight buffer. -/
def Flight.hasOp (f : Flight) : Bool :=
  match f.op with | .slu _ => true | .fold _ => true | .weight .. => true | _ => false

/-- An engine that has a command in flight which was issued in elastic mode, or which a load has seen early, is still to write this
byte, or has an update, a fold, a fill or a request in flight: a read may find the old or the new value (R23, R88, R157). -/
def State.inFlightAt (s : State) (sp : Space) (a : Nat) : Prop :=
  ∃ c ∈ s.cores, ∃ e, (∃ x ∈ (c.task.eng e).flight, x.timed = false ∨ x.seen ≠ []) ∧
    ((∃ f ∈ (c.task.eng e).flight, f.hasOp = true) ∨ (c.task.eng e).reqs ≠ [] ∨
      ∃ f ∈ (c.task.eng e).flight, ∃ w ∈ f.writes, w.mask ≠ 0 ∧ w.at_ = a ∧
        ∃ h ∈ s.holders c w.sp, h ∈ s.holders s.cur sp)

/-- Every byte reads as before, but where an effect in flight may have shown. -/
def State.sameBytesOrShown (s t : State) : Prop := ∀ sp a, t.rdByte sp a = s.rdByte sp a ∨ s.inFlightAt sp a

/-- What `sameBut` says of an instruction that reads a store: an effect in flight that its read finds stays, and with nothing
in flight there is none. -/
def State.sameButFlights (s t : State) (d : BitVec 5) : Prop :=
  (∀ r, r ≠ d → t.getG r = s.getG r) ∧ t.ctl.p = s.ctl.p ∧ t.ctl.j = s.ctl.j ∧ t.ctl.sameSpecial s.ctl
    ∧ t.task.t = s.task.t ∧ t.task.pat = s.task.pat ∧ t.task.sh = s.task.sh ∧ t.parts = s.parts
    ∧ t.launches = s.launches ∧ t.binds = s.binds ∧ s.sameBytesOrShown t ∧ (s.still → s.sameBut t d)

/-- `u` is `s` but for the translations that core and die hold, the held words and the counter of free choices. -/
def State.heldOnly (s u : State) : Prop :=
  ∃ tl ic n xl, u = { s.withTask { s.task with tlb := tl, icache := ic } with fresh := n, xlat := xl }

/-- The byte of a store that a location of a core is: the core's own number in the remote window is its scratchpad (R75). -/
def State.place (s : State) (sp : Space) (a : Nat) : Space × Nat :=
  match sp with
  | .far n => if n = s.task.lcn then (.scr, a) else (.far n, a)
  | sp => (sp, a)

/-- Every byte but the `n` bytes from `a` of store `sp` reads as before. -/
def State.sameBytesBut (s t : State) (sp : Space) (a n : Nat) : Prop :=
  ∀ sp' a', (∀ k, k < n → s.place sp' a' ≠ s.place sp (a + k)) → t.rdByte sp' a' = s.rdByte sp' a'

/-- The address of a load or store: (G[A] + (G[X] << SZ) + offset) mod 2^64 (R151). -/
def State.addressOf (s : State) (a x : BitVec 5) (sz : BitVec 2) (off : Int) : Nat :=
  (((s.getG a).toNat + (s.getG x).toNat * 2 ^ sz.toNat + off) % 2 ^ 64).toNat

/-- The `n` bytes from `a` of a store as a little-endian number (R6, R151). -/
def State.littleEndian (s : State) (sp : Space) (a n : Nat) : Nat :=
  leNat ((List.range n).map fun k => s.rdByte sp (a + k))

/-- The instruction waits and is executed again (R126). -/
def State.waits (s : State) : State := s.withCtl { s.ctl with waiting := true }

/-! ### Commands of the engines -/

/-- The head command `q` of engine `e` may issue now on resource `r`, to land `lat` cycles later: its frame has started,
its stamp is reached, its waits are met, the resource and its token slot are free, and in a timed frame it lands below 2^20
(R19, R23, R25, R26). -/
def State.mayGo (s : State) (e : EngId) (h : CmdHead) (r : Res) (lat : Nat) (q : QEnt) : Prop :=
  s.ready e h r lat = .go ∧ (s.eng e).head = some q

/-- The command `i` of engine `e` with head `h` has issued at entry `q` on resource `r`, after the immediate effects `u`:
it is numbered and stamped, its token stands in its slot, and its flight lands `k.lat` cycles from now (R13, R17, R20, R24).
In a timed frame one that meets a fault at an element stops at once (log entry 65). -/
def State.issuedAs (u : State) (e : EngId) (h : CmdHead) (r : Res) (q : QEnt) (k : Cost) (i : Issued) : State :=
  (u.setEng e ((u.eng e).issued h q r k i)).stopNow e

/-- The pages of a walk and what each of them is translated to (R79 to R81). -/
def State.maps (s : State) (k : Acc) (timed : Bool) (ps : List Nat) (m : PageMap) : Prop :=
  m.map (·.1) = ps ∧
    ∀ p ∈ m, p.1 * 2 ^ 16 < 2 ^ 56 → p.2.cur = s.judge (p.1 * 2 ^ 16) k timed (s.walk (p.1 * 2 ^ 16))

/-- Values converted one after the other, each with the lane of its element's number: the codes, and the lanes after them
(R71, R231, R238). -/
def drawn (F : Fmt) (sr sat : Bool) : List (Nat × Num) → Sparse (BitVec 32) → List Nat × Sparse (BitVec 32)
  | [], g => ([], g)
  | (e, x) :: t, g =>
    let r := convert F sr sat x (spGet seedZero g (e % 128))
    let (cs, g) := drawn F sr sat t (spSet seedZero g (e % 128) r.gen)
    (r.code :: cs, g)

/-- What a flume command sees and where it writes: its sources as they stand at issue, and the translations of the pages that
its elements read and write. -/
def State.flumeSees (s : State) (op : FluOp) (env out : Env) : Prop :=
  let r := s.asRead .flume
  let runs := op.plan.flatMap (·.runs)
  env.s = r.elsewhere ∧ out.s = r.elsewhere ∧
    r.maps .load (s.eng .flume).strict (pagesOf (runs.filter (!·.store))) env.pages ∧
    r.maps op.kind.acc (s.eng .flume).strict (pagesOf (runs.filter (·.store))) out.pages

/-- The value that element (i, c) of a row source gives element (j, c) of slot c: scaled, and divided by that element's scale
(R72). -/
def FluOp.value (op : FluOp) (env : Env) (v : View) (i j c : Nat) : Num :=
  let x := env.scaled v op.sa i c (env.code v i c)
  if op.c.t.sen then x.unscale (decodeNum op.sc.fmt (env.scaleCode op.c op.sc j c)) else x

/-- The code that a value gets with the draw of a lane whose state is free. -/
def FluOp.rounds (op : FluOp) (x : Num) (code : Nat) : Prop :=
  ∃ g, code = (convert op.c.t.fmt op.c.t.sr op.c.t.sat x g).code

/-- `ws` is what moving rows writes, each given as its source, its row there and its row in slot c, and `g'` the lanes after
it: the bits are copied where nothing converts, else every element draws in its order (R71, R231, R238). -/
def FluOp.moves (op : FluOp) (env out : Env) (rows : List (View × Nat × Nat)) (g g' : Sparse (BitVec 32))
    (ws : List BWrite) : Prop :=
  let C := op.c.t.cols
  let els := rows.flatMap fun p => (List.range C).map fun c => (p, c)
  (verbatim op.a.t op.c.t = true → g' = g ∧
    ws = els.flatMap fun x => op.put out x.1.2.2 x.2 (env.code x.1.1 x.1.2.1 x.2)) ∧
  (verbatim op.a.t op.c.t = false → ∃ cs,
    drawn op.c.t.fmt op.c.t.sr op.c.t.sat
      (els.map fun x => (x.1.2.2 * C + x.2, op.value env x.1.1 x.1.2.1 x.1.2.2 x.2)) g = (cs, g') ∧
    ws = (els.zip cs).flatMap fun y => op.put out y.1.1.2.2 y.1.2 y.2)

/-- A view of the register space or the scratchpad whose elements have bits of their own, at or above address 0. -/
def View.apart (v : View) : Prop :=
  v.t.kind ≠ 3 ∧ (v.t.space = .reg ∨ v.t.space = .scr) ∧
    (∀ e, e < v.t.rows * v.t.cols → 0 ≤ v.bitAt (e / v.t.cols) (e % v.t.cols)) ∧
    ∀ e, e < v.t.rows * v.t.cols → ∀ f, f < v.t.rows * v.t.cols → e ≠ f →
      v.bitAt (e / v.t.cols) (e % v.t.cols) + (v.w : Nat) ≤ v.bitAt (f / v.t.cols) (f % v.t.cols) ∨
        v.bitAt (f / v.t.cols) (f % v.t.cols) + (v.w : Nat) ≤ v.bitAt (e / v.t.cols) (e % v.t.cols)

/-- The frame cycle of a state's engine has reached the stamp of the head command (R17; 48 bits wide, log entry 64). -/
def State.stampReached (s : State) (e : EngId) (q : QEnt) : Prop :=
  (s.eng e).nextStamp (idleOf q.word) ≤ (s.eng e).cnt

end Sys2Proof.Machine
end

