-- ==== Sys2Proof/Certificates/Slice0/Obligations.lean ====
section
/-! DEFINITION. The statements for the provers. Each docstring names the rules that its statement rests on. -/

open Sys2Proof Sys2Proof.Machine

/-! ### Encodings, one step, and the machine as a whole -/

/-- Words that the spec writes out decode to the instruction they stand for: of the control core (R132, R139, R159, R160,
R166, R171, R174) and of the engines (R14, R15, R35; R196 for MMA, R256 for PUTR). -/
def Obligations.SpecWordsDecode : Prop :=
  decodeControl 0x3029801FFFFFFF00 = .ok (.addi ⟨0, false⟩ 5 6 (-8)) ∧
  decodeControl 0x503F800418000010 = .ok (.ld ⟨0, false⟩ 7 30 0 2 3 false 16) ∧
  decodeControl 0x4028802800000320 = .ok (.cmp 1 2 4 (.imm 100) 2) ∧
  decodeControl 0x6040000000000004 = .ok (.prep 2 0 false 4) ∧
  decodeControl 0x5500000000800104 = .ok (.fence ⟨0, false⟩ 4 8 1) ∧
  decodeControl 0x3708_0002_468A_CF00 = .ok (.limm ⟨0, false⟩ 1 0x12345678) ∧
  decodeControl 0x6380000000000000 = .ok (.xcall 4 0 false) ∧
  decodeControl 0x0818_4000_A000_0000 = .ok (.fork ⟨0, false⟩ 3 1 0 5) ∧
  decodeControl 0x02000001C0200000 = .ok (.trap ⟨0, false⟩ 0x0E01) ∧
  decodeControl 0x1301_0A08_7100_0000 = .ok (.barr ⟨0, false⟩ 4 5 2 7 0 4) ∧
  decodeEngine .matrix 0x1FC020C180414900
    = .ok (.mma ⟨127, ⟨1, 0⟩, ⟨3, 0⟩, ⟨3, 0⟩⟩ 4 5 9 0 false false false) ∧
  decodeEngine .flume 0x000360C180400C40 = .ok (.putr ⟨0, ⟨3, 0⟩, ⟨3, 0⟩, ⟨3, 0⟩⟩ 4 12 1) ∧
  decodeEngine .sluice 0x0039E0C180000000 = .ok (.endStream .sluice ⟨0, ⟨3, 0⟩, ⟨3, 0⟩, ⟨3, 0⟩⟩)

/-- Decoding what is encoded gives the instruction back: no bit of an encoding is dropped (R14, R129 to R134). -/
def Obligations.DecodeInvertsEncode : Prop :=
  ∀ i : Instr, i.wf = true →
    match i.agent with
    | some .control => encode i < 2 ^ 64 ∧ decodeControl (encode i) = .ok i ∧ decodeTableWord 64 (encode i) = some i
    | some (.engine e) => encode i < 2 ^ 64 ∧ decodeEngine e (encode i) = .ok i
    | none => True

/-- A word has at most one reading and every bit of it counts: what a word decodes to is well formed, belongs to the
decoder's stream and encodes to that word (R132: reserved fields are zero). -/
def Obligations.EncodeInvertsDecode : Prop :=
  ∀ w : Nat, w < 2 ^ 64 →
    (∀ i, decodeControl w = .ok i → i.wf = true ∧ i.agent = some .control ∧ encode i = w) ∧
    ∀ e i, decodeEngine e w = .ok i → i.wf = true ∧ i.agent = some (.engine e) ∧ encode i = w

/-- A step at a control core runs the instruction that the word fetched at PC decodes to, and a word that does not decode
raises ILLEGAL; the word is the eight bytes at PC, as every agent finds them (R85), where no instruction cache line holds the
address and the translation is one that a walk gives, or lies like one in its 64 bytes; a step at an engine runs the command at the head of its queue; a step at an event runs the event (R13, R97, R126, R127, R132). The plan of a cycle and
its agenda are the model's (log entry 9), and so is that an instruction which waits is executed again as it was fetched (log
entry 44). -/
def Obligations.StepRunsDecoded : Prop :=
  ∀ (s : State) (m : Move) (rest : List Move), s.agenda = m :: rest →
    (∀ c u, m = .control c → u = State.focus { s with agenda := rest } c → u.canRun = true → u.ctl.waiting = false →
      u.ctl.clo ≤ u.ctl.pc.toNat → u.ctl.pc.toNat < u.ctl.chi →
      ∀ w u', u.fetchWord u.ctl.pc.toNat = (.ok w, u') →
        let x := u'.withCtl { u'.ctl with ir := w }
        (∀ i, decodeControl w.toNat = .ok i → step s = exec i x) ∧
        (∀ e, decodeControl w.toNat = .error e → step s = .next (x.trapHere { code := .illegal }))) ∧
    (∀ (u v : State) (pc pa : Nat), pc % 8 = 0 → u.fetchAt pc = (.ok pa, v) →
      (u.oldLeaf pc = none ∨ pa % 64 = pc % 64) → (∀ x ∈ u.task.icache, x.1 / 64 ≠ pc / 64) →
      ∃ w v', u.fetchWord pc = (.ok w, v') ∧ pa % 64 = pc % 64 ∧ w.toNat = v.beheld.littleEndian .mem pa 8) ∧
    (∀ c u, m = .control c → u = State.focus { s with agenda := rest } c → u.canRun = true → u.ctl.waiting = true →
      ∀ i, decodeControl u.ctl.ir.toNat = .ok i → step s = exec i u) ∧
    (∀ c e u q i, m = .issue c e → u = State.focus { s with agenda := rest } c → (u.eng e).head = some q →
      decodeEngine e q.word.toNat = .ok i → step s = exec i u) ∧
    (∀ c i, m = .event c i → step s = exec i (State.focus { s with agenda := rest } c))

/-- Every step has a next state: no instruction, command or event of the opcode table is refused, and the model stops on
none. Its faults are the device's, which are taken (R304 to R306). -/
def Obligations.EveryStepGoesOn : Prop :=
  (∀ s : State, s.steps) ∧ ∀ (i : Instr) (s : State), ∃ t, exec i s = .next t

/-- Every step keeps the stores of every task and physical memory in canonical form, lists no core twice and the cores out of
focus in their order, and keeps bits [2:0] of PC and of every TADDR 0 (R117, R119), from any state that has these properties,
whether or not a run reaches it. The canonical form and the order are the model's; they make equal packages equal data. -/
def Obligations.StepKeepsInvariants : Prop :=
  ∀ s t : State, step s = .next t →
    (s.canonical → t.canonical) ∧ (s.distinct → t.distinct) ∧ (s.ordered → t.ordered) ∧ (s.aligned → t.aligned)

/-- The package at reset: it has not booted (R322), no core holds a task, no launch or binding stands, memory lists
nothing, and the properties that every step keeps hold. Where the spec gives no value, zero is the model's choice (log
entries 1, 6 and 7). -/
def Obligations.ResetState : Prop :=
  State.reset.canonical ∧ State.reset.distinct ∧ State.reset.ordered ∧ State.reset.aligned ∧
  State.reset.boot = .off ∧ State.reset.mem = [] ∧ State.reset.rest = [] ∧ State.reset.cur.slot = .empty ∧
  State.reset.cur.staged = .empty ∧ State.reset.launches = [] ∧ State.reset.binds = [] ∧ State.reset.parts = [] ∧
  State.reset.power = .s0 ∧ State.reset.weir = [] ∧ State.reset.ctl.framecnt = 0 ∧ State.reset.ctl.tasktime = 0 ∧
  State.reset.ctl.pending = 0 ∧ State.reset.ctl.frame = false ∧ State.reset.ctl.timed = false ∧
  State.reset.ctl.degr = false ∧ (∀ r, State.reset.getG r = 0) ∧ (∀ i, State.reset.getP i = (i == 0)) ∧
  (∀ j, (State.reset.ctl.getJ j).st = .empty) ∧ (∀ sp a, State.reset.rdByte sp a = 0)

/-! ### Control core: arithmetic -/

/-- ADD, SUB, MUL, MULH, MIN and MAX complete with the value of R136's table, computed in the integers and narrowed;
a write to G0 is discarded, and a squashed instruction only retires. -/
def Obligations.IntegerArithmetic : Prop :=
  ∀ (s : State) (q : Qual) (d a b : BitVec 5),
    let x := s.getG a
    let y := s.getG b
    exec (.add q d a b) s = .next (s.writes q d (BitVec.ofInt 64 (x.toInt + y.toInt))) ∧
    exec (.sub q d a b) s = .next (s.writes q d (BitVec.ofInt 64 (x.toInt - y.toInt))) ∧
    exec (.mul q d a b) s = .next (s.writes q d (BitVec.ofInt 64 (x.toInt * y.toInt))) ∧
    exec (.mulh q false d a b) s = .next (s.writes q d (BitVec.ofInt 64 (x.toInt * y.toInt / 2 ^ 64))) ∧
    exec (.mulh q true d a b) s = .next (s.writes q d (BitVec.ofNat 64 (x.toNat * y.toNat / 2 ^ 64))) ∧
    exec (.min q false d a b) s = .next (s.writes q d (BitVec.ofInt 64 (min x.toInt y.toInt))) ∧
    exec (.min q true d a b) s = .next (s.writes q d (BitVec.ofNat 64 (min x.toNat y.toNat))) ∧
    exec (.max q false d a b) s = .next (s.writes q d (BitVec.ofInt 64 (max x.toInt y.toInt))) ∧
    exec (.max q true d a b) s = .next (s.writes q d (BitVec.ofNat 64 (max x.toNat y.toNat)))

/-- AND, OR, XOR, ANDN, SHL, SHR, SAR and CSEL complete with the value of R136's and R141's tables, bit by bit; the
amount of a shift is its low six bits, and SAR shifts in copies of bit 63. -/
def Obligations.LogicShiftSelect : Prop :=
  ∀ (s : State) (q : Qual) (d a b : BitVec 5),
    let x := s.getG a
    let y := s.getG b
    let n := y.toNat % 64
    (∃ v, exec (.and q d a b) s = .next (s.writes q d v) ∧ ∀ i, v.getLsbD i = (x.getLsbD i && y.getLsbD i)) ∧
    (∃ v, exec (.or q d a b) s = .next (s.writes q d v) ∧ ∀ i, v.getLsbD i = (x.getLsbD i || y.getLsbD i)) ∧
    (∃ v, exec (.xor q d a b) s = .next (s.writes q d v) ∧ ∀ i, v.getLsbD i = (x.getLsbD i != y.getLsbD i)) ∧
    (∃ v, exec (.andn q d a b) s = .next (s.writes q d v) ∧
      ∀ i, i < 64 → v.getLsbD i = (x.getLsbD i && !y.getLsbD i)) ∧
    (∃ v, exec (.shl q d a b) s = .next (s.writes q d v) ∧
      ∀ i, i < 64 → v.getLsbD i = (decide (n ≤ i) && x.getLsbD (i - n))) ∧
    (∃ v, exec (.shr q d a b) s = .next (s.writes q d v) ∧
      ∀ i, i < 64 → v.getLsbD i = (decide (i + n < 64) && x.getLsbD (i + n))) ∧
    (∃ v, exec (.sar q d a b) s = .next (s.writes q d v) ∧
      ∀ i, i < 64 → v.getLsbD i = x.getLsbD (min (i + n) 63)) ∧
    ∀ p pn, exec (.csel q d a b p pn) s = .next (s.writes q d (if (s.getP p != pn) = true then x else y))

/-- DIV and REM never fault: a zero divisor gives all ones and x; otherwise the quotient is truncated toward zero, the
remainder takes the sign of x, and DIV × y + REM = x modulo 2^64 (R137). -/
def Obligations.DivisionNeverFaults : Prop :=
  ∀ (s : State) (q : Qual) (uns : Bool) (d a b : BitVec 5),
    let x := s.getG a
    let y := s.getG b
    ∃ v r, exec (.div q uns d a b) s = .next (s.writes q d v) ∧ exec (.rem q uns d a b) s = .next (s.writes q d r) ∧
      (y = 0 → v = 0xFFFFFFFFFFFFFFFF#64 ∧ r = x) ∧
      (y ≠ 0 → v * y + r = x) ∧
      (y ≠ 0 → uns = true → v.toNat = x.toNat / y.toNat ∧ r.toNat = x.toNat % y.toNat) ∧
      (y ≠ 0 → uns = false → v = BitVec.ofInt 64 (x.toInt.tdiv y.toInt) ∧ r.toInt = x.toInt.tmod y.toInt) ∧
      (uns = false → x = 0x8000000000000000#64 → y = 0xFFFFFFFFFFFFFFFF#64 → v = 0x8000000000000000#64 ∧ r = 0)

/-- The CI instructions take sext(IMM32, 32), or the shift amount, in place of G[B] and otherwise do what the CR
instruction of the same name does with a register that holds that value; LIMM and LIMMH load constants, LIMMH over
G[D][31:0] (R138, R139). -/
def Obligations.ImmediateInstructions : Prop :=
  ∀ (s : State) (q : Qual) (d a : BitVec 5) (imm : BitVec 32) (sh : BitVec 6),
    let x := s.getG a
    let k : Int := imm.toInt
    exec (.addi q d a imm) s = .next (s.writes q d (BitVec.ofInt 64 (x.toInt + k))) ∧
    exec (.andi q d a imm) s = .next (s.writes q d (x &&& BitVec.ofInt 64 k)) ∧
    exec (.ori q d a imm) s = .next (s.writes q d (x ||| BitVec.ofInt 64 k)) ∧
    exec (.xori q d a imm) s = .next (s.writes q d (x ^^^ BitVec.ofInt 64 k)) ∧
    exec (.shli q d a sh) s = .next (s.writes q d (BitVec.ofNat 64 (x.toNat * 2 ^ sh.toNat))) ∧
    exec (.shri q d a sh) s = .next (s.writes q d (BitVec.ofNat 64 (x.toNat / 2 ^ sh.toNat))) ∧
    exec (.sari q d a sh) s = .next (s.writes q d (BitVec.ofInt 64 (x.toInt / 2 ^ sh.toNat))) ∧
    exec (.limm q d imm) s = .next (s.writes q d (BitVec.ofInt 64 k)) ∧
    exec (.limmh q d imm) s
      = .next (s.writes q d (BitVec.ofNat 64 (imm.toNat * 2 ^ 32 + (s.getG d).toNat % 2 ^ 32)))

/-- BFX extracts and BFI inserts the field of LENM1 + 1 bits at POS, for every field that ends at bit 63 or below; REV
reverses bits or bytes (R140, R141). -/
def Obligations.BitFieldInstructions : Prop :=
  ∀ (s : State) (q : Qual) (d a : BitVec 5) (pos lenm1 : BitVec 6), pos.toNat + lenm1.toNat + 1 ≤ 64 →
    let x := s.getG a
    let p := pos.toNat
    let n := lenm1.toNat + 1
    (∃ v, exec (.bfx q d a pos lenm1 false) s = .next (s.writes q d v) ∧
      ∀ i, i < 64 → v.getLsbD i = (decide (i < n) && x.getLsbD (p + i))) ∧
    (∃ v, exec (.bfx q d a pos lenm1 true) s = .next (s.writes q d v) ∧
      ∀ i, i < 64 → v.getLsbD i = x.getLsbD (p + min i (n - 1))) ∧
    (∃ v, exec (.bfi q d a pos lenm1) s = .next (s.writes q d v) ∧
      ∀ i, i < 64 → v.getLsbD i = if p ≤ i ∧ i < p + n then x.getLsbD (i - p) else (s.getG d).getLsbD i) ∧
    (∃ v, exec (.rev q d a false) s = .next (s.writes q d v) ∧ ∀ i, i < 64 → v.getLsbD i = x.getLsbD (63 - i)) ∧
    (∃ v, exec (.rev q d a true) s = .next (s.writes q d v) ∧
      ∀ i, i < 64 → v.getLsbD i = x.getLsbD (8 * (7 - i / 8) + i % 8))

/-- CLZ, CTZ and POPC count, with 64 for x = 0 in CLZ and CTZ; CLMUL gives the low or the high half of the carry-less
product (R141). -/
def Obligations.BitCountsAndCarryless : Prop :=
  ∀ (s : State) (q : Qual) (d a b : BitVec 5),
    let x := s.getG a
    let y := s.getG b
    (∃ n : Nat, n ≤ 64 ∧ exec (.clz q d a) s = .next (s.writes q d (BitVec.ofNat 64 n)) ∧
      (∀ i, 64 - n ≤ i → i < 64 → x.getLsbD i = false) ∧ (n < 64 → x.getLsbD (63 - n) = true)) ∧
    (∃ n : Nat, n ≤ 64 ∧ exec (.ctz q d a) s = .next (s.writes q d (BitVec.ofNat 64 n)) ∧
      (∀ i, i < n → x.getLsbD i = false) ∧ (n < 64 → x.getLsbD n = true)) ∧
    exec (.popc q d a) s
      = .next (s.writes q d (BitVec.ofNat 64 ((List.range 64).filter fun i => x.getLsbD i).length)) ∧
    (∃ lo hi : Word, exec (.clmul q false d a b) s = .next (s.writes q d lo) ∧
      exec (.clmul q true d a b) s = .next (s.writes q d hi) ∧ hi.getLsbD 63 = false ∧
      ∀ i, i < 64 →
        lo.getLsbD i = ((List.range (i + 1)).foldl (fun r j => r != (x.getLsbD j && y.getLsbD (i - j))) false) ∧
        hi.getLsbD i
          = ((List.range 64).foldl (fun r j => r != (x.getLsbD j && decide (j ≤ i + 64) && y.getLsbD (i + 64 - j)))
              false))

/-- The truth of the condition COND of CMP, of R142's table. -/
def Obligations.CompareConditions : Prop :=
  ∀ (s : State) (pd pc : BitVec 3) (a : BitVec 5) (rhs : CmpRhs) (cond : BitVec 4), cond.toNat ≤ 11 →
    let x := s.getG a
    let y : Word := match rhs with | .reg b => s.getG b | .imm v => BitVec.ofInt 64 v.toInt
    ∃ c : Bool, exec (.cmp pd pc a rhs cond) s
        = .next (State.retired (if pc = 0 then s.setP pd c else (s.setP pd c).setP pc (!c)) (s.ctl.pc + 8)) ∧
      (c = true ↔
        match cond.toNat with
        | 0 => x = y | 1 => x ≠ y
        | 2 => x.toInt < y.toInt | 3 => x.toInt ≥ y.toInt | 4 => x.toNat < y.toNat | 5 => x.toNat ≥ y.toNat
        | 6 => x.toInt ≤ y.toInt | 7 => x.toInt > y.toInt | 8 => x.toNat ≤ y.toNat | 9 => x.toNat > y.toNat
        | 10 => x &&& y ≠ 0 | _ => x &&& y = 0)

/-- PLOG writes the bit of its truth table that its two sources choose; PSAVE reads the predicates with bit 0 set; PLOAD
writes the chosen ones; P0 always reads 1 and a write to it is discarded (R117, R144 to R146). -/
def Obligations.PredicateInstructions : Prop :=
  ∀ (s : State) (q : Qual),
    (∀ pd pa pb tt, exec (.plog q pd pa pb tt) s
      = .next (s.completes q (s.setP pd (tt.getLsbD (2 * b2n (s.getP pa) + b2n (s.getP pb)))))) ∧
    (∀ d, ∃ v : Word, exec (.psave q d) s = .next (s.writes q d v) ∧
      v.getLsbD 0 = true ∧ (∀ i : BitVec 3, v.getLsbD i.toNat = s.getP i) ∧ ∀ i, 8 ≤ i → v.getLsbD i = false) ∧
    (∀ a (mask : BitVec 8), mask.getLsbD 0 = false →
      ∃ u : State, exec (.pload q a mask) s = .next (s.completes q u) ∧
        (∀ i : BitVec 3, u.getP i = if mask.getLsbD i.toNat then (s.getG a).getLsbD i.toNat else s.getP i) ∧
        u = s.withCtl { s.ctl with p := u.ctl.p }) ∧
    ∀ i v, (s.setP i v).getP 0 = true ∧ (i ≠ 0 → (s.setP i v).getP i = v) ∧
      ∀ j, j ≠ i → (s.setP i v).getP j = s.getP j

/-! ### Control core: FP32 -/

/-- FADD, FSUB, FMUL and FFMA complete with the exact result of their operands' low 32 bits, rounded once by RNE,
zero-extended; any NaN operand and an invalid operation give 0x7FC0_0000 (R147, R148). -/
def Obligations.FloatArithmetic : Prop :=
  ∀ (s : State) (q : Qual) (d a b : BitVec 5),
    let x := f32 (s.getG a).toNat
    let y := f32 (s.getG b).toNat
    let z := f32 (s.getG d).toNat
    let good (nan : Bool) (e : Machine.Num) (r : Nat) : Prop :=
      r < 2 ^ 32 ∧ (nan = true → r = 0x7FC00000) ∧ (e.isNan = true → r = 0x7FC00000) ∧ (e.isNan = false → r = rne32 e)
    (∃ r, exec (.fadd q d a b) s = .next (s.writes q d (BitVec.ofNat 64 r)) ∧ good (x.isNan || y.isNan) (x.add y) r) ∧
    (∃ r, exec (.fsub q d a b) s = .next (s.writes q d (BitVec.ofNat 64 r)) ∧
      good (x.isNan || y.isNan) (x.add y.negate) r) ∧
    (∃ r, exec (.fmul q d a b) s = .next (s.writes q d (BitVec.ofNat 64 r)) ∧ good (x.isNan || y.isNan) (x.mul y) r) ∧
    ∃ r, exec (.ffma q d a b) s = .next (s.writes q d (BitVec.ofNat 64 r)) ∧
      good (x.isNan || y.isNan || z.isNan) ((x.mul y).add z) r

/-- Reading a binary32 code and rounding it again gives it back: subnormals, infinities and both zeros included; a NaN
excepted (R57, R60, R147). -/
def Obligations.RoundingKeepsExactValues : Prop :=
  ∀ c : Nat, c < 2 ^ 32 → (f32 c).isNan = false → rne32 (f32 c) = c

/-- FMIN and FMAX return one of their operands bit for bit; one NaN operand gives the other operand, two give
0x7FC0_0000; otherwise no operand orders before (after) the result, −0 standing below +0. FCMP writes the predicates as
CMP does, by the table of R143; FCVT converts by the table of R150: an integer to FP32 by RNE, FP32 to the nearest integer,
ties to even, saturating, NaN to 0, FP32 to BF16 by RNE, whose bits are the sum shown, and BF16 to FP32 exactly (R143, R149,
R150). -/
def Obligations.FloatSelectCompareConvert : Prop :=
  (∀ (s : State) (q : Qual) (d a b : BitVec 5),
    let m := (s.getG a).toNat % 2 ^ 32
    let n := (s.getG b).toNat % 2 ^ 32
    let before (x y : Nat) : Prop :=
      (f32 x).lt (f32 y) = true ∨ (x = 0x80000000 ∧ y = 0)
    ∃ lo hi, exec (.fmin q d a b) s = .next (s.writes q d (BitVec.ofNat 64 lo)) ∧
      exec (.fmax q d a b) s = .next (s.writes q d (BitVec.ofNat 64 hi)) ∧
      ((f32 m).isNan = true → (f32 n).isNan = true → lo = 0x7FC00000 ∧ hi = 0x7FC00000) ∧
      ((f32 m).isNan = true → (f32 n).isNan = false → lo = n ∧ hi = n) ∧
      ((f32 m).isNan = false → (f32 n).isNan = true → lo = m ∧ hi = m) ∧
      ((f32 m).isNan = false → (f32 n).isNan = false →
        (lo = m ∨ lo = n) ∧ (hi = m ∨ hi = n) ∧ ¬before m lo ∧ ¬before n lo ∧ ¬before hi m ∧ ¬before hi n)) ∧
  ∀ (s : State) (a : BitVec 5),
    (∀ (pd pc : BitVec 3) (rhs : CmpRhs) (cond : BitVec 4), cond.toNat ≤ 5 →
      let x := f32 (s.getG a).toNat
      let y := f32 (match rhs with | .reg b => (s.getG b).toNat | .imm v => v.toNat)
      let un := (x.isNan || y.isNan) = true
      ∃ c : Bool, exec (.fcmp pd pc a rhs cond) s
          = .next (State.retired (if pc = 0 then s.setP pd c else (s.setP pd c).setP pc (!c)) (s.ctl.pc + 8)) ∧
        (c = true ↔
          match cond.toNat with
          | 0 => ¬un ∧ x.eq y = true | 1 => un ∨ x.eq y = false | 2 => ¬un ∧ x.lt y = true
          | 3 => ¬un ∧ y.lt x = false | 4 => un | _ => ¬un)) ∧
    ∀ (q : Qual) (d : BitVec 5),
      exec (.fcvt q d a 0) s = .next (s.writes q d (BitVec.ofNat 64 (rne32 (Machine.Num.ofInt (s.getG a).toInt)))) ∧
      (∃ v : Word, exec (.fcvt q d a 1) s = .next (s.writes q d v) ∧
        match f32 (s.getG a).toNat with
        | .nan _ => v = 0
        | .inf neg => v = if neg then 0x8000000000000000 else 0x7FFFFFFFFFFFFFFF
        | .fin neg n den => ∃ z : Int,
            let off := 2 * (z * den - signed neg n).natAbs
            off ≤ den ∧ (off = den → z % 2 = 0) ∧ v = BitVec.ofInt 64 (max (-2 ^ 63) (min (2 ^ 63 - 1) z))) ∧
      (∃ v : Nat, v < 2 ^ 16 ∧ exec (.fcvt q d a 2) s = .next (s.writes q d (BitVec.ofNat 64 v)) ∧
        let m := (s.getG a).toNat % 2 ^ 32
        ((f32 m).isNan = true → v = m / 2 ^ 16 ||| 0x40) ∧
        ((f32 m).isNan = false → v = (m + 0x7FFF + m / 2 ^ 16 % 2) / 2 ^ 16)) ∧
      exec (.fcvt q d a 3) s = .next (s.writes q d (BitVec.ofNat 64 ((s.getG a).toNat % 2 ^ 16 * 2 ^ 16)))

/-! ### Control core: frames, squashing, memory -/

/-- An instruction that writes one G register leaves every other G register, the predicates, the J registers, the special
registers, the status bits, the operand registers, the engines and every byte of every store as they were, also where
SPGET faults; CMP, FCMP, PLOG and PLOAD leave every G register and all the rest so, and write no predicate but their
destinations (R117, R135, R142 to R146). -/
def Obligations.RegisterInstructionFrames : Prop :=
  (∀ (i : Instr) (d : BitVec 5) (s t : State), s.canonical → i.writesReg = some d → exec i s = .next t → s.sameBut t d) ∧
  ∀ (s t : State) (q : Qual) (pd pc pa pb : BitVec 3) (a : BitVec 5) (rhs : CmpRhs) (cond tt : BitVec 4)
    (mask : BitVec 8),
    let same : Prop := (∀ r, t.getG r = s.getG r) ∧ t.ctl.j = s.ctl.j ∧ t.ctl.sameSpecial s.ctl ∧
      t.task.sameUnits s.task ∧ s.sameOutside t ∧ s.sameBytes t
    ((exec (.cmp pd pc a rhs cond) s = .next t ∨ exec (.fcmp pd pc a rhs cond) s = .next t) →
      same ∧ ∀ i, i ≠ pd → i ≠ pc → t.getP i = s.getP i) ∧
    (exec (.plog q pd pa pb tt) s = .next t → same ∧ ∀ i, i ≠ pd → t.getP i = s.getP i) ∧
    (exec (.pload q a mask) s = .next t → same ∧ ∀ i : BitVec 3, mask.getLsbD i.toNat = false → t.getP i = s.getP i)

/-- An instruction with a qualifying predicate executes, as its form with P0 does, if P[QP] XOR QN = 1; else it changes no
register, predicate or memory, starts no prefetch and raises no fault: it retires, and counts as one instruction for
single-step. A word that does not decode, or whose opcode is not listed, raises ILLEGAL or UNIMPL whatever the predicate
(R127, R134). -/
def Obligations.SquashedInstruction : Prop :=
  (∀ (i : Instr) (q : Qual) (s : State), i.qual = some q → (s.getP q.p != q.n) = true →
    exec i s = exec i.unqualified s) ∧
  (∀ (i : Instr) (q : Qual) (s : State), i.qual = some q → (s.getP q.p != q.n) = false →
    exec i s = .next (s.retired (s.ctl.pc + 8))) ∧
  (∀ (i : Instr) (s : State), i.qual = some ⟨0, true⟩ → exec i s = .next (s.retired (s.ctl.pc + 8))) ∧
  (∀ (s : State) (e : DecodeErr), decodeControl s.ctl.ir.toNat = .error e →
    s.execute = .next (s.trapHere { code := .illegal })) ∧
  ∀ (s : State) (w : Word), exec (.opcodeNotListed w) s
    = .next (s.trapHere { code := if 0x80 ≤ w.toNat / 2 ^ 56 ∧ w.toNat / 2 ^ 56 ≤ 0xBF then .unimpl else .illegal })

/-- Writing bytes and reading them: a number stored in `n` bytes reads back little-endian modulo 2^(8n), every byte
outside them reads as before, and every store stays in canonical form, for every store a control-core access can reach;
a word of the register space gets TOUCHED = 1 and OVF = 0; bad data that the write covers is replaced (R6, R38, R75, R151, R308). -/
def Obligations.StoresReadBack : Prop :=
  ∀ (s : State) (sp : Space) (a n v : Nat), s.canonical → sp ≠ .wbuf →
    (∀ k, sp = .far k → k = s.task.lcn ∨ (s.findTask s.task.lid k).isSome = true) →
    let t := s.wrNat sp a n v
    t.littleEndian sp a n = v % 2 ^ (8 * n) ∧ t.rdNat sp a n = v % 2 ^ (8 * n) ∧ s.sameBytesBut t sp a n ∧ t.canonical ∧
    t.badIn sp a n = none ∧
    (sp = .reg → ∀ k, k < n → spGet Flag.fresh t.task.flags ((a + k) / 4) = ⟨true, false⟩)

/-- LD and LDA complete with the 2^SZ bytes at their address, zero- or sign-extended; ST and STL with the low 2^SZ bytes
of G[D] stored there, G0 storing zeros (R75, R151 to R153); a fault of the target, or a byte that a load cannot read, is raised, and
at a core whose task is not resident the access waits (R75, R308). A load finds each effect in flight there old or new, and with
none in flight the store as it stands; a store comes after what any core's loads have seen of a timed frame's commands (R85, R88,
R157), and an STL of a class beyond the core waits until that has landed (R91). That a target in another core's scratchpad is accessed
first and completes in a later move is log entry 46's, and that LDA and STL have nothing else to wait for log entry 8's. `u` is the
state after the address has been translated; that no core is listed twice is an invariant of the model (`StepKeepsInvariants`). -/
def Obligations.LoadsAndStoresComplete : Prop :=
  (∀ (s u : State) (q : Qual) (d a x : BitVec 5) (cls : BitVec 4) (scope : BitVec 3) (sz : BitVec 2) (sx : Bool)
    (mask : BitVec 16) (off : BitVec 26) (off10 : BitVec 10) (sp : Space) (p va : Nat) (i : Instr),
    s.distinct → s.holds q = true →
    (i = .ld q d a x cls sz sx off ∧ va = s.addressOf a x sz off.toInt) ∨
      (i = .lda q d a x cls scope sz sx mask off10 ∧ va = s.addressOf a x sz off10.toInt) →
    let n := 2 ^ sz.toNat
    (∀ tr, s.target va n .load = (.trap tr, u) → exec i s = .next (u.trapHere tr)) ∧
    (s.target va n .load = (.held, u) → exec i s = .next u.waits) ∧
    (s.target va n .load = (.at_ sp p, u) → (∀ b, u.badIn sp p n = some b →
      exec i s = .next (u.trapHere { code := .uncorrectable, addr := some (va + (b - p)) })) ∧
    (u.badIn sp p n = none →
    let v (w : State) : Word :=
      if sx then BitVec.ofInt 64 (Int.bmod (w.littleEndian sp p n) (2 ^ (8 * n)))
      else BitVec.ofNat 64 (w.littleEndian sp p n)
    let done (u : State) : Prop :=
      let w := (u.showFor sp p n).glimpse sp p
      exec i s = .next ((w.1.setG d (v w.2)).retired (s.ctl.pc + 8)) ∧ (u.still → w = (u, u))
    (sp.remote = false → done u) ∧
    (sp.remote = true → u.ctl.remote = some va → done (u.withCtl { u.ctl with remote := none, remoteAge := 0 })) ∧
    (sp.remote = true → u.ctl.remote ≠ some va →
      exec i s = .next (u.withCtl { u.ctl with remote := some va, remoteAge := 0 }).waits)))) ∧
  (∀ (s u : State) (q : Qual) (d a x : BitVec 5) (cls : BitVec 4) (scope : BitVec 3) (sz : BitVec 2)
    (mask : BitVec 16) (off : BitVec 26) (off10 : BitVec 10) (sp : Space) (p va : Nat) (i : Instr),
    s.distinct → s.holds q = true →
    (i = .st q d a x cls sz off ∧ va = s.addressOf a x sz off.toInt) ∨
      (i = .stl q d a x cls scope sz mask off10 ∧ va = s.addressOf a x sz off10.toInt ∧
        (mask = 0 ∨ scope = 0 ∨ s.unseen)) →
    let n := 2 ^ sz.toNat
    (∀ tr, s.target va n .store = (.trap tr, u) → exec i s = .next (u.trapHere tr)) ∧
    (s.target va n .store = (.held, u) → exec i s = .next u.waits) ∧
    (s.target va n .store = (.at_ sp p, u) →
    let done (u : State) : Prop :=
      exec i s = .next (((u.behindSeen sp p n).wrNat sp p n (s.getG d).toNat).retired (s.ctl.pc + 8)) ∧
        (u.unseenAnywhere → u.behindSeen sp p n = u)
    (sp.remote = false → done u) ∧
    (sp.remote = true → u.ctl.remote = some va → done (u.withCtl { u.ctl with remote := none, remoteAge := 0 })) ∧
    (sp.remote = true → u.ctl.remote ≠ some va →
      exec i s = .next (u.withCtl { u.ctl with remote := some va, remoteAge := 0 }).waits))) ∧
  ∀ (s : State) (q : Qual) (d a x : BitVec 5) (cls : BitVec 4) (scope : BitVec 3) (sz : BitVec 2) (mask : BitVec 16)
    (off : BitVec 10), s.holds q = true → mask ≠ 0 → scope ≠ 0 → ¬s.unseen →
    exec (.stl q d a x cls scope sz mask off) s = .next s.waits

/-- What a store leaves alone, whatever its outcome: all registers, predicates, J registers and special registers; unless a load of some core
has seen a command of a timed frame early (R157, log entry 2), the engines and every byte outside the 2^SZ bytes at the address that
its target gives; where it has no target there (a fault, a wait, a squashed store) the engines and every byte. A load leaves everything but G[D], the translations and words that core and die
hold, and what is in flight: a byte that it finds new belongs to a byte write in flight, where no update, fold, fill or request is,
and with nothing in flight every byte and every engine stays (R127, R128, R151, R152, R157). -/
def Obligations.LoadStoreFrames : Prop :=
  (∀ (s t : State) (q : Qual) (d a x : BitVec 5) (cls : BitVec 4) (scope : BitVec 3) (sz : BitVec 2)
    (mask : BitVec 16) (off : BitVec 26) (off10 : BitVec 10) (va : Nat) (i : Instr),
    s.canonical → s.ordered →
    (i = .st q d a x cls sz off ∧ va = s.addressOf a x sz off.toInt) ∨
      (i = .stl q d a x cls scope sz mask off10 ∧ va = s.addressOf a x sz off10.toInt) →
    exec i s = .next t →
    (∀ r, t.getG r = s.getG r) ∧ t.ctl.p = s.ctl.p ∧ t.ctl.j = s.ctl.j ∧ t.ctl.sameSpecial s.ctl ∧
    t.task.t = s.task.t ∧
    (s.unseenAnywhere → t.task.m = s.task.m ∧ t.task.f = s.task.f ∧ t.task.s = s.task.s ∧
      ∀ sp p, (s.target va (2 ^ sz.toNat) .store).1 = .at_ sp p → s.sameBytesBut t sp p (2 ^ sz.toNat)) ∧
    ((∀ sp p, (s.target va (2 ^ sz.toNat) .store).1 ≠ .at_ sp p) →
      t.task.m = s.task.m ∧ t.task.f = s.task.f ∧ t.task.s = s.task.s ∧ s.sameBytes t)) ∧
  ∀ (s t : State) (q : Qual) (d a x : BitVec 5) (cls : BitVec 4) (scope : BitVec 3) (sz : BitVec 2) (sx : Bool)
    (mask : BitVec 16) (off : BitVec 26) (off10 : BitVec 10), s.canonical → s.ordered →
    (exec (.ld q d a x cls sz sx off) s = .next t ∨ exec (.lda q d a x cls scope sz sx mask off10) s = .next t) →
    s.sameButFlights t d

/-- The order of a load's or store's faults: an access not aligned to its size raises ALIGN before any byte is accessed;
then, in a timed frame, the remote window raises TIMED-STATE; then the checks of R81, the window region outside every
window and a core number outside the launch among them (R74, R75, R128, R151, R156). -/
def Obligations.AccessFaults : Prop :=
  ∀ (s : State) (q : Qual) (d a x : BitVec 5) (cls : BitVec 4) (sz : BitVec 2) (off : BitVec 26) (store : Bool),
    s.holds q = true →
    let va := s.addressOf a x sz off.toInt
    let i : Instr := if store then .st q d a x cls sz off else .ld q d a x cls sz false off
    (va % 2 ^ sz.toNat ≠ 0 → exec i s = .next (s.trapHere { code := .align, addr := some va })) ∧
    (va % 2 ^ sz.toNat = 0 →
      (∀ n o, locate va = .window (.far n) o →
        (s.ctl.frame = true → s.ctl.timed = true →
          exec i s = .next (s.trapHere { code := .timedState, addr := some va })) ∧
        (s.ctl.frame = false → s.task.gcount * s.task.gsize ≤ n →
          exec i s = .next (s.trapHere { code := .notPresent, addr := some va }))) ∧
      (locate va = .none → exec i s = .next (s.trapHere { code := .notPresent, addr := some va })) ∧
      ∀ tr u, locate va = .virt →
        s.translate va (if store then .store else .load) (s.ctl.frame && s.ctl.timed) = (.error tr, u) →
        exec i s = .next (u.trapHere tr))

/-- NOP does nothing, PREF has no program-visible effect, and a FENCE, in a machine whose accesses perform in program
order, retires, one with both masks and a scope beyond the core once what a load has seen of a timed frame's commands has landed
(R91, R154, R155, R157, R176; the order, and that it waits for no class in particular, are log entry 8's). -/
def Obligations.NopPrefetchFence : Prop :=
  ∀ (s : State) (q : Qual) (a x : BitVec 5) (off : BitVec 26) (before after : BitVec 16) (scope : BitVec 3),
    exec (.nop q) s = .next (s.retired (s.ctl.pc + 8)) ∧
    exec (.pref q a x off) s = .next (s.retired (s.ctl.pc + 8)) ∧
    (s.holds q = false ∨ before = 0 ∨ after = 0 ∨ scope = 0 ∨ s.unseen →
      exec (.fence q before after scope) s = .next (s.retired (s.ctl.pc + 8))) ∧
    (s.holds q = true → before ≠ 0 → after ≠ 0 → scope ≠ 0 → ¬s.unseen →
      exec (.fence q before after scope) s = .next s.waits)

/-! ### Control core: transfers -/

/-- PREP and PREPR load TADDR, whose bits [2:0] are 0, and start the prefetch from any state; JGET reads TADDR and JSTATE
as one value; JCLR empties the register and keeps TADDR; a prefetch that completes makes FETCHING READY, or STALE where
the fetch would fault, raising nothing, and leaves every other state (R119, R158, R159, R162). -/
def Obligations.BranchTargets : Prop :=
  ∀ (s : State) (q : Qual) (j p : BitVec 3) (pn : Bool) (off : BitVec 48) (a d : BitVec 5),
    let r := s.ctl.getJ j
    exec (.prep j p pn off) s
      = .next (s.completes ⟨p, pn⟩
          (s.setJ j ⟨BitVec.ofInt 64 ((s.ctl.pc.toInt + off.toInt * 8) / 8 * 8), .fetching, []⟩)) ∧
    exec (.prepr q j a) s
      = .next (s.completes q (s.setJ j ⟨BitVec.ofNat 64 ((s.getG a).toNat / 8 * 8), .fetching, []⟩)) ∧
    exec (.jget q d j) s
      = .next (s.writes q d (BitVec.ofNat 64 (r.taddr.toNat / 8 * 8 +
          match r.st with | .empty => 0 | .fetching => 1 | .ready => 2 | .stale => 3))) ∧
    exec (.jclr q j) s = .next (s.completes q (s.setJ j ⟨r.taddr, .empty, []⟩)) ∧
    (r.st ≠ .fetching → exec (.prefetchComplete j) s = .next s) ∧
    (r.st = .fetching → ∀ u ws, s.prefetch r.taddr.toNat = (.ok ws, u) →
      exec (.prefetchComplete j) s = .next (u.setJ j ⟨r.taddr, .ready, ws⟩)) ∧
    (r.st = .fetching → ∀ u tr, s.prefetch r.taddr.toNat = (.error tr, u) →
      exec (.prefetchComplete j) s = .next (u.setJ j ⟨r.taddr, .stale, []⟩))

/-- XFER through a READY register moves control to TADDR and changes no register; through FETCHING or STALE it fetches
first and leaves the register READY; a fetch that faults leaves it STALE and raises the fault with TADDR; EMPTY raises
UNPREPARED (R158, R160). -/
def Obligations.TransferControl : Prop :=
  ∀ (s : State) (j p : BitVec 3) (pn : Bool), (s.getP p != pn) = true →
    let r := s.ctl.getJ j
    let goes (u t : State) : Prop :=
      t.ctl.pc = r.taddr &&& ~~~7#64 ∧ t.ctl.waiting = false ∧ (∀ g, t.getG g = s.getG g) ∧ t.ctl.p = s.ctl.p ∧
      t.ctl.ssp = s.ctl.ssp ∧ t.ctl.j = u.ctl.j ∧ t.ctl.sameSpecial s.ctl ∧ s.sameBytes t
    (r.st = .empty → exec (.xfer j p pn) s
      = .next (s.trapHere { code := .unprepared, addr := some r.taddr.toNat })) ∧
    (r.st = .ready → ∃ t, exec (.xfer j p pn) s = .next t ∧ goes s t) ∧
    (r.st = .fetching ∨ r.st = .stale →
      (∀ u ws, s.prefetch r.taddr.toNat = (.ok ws, u) →
        ∃ t, exec (.xfer j p pn) s = .next t ∧ goes (s.setJ j ⟨r.taddr, .ready, ws⟩) t) ∧
      ∀ u tr, s.prefetch r.taddr.toNat = (.error tr, u) →
        exec (.xfer j p pn) s
          = .next ((u.setJ j ⟨r.taddr, .stale, []⟩).trapHere { code := tr.code, addr := some r.taddr.toNat }))

/-- XCALL pushes PC + 8 on the shadow stack, lowers SSP by 8, writes PC + 8 to G31 and moves control to TADDR. Through a READY
register nothing is fetched, through FETCHING or STALE the target is fetched first and the register is READY afterwards; EMPTY
raises UNPREPARED, and a fetch that faults raises its fault and leaves the register STALE. A push whose new SSP would be below
LO raises SHADOW-LIMIT, and a page that refuses the push raises its fault, the J register being left as it was and no other
register changed. Every fault carries TADDR. The push comes after what loads have seen at its bytes, as a store does; where nothing
has been seen early it changes those bytes alone (R88, R89, R120, R158, R160). -/
def Obligations.CallPushesShadow : Prop :=
  ∀ (s : State) (j p : BitVec 3) (pn : Bool), s.canonical → s.ordered → (s.getP p != pn) = true →
    let r := s.ctl.getJ j
    let x : Instr := .xcall j p pn
    let goes (v : State) : Prop :=
      (s.ctl.ssp.toNat < s.ctl.shadowLo + 8 →
        exec x s = .next ((v.setJ j r).trapHere { code := .shadowLimit, addr := some r.taddr.toNat })) ∧
      (s.ctl.shadowLo + 8 ≤ s.ctl.ssp.toNat →
        (∀ tr u, v.shadowTarget (s.ctl.ssp.toNat - 8) .push = (.error tr, u) →
          exec x s = .next ((u.setJ j r).trapHere { tr with addr := some r.taddr.toNat })) ∧
        ∀ pa u, v.shadowTarget (s.ctl.ssp.toNat - 8) .push = (.ok pa, u) →
          ∃ t, exec x s = .next t ∧ t.ctl.pc = r.taddr &&& ~~~7#64 ∧ t.ctl.ssp = s.ctl.ssp - 8 ∧
            t.getG 31 = s.ctl.pc + 8 ∧ (∀ g, g ≠ 31 → t.getG g = s.getG g) ∧ t.ctl.p = s.ctl.p ∧ t.ctl.j = v.ctl.j ∧
            t.ctl.ssl = s.ctl.ssl ∧ t.littleEndian .mem pa 8 = (s.ctl.pc + 8).toNat ∧
            (u.behindSeen .mem pa 8).sameBytesBut t .mem pa 8 ∧
            (s.unseenAnywhere → u.behindSeen .mem pa 8 = u ∧ s.sameBytesBut t .mem pa 8))
    (r.st = .empty → exec x s = .next (s.trapHere { code := .unprepared, addr := some r.taddr.toNat })) ∧
    (r.st = .ready → goes s) ∧
    (r.st = .fetching ∨ r.st = .stale →
      (∀ u tr, s.prefetch r.taddr.toNat = (.error tr, u) →
        exec x s = .next ((u.setJ j ⟨r.taddr, .stale, []⟩).trapHere
          { code := tr.code, addr := some r.taddr.toNat })) ∧
      ∀ u ws, s.prefetch r.taddr.toNat = (.ok ws, u) → goes (u.setJ j ⟨r.taddr, .ready, ws⟩))

/-- RET returns through G31 when the top of the shadow stack agrees with it, and raises SSP by 8; a pop above HI raises
SHADOW-LIMIT, a different top INTEGRITY, and every fault leaves SSP, G31 and PC unchanged. The pop finds what a load of the same bytes
finds, and with nothing in flight the store as it stands (R89, R120, R161). That the records of these
two faults carry no address is the model's reading (log entry 10). -/
def Obligations.ReturnChecksShadow : Prop :=
  ∀ (s : State) (q : Qual), s.canonical → s.ordered → s.holds q = true →
    let link := s.getG 31
    (∀ t, exec (.ret q) s = .next t → (∀ g, t.getG g = s.getG g) ∧ t.ctl.p = s.ctl.p ∧ t.ctl.j = s.ctl.j ∧
      s.sameBytesOrShown t ∧ (s.still → s.sameBytes t) ∧ (t.ctl.ssp = s.ctl.ssp ∧ t.ctl.pc = s.ctl.pc ∨
        t.ctl.ssp = s.ctl.ssp + 8 ∧ t.ctl.pc = link &&& ~~~7#64)) ∧
    (s.ctl.shadowHi < s.ctl.ssp.toNat + 8 → exec (.ret q) s = .next (s.trapHere { code := .shadowLimit })) ∧
    (s.ctl.ssp.toNat + 8 ≤ s.ctl.shadowHi →
      ∀ pa u, s.shadowTarget s.ctl.ssp.toNat .pop = (.ok pa, u) → u.badIn .mem pa 8 = none →
        let w := (u.showFor .mem pa 8).glimpse .mem pa
        (u.still → w = (u, u)) ∧
        (w.2.littleEndian .mem pa 8 ≠ link.toNat → exec (.ret q) s = .next (w.1.trapHere { code := .integrity })) ∧
        (w.2.littleEndian .mem pa 8 = link.toNat → ∀ ws v, w.1.prefetch link.toNat = (.ok ws, v) →
          ∃ t, exec (.ret q) s = .next t ∧ t.ctl.pc = link &&& ~~~7#64 ∧ t.ctl.ssp = s.ctl.ssp + 8))

/-! ### Control core: system -/

/-- TRAP retires and raises TRAP with its immediate, the record's PC being the next instruction; BRK raises BREAK with PC
at the BRK and leaves every register as it was; both park the control core alone. The record names the task, the stream,
the code and the word. With MODE.STEP set, an instruction that retires raises STEP, the record's PC being the next
instruction (R174, R304 to R306, R312). -/
def Obligations.TrapsBreaksAndSteps : Prop :=
  (∀ (s : State) (q : Qual) (imm : BitVec 16), s.task.lcn < 2 ^ 17 →
    let record (r : FaultRec) (code imm : Nat) (pc : Word) : Prop :=
      r.lid = s.task.lid ∧ r.part = s.task.part ∧ r.lcn = s.task.lcn ∧
      fld r.w0.toNat 0 8 = code ∧ fld r.w0.toNat 8 3 = 0 ∧ fld r.w0.toNat 11 15 = 0 ∧ fld r.w0.toNat 27 4 = 0 ∧
      fld r.w0.toNat 31 17 = s.task.lcn ∧ fld r.w0.toNat 48 16 = imm ∧ r.w2 = 0 ∧ r.w3 = pc ∧ r.w4 = s.ctl.ir ∧ r.w7 = 0
    let parked (t : State) : Prop :=
      t.task.parkCtl = true ∧ t.task.parking = s.task.parking ∧ t.task.parkAll = s.task.parkAll ∧ t.canRun = false
    (s.holds q = true → ∃ t r, exec (.trap q imm) s = .next t ∧ t.faults = s.faults ++ [r] ∧
      record r 0x07 imm.toNat (s.ctl.pc + 8) ∧ parked t ∧ t.ctl.pc = s.ctl.pc + 8 ∧ s.sameBut t 0) ∧
    ∃ t r, exec .brk s = .next t ∧ t.faults = s.faults ++ [r] ∧ record r 0x06 0 s.ctl.pc ∧ parked t ∧
      t.ctl.pc = s.ctl.pc ∧ s.sameBut t 0) ∧
  ∀ (s : State) (q : Qual),
    (s.ctl.step = true → ∃ t r, exec (.nop q) s = .next t ∧ t.faults = s.faults ++ [r] ∧ fld r.w0.toNat 0 8 = 0x08 ∧
      r.w3 = s.ctl.pc + 8 ∧ t.ctl.pc = s.ctl.pc + 8 ∧ t.task.parkCtl = true ∧ t.task.parking = s.task.parking ∧
      s.sameBut t 0) ∧
    (s.ctl.step = false → ∃ t, exec (.nop q) s = .next t ∧ t.faults = s.faults ∧ t.ctl.pc = s.ctl.pc + 8 ∧
      t.task.parkCtl = s.task.parkCtl ∧ s.sameBut t 0)

/-- Every fault but STEP, BREAK and TRAP parks the whole task: its clocks stand still, its control core does not execute, but
for a remote access in progress that comes to its end, and its engines neither issue nor fetch, until TASK_CONTINUE (R305).
That parking takes effect at the end of the fault's cycle, whose clock tick does not count, is log entry 40's. -/
def Obligations.FaultsParkTheTask : Prop :=
  (∀ (s : State) (st : StreamId) (tr : Trap) (pc w : Word) (n : Nat), tr.code.parksAll = true →
    (s.takeFault st tr pc w n).task.parking = true ∧
    ((s.cur.slot = .resident ∨ s.cur.slot = .saving) →
      let t := (s.takeFault st tr pc w n).tickCore
      t.task.parkAll = true ∧ t.ctl.tasktime = s.ctl.tasktime ∧ t.ctl.framecnt = s.ctl.framecnt)) ∧
  (∀ s : State, s.task.parkAll = true →
    (s.ctl.waiting = false ∨ s.ctl.remote = none → s.controlMove = .next s) ∧ (∀ e, s.mayIssue e = false ∧ s.canFetch e = false) ∧
    ((s.cur.slot = .resident ∨ s.cur.slot = .saving) →
      s.tickCore.ctl.tasktime = s.ctl.tasktime ∧ s.tickCore.ctl.framecnt = s.ctl.framecnt ∧
      ∀ e, (s.tickCore.eng e).cnt = (s.eng e).cnt)) ∧
  ∀ c : Code, c.parksAll = false ↔ c = .step ∨ c = .break_ ∨ c = .trap

/-- SPGET reads the special register that FN names, as R4 and R121 to R125 lay it out; a reserved number raises ILLEGAL,
WALLCLK, and PCORE without the grant, PRIVILEGE, and a faulting SPGET changes no register. SPSET may only raise SSP, to a
multiple of 8 up to HI; any other value, and any other register, raises PRIVILEGE, a reserved number ILLEGAL, and a
faulting SPSET changes no register (R124). -/
def Obligations.SpecialRegisters : Prop :=
  (∀ (s : State) (q : Qual) (d : BitVec 5) (fn : BitVec 8), s.holds q = true →
    let read (v : Nat) : Prop := exec (.spget q d fn) s = .next (s.writes q d (BitVec.ofNat 64 v))
    let faults (c : Code) : Prop := exec (.spget q d fn) s = .next (s.trapHere { code := c })
    let lcore := s.task.lcn % max s.task.gsize 1
    match fn.toNat with
    | 0 => read ((if s.d4 then 0x0C04480810 else 0x0602240000) + if s.hostLink then 8 else 0)
    | 1 => read (if s.d4 then 0x0000001010101010 else 0x0000009010101010)
    | 2 => read lcore
    | 3 => read (lcore / 4)
    | 4 => read (lcore / 144)
    | 5 => read (s.task.lcn / (if s.d4 then 576 else 288))
    | 6 => read 0
    | 7 => if s.ctl.phys then
        read (s.pkg * 2 ^ 16 + s.cur.pcore / 144 * 2 ^ 8 + s.cur.pcore % 144 / 4 * 4 + s.cur.pcore % 4)
      else faults .privilege
    | 8 => read (s.ctl.framecnt % 2 ^ 48)
    | 9 => read s.ctl.tasktime
    | 10 => faults .privilege
    | 11 => read s.ctl.ssp.toNat
    | 12 => read s.ctl.ssl.toNat
    | 14 => read ((if s.ctl.step then 128 else 0) + (if s.ctl.phys then 8 else 0) + (if s.ctl.degr then 4 else 0)
        + (if s.ctl.timed then 2 else 0) + if s.ctl.frame then 1 else 0)
    | 15 => read s.task.lid
    | 16 => read (s.task.lcn / max s.task.gsize 1)
    | 17 => read s.task.gsize
    | 18 => read s.task.argptr.toNat
    | _ => faults .illegal) ∧
  ∀ (s : State) (q : Qual) (a : BitVec 5) (fn : BitVec 8), s.holds q = true →
    let v := s.getG a
    let faults (c : Code) : Prop := exec (.spset q a fn) s = .next (s.trapHere { code := c })
    (fn = 11 → v.toNat % 8 = 0 → s.ctl.ssp.toNat ≤ v.toNat → v.toNat ≤ s.ctl.shadowHi →
      exec (.spset q a fn) s = .next (State.retired (s.withCtl { s.ctl with ssp := v }) (s.ctl.pc + 8))) ∧
    (fn = 11 → v.toNat % 8 ≠ 0 ∨ v.toNat < s.ctl.ssp.toNat ∨ s.ctl.shadowHi < v.toNat → faults .privilege) ∧
    (fn ≠ 11 → fn ≠ 13 → fn.toNat < 19 → faults .privilege) ∧
    (fn = 13 ∨ 19 ≤ fn.toNat → faults .illegal)

/-- TSET, PATW and SHPW write one word of an operand register, and raise TIMED-STATE while a timed frame is open; TGET,
PATR and SHPR read one at any time (R170). -/
def Obligations.OperandRegisters : Prop :=
  ∀ (s : State) (q : Qual) (a d : BitVec 5) (tid : BitVec 6) (word : BitVec 3) (pat : BitVec 4) (sh : BitVec 3)
    (sw : BitVec 2),
    let t := s.task
    let v := s.getG a
    ((s.ctl.frame && s.ctl.timed) = false →
      exec (.tset q a tid word) s
        = .next (s.completes q (s.withTask { t with t := spSet 0 t.t (8 * tid.toNat + word.toNat) v })) ∧
      exec (.patw q a pat) s = .next (s.completes q (s.withTask { t with pat := spSet 0 t.pat pat.toNat v })) ∧
      exec (.shpw q a sh sw) s
        = .next (s.completes q (s.withTask { t with sh := spSet 0 t.sh (4 * sh.toNat + sw.toNat) v }))) ∧
    ((s.ctl.frame && s.ctl.timed) = true → s.holds q = true →
      exec (.tset q a tid word) s = .next (s.trapHere { code := .timedState }) ∧
      exec (.patw q a pat) s = .next (s.trapHere { code := .timedState }) ∧
      exec (.shpw q a sh sw) s = .next (s.trapHere { code := .timedState })) ∧
    exec (.tget q d tid word) s = .next (s.writes q d (spGet 0 t.t (8 * tid.toNat + word.toNat))) ∧
    exec (.patr q d pat) s = .next (s.writes q d (spGet 0 t.pat pat.toNat)) ∧
    exec (.shpr q d sh sw) s = .next (s.writes q d (spGet 0 t.sh (4 * sh.toNat + sw.toNat)))

/-! ### Control core: streams, barriers, launches, caches -/

/-- FORK: a misaligned stream address raises ALIGN; a timed stream outside the register-space and scratchpad windows
raises TIMED-STATE; a busy engine makes it wait (R16, R21, R166). Otherwise each enabled engine starts at its address
with sequence number 0, its flags cleared into the pending report, 64 cycles and the weir's D before its frame starts (R326,
R327); MODE.FRAME is 1, MODE.TIMED FN [3] and MODE.DEGR 0; the other engines stay as they are. -/
def Obligations.ForkStartsStreams : Prop :=
  ∀ (s : State) (q : Qual) (d a b : BitVec 5) (fn : BitVec 4), s.holds q = true →
    let addr (e : EngId) : Word := match e with | .matrix => s.getG a | .flume => s.getG b | .sluice => s.getG d
    let on (e : EngId) : Prop := fn.getLsbD e.num = true
    let timed := fn.getLsbD 3
    (∀ e, on e → (addr e).toNat % 8 ≠ 0 → ∃ t r, exec (.fork q d a b fn) s = .next t ∧
      t.faults = s.faults ++ [r] ∧ fld r.w0.toNat 0 8 = 0x0A ∧ t.task.m = s.task.m ∧ t.task.f = s.task.f ∧
      t.task.s = s.task.s ∧ t.ctl.pc = s.ctl.pc) ∧
    ((∀ e, on e → (addr e).toNat % 8 = 0) →
      (∀ e, on e → timed = true → inStreamWindow (addr e).toNat = false → ∃ t r,
        exec (.fork q d a b fn) s = .next t ∧ t.faults = s.faults ++ [r] ∧ fld r.w0.toNat 0 8 = 0x13 ∧
        t.task.m = s.task.m ∧ t.task.f = s.task.f ∧ t.task.s = s.task.s ∧ t.ctl.pc = s.ctl.pc) ∧
      ((timed = true → ∀ e, on e → inStreamWindow (addr e).toNat = true) →
        (s.task.forkStalls fn = true → exec (.fork q d a b fn) s = .next s.waits) ∧
        (s.task.forkStalls fn = false → ∃ t, exec (.fork q d a b fn) s = .next t ∧
          t.ctl.frame = true ∧ t.ctl.timed = timed ∧ t.ctl.degr = false ∧ t.ctl.framecnt = 0 ∧
          t.ctl.pc = s.ctl.pc + 8 ∧ (∀ g, t.getG g = s.getG g) ∧ s.sameBytes t ∧
          ∀ e, (¬on e → t.eng e = s.eng e) ∧
            (on e → (t.eng e).running = true ∧ (t.eng e).started = false ∧ (t.eng e).pc = (addr e).toNat ∧
              (t.eng e).seq = 0 ∧ (t.eng e).cnt = 0 ∧ (t.eng e).queue = [] ∧ (t.eng e).timed = timed ∧
              (t.eng e).nan = false ∧ (t.eng e).sat = false ∧ (t.eng e).can = false ∧
              (t.eng e).countdown = 64 + spGet 0 s.weir (s.cur.pcore / 144) ∧
              (∀ k, k < 4 → t.ctl.pending.getLsbD (4 * e.num + k) =
                (s.ctl.pending.getLsbD (4 * e.num + k) || match k with
                  | 0 => (s.eng e).ran | 1 => (s.eng e).can | 2 => (s.eng e).nan | _ => (s.eng e).sat))))))

/-- JOIN waits until every frame has ended; then it writes the pending report with each engine that has run, DEGR and TIMED of
their frames, and nothing in bits [63:14]; it clears the report and closes the frame. TWAIT answers what has become of a command,
4 where the engine has not been forked or the END of its frame has completed with a smaller number, and waits for a command that
is not done (R18, R167, R168). -/
def Obligations.JoinAndTokenWait : Prop :=
  ∀ (s : State) (q : Qual) (d a : BitVec 5) (eng : BitVec 2) (seq20 : BitVec 20), s.canonical → s.holds q = true →
    (s.task.framesDone = false → exec (.join q d) s = .next s.waits) ∧
    (s.task.framesDone = true → ∃ t, exec (.join q d) s = .next t ∧
      t.ctl.frame = false ∧ t.ctl.pending = 0 ∧ t.ctl.pc = s.ctl.pc + 8 ∧ (∀ g, g ≠ d → t.getG g = s.getG g) ∧
      s.sameBytes t ∧
      (d ≠ 0 → ∀ e k, k < 4 → (t.getG d).getLsbD (4 * EngId.num e + k) =
        (s.ctl.pending.getLsbD (4 * e.num + k) || ((s.eng e).ran && match k with
          | 0 => true | 1 => (s.eng e).can | 2 => (s.eng e).nan | _ => (s.eng e).sat))) ∧
      (d ≠ 0 → ((t.getG d).getLsbD 12 = true ↔
          s.ctl.pending.getLsbD 12 = true ∨ ∃ e, (s.eng e).ran = true ∧ (s.eng e).degr = true) ∧
        ((t.getG d).getLsbD 13 = true ↔
          s.ctl.pending.getLsbD 13 = true ∨ ∃ e, (s.eng e).ran = true ∧ (s.eng e).timed = true) ∧
        (s.ctl.pending.toNat < 2 ^ 14 → (t.getG d).toNat < 2 ^ 14))) ∧
    ∀ e, EngId.ofNum eng.toNat = some e →
      let n := ((s.getG a).toNat + seq20.toNat) % 2 ^ 64
      ((s.eng e).forked = false → exec (.twait q d a eng seq20) s = .next (s.writes q d 4)) ∧
      ((s.eng e).forked = true → ∀ k, (s.eng e).toks.find? (fun t => t.seq == n) = some k →
        (k.done = true → exec (.twait q d a eng seq20) s = .next (s.writes q d (if k.can then 2 else 0))) ∧
        (k.done = false → exec (.twait q d a eng seq20) s = .next s.waits)) ∧
      ((s.eng e).forked = true → (s.eng e).toks.find? (fun t => t.seq == n) = none →
        (n < (s.eng e).seq → exec (.twait q d a eng seq20) s = .next (s.writes q d 0)) ∧
        ((s.eng e).seq ≤ n → (s.eng e).running = true → (s.eng e).ended = false → (s.eng e).cut = false →
          exec (.twait q d a eng seq20) s = .next s.waits) ∧
        ((s.eng e).seq ≤ n → (s.eng e).ended = true → (s.eng e).cut = false →
          ∀ x, (s.eng e).toks.find? (fun t => some t.seq == (s.eng e).endSeq) = some x →
            exec (.twait q d a eng seq20) s = .next (if x.done then s.writes q d 4 else s.waits)))

/-- QCANCEL discards the queues of the running engines it names, ends their streams, and retires without waiting; commands in
flight and the other engines stay as they are. It numbers what the queues held and has not issued, every pass of a REP for
itself, and completes the token of each as cancelled: as many as the queue has words, where no REP runs or is queued
(R28, R169; numbers are 48 bits wide, log entry 64). -/
def Obligations.QueueCancel : Prop :=
  ∀ (s : State) (q : Qual) (mask : BitVec 3), s.holds q = true →
    ∃ t, exec (.qcancel q mask) s = .next t ∧ t.ctl.pc = s.ctl.pc + 8 ∧ (∀ g, t.getG g = s.getG g) ∧ s.sameBytes t ∧
      ∀ e, ((mask.getLsbD e.num = false ∨ (s.eng e).running = false) → t.eng e = s.eng e) ∧
        (mask.getLsbD e.num = true → (s.eng e).running = true →
          (t.eng e).running = false ∧ (t.eng e).queue = [] ∧ (t.eng e).rep = none ∧ (t.eng e).can = true ∧
          (t.eng e).flight = (s.eng e).flight ∧ ∃ n, (t.eng e).seq = ((s.eng e).seq + n) % 2 ^ 48 ∧
            ((s.eng e).rep = none → (∀ w ∈ (s.eng e).queue, opOf w.word ≠ 0x71) → n = (s.eng e).queue.length) ∧
            (∀ r, (s.eng e).rep = some r → (∀ w ∈ (s.eng e).queue, opOf w.word ≠ 0x71) → r.pos ≤ r.body →
              r.pass < r.count → r.body ≤ (s.eng e).queue.length →
              n = r.body - r.pos + (r.count - r.pass - 1) * r.body + ((s.eng e).queue.length - r.body)) ∧
            (∀ k, k < n → ∃ x ∈ (t.eng e).toks, x.seq = (s.eng e).seq + k ∧ x.done = true ∧ x.can = true) ∧
            (t.eng e).toks.drop n = (s.eng e).toks)

/-- HALT waits as JOIN does; then the task leaves its slot, and its launch core number counts as halted in its launch
(R176, R293). The other cores stay as they are. -/
def Obligations.HaltRetiresTask : Prop :=
  ∀ (s : State) (q : Qual), s.holds q = true →
    (s.task.framesDone = false → exec (.halt q) s = .next s.waits) ∧
    (s.task.framesDone = true → ∃ t, exec (.halt q) s = .next t ∧ t.cur.slot = .empty ∧ t.rest = s.rest ∧
      t.cur.pcore = s.cur.pcore ∧ t.cur.staged = s.cur.staged ∧
      ∀ l, s.findLaunch s.task.lid = some l → ∃ m, t.findLaunch s.task.lid = some m ∧
        m.halted = l.halted ++ [s.task.lcn] ∧ m.maxTime = max l.maxTime s.ctl.tasktime)

/-- BAR raises TIMED-STATE in a timed frame, BARR ALIGN on G[A], then on G[B], TIMED-STATE, PERMISSION outside the core's own
windows, G[A] first; at scope core they complete at once; otherwise the first execution arrives, BARR with the 64 bytes that it
reads at G[A], and waits, and the departure completes it, BARR writing the reduced payload. A generation departs when every task
of the unit has arrived, all of them, but for those that an edit has taken past their BAR or BARR, whose arrival counts all the
same (log entry 110); with GEOMETRY where the participants disagree on the instruction, ROP or RTYPE, and only
there. The payload is element by element the pairwise tree of the participants' payloads by rank (R171, R172). Which address a
record carries is log entry 10's. -/
def Obligations.BarriersMeet : Prop :=
  (∀ (s : State) (q : Qual) (scope : BitVec 3) (bid : BitVec 6), s.holds q = true →
    ((s.ctl.frame && s.ctl.timed) = true → exec (.bar q scope bid) s = .next (s.trapHere { code := .timedState })) ∧
    ((s.ctl.frame && s.ctl.timed) = false →
      (scope = 0 → exec (.bar q scope bid) s = .next (s.retired (s.ctl.pc + 8))) ∧
      (scope ≠ 0 →
        let a : Arrival := ⟨s.task.lid, s.task.lcn, scope, s.unitOf scope.toNat s.task.lcn, bid, false, 0, 0, [], 0⟩
        let own (l n : Nat) : Bool := l == s.task.lid && n == s.task.lcn
        let mine (x : Depart) : Bool := own x.lid x.lcn && x.scope == scope && x.bid == bid
        let here (x : Arrival) : Bool := own x.lid x.lcn && x.scope == scope && x.bid == bid
        (s.departs.find? mine = none → s.arrivals.any here = false →
          exec (.bar q scope bid) s = .next (State.waits { s with
            arrivals := (s.arrivals.filter fun x => !own x.lid x.lcn) ++ [a]
            left := s.left ++ s.arrivals.filter fun x => own x.lid x.lcn
            departs := s.departs.filter fun x => !own x.lid x.lcn })) ∧
        (s.departs.find? mine = none → s.arrivals.any here = true →
          exec (.bar q scope bid) s = .next s.waits) ∧
        ∀ x, s.departs.find? mine = some x →
          let u := { s with departs := s.departs.filter fun y => !own y.lid y.lcn }
          exec (.bar q scope bid) s
            = .next (if x.ok then State.retired u (s.ctl.pc + 8) else State.trapHere u { code := .geometry })))) ∧
  (∀ (s : State) (q : Qual) (a b : BitVec 5) (scope : BitVec 3) (bid : BitVec 6) (rop rtype : BitVec 3),
    s.holds q = true →
    let va := (s.getG a).toNat
    let vb := (s.getG b).toNat
    let i : Instr := .barr q a b scope bid rop rtype
    let own (l n : Nat) : Bool := l == s.task.lid && n == s.task.lcn
    let mine (x : Depart) : Bool := own x.lid x.lcn && x.scope == scope && x.bid == bid
    let here (x : Arrival) : Bool := own x.lid x.lcn && x.scope == scope && x.bid == bid
    (va % 64 ≠ 0 → exec i s = .next (s.trapHere { code := .align, addr := some va })) ∧
    (va % 64 = 0 → vb % 64 ≠ 0 → exec i s = .next (s.trapHere { code := .align, addr := some vb })) ∧
    (va % 64 = 0 → vb % 64 = 0 → (s.ctl.frame && s.ctl.timed) = true →
      exec i s = .next (s.trapHere { code := .timedState })) ∧
    (va % 64 = 0 → vb % 64 = 0 → (s.ctl.frame && s.ctl.timed) = false →
      (ownWindow va = none → exec i s = .next (s.trapHere { code := .permission, addr := some va })) ∧
      (ownWindow va ≠ none → ownWindow vb = none →
        exec i s = .next (s.trapHere { code := .permission, addr := some vb })) ∧
      ∀ src dst, ownWindow va = some src → ownWindow vb = some dst →
        (∀ tr, s.readBad va src.1 src.2 64 = some tr → exec i s = .next (s.trapHere tr)) ∧
        (s.distinct → s.readBad va src.1 src.2 64 = none →
          let u := s.showFor src.1 src.2 64
          (s.still → u = s) ∧
          (scope = 0 → exec i s = .next (State.retired
              ((u.behindSeen dst.1 dst.2 64).putPayload dst (u.payload src)) (s.ctl.pc + 8)) ∧
            (u.unseenAnywhere → u.behindSeen dst.1 dst.2 64 = u)) ∧
          (scope ≠ 0 → s.departs.find? mine = none →
            (s.arrivals.any here = true → exec i s = .next u.waits) ∧
            (s.arrivals.any here = false →
              exec i s = .next (State.waits { u with
                arrivals := (s.arrivals.filter fun x => !own x.lid x.lcn) ++
                  [⟨s.task.lid, s.task.lcn, scope, s.unitOf scope.toNat s.task.lcn, bid, true, rop.toNat, rtype.toNat,
                    u.payload src, vb⟩]
                left := s.left ++ s.arrivals.filter fun x => own x.lid x.lcn
                departs := s.departs.filter fun x => !own x.lid x.lcn }))) ∧
          ∀ x, scope ≠ 0 → s.departs.find? mine = some x →
            (x.ok = false → exec i s = .next (State.trapHere
              { u with departs := s.departs.filter fun y => !own y.lid y.lcn } { code := .geometry })) ∧
            (x.ok = true → ∃ t, exec i s = .next t ∧ t.ctl.pc = s.ctl.pc + 8 ∧
              t.departs = s.departs.filter (fun y => !own y.lid y.lcn) ∧
              (s.canonical → x.payload.length = 64 → t.payload dst = x.payload))))) ∧
  (∀ (s : State) (lid unit : Nat) (scope : BitVec 3) (bid : BitVec 6),
    let ps := s.participants lid scope.toNat unit
    let here (a : Arrival) : Bool := a.lid == lid && a.scope == scope && a.unit == unit && a.bid == bid
    let at_ (n : Nat) : Option Arrival := (s.left ++ s.arrivals).find? fun a => here a && a.lcn == n
    let gone (n : Nat) : Bool := s.left.any fun a => here a && a.lcn == n
    ((∃ n ∈ ps, at_ n = none) → exec (.barrierDeparture lid scope unit bid) s = .next s) ∧
    ∀ as : List Arrival, ps ≠ [] → ps.map at_ = as.map some →
      ∃ t ok bs, exec (.barrierDeparture lid scope unit bid) s = .next t ∧
        t.arrivals = s.arrivals.filter (fun a => !here a || (ps.contains a.lcn && gone a.lcn)) ∧
        t.departs = s.departs ++ (ps.filter fun n => !gone n).map (fun n => ⟨lid, n, scope, bid, ok, bs⟩) ∧
        t.left.Sublist s.left ∧ t.left.length + (ps.filter gone).length = s.left.length ∧
        (ok = true ↔ ∀ x ∈ as, ∀ y ∈ as, x.barr = y.barr ∧ x.rop = y.rop ∧ x.rtype = y.rtype) ∧
        ∀ x ∈ as, ok = true → x.barr = true →
          let n := if x.rtype = 2 ∨ x.rtype = 3 then 8 else 4
          let elem (p : List Byte) (k : Nat) : Nat := leNat ((p.drop (n * k)).take n)
          bs.length = 64 ∧ ∀ k, k < 64 / n → elem bs k
            = reduceTree (barrOp x.rop x.rtype) as.length (as.map fun y => elem y.payload k) % 2 ^ (8 * n)) ∧
  ∀ (op : Nat → Nat → Nat) (l : List Nat),
    (∀ x, reduceTree op 1 [x] = x) ∧
    (1 < l.length → reduceTree op l.length l = reduceTree op ((l.length + 1) / 2) (pairUp op l)) ∧
    (pairUp op l).length = (l.length + 1) / 2 ∧
    ∀ k, (pairUp op l)[k]? = match l[2 * k]?, l[2 * k + 1]? with
      | some x, some y => some (op x y)
      | some x, none => some x
      | none, _ => none

/-- LAUNCH reads its record as eight class-0 loads from a 64-byte aligned address, raises LAUNCH for a record that breaks
a rule that R291 marks LAUNCH, and submits any other to the queue of its die and priority: G[D] is the new LAUNCHID, or 0 with
nothing submitted when the queue is full; a LAUNCHID is not given twice; while a command that a load has seen is still to land
it waits (R91, R157, R173, R291, R292; log entry 8). -/
def Obligations.LaunchSubmits : Prop :=
  (∀ r : LaunchWords, r.bad = true ↔
    (2 ^ 56 ≤ r.w0.toNat ∧ r.w0.toNat < 2 ^ 64 - 2 ^ 56) ∨ r.w0.toNat % 4096 ≠ 0 ∨ r.w2.toNat % 64 ≠ 0 ∨
    r.w3.toNat / 2 ^ 17 % 2 ^ 40 ≠ 0 ∨ r.w3.toNat % 2 ^ 17 = 0 ∨ r.w5.toNat / 2 ^ 24 % 2 ^ 8 ≠ 0 ∨
    r.w5.toNat / 2 ^ 4 % 2 ^ 4 = 0 ∨ r.w5.toNat % 2 ^ 4 ≠ 0 ∨ r.w6 ≠ 0 ∨ r.w7 ≠ 0) ∧
  (∀ r : LaunchWords, r.prio = r.w3.toNat / 2 ^ 60 % 4 ∧ r.gshape = r.w3.toNat / 2 ^ 62 % 4 ∧ r.gcount = r.w3.toNat % 2 ^ 17) ∧
  ∀ (s : State) (q : Qual) (d a : BitVec 5), s.distinct → s.holds q = true →
    let va := (s.getG a).toNat
    (va % 64 ≠ 0 → exec (.launch q d a) s = .next (s.trapHere { code := .align, addr := some va })) ∧
    (va % 64 = 0 → ∀ u ws, s.loadWords 8 va = (.words ws, u) →
      let r := launchWords ws
      let die := s.cur.pcore / 144
      let waiting := (u.launches.filter fun l => l.die == die && l.rec_.prio == r.prio && l.st == .queued).length
      (r.bad = true → exec (.launch q d a) s = .next (u.trapHere { code := .launch })) ∧
      (r.bad = false → ¬u.unseen → exec (.launch q d a) s = .next u.waits) ∧
      (r.bad = false → u.unseen → 256 ≤ waiting →
        exec (.launch q d a) s = .next (State.retired (u.setG d 0) (s.ctl.pc + 8))) ∧
      (r.bad = false → u.unseen → waiting < 256 →
        exec (.launch q d a) s
          = .next (State.retired (State.setG { u with
              nextLid := u.nextLid + 1
              launches := u.launches ++ [⟨u.nextLid, s.task.part, die, r, .queued, [], 0⟩] } d
              (BitVec.ofNat 64 u.nextLid)) (s.ctl.pc + 8))))

/-- IINV covers the resident tasks of the issuer's partition in its unit and retires when each has passed its
invalidation point; at that point exactly the 64-byte lines that the range touches, or all, leave the instruction cache, a J
register that is EMPTY stays so and any other becomes STALE with its TADDR; G[B] = 0 removes no line (R158, R163). An IINV of the
task with another range or scope goes on without it; that a range which passes the last address ends there, and what becomes of an
IINV that an edit has taken its task past, are log entry 108's. -/
def Obligations.InstructionInvalidate : Prop :=
  (∀ (s : State) (q : Qual) (a b : BitVec 5) (scope : BitVec 3) (whole : Bool), s.holds q = true →
    let own (i : Iinv) : Bool := i.lid == s.task.lid && i.lcn == s.task.lcn && !i.left
    let lo := (s.getG a).toNat / 64 * 64
    let hi := if s.getG b = 0 then lo else ((s.getG a).toNat + (s.getG b).toNat + 63) / 64 * 64
    let mine (i : Iinv) : Bool :=
      own i && i.lo == lo && i.hi == hi && i.scope == scope.toNat && i.whole == whole
    (s.iinvs.find? mine = none → ∃ t, exec (.iinv q a b scope whole) s = .next t ∧ t.ctl.waiting = true ∧
      ∃ i : Iinv, t.iinvs = s.iinvs.map (fun x => if own x = true then { x with left := true } else x) ++ [i] ∧
        mine i = true ∧
        (∀ va, i.lo ≤ va ∧ va < i.hi ↔ ∃ x, x / 64 = va / 64 ∧ (s.getG a).toNat ≤ x ∧
          x < (s.getG a).toNat + (s.getG b).toNat) ∧
        ∀ n, n ∈ i.todo ↔ ∃ c ∈ s.cores, c.pcore = n ∧ c.slot = .resident ∧ c.task.part = s.task.part ∧
          (match scope.toNat with
            | 0 => s.cur.pcore = n | 1 => s.cur.pcore / 4 = n / 4 | 2 => s.cur.pcore / 144 = n / 144 | _ => True)) ∧
    (∀ i, s.iinvs.find? mine = some i → i.todo = [] → ∃ t, exec (.iinv q a b scope whole) s = .next t ∧
      t.ctl.pc = s.ctl.pc + 8 ∧ t.iinvs = s.iinvs.filter fun x => x.id != i.id) ∧
    (∀ i, s.iinvs.find? mine = some i → i.todo ≠ [] → exec (.iinv q a b scope whole) s = .next s.waits)) ∧
  ∀ (s : State) (id : Nat) (i : Iinv), s.iinvs.find? (fun x => x.id == id && x.todo.contains s.cur.pcore) = some i →
    ∃ t, exec (.iinvInvalidationPoint id) s = .next t ∧
      (∀ w, w ∈ t.task.icache ↔ w ∈ s.task.icache ∧ i.whole = false ∧ ¬(i.lo ≤ w.1 ∧ w.1 < i.hi)) ∧
      (∀ j, let r := s.ctl.getJ j
        t.ctl.getJ j = if r.st = .empty then r else ⟨r.taddr, .stale, []⟩) ∧
      (∀ g, t.getG g = s.getG g) ∧ (∀ x ∈ t.iinvs, x.id = id → s.cur.pcore ∉ x.todo)

/-- PRIME pins the translations of its list, G[B] = 0 unpinning all; more than 256 entries raise GEOMETRY, a misaligned
list ALIGN, an open timed frame TIMED-STATE, in this order, which is log entry 50's; a fault leaves the old set in place. Entry by entry the list is loaded and
walked: a window is skipped, an address outside R74's regions raises NOT-PRESENT, and the first load or walk that faults ends
it (R165). -/
def Obligations.PrimePins : Prop :=
  (∀ (s : State) (q : Qual) (a b : BitVec 5), s.distinct → s.holds q = true →
    let n := (s.getG b).toNat
    let va := (s.getG a).toNat
    (256 < n → exec (.prime q a b) s = .next (s.trapHere { code := .geometry })) ∧
    (n ≤ 256 → va % 8 ≠ 0 → exec (.prime q a b) s = .next (s.trapHere { code := .align, addr := some va })) ∧
    (n ≤ 256 → va % 8 = 0 → (s.ctl.frame && s.ctl.timed) = true →
      exec (.prime q a b) s = .next (s.trapHere { code := .timedState })) ∧
    (n ≤ 256 → va % 8 = 0 → (s.ctl.frame && s.ctl.timed) = false →
      (∀ v ls, s.primeList n va [] = (.pins ls, v) →
        exec (.prime q a b) s = .next (State.retired (v.withTask { v.task with pins := ls }) (s.ctl.pc + 8))) ∧
      (∀ v tr, s.primeList n va [] = (.trap tr, v) →
        exec (.prime q a b) s = .next (v.trapHere tr) ∧ v.task.pins = s.task.pins ∧ v.ctl = s.ctl) ∧
      (∀ v, s.primeList n va [] = (.held, v) →
        exec (.prime q a b) s = .next v.waits ∧ v.task.pins = s.task.pins) ∧
      (n = 0 → ∃ t, exec (.prime q a b) s = .next t ∧ t.task.pins = []))) ∧
  ∀ (s u : State) (n va : Nat) (ls : List (Nat × Leaf)) (w : Word) (ws : List Word),
    s.primeList 0 va ls = (.pins ls, s) ∧
    (∀ tr, s.loadWords 1 va = (.trap tr, u) → s.primeList (n + 1) va ls = (.trap tr, u)) ∧
    (s.loadWords 1 va = (.words (w :: ws), u) →
      (∀ sp o, locate w.toNat = .window sp o → s.primeList (n + 1) va ls = u.primeList n (va + 8) ls) ∧
      (locate w.toNat = .none →
        s.primeList (n + 1) va ls = (.trap { code := .notPresent, addr := some w.toNat }, u)) ∧
      (locate w.toNat = .virt → u.oldLeaf w.toNat = none →
        (∀ c, u.walk w.toNat = .error c → s.primeList (n + 1) va ls = (.trap { code := c, addr := some w.toNat }, u)) ∧
        ∀ l, u.walk w.toNat = .ok l → ∃ ls', s.primeList (n + 1) va ls = u.primeList n (va + 8) ls' ∧
          ∀ p, p ∈ ls' ↔ p ∈ ls ∨ p = (w.toNat / 2 ^ l.log2 * 2 ^ l.log2, l)))

/-! ### Streams -/

/-- The generic commands complete, IDLE and EFENCE also as words of a running body, whose next word or pass follows: IDLE's token
is done at issue and its EXTRA adds to the stamps of all later commands; REP issues once its body stands in the queue and replays
it COUNT times; EFENCE holds later commands of an elastic frame until
the named classes have performed, with a mask of zero it only produces a token (whatever its SCOPE, log entry 78), and in a timed
frame a SCOPE other than core raises TIMED-STATE; END ends the stream, and its token is done when every earlier command has completed (R17, R24, R32 to R35).
Stamps and numbers are 48 bits wide (R23); that they wrap is log entry 64's. -/
def Obligations.GenericCommands : Prop :=
  ∀ (s : State) (e : EngId) (h : CmdHead) (q : QEnt),
    let g := s.eng e
    let moved (t : State) : Prop := match g.rep with
      | none => (t.eng e).queue = g.queue.tail ∧ (t.eng e).rep = none
      | some r =>
        if r.pos + 1 < r.body then (t.eng e).queue = g.queue ∧ (t.eng e).rep = some { r with pos := r.pos + 1 }
        else if r.pass + 1 < r.count then
          (t.eng e).queue = g.queue ∧ (t.eng e).rep = some { r with pos := 0, pass := r.pass + 1 }
        else (t.eng e).queue = g.queue.drop r.body ∧ (t.eng e).rep = none
    let S := (g.stamp + h.idle.toNat + 1) % 2 ^ 48
    let issued (t : State) (done : Bool) : Prop :=
      (t.eng e).seq = (g.seq + 1) % 2 ^ 48 ∧ (t.eng e).toks = ⟨g.seq, S, done, false⟩ :: g.toks ∧ s.sameBytes t ∧
      t.ctl = s.ctl ∧ ∀ x, x ≠ e → t.eng x = s.eng x
    (s.mayGo e h .none 0 q →
      (∀ extra, ∃ t, exec (.idle e h extra) s = .next t ∧ issued t true ∧
        (t.eng e).stamp = (S + extra.toNat) % 2 ^ 48 ∧ moved t ∧ (t.eng e).flight = g.flight) ∧
      (g.rep = none → ∀ body countm1 addr tid wstep, q.pc + 8 + 8 * BitVec.toNat (w := 4) body ≤ g.rhi →
        body.toNat + 1 ≤ g.queue.length →
        (((g.queue.drop 1).take body.toNat).any fun x => bodyBad e addr tid x.word) = false →
        ∃ t, exec (.rep e h body countm1 addr tid wstep) s = .next t ∧ issued t true ∧ (t.eng e).stamp = S ∧
          (t.eng e).queue = g.queue.tail ∧
          (t.eng e).rep = some ⟨body.toNat, countm1.toNat + 1, 0, 0, addr, tid, wstep⟩) ∧
      (g.rep = none → ∃ t, exec (.endStream e h) s = .next t ∧ (t.eng e).seq = (g.seq + 1) % 2 ^ 48 ∧ (t.eng e).running = false ∧
        (t.eng e).ended = true ∧ (t.eng e).endSeq = some g.seq ∧ (t.eng e).queue = [] ∧ (t.eng e).flight = g.flight ∧
        s.sameBytes t ∧ ∃ k ∈ (t.eng e).toks, k.seq = g.seq ∧ k.stamp = S ∧ k.can = false ∧
          k.done = (g.flight.isEmpty && g.stopped.isNone))) ∧
    ∀ (classes : BitVec 16) (scope : BitVec 3), s.mayGo e h .none (g.fenceLat classes.toNat) q →
      (classes = 0 → ∃ t, exec (.efence e h classes scope) s = .next t ∧ issued t true ∧ moved t ∧ (t.eng e).hold = g.hold ∧
        (t.eng e).flight = g.flight) ∧
      (classes ≠ 0 → g.strict = true → scope.toNat ≠ 0 →
        exec (.efence e h classes scope) s = .next (s.failAt e { code := .timedState })) ∧
      (classes ≠ 0 → (g.strict = true → scope.toNat = 0) → ∃ t, exec (.efence e h classes scope) s = .next t ∧
        issued t false ∧ moved t ∧ (t.eng e).stamp = S ∧ (t.eng e).hold = (if g.strict then g.hold else some g.seq) ∧
        ∃ f, (t.eng e).flight = g.flight ++ [f] ∧ f.seq = g.seq ∧ f.op = .fence classes.toNat ∧ f.writes = [] ∧
          ∀ x ∈ g.flight, x.cls &&& classes.toNat ≠ 0 → x.land ≤ f.land)

/-- Every command of the matrix engine issues when it is ready and none of its checks raises a fault: it is numbered,
stamped and put in flight on its resource (R13, R17, R195, R198); one that reads another core whose task is not resident stays
at the head, which is log entry 24's reading of R75. `u` and `i` are what its checks and its reading of its sources leave. -/
def Obligations.MatrixCommandsIssue : Prop :=
  ∀ (s u : State) (h : CmdHead) (q : QEnt) (i : Issued) (a b c : BitVec 6) (semi : BitVec 2) (x y z : Bool)
    (sh : BitVec 3) (km1 : BitVec 7),
    let goes (r : Res) (k : State → Cost) (body : State → Except Trap (State × Issued)) (ins : Instr) : Prop :=
      s.mayGo .matrix h r (k s).lat q → body s = .ok (u, i) →
        exec ins s = .next (if i.held then s else u.issuedAs .matrix h r q (k s) i)
    goes .a (mmaCost a b (Semi.of semi) y) (mmaBody a b c (Semi.of semi) x y z) (.mma h a b c semi x y z) ∧
    goes .a (acczCost c) (acczBody c) (.accz h c) ∧
    goes .b (rowsCost a 16) (acccpBody a c x) (.acccp h a c x) ∧
    goes .c (wfillCost a c) (wfillBody a c) (.wfill h a c) ∧
    goes .c (fun _ => { occ := 1, lat := 1 }) (winvBody c x) (.winv h c x) ∧
    goes .a (rankCost a) (partBody a c x) (.part h a c x) ∧
    goes .a (rankCost a) (rankBody a c x) (.rank h a c x) ∧
    goes .a (rankCost a) (topkBody a c km1 x) (.topk h a c km1 x) ∧
    goes .b (rowsCost a 60) (drainBody false a c sh) (.drain h a c sh) ∧
    goes .b (rowsCost a 48) (drainBody true a c sh) (.amax h a c sh) ∧
    goes .none (fun _ => { lat := 1 }) (mseedBody a) (.mseed h a)

/-- Every command of the flume issues when it is ready and none of its checks raises a fault (R13, R17, R233, R234); one
whose remote source belongs to a task that is not resident stays at the head, which is log entry 24's reading of R75. PFETCH issues in elastic frames alone, and
in a timed one raises TIMED-STATE at its stamp (R254). -/
def Obligations.FlumeCommandsIssue : Prop :=
  ∀ (s u : State) (h : CmdHead) (q : QEnt) (i : Issued) (a b c : BitVec 6) (x : Bool) (p : BitVec 6) (rop : BitVec 2)
    (scope : BitVec 3),
    let goes (r : Res) (k : State → Cost) (body : State → Except Trap (State × Issued)) (ins : Instr) : Prop :=
      s.mayGo .flume h r (k s).lat q → body s = .ok (u, i) →
        exec ins s = .next (if i.held then s else u.issuedAs .flume h r q (k s) i)
    goes .a (copyCost a c) (copyBody a c) (.copy h a c) ∧
    goes .a (fillCost c) (fillBody a c x) (.fill h a c x) ∧
    goes .a (gatherCost a b c) (gatherBody false x a b c) (.gather h a b c x) ∧
    goes .a (gatherCost a b c) (gatherBody true x a b c) (.scatter h a b c x) ∧
    goes .a (gathpCost a b c) (gathpBody a b c p x) (.gathp h a b c p x) ∧
    goes .a (exp24Cost a c) (exp24Body a c) (.exp24 h a c) ∧
    goes .a (putrCost a c) (putrBody a c rop) (.putr h a c rop) ∧
    goes .a (bcastCost a c scope) (bcastBody a c scope) (.bcast h a c scope) ∧
    goes .none (fun _ => { lat := 1 }) (fseedBody a) (.fseed h a) ∧
    ((s.eng .flume).strict = false → goes .a (fun _ => { occ := 1, lat := 1 }) (pfetchBody a) (.pfetch h a)) ∧
    ((s.eng .flume).strict = true → (s.eng .flume).head = some q → s.mayIssue .flume = true →
      (s.eng .flume).nextStamp h.idle.toNat ≤ (s.eng .flume).cnt →
      (∀ w ∈ (s.eng .flume).waits h, s.task.resolve .flume ((s.eng .flume).nextStamp h.idle.toNat) (s.eng .flume).seq w
        ≠ .token ∧ s.task.resolve .flume ((s.eng .flume).nextStamp h.idle.toNat) (s.eng .flume).seq w ≠ .cancelled) →
      exec (.pfetch h a) s = .next (s.failAt .flume { code := .timedState })) ∧
    goes .a (cmpbCost a b c) (cmpbBody a b c) (.cmpb h a b c)

/-- Every command of the sluice issues when it is ready and none of its checks raises a fault (R13, R17, R263, R271);
CINC, CMERGE and CREAD do so on the D4, and on the D2 raise UNIMPL (R286): in a timed frame at their stamp, in an elastic frame
when nothing keeps them waiting, which is log entry 72's. -/
def Obligations.SluiceCommandsIssue : Prop :=
  ∀ (s u : State) (h : CmdHead) (q : QEnt) (i : Issued) (a b c : BitVec 6) (skip x : Bool) (sop : BitVec 3),
    let goes (r : Res) (k : State → Cost) (body : State → Except Trap (State × Issued)) (ins : Instr) : Prop :=
      s.mayGo .sluice h r (k s).lat q → body s = .ok (u, i) →
        exec ins s = .next (u.issuedAs .sluice h r q (k s) i)
    goes .a (costWide a c) (saccBody a b c skip sop) (.sacc h a b c skip sop) ∧
    goes .a (costEach a c) (sfetchBody a b c skip sop) (.sfetch h a b c skip sop) ∧
    goes .a (costEach a c) (scasBody a b c skip) (.scas h a b c skip) ∧
    goes .a (costWide a c) (bsetBody a c skip) (.bset h a c skip) ∧
    goes .a (costWide a c) (bclrBody a c skip) (.bclr h a c skip) ∧
    goes .a (costEach a c) (btestBody a b c skip x) (.btest h a b c skip x) ∧
    (s.d4 = true → goes .a (costEach a c) (cincBody a c skip) (.cinc h a c skip) ∧
      goes .a (cmergeCost c) (cmergeBody a c) (.cmerge h a c) ∧ goes .a (creadCost a) (creadBody a c) (.cread h a c)) ∧
    goes .none (fun _ => { lat := 1 }) (sseedBody a) (.sseed h a) ∧
    (s.d4 = false → (s.eng .sluice).head = some q →
      ∀ ins, ins = .cinc h a c skip ∨ ins = .cmerge h a c ∨ ins = .cread h a c →
        (s.ready .sluice (headAt q.word.toNat) .a 0 ≠ .wait → exec ins s = .next (s.failAt .sluice { code := .unimpl })) ∧
        (s.ready .sluice (headAt q.word.toNat) .a 0 = .wait → exec ins s = .next s)) ∧
    ((s.eng .sluice).strict = true → s.mayIssue .sluice = true → s.stampReached .sluice q →
      s.task.resolveAll .sluice ((s.eng .sluice).nextStamp (headAt q.word.toNat).idle.toNat) (s.eng .sluice).seq
        ((s.eng .sluice).waits (headAt q.word.toNat)) ≠ .cancelled →
      s.ready .sluice (headAt q.word.toNat) .a 0 ≠ .wait)

/-- A command of an engine, whatever its outcome, changes no byte of any store, no register of the control core and no
other engine when it issues: its effects land later (R20), but for what it finds of effects in flight, in a timed frame of other
cores' (R23, R88). Its own
engine's number stays, or goes up by one with a token at the stamp of R17, and a word without a listed opcode is not numbered.
What a flume command writes is settled at issue: COPY, GATHER, SCATTER and GATHP move rows, BCAST the rows of its source to
every target, FILL one code, EXP24 the two values of every group and zeros, CMPB the first difference of each row, and PUTR
sends its converted elements (R231, R238, R243 to R248, R250, R252, R255). That CMPB compares scaled sources by value, a NaN
differing from all, is log entry 75's, and which lanes a SCATTER leaves whose list does not rise log entry 76's. -/
def Obligations.IssueChangesNoByte : Prop :=
  (∀ (i : Instr) (e : EngId) (s t : State), i.agent = some (.engine e) → s.canonical → s.ordered →
    exec i s = .next t →
    s.sameBytesOrShown t ∧
    (s.still ∨ ((s.eng e).strict = true ∧ ∀ c ∈ s.rest, ∀ x, (c.task.eng x).flight = []) →
      s.sameBytes t ∧ t.rest = s.rest) ∧
    t.ctl.g = s.ctl.g ∧ t.ctl.p = s.ctl.p ∧ t.ctl.j = s.ctl.j ∧ t.ctl.ssp = s.ctl.ssp ∧
    t.ctl.pc = s.ctl.pc ∧ t.task.t = s.task.t ∧ t.task.pat = s.task.pat ∧ t.task.sh = s.task.sh ∧
    (∀ x, x ≠ e → (t.eng x).queue = (s.eng x).queue ∧ (t.eng x).flight.map (·.seq) = (s.eng x).flight.map (·.seq) ∧
      (t.eng x).toks = (s.eng x).toks ∧ (t.eng x).seq = (s.eng x).seq) ∧
    ((t.eng e).seq = (s.eng e).seq ∨
      (t.eng e).seq = ((s.eng e).seq + 1) % 2 ^ 48 ∧ ∃ h, i.cmdHead = some h ∧ ∃ k ∈ (t.eng e).toks,
        k.seq = (s.eng e).seq ∧ k.stamp = ((s.eng e).stamp + h.idle.toNat + 1) % 2 ^ 48 ∧ k.can = false)) ∧
  ∀ (s u : State) (i : Issued) (a b c : BitVec 6) (va vb vc : View), s.distinct → i.stop = none → i.held = false →
    s.slotView .flume 0 a = .ok va → s.slotView .flume 1 b = .ok vb → s.slotView .flume 2 c = .ok vc →
    let R := vc.t.rows
    let C := vc.t.cols
    let op (k : FluKind) (idx : List Int) : FluOp := { s.fluOp k va vb vc with idx }
    let one (k : FluKind) : FluOp := s.fluOp k va View.none_ vc
    let gens := s.task.flumeGen
    let gens' := u.task.flumeGen
    let indexed (idx : List Int) : Prop := ∃ ip : PageMap, idx.length = vb.t.cols ∧
      (s.asRead .flume).maps .load (s.eng .flume).strict (pagesOf ((s.listRuns vb 0 vb.t.cols).map (·.2))) ip ∧
      ∀ j, j < vb.t.cols → idx[j]? = some ((Env.mk (s.asRead .flume).elsewhere ip).index vb (s.scaleOf vb) 0 j)
    let inside (n : Nat) (x : Int) : Bool := 0 ≤ x && x < (n : Int)
    (copyBody a c s = .ok (u, i) → ∃ env out, s.flumeSees (one .copy) env out ∧
      (one .copy).moves env out ((List.range R).map fun r => (va, r, r)) gens gens' i.writes) ∧
    (∀ skip, gatherBody false skip a b c s = .ok (u, i) → ∃ idx env out, indexed idx ∧
      s.flumeSees (op (.gather skip) idx) env out ∧ (skip = false → ∀ x ∈ idx, inside va.t.rows x = true) ∧
      (op (.gather skip) idx).moves env out
        (((numbered 0 idx).filter fun p => inside va.t.rows p.2).map fun p => (va, p.2.toNat, p.1)) gens gens' i.writes) ∧
    (∀ skip, gatherBody true skip a b c s = .ok (u, i) → ∃ idx env out, indexed idx ∧
      s.flumeSees (op (.scatter skip) idx) env out ∧ (skip = false → ∀ x ∈ idx, inside vc.t.rows x = true) ∧
      let rows := ((numbered 0 idx).filter fun p => inside vc.t.rows p.2).map fun p => (va, p.1, p.2.toNat)
      ((rows.map (·.2.2)).Pairwise (· < ·) →
        (op (.scatter skip) idx).moves env out rows gens gens' i.writes) ∧
      (verbatim va.t vc.t = true → (op (.scatter skip) idx).moves env out rows gens gens' i.writes) ∧
      (verbatim va.t vc.t = false → ∃ code : Nat → Nat → Nat,
        i.writes = (numbered 0 rows).flatMap (fun p => (List.range C).flatMap fun k =>
          (op (.scatter skip) idx).put out p.2.2.2 k (code p.1 k)) ∧
        ∀ p ∈ numbered 0 rows, ∀ k, k < C →
          (op (.scatter skip) idx).rounds ((op (.scatter skip) idx).value env va p.2.2.1 p.2.2.2 k) (code p.1 k))) ∧
    (∀ ps skip, gathpBody a b c ps skip s = .ok (u, i) → ∃ idx env out, indexed idx ∧
      s.flumeSees (op (.gathp ps.toNat skip) idx) env out ∧ (skip = false → ∀ x ∈ idx, 0 ≤ x) ∧
      (op (.gathp ps.toNat skip) idx).moves env out
        (((numbered 0 idx).filter fun p => 0 ≤ p.2).flatMap fun p => (List.range va.t.rows).map fun r =>
          ({ va with off := va.off + (p.2.toNat * 2 ^ ps.toNat : Nat) }, r, p.1 * va.t.rows + r)) gens gens' i.writes) ∧
    (∀ scope, bcastBody a c scope s = .ok (u, i) →
      let k : FluKind := .bcast (s.unitCores scope.toNat vc.t.core)
      ∃ env out, s.flumeSees (one k) env out ∧
        (one k).moves env out ((List.range R).map fun r => (va, r, r)) gens gens' i.writes) ∧
    (fillBody a c true s = .ok (u, i) → gens' = gens ∧ ∃ env out,
      s.flumeSees { s.fluOp (.fill true) View.none_ View.none_ vc with code := some 0 } env out ∧
      i.writes = (List.range R).flatMap fun r => (List.range C).flatMap fun k => out.putAt vc r k 0) ∧
    (fillBody a c false s = .ok (u, i) → ∃ env out code, s.flumeSees (one (.fill false)) env out ∧
      i.writes = (List.range R).flatMap (fun r => (List.range C).flatMap fun k => out.putAt vc r k code) ∧
      (verbatim va.t vc.t = true → gens' = gens ∧ code = env.code va 0 0) ∧
      (verbatim va.t vc.t = false → drawn vc.t.fmt vc.t.sr vc.t.sat [(0, (one (.fill false)).value env va 0 0 0)] gens
        = ([code], gens'))) ∧
    (exp24Body a c s = .ok (u, i) → gens' = gens ∧
      let o : FluOp := s.fluOp .exp24 va.unscaled View.none_ vc.unscaled
      ∃ env out, s.flumeSees o env out ∧ ∃ code : Nat → Nat → Nat,
        i.writes = (List.range (R / 4)).flatMap (fun g => (List.range C).flatMap fun j => (List.range 4).flatMap fun r =>
          out.putAt vc.unscaled (4 * g + r) j (code (4 * g + r) j)) ∧
        ∀ g j r, g < R / 4 → j < C → r < 4 →
          let at_ (h : Nat) : Nat := o.index24 env h j
          at_ (2 * g) < at_ (2 * g + 1) ∧
          (at_ (2 * g) = r → code (4 * g + r) j = env.code va.unscaled (2 * g) j) ∧
          (at_ (2 * g + 1) = r → code (4 * g + r) j = env.code va.unscaled (2 * g + 1) j) ∧
          (at_ (2 * g) ≠ r → at_ (2 * g + 1) ≠ r → code (4 * g + r) j = 0)) ∧
    (cmpbBody a b c s = .ok (u, i) → ∃ env out, s.flumeSees (op .cmpb []) env out ∧
      let same (r j : Nat) : Prop :=
        if va.t.sen || vb.t.sen then (env.value va (s.scaleOf va) r j).eq (env.value vb (s.scaleOf vb) r j) = true
        else env.code va r j = env.code vb r j
      ∃ d : Nat → Nat,
        (∀ r, r < va.t.rows →
          (d r = 0xFFFF ∧ ∀ j, j < va.t.cols → same r j) ∨
          (d r < va.t.cols ∧ ¬same r (d r) ∧ ∀ j, j < d r → same r j)) ∧
        (vc.t.sen = false → gens' = gens ∧
          i.writes = (List.range va.t.rows).flatMap fun r => out.putAt vc 0 r (d r)) ∧
        (vc.t.sen = true → ∃ cs, drawn vc.t.fmt vc.t.sr vc.t.sat
            ((List.range va.t.rows).map fun r => (r, (Num.fin false (d r) 1).unscale
              (decodeNum (s.scaleOf vc).fmt (env.scaleCode vc (s.scaleOf vc) 0 r)))) gens = (cs, gens') ∧
          i.writes = ((List.range va.t.rows).zip cs).flatMap fun x => out.putAt vc 0 x.1 x.2)) ∧
    ∀ rop, putrBody a c rop s = .ok (u, i) → i.writes = [] ∧
      let o := one (.putr rop.toNat)
      let g := s.eng .flume
      let els := (List.range R).flatMap fun r => (List.range C).map fun k => (r, k)
      let elems (r : Req) : List RedElem := match r.op with | .putr _ _ es => es | _ => []
      ∃ env out cs rs, s.flumeSees o env out ∧ cs.length = R * C ∧
        (u.eng .flume).reqs = g.reqs ++ rs ∧ (u.eng .flume).tag = g.tag + BitVec.ofNat 32 rs.length ∧
        rs.map (·.tag) = (List.range rs.length).map (fun n => g.tag + BitVec.ofNat 32 n) ∧
        (∀ r ∈ rs, r.seq = g.seq ∧ r.tgt = vc.t.space ∧ r.applied = false ∧ r.confirmed = false ∧
          r.op = .putr rop.toNat vc.t.fmtCode (elems r) ∧ elems r ≠ [] ∧ (elems r).length * vc.w ≤ max 512 vc.w ∧
          (r.elem + (elems r).length - 1) / C = r.elem / C) ∧
        rs.flatMap elems = (els.zip cs).map (fun x =>
          let at_ := vc.bitAt x.1.1 x.1.2
          ⟨(List.range (((at_ % 8).toNat + vc.w + 7) / 8)).map fun k => (out.dest vc.t (at_ / 8 + (k : Nat))).2,
            (at_ % 8).toNat, vc.w, x.2, false⟩) ∧
        (verbatim va.t vc.t = true → gens' = gens ∧ cs = els.map fun x => env.code va x.1 x.2) ∧
        (verbatim va.t vc.t = false → drawn vc.t.fmt vc.t.sr vc.t.sat
          (els.map fun x => (x.1 * C + x.2, o.value env va x.1 x.1 x.2)) gens = (cs, gens'))

/-- Occupancy and latency of the engines' commands, in cycles: M rows of A, R rows drained or copied, n keys or elements, b
bytes that a flume command moves; the sluice's latencies with no earlier command in flight, whose landing would come first
(R195, R202, R206, R208, R234, R269, R271). That scales count among the bytes is log entry 70's; the MEM row for a command with
MEM and REMOTE operands, BCAST's and PUTR's own row, and n rows with skipped ones counted are log entry 25's. -/
def Obligations.CommandTimes : Prop :=
  (∀ (s : State) (a b c : BitVec 6) (sem : Semi) (y : Bool) (va vb vc : View),
    s.slotView .matrix 0 a = .ok va → s.slotView .matrix 1 b = .ok vb → s.slotView .matrix 2 c = .ok vc →
    (let far := vb.t.kind = 1 ∨ vb.t.kind = 2
      let M := if y then (s.operand va).extent.2 else (s.operand va).extent.1
      (far → mmaCost a b sem y s = ⟨max M 128, M + 280⟩) ∧ (¬far → mmaCost a b sem y s = ⟨max M 32, M + 150⟩)) ∧
    ((acczCost c s).lat = (acczCost c s).occ ∧
      (vc.t.fmtCode ≠ 0x20 → (acczCost c s).occ = 8 * ((vc.t.rows * 4 * vc.t.cols + 65535) / 65536)) ∧
      (vc.t.fmtCode = 0x20 → (acczCost c s).occ = 8 * ((vc.t.rows * 4 * ((vc.t.cols + 31) / 32) + 65535) / 65536))) ∧
    rankCost a s = ⟨2 * va.t.cols + 64, 2 * va.t.cols + 320⟩ ∧
    (∀ n, rowsCost a n s = ⟨va.t.rows, va.t.rows + n⟩) ∧
    ∃ n, wfillCost a c s = ⟨(n + 255) / 256, (n + 255) / 256 + 40⟩ ∧
      ∀ u i, wfillBody a c s = .ok (u, i) → ∃ lo cells, i.op = .weight lo (lo + n) cells [] ∧ cells.length = n) ∧
  (∀ (s : State) (a b c : BitVec 6) (scope : BitVec 3) (va vb vc : View),
    s.slotView .flume 0 a = .ok va → s.slotView .flume 1 b = .ok vb → s.slotView .flume 2 c = .ok vc →
    let bytes (v : View) (n : Nat) : Nat := v.bytes n + s.scaleBytes v n
    let n := vb.t.cols
    let R := va.t.rows
    let times (k : Cost) (b : Nat) (ts : List View) : Prop :=
      ((∃ v ∈ ts, v.t.kind = 3) → k = ⟨(b + 63) / 64, (b + 63) / 64 + 2048⟩) ∧
      ((∀ v ∈ ts, v.t.kind ≠ 3) → (∃ v ∈ ts, v.t.kind = 8) → k = ⟨(b + 127) / 128, (b + 127) / 128⟩) ∧
      ((∀ v ∈ ts, v.t.kind ≠ 3 ∧ v.t.kind ≠ 8) → k = ⟨(b + 127) / 128, (b + 127) / 128 + 24⟩)
    times (copyCost a c s) (max (bytes va R + s.scaleBytes vc vc.t.rows) (vc.bytes vc.t.rows)) [va, vc] ∧
    times (fillCost c s) (vc.bytes vc.t.rows) [vc] ∧
    times (gatherCost a b c s) (max (bytes va n + s.scaleBytes vc n + bytes vb 1) (vc.bytes n)) [va, vb, vc] ∧
    times (gathpCost a b c s) (max (n * bytes va R + bytes vb 1 + s.scaleBytes vc (n * R)) (vc.bytes (n * R)))
      [va, vb, vc] ∧
    times (exp24Cost a c s) (max (va.bytes R + R * ((va.t.cols + 3) / 4)) (vc.bytes vc.t.rows)) [va, vc] ∧
    times (cmpbCost a b c s) (R * va.t.cols) [va, vb, vc] ∧
    (∀ b, b = max (bytes va R + s.scaleBytes vc vc.t.rows) (vc.bytes vc.t.rows) →
      putrCost a c s = ⟨(b + 127) / 128, (b + 127) / 128⟩) ∧
    let cores := (s.unitCores scope.toNat vc.t.core).length
    let b := max (bytes va R + s.scaleBytes vc vc.t.rows) (cores * vc.bytes vc.t.rows)
    bcastCost a c scope s = ⟨(b + 127) / 128, (b + 127) / 128⟩) ∧
  ∀ (s : State) (a c : BitVec 6) (va vc : View), s.slotView .sluice 0 a = .ok va → s.slotView .sluice 2 c = .ok vc →
    let n := va.t.cols
    let N := va.t.rows * va.t.cols
    (vc.t.kind = 8 → (costWide a c s).occ = (n + 15) / 16 ∧ (costEach a c s).occ = (n + 15) / 16) ∧
    (vc.t.kind ≠ 8 → (costWide a c s).occ = (n + 15) / 16 ∧ (costEach a c s).occ = (n + 7) / 8) ∧
    (vc.t.kind ≠ 8 → (s.eng .sluice).flight = [] →
      (costWide a c s).lat = (n + 15) / 16 + 40 ∧ (costEach a c s).lat = (n + 7) / 8 + 48) ∧
    (∀ f ∈ (s.eng .sluice).flight, (∃ op, f.op = .slu op) →
      f.land ≤ (s.eng .sluice).cnt + (costWide a c s).lat ∧ f.land ≤ (s.eng .sluice).cnt + (costEach a c s).lat) ∧
    (va.t.kind = 7 → (creadCost a s).occ = (N + 15) / 16 ∧
      ((s.eng .sluice).flight = [] → (creadCost a s).lat = (N + 15) / 16 + 32)) ∧
    (vc.t.kind = 7 →
      let m := (vc.t.rows * vc.t.cols * min (if vc.t.lw8 then 255 else 15) (31 / vc.t.kExp) + 15) / 16
      (cmergeCost c s).occ = m ∧ ((s.eng .sluice).flight = [] → (cmergeCost c s).lat = m + 64))

/-! ### Landing, tokens and remote accesses -/

/-- A command lands when it is due: a timed one at its landing cycle, not while its task is parked, any one only after
its requests are confirmed. Its bytes, with the hidden flags of the register space, and the effect of its own are performed,
its token is done, an EFENCE's hold ends, RANGE bits are set, and it leaves the flight. What it lands comes after what other cores'
loads have seen early; where a store already follows what a load has seen of a later landing, it lands beneath that and does not
show (R85, R88, log entry 73). A fold whose word cannot be read stops its command before any of it has landed (R223).
A WFILL or WINV leaves its bytes, and zeros in the lines it invalidates; a fold the greater of two magnitudes; a sluice command its elements' updates, its old values,
and a later seed. One that meets a fault at an element stops there for the restart entry, and its token stays (R20, R24, R34,
R50, R205, R221, R223, R241, R242, R268, R283, R284, R305). -/
def Obligations.CommandsLand : Prop :=
  ∀ (s : State) (e : EngId) (n : Nat) (f : Flight), (s.eng e).flight.find? (fun x => x.seq == n) = some f →
    let p := s.landing e f
    let lands (w : State) : State := s.landed e f w
    let i : Instr := .commandLands e n
    let done (t : State) : Prop :=
      (∀ x ∈ (t.eng e).flight, x.seq ≠ n) ∧ (∀ k ∈ (t.eng e).toks, k.seq = n → k.done = true) ∧
      (t.eng e).toks.map (·.seq) = (s.eng e).toks.map (·.seq) ∧ t.faults = s.faults ∧ t.ctl.g = s.ctl.g ∧
      (t.eng e).hold = (if (s.eng e).hold = some n then none else (s.eng e).hold) ∧
      (s.canonical → (∀ tid ∈ f.ranges, (t.task.tword tid 0).getLsbD 3 = true) ∧
        ∀ k, (∀ tid ∈ f.ranges, k ≠ 8 * tid) → spGet 0 t.task.t k = spGet 0 s.task.t k)
    let stops (t : State) (tr : Trap) : Prop :=
      ∃ r, t.faults = s.faults ++ [r] ∧ fld r.w0.toNat 0 8 = tr.code.num ∧ (t.eng e).stopped.isSome = true ∧
        (t.eng e).restart.rvalid = true ∧ (t.eng e).restart.elem = tr.elem.getD 0 ∧ (t.eng e).toks = (s.eng e).toks ∧
        ∀ x ∈ (t.eng e).flight, x.seq ≠ n
    (s.unseenAnywhere → p = s.perform f.acc f.writes f.flags ∧ ∀ w, lands w = w) ∧
    (f.timed = true → s.task.saving = false → (s.eng e).cnt < f.land ∨ s.task.parkAll = true →
      exec i s = .next s) ∧
    (s.due e f = false → exec i s = .next s) ∧
    (s.distinct → s.due e f = true → (s.eng e).foldLeft n = none →
      (f.op = .none ∨ (∃ m, f.op = .fence m) ∨ (∃ op ends, f.op = .flu op ends) →
        (f.stop = none → ∃ t, exec i s = .next t ∧ done t ∧ (lands p).sameBytes t ∧ t.task.flags = (lands p).task.flags) ∧
        ∀ tr, f.stop = some tr → ∃ t, exec i s = .next t ∧ (lands p).sameBytes t ∧ stops t tr) ∧
      (∀ lo hi cells lines, f.op = .weight lo hi cells lines → f.stop = none → f.writes = [] → s.canonical →
        spWf false s.task.wbValid = true → (cells.map (·.1)).Nodup → ∃ t w, exec i s = .next t ∧ done t ∧ (lands w).sameBytes t ∧
        ∀ a, w.rdByte .wbuf a = match cells.find? fun c => c.1 == a with
          | some c => c.2
          | none => if inLines lines (a / 256) then 0 else p.rdByte .wbuf a) ∧
      (∀ o, f.op = .fold o → f.stop = none → o.sp = .scr → s.canonical →
        (p.badIn .scr o.at_ 4 = none → ∃ t w, exec i s = .next t ∧ done t ∧ (lands w).sameBytes t ∧
          w.littleEndian .scr o.at_ 4 = foldWord (p.littleEndian .scr o.at_ 4) o.val % 2 ^ 32 ∧
          p.sameBytesBut w .scr o.at_ 4) ∧
        ∀ b, p.badIn .scr o.at_ 4 = some b → ∃ t, exec i s = .next t ∧
          stops t { code := .uncorrectable, addr := Space.window .scr b } ∧ s.sameBytes t ∧ t.task.flags = s.task.flags ∧
          (t.eng e).stopped = some f) ∧
      ∀ o, f.op = .slu o → f.stop = none →
        (o.tgt.t.kind ≠ 8 →
          let r := o.perform p
          let w := o.deliver (r.olds ++ o.olds) r.s
          (r.stop = none → ∃ t, exec i s = .next t ∧ done t ∧ (lands w).sameBytes t ∧
            t.task.sluGen = f.seedAfter.getD w.task.sluGen) ∧
          ∀ tr, r.stop = some tr → ∃ t, exec i s = .next t ∧ stops t tr ∧ (lands w).sameBytes t ∧
            t.task.sluGen = w.task.sluGen) ∧
        (o.tgt.t.kind = 8 →
          let w := o.deliver (((s.eng e).reqs.filter fun r => r.seq == n).flatMap (·.olds)).reverse p
          ∃ t, exec i s = .next t ∧ done t ∧ (lands w).sameBytes t ∧ t.task.sluGen = f.seedAfter.getD s.task.sluGen))

/-- What the matrix engine's commands leave: MMA updates every element of C that it covers from the terms of its pass, and nothing
else. The terms are those products in which no factor is a structural zero, in increasing k, of the values with their scales. An
INT32 element takes the exact sum, or the greatest term, modulo 2^32, and OVF where that leaves the range; an FP32 element the
pass value of R185, whatever the order of its terms, added with one rounding where it was touched; MAX keeps the greatest of
−∞ < finite < +∞ < NaN with −0 < +0. A BIT element takes the OR or the XOR of its terms, an untouched word counting as 0; bits
outside keep their value. ACCZ clears the words that its accumulator's lines touch, with TOUCHED and OVF 0, and nothing else.
ACCCP copies elements with their flags, and with ZSRC clears the rest of its source's words; WFILL carries the
bytes of its source, WINV the lines of its image. The drain's chain does nothing with every stage off and clamps where it is on;
DRAIN converts every element of the chain, AMAX takes the greatest magnitude, which the fold keeps (R38, R184 to R189, R202,
R203, R206, R207, R215, R221). The flags of a BIT tile are log entry 22's, the bits of opposite infinities that meet in C + S log
entry 79's, terms with scales in an INT32 or BIT accumulator log entry 74's; that an element across two words has the flags of the
lower one is log entry 87's choice, that C, and the codes that ACCCP copies, are written as they are where their entry has scales
log entry 82's, and what ACCCP does with words that its rows cover in part log entry 99's. -/
def Obligations.AccumulatorUpdates : Prop :=
  (∀ (s u : State) (c : BitVec 6) (i : Issued) (vc : View), s.canonical → s.slotView .matrix 2 c = .ok vc →
    acczBody c s = .ok (u, i) →
    let t := s.perform i.acc i.writes i.flags
    u = s ∧ (∀ w ∈ vc.words, t.littleEndian .reg (4 * w) 4 = 0 ∧ spGet Flag.fresh t.task.flags w = ⟨false, false⟩) ∧
    (∀ w, w ∉ vc.words → spGet Flag.fresh t.task.flags w = spGet Flag.fresh s.task.flags w) ∧
    (∀ a, a / 4 ∉ vc.words → t.rdByte .reg a = s.rdByte .reg a) ∧ (∀ a, t.rdByte .scr a = s.rdByte .scr a) ∧
    ∀ l x, l < vc.lines.1 → x < lineBytes vc.lines.2 vc.w → 0 ≤ vc.line l → ((vc.line l).toNat + x) / 4 ∈ vc.words) ∧
  (∀ (mx plain : Bool) (c : AccEl), accFp32 mx plain c [] = c ∧ accInt32 mx c [] = c) ∧
  (∀ (c : AccEl) (zs : List Int), zs ≠ [] →
    let new (v : Int) : AccEl := ⟨(v % 2 ^ 32).toNat, ⟨true, c.fl.ovf || decide (v < -2 ^ 31 ∨ 2 ^ 31 - 1 < v)⟩⟩
    accInt32 false c (zs.map Machine.Num.ofInt) = new ((if c.fl.touched then sgn 32 c.bits else 0) + zs.sum) ∧
    ∃ m ∈ zs, (∀ z ∈ zs, z ≤ m) ∧
      accInt32 true c (zs.map Machine.Num.ofInt) = new (if c.fl.touched then max (sgn 32 c.bits) m else m)) ∧
  (∀ (s u : State) (a b c : BitVec 6) (sem : Semi) (acc ta tb : Bool) (i : Issued) (va vb vc : View),
    s.slotView .matrix 0 a = .ok va → s.slotView .matrix 1 b = .ok vb → s.slotView .matrix 2 c = .ok vc →
    s.distinct → mmaBody a b c sem acc ta tb s = .ok (u, i) → i.held = false →
    let r := s.asRead .matrix
    let oa := s.operand va
    let ob := s.operand vb
    let M := (mmaExtents oa ob sem ta tb).1
    let Ka := (mmaExtents oa ob sem ta tb).2.1
    let Kb := (mmaExtents oa ob sem ta tb).2.2.1
    let N := (mmaExtents oa ob sem ta tb).2.2.2
    let C := r.elsewhere.forwarded
    let int := vc.t.fmtCode == 0x05
    i.acc = true ∧ r.heldOnly u ∧ ∃ env : Env, env.s = r.elsewhere ∧
      r.maps .load (s.eng .matrix).strict
        (pagesOf ((Env.mk r []).operandRuns r oa M ++ (Env.mk r []).operandRuns r ob M)) env.pages ∧
      let T (x y : Nat) : List Machine.Num := ((env.mmaTerms oa ob va vb vc sem ta tb)[x]?.bind (·[y]?)).getD []
      ((sem = .or ∨ sem = .xor) → (i.writes, i.flags) = accBits C vc (sem == .xor) acc
        ((List.range M).flatMap fun x => (List.range N).map fun y => (vc.bitAt x y, T x y))) ∧
      ((sem = .sum ∨ sem = .max) →
        let old (x y : Nat) : AccEl :=
          if acc then ⟨(Env.mk C []).codeAt vc.t (vc.bitAt x y) 32, C.flagAt (vc.bitAt x y)⟩ else ⟨0, ⟨false, false⟩⟩
        let new (x y : Nat) : AccEl :=
          if int then accInt32 (sem == .max) (old x y) (T x y)
          else accFp32 (sem == .max) (sem == .sum || (oa.generated || ob.generated)) (old x y) (T x y)
        let kept (x y : Nat) : Prop := acc = true ∧ T x y = []
        (∀ ws : Nat → Nat → List BWrite, (∀ x y, (kept x y → ws x y = []) ∧
            (¬kept x y → ws x y = (Env.mk C []).put vc.t (vc.bitAt x y) 32 (new x y).bits)) →
          i.writes = (List.range M).flatMap fun x => (List.range N).flatMap fun y => ws x y) ∧
        (∀ fs : Nat → Nat → List (Nat × Flag), (∀ x y, (kept x y → fs x y = []) ∧
            (¬kept x y → fs x y = [((vc.bitAt x y / 32).toNat, (new x y).fl)])) →
          i.flags = (List.range M).flatMap fun x => (List.range N).flatMap fun y => fs x y) ∧
        (oa = .stored va → ob = .stored vb → va.t.layout < 2 → vb.t.layout < 2 → va.t.furrowed = false →
          va.t.laneMod = 0 → vb.t.laneMod = 0 → ∀ x y, x < M → y < N →
          let A (k : Nat) : Machine.Num :=
            if ta then env.value va (env.s.scaleOf va) k x else env.value va (env.s.scaleOf va) x k
          let B (k : Nat) : Machine.Num :=
            if tb then env.value vb (env.s.scaleOf vb) y k else env.value vb (env.s.scaleOf vb) k y
          T x y = (List.range (min Ka Kb)).map fun k => term sem false int (A k) (B k)))) ∧
  (∀ (sem : Semi) (gen int : Bool) (xs ys : List (Option Machine.Num)),
    termsOf sem gen int xs ys = (xs.zip ys).filterMap fun p =>
      p.1.bind fun x => p.2.map fun y => term sem gen int x y) ∧
  (∀ (gen int : Bool) (x y : Machine.Num), term .sum gen int x y = x.mul y ∧
    (∀ n, x = .nan n → x.mul y = x) ∧ (∀ n, y = .nan n → x.isNan = false → x.mul y = y) ∧
    (∀ sg, (x = .inf sg ∧ y.isZero = true) ∨ (x.isZero = true ∧ y = .inf sg) → x.mul y = .nan 0x7FC00000) ∧
    (∀ n, x = .nan n → term .max false int x y = x) ∧
    (x.isNan = false → y.isNan = false →
      term .max false int x y = if int then x.add y else f32 (rne32 (x.add y)))) ∧
  (∀ (plain : Bool) (c : AccEl) (ts : List Machine.Num), ts ≠ [] →
    (c.fl.touched = false → accFp32 false plain c ts = ⟨rne32 (passSum ts), ⟨true, ts.length == 1 && plain⟩⟩) ∧
    (c.fl.touched = true → accFp32 false plain c ts = ⟨if (f32 c.bits).isNan then c.bits
      else if (passSum ts).isNan then rne32 (passSum ts) else rne32 ((f32 c.bits).add (passSum ts)), ⟨true, false⟩⟩) ∧
    (∀ n, ts.find? (·.isNan) = some (.nan n) → passSum ts = .nan n) ∧
    ((∀ x ∈ ts, x.isNan = false) →
      (.inf false ∈ ts → .inf true ∈ ts → passSum ts = .nan 0x7FC00000) ∧
      (∀ sg, .inf sg ∈ ts → .inf (!sg) ∉ ts → passSum ts = .inf sg) ∧
      ((∀ x ∈ ts, x.isZero = true) → passSum ts = .fin (ts.all (·.neg)) 0 1) ∧
      ((∀ sg, .inf sg ∉ ts) → (∃ x ∈ ts, x.isZero = false) → (∀ x ∈ ts, ∀ sg n d, x = .fin sg n d → d ≠ 0) →
        ∃ e : Int, (∃ sg n d, .fin sg n d ∈ ts ∧ n ≠ 0 ∧ floorLog2 n d = e) ∧
          (∀ sg n d, .fin sg n d ∈ ts → n ≠ 0 → floorLog2 n d ≤ e) ∧
          let cut : Machine.Num → Int
            | .fin sg n d =>
              let m : Nat := if e ≤ 64 then n * 2 ^ (64 - e).toNat / d else n / (d * 2 ^ (e - 64).toNat)
              if sg then -(m : Int) else m
            | _ => 0
          let v := (ts.map cut).sum
          passSum ts = if v = 0 then .fin false 0 1 else .mk2 (v < 0) v.natAbs (e - 64)))) ∧
  (∀ (plain : Bool) (c : AccEl) (ts us : List Machine.Num), ts.Perm us → (∀ x ∈ ts, x.isNan = false) →
    accFp32 false plain c ts = accFp32 false plain c us) ∧
  (∀ (plain : Bool) (c : AccEl) (ts : List Machine.Num), ts ≠ [] → (∀ x ∈ ts, ∀ sg n d, x = .fin sg n d → d ≠ 0) →
    ∃ m ∈ ts, (∀ x ∈ ts, maxBefore m x = false) ∧
      (c.fl.touched = false → accFp32 true plain c ts = ⟨rne32 m, ⟨true, ts.length == 1 && plain⟩⟩) ∧
      (c.fl.touched = true → accFp32 true plain c ts = ⟨if (f32 c.bits).isNan then c.bits
        else if maxBefore (f32 c.bits) m then rne32 m else c.bits, ⟨true, false⟩⟩)) ∧
  (∀ (x y : Machine.Num), (maxBefore x y = true ↔ (x.isNan = false ∧ (y.isNan = true ∨ x.lt y = true ∨
    (x.isZero = true ∧ y.isZero = true ∧ x.neg = true ∧ y.neg = false)))) ∧
    (∀ sem, sem = .or ∨ sem = .xor →
      term sem false false x y = .fin false (if x.isZero = true ∨ y.isZero = true then 0 else 1) 1)) ∧
  (∀ (r : State) (v : View) (xor acc : Bool) (els : List (Int × List Machine.Num)), r.canonical → v.t.kind = 1 →
    (els.map (·.1)).Nodup → (∀ x ∈ els, 0 ≤ x.1) →
    let out := accBits r v xor acc els
    let t := r.perform true out.1 out.2
    let bit (s : State) (b : Int) : Nat := (Env.mk s []).codeAt v.t b 1
    let word (b : Int) : Nat := (b / 32).toNat
    let flag (s : State) (w : Nat) : Flag := spGet Flag.fresh s.task.flags w
    (∀ x ∈ els,
      let ones := (x.2.filter fun t => !t.isZero).length
      let pass := if xor then ones % 2 else min ones 1
      let hit : Prop := ∃ y ∈ els, word y.1 = word x.1 ∧ y.2 ≠ []
      (acc = false → bit t x.1 = pass) ∧
      (acc = true → (flag r (word x.1)).touched = true →
        bit t x.1 = if xor then (bit r x.1 + pass) % 2 else max (bit r x.1) pass) ∧
      (acc = true → (flag r (word x.1)).touched = false → (hit → bit t x.1 = pass) ∧ (¬hit → bit t x.1 = bit r x.1)) ∧
      (hit → flag t (word x.1) = ⟨true, acc && (flag r (word x.1)).ovf⟩) ∧
      (¬hit → acc = true → flag t (word x.1) = flag r (word x.1)) ∧
      (¬hit → acc = false → flag t (word x.1) = ⟨(flag r (word x.1)).touched
        && decide ((els.filter fun y => word y.1 == word x.1).length < 32), false⟩)) ∧
    (∀ b : Int, 0 ≤ b → (∀ x ∈ els, x.1 ≠ b) → bit t b = bit r b) ∧
    ∀ a, (∀ x ∈ els, word x.1 ≠ a / 4) → t.rdByte .reg a = r.rdByte .reg a) ∧
  (∀ (s u s' : State) (a c : BitVec 6) (zsrc : Bool) (i : Issued) (va vc : View), s'.canonical →
    s.slotView .matrix 0 a = .ok va → s.slotView .matrix 2 c = .ok vc → acccpBody a c zsrc s = .ok (u, i) → vc.apart →
    let r := (s.asRead .matrix).elsewhere
    let t := s'.perform i.acc i.writes i.flags
    let word (v : View) (x y : Nat) : Nat := (v.bitAt x y / 32).toNat
    (∀ x y, x < va.t.rows → y < va.t.cols → (Env.mk t []).code vc x y = (Env.mk r []).code va x y ∧
      (vc.t.fmtCode ≠ 0x20 → spGet Flag.fresh t.task.flags (word vc x y) = r.flagAt (va.bitAt x y))) ∧
    ∀ w, (∀ x y, x < va.t.rows → y < va.t.cols → w ≠ word vc x y) →
      (zsrc = true → w ∈ va.words →
        t.littleEndian .reg (4 * w) 4 = 0 ∧ spGet Flag.fresh t.task.flags w = ⟨false, false⟩) ∧
      (zsrc = false ∨ w ∉ va.words →
        t.littleEndian .reg (4 * w) 4 = s'.littleEndian .reg (4 * w) 4 ∧
        spGet Flag.fresh t.task.flags w = spGet Flag.fresh s'.task.flags w)) ∧
  (∀ (s u : State) (a c : BitVec 6) (i : Issued) (va vc : View), s.slotView .matrix 0 a = .ok va →
    s.slotView .matrix 2 c = .ok vc → wfillBody a c s = .ok (u, i) →
    let r := s.asRead .matrix
    let lo := ((vc.t.base : Int) + vc.off).toNat
    ∃ n, i.writes = [] ∧ i.op = .weight lo (lo + n)
      ((List.range n).map fun k => (lo + k, (Env.mk r []).byte va.t ((va.t.base : Int) + va.off + (k : Nat)))) [] ∧
      (vc.t.layout = 0 → n = (((vc.t.rows : Int) - 1) * vc.t.rowStride).toNat + (vc.t.cols * vc.w + 7) / 8) ∧
      (vc.t.layout = 1 → n = (((vc.t.cols : Int) - 1) * vc.t.rowStride).toNat + (vc.t.rows * vc.w + 7) / 8) ∧
      (vc.t.layout = 2 → n = vc.t.rows / 2 * (vc.t.rowStride.toNat + (vc.t.cols + 3) / 4))) ∧
  (∀ (s u : State) (c : BitVec 6) (whole : Bool) (i : Issued) (vc : View), s.slotView .matrix 2 c = .ok vc →
    winvBody c whole s = .ok (u, i) → (whole = true ∨ vc.t.layout ≠ 3 → u = s) ∧
      (whole = false → vc.t.layout = 3 → u = s.asRead .matrix) ∧ i.writes = [] ∧ ∃ lines, i.op = .weight 0 0 [] lines ∧
      (whole = true → lines = [(0, 1024)]) ∧
      (whole = false → ∃ hi, lines = [(((vc.t.base : Int) + vc.off).toNat / 256, hi)] ∧
        (vc.t.layout = 0 → hi = (((vc.t.base : Int) + vc.off).toNat
          + (((vc.t.rows : Int) - 1) * vc.t.rowStride).toNat + (vc.t.cols * vc.w + 7) / 8 + 255) / 256))) ∧
  (∀ (p : Shape) (x sc bi ct : Machine.Num) (mark : Bool),
    (p.smode = 0 → p.ben = false → p.func = 0 → p.ccond = 0 → p.sel = 0 →
      (p.clen = false → p.chain x mark sc bi ct = ⟨x, mark, true⟩) ∧
      (p.clen = true → x.isNan = true → p.chain x mark sc bi ct = ⟨x, mark, true⟩) ∧
      (p.clen = true → x.isNan = false → p.chain x mark sc bi ct =
        if x.lt (f32 p.clo) = true then ⟨f32 p.clo, false, true⟩
        else if (f32 p.chi).lt x = true then ⟨f32 p.chi, false, true⟩ else ⟨x, mark, true⟩))) ∧
  (∀ (s u : State) (a c : BitVec 6) (sh : BitVec 3) (i : Issued) (va vc : View), s.distinct →
    s.slotView .matrix 0 a = .ok va → s.slotView .matrix 2 c = .ok vc →
    let p := s.task.shape sh.toNat
    let pick (use : Bool) (n : Nat) : Option View := if use then some ⟨s.task.entry n, 0⟩ else none
    let rows (env : Env) (x : Nat) : List DrainEl :=
      env.drainRow s p va (pick p.useStk p.stk) (pick p.ben p.btk) (pick p.useCtk p.ctk) x
    (drainBody false a c sh s = .ok (u, i) → vc.t.sen = false → ∃ (w : State) (env out : Env) (code : Nat → Nat → Nat),
      s.heldOnly w ∧ env.s = (w.asRead .matrix).elsewhere ∧
      i.writes = (List.range va.t.rows).flatMap (fun x => (List.range va.t.cols).flatMap fun y =>
        out.putAt vc x y (code x y)) ∧
      ∀ x y, x < va.t.rows → y < va.t.cols → ∃ el, (rows env x)[y]? = some el ∧
        (p.outm = true → code x y = maskCode vc.t.fmt el.m) ∧
        (p.outm = false → ∃ g, code x y
          = ((if el.mark then passConvert else convert) vc.t.fmt vc.t.sr vc.t.sat el.x g).code)) ∧
    (drainBody true a c sh s = .ok (u, i) → i.writes = [] ∧ ∃ (w : State) (env : Env),
      s.heldOnly w ∧ env.s = (w.asRead .matrix).elsewhere ∧
      let m := amaxOf (((List.range va.t.rows).flatMap (rows env)).map (·.x))
      (vc.t.kind = 2 → i.op = match m with
        | some x => .fold ⟨.scr, (vc.line 0).toNat, rne32 x⟩
        | none => .none))) ∧
  (∀ xs : List Machine.Num, (∀ x ∈ xs, ∀ sg n d, x = .fin sg n d → d ≠ 0) →
    (amaxOf xs = none ↔ ∀ x ∈ xs, x.isNan = true) ∧
    ∀ m, amaxOf xs = some m → (∃ x ∈ xs, x.isNan = false ∧ m = x.abs) ∧
      ∀ x ∈ xs, x.isNan = false → m.lt x.abs = false) ∧
  ∀ old v : Nat, (f32 v).isNan = false →
    ((f32 old).isNan = true → foldWord old v = old) ∧
    ((f32 old).isNan = false → (maxBefore (f32 old) (f32 v) = true → foldWord old v = v) ∧
      (maxBefore (f32 old) (f32 v) = false → foldWord old v = old))

/-- RANK, TOPK and PART write the ranks of their keys, the indices of the first ranks, and a stable partition. The rank of an
element is the number of those that go before it: the greater keys, with ASC the lesser ones, ties to the lower index, NaNs last;
the ranks are a permutation of 0 to n − 1, for any keys, and TOPK's list has at each rank the index that has it; PART's list is
every index once, then the count that stands first. Each element written is TOUCHED, and nothing beyond the length (R51, R208,
R209). That an index is written as it is where the destination has scales is log entry 82's reading, and that one across two
words sets the flags of the lower one log entry 87's choice. -/
def Obligations.RanksArePermutation : Prop :=
  (∀ (keys : List Machine.Num) (asc neg : Bool),
    (∀ k ∈ keys, ∀ sg n d, k = .fin sg n d → d ≠ 0) →
    (ranksOf asc keys).Perm (List.range keys.length) ∧
    (∀ k r, k ≤ keys.length → r < k →
      ∃ i, (byRank (ranksOf asc keys) k)[r]? = some i ∧ (ranksOf asc keys)[i]? = some r) ∧
    ∃ first after, partList neg keys = first ++ after ++ [first.length] ∧
      (first ++ after).Perm (List.range keys.length) ∧ first.Pairwise (· < ·) ∧ after.Pairwise (· < ·) ∧
      (∀ i ∈ first, ∀ x, keys[i]? = some x → ((x.isNan = false ∧ x.isZero = false) ↔ neg = false)) ∧
      ∀ i ∈ after, ∀ x, keys[i]? = some x → ((x.isNan = false ∧ x.isZero = false) ↔ neg = true)) ∧
  (∀ (keys : List Machine.Num) (asc : Bool) (goes : Nat → Nat → Bool),
    (∀ i j x y, keys[i]? = some x → keys[j]? = some y → (goes j i = true ↔
      (y.isNan = false ∧ x.isNan = true) ∨ (y.isNan = true ∧ x.isNan = true ∧ j < i) ∨
      (y.isNan = false ∧ x.isNan = false ∧
        ((asc = false ∧ x.lt y = true) ∨ (asc = true ∧ y.lt x = true) ∨ (x.eq y = true ∧ j < i))))) →
    ranksOf asc keys = (List.range keys.length).map fun i => ((List.range keys.length).filter fun j => goes j i).length) ∧
  ∀ (s u : State) (a c : BitVec 6) (i : Issued) (va vc : View), s.distinct → s.slotView .matrix 0 a = .ok va →
    s.slotView .matrix 2 c = .ok vc →
    let r := s.asRead .matrix
    let n := va.t.cols
    let writes (len : Nat) (f : List Machine.Num → List Nat) : Prop :=
      i.acc = true ∧ r.heldOnly u ∧ ∃ env : Env, env.s = r.elsewhere ∧
        r.maps .load (s.eng .matrix).strict (pagesOf (r.readRuns va)) env.pages ∧
        let list := f ((List.range n).map fun k => env.value va (u.scaleOf va) 0 k)
        i.writes = ((List.range len).flatMap fun k => env.put vc.t (vc.bitAt 0 k) 32 (list.getD k 0)) ∧
        i.flags = (List.range len).map fun k => ((vc.bitAt 0 k / 32).toNat, ⟨true, false⟩)
    (∀ asc, rankBody a c asc s = .ok (u, i) → writes n (ranksOf asc)) ∧
    (∀ (km1 : BitVec 7) asc, topkBody a c km1 asc s = .ok (u, i) →
      km1.toNat + 1 ≤ n ∧ writes (km1.toNat + 1) fun ks => byRank (ranksOf asc ks) (km1.toNat + 1)) ∧
    ∀ neg, partBody a c neg s = .ok (u, i) → writes (n + 1) (partList neg)

/-- Seeding gives lane i of a generator the state of R71, never 0, on the matrix engine and the flume, and the sluice its
one state. What the sluice's draws and updates give: a counter's estimate, its increment with probability 2^(−k·level), and the
trials of a merge; one window of SACC, BSET or BCLR combines each target element once with what its own elements combine to, in
their order; every other command performs element by element, each returning what stood there; elements performed in two parts
give what they give in one; and the bodies carry the index list and the values of their slots as read at issue (R70, R71, R210,
R253, R264 to R268, R273 to R283). That CREAD's levels and CMERGE's source are taken at issue is log entry 29's reading, that
a read may find draws taken ahead log entry 73's. -/
def Obligations.SeedsFillGenerators : Prop :=
  (∀ (s u v : State) (a : BitVec 6) (seed : BitVec 32) (w : View) (i : Issued), s.distinct →
    (seedOperand .matrix a s = .ok (v, seed, w) → mseedBody a s = .ok (u, i) → ∀ k, k < 128 →
      spGet seedZero u.task.drainGen k = laneSeed seed k) ∧
    (seedOperand .flume a s = .ok (v, seed, w) → fseedBody a s = .ok (u, i) → ∀ k, k < 128 →
      spGet seedZero u.task.flumeGen k = laneSeed seed k) ∧
    (seedOperand .sluice a s = .ok (v, seed, w) → (s.eng .sluice).flight = [] → sseedBody a s = .ok (u, i) →
      u.task.sluGen = seedOf seed) ∧
    (∀ k, laneSeed seed k ≠ 0) ∧ seedOf seed ≠ 0) ∧
  (∀ k l : Nat, 1 ≤ k → estimate k l * (2 ^ k - 1) + 1 = 2 ^ (k * l)) ∧
  (∀ (s : State) (v : View) (e : Nat),
    let l := s.sluGet v e
    let k := v.t.kExp
    let top := if v.t.lw8 then 255 else 15
    let g := draw32 s.task.sluGen
    let d := s.withTask { s.task with sluGen := g }
    (l = top → s.countUp v e = s) ∧
    (l ≠ top → l = 0 → s.countUp v e = s.sluPut v e 1) ∧
    (l ≠ top → l ≠ 0 → 32 ≤ k * l → s.countUp v e = s) ∧
    (l ≠ top → l ≠ 0 → k * l < 32 →
      s.countUp v e = if g.toNat < 2 ^ (32 - k * l) then d.sluPut v e (l + 1) else d) ∧
    (l = 0 → ∀ y, s.mergeInto v e y = if y = 0 then s else s.sluPut v e y) ∧
    s.mergeInto v e 0 = s) ∧
  (∀ (k lim n j z : Nat) (s : State),
    let g := draw32 s.task.sluGen
    let d := s.withTask { s.task with sluGen := g }
    let t := k * (z + 1 - j)
    (z ≤ lim → z ≤ (mergeTrials k lim n j z s).1 ∧ (mergeTrials k lim n j z s).1 ≤ min lim (z + n)) ∧
    (z = lim ∨ 32 ≤ t → mergeTrials k lim (n + 1) j z s = mergeTrials k lim n (j + 1) z s) ∧
    (z ≠ lim → t < 32 → mergeTrials k lim (n + 1) j z s
      = mergeTrials k lim n (j + 1) (if g.toNat < 2 ^ (32 - t) then z + 1 else z) d)) ∧
  (∀ (s : State) (v : View) (e c : Nat), s.canonical → v.apart → e < v.t.rows * v.t.cols →
    (s.sluPut v e c).sluGet v e = c % 2 ^ v.w ∧
    ∀ f, f < v.t.rows * v.t.cols → f ≠ e → (s.sluPut v e c).sluGet v f = s.sluGet v f) ∧
  (∀ (s : State) (op : SluOp) (sop : Nat), s.canonical → s.sound = true → op.tgt.apart → op.last ≤ op.first + 64 →
    op.done = [] → op.kind = .sacc sop ∨ ((op.kind = .bset ∨ op.kind = .bclr) ∧ sop = 6) →
    let r := op.perform s
    r.stop = none ∧ r.olds = [] ∧ ∀ e, e < op.tgt.t.rows * op.tgt.t.cols →
      let comb := sluCombine op.tgt.t.fmt sop
      let vs := ((List.range (op.last - op.first)).filter fun k => op.idx.getD (op.first + k) (-1) == (e : Int)).map
        fun k => op.vals.getD (op.first + k) 0
      r.s.sluGet op.tgt e = match vs with
        | [] => s.sluGet op.tgt e
        | x :: t => comb (s.sluGet op.tgt e) (t.foldl comb x) % 2 ^ op.tgt.w) ∧
  (∀ (s : State) (op : SluOp) (m : Nat), op.first ≤ m → m ≤ op.last →
    (((∃ sop, op.kind = .sacc sop) ∨ op.kind = .bset ∨ op.kind = .bclr) → (m - op.first) % 64 = 0) →
    let r := { op with last := m }.perform s
    let r' := { op with first := m }.perform r.s
    r.stop = none → op.perform s = ⟨r'.s, r'.olds ++ r.olds, r'.stop⟩) ∧
  (∀ (s : State) (op : SluOp), op.last = op.first + 1 →
    ((∀ sop, op.kind ≠ .sacc sop) → op.kind ≠ .bset → op.kind ≠ .bclr → op.at_ op.first = none →
      op.perform s = ⟨s, [], none⟩) ∧
    ∀ e, op.at_ op.first = some e → op.unreadable op.first e s = none →
      let i := op.first
      let old := s.sluGet op.tgt e
      let v := op.vals.getD i 0
      (∀ sop, op.kind = .sfetch sop →
        op.perform s = ⟨s.sluPut op.tgt e (sluCombine op.tgt.t.fmt sop old v), [(i, old)], none⟩) ∧
      (op.kind = .scas → op.perform s
        = ⟨if old = v then s.sluPut op.tgt e (op.news.getD i 0) else s, [(i, old)], none⟩) ∧
      (op.kind = .btest true → op.perform s = ⟨s.sluPut op.tgt e 1, [(i, old)], none⟩) ∧
      (op.kind = .btest false → op.perform s = ⟨s, [(i, old)], none⟩) ∧
      (op.raised i = none → op.kind = .cinc → op.perform s = ⟨s.countUp op.tgt e, [], none⟩) ∧
      (∀ d, op.raised i = some d → op.kind = .cinc ∨ op.kind = .cmerge → op.perform s =
        ⟨if d = 0 then s else s.sluPut op.tgt e (min (old + d) (if op.tgt.t.lw8 then 255 else 15)), [], none⟩) ∧
      (i < op.vals.length → i ∉ op.late →
        (op.kind = .cread → op.perform s = ⟨s, [(i, v)], none⟩) ∧
        (op.raised i = none → op.kind = .cmerge → op.perform s = ⟨s.mergeInto op.tgt e v, [], none⟩))) ∧
  ∀ (s u : State) (a b c : BitVec 6) (skip : Bool) (sop : BitVec 3) (i : Issued) (va vb vc : View), s.distinct →
    s.slotView .sluice 0 a = .ok va → s.slotView .sluice 1 b = .ok vb → s.slotView .sluice 2 c = .ok vc →
    let n := va.t.cols
    let r := s.asRead .sluice
    let carries (kind : SluKind) (rows : Nat) (q : Env → SluOp → Prop) : Prop :=
      ∃ op env, i.op = .slu op ∧ env.s = r.elsewhere ∧
        r.maps .load (s.eng .sluice).strict (pagesOf ((s.listRuns va 0 n ++
          (List.range rows).flatMap fun k => s.listRuns vb k n).map (·.2))) env.pages ∧
        op.kind = kind ∧ op.tgt = vc ∧ op.first = 0 ∧ op.last = n ∧ op.done = [] ∧ op.olds = [] ∧ op.rise = [] ∧ op.late = [] ∧
        op.idx = (List.range n).map (env.index va (s.scaleOf va) 0) ∧
        (skip = false → ∀ x ∈ op.idx, 0 ≤ x ∧ x < (vc.t.rows * vc.t.cols : Nat)) ∧ q env op
    let codes (env : Env) (k : Nat) : List Nat := (List.range n).map (env.code vb k)
    (saccBody a b c skip sop s = .ok (u, i) → carries (.sacc sop.toNat) 1 fun env op =>
      op.vals = if vb.t.fmtCode = vc.t.fmtCode ∧ vb.t.sen = false then codes env 0
        else (List.range n).map fun k => (convert vc.t.fmt false vc.t.sat (env.value vb (s.scaleOf vb) 0 k) 1).code) ∧
    (sfetchBody a b c skip sop s = .ok (u, i) → carries (.sfetch sop.toNat) 1 fun env op =>
      op.res = vb ∧ op.vals = codes env 0) ∧
    (scasBody a b c skip s = .ok (u, i) → carries .scas 2 fun env op =>
      op.res = vb ∧ op.vals = codes env 0 ∧ op.news = codes env 1) ∧
    (bsetBody a c skip s = .ok (u, i) → carries .bset 0 fun _ op => op.vals = List.replicate n 1) ∧
    (bclrBody a c skip s = .ok (u, i) → carries .bclr 0 fun _ op => op.vals = List.replicate n 0) ∧
    (∀ tas, btestBody a b c skip tas s = .ok (u, i) → carries (.btest tas) 0 fun _ op => op.res = vb) ∧
    (cincBody a c skip s = .ok (u, i) → carries .cinc 0 fun _ _ => True) ∧
    (s.sound = true → (s.eng .sluice).flight = [] →
      (cmergeBody a c s = .ok (u, i) → ∃ op, i.op = .slu op ∧ op.kind = .cmerge ∧ op.tgt = vc ∧ op.res = va ∧
        op.first = 0 ∧ op.last = vc.t.rows * vc.t.cols ∧ op.late = [] ∧
        op.vals = (List.range (vc.t.rows * vc.t.cols)).map (r.sluGet va)) ∧
      (creadBody a c s = .ok (u, i) → vc.t.sen = false → ∃ op, i.op = .slu op ∧ op.kind = .cread ∧ op.tgt = va ∧
        op.res = vc ∧ op.first = 0 ∧ op.last = va.t.rows * va.t.cols ∧ op.late = [] ∧
        op.vals = (List.range (va.t.rows * va.t.cols)).map (r.sluGet va)))

/-- The sequencer fetches the next word of its stream when the queue has room; outside the region, or where R81 refuses, it
raises its fault only where that word is the next to be executed; the frame starts when its countdown is over; a command whose
wait resolves to a cancelled token does not issue: its token completes cancelled at the head, in a timed frame at its stamp, and
later stamps count it with an IDLE's EXTRA; a word whose opcode is not listed raises UNIMPL or ILLEGAL once its stamp is
reached and, by log entry 72's choice, nothing else keeps it waiting; a word with no token slot is kept beside the queue (R13, R16,
R17, R25, R28, R29, R32, R35, R74, R196, R256, R285, R313). -/
def Obligations.SequencersRun : Prop :=
  ∀ (s : State) (e : EngId),
    let g := s.eng e
    (s.canFetch e = false → exec (.sequencerFetch e) s = .next s) ∧
    (s.canFetch e = true → g.rlo ≤ g.pc → g.pc + 8 ≤ g.rhi → ∀ w : Word,
      g.peek = some w ∨ (g.peek = none ∧ ∃ n u, s.vread g.pc .fetch 8 = (.ok n, u) ∧ w = BitVec.ofNat 64 n) →
      ∃ t, exec (.sequencerFetch e) s = .next t ∧ s.sameBytes t ∧ t.ctl = s.ctl ∧
        (s.task.admits e w = true → (t.eng e).queue = g.queue ++ [⟨g.pc, w⟩] ∧ (t.eng e).pc = g.pc + 8 ∧
          (t.eng e).peek = none) ∧
        (s.task.admits e w = false → (t.eng e).queue = g.queue ∧ (t.eng e).pc = g.pc ∧ (t.eng e).peek = some w)) ∧
    (s.canFetch e = true → g.rlo ≤ g.pc → g.pc + 8 ≤ g.rhi → g.peek = none → ∀ tr u,
      s.vread g.pc .fetch 8 = (.error tr, u) →
      (s.fetchesNext e = true →
        ∃ t r, exec (.sequencerFetch e) s = .next t ∧ t.faults = s.faults ++ [r] ∧ fld r.w0.toNat 0 8 = tr.code.num) ∧
      (s.fetchesNext e = false → exec (.sequencerFetch e) s = .next u)) ∧
    (g.queue = [] → s.fetchesNext e = g.started) ∧ (g.started = false → s.fetchesNext e = false) ∧
    (∀ q, g.queue.head? = some q → opOf q.word ≠ 0x71 → s.fetchesNext e = false) ∧
    (s.canFetch e = true → g.rhi < g.pc + 8 → (g.queue = [] → g.started = true →
        ∃ t r, exec (.sequencerFetch e) s = .next t ∧ t.faults = s.faults ++ [r] ∧
          fld r.w0.toNat 0 8 = if g.rhi < g.rlo ∧ locate g.pc = .none then 0x0B else 0x09) ∧
      (g.queue ≠ [] → exec (.sequencerFetch e) s = .next s)) ∧
    (g.running = true → g.started = false → s.task.parkAll = false → s.task.saving = false →
      (g.countdown = 0 → ∃ t, exec (.frameStart e) s = .next t ∧ (t.eng e).started = true ∧ (t.eng e).cnt = 0 ∧
        s.sameBytes t) ∧
      (g.countdown ≠ 0 → exec (.frameStart e) s = .next s)) ∧
    (∀ q w, g.head = some q →
      (s.ready e (headAt q.word.toNat) .none 0 ≠ .wait → exec (.engineOpcodeNotListed e w) s = .next (s.failAt e
        { code := if 0x40 ≤ fld w.toNat 47 7 ∧ fld w.toNat 47 7 ≤ 0x5F then .unimpl else .illegal })) ∧
      (s.ready e (headAt q.word.toNat) .none 0 = .wait → exec (.engineOpcodeNotListed e w) s = .next s)) ∧
    ∀ q, g.head = some q → s.mayIssue e = true →
      let S := g.nextStamp (headAt q.word.toNat).idle.toNat
      s.task.resolveAll e S g.seq (g.waits (headAt q.word.toNat)) = .cancelled → (g.strict = true → S ≤ g.cnt) →
      (g.strict = false → s.task.headSlot e = true) →
      ∃ t, exec (.cancelledAtHead e) s = .next t ∧ (t.eng e).seq = (g.seq + 1) % 2 ^ 48 ∧ (t.eng e).can = true ∧
        (opOf q.word ≠ 0x70 → (t.eng e).stamp = S) ∧
        (opOf q.word = 0x70 → (t.eng e).stamp = (S + fld q.word.toNat 0 26) % 2 ^ 48) ∧
        (t.eng e).flight = g.flight ∧ s.sameBytes t ∧ t.ctl = s.ctl ∧ t.faults = s.faults ∧
        ∃ k ∈ (t.eng e).toks, k.seq = g.seq ∧ k.stamp = S ∧ k.done = true ∧ k.can = true

/-- A tagged request is applied once: a tag that its target has applied within 16 ms is only confirmed again; a request
that a target applies is marked applied and brings back its old values; one that meets an uncorrectable error stops its command
once the earlier requests of it are confirmed, whose old values are written; a confirmation marks it confirmed (R241, R242, R249, R250, R284, R308). -/
def Obligations.TaggedRequests : Prop :=
  ∀ (s : State) (e : EngId) (tag : BitVec 32) (r : Req), (s.eng e).reqs.find? (fun x => x.tag == tag) = some r →
    (s.reqReady e r = true → s.tagApplied e tag = true → ∃ t, exec (.reductionRequest e tag) s = .next t ∧
      s.sameBytes t ∧ ∀ x ∈ (t.eng e).reqs, x.tag = tag → x.applied = true) ∧
    (s.reqReady e r = true → s.tagApplied e tag = false → ∀ f, (s.eng e).flight.find? (fun f => f.seq == r.seq) = some f →
      (s.reqBad f r = none → s.distinct → ∀ u olds, (s.overAhead e r.bytes).applyReq r = (u, olds) →
        (s.unseenAnywhere → s.overAhead e r.bytes = s) ∧
        ∃ t, exec (.reductionRequest e tag) s = .next t ∧ u.sameBytes t ∧ t.tagApplied e tag = true ∧
          ∀ x ∈ (t.eng e).reqs, x.tag = tag → x.applied = true ∧ x.olds = olds) ∧
      ∀ tr, s.reqBad f r = some tr →
        (((s.eng e).reqs.takeWhile fun x => x.tag != tag).all fun x => x.confirmed || x.seq != r.seq) = true →
        ∃ t x, exec (.reductionRequest e tag) s = .next t ∧ t.faults = s.faults ++ [x] ∧ fld x.w0.toNat 0 8 = tr.code.num ∧
          (t.eng e).stopped.isSome = true ∧ (t.eng e).restart.ktag = tag ∧ (s.deliverConfirmed e f).sameBytes t) ∧
    (s.reqReady e r = false → exec (.reductionRequest e tag) s = .next s) ∧
    (r.applied = true → r.confirmed = false → ((s.eng e).reqs.all fun x => !x.lost) = true →
      ∃ t, exec (.remoteConfirmation e tag) s = .next t ∧ s.sameBytes t ∧ t.faults = s.faults ∧
        ∀ x ∈ (t.eng e).reqs, x.tag = tag → x.confirmed = true)

/-- A remote access that has not completed within 8 ms of counted time raises REMOTE-TIMEOUT: the control core's with its
address and no register changed, a plain flume command's at one of its elements, a request's, the only one in flight, with its
tag as KTAG (R75, R241, R242, R251). -/
def Obligations.RemoteTimeouts : Prop :=
  (∀ (s : State) (va : Nat), s.ctl.remote = some va → 14000000 ≤ s.ctl.remoteAge →
    ∃ t r, exec (.remoteTimeout .control) s = .next t ∧ t.faults = s.faults ++ [r] ∧ fld r.w0.toNat 0 8 = 0x15 ∧
      r.w5 = BitVec.ofNat 64 va ∧ t.ctl.remote = none ∧ t.ctl.pc = s.ctl.pc ∧ t.ctl.g = s.ctl.g ∧ s.sameBytes t) ∧
  (∀ (s : State) (e : EngId) (f : Flight), (s.eng e).flight.find? (fun f => f.plainRemote && cycles8ms ≤ f.age) = some f →
    (s.eng e).stopped = none → s.reaches f = true → ∀ op ends, f.op = .flu op ends → f.cuts op ends ≠ [] →
    ∃ t r, exec (.remoteTimeout (.engine e)) s = .next t ∧ t.faults = s.faults ++ [r] ∧ fld r.w0.toNat 0 8 = 0x15 ∧
      (t.eng e).stopped.isSome = true ∧
      ∃ k x, k ∈ f.cuts op ends ∧ ends[k]? = some x ∧ (t.eng e).restart.elem = x.k) ∧
  ∀ (s : State) (e : EngId) (tag : BitVec 32) (r : Req) (f : Flight),
    (s.eng e).reqs = [r] → r.tag = tag → r.confirmed = false → r.lost = false → 14000000 ≤ r.age → s.reqReaches r = true →
    (s.eng e).stopped = none → (s.eng e).flight.find? (fun x => x.seq == r.seq) = some f →
    ∃ t x, exec (.putrRequestTimeout e tag) s = .next t ∧ t.faults = s.faults ++ [x] ∧ fld x.w0.toNat 0 8 = 0x15 ∧
      (t.eng e).stopped.isSome = true ∧ (t.eng e).restart.ktag = tag

/-! ### The headgate, the firmware and the hypervisor -/

/-- A launch call enters its queue and returns its LAUNCHID, or 0 where nothing is accepted; a host calls through a virtual
function over its link; dispatch refuses a launch with SHAPE or makes its gangs ready; BIND and RESUME fill the staged slot that
they name, once the cores are clocked; a fill from a launch image loads its registers and stages the task, one from a context
image its registers and parked state, and either invalidates the core's whole instruction cache; when every task of a group is STAGED, each core swaps and the last swap releases them all
(R163, R291, R292, R295 to R297, R301, R302, R320, R325). The places of the context areas and the times of these moves are the model's (log
entry 9), that a task saved parked stays so when it is resumed is log entry 85's, and that the frame bits of a launch image's MODE are not
loaded either is log entry 91's. FRAMECNT and TASKTIME start at 0 (R125). -/
def Obligations.HeadgateStartsTasks : Prop :=
  (∀ (s : State) (die part : Nat) (host : Bool) (r : LaunchWords) (p : Partition), s.partOf part = some p →
    let open_ := die < s.dies ∧ p.running = true ∧ (host = true → p.vf = true ∧ s.hostLink = true)
    let back (n : Nat) (t : State) : Prop := ∀ q ∈ t.parts, q.id = part → q.lastCall = n
    (¬open_ → exec (.hypervisorLaunchCall die ⟨part, host⟩ r) s = .next s) ∧
    (open_ → r.bad = true ∨ 256 ≤ s.queueLen die r.prio → ∃ t, exec (.hypervisorLaunchCall die ⟨part, host⟩ r) s = .next t ∧
      t.launches = s.launches ∧ t.nextLid = s.nextLid ∧ back 0 t ∧ s.sameBytes t) ∧
    (open_ → r.bad = false → s.queueLen die r.prio < 256 →
      ∃ t, exec (.hypervisorLaunchCall die ⟨part, host⟩ r) s = .next t ∧ t.nextLid = s.nextLid + 1 ∧ back s.nextLid t ∧
        t.launches = s.launches ++ [⟨s.nextLid, part, die, r, .queued, [], 0⟩] ∧ s.sameBytes t)) ∧
  (∀ (s : State) (die prio : Nat) (l : Launch), s.power = .s0 → s.exitAt = none →
    s.launches.find? (fun l => l.die == die && l.rec_.prio == prio && l.st == .queued) = some l →
    (s.misfit l.part l.rec_ = true → exec (.launchDispatch die prio) s = .next (s.finishLaunch l 1 0)) ∧
    (s.misfit l.part l.rec_ = false → ∃ t, exec (.launchDispatch die prio) s = .next t ∧
      t.launches = s.launches.map (fun x => if x.lid = l.lid then { l with st := .active } else x) ∧
      t.gangs = s.gangs ++
        (List.range l.rec_.gcount).map fun i => ⟨l.lid, i, .ready, l.rec_.prio, s.now, false, []⟩)) ∧
  (∀ (s : State) (die : Nat) (r : BindRec) (l : Launch), s.distinct → s.nextBind die = some r →
    s.findLaunch r.lid = some l → l.st = .active → (s.coreAt r.pcore).staged = .empty →
    let clocked : Prop := s.power = .s0 ∧ s.exitAt = none ∧ ∀ p, s.partOf l.part = some p → p.power = .s0
    ∀ i, (i = .bind die ∧ r.action = 1) ∨ (i = .resume die ∧ r.action = 2) → (¬clocked → exec i s = .next s) ∧ (clocked → ∃ t, exec i s = .next t ∧
      (t.coreAt r.pcore).staged = .filling ∧ (t.coreAt r.pcore).stagedTag = r.tag ∧
      (t.coreAt r.pcore).stagedTask.lid = r.lid ∧ (t.coreAt r.pcore).stagedTask.lcn = r.lcn ∧
      (t.coreAt r.pcore).fillFrom = r.addr ∧ (t.coreAt r.pcore).fillCtx = (r.action == 2) ∧
      (t.coreAt r.pcore).slot = (s.coreAt r.pcore).slot ∧ (t.coreAt r.pcore).task = (s.coreAt r.pcore).task ∧
      ∀ n, n ≠ r.pcore → t.coreAt n = s.coreAt n)) ∧
  (∀ (s : State) (l : Launch) (img : Img) (r : Nat × SavedRest), s.cur.staged = .filling →
    s.findLaunch s.cur.stagedTask.lid = some l → s.cur.fillCtx = true →
    s.beheld.readImage l.part l.queue s.cur.fillFrom s.cur.fillVirt = .ok img → img.header 2 = true →
    s.saved.find? (fun e => e.1 == s.cur.fillFrom) = some r →
    ∃ t, exec .contextFill s = .next t ∧ t.cur.staged = .staged ∧ t.cur.stagedTask.parkAll = r.2.parkAll ∧
      t.cur.stagedTask.parkCtl = r.2.parkCtl ∧ t.cur.stagedTask.ctl.pc = img.word 0x258 &&& ~~~7#64 ∧
      (∀ x, x ≠ 0 → t.cur.stagedTask.ctl.getG x = img.word (0x100 + 8 * x.toNat)) ∧
      t.cur.task = { s.cur.task with icache := [] } ∧ t.mem = s.mem) ∧
  (∀ (s : State) (l : Launch) (img : Img) (u : Task), s.cur.staged = .filling →
    s.findLaunch s.cur.stagedTask.lid = some l → s.cur.fillCtx = false →
    s.beheld.readImage l.part l.queue s.cur.fillFrom s.cur.fillVirt = .ok img → img.header 1 = true →
    img.launch (s.identity l s.cur.stagedTask.lcn) l.rec_.phys = some u →
    ∃ t, exec .contextFill s = .next t ∧ t.cur.staged = .staged ∧ t.cur.stagedTask = s.withRegion u ∧
      t.cur.slot = s.cur.slot ∧ t.cur.task = { s.cur.task with icache := [] } ∧ t.rest = s.rest ∧ t.mem = s.mem ∧
      u.lid = l.lid ∧ u.lcn = s.cur.stagedTask.lcn ∧ u.argptr = l.rec_.w1 ∧ u.ctl.phys = l.rec_.phys ∧
      u.ctl.pc = img.word 0x258 &&& ~~~7#64 ∧ u.ctl.framecnt = 0 ∧ u.ctl.tasktime = 0 ∧ u.ctl.frame = false ∧
      u.ctl.timed = false ∧ u.ctl.degr = false ∧ u.ctl.waiting = false ∧ u.pins = img.pins ∧ (∀ r, r ≠ 0 → u.ctl.getG r = img.word (0x100 + 8 * r.toNat)) ∧
      (u.ctl.ssl ≠ 0 → u.ctl.ssp.toNat = u.ctl.shadowHi % 2 ^ 64) ∧ (∀ w, spGet Flag.fresh u.flags w = ⟨true, false⟩) ∧
      ∀ e ∈ u.ctl.j, e.2.st = .empty ∨ e.2.st = .stale) ∧
  ∀ (s : State) (tag : BitVec 16), s.distinct →
    let rs := s.binds.filter (s.inGroup tag.toNat)
    ((rs.any fun r => !s.stagedFor r && !s.swappedFor r) = true → exec (.gangSwap tag) s = .next s) ∧
    (rs ≠ [] → (∀ r ∈ rs, r.groupn = rs.length ∧ s.stagedFor r = true ∧ (s.coreAt r.pcore).slot = .empty) →
      (∃ r ∈ rs, r.commit = true) → (rs.map (·.pcore)).Nodup → (∀ e ∈ s.saved, ∀ r ∈ rs, e.2.lid ≠ r.lid) →
      ∃ t, exec (.gangSwap tag) s = .next t ∧ t.mem = s.mem ∧ ∀ r ∈ rs, (t.coreAt r.pcore).slot = .resident ∧
        (t.coreAt r.pcore).released = true ∧ (t.coreAt r.pcore).staged = .empty ∧
        (t.coreAt r.pcore).task = (s.coreAt r.pcore).stagedTask)

/-- PREEMPT stops the tasks of its gang group to be saved once all records of the group have been taken, or reports that one has
retired; once the gang has stopped, an image takes PC, TASKTIME and the G registers, and the slot is EMPTY; KILL empties every
slot of the launch on its die, and those of the rest of the same gangs, and no slot in which another launch runs; an unknown action is refused with STATUS 3; a quantum ends after 2 ms
where a rival waits, and four quanta of waiting raise a gang one level, to 3, both under the default policy (R296 to R301, R303). The place of an image is the model's (log entry 3), and so is the point at which a quantum
ends, the first cycle after it at which a rival of its own partition waits (log entry 38); that bad data in what is saved is fatal
is log entry 77's; that a PREEMPT waits for all records of its group and then starts every save in one move, that the tasks of a
gang leave their slots together, and which tasks a KILL reaches, are log entry 86's readings. -/
def Obligations.HeadgateStopsTasks : Prop :=
  (∀ (s : State) (die : Nat) (r : BindRec), s.distinct → s.nextBind die = some r →
    (r.action = 3 →
      let u : State := { s with binds := replaceFirst die { r with started := true } s.binds }
      let rs := u.binds.filter fun x => x.tag == r.tag && x.action == 3 && x.started && x.status == 0
      let whole : Prop := (∃ x ∈ rs, x.commit = true) ∧ ∀ x ∈ rs, x.groupn = rs.length
      (¬whole → exec (.preempt die) s = .next u) ∧
      (whole → (rs.map (·.pcore)).Nodup → ∃ t, exec (.preempt die) s = .next t ∧ t.mem = s.mem ∧
        (∀ x ∈ rs, ∀ l, s.findLaunch x.lid = some l →
          ((s.coreAt x.pcore).holdsTask x.lid x.lcn = true → (t.coreAt x.pcore).slot = .saving ∧
            (t.coreAt x.pcore).task.saving = true ∧ (t.coreAt x.pcore).saveTo = x.addr) ∧
          ((s.coreAt x.pcore).holdsTask x.lid x.lcn = false → l.halted.contains x.lcn = true →
            t.coreAt x.pcore = s.coreAt x.pcore ∧ { x with status := 2 } ∈ t.binds)) ∧
        ∀ n, (∀ x ∈ rs, x.pcore ≠ n) → t.coreAt n = s.coreAt n)) ∧
    (r.action = 4 → ∃ t, exec (.kill die) s = .next t ∧
      (∀ c ∈ t.cores, dieOf c.pcore = die → c.slot ≠ .empty → c.task.lid ≠ r.lid) ∧
      (∀ c ∈ t.cores, c.staged ≠ .empty → c.stagedTask.lid ≠ r.lid) ∧
      (∀ c ∈ s.cores, dieOf c.pcore = die → c.slot ≠ .empty → c.task.lid = r.lid →
        ∀ k ∈ t.cores, k.slot ≠ .empty → k.task.lid = r.lid → k.task.gang ≠ c.task.gang) ∧
      (∀ c ∈ s.cores, c.slot ≠ .empty → c.task.lid ≠ r.lid → (t.coreAt c.pcore).slot = c.slot ∧
        (t.coreAt c.pcore).task.lid = c.task.lid ∧ (t.coreAt c.pcore).task.lcn = c.task.lcn) ∧
      ∃ x ∈ t.binds, x.lid = r.lid ∧ x.action = 4 ∧ x.tag = r.tag ∧ x.status = 1) ∧
    (r.action = 0 ∨ 5 ≤ r.action → ∃ t, exec (.bindActionOther die) s = .next t ∧ t.cur = s.cur ∧ t.rest = s.rest ∧
      t.binds = replaceFirst die { r with started := true, status := 3 } s.binds)) ∧
  (∀ s : State, s.cur.slot = .saving → s.gangStopped = true → s.task.imageBad = true →
    exec .contextSaved s = .next (s.fatal 1 0)) ∧
  (∀ s : State, s.canonical → s.cur.slot = .saving → s.gangStopped = true → (∀ e, (s.eng e).flight = []) →
    s.task.imageBad = false →
    let at_ := s.cur.saveTo
    ∃ t, exec .contextSaved s = .next t ∧ t.cur.slot = .empty ∧ t.rest = s.rest ∧
      t.rdNat .mem (at_ + 0x258) 8 = s.ctl.pc.toNat ∧ t.rdNat .mem (at_ + 0x268) 8 = s.ctl.tasktime % 2 ^ 64 ∧
      (∀ r : BitVec 5, r ≠ 0 → t.rdNat .mem (at_ + 0x100 + 8 * r.toNat) 8 = (s.getG r).toNat) ∧
      ∀ a, a < at_ → t.rdByte .mem a = s.rdByte .mem a) ∧
  (∀ (s : State) (l : Launch) (c : Core), s.cur.slot = .saving → s.findLaunch s.task.lid = some l → c ∈ s.cores →
    c.slot = .saving → c.task.lid = s.task.lid → s.gangOf l.rec_ c.task.lcn = s.gangOf l.rec_ s.task.lcn →
    (s.focus c.pcore).stoppedForSave = false → exec .contextSaved s = .next s) ∧
  (∀ (s : State) (lid gang : Nat) (g : Gang) (l : Launch),
    s.gangs.find? (fun g => g.lid == lid && g.idx == gang) = some g → s.findLaunch lid = some l → g.st = .resident →
    l.rec_.timed = false →
    (s.now < g.since + 3500000 → exec (.quantumExpiry lid gang) s = .next s) ∧
    (g.since + 3500000 ≤ s.now →
      (s.rival g l = false ∨ s.byDefault l.part = false → exec (.quantumExpiry lid gang) s = .next s) ∧
      (s.rival g l = true → s.byDefault l.part = true → ∃ t, exec (.quantumExpiry lid gang) s = .next t ∧ t.cur = s.cur ∧ t.rest = s.rest ∧
        t.binds = s.binds ++ s.preemptRecords l gang ∧
        ∀ x ∈ t.gangs, x.lid = lid → x.idx = gang → x.st = .saving))) ∧
  ∀ (s : State) (lid gang : Nat), ∃ t, exec (.agingPromotion lid gang) s = .next t ∧ t.cur = s.cur ∧ t.rest = s.rest ∧
    t.gangs = s.gangs.map fun x =>
      if (x.lid = lid ∧ x.idx = gang) ∧ (x.st = .ready ∨ x.st = .binding) ∧ x.level < 3 ∧ x.since + 14000000 ≤ s.now ∧
          ((s.launchOf x).any fun l => s.byDefault l.part) = true then
        { x with level := x.level + 1, since := s.now }
      else x

/-- The oldest fault record of a partition is written whole into the next slot of its ring, once that slot's LID is 0;
continuing a gang releases the park latch of each of its tasks that has no undelivered record, of saved ones too; an edit of a
parked task's word, also while a PREEMPT waits for it, changes that word; an emulated command leaves the queue with its token complete and its effect shown, in a timed frame at
the landing cycle that is recorded, a counting command with the effect of its own unit; a word that the emulator does not know
comes back as ILLEGAL; a displaced transfer that is emulated goes where it would have gone, or raises its fault, and a displaced
PREP leaves its J register STALE; the debugger's store, its invalidation and an edit of a saved image change those alone, the edit
releasing the gang's park latches (R174, R286, R305 to R307, R309 to R311). The store through the W pages of a partition, for an
EMPTY slot the core's own, the invalidation as an edit of its own, the displaced word and the edit of a saved image are log entry
52's readings, and that such an edit releases the saved gang log entry 85's. -/
def Obligations.FaultsAreDeliveredAndContinued : Prop :=
  (∀ (s : State) (part : Nat) (p : Partition) (r : FaultRec), s.canonical → s.partOf part = some p →
    s.faults.find? (fun r => r.part == part) = some r → p.ringSlots ≠ 0 →
    let at_ := p.ring + 64 * p.ringAt
    (s.rdNat .mem (at_ + 8) 8 ≠ 0 → exec (.faultRecordDelivery part) s = .next s) ∧
    (s.rdNat .mem (at_ + 8) 8 = 0 → ∃ t, exec (.faultRecordDelivery part) s = .next t ∧
      (t.rdNat .mem at_ 8 = r.w0.toNat ∧ t.rdNat .mem (at_ + 8) 8 = r.lid % 2 ^ 64 ∧
        t.rdNat .mem (at_ + 16) 8 = r.w2.toNat ∧ t.rdNat .mem (at_ + 24) 8 = r.w3.toNat ∧
        t.rdNat .mem (at_ + 32) 8 = r.w4.toNat ∧ t.rdNat .mem (at_ + 40) 8 = r.w5.toNat ∧
        t.rdNat .mem (at_ + 48) 8 = r.w6.toNat ∧ t.rdNat .mem (at_ + 56) 8 = r.w7.toNat) ∧
      t.faults.length + 1 = s.faults.length ∧ t.cur = s.cur ∧ t.rest = s.rest ∧ s.sameBytesBut t .mem at_ 64 ∧
      t.parts = s.parts.map fun q => if q.id = part then { q with ringAt := (q.ringAt + 1) % q.ringSlots } else q)) ∧
  (∀ (s : State) (lid gang : Nat), s.distinct → ∃ t, exec (.taskContinue lid gang) s = .next t ∧
    ∀ c ∈ s.cores, c.pcore ∈ s.gangAt lid gang → s.undelivered c.task.lid c.task.lcn = false →
      (t.coreAt c.pcore).task.parkAll = false ∧ (t.coreAt c.pcore).task.parkCtl = false ∧
      (t.coreAt c.pcore).task.ctl = c.task.ctl) ∧
  (∀ (s : State) (lid gang : Nat) (l : Launch) (e : Nat × SavedRest), s.findLaunch lid = some l → e ∈ s.saved → e.2.lid = lid →
    (s.gangCores l gang).contains e.2.lcn = true → s.undelivered lid e.2.lcn = false →
    ∃ t, exec (.taskContinue lid gang) s = .next t ∧ ∃ x ∈ t.saved, x.1 = e.1 ∧ x.2.parkAll = false ∧ x.2.parkCtl = false) ∧
  (∀ s : State, (s.cur.slot = .resident ∨ s.cur.slot = .saving) → (s.task.parkAll = true ∨ s.task.parkCtl = true) →
    (∀ (r : BitVec 5) (v : Word), s.canonical → r ≠ 0 →
      ∃ t, exec (.taskEdit (.word (0x100 + 8 * r.toNat) v)) s = .next t ∧ t.getG r = v ∧ t.cur.slot = s.cur.slot ∧
        (∀ x, x ≠ r → t.getG x = s.getG x) ∧ t.rest = s.rest ∧ t.mem = s.mem) ∧
    (∀ (e : EngId) (landing : Nat) (ws : List (Nat × Byte)) (nan sat : Bool) (q : QEnt), (s.eng e).head = some q →
      (e = .sluice → opOf q.word < 6 ∨ 8 < opOf q.word) →
      let g := s.eng e
      let late := g.strict = true ∧ g.cnt < landing
      let bs := ws.filterMap s.emulatedWrite
      ∃ t, exec (.taskEdit (.emulated e landing ws nan sat)) s = .next t ∧ (t.eng e).seq = (g.seq + 1) % 2 ^ 48 ∧
        (t.eng e).queue = g.pop.queue ∧ (t.eng e).nan = (g.nan || nan) ∧ (t.eng e).sat = (g.sat || sat) ∧ t.ctl = s.ctl ∧
        (∃ k ∈ (t.eng e).toks, k.seq = g.seq ∧ k.can = false ∧ (k.done = true ↔ ¬late)) ∧
        (¬late → (t.eng e).flight = g.flight ∧ (s.wrBytes bs).sameBytes t) ∧
        (late → s.sameBytes t ∧ ∃ f ∈ (t.eng e).flight, f.seq = g.seq ∧ f.land = landing ∧ f.timed = true ∧ f.writes = bs)) ∧
    (∀ (landing : Nat) (ws : List (Nat × Byte)) (nan sat : Bool) (q : QEnt) (u : State) (i : Issued),
      (s.eng .sluice).head = some q → i.held = false →
      let as_ (h : CmdHead) (k : Cost) : Prop := s.readyNow .sluice h .a k.lat = .go →
        exec (.taskEdit (.emulated .sluice landing ws nan sat)) s = .next (u.issuedAs .sluice h .a q k i)
      ∀ h a c skip,
        (decodeEngine .sluice q.word.toNat = .ok (.cinc h a c skip) → cincBody a c skip s = .ok (u, i) →
          as_ h (costEach a c s)) ∧
        (decodeEngine .sluice q.word.toNat = .ok (.cmerge h a c) → cmergeBody a c s = .ok (u, i) → as_ h (cmergeCost c s)) ∧
        (decodeEngine .sluice q.word.toNat = .ok (.cread h a c) → creadBody a c s = .ok (u, i) → as_ h (creadCost a s))) ∧
    (∀ (w : Word) (i : Instr) (u : State), s.ctl.waiting = false → decodeControl w.toNat = .ok i →
      (∃ j p pn q g off, i = .xfer j p pn ∨ i = .xcall j p pn ∨ i = .ret q ∨ i = .prep j p pn off ∨ i = .prepr q j g) →
      exec i (s.withCtl { s.ctl with ir := w, step := false }) = .next u →
      ∃ t, exec (.taskEdit (.displaced w)) s = .next t ∧ t.ctl.pc = u.ctl.pc ∧ t.ctl.ssp = u.ctl.ssp ∧ t.ctl.g = u.ctl.g ∧
        t.faults = u.faults ∧ u.sameBytes t ∧ t.ctl.step = s.ctl.step ∧
        ∀ j p pn q g off, (i = .prep j p pn off ∧ s.holds ⟨p, pn⟩ = true) ∨ (i = .prepr q j g ∧ s.holds q = true) →
          (t.ctl.getJ j).taddr = (u.ctl.getJ j).taddr ∧ (t.ctl.getJ j).st = .stale) ∧
    ∀ st r, s.recordOf st = some r → ∃ t x, exec (.taskEdit (.unknownWord st)) s = .next t ∧ t.faults = s.faults ++ [x] ∧
      fld x.w0.toNat 0 8 = 0x01 ∧ fld x.w0.toNat 8 56 = fld r.w0.toNat 8 56 ∧ x.w3 = r.w3 ∧ x.w4 = r.w4 ∧ x.lid = r.lid) ∧
  ∀ s : State, s.canonical →
    (∀ va b pa, s.cur.slot ≠ .empty → locate va = .virt → s.translateIn s.task.part (some s.task.queue) va .loader = .ok pa →
      ∃ t, exec (.taskEdit (.store va [b])) s = .next t ∧ t.rdByte .mem pa = b ∧ s.sameBytesBut t .mem pa 1 ∧
        t.ctl = s.ctl) ∧
    (∀ p va b pa, s.cur.slot = .empty → s.parts.find? (fun p => p.cores.contains s.cur.pcore) = some p →
      locate va = .virt → s.translateIn p.id none va .loader = .ok pa →
      ∃ t, exec (.taskEdit (.store va [b])) s = .next t ∧ t.rdByte .mem pa = b ∧ s.sameBytesBut t .mem pa 1) ∧
    (∀ n, (s.cur.slot ≠ .empty ∧ n = s.task.part) ∨
        (s.cur.slot = .empty ∧ ∃ p, s.parts.find? (fun p => p.cores.contains s.cur.pcore) = some p ∧ p.id = n) →
      ∃ t, exec (.taskEdit .invalidate) s = .next t ∧ t.mem = s.mem ∧
        ∀ c ∈ t.cores, c.slot ≠ .empty → c.task.part = n →
          c.task.icache = [] ∧ ∀ e ∈ c.task.ctl.j, e.2.st = .empty ∨ e.2.st = .stale) ∧
    ∀ addr off v e, s.saved.find? (fun e => e.1 == addr) = some e → ∃ t, exec (.taskEdit (.image addr off v)) s = .next t ∧
      t.rdNat .mem (addr + off) 8 = v.toNat ∧ s.sameBytesBut t .mem (addr + off) 8 ∧ t.cur = s.cur ∧
      ∀ l, s.findLaunch e.2.lid = some l → (s.gangCores l (s.gangOf l.rec_ e.2.lcn)).contains e.2.lcn = true →
        s.undelivered e.2.lid e.2.lcn = false → ∃ x ∈ t.saved, x.1 = addr ∧ x.2.parkAll = false ∧ x.2.parkCtl = false

/-- After a shoot-down no core and no die of the partition holds a translation of the range; it stays asked for while accesses and
timed frames use one; a POWER word with a reserved bit, or from a host without a link, changes nothing, and a package with a
task on a core stays in S0; an exit takes its latency, a partition's from S1 its own; D of the weir is at most 2^20, and 0 within
the limit (R82, R83, R320, R325 to R327). That a package with a task on a core stays in S0 whatever the tolerances is log entry 31's
reading; that a shoot-down that must wait stays in a list of the model, that accesses outside the range hold it back too, and that
the translations of staged tasks go with the others, are log entry 41's. -/
def Obligations.TranslationsPowerAndWeir : Prop :=
  (∀ (s : State) (part lo hi : Nat),
    ((s.cores.any fun c => c.slot != .empty && c.task.part == part && c.task.blocksShootdown lo hi) = true →
      ∃ t, exec (.shootdown part lo hi) s = .next t ∧ t.cur = s.cur ∧ t.rest = s.rest ∧ t.mem = s.mem ∧
        t.xlat = s.xlat ∧ t.shoots = ⟨part, lo, hi⟩ :: s.shoots.filter (· != ⟨part, lo, hi⟩)) ∧
    ((s.cores.any fun c => c.slot != .empty && c.task.part == part && c.task.blocksShootdown lo hi) = false →
      ∃ t, exec (.shootdown part lo hi) s = .next t ∧ t.shoots = s.shoots.filter (· != ⟨part, lo, hi⟩) ∧
        ((∀ e ∈ s.saved, ((s.findLaunch e.2.lid).any fun l => l.part == part) = false) → t.mem = s.mem) ∧
        (∀ x ∈ t.xlat, x.part = part → hi ≤ x.base ∨ x.base + 2 ^ x.leaf.log2 ≤ lo) ∧ ∀ c ∈ t.cores,
        (c.task.part = part → ∀ p, p ∈ c.task.tlb ∨ p ∈ c.task.pins → heldIn lo hi p = false) ∧
        (c.stagedTask.part = part →
          ∀ p, p ∈ c.stagedTask.tlb ∨ p ∈ c.stagedTask.pins → heldIn lo hi p = false))) ∧
  (∀ (s : State) (part : Nat) (host : Bool) (w : Word),
    (fld w.toNat 40 24 ≠ 0 ∨ 1 < fld w.toNat 32 8 ∨ (fld w.toNat 32 8 = 1 ∧ host = false) ∨
        (host = true ∧ s.hostLink = false) →
      exec (.powerRequest part host w) s = .next s) ∧
    (fld w.toNat 40 24 = 0 → fld w.toNat 32 8 = 0 → (host = true → s.hostLink = true) →
      (∃ c ∈ s.cores, c.slot ≠ .empty) → s.power = .s0 →
      ∃ t, exec (.powerRequest part host w) s = .next t ∧ t.power = .s0 ∧ t.cur = s.cur ∧ t.rest = s.rest ∧
        t.mem = s.mem ∧ ∀ q ∈ t.parts, q.id = part → q.tolNs = fld w.toNat 0 32)) ∧
  (∀ s : State,
    ((∀ c, s.exitAt = some c → s.now < c) → ∃ t, exec .powerStateExit s = .next t ∧ t.power = s.power ∧
      t.exitAt = s.exitAt ∧ t.mem = s.mem ∧ t.parts = s.parts.map fun p =>
        if (p.exitAt.any fun c => decide (c ≤ s.now)) = true then { p with power := .s0, exitAt := none } else p) ∧
    (∀ c, s.exitAt = some c → c ≤ s.now → ∃ t, exec .powerStateExit s = .next t ∧ t.power = .s0 ∧ t.exitAt = none ∧
      (∀ q ∈ t.parts, q.power = .s0) ∧ (s.power ≠ .s3 → t.parts.map (·.id) = s.parts.map (·.id)))) ∧
  ∀ (s : State) (die d : Nat) (limit : Bool), spWf 0 s.weir = true → die < s.dies →
    ∃ t, exec (.weirSample die limit d) s = .next t ∧
      spGet 0 t.weir die = (if limit then min d (2 ^ 20) else 0) ∧ ∀ k, k ≠ die → spGet 0 t.weir k = spGet 0 s.weir k

/-- Boot verifies the firmware, forms partitions of whole quads that share nothing, at most 16 with a virtual function, starts
exactly those whose image verifies and whose cores have passed, and reports to each; an update takes a verified image of no
earlier version, and a write that is cut leaves one that fails; an attestation report carries the measurements and the nonce; a
load that conflicts or is refused links nothing, any other adds its object, and one whose definitions serve entries empties the
partition's instruction caches; a frame enters the receive ring of its port, or pauses priorities, on the D4 alone (R116, R180,
R314 to R316, R320 to R324). The signatures, the form of a ring and what is done with a descriptor that overlaps are the
model's (log entries 5, 33 and 42), and that every definition that is not ignored serves entries, so that its load empties the
caches, is log entry 83's reading. -/
def Obligations.BootUpdateAttestLoad : Prop :=
  (∀ s : State, s.boot = .off →
    (s.verified s.flash = false → exec .boot s = .next { s with boot := .recovery }) ∧
    (s.verified s.flash = true → ∃ t, exec .boot s = .next t ∧ t.boot = .running ∧ t.fw = s.flash ∧
      t.bootAt = s.now ∧ t.cur = s.cur ∧ t.mem = s.mem ∧
      (∀ p ∈ t.parts, (p.running = true ↔
        p.image.edOk = true ∧ p.image.mlOk = true ∧ ∀ c ∈ p.cores, c ∉ s.coresFailed)) ∧
      (∀ p ∈ t.parts, ∀ c ∈ p.cores, c < s.coresPerPkg ∧ ∀ k, k < 4 → c / 4 * 4 + k ∈ p.cores) ∧
      t.parts.Pairwise (fun p q => (∀ c ∈ p.cores, c ∉ q.cores) ∧ (∀ a ∈ p.appCores, a ∉ q.appCores) ∧
        ∀ x ∈ p.share, ∀ y ∈ q.share, x.2 ≤ y.1 ∨ y.2 ≤ x.1) ∧
      (t.parts.filter (·.vf)).length ≤ 16 ∧
      ((∀ p ∈ s.bootParts, s.wholeQuads p = true ∧ ∀ a ∈ p.appCores, a < 8 * s.dies) →
        s.bootParts.Pairwise (fun p q => q.shares p = false) → t.parts.map (·.id) = s.bootParts.map (·.id)) ∧
      t.bootReports.map (·.part) = t.parts.map (·.id) ∧ ∀ r ∈ t.bootReports, r.failed = s.coresFailed ∧
        r.appCores = List.range (8 * s.dies) ∧ r.mgmtCores = List.range s.dies ∧ r.dump = s.dumps.getLast?)) ∧
  (∀ (s : State) (img : SignedImage), s.boot = .running →
    ((img.version < s.rollback ∨ img.edOk = false ∨ img.mlOk = false) → ∀ cut,
      exec (.firmwareUpdate img cut) s = .next s) ∧
    (s.rollback ≤ img.version → img.edOk = true → img.mlOk = true →
      exec (.firmwareUpdate img false) s = .next { s with flash := img, rollback := img.version } ∧
      ∃ t, exec (.firmwareUpdate img true) s = .next t ∧ t.verified t.flash = false ∧ t.rollback = s.rollback)) ∧
  (∀ (s : State) (part : Nat) (p : Partition) (nonce : List Byte), s.boot = .running → s.partOf part = some p →
    nonce.length ≤ 64 → ∃ t r, exec (.attestationRequest part nonce) s = .next t ∧ t.reports = s.reports ++ [r] ∧
      r.nonce = nonce ∧ r.fw = s.fw.measure ∧ r.descriptor = s.descriptor ∧ r.image = p.image.measure ∧
      t.cur = s.cur ∧ t.mem = s.mem) ∧
  (∀ (s : State) (part : Nat) (p : Partition) (o : CodeObject), s.partOf part = some p →
    ((s.loadEnd p o = .refused ∨ s.loadEnd p o = .conflict) → ∃ t, exec (.codeObjectLoad part o) s = .next t ∧
      t.mem = s.mem ∧ t.cur = s.cur ∧ t.rest = s.rest ∧ t.parts.map (·.objects) = s.parts.map (·.objects)) ∧
    ((s.loadEnd p o = .ok ∨ s.loadEnd p o = .shadowed) → ∃ t, exec (.codeObjectLoad part o) s = .next t ∧
      (∀ q ∈ t.parts, q.id = part → q.objects = p.objects ++ [o]) ∧
      (servesEntry o (p.objects ++ [o]) = true → ∀ c ∈ t.cores, c.slot ≠ .empty → c.task.part = part →
        c.task.icache = [] ∧ ∀ e ∈ c.task.ctl.j, e.2.st = .empty ∨ e.2.st = .stale) ∧
      (servesEntry o (p.objects ++ [o]) = false → t.cur = s.cur ∧ t.rest = s.rest) ∧
      ∀ c ∈ t.cores, ∃ d ∈ s.cores, c.pcore = d.pcore ∧ c.task.reg = d.task.reg ∧ c.task.ctl.g = d.task.ctl.g)) ∧
  ∀ (s : State) (port : Nat) (pause : Bool) (data : List Byte),
    (s.d4 = false → exec (.scaleOutFrameReceive port pause data) s = .next s) ∧
    ∀ r, s.rings.find? (fun r => r.port == port) = some r → s.portUsable port = true → data.length ≤ 9216 →
      (pause = true → ∃ t, exec (.scaleOutFrameReceive port pause data) s = .next t ∧ t.cur = s.cur ∧ t.mem = s.mem ∧
        t.rings = s.rings.map fun x => if x.port = port then { r with paused := pauseMask data } else x) ∧
      (pause = false → s.canonical → let bs := leBytes 8 data.length ++ data
        ∀ pas, s.nmcBytes r.part (r.rx + 0x2800 * r.rxAt) bs.length = some pas → pas.Nodup →
        ∃ t, exec (.scaleOutFrameReceive port pause data) s = .next t ∧ t.cur = s.cur ∧
          (∀ k a, pas[k]? = some a → t.rdByte .mem a = bs.getD k 0) ∧
          (∀ a, a ∉ pas → t.rdByte .mem a = s.rdByte .mem a) ∧
          t.rings = s.rings.map fun x => if x.port = port then { r with rxAt := (r.rxAt + 1) % r.slots } else x)

/-- A fatal error of causes 1 to 4, and an expired watchdog as cause 2, stop every die, write the dump with its header and
reset the package, memory and firmware staying; a flit that is sent again changes nothing a program sees; a failed lane is
removed, and the loss of the last one of a die is fatal with cause 3 (R314, R317). What else a reset keeps, and that the
last lane's loss is fatal, are the model's (log entries 7 and 32), and so is the rounding of WALLCLK to whole nanoseconds (log
entry 97). -/
def Obligations.FatalErrorsAndLinks : Prop :=
  (∀ (s : State) (cause : BitVec 8) (addr : Word), s.canonical →
    let stops (i : Instr) (c : Nat) (ad : Word) : Prop := ∃ t, exec i s = .next t ∧ t.boot = .off ∧
      (∀ k ∈ t.cores, k.slot = .empty ∧ k.staged = .empty) ∧ t.launches = [] ∧ t.parts = [] ∧ t.flash = s.flash ∧
      t.dumps = s.dumps ++ [⟨c, (s.now - s.bootAt) * 4 / 7, ad⟩] ∧
      t.rdNat .mem s.dumpAt 8 = 0x0001030000000000 + c ∧ t.rdNat .mem (s.dumpAt + 32) 8 = ad.toNat ∧
      (∀ a, a < s.dumpAt → t.rdByte .mem a = s.stopDies.rdByte .mem a) ∧
      (s.still → ∀ a, a < s.dumpAt → t.rdByte .mem a = s.rdByte .mem a)
    (1 ≤ cause.toNat → cause.toNat ≤ 4 → stops (.fatalError cause addr) cause.toNat addr) ∧
    ((cause = 0 ∨ 4 < cause.toNat) → exec (.fatalError cause addr) s = .next s) ∧
    (∀ die, die < s.dies → stops (.watchdogTimeout die) 2 0) ∧
    ∀ lane, lane < s.lanes → s.lanesDown.contains lane = false →
      (∃ k, k < 18 ∧ lane / 18 * 18 + k ≠ lane ∧ s.lanesDown.contains (lane / 18 * 18 + k) = false) →
      exec (.laneFailure lane) s = .next { s with lanesDown := s.lanesDown ++ [lane] }) ∧
  (∀ (s : State) (lane : Nat), s.canonical → lane < s.lanes → s.lanesDown.contains lane = false →
    (∀ k, k < 18 → lane / 18 * 18 + k ≠ lane → s.lanesDown.contains (lane / 18 * 18 + k) = true) →
    ∃ t, exec (.laneFailure lane) s = .next t ∧ t.boot = .off ∧ t.dumps = s.dumps ++ [⟨3, (s.now - s.bootAt) * 4 / 7, 0⟩]) ∧
  ∀ (s : State) (lane : Nat), ∃ t, exec (.flitReplay lane) s = .next t ∧ t.cur = s.cur ∧ t.rest = s.rest ∧
    t.mem = s.mem ∧ t.launches = s.launches ∧ t.agenda = s.agenda
end

