-- ==== Sys2Proof/Laws/Sparse.lean ====
section
/-! SUPPORT. Sparse tables: reading after writing, and that every operation keeps the canonical form. -/

namespace Sys2Proof

variable {β : Type} [DecidableEq β] {d : β}

theorem spWfFrom_cons {lo a : Nat} {x : β} {t : Sparse β} :
    spWfFrom d lo ((a, x) :: t) = true ↔ lo ≤ a ∧ x ≠ d ∧ spWfFrom d (a + 1) t = true := by
  simp [spWfFrom, Bool.and_eq_true, and_assoc]

/-- A lower bound can be lowered. -/
theorem spWfFrom_mono {lo hi : Nat} {t : Sparse β} (h : spWfFrom d hi t = true) (hl : lo ≤ hi) :
    spWfFrom d lo t = true := by
  cases t with
  | nil => rfl
  | cons e t =>
    obtain ⟨a, x⟩ := e
    rw [spWfFrom_cons] at h ⊢
    exact ⟨le_trans hl h.1, h.2⟩

/-- Below the lower bound nothing is listed. -/
theorem spGet_below {lo k : Nat} {t : Sparse β} (h : spWfFrom d lo t = true) (hk : k < lo) : spGet d t k = d := by
  cases t with
  | nil => rfl
  | cons e t =>
    obtain ⟨a, x⟩ := e
    rw [spWfFrom_cons] at h
    simp [spGet, lt_of_lt_of_le hk h.1]

/-- A write keeps the canonical form. -/
theorem spWfFrom_spSet {lo k : Nat} {t : Sparse β} {v : β} (h : spWfFrom d lo t = true) (hk : lo ≤ k) :
    spWfFrom d lo (spSet d t k v) = true := by
  induction t generalizing lo with
  | nil =>
    by_cases hv : v = d <;> simp [spSet, hv, spWfFrom, hk]
  | cons e t ih =>
    obtain ⟨a, x⟩ := e
    have h' := spWfFrom_cons.1 h
    simp only [spSet]
    split
    · rename_i ka
      split
      · exact h
      · rename_i hv
        exact spWfFrom_cons.2 ⟨hk, hv, spWfFrom_cons.2 ⟨ka, h'.2⟩⟩
    · split
      · rename_i hka
        split
        · exact spWfFrom_mono h'.2.2 (le_trans h'.1 (Nat.le_succ a))
        · rename_i hv
          exact spWfFrom_cons.2 ⟨hk, hv, hka ▸ h'.2.2⟩
      · rename_i hka hne
        exact spWfFrom_cons.2 ⟨h'.1, h'.2.1, ih h'.2.2 (by omega)⟩

theorem spWf_spSet {k : Nat} {t : Sparse β} {v : β} (h : spWf d t = true) : spWf d (spSet d t k v) = true :=
  spWfFrom_spSet h (Nat.zero_le k)

/-- Reading after writing the same key. -/
theorem spGet_spSet_from {lo k : Nat} {t : Sparse β} {v : β} (h : spWfFrom d lo t = true) :
    spGet d (spSet d t k v) k = v := by
  induction t generalizing lo with
  | nil => by_cases hv : v = d <;> simp [spSet, hv, spGet]
  | cons e t ih =>
    obtain ⟨a, x⟩ := e
    have h' := spWfFrom_cons.1 h
    simp only [spSet]
    split
    · rename_i ka
      split
      · rename_i hv; simp [spGet, ka, hv]
      · simp [spGet]
    · split
      · rename_i hka
        split
        · rename_i hv
          rw [hv, hka]; exact spGet_below h'.2.2 (Nat.lt_succ_self a)
        · simp [spGet]
      · rename_i hka hne
        simp [spGet, hka, hne, ih h'.2.2]

theorem spGet_spSet_self {k : Nat} {t : Sparse β} {v : β} (h : spWf d t = true) : spGet d (spSet d t k v) k = v :=
  spGet_spSet_from h

/-- Reading another key after a write. -/
theorem spGet_spSet_ne_from {lo k j : Nat} {t : Sparse β} {v : β} (h : spWfFrom d lo t = true) (hj : j ≠ k) :
    spGet d (spSet d t k v) j = spGet d t j := by
  induction t generalizing lo with
  | nil =>
    by_cases hv : v = d <;> simp [spSet, hv, spGet, hj]
  | cons e t ih =>
    obtain ⟨a, x⟩ := e
    have h' := spWfFrom_cons.1 h
    simp only [spSet]
    split
    · rename_i ka
      split
      · rfl
      · simp only [spGet]
        by_cases h1 : j < k
        · simp [h1, show j < a by omega]
        · simp [h1, hj]
    · split
      · rename_i hka
        subst hka
        split
        · simp only [spGet, hj, if_false]
          by_cases h1 : j < k
          · simp [h1, spGet_below h'.2.2 (show j < k + 1 by omega)]
          · simp [h1]
        · simp [spGet, hj]
      · simp only [spGet]
        split
        · rfl
        · split
          · rfl
          · exact ih h'.2.2

theorem spGet_spSet_ne {k j : Nat} {t : Sparse β} {v : β} (h : spWf d t = true) (hj : j ≠ k) :
    spGet d (spSet d t k v) j = spGet d t j := spGet_spSet_ne_from h hj

/-- Several writes keep the canonical form. -/
theorem spWf_spSetMany {t : Sparse β} {ws : List (Nat × β)} (h : spWf d t = true) : spWf d (spSetMany d t ws) = true := by
  unfold spSetMany
  induction ws generalizing t with
  | nil => exact h
  | cons w ws ih => exact ih (spWf_spSet h)

/-- Dropping keys keeps the canonical form. -/
theorem spWfFrom_filter {f : Nat × β → Bool} {lo : Nat} {t : Sparse β} (h : spWfFrom d lo t = true) :
    spWfFrom d lo (t.filter f) = true := by
  induction t generalizing lo with
  | nil => rfl
  | cons e t ih =>
    obtain ⟨a, x⟩ := e
    have h' := spWfFrom_cons.1 h
    rw [List.filter_cons]
    split
    · exact spWfFrom_cons.2 ⟨h'.1, h'.2.1, ih h'.2.2⟩
    · exact spWfFrom_mono (ih h'.2.2) (le_trans h'.1 (Nat.le_succ a))

theorem spWf_spDrop {f : Nat → Bool} {t : Sparse β} (h : spWf d t = true) : spWf d (spDrop f t) = true :=
  spWfFrom_filter h

/-- Two canonical tables that read alike are the same table. -/
theorem spWfFrom_ext {lo : Nat} {t u : Sparse β} (ht : spWfFrom d lo t = true) (hu : spWfFrom d lo u = true)
    (h : ∀ k, spGet d t k = spGet d u k) : t = u := by
  induction t generalizing lo u with
  | nil =>
    cases u with
    | nil => rfl
    | cons e u =>
      obtain ⟨a, x⟩ := e
      have hx := h a
      simp [spGet] at hx
      exact absurd hx.symm (spWfFrom_cons.1 hu).2.1
  | cons e t ih =>
    obtain ⟨a, x⟩ := e
    have ht' := spWfFrom_cons.1 ht
    cases u with
    | nil =>
      have hx := h a
      simp [spGet] at hx
      exact absurd hx ht'.2.1
    | cons e' u =>
      obtain ⟨b, y⟩ := e'
      have hu' := spWfFrom_cons.1 hu
      have hab : a = b := by
        rcases lt_trichotomy a b with hlt | heq | hgt
        · have hx := h a
          simp [spGet, hlt] at hx
          exact absurd hx ht'.2.1
        · exact heq
        · have hx := h b
          simp [spGet, hgt] at hx
          exact absurd hx.symm hu'.2.1
      subst hab
      have hxy : x = y := by simpa [spGet] using h a
      subst hxy
      have hrest : ∀ k, spGet d t k = spGet d u k := fun k => by
        by_cases hk : k < a + 1
        · rw [spGet_below ht'.2.2 hk, spGet_below hu'.2.2 hk]
        · have hx := h k
          simpa [spGet, show ¬k < a by omega, show k ≠ a by omega] using hx
      rw [ih ht'.2.2 hu'.2.2 hrest]

theorem spWf_ext {t u : Sparse β} (ht : spWf d t = true) (hu : spWf d u = true)
    (h : ∀ k, spGet d t k = spGet d u k) : t = u := spWfFrom_ext ht hu h

/-! ### Little-endian numbers -/

@[simp] theorem leBytes_length (n v : Nat) : (leBytes n v).length = n := by
  induction n generalizing v with
  | zero => rfl
  | succ n ih => simp [leBytes, ih]

theorem leNat_leBytes (n v : Nat) : leNat (leBytes n v) = v % 256 ^ n := by
  induction n generalizing v with
  | zero => simp [leBytes, leNat, Nat.mod_one]
  | succ n ih =>
    simp only [leBytes, leNat, ih, BitVec.toNat_ofNat]
    rw [show 256 ^ (n + 1) = 256 * 256 ^ n from Nat.pow_succ', Nat.mod_mul, show (2 : Nat) ^ 8 = 256 from rfl]

end Sys2Proof
end

