-- ==== Sys2Proof/Laws/State.lean ====
section
/-! SUPPORT. What each update of the state does to each field. An update of the focused task or of its control registers
leaves every other field alone; all lemmas are for `simp`, so that no proof unfolds a record update. -/

namespace Sys2Proof.Machine


/-! ### Replacing the focused task -/

@[simp] theorem State.withTask_d4 (s : State) (t : Task) : (s.withTask t).d4 = s.d4 := rfl
@[simp] theorem State.withTask_boot (s : State) (t : Task) : (s.withTask t).boot = s.boot := rfl
@[simp] theorem State.withTask_now (s : State) (t : Task) : (s.withTask t).now = s.now := rfl
@[simp] theorem State.withTask_bootAt (s : State) (t : Task) : (s.withTask t).bootAt = s.bootAt := rfl
@[simp] theorem State.withTask_fresh (s : State) (t : Task) : (s.withTask t).fresh = s.fresh := rfl
@[simp] theorem State.withTask_rest (s : State) (t : Task) : (s.withTask t).rest = s.rest := rfl
@[simp] theorem State.withTask_mem (s : State) (t : Task) : (s.withTask t).mem = s.mem := rfl
@[simp] theorem State.withTask_badMem (s : State) (t : Task) : (s.withTask t).badMem = s.badMem := rfl
@[simp] theorem State.withTask_pkg (s : State) (t : Task) : (s.withTask t).pkg = s.pkg := rfl
@[simp] theorem State.withTask_hostLink (s : State) (t : Task) : (s.withTask t).hostLink = s.hostLink := rfl
@[simp] theorem State.withTask_parts (s : State) (t : Task) : (s.withTask t).parts = s.parts := rfl
@[simp] theorem State.withTask_launches (s : State) (t : Task) : (s.withTask t).launches = s.launches := rfl
@[simp] theorem State.withTask_nextLid (s : State) (t : Task) : (s.withTask t).nextLid = s.nextLid := rfl
@[simp] theorem State.withTask_gangs (s : State) (t : Task) : (s.withTask t).gangs = s.gangs := rfl
@[simp] theorem State.withTask_binds (s : State) (t : Task) : (s.withTask t).binds = s.binds := rfl
@[simp] theorem State.withTask_nextTag (s : State) (t : Task) : (s.withTask t).nextTag = s.nextTag := rfl
@[simp] theorem State.withTask_ctxNext (s : State) (t : Task) : (s.withTask t).ctxNext = s.ctxNext := rfl
@[simp] theorem State.withTask_saved (s : State) (t : Task) : (s.withTask t).saved = s.saved := rfl
@[simp] theorem State.withTask_arrivals (s : State) (t : Task) : (s.withTask t).arrivals = s.arrivals := rfl
@[simp] theorem State.withTask_left (s : State) (t : Task) : (s.withTask t).left = s.left := rfl
@[simp] theorem State.withTask_departs (s : State) (t : Task) : (s.withTask t).departs = s.departs := rfl
@[simp] theorem State.withTask_iinvs (s : State) (t : Task) : (s.withTask t).iinvs = s.iinvs := rfl
@[simp] theorem State.withTask_nextIinv (s : State) (t : Task) : (s.withTask t).nextIinv = s.nextIinv := rfl
@[simp] theorem State.withTask_faults (s : State) (t : Task) : (s.withTask t).faults = s.faults := rfl
@[simp] theorem State.withTask_tagsSeen (s : State) (t : Task) : (s.withTask t).tagsSeen = s.tagsSeen := rfl
@[simp] theorem State.withTask_weir (s : State) (t : Task) : (s.withTask t).weir = s.weir := rfl
@[simp] theorem State.withTask_power (s : State) (t : Task) : (s.withTask t).power = s.power := rfl
@[simp] theorem State.withTask_exitAt (s : State) (t : Task) : (s.withTask t).exitAt = s.exitAt := rfl
@[simp] theorem State.withTask_hostTol (s : State) (t : Task) : (s.withTask t).hostTol = s.hostTol := rfl
@[simp] theorem State.withTask_fw (s : State) (t : Task) : (s.withTask t).fw = s.fw := rfl
@[simp] theorem State.withTask_flash (s : State) (t : Task) : (s.withTask t).flash = s.flash := rfl
@[simp] theorem State.withTask_rollback (s : State) (t : Task) : (s.withTask t).rollback = s.rollback := rfl
@[simp] theorem State.withTask_descriptor (s : State) (t : Task) : (s.withTask t).descriptor = s.descriptor := rfl
@[simp] theorem State.withTask_bootParts (s : State) (t : Task) : (s.withTask t).bootParts = s.bootParts := rfl
@[simp] theorem State.withTask_coresFailed (s : State) (t : Task) : (s.withTask t).coresFailed = s.coresFailed := rfl
@[simp] theorem State.withTask_dumpAt (s : State) (t : Task) : (s.withTask t).dumpAt = s.dumpAt := rfl
@[simp] theorem State.withTask_lanesDown (s : State) (t : Task) : (s.withTask t).lanesDown = s.lanesDown := rfl
@[simp] theorem State.withTask_replays (s : State) (t : Task) : (s.withTask t).replays = s.replays := rfl
@[simp] theorem State.withTask_dumps (s : State) (t : Task) : (s.withTask t).dumps = s.dumps := rfl
@[simp] theorem State.withTask_bootReports (s : State) (t : Task) : (s.withTask t).bootReports = s.bootReports := rfl
@[simp] theorem State.withTask_reports (s : State) (t : Task) : (s.withTask t).reports = s.reports := rfl
@[simp] theorem State.withTask_rings (s : State) (t : Task) : (s.withTask t).rings = s.rings := rfl
@[simp] theorem State.withTask_splitPorts (s : State) (t : Task) : (s.withTask t).splitPorts = s.splitPorts := rfl
@[simp] theorem State.withTask_xlat (s : State) (t : Task) : (s.withTask t).xlat = s.xlat := rfl
@[simp] theorem State.withTask_shoots (s : State) (t : Task) : (s.withTask t).shoots = s.shoots := rfl
@[simp] theorem State.withTask_agenda (s : State) (t : Task) : (s.withTask t).agenda = s.agenda := rfl
@[simp] theorem State.withTask_inputs (s : State) (t : Task) : (s.withTask t).inputs = s.inputs := rfl
@[simp] theorem State.withTask_cur_pcore (s : State) (t : Task) : (s.withTask t).cur.pcore = s.cur.pcore := rfl
@[simp] theorem State.withTask_cur_slot (s : State) (t : Task) : (s.withTask t).cur.slot = s.cur.slot := rfl
@[simp] theorem State.withTask_cur_task (s : State) (t : Task) : (s.withTask t).cur.task = t := rfl
@[simp] theorem State.withTask_cur_released (s : State) (t : Task) : (s.withTask t).cur.released = s.cur.released := rfl
@[simp] theorem State.withTask_cur_staged (s : State) (t : Task) : (s.withTask t).cur.staged = s.cur.staged := rfl
@[simp] theorem State.withTask_cur_stagedTask (s : State) (t : Task) : (s.withTask t).cur.stagedTask = s.cur.stagedTask
    := rfl
@[simp] theorem State.withTask_cur_stagedTag (s : State) (t : Task) : (s.withTask t).cur.stagedTag = s.cur.stagedTag
    := rfl
@[simp] theorem State.withTask_cur_fillFrom (s : State) (t : Task) : (s.withTask t).cur.fillFrom = s.cur.fillFrom := rfl
@[simp] theorem State.withTask_cur_fillVirt (s : State) (t : Task) : (s.withTask t).cur.fillVirt = s.cur.fillVirt := rfl
@[simp] theorem State.withTask_cur_fillCtx (s : State) (t : Task) : (s.withTask t).cur.fillCtx = s.cur.fillCtx := rfl
@[simp] theorem State.withTask_cur_saveTo (s : State) (t : Task) : (s.withTask t).cur.saveTo = s.cur.saveTo := rfl
@[simp] theorem State.withTask_withTask (s : State) (t u : Task) : (s.withTask t).withTask u = s.withTask u := rfl
@[simp] theorem State.withTask_self (s : State) : s.withTask s.cur.task = s := rfl

/-! ### Replacing the control registers -/

@[simp] theorem State.withCtl_d4 (s : State) (c : Ctl) : (s.withCtl c).d4 = s.d4 := rfl
@[simp] theorem State.withCtl_boot (s : State) (c : Ctl) : (s.withCtl c).boot = s.boot := rfl
@[simp] theorem State.withCtl_now (s : State) (c : Ctl) : (s.withCtl c).now = s.now := rfl
@[simp] theorem State.withCtl_bootAt (s : State) (c : Ctl) : (s.withCtl c).bootAt = s.bootAt := rfl
@[simp] theorem State.withCtl_fresh (s : State) (c : Ctl) : (s.withCtl c).fresh = s.fresh := rfl
@[simp] theorem State.withCtl_rest (s : State) (c : Ctl) : (s.withCtl c).rest = s.rest := rfl
@[simp] theorem State.withCtl_mem (s : State) (c : Ctl) : (s.withCtl c).mem = s.mem := rfl
@[simp] theorem State.withCtl_badMem (s : State) (c : Ctl) : (s.withCtl c).badMem = s.badMem := rfl
@[simp] theorem State.withCtl_pkg (s : State) (c : Ctl) : (s.withCtl c).pkg = s.pkg := rfl
@[simp] theorem State.withCtl_hostLink (s : State) (c : Ctl) : (s.withCtl c).hostLink = s.hostLink := rfl
@[simp] theorem State.withCtl_parts (s : State) (c : Ctl) : (s.withCtl c).parts = s.parts := rfl
@[simp] theorem State.withCtl_launches (s : State) (c : Ctl) : (s.withCtl c).launches = s.launches := rfl
@[simp] theorem State.withCtl_nextLid (s : State) (c : Ctl) : (s.withCtl c).nextLid = s.nextLid := rfl
@[simp] theorem State.withCtl_gangs (s : State) (c : Ctl) : (s.withCtl c).gangs = s.gangs := rfl
@[simp] theorem State.withCtl_binds (s : State) (c : Ctl) : (s.withCtl c).binds = s.binds := rfl
@[simp] theorem State.withCtl_nextTag (s : State) (c : Ctl) : (s.withCtl c).nextTag = s.nextTag := rfl
@[simp] theorem State.withCtl_ctxNext (s : State) (c : Ctl) : (s.withCtl c).ctxNext = s.ctxNext := rfl
@[simp] theorem State.withCtl_saved (s : State) (c : Ctl) : (s.withCtl c).saved = s.saved := rfl
@[simp] theorem State.withCtl_arrivals (s : State) (c : Ctl) : (s.withCtl c).arrivals = s.arrivals := rfl
@[simp] theorem State.withCtl_left (s : State) (c : Ctl) : (s.withCtl c).left = s.left := rfl
@[simp] theorem State.withCtl_departs (s : State) (c : Ctl) : (s.withCtl c).departs = s.departs := rfl
@[simp] theorem State.withCtl_iinvs (s : State) (c : Ctl) : (s.withCtl c).iinvs = s.iinvs := rfl
@[simp] theorem State.withCtl_nextIinv (s : State) (c : Ctl) : (s.withCtl c).nextIinv = s.nextIinv := rfl
@[simp] theorem State.withCtl_faults (s : State) (c : Ctl) : (s.withCtl c).faults = s.faults := rfl
@[simp] theorem State.withCtl_tagsSeen (s : State) (c : Ctl) : (s.withCtl c).tagsSeen = s.tagsSeen := rfl
@[simp] theorem State.withCtl_weir (s : State) (c : Ctl) : (s.withCtl c).weir = s.weir := rfl
@[simp] theorem State.withCtl_power (s : State) (c : Ctl) : (s.withCtl c).power = s.power := rfl
@[simp] theorem State.withCtl_exitAt (s : State) (c : Ctl) : (s.withCtl c).exitAt = s.exitAt := rfl
@[simp] theorem State.withCtl_hostTol (s : State) (c : Ctl) : (s.withCtl c).hostTol = s.hostTol := rfl
@[simp] theorem State.withCtl_fw (s : State) (c : Ctl) : (s.withCtl c).fw = s.fw := rfl
@[simp] theorem State.withCtl_flash (s : State) (c : Ctl) : (s.withCtl c).flash = s.flash := rfl
@[simp] theorem State.withCtl_rollback (s : State) (c : Ctl) : (s.withCtl c).rollback = s.rollback := rfl
@[simp] theorem State.withCtl_descriptor (s : State) (c : Ctl) : (s.withCtl c).descriptor = s.descriptor := rfl
@[simp] theorem State.withCtl_bootParts (s : State) (c : Ctl) : (s.withCtl c).bootParts = s.bootParts := rfl
@[simp] theorem State.withCtl_coresFailed (s : State) (c : Ctl) : (s.withCtl c).coresFailed = s.coresFailed := rfl
@[simp] theorem State.withCtl_dumpAt (s : State) (c : Ctl) : (s.withCtl c).dumpAt = s.dumpAt := rfl
@[simp] theorem State.withCtl_lanesDown (s : State) (c : Ctl) : (s.withCtl c).lanesDown = s.lanesDown := rfl
@[simp] theorem State.withCtl_replays (s : State) (c : Ctl) : (s.withCtl c).replays = s.replays := rfl
@[simp] theorem State.withCtl_dumps (s : State) (c : Ctl) : (s.withCtl c).dumps = s.dumps := rfl
@[simp] theorem State.withCtl_bootReports (s : State) (c : Ctl) : (s.withCtl c).bootReports = s.bootReports := rfl
@[simp] theorem State.withCtl_reports (s : State) (c : Ctl) : (s.withCtl c).reports = s.reports := rfl
@[simp] theorem State.withCtl_rings (s : State) (c : Ctl) : (s.withCtl c).rings = s.rings := rfl
@[simp] theorem State.withCtl_splitPorts (s : State) (c : Ctl) : (s.withCtl c).splitPorts = s.splitPorts := rfl
@[simp] theorem State.withCtl_xlat (s : State) (c : Ctl) : (s.withCtl c).xlat = s.xlat := rfl
@[simp] theorem State.withCtl_shoots (s : State) (c : Ctl) : (s.withCtl c).shoots = s.shoots := rfl
@[simp] theorem State.withCtl_agenda (s : State) (c : Ctl) : (s.withCtl c).agenda = s.agenda := rfl
@[simp] theorem State.withCtl_inputs (s : State) (c : Ctl) : (s.withCtl c).inputs = s.inputs := rfl
@[simp] theorem State.withCtl_cur_pcore (s : State) (c : Ctl) : (s.withCtl c).cur.pcore = s.cur.pcore := rfl
@[simp] theorem State.withCtl_cur_slot (s : State) (c : Ctl) : (s.withCtl c).cur.slot = s.cur.slot := rfl
@[simp] theorem State.withCtl_cur_released (s : State) (c : Ctl) : (s.withCtl c).cur.released = s.cur.released := rfl
@[simp] theorem State.withCtl_cur_staged (s : State) (c : Ctl) : (s.withCtl c).cur.staged = s.cur.staged := rfl
@[simp] theorem State.withCtl_cur_stagedTask (s : State) (c : Ctl) : (s.withCtl c).cur.stagedTask = s.cur.stagedTask
    := rfl
@[simp] theorem State.withCtl_cur_stagedTag (s : State) (c : Ctl) : (s.withCtl c).cur.stagedTag = s.cur.stagedTag := rfl
@[simp] theorem State.withCtl_cur_fillFrom (s : State) (c : Ctl) : (s.withCtl c).cur.fillFrom = s.cur.fillFrom := rfl
@[simp] theorem State.withCtl_cur_fillVirt (s : State) (c : Ctl) : (s.withCtl c).cur.fillVirt = s.cur.fillVirt := rfl
@[simp] theorem State.withCtl_cur_fillCtx (s : State) (c : Ctl) : (s.withCtl c).cur.fillCtx = s.cur.fillCtx := rfl
@[simp] theorem State.withCtl_cur_saveTo (s : State) (c : Ctl) : (s.withCtl c).cur.saveTo = s.cur.saveTo := rfl
@[simp] theorem State.withCtl_task_lid (s : State) (c : Ctl) : (s.withCtl c).cur.task.lid = s.cur.task.lid := rfl
@[simp] theorem State.withCtl_task_lcn (s : State) (c : Ctl) : (s.withCtl c).cur.task.lcn = s.cur.task.lcn := rfl
@[simp] theorem State.withCtl_task_gsize (s : State) (c : Ctl) : (s.withCtl c).cur.task.gsize = s.cur.task.gsize := rfl
@[simp] theorem State.withCtl_task_gcount (s : State) (c : Ctl) : (s.withCtl c).cur.task.gcount = s.cur.task.gcount
    := rfl
@[simp] theorem State.withCtl_task_part (s : State) (c : Ctl) : (s.withCtl c).cur.task.part = s.cur.task.part := rfl
@[simp] theorem State.withCtl_task_queue (s : State) (c : Ctl) : (s.withCtl c).cur.task.queue = s.cur.task.queue := rfl
@[simp] theorem State.withCtl_task_argptr (s : State) (c : Ctl) : (s.withCtl c).cur.task.argptr = s.cur.task.argptr
    := rfl
@[simp] theorem State.withCtl_task_saveMask (s : State) (c : Ctl) : (s.withCtl c).cur.task.saveMask = s.cur.task.saveMask
    := rfl
@[simp] theorem State.withCtl_task_wbSave (s : State) (c : Ctl) : (s.withCtl c).cur.task.wbSave = s.cur.task.wbSave
    := rfl
@[simp] theorem State.withCtl_task_timedLaunch (s : State) (c : Ctl) : (s.withCtl c).cur.task.timedLaunch = s.cur.task.timedLaunch
    := rfl
@[simp] theorem State.withCtl_task_ctl (s : State) (c : Ctl) : (s.withCtl c).cur.task.ctl = c := rfl
@[simp] theorem State.withCtl_task_fidNext (s : State) (c : Ctl) : (s.withCtl c).cur.task.fidNext = s.cur.task.fidNext
    := rfl
@[simp] theorem State.withCtl_task_t (s : State) (c : Ctl) : (s.withCtl c).cur.task.t = s.cur.task.t := rfl
@[simp] theorem State.withCtl_task_pat (s : State) (c : Ctl) : (s.withCtl c).cur.task.pat = s.cur.task.pat := rfl
@[simp] theorem State.withCtl_task_sh (s : State) (c : Ctl) : (s.withCtl c).cur.task.sh = s.cur.task.sh := rfl
@[simp] theorem State.withCtl_task_m (s : State) (c : Ctl) : (s.withCtl c).cur.task.m = s.cur.task.m := rfl
@[simp] theorem State.withCtl_task_f (s : State) (c : Ctl) : (s.withCtl c).cur.task.f = s.cur.task.f := rfl
@[simp] theorem State.withCtl_task_s (s : State) (c : Ctl) : (s.withCtl c).cur.task.s = s.cur.task.s := rfl
@[simp] theorem State.withCtl_task_reg (s : State) (c : Ctl) : (s.withCtl c).cur.task.reg = s.cur.task.reg := rfl
@[simp] theorem State.withCtl_task_flags (s : State) (c : Ctl) : (s.withCtl c).cur.task.flags = s.cur.task.flags := rfl
@[simp] theorem State.withCtl_task_scr (s : State) (c : Ctl) : (s.withCtl c).cur.task.scr = s.cur.task.scr := rfl
@[simp] theorem State.withCtl_task_wb (s : State) (c : Ctl) : (s.withCtl c).cur.task.wb = s.cur.task.wb := rfl
@[simp] theorem State.withCtl_task_wbValid (s : State) (c : Ctl) : (s.withCtl c).cur.task.wbValid = s.cur.task.wbValid
    := rfl
@[simp] theorem State.withCtl_task_drainGen (s : State) (c : Ctl) : (s.withCtl c).cur.task.drainGen = s.cur.task.drainGen
    := rfl
@[simp] theorem State.withCtl_task_flumeGen (s : State) (c : Ctl) : (s.withCtl c).cur.task.flumeGen = s.cur.task.flumeGen
    := rfl
@[simp] theorem State.withCtl_task_sluGen (s : State) (c : Ctl) : (s.withCtl c).cur.task.sluGen = s.cur.task.sluGen
    := rfl
@[simp] theorem State.withCtl_task_pins (s : State) (c : Ctl) : (s.withCtl c).cur.task.pins = s.cur.task.pins := rfl
@[simp] theorem State.withCtl_task_tlb (s : State) (c : Ctl) : (s.withCtl c).cur.task.tlb = s.cur.task.tlb := rfl
@[simp] theorem State.withCtl_task_icache (s : State) (c : Ctl) : (s.withCtl c).cur.task.icache = s.cur.task.icache
    := rfl
@[simp] theorem State.withCtl_task_parking (s : State) (c : Ctl) : (s.withCtl c).cur.task.parking = s.cur.task.parking
    := rfl
@[simp] theorem State.withCtl_task_parkAll (s : State) (c : Ctl) : (s.withCtl c).cur.task.parkAll = s.cur.task.parkAll
    := rfl
@[simp] theorem State.withCtl_task_parkCtl (s : State) (c : Ctl) : (s.withCtl c).cur.task.parkCtl = s.cur.task.parkCtl
    := rfl
@[simp] theorem State.withCtl_task_saving (s : State) (c : Ctl) : (s.withCtl c).cur.task.saving = s.cur.task.saving
    := rfl
@[simp] theorem State.withCtl_task_bad (s : State) (c : Ctl) : (s.withCtl c).cur.task.bad = s.cur.task.bad := rfl
@[simp] theorem State.withCtl_task_recs (s : State) (c : Ctl) : (s.withCtl c).cur.task.recs = s.cur.task.recs
    := rfl
@[simp] theorem State.withCtl_withCtl (s : State) (c d : Ctl) : (s.withCtl c).withCtl d = s.withCtl d := rfl

/-! ### Control registers of their own -/

@[simp] theorem Ctl.setG_p (c : Ctl) (r : BitVec 5) (v : Word) : (c.setG r v).p = c.p
    := by unfold Ctl.setG; split <;> rfl
@[simp] theorem Ctl.setG_j (c : Ctl) (r : BitVec 5) (v : Word) : (c.setG r v).j = c.j
    := by unfold Ctl.setG; split <;> rfl
@[simp] theorem Ctl.setG_ssp (c : Ctl) (r : BitVec 5) (v : Word) : (c.setG r v).ssp = c.ssp
    := by unfold Ctl.setG; split <;> rfl
@[simp] theorem Ctl.setG_ssl (c : Ctl) (r : BitVec 5) (v : Word) : (c.setG r v).ssl = c.ssl
    := by unfold Ctl.setG; split <;> rfl
@[simp] theorem Ctl.setG_pc (c : Ctl) (r : BitVec 5) (v : Word) : (c.setG r v).pc = c.pc
    := by unfold Ctl.setG; split <;> rfl
@[simp] theorem Ctl.setG_ir (c : Ctl) (r : BitVec 5) (v : Word) : (c.setG r v).ir = c.ir
    := by unfold Ctl.setG; split <;> rfl
@[simp] theorem Ctl.setG_waiting (c : Ctl) (r : BitVec 5) (v : Word) : (c.setG r v).waiting = c.waiting
    := by unfold Ctl.setG; split <;> rfl
@[simp] theorem Ctl.setG_step (c : Ctl) (r : BitVec 5) (v : Word) : (c.setG r v).step = c.step
    := by unfold Ctl.setG; split <;> rfl
@[simp] theorem Ctl.setG_phys (c : Ctl) (r : BitVec 5) (v : Word) : (c.setG r v).phys = c.phys
    := by unfold Ctl.setG; split <;> rfl
@[simp] theorem Ctl.setG_degr (c : Ctl) (r : BitVec 5) (v : Word) : (c.setG r v).degr = c.degr
    := by unfold Ctl.setG; split <;> rfl
@[simp] theorem Ctl.setG_timed (c : Ctl) (r : BitVec 5) (v : Word) : (c.setG r v).timed = c.timed
    := by unfold Ctl.setG; split <;> rfl
@[simp] theorem Ctl.setG_frame (c : Ctl) (r : BitVec 5) (v : Word) : (c.setG r v).frame = c.frame
    := by unfold Ctl.setG; split <;> rfl
@[simp] theorem Ctl.setG_framecnt (c : Ctl) (r : BitVec 5) (v : Word) : (c.setG r v).framecnt = c.framecnt
    := by unfold Ctl.setG; split <;> rfl
@[simp] theorem Ctl.setG_frameEng (c : Ctl) (r : BitVec 5) (v : Word) : (c.setG r v).frameEng = c.frameEng
    := by unfold Ctl.setG; split <;> rfl
@[simp] theorem Ctl.setG_tasktime (c : Ctl) (r : BitVec 5) (v : Word) : (c.setG r v).tasktime = c.tasktime
    := by unfold Ctl.setG; split <;> rfl
@[simp] theorem Ctl.setG_pending (c : Ctl) (r : BitVec 5) (v : Word) : (c.setG r v).pending = c.pending
    := by unfold Ctl.setG; split <;> rfl
@[simp] theorem Ctl.setG_clo (c : Ctl) (r : BitVec 5) (v : Word) : (c.setG r v).clo = c.clo
    := by unfold Ctl.setG; split <;> rfl
@[simp] theorem Ctl.setG_chi (c : Ctl) (r : BitVec 5) (v : Word) : (c.setG r v).chi = c.chi
    := by unfold Ctl.setG; split <;> rfl
@[simp] theorem Ctl.setG_remote (c : Ctl) (r : BitVec 5) (v : Word) : (c.setG r v).remote = c.remote
    := by unfold Ctl.setG; split <;> rfl
@[simp] theorem Ctl.setG_remoteAge (c : Ctl) (r : BitVec 5) (v : Word) : (c.setG r v).remoteAge = c.remoteAge
    := by unfold Ctl.setG; split <;> rfl
@[simp] theorem Ctl.setP_g (c : Ctl) (i : BitVec 3) (b : Bool) : (c.setP i b).g = c.g
    := by unfold Ctl.setP; split <;> rfl
@[simp] theorem Ctl.setP_j (c : Ctl) (i : BitVec 3) (b : Bool) : (c.setP i b).j = c.j
    := by unfold Ctl.setP; split <;> rfl
@[simp] theorem Ctl.setP_ssp (c : Ctl) (i : BitVec 3) (b : Bool) : (c.setP i b).ssp = c.ssp
    := by unfold Ctl.setP; split <;> rfl
@[simp] theorem Ctl.setP_ssl (c : Ctl) (i : BitVec 3) (b : Bool) : (c.setP i b).ssl = c.ssl
    := by unfold Ctl.setP; split <;> rfl
@[simp] theorem Ctl.setP_pc (c : Ctl) (i : BitVec 3) (b : Bool) : (c.setP i b).pc = c.pc
    := by unfold Ctl.setP; split <;> rfl
@[simp] theorem Ctl.setP_ir (c : Ctl) (i : BitVec 3) (b : Bool) : (c.setP i b).ir = c.ir
    := by unfold Ctl.setP; split <;> rfl
@[simp] theorem Ctl.setP_waiting (c : Ctl) (i : BitVec 3) (b : Bool) : (c.setP i b).waiting = c.waiting
    := by unfold Ctl.setP; split <;> rfl
@[simp] theorem Ctl.setP_step (c : Ctl) (i : BitVec 3) (b : Bool) : (c.setP i b).step = c.step
    := by unfold Ctl.setP; split <;> rfl
@[simp] theorem Ctl.setP_phys (c : Ctl) (i : BitVec 3) (b : Bool) : (c.setP i b).phys = c.phys
    := by unfold Ctl.setP; split <;> rfl
@[simp] theorem Ctl.setP_degr (c : Ctl) (i : BitVec 3) (b : Bool) : (c.setP i b).degr = c.degr
    := by unfold Ctl.setP; split <;> rfl
@[simp] theorem Ctl.setP_timed (c : Ctl) (i : BitVec 3) (b : Bool) : (c.setP i b).timed = c.timed
    := by unfold Ctl.setP; split <;> rfl
@[simp] theorem Ctl.setP_frame (c : Ctl) (i : BitVec 3) (b : Bool) : (c.setP i b).frame = c.frame
    := by unfold Ctl.setP; split <;> rfl
@[simp] theorem Ctl.setP_framecnt (c : Ctl) (i : BitVec 3) (b : Bool) : (c.setP i b).framecnt = c.framecnt
    := by unfold Ctl.setP; split <;> rfl
@[simp] theorem Ctl.setP_frameEng (c : Ctl) (i : BitVec 3) (b : Bool) : (c.setP i b).frameEng = c.frameEng
    := by unfold Ctl.setP; split <;> rfl
@[simp] theorem Ctl.setP_tasktime (c : Ctl) (i : BitVec 3) (b : Bool) : (c.setP i b).tasktime = c.tasktime
    := by unfold Ctl.setP; split <;> rfl
@[simp] theorem Ctl.setP_pending (c : Ctl) (i : BitVec 3) (b : Bool) : (c.setP i b).pending = c.pending
    := by unfold Ctl.setP; split <;> rfl
@[simp] theorem Ctl.setP_clo (c : Ctl) (i : BitVec 3) (b : Bool) : (c.setP i b).clo = c.clo
    := by unfold Ctl.setP; split <;> rfl
@[simp] theorem Ctl.setP_chi (c : Ctl) (i : BitVec 3) (b : Bool) : (c.setP i b).chi = c.chi
    := by unfold Ctl.setP; split <;> rfl
@[simp] theorem Ctl.setP_remote (c : Ctl) (i : BitVec 3) (b : Bool) : (c.setP i b).remote = c.remote
    := by unfold Ctl.setP; split <;> rfl
@[simp] theorem Ctl.setP_remoteAge (c : Ctl) (i : BitVec 3) (b : Bool) : (c.setP i b).remoteAge = c.remoteAge
    := by unfold Ctl.setP; split <;> rfl
@[simp] theorem Ctl.setJ_g (c : Ctl) (i : BitVec 3) (v : JReg) : (c.setJ i v).g = c.g := rfl
@[simp] theorem Ctl.setJ_p (c : Ctl) (i : BitVec 3) (v : JReg) : (c.setJ i v).p = c.p := rfl
@[simp] theorem Ctl.setJ_ssp (c : Ctl) (i : BitVec 3) (v : JReg) : (c.setJ i v).ssp = c.ssp := rfl
@[simp] theorem Ctl.setJ_ssl (c : Ctl) (i : BitVec 3) (v : JReg) : (c.setJ i v).ssl = c.ssl := rfl
@[simp] theorem Ctl.setJ_pc (c : Ctl) (i : BitVec 3) (v : JReg) : (c.setJ i v).pc = c.pc := rfl
@[simp] theorem Ctl.setJ_ir (c : Ctl) (i : BitVec 3) (v : JReg) : (c.setJ i v).ir = c.ir := rfl
@[simp] theorem Ctl.setJ_waiting (c : Ctl) (i : BitVec 3) (v : JReg) : (c.setJ i v).waiting = c.waiting := rfl
@[simp] theorem Ctl.setJ_step (c : Ctl) (i : BitVec 3) (v : JReg) : (c.setJ i v).step = c.step := rfl
@[simp] theorem Ctl.setJ_phys (c : Ctl) (i : BitVec 3) (v : JReg) : (c.setJ i v).phys = c.phys := rfl
@[simp] theorem Ctl.setJ_degr (c : Ctl) (i : BitVec 3) (v : JReg) : (c.setJ i v).degr = c.degr := rfl
@[simp] theorem Ctl.setJ_timed (c : Ctl) (i : BitVec 3) (v : JReg) : (c.setJ i v).timed = c.timed := rfl
@[simp] theorem Ctl.setJ_frame (c : Ctl) (i : BitVec 3) (v : JReg) : (c.setJ i v).frame = c.frame := rfl
@[simp] theorem Ctl.setJ_framecnt (c : Ctl) (i : BitVec 3) (v : JReg) : (c.setJ i v).framecnt = c.framecnt := rfl
@[simp] theorem Ctl.setJ_frameEng (c : Ctl) (i : BitVec 3) (v : JReg) : (c.setJ i v).frameEng = c.frameEng := rfl
@[simp] theorem Ctl.setJ_tasktime (c : Ctl) (i : BitVec 3) (v : JReg) : (c.setJ i v).tasktime = c.tasktime := rfl
@[simp] theorem Ctl.setJ_pending (c : Ctl) (i : BitVec 3) (v : JReg) : (c.setJ i v).pending = c.pending := rfl
@[simp] theorem Ctl.setJ_clo (c : Ctl) (i : BitVec 3) (v : JReg) : (c.setJ i v).clo = c.clo := rfl
@[simp] theorem Ctl.setJ_chi (c : Ctl) (i : BitVec 3) (v : JReg) : (c.setJ i v).chi = c.chi := rfl
@[simp] theorem Ctl.setJ_remote (c : Ctl) (i : BitVec 3) (v : JReg) : (c.setJ i v).remote = c.remote := rfl
@[simp] theorem Ctl.setJ_remoteAge (c : Ctl) (i : BitVec 3) (v : JReg) : (c.setJ i v).remoteAge = c.remoteAge := rfl

/-! ### State.setG -/

@[simp] theorem State.setG_d4 (s : State) (r : BitVec 5) (v : Word) : (s.setG r v).d4 = s.d4 := rfl
@[simp] theorem State.setG_boot (s : State) (r : BitVec 5) (v : Word) : (s.setG r v).boot = s.boot := rfl
@[simp] theorem State.setG_now (s : State) (r : BitVec 5) (v : Word) : (s.setG r v).now = s.now := rfl
@[simp] theorem State.setG_bootAt (s : State) (r : BitVec 5) (v : Word) : (s.setG r v).bootAt = s.bootAt := rfl
@[simp] theorem State.setG_fresh (s : State) (r : BitVec 5) (v : Word) : (s.setG r v).fresh = s.fresh := rfl
@[simp] theorem State.setG_rest (s : State) (r : BitVec 5) (v : Word) : (s.setG r v).rest = s.rest := rfl
@[simp] theorem State.setG_mem (s : State) (r : BitVec 5) (v : Word) : (s.setG r v).mem = s.mem := rfl
@[simp] theorem State.setG_badMem (s : State) (r : BitVec 5) (v : Word) : (s.setG r v).badMem = s.badMem := rfl
@[simp] theorem State.setG_pkg (s : State) (r : BitVec 5) (v : Word) : (s.setG r v).pkg = s.pkg := rfl
@[simp] theorem State.setG_hostLink (s : State) (r : BitVec 5) (v : Word) : (s.setG r v).hostLink = s.hostLink := rfl
@[simp] theorem State.setG_parts (s : State) (r : BitVec 5) (v : Word) : (s.setG r v).parts = s.parts := rfl
@[simp] theorem State.setG_launches (s : State) (r : BitVec 5) (v : Word) : (s.setG r v).launches = s.launches := rfl
@[simp] theorem State.setG_nextLid (s : State) (r : BitVec 5) (v : Word) : (s.setG r v).nextLid = s.nextLid := rfl
@[simp] theorem State.setG_gangs (s : State) (r : BitVec 5) (v : Word) : (s.setG r v).gangs = s.gangs := rfl
@[simp] theorem State.setG_binds (s : State) (r : BitVec 5) (v : Word) : (s.setG r v).binds = s.binds := rfl
@[simp] theorem State.setG_nextTag (s : State) (r : BitVec 5) (v : Word) : (s.setG r v).nextTag = s.nextTag := rfl
@[simp] theorem State.setG_ctxNext (s : State) (r : BitVec 5) (v : Word) : (s.setG r v).ctxNext = s.ctxNext := rfl
@[simp] theorem State.setG_saved (s : State) (r : BitVec 5) (v : Word) : (s.setG r v).saved = s.saved := rfl
@[simp] theorem State.setG_arrivals (s : State) (r : BitVec 5) (v : Word) : (s.setG r v).arrivals = s.arrivals := rfl
@[simp] theorem State.setG_left (s : State) (r : BitVec 5) (v : Word) : (s.setG r v).left = s.left := rfl
@[simp] theorem State.setG_departs (s : State) (r : BitVec 5) (v : Word) : (s.setG r v).departs = s.departs := rfl
@[simp] theorem State.setG_iinvs (s : State) (r : BitVec 5) (v : Word) : (s.setG r v).iinvs = s.iinvs := rfl
@[simp] theorem State.setG_nextIinv (s : State) (r : BitVec 5) (v : Word) : (s.setG r v).nextIinv = s.nextIinv := rfl
@[simp] theorem State.setG_faults (s : State) (r : BitVec 5) (v : Word) : (s.setG r v).faults = s.faults := rfl
@[simp] theorem State.setG_tagsSeen (s : State) (r : BitVec 5) (v : Word) : (s.setG r v).tagsSeen = s.tagsSeen := rfl
@[simp] theorem State.setG_weir (s : State) (r : BitVec 5) (v : Word) : (s.setG r v).weir = s.weir := rfl
@[simp] theorem State.setG_power (s : State) (r : BitVec 5) (v : Word) : (s.setG r v).power = s.power := rfl
@[simp] theorem State.setG_exitAt (s : State) (r : BitVec 5) (v : Word) : (s.setG r v).exitAt = s.exitAt := rfl
@[simp] theorem State.setG_hostTol (s : State) (r : BitVec 5) (v : Word) : (s.setG r v).hostTol = s.hostTol := rfl
@[simp] theorem State.setG_fw (s : State) (r : BitVec 5) (v : Word) : (s.setG r v).fw = s.fw := rfl
@[simp] theorem State.setG_flash (s : State) (r : BitVec 5) (v : Word) : (s.setG r v).flash = s.flash := rfl
@[simp] theorem State.setG_rollback (s : State) (r : BitVec 5) (v : Word) : (s.setG r v).rollback = s.rollback := rfl
@[simp] theorem State.setG_descriptor (s : State) (r : BitVec 5) (v : Word) : (s.setG r v).descriptor = s.descriptor
    := rfl
@[simp] theorem State.setG_bootParts (s : State) (r : BitVec 5) (v : Word) : (s.setG r v).bootParts = s.bootParts := rfl
@[simp] theorem State.setG_coresFailed (s : State) (r : BitVec 5) (v : Word) : (s.setG r v).coresFailed = s.coresFailed
    := rfl
@[simp] theorem State.setG_dumpAt (s : State) (r : BitVec 5) (v : Word) : (s.setG r v).dumpAt = s.dumpAt := rfl
@[simp] theorem State.setG_lanesDown (s : State) (r : BitVec 5) (v : Word) : (s.setG r v).lanesDown = s.lanesDown := rfl
@[simp] theorem State.setG_replays (s : State) (r : BitVec 5) (v : Word) : (s.setG r v).replays = s.replays := rfl
@[simp] theorem State.setG_dumps (s : State) (r : BitVec 5) (v : Word) : (s.setG r v).dumps = s.dumps := rfl
@[simp] theorem State.setG_bootReports (s : State) (r : BitVec 5) (v : Word) : (s.setG r v).bootReports = s.bootReports
    := rfl
@[simp] theorem State.setG_reports (s : State) (r : BitVec 5) (v : Word) : (s.setG r v).reports = s.reports := rfl
@[simp] theorem State.setG_rings (s : State) (r : BitVec 5) (v : Word) : (s.setG r v).rings = s.rings := rfl
@[simp] theorem State.setG_splitPorts (s : State) (r : BitVec 5) (v : Word) : (s.setG r v).splitPorts = s.splitPorts
    := rfl
@[simp] theorem State.setG_xlat (s : State) (r : BitVec 5) (v : Word) : (s.setG r v).xlat = s.xlat := rfl
@[simp] theorem State.setG_shoots (s : State) (r : BitVec 5) (v : Word) : (s.setG r v).shoots = s.shoots := rfl
@[simp] theorem State.setG_agenda (s : State) (r : BitVec 5) (v : Word) : (s.setG r v).agenda = s.agenda := rfl
@[simp] theorem State.setG_inputs (s : State) (r : BitVec 5) (v : Word) : (s.setG r v).inputs = s.inputs := rfl
@[simp] theorem State.setG_cur_pcore (s : State) (r : BitVec 5) (v : Word) : (s.setG r v).cur.pcore = s.cur.pcore := rfl
@[simp] theorem State.setG_cur_slot (s : State) (r : BitVec 5) (v : Word) : (s.setG r v).cur.slot = s.cur.slot := rfl
@[simp] theorem State.setG_cur_released (s : State) (r : BitVec 5) (v : Word) : (s.setG r v).cur.released = s.cur.released
    := rfl
@[simp] theorem State.setG_cur_staged (s : State) (r : BitVec 5) (v : Word) : (s.setG r v).cur.staged = s.cur.staged
    := rfl
@[simp] theorem State.setG_cur_stagedTask (s : State) (r : BitVec 5) (v : Word) : (s.setG r v).cur.stagedTask = s.cur.stagedTask
    := rfl
@[simp] theorem State.setG_cur_stagedTag (s : State) (r : BitVec 5) (v : Word) : (s.setG r v).cur.stagedTag = s.cur.stagedTag
    := rfl
@[simp] theorem State.setG_cur_fillFrom (s : State) (r : BitVec 5) (v : Word) : (s.setG r v).cur.fillFrom = s.cur.fillFrom
    := rfl
@[simp] theorem State.setG_cur_fillVirt (s : State) (r : BitVec 5) (v : Word) : (s.setG r v).cur.fillVirt = s.cur.fillVirt
    := rfl
@[simp] theorem State.setG_cur_fillCtx (s : State) (r : BitVec 5) (v : Word) : (s.setG r v).cur.fillCtx = s.cur.fillCtx
    := rfl
@[simp] theorem State.setG_cur_saveTo (s : State) (r : BitVec 5) (v : Word) : (s.setG r v).cur.saveTo = s.cur.saveTo
    := rfl
@[simp] theorem State.setG_task_lid (s : State) (r : BitVec 5) (v : Word) : (s.setG r v).cur.task.lid = s.cur.task.lid
    := rfl
@[simp] theorem State.setG_task_lcn (s : State) (r : BitVec 5) (v : Word) : (s.setG r v).cur.task.lcn = s.cur.task.lcn
    := rfl
@[simp] theorem State.setG_task_gsize (s : State) (r : BitVec 5) (v : Word) : (s.setG r v).cur.task.gsize = s.cur.task.gsize
    := rfl
@[simp] theorem State.setG_task_gcount (s : State) (r : BitVec 5) (v : Word) : (s.setG r v).cur.task.gcount = s.cur.task.gcount
    := rfl
@[simp] theorem State.setG_task_part (s : State) (r : BitVec 5) (v : Word) : (s.setG r v).cur.task.part = s.cur.task.part
    := rfl
@[simp] theorem State.setG_task_queue (s : State) (r : BitVec 5) (v : Word) : (s.setG r v).cur.task.queue = s.cur.task.queue
    := rfl
@[simp] theorem State.setG_task_argptr (s : State) (r : BitVec 5) (v : Word) : (s.setG r v).cur.task.argptr = s.cur.task.argptr
    := rfl
@[simp] theorem State.setG_task_saveMask (s : State) (r : BitVec 5) (v : Word) : (s.setG r v).cur.task.saveMask = s.cur.task.saveMask
    := rfl
@[simp] theorem State.setG_task_wbSave (s : State) (r : BitVec 5) (v : Word) : (s.setG r v).cur.task.wbSave = s.cur.task.wbSave
    := rfl
@[simp] theorem State.setG_task_timedLaunch (s : State) (r : BitVec 5) (v : Word) : (s.setG r v).cur.task.timedLaunch = s.cur.task.timedLaunch
    := rfl
@[simp] theorem State.setG_task_ctl (s : State) (r : BitVec 5) (v : Word) : (s.setG r v).cur.task.ctl = s.cur.task.ctl.setG r v
    := rfl
@[simp] theorem State.setG_task_fidNext (s : State) (r : BitVec 5) (v : Word) : (s.setG r v).cur.task.fidNext = s.cur.task.fidNext
    := rfl
@[simp] theorem State.setG_task_t (s : State) (r : BitVec 5) (v : Word) : (s.setG r v).cur.task.t = s.cur.task.t := rfl
@[simp] theorem State.setG_task_pat (s : State) (r : BitVec 5) (v : Word) : (s.setG r v).cur.task.pat = s.cur.task.pat
    := rfl
@[simp] theorem State.setG_task_sh (s : State) (r : BitVec 5) (v : Word) : (s.setG r v).cur.task.sh = s.cur.task.sh
    := rfl
@[simp] theorem State.setG_task_m (s : State) (r : BitVec 5) (v : Word) : (s.setG r v).cur.task.m = s.cur.task.m := rfl
@[simp] theorem State.setG_task_f (s : State) (r : BitVec 5) (v : Word) : (s.setG r v).cur.task.f = s.cur.task.f := rfl
@[simp] theorem State.setG_task_s (s : State) (r : BitVec 5) (v : Word) : (s.setG r v).cur.task.s = s.cur.task.s := rfl
@[simp] theorem State.setG_task_reg (s : State) (r : BitVec 5) (v : Word) : (s.setG r v).cur.task.reg = s.cur.task.reg
    := rfl
@[simp] theorem State.setG_task_flags (s : State) (r : BitVec 5) (v : Word) : (s.setG r v).cur.task.flags = s.cur.task.flags
    := rfl
@[simp] theorem State.setG_task_scr (s : State) (r : BitVec 5) (v : Word) : (s.setG r v).cur.task.scr = s.cur.task.scr
    := rfl
@[simp] theorem State.setG_task_wb (s : State) (r : BitVec 5) (v : Word) : (s.setG r v).cur.task.wb = s.cur.task.wb
    := rfl
@[simp] theorem State.setG_task_wbValid (s : State) (r : BitVec 5) (v : Word) : (s.setG r v).cur.task.wbValid = s.cur.task.wbValid
    := rfl
@[simp] theorem State.setG_task_drainGen (s : State) (r : BitVec 5) (v : Word) : (s.setG r v).cur.task.drainGen = s.cur.task.drainGen
    := rfl
@[simp] theorem State.setG_task_flumeGen (s : State) (r : BitVec 5) (v : Word) : (s.setG r v).cur.task.flumeGen = s.cur.task.flumeGen
    := rfl
@[simp] theorem State.setG_task_sluGen (s : State) (r : BitVec 5) (v : Word) : (s.setG r v).cur.task.sluGen = s.cur.task.sluGen
    := rfl
@[simp] theorem State.setG_task_pins (s : State) (r : BitVec 5) (v : Word) : (s.setG r v).cur.task.pins = s.cur.task.pins
    := rfl
@[simp] theorem State.setG_task_tlb (s : State) (r : BitVec 5) (v : Word) : (s.setG r v).cur.task.tlb = s.cur.task.tlb
    := rfl
@[simp] theorem State.setG_task_icache (s : State) (r : BitVec 5) (v : Word) : (s.setG r v).cur.task.icache = s.cur.task.icache
    := rfl
@[simp] theorem State.setG_task_parking (s : State) (r : BitVec 5) (v : Word) : (s.setG r v).cur.task.parking = s.cur.task.parking
    := rfl
@[simp] theorem State.setG_task_parkAll (s : State) (r : BitVec 5) (v : Word) : (s.setG r v).cur.task.parkAll = s.cur.task.parkAll
    := rfl
@[simp] theorem State.setG_task_parkCtl (s : State) (r : BitVec 5) (v : Word) : (s.setG r v).cur.task.parkCtl = s.cur.task.parkCtl
    := rfl
@[simp] theorem State.setG_task_saving (s : State) (r : BitVec 5) (v : Word) : (s.setG r v).cur.task.saving = s.cur.task.saving
    := rfl
@[simp] theorem State.setG_task_bad (s : State) (r : BitVec 5) (v : Word) : (s.setG r v).cur.task.bad = s.cur.task.bad
    := rfl
@[simp] theorem State.setG_task_recs (s : State) (r : BitVec 5) (v : Word) : (s.setG r v).cur.task.recs = s.cur.task.recs
    := rfl

/-! ### State.setP -/

@[simp] theorem State.setP_d4 (s : State) (i : BitVec 3) (b : Bool) : (s.setP i b).d4 = s.d4 := rfl
@[simp] theorem State.setP_boot (s : State) (i : BitVec 3) (b : Bool) : (s.setP i b).boot = s.boot := rfl
@[simp] theorem State.setP_now (s : State) (i : BitVec 3) (b : Bool) : (s.setP i b).now = s.now := rfl
@[simp] theorem State.setP_bootAt (s : State) (i : BitVec 3) (b : Bool) : (s.setP i b).bootAt = s.bootAt := rfl
@[simp] theorem State.setP_fresh (s : State) (i : BitVec 3) (b : Bool) : (s.setP i b).fresh = s.fresh := rfl
@[simp] theorem State.setP_rest (s : State) (i : BitVec 3) (b : Bool) : (s.setP i b).rest = s.rest := rfl
@[simp] theorem State.setP_mem (s : State) (i : BitVec 3) (b : Bool) : (s.setP i b).mem = s.mem := rfl
@[simp] theorem State.setP_badMem (s : State) (i : BitVec 3) (b : Bool) : (s.setP i b).badMem = s.badMem := rfl
@[simp] theorem State.setP_pkg (s : State) (i : BitVec 3) (b : Bool) : (s.setP i b).pkg = s.pkg := rfl
@[simp] theorem State.setP_hostLink (s : State) (i : BitVec 3) (b : Bool) : (s.setP i b).hostLink = s.hostLink := rfl
@[simp] theorem State.setP_parts (s : State) (i : BitVec 3) (b : Bool) : (s.setP i b).parts = s.parts := rfl
@[simp] theorem State.setP_launches (s : State) (i : BitVec 3) (b : Bool) : (s.setP i b).launches = s.launches := rfl
@[simp] theorem State.setP_nextLid (s : State) (i : BitVec 3) (b : Bool) : (s.setP i b).nextLid = s.nextLid := rfl
@[simp] theorem State.setP_gangs (s : State) (i : BitVec 3) (b : Bool) : (s.setP i b).gangs = s.gangs := rfl
@[simp] theorem State.setP_binds (s : State) (i : BitVec 3) (b : Bool) : (s.setP i b).binds = s.binds := rfl
@[simp] theorem State.setP_nextTag (s : State) (i : BitVec 3) (b : Bool) : (s.setP i b).nextTag = s.nextTag := rfl
@[simp] theorem State.setP_ctxNext (s : State) (i : BitVec 3) (b : Bool) : (s.setP i b).ctxNext = s.ctxNext := rfl
@[simp] theorem State.setP_saved (s : State) (i : BitVec 3) (b : Bool) : (s.setP i b).saved = s.saved := rfl
@[simp] theorem State.setP_arrivals (s : State) (i : BitVec 3) (b : Bool) : (s.setP i b).arrivals = s.arrivals := rfl
@[simp] theorem State.setP_left (s : State) (i : BitVec 3) (b : Bool) : (s.setP i b).left = s.left := rfl
@[simp] theorem State.setP_departs (s : State) (i : BitVec 3) (b : Bool) : (s.setP i b).departs = s.departs := rfl
@[simp] theorem State.setP_iinvs (s : State) (i : BitVec 3) (b : Bool) : (s.setP i b).iinvs = s.iinvs := rfl
@[simp] theorem State.setP_nextIinv (s : State) (i : BitVec 3) (b : Bool) : (s.setP i b).nextIinv = s.nextIinv := rfl
@[simp] theorem State.setP_faults (s : State) (i : BitVec 3) (b : Bool) : (s.setP i b).faults = s.faults := rfl
@[simp] theorem State.setP_tagsSeen (s : State) (i : BitVec 3) (b : Bool) : (s.setP i b).tagsSeen = s.tagsSeen := rfl
@[simp] theorem State.setP_weir (s : State) (i : BitVec 3) (b : Bool) : (s.setP i b).weir = s.weir := rfl
@[simp] theorem State.setP_power (s : State) (i : BitVec 3) (b : Bool) : (s.setP i b).power = s.power := rfl
@[simp] theorem State.setP_exitAt (s : State) (i : BitVec 3) (b : Bool) : (s.setP i b).exitAt = s.exitAt := rfl
@[simp] theorem State.setP_hostTol (s : State) (i : BitVec 3) (b : Bool) : (s.setP i b).hostTol = s.hostTol := rfl
@[simp] theorem State.setP_fw (s : State) (i : BitVec 3) (b : Bool) : (s.setP i b).fw = s.fw := rfl
@[simp] theorem State.setP_flash (s : State) (i : BitVec 3) (b : Bool) : (s.setP i b).flash = s.flash := rfl
@[simp] theorem State.setP_rollback (s : State) (i : BitVec 3) (b : Bool) : (s.setP i b).rollback = s.rollback := rfl
@[simp] theorem State.setP_descriptor (s : State) (i : BitVec 3) (b : Bool) : (s.setP i b).descriptor = s.descriptor
    := rfl
@[simp] theorem State.setP_bootParts (s : State) (i : BitVec 3) (b : Bool) : (s.setP i b).bootParts = s.bootParts := rfl
@[simp] theorem State.setP_coresFailed (s : State) (i : BitVec 3) (b : Bool) : (s.setP i b).coresFailed = s.coresFailed
    := rfl
@[simp] theorem State.setP_dumpAt (s : State) (i : BitVec 3) (b : Bool) : (s.setP i b).dumpAt = s.dumpAt := rfl
@[simp] theorem State.setP_lanesDown (s : State) (i : BitVec 3) (b : Bool) : (s.setP i b).lanesDown = s.lanesDown := rfl
@[simp] theorem State.setP_replays (s : State) (i : BitVec 3) (b : Bool) : (s.setP i b).replays = s.replays := rfl
@[simp] theorem State.setP_dumps (s : State) (i : BitVec 3) (b : Bool) : (s.setP i b).dumps = s.dumps := rfl
@[simp] theorem State.setP_bootReports (s : State) (i : BitVec 3) (b : Bool) : (s.setP i b).bootReports = s.bootReports
    := rfl
@[simp] theorem State.setP_reports (s : State) (i : BitVec 3) (b : Bool) : (s.setP i b).reports = s.reports := rfl
@[simp] theorem State.setP_rings (s : State) (i : BitVec 3) (b : Bool) : (s.setP i b).rings = s.rings := rfl
@[simp] theorem State.setP_splitPorts (s : State) (i : BitVec 3) (b : Bool) : (s.setP i b).splitPorts = s.splitPorts
    := rfl
@[simp] theorem State.setP_xlat (s : State) (i : BitVec 3) (b : Bool) : (s.setP i b).xlat = s.xlat := rfl
@[simp] theorem State.setP_shoots (s : State) (i : BitVec 3) (b : Bool) : (s.setP i b).shoots = s.shoots := rfl
@[simp] theorem State.setP_agenda (s : State) (i : BitVec 3) (b : Bool) : (s.setP i b).agenda = s.agenda := rfl
@[simp] theorem State.setP_inputs (s : State) (i : BitVec 3) (b : Bool) : (s.setP i b).inputs = s.inputs := rfl
@[simp] theorem State.setP_cur_pcore (s : State) (i : BitVec 3) (b : Bool) : (s.setP i b).cur.pcore = s.cur.pcore := rfl
@[simp] theorem State.setP_cur_slot (s : State) (i : BitVec 3) (b : Bool) : (s.setP i b).cur.slot = s.cur.slot := rfl
@[simp] theorem State.setP_cur_released (s : State) (i : BitVec 3) (b : Bool) : (s.setP i b).cur.released = s.cur.released
    := rfl
@[simp] theorem State.setP_cur_staged (s : State) (i : BitVec 3) (b : Bool) : (s.setP i b).cur.staged = s.cur.staged
    := rfl
@[simp] theorem State.setP_cur_stagedTask (s : State) (i : BitVec 3) (b : Bool) : (s.setP i b).cur.stagedTask = s.cur.stagedTask
    := rfl
@[simp] theorem State.setP_cur_stagedTag (s : State) (i : BitVec 3) (b : Bool) : (s.setP i b).cur.stagedTag = s.cur.stagedTag
    := rfl
@[simp] theorem State.setP_cur_fillFrom (s : State) (i : BitVec 3) (b : Bool) : (s.setP i b).cur.fillFrom = s.cur.fillFrom
    := rfl
@[simp] theorem State.setP_cur_fillVirt (s : State) (i : BitVec 3) (b : Bool) : (s.setP i b).cur.fillVirt = s.cur.fillVirt
    := rfl
@[simp] theorem State.setP_cur_fillCtx (s : State) (i : BitVec 3) (b : Bool) : (s.setP i b).cur.fillCtx = s.cur.fillCtx
    := rfl
@[simp] theorem State.setP_cur_saveTo (s : State) (i : BitVec 3) (b : Bool) : (s.setP i b).cur.saveTo = s.cur.saveTo
    := rfl
@[simp] theorem State.setP_task_lid (s : State) (i : BitVec 3) (b : Bool) : (s.setP i b).cur.task.lid = s.cur.task.lid
    := rfl
@[simp] theorem State.setP_task_lcn (s : State) (i : BitVec 3) (b : Bool) : (s.setP i b).cur.task.lcn = s.cur.task.lcn
    := rfl
@[simp] theorem State.setP_task_gsize (s : State) (i : BitVec 3) (b : Bool) : (s.setP i b).cur.task.gsize = s.cur.task.gsize
    := rfl
@[simp] theorem State.setP_task_gcount (s : State) (i : BitVec 3) (b : Bool) : (s.setP i b).cur.task.gcount = s.cur.task.gcount
    := rfl
@[simp] theorem State.setP_task_part (s : State) (i : BitVec 3) (b : Bool) : (s.setP i b).cur.task.part = s.cur.task.part
    := rfl
@[simp] theorem State.setP_task_queue (s : State) (i : BitVec 3) (b : Bool) : (s.setP i b).cur.task.queue = s.cur.task.queue
    := rfl
@[simp] theorem State.setP_task_argptr (s : State) (i : BitVec 3) (b : Bool) : (s.setP i b).cur.task.argptr = s.cur.task.argptr
    := rfl
@[simp] theorem State.setP_task_saveMask (s : State) (i : BitVec 3) (b : Bool) : (s.setP i b).cur.task.saveMask = s.cur.task.saveMask
    := rfl
@[simp] theorem State.setP_task_wbSave (s : State) (i : BitVec 3) (b : Bool) : (s.setP i b).cur.task.wbSave = s.cur.task.wbSave
    := rfl
@[simp] theorem State.setP_task_timedLaunch (s : State) (i : BitVec 3) (b : Bool) : (s.setP i b).cur.task.timedLaunch = s.cur.task.timedLaunch
    := rfl
@[simp] theorem State.setP_task_ctl (s : State) (i : BitVec 3) (b : Bool) : (s.setP i b).cur.task.ctl = s.cur.task.ctl.setP i b
    := rfl
@[simp] theorem State.setP_task_fidNext (s : State) (i : BitVec 3) (b : Bool) : (s.setP i b).cur.task.fidNext = s.cur.task.fidNext
    := rfl
@[simp] theorem State.setP_task_t (s : State) (i : BitVec 3) (b : Bool) : (s.setP i b).cur.task.t = s.cur.task.t := rfl
@[simp] theorem State.setP_task_pat (s : State) (i : BitVec 3) (b : Bool) : (s.setP i b).cur.task.pat = s.cur.task.pat
    := rfl
@[simp] theorem State.setP_task_sh (s : State) (i : BitVec 3) (b : Bool) : (s.setP i b).cur.task.sh = s.cur.task.sh
    := rfl
@[simp] theorem State.setP_task_m (s : State) (i : BitVec 3) (b : Bool) : (s.setP i b).cur.task.m = s.cur.task.m := rfl
@[simp] theorem State.setP_task_f (s : State) (i : BitVec 3) (b : Bool) : (s.setP i b).cur.task.f = s.cur.task.f := rfl
@[simp] theorem State.setP_task_s (s : State) (i : BitVec 3) (b : Bool) : (s.setP i b).cur.task.s = s.cur.task.s := rfl
@[simp] theorem State.setP_task_reg (s : State) (i : BitVec 3) (b : Bool) : (s.setP i b).cur.task.reg = s.cur.task.reg
    := rfl
@[simp] theorem State.setP_task_flags (s : State) (i : BitVec 3) (b : Bool) : (s.setP i b).cur.task.flags = s.cur.task.flags
    := rfl
@[simp] theorem State.setP_task_scr (s : State) (i : BitVec 3) (b : Bool) : (s.setP i b).cur.task.scr = s.cur.task.scr
    := rfl
@[simp] theorem State.setP_task_wb (s : State) (i : BitVec 3) (b : Bool) : (s.setP i b).cur.task.wb = s.cur.task.wb
    := rfl
@[simp] theorem State.setP_task_wbValid (s : State) (i : BitVec 3) (b : Bool) : (s.setP i b).cur.task.wbValid = s.cur.task.wbValid
    := rfl
@[simp] theorem State.setP_task_drainGen (s : State) (i : BitVec 3) (b : Bool) : (s.setP i b).cur.task.drainGen = s.cur.task.drainGen
    := rfl
@[simp] theorem State.setP_task_flumeGen (s : State) (i : BitVec 3) (b : Bool) : (s.setP i b).cur.task.flumeGen = s.cur.task.flumeGen
    := rfl
@[simp] theorem State.setP_task_sluGen (s : State) (i : BitVec 3) (b : Bool) : (s.setP i b).cur.task.sluGen = s.cur.task.sluGen
    := rfl
@[simp] theorem State.setP_task_pins (s : State) (i : BitVec 3) (b : Bool) : (s.setP i b).cur.task.pins = s.cur.task.pins
    := rfl
@[simp] theorem State.setP_task_tlb (s : State) (i : BitVec 3) (b : Bool) : (s.setP i b).cur.task.tlb = s.cur.task.tlb
    := rfl
@[simp] theorem State.setP_task_icache (s : State) (i : BitVec 3) (b : Bool) : (s.setP i b).cur.task.icache = s.cur.task.icache
    := rfl
@[simp] theorem State.setP_task_parking (s : State) (i : BitVec 3) (b : Bool) : (s.setP i b).cur.task.parking = s.cur.task.parking
    := rfl
@[simp] theorem State.setP_task_parkAll (s : State) (i : BitVec 3) (b : Bool) : (s.setP i b).cur.task.parkAll = s.cur.task.parkAll
    := rfl
@[simp] theorem State.setP_task_parkCtl (s : State) (i : BitVec 3) (b : Bool) : (s.setP i b).cur.task.parkCtl = s.cur.task.parkCtl
    := rfl
@[simp] theorem State.setP_task_saving (s : State) (i : BitVec 3) (b : Bool) : (s.setP i b).cur.task.saving = s.cur.task.saving
    := rfl
@[simp] theorem State.setP_task_bad (s : State) (i : BitVec 3) (b : Bool) : (s.setP i b).cur.task.bad = s.cur.task.bad
    := rfl
@[simp] theorem State.setP_task_recs (s : State) (i : BitVec 3) (b : Bool) : (s.setP i b).cur.task.recs = s.cur.task.recs
    := rfl

/-! ### State.setJ -/

@[simp] theorem State.setJ_d4 (s : State) (i : BitVec 3) (v : JReg) : (s.setJ i v).d4 = s.d4 := rfl
@[simp] theorem State.setJ_boot (s : State) (i : BitVec 3) (v : JReg) : (s.setJ i v).boot = s.boot := rfl
@[simp] theorem State.setJ_now (s : State) (i : BitVec 3) (v : JReg) : (s.setJ i v).now = s.now := rfl
@[simp] theorem State.setJ_bootAt (s : State) (i : BitVec 3) (v : JReg) : (s.setJ i v).bootAt = s.bootAt := rfl
@[simp] theorem State.setJ_fresh (s : State) (i : BitVec 3) (v : JReg) : (s.setJ i v).fresh = s.fresh := rfl
@[simp] theorem State.setJ_rest (s : State) (i : BitVec 3) (v : JReg) : (s.setJ i v).rest = s.rest := rfl
@[simp] theorem State.setJ_mem (s : State) (i : BitVec 3) (v : JReg) : (s.setJ i v).mem = s.mem := rfl
@[simp] theorem State.setJ_badMem (s : State) (i : BitVec 3) (v : JReg) : (s.setJ i v).badMem = s.badMem := rfl
@[simp] theorem State.setJ_pkg (s : State) (i : BitVec 3) (v : JReg) : (s.setJ i v).pkg = s.pkg := rfl
@[simp] theorem State.setJ_hostLink (s : State) (i : BitVec 3) (v : JReg) : (s.setJ i v).hostLink = s.hostLink := rfl
@[simp] theorem State.setJ_parts (s : State) (i : BitVec 3) (v : JReg) : (s.setJ i v).parts = s.parts := rfl
@[simp] theorem State.setJ_launches (s : State) (i : BitVec 3) (v : JReg) : (s.setJ i v).launches = s.launches := rfl
@[simp] theorem State.setJ_nextLid (s : State) (i : BitVec 3) (v : JReg) : (s.setJ i v).nextLid = s.nextLid := rfl
@[simp] theorem State.setJ_gangs (s : State) (i : BitVec 3) (v : JReg) : (s.setJ i v).gangs = s.gangs := rfl
@[simp] theorem State.setJ_binds (s : State) (i : BitVec 3) (v : JReg) : (s.setJ i v).binds = s.binds := rfl
@[simp] theorem State.setJ_nextTag (s : State) (i : BitVec 3) (v : JReg) : (s.setJ i v).nextTag = s.nextTag := rfl
@[simp] theorem State.setJ_ctxNext (s : State) (i : BitVec 3) (v : JReg) : (s.setJ i v).ctxNext = s.ctxNext := rfl
@[simp] theorem State.setJ_saved (s : State) (i : BitVec 3) (v : JReg) : (s.setJ i v).saved = s.saved := rfl
@[simp] theorem State.setJ_arrivals (s : State) (i : BitVec 3) (v : JReg) : (s.setJ i v).arrivals = s.arrivals := rfl
@[simp] theorem State.setJ_left (s : State) (i : BitVec 3) (v : JReg) : (s.setJ i v).left = s.left := rfl
@[simp] theorem State.setJ_departs (s : State) (i : BitVec 3) (v : JReg) : (s.setJ i v).departs = s.departs := rfl
@[simp] theorem State.setJ_iinvs (s : State) (i : BitVec 3) (v : JReg) : (s.setJ i v).iinvs = s.iinvs := rfl
@[simp] theorem State.setJ_nextIinv (s : State) (i : BitVec 3) (v : JReg) : (s.setJ i v).nextIinv = s.nextIinv := rfl
@[simp] theorem State.setJ_faults (s : State) (i : BitVec 3) (v : JReg) : (s.setJ i v).faults = s.faults := rfl
@[simp] theorem State.setJ_tagsSeen (s : State) (i : BitVec 3) (v : JReg) : (s.setJ i v).tagsSeen = s.tagsSeen := rfl
@[simp] theorem State.setJ_weir (s : State) (i : BitVec 3) (v : JReg) : (s.setJ i v).weir = s.weir := rfl
@[simp] theorem State.setJ_power (s : State) (i : BitVec 3) (v : JReg) : (s.setJ i v).power = s.power := rfl
@[simp] theorem State.setJ_exitAt (s : State) (i : BitVec 3) (v : JReg) : (s.setJ i v).exitAt = s.exitAt := rfl
@[simp] theorem State.setJ_hostTol (s : State) (i : BitVec 3) (v : JReg) : (s.setJ i v).hostTol = s.hostTol := rfl
@[simp] theorem State.setJ_fw (s : State) (i : BitVec 3) (v : JReg) : (s.setJ i v).fw = s.fw := rfl
@[simp] theorem State.setJ_flash (s : State) (i : BitVec 3) (v : JReg) : (s.setJ i v).flash = s.flash := rfl
@[simp] theorem State.setJ_rollback (s : State) (i : BitVec 3) (v : JReg) : (s.setJ i v).rollback = s.rollback := rfl
@[simp] theorem State.setJ_descriptor (s : State) (i : BitVec 3) (v : JReg) : (s.setJ i v).descriptor = s.descriptor
    := rfl
@[simp] theorem State.setJ_bootParts (s : State) (i : BitVec 3) (v : JReg) : (s.setJ i v).bootParts = s.bootParts := rfl
@[simp] theorem State.setJ_coresFailed (s : State) (i : BitVec 3) (v : JReg) : (s.setJ i v).coresFailed = s.coresFailed
    := rfl
@[simp] theorem State.setJ_dumpAt (s : State) (i : BitVec 3) (v : JReg) : (s.setJ i v).dumpAt = s.dumpAt := rfl
@[simp] theorem State.setJ_lanesDown (s : State) (i : BitVec 3) (v : JReg) : (s.setJ i v).lanesDown = s.lanesDown := rfl
@[simp] theorem State.setJ_replays (s : State) (i : BitVec 3) (v : JReg) : (s.setJ i v).replays = s.replays := rfl
@[simp] theorem State.setJ_dumps (s : State) (i : BitVec 3) (v : JReg) : (s.setJ i v).dumps = s.dumps := rfl
@[simp] theorem State.setJ_bootReports (s : State) (i : BitVec 3) (v : JReg) : (s.setJ i v).bootReports = s.bootReports
    := rfl
@[simp] theorem State.setJ_reports (s : State) (i : BitVec 3) (v : JReg) : (s.setJ i v).reports = s.reports := rfl
@[simp] theorem State.setJ_rings (s : State) (i : BitVec 3) (v : JReg) : (s.setJ i v).rings = s.rings := rfl
@[simp] theorem State.setJ_splitPorts (s : State) (i : BitVec 3) (v : JReg) : (s.setJ i v).splitPorts = s.splitPorts
    := rfl
@[simp] theorem State.setJ_xlat (s : State) (i : BitVec 3) (v : JReg) : (s.setJ i v).xlat = s.xlat := rfl
@[simp] theorem State.setJ_shoots (s : State) (i : BitVec 3) (v : JReg) : (s.setJ i v).shoots = s.shoots := rfl
@[simp] theorem State.setJ_agenda (s : State) (i : BitVec 3) (v : JReg) : (s.setJ i v).agenda = s.agenda := rfl
@[simp] theorem State.setJ_inputs (s : State) (i : BitVec 3) (v : JReg) : (s.setJ i v).inputs = s.inputs := rfl
@[simp] theorem State.setJ_cur_pcore (s : State) (i : BitVec 3) (v : JReg) : (s.setJ i v).cur.pcore = s.cur.pcore := rfl
@[simp] theorem State.setJ_cur_slot (s : State) (i : BitVec 3) (v : JReg) : (s.setJ i v).cur.slot = s.cur.slot := rfl
@[simp] theorem State.setJ_cur_released (s : State) (i : BitVec 3) (v : JReg) : (s.setJ i v).cur.released = s.cur.released
    := rfl
@[simp] theorem State.setJ_cur_staged (s : State) (i : BitVec 3) (v : JReg) : (s.setJ i v).cur.staged = s.cur.staged
    := rfl
@[simp] theorem State.setJ_cur_stagedTask (s : State) (i : BitVec 3) (v : JReg) : (s.setJ i v).cur.stagedTask = s.cur.stagedTask
    := rfl
@[simp] theorem State.setJ_cur_stagedTag (s : State) (i : BitVec 3) (v : JReg) : (s.setJ i v).cur.stagedTag = s.cur.stagedTag
    := rfl
@[simp] theorem State.setJ_cur_fillFrom (s : State) (i : BitVec 3) (v : JReg) : (s.setJ i v).cur.fillFrom = s.cur.fillFrom
    := rfl
@[simp] theorem State.setJ_cur_fillVirt (s : State) (i : BitVec 3) (v : JReg) : (s.setJ i v).cur.fillVirt = s.cur.fillVirt
    := rfl
@[simp] theorem State.setJ_cur_fillCtx (s : State) (i : BitVec 3) (v : JReg) : (s.setJ i v).cur.fillCtx = s.cur.fillCtx
    := rfl
@[simp] theorem State.setJ_cur_saveTo (s : State) (i : BitVec 3) (v : JReg) : (s.setJ i v).cur.saveTo = s.cur.saveTo
    := rfl
@[simp] theorem State.setJ_task_lid (s : State) (i : BitVec 3) (v : JReg) : (s.setJ i v).cur.task.lid = s.cur.task.lid
    := rfl
@[simp] theorem State.setJ_task_lcn (s : State) (i : BitVec 3) (v : JReg) : (s.setJ i v).cur.task.lcn = s.cur.task.lcn
    := rfl
@[simp] theorem State.setJ_task_gsize (s : State) (i : BitVec 3) (v : JReg) : (s.setJ i v).cur.task.gsize = s.cur.task.gsize
    := rfl
@[simp] theorem State.setJ_task_gcount (s : State) (i : BitVec 3) (v : JReg) : (s.setJ i v).cur.task.gcount = s.cur.task.gcount
    := rfl
@[simp] theorem State.setJ_task_part (s : State) (i : BitVec 3) (v : JReg) : (s.setJ i v).cur.task.part = s.cur.task.part
    := rfl
@[simp] theorem State.setJ_task_queue (s : State) (i : BitVec 3) (v : JReg) : (s.setJ i v).cur.task.queue = s.cur.task.queue
    := rfl
@[simp] theorem State.setJ_task_argptr (s : State) (i : BitVec 3) (v : JReg) : (s.setJ i v).cur.task.argptr = s.cur.task.argptr
    := rfl
@[simp] theorem State.setJ_task_saveMask (s : State) (i : BitVec 3) (v : JReg) : (s.setJ i v).cur.task.saveMask = s.cur.task.saveMask
    := rfl
@[simp] theorem State.setJ_task_wbSave (s : State) (i : BitVec 3) (v : JReg) : (s.setJ i v).cur.task.wbSave = s.cur.task.wbSave
    := rfl
@[simp] theorem State.setJ_task_timedLaunch (s : State) (i : BitVec 3) (v : JReg) : (s.setJ i v).cur.task.timedLaunch = s.cur.task.timedLaunch
    := rfl
@[simp] theorem State.setJ_task_ctl (s : State) (i : BitVec 3) (v : JReg) : (s.setJ i v).cur.task.ctl = s.cur.task.ctl.setJ i v
    := rfl
@[simp] theorem State.setJ_task_fidNext (s : State) (i : BitVec 3) (v : JReg) : (s.setJ i v).cur.task.fidNext = s.cur.task.fidNext
    := rfl
@[simp] theorem State.setJ_task_t (s : State) (i : BitVec 3) (v : JReg) : (s.setJ i v).cur.task.t = s.cur.task.t := rfl
@[simp] theorem State.setJ_task_pat (s : State) (i : BitVec 3) (v : JReg) : (s.setJ i v).cur.task.pat = s.cur.task.pat
    := rfl
@[simp] theorem State.setJ_task_sh (s : State) (i : BitVec 3) (v : JReg) : (s.setJ i v).cur.task.sh = s.cur.task.sh
    := rfl
@[simp] theorem State.setJ_task_m (s : State) (i : BitVec 3) (v : JReg) : (s.setJ i v).cur.task.m = s.cur.task.m := rfl
@[simp] theorem State.setJ_task_f (s : State) (i : BitVec 3) (v : JReg) : (s.setJ i v).cur.task.f = s.cur.task.f := rfl
@[simp] theorem State.setJ_task_s (s : State) (i : BitVec 3) (v : JReg) : (s.setJ i v).cur.task.s = s.cur.task.s := rfl
@[simp] theorem State.setJ_task_reg (s : State) (i : BitVec 3) (v : JReg) : (s.setJ i v).cur.task.reg = s.cur.task.reg
    := rfl
@[simp] theorem State.setJ_task_flags (s : State) (i : BitVec 3) (v : JReg) : (s.setJ i v).cur.task.flags = s.cur.task.flags
    := rfl
@[simp] theorem State.setJ_task_scr (s : State) (i : BitVec 3) (v : JReg) : (s.setJ i v).cur.task.scr = s.cur.task.scr
    := rfl
@[simp] theorem State.setJ_task_wb (s : State) (i : BitVec 3) (v : JReg) : (s.setJ i v).cur.task.wb = s.cur.task.wb
    := rfl
@[simp] theorem State.setJ_task_wbValid (s : State) (i : BitVec 3) (v : JReg) : (s.setJ i v).cur.task.wbValid = s.cur.task.wbValid
    := rfl
@[simp] theorem State.setJ_task_drainGen (s : State) (i : BitVec 3) (v : JReg) : (s.setJ i v).cur.task.drainGen = s.cur.task.drainGen
    := rfl
@[simp] theorem State.setJ_task_flumeGen (s : State) (i : BitVec 3) (v : JReg) : (s.setJ i v).cur.task.flumeGen = s.cur.task.flumeGen
    := rfl
@[simp] theorem State.setJ_task_sluGen (s : State) (i : BitVec 3) (v : JReg) : (s.setJ i v).cur.task.sluGen = s.cur.task.sluGen
    := rfl
@[simp] theorem State.setJ_task_pins (s : State) (i : BitVec 3) (v : JReg) : (s.setJ i v).cur.task.pins = s.cur.task.pins
    := rfl
@[simp] theorem State.setJ_task_tlb (s : State) (i : BitVec 3) (v : JReg) : (s.setJ i v).cur.task.tlb = s.cur.task.tlb
    := rfl
@[simp] theorem State.setJ_task_icache (s : State) (i : BitVec 3) (v : JReg) : (s.setJ i v).cur.task.icache = s.cur.task.icache
    := rfl
@[simp] theorem State.setJ_task_parking (s : State) (i : BitVec 3) (v : JReg) : (s.setJ i v).cur.task.parking = s.cur.task.parking
    := rfl
@[simp] theorem State.setJ_task_parkAll (s : State) (i : BitVec 3) (v : JReg) : (s.setJ i v).cur.task.parkAll = s.cur.task.parkAll
    := rfl
@[simp] theorem State.setJ_task_parkCtl (s : State) (i : BitVec 3) (v : JReg) : (s.setJ i v).cur.task.parkCtl = s.cur.task.parkCtl
    := rfl
@[simp] theorem State.setJ_task_saving (s : State) (i : BitVec 3) (v : JReg) : (s.setJ i v).cur.task.saving = s.cur.task.saving
    := rfl
@[simp] theorem State.setJ_task_bad (s : State) (i : BitVec 3) (v : JReg) : (s.setJ i v).cur.task.bad = s.cur.task.bad
    := rfl
@[simp] theorem State.setJ_task_recs (s : State) (i : BitVec 3) (v : JReg) : (s.setJ i v).cur.task.recs = s.cur.task.recs
    := rfl

/-! ### State.setPc -/

@[simp] theorem State.setPc_d4 (s : State) (v : Word) : (s.setPc v).d4 = s.d4 := rfl
@[simp] theorem State.setPc_boot (s : State) (v : Word) : (s.setPc v).boot = s.boot := rfl
@[simp] theorem State.setPc_now (s : State) (v : Word) : (s.setPc v).now = s.now := rfl
@[simp] theorem State.setPc_bootAt (s : State) (v : Word) : (s.setPc v).bootAt = s.bootAt := rfl
@[simp] theorem State.setPc_fresh (s : State) (v : Word) : (s.setPc v).fresh = s.fresh := rfl
@[simp] theorem State.setPc_rest (s : State) (v : Word) : (s.setPc v).rest = s.rest := rfl
@[simp] theorem State.setPc_mem (s : State) (v : Word) : (s.setPc v).mem = s.mem := rfl
@[simp] theorem State.setPc_badMem (s : State) (v : Word) : (s.setPc v).badMem = s.badMem := rfl
@[simp] theorem State.setPc_pkg (s : State) (v : Word) : (s.setPc v).pkg = s.pkg := rfl
@[simp] theorem State.setPc_hostLink (s : State) (v : Word) : (s.setPc v).hostLink = s.hostLink := rfl
@[simp] theorem State.setPc_parts (s : State) (v : Word) : (s.setPc v).parts = s.parts := rfl
@[simp] theorem State.setPc_launches (s : State) (v : Word) : (s.setPc v).launches = s.launches := rfl
@[simp] theorem State.setPc_nextLid (s : State) (v : Word) : (s.setPc v).nextLid = s.nextLid := rfl
@[simp] theorem State.setPc_gangs (s : State) (v : Word) : (s.setPc v).gangs = s.gangs := rfl
@[simp] theorem State.setPc_binds (s : State) (v : Word) : (s.setPc v).binds = s.binds := rfl
@[simp] theorem State.setPc_nextTag (s : State) (v : Word) : (s.setPc v).nextTag = s.nextTag := rfl
@[simp] theorem State.setPc_ctxNext (s : State) (v : Word) : (s.setPc v).ctxNext = s.ctxNext := rfl
@[simp] theorem State.setPc_saved (s : State) (v : Word) : (s.setPc v).saved = s.saved := rfl
@[simp] theorem State.setPc_arrivals (s : State) (v : Word) : (s.setPc v).arrivals = s.arrivals := rfl
@[simp] theorem State.setPc_left (s : State) (v : Word) : (s.setPc v).left = s.left := rfl
@[simp] theorem State.setPc_departs (s : State) (v : Word) : (s.setPc v).departs = s.departs := rfl
@[simp] theorem State.setPc_iinvs (s : State) (v : Word) : (s.setPc v).iinvs = s.iinvs := rfl
@[simp] theorem State.setPc_nextIinv (s : State) (v : Word) : (s.setPc v).nextIinv = s.nextIinv := rfl
@[simp] theorem State.setPc_faults (s : State) (v : Word) : (s.setPc v).faults = s.faults := rfl
@[simp] theorem State.setPc_tagsSeen (s : State) (v : Word) : (s.setPc v).tagsSeen = s.tagsSeen := rfl
@[simp] theorem State.setPc_weir (s : State) (v : Word) : (s.setPc v).weir = s.weir := rfl
@[simp] theorem State.setPc_power (s : State) (v : Word) : (s.setPc v).power = s.power := rfl
@[simp] theorem State.setPc_exitAt (s : State) (v : Word) : (s.setPc v).exitAt = s.exitAt := rfl
@[simp] theorem State.setPc_hostTol (s : State) (v : Word) : (s.setPc v).hostTol = s.hostTol := rfl
@[simp] theorem State.setPc_fw (s : State) (v : Word) : (s.setPc v).fw = s.fw := rfl
@[simp] theorem State.setPc_flash (s : State) (v : Word) : (s.setPc v).flash = s.flash := rfl
@[simp] theorem State.setPc_rollback (s : State) (v : Word) : (s.setPc v).rollback = s.rollback := rfl
@[simp] theorem State.setPc_descriptor (s : State) (v : Word) : (s.setPc v).descriptor = s.descriptor := rfl
@[simp] theorem State.setPc_bootParts (s : State) (v : Word) : (s.setPc v).bootParts = s.bootParts := rfl
@[simp] theorem State.setPc_coresFailed (s : State) (v : Word) : (s.setPc v).coresFailed = s.coresFailed := rfl
@[simp] theorem State.setPc_dumpAt (s : State) (v : Word) : (s.setPc v).dumpAt = s.dumpAt := rfl
@[simp] theorem State.setPc_lanesDown (s : State) (v : Word) : (s.setPc v).lanesDown = s.lanesDown := rfl
@[simp] theorem State.setPc_replays (s : State) (v : Word) : (s.setPc v).replays = s.replays := rfl
@[simp] theorem State.setPc_dumps (s : State) (v : Word) : (s.setPc v).dumps = s.dumps := rfl
@[simp] theorem State.setPc_bootReports (s : State) (v : Word) : (s.setPc v).bootReports = s.bootReports := rfl
@[simp] theorem State.setPc_reports (s : State) (v : Word) : (s.setPc v).reports = s.reports := rfl
@[simp] theorem State.setPc_rings (s : State) (v : Word) : (s.setPc v).rings = s.rings := rfl
@[simp] theorem State.setPc_splitPorts (s : State) (v : Word) : (s.setPc v).splitPorts = s.splitPorts := rfl
@[simp] theorem State.setPc_xlat (s : State) (v : Word) : (s.setPc v).xlat = s.xlat := rfl
@[simp] theorem State.setPc_shoots (s : State) (v : Word) : (s.setPc v).shoots = s.shoots := rfl
@[simp] theorem State.setPc_agenda (s : State) (v : Word) : (s.setPc v).agenda = s.agenda := rfl
@[simp] theorem State.setPc_inputs (s : State) (v : Word) : (s.setPc v).inputs = s.inputs := rfl
@[simp] theorem State.setPc_task_lid (s : State) (v : Word) : (s.setPc v).cur.task.lid = s.cur.task.lid := rfl
@[simp] theorem State.setPc_task_lcn (s : State) (v : Word) : (s.setPc v).cur.task.lcn = s.cur.task.lcn := rfl
@[simp] theorem State.setPc_task_gsize (s : State) (v : Word) : (s.setPc v).cur.task.gsize = s.cur.task.gsize := rfl
@[simp] theorem State.setPc_task_gcount (s : State) (v : Word) : (s.setPc v).cur.task.gcount = s.cur.task.gcount := rfl
@[simp] theorem State.setPc_task_part (s : State) (v : Word) : (s.setPc v).cur.task.part = s.cur.task.part := rfl
@[simp] theorem State.setPc_task_queue (s : State) (v : Word) : (s.setPc v).cur.task.queue = s.cur.task.queue := rfl
@[simp] theorem State.setPc_task_argptr (s : State) (v : Word) : (s.setPc v).cur.task.argptr = s.cur.task.argptr := rfl
@[simp] theorem State.setPc_task_saveMask (s : State) (v : Word) : (s.setPc v).cur.task.saveMask = s.cur.task.saveMask
    := rfl
@[simp] theorem State.setPc_task_wbSave (s : State) (v : Word) : (s.setPc v).cur.task.wbSave = s.cur.task.wbSave := rfl
@[simp] theorem State.setPc_task_timedLaunch (s : State) (v : Word) : (s.setPc v).cur.task.timedLaunch = s.cur.task.timedLaunch
    := rfl
@[simp] theorem State.setPc_task_fidNext (s : State) (v : Word) : (s.setPc v).cur.task.fidNext = s.cur.task.fidNext
    := rfl
@[simp] theorem State.setPc_task_t (s : State) (v : Word) : (s.setPc v).cur.task.t = s.cur.task.t := rfl
@[simp] theorem State.setPc_task_pat (s : State) (v : Word) : (s.setPc v).cur.task.pat = s.cur.task.pat := rfl
@[simp] theorem State.setPc_task_sh (s : State) (v : Word) : (s.setPc v).cur.task.sh = s.cur.task.sh := rfl
@[simp] theorem State.setPc_task_m (s : State) (v : Word) : (s.setPc v).cur.task.m = s.cur.task.m := rfl
@[simp] theorem State.setPc_task_f (s : State) (v : Word) : (s.setPc v).cur.task.f = s.cur.task.f := rfl
@[simp] theorem State.setPc_task_s (s : State) (v : Word) : (s.setPc v).cur.task.s = s.cur.task.s := rfl
@[simp] theorem State.setPc_task_reg (s : State) (v : Word) : (s.setPc v).cur.task.reg = s.cur.task.reg := rfl
@[simp] theorem State.setPc_task_flags (s : State) (v : Word) : (s.setPc v).cur.task.flags = s.cur.task.flags := rfl
@[simp] theorem State.setPc_task_scr (s : State) (v : Word) : (s.setPc v).cur.task.scr = s.cur.task.scr := rfl
@[simp] theorem State.setPc_task_wb (s : State) (v : Word) : (s.setPc v).cur.task.wb = s.cur.task.wb := rfl
@[simp] theorem State.setPc_task_wbValid (s : State) (v : Word) : (s.setPc v).cur.task.wbValid = s.cur.task.wbValid
    := rfl
@[simp] theorem State.setPc_task_drainGen (s : State) (v : Word) : (s.setPc v).cur.task.drainGen = s.cur.task.drainGen
    := rfl
@[simp] theorem State.setPc_task_flumeGen (s : State) (v : Word) : (s.setPc v).cur.task.flumeGen = s.cur.task.flumeGen
    := rfl
@[simp] theorem State.setPc_task_sluGen (s : State) (v : Word) : (s.setPc v).cur.task.sluGen = s.cur.task.sluGen := rfl
@[simp] theorem State.setPc_task_pins (s : State) (v : Word) : (s.setPc v).cur.task.pins = s.cur.task.pins := rfl
@[simp] theorem State.setPc_task_tlb (s : State) (v : Word) : (s.setPc v).cur.task.tlb = s.cur.task.tlb := rfl
@[simp] theorem State.setPc_task_icache (s : State) (v : Word) : (s.setPc v).cur.task.icache = s.cur.task.icache := rfl
@[simp] theorem State.setPc_task_parking (s : State) (v : Word) : (s.setPc v).cur.task.parking = s.cur.task.parking
    := rfl
@[simp] theorem State.setPc_task_parkAll (s : State) (v : Word) : (s.setPc v).cur.task.parkAll = s.cur.task.parkAll
    := rfl
@[simp] theorem State.setPc_task_parkCtl (s : State) (v : Word) : (s.setPc v).cur.task.parkCtl = s.cur.task.parkCtl
    := rfl
@[simp] theorem State.setPc_task_saving (s : State) (v : Word) : (s.setPc v).cur.task.saving = s.cur.task.saving := rfl
@[simp] theorem State.setPc_task_bad (s : State) (v : Word) : (s.setPc v).cur.task.bad = s.cur.task.bad := rfl
@[simp] theorem State.setPc_task_recs (s : State) (v : Word) : (s.setPc v).cur.task.recs = s.cur.task.recs
    := rfl
@[simp] theorem State.setPc_ctl_g (s : State) (v : Word) : (s.setPc v).cur.task.ctl.g = s.cur.task.ctl.g := rfl
@[simp] theorem State.setPc_ctl_p (s : State) (v : Word) : (s.setPc v).cur.task.ctl.p = s.cur.task.ctl.p := rfl
@[simp] theorem State.setPc_ctl_j (s : State) (v : Word) : (s.setPc v).cur.task.ctl.j = s.cur.task.ctl.j := rfl
@[simp] theorem State.setPc_ctl_ssp (s : State) (v : Word) : (s.setPc v).cur.task.ctl.ssp = s.cur.task.ctl.ssp := rfl
@[simp] theorem State.setPc_ctl_ssl (s : State) (v : Word) : (s.setPc v).cur.task.ctl.ssl = s.cur.task.ctl.ssl := rfl
@[simp] theorem State.setPc_ctl_pc (s : State) (v : Word) : (s.setPc v).cur.task.ctl.pc = v := rfl
@[simp] theorem State.setPc_ctl_ir (s : State) (v : Word) : (s.setPc v).cur.task.ctl.ir = s.cur.task.ctl.ir := rfl
@[simp] theorem State.setPc_ctl_waiting (s : State) (v : Word) : (s.setPc v).cur.task.ctl.waiting = s.cur.task.ctl.waiting
    := rfl
@[simp] theorem State.setPc_ctl_step (s : State) (v : Word) : (s.setPc v).cur.task.ctl.step = s.cur.task.ctl.step := rfl
@[simp] theorem State.setPc_ctl_phys (s : State) (v : Word) : (s.setPc v).cur.task.ctl.phys = s.cur.task.ctl.phys := rfl
@[simp] theorem State.setPc_ctl_degr (s : State) (v : Word) : (s.setPc v).cur.task.ctl.degr = s.cur.task.ctl.degr := rfl
@[simp] theorem State.setPc_ctl_timed (s : State) (v : Word) : (s.setPc v).cur.task.ctl.timed = s.cur.task.ctl.timed
    := rfl
@[simp] theorem State.setPc_ctl_frame (s : State) (v : Word) : (s.setPc v).cur.task.ctl.frame = s.cur.task.ctl.frame
    := rfl
@[simp] theorem State.setPc_ctl_framecnt (s : State) (v : Word) : (s.setPc v).cur.task.ctl.framecnt = s.cur.task.ctl.framecnt
    := rfl
@[simp] theorem State.setPc_ctl_frameEng (s : State) (v : Word) : (s.setPc v).cur.task.ctl.frameEng = s.cur.task.ctl.frameEng
    := rfl
@[simp] theorem State.setPc_ctl_tasktime (s : State) (v : Word) : (s.setPc v).cur.task.ctl.tasktime = s.cur.task.ctl.tasktime
    := rfl
@[simp] theorem State.setPc_ctl_pending (s : State) (v : Word) : (s.setPc v).cur.task.ctl.pending = s.cur.task.ctl.pending
    := rfl
@[simp] theorem State.setPc_ctl_clo (s : State) (v : Word) : (s.setPc v).cur.task.ctl.clo = s.cur.task.ctl.clo := rfl
@[simp] theorem State.setPc_ctl_chi (s : State) (v : Word) : (s.setPc v).cur.task.ctl.chi = s.cur.task.ctl.chi := rfl
@[simp] theorem State.setPc_ctl_remote (s : State) (v : Word) : (s.setPc v).cur.task.ctl.remote = s.cur.task.ctl.remote
    := rfl
@[simp] theorem State.setPc_ctl_remoteAge (s : State) (v : Word) : (s.setPc v).cur.task.ctl.remoteAge = s.cur.task.ctl.remoteAge
    := rfl

/-! ### Engines -/

@[simp] theorem Task.setEng_lid (t : Task) (e : EngId) (g : Eng) : (t.setEng e g).lid = t.lid := by cases e <;> rfl
@[simp] theorem Task.setEng_lcn (t : Task) (e : EngId) (g : Eng) : (t.setEng e g).lcn = t.lcn := by cases e <;> rfl
@[simp] theorem Task.setEng_gsize (t : Task) (e : EngId) (g : Eng) : (t.setEng e g).gsize = t.gsize
    := by cases e <;> rfl
@[simp] theorem Task.setEng_gcount (t : Task) (e : EngId) (g : Eng) : (t.setEng e g).gcount = t.gcount
    := by cases e <;> rfl
@[simp] theorem Task.setEng_part (t : Task) (e : EngId) (g : Eng) : (t.setEng e g).part = t.part := by cases e <;> rfl
@[simp] theorem Task.setEng_queue (t : Task) (e : EngId) (g : Eng) : (t.setEng e g).queue = t.queue
    := by cases e <;> rfl
@[simp] theorem Task.setEng_argptr (t : Task) (e : EngId) (g : Eng) : (t.setEng e g).argptr = t.argptr
    := by cases e <;> rfl
@[simp] theorem Task.setEng_saveMask (t : Task) (e : EngId) (g : Eng) : (t.setEng e g).saveMask = t.saveMask
    := by cases e <;> rfl
@[simp] theorem Task.setEng_wbSave (t : Task) (e : EngId) (g : Eng) : (t.setEng e g).wbSave = t.wbSave
    := by cases e <;> rfl
@[simp] theorem Task.setEng_timedLaunch (t : Task) (e : EngId) (g : Eng) : (t.setEng e g).timedLaunch = t.timedLaunch
    := by cases e <;> rfl
@[simp] theorem Task.setEng_ctl (t : Task) (e : EngId) (g : Eng) : (t.setEng e g).ctl = t.ctl := by cases e <;> rfl
@[simp] theorem Task.setEng_fidNext (t : Task) (e : EngId) (g : Eng) : (t.setEng e g).fidNext = t.fidNext
    := by cases e <;> rfl
@[simp] theorem Task.setEng_t (t : Task) (e : EngId) (g : Eng) : (t.setEng e g).t = t.t := by cases e <;> rfl
@[simp] theorem Task.setEng_pat (t : Task) (e : EngId) (g : Eng) : (t.setEng e g).pat = t.pat := by cases e <;> rfl
@[simp] theorem Task.setEng_sh (t : Task) (e : EngId) (g : Eng) : (t.setEng e g).sh = t.sh := by cases e <;> rfl
@[simp] theorem Task.setEng_reg (t : Task) (e : EngId) (g : Eng) : (t.setEng e g).reg = t.reg := by cases e <;> rfl
@[simp] theorem Task.setEng_flags (t : Task) (e : EngId) (g : Eng) : (t.setEng e g).flags = t.flags
    := by cases e <;> rfl
@[simp] theorem Task.setEng_scr (t : Task) (e : EngId) (g : Eng) : (t.setEng e g).scr = t.scr := by cases e <;> rfl
@[simp] theorem Task.setEng_wb (t : Task) (e : EngId) (g : Eng) : (t.setEng e g).wb = t.wb := by cases e <;> rfl
@[simp] theorem Task.setEng_wbValid (t : Task) (e : EngId) (g : Eng) : (t.setEng e g).wbValid = t.wbValid
    := by cases e <;> rfl
@[simp] theorem Task.setEng_drainGen (t : Task) (e : EngId) (g : Eng) : (t.setEng e g).drainGen = t.drainGen
    := by cases e <;> rfl
@[simp] theorem Task.setEng_flumeGen (t : Task) (e : EngId) (g : Eng) : (t.setEng e g).flumeGen = t.flumeGen
    := by cases e <;> rfl
@[simp] theorem Task.setEng_sluGen (t : Task) (e : EngId) (g : Eng) : (t.setEng e g).sluGen = t.sluGen
    := by cases e <;> rfl
@[simp] theorem Task.setEng_pins (t : Task) (e : EngId) (g : Eng) : (t.setEng e g).pins = t.pins := by cases e <;> rfl
@[simp] theorem Task.setEng_tlb (t : Task) (e : EngId) (g : Eng) : (t.setEng e g).tlb = t.tlb := by cases e <;> rfl
@[simp] theorem Task.setEng_icache (t : Task) (e : EngId) (g : Eng) : (t.setEng e g).icache = t.icache
    := by cases e <;> rfl
@[simp] theorem Task.setEng_parking (t : Task) (e : EngId) (g : Eng) : (t.setEng e g).parking = t.parking
    := by cases e <;> rfl
@[simp] theorem Task.setEng_parkAll (t : Task) (e : EngId) (g : Eng) : (t.setEng e g).parkAll = t.parkAll
    := by cases e <;> rfl
@[simp] theorem Task.setEng_parkCtl (t : Task) (e : EngId) (g : Eng) : (t.setEng e g).parkCtl = t.parkCtl
    := by cases e <;> rfl
@[simp] theorem Task.setEng_saving (t : Task) (e : EngId) (g : Eng) : (t.setEng e g).saving = t.saving
    := by cases e <;> rfl
@[simp] theorem Task.setEng_bad (t : Task) (e : EngId) (g : Eng) : (t.setEng e g).bad = t.bad := by cases e <;> rfl
@[simp] theorem Task.setEng_recs (t : Task) (e : EngId) (g : Eng) : (t.setEng e g).recs = t.recs
    := by cases e <;> rfl
@[simp] theorem Task.eng_setEng (t : Task) (e : EngId) (g : Eng) : (t.setEng e g).eng e = g := by cases e <;> rfl
theorem Task.eng_setEng_ne (t : Task) (e x : EngId) (g : Eng) (h : x ≠ e) : (t.setEng e g).eng x = t.eng x := by
  cases e <;> cases x <;> first | rfl | exact absurd rfl h
@[simp] theorem State.setEng_d4 (s : State) (e : EngId) (g : Eng) : (s.setEng e g).d4 = s.d4 := rfl
@[simp] theorem State.setEng_boot (s : State) (e : EngId) (g : Eng) : (s.setEng e g).boot = s.boot := rfl
@[simp] theorem State.setEng_now (s : State) (e : EngId) (g : Eng) : (s.setEng e g).now = s.now := rfl
@[simp] theorem State.setEng_bootAt (s : State) (e : EngId) (g : Eng) : (s.setEng e g).bootAt = s.bootAt := rfl
@[simp] theorem State.setEng_fresh (s : State) (e : EngId) (g : Eng) : (s.setEng e g).fresh = s.fresh := rfl
@[simp] theorem State.setEng_rest (s : State) (e : EngId) (g : Eng) : (s.setEng e g).rest = s.rest := rfl
@[simp] theorem State.setEng_mem (s : State) (e : EngId) (g : Eng) : (s.setEng e g).mem = s.mem := rfl
@[simp] theorem State.setEng_badMem (s : State) (e : EngId) (g : Eng) : (s.setEng e g).badMem = s.badMem := rfl
@[simp] theorem State.setEng_pkg (s : State) (e : EngId) (g : Eng) : (s.setEng e g).pkg = s.pkg := rfl
@[simp] theorem State.setEng_hostLink (s : State) (e : EngId) (g : Eng) : (s.setEng e g).hostLink = s.hostLink := rfl
@[simp] theorem State.setEng_parts (s : State) (e : EngId) (g : Eng) : (s.setEng e g).parts = s.parts := rfl
@[simp] theorem State.setEng_launches (s : State) (e : EngId) (g : Eng) : (s.setEng e g).launches = s.launches := rfl
@[simp] theorem State.setEng_nextLid (s : State) (e : EngId) (g : Eng) : (s.setEng e g).nextLid = s.nextLid := rfl
@[simp] theorem State.setEng_gangs (s : State) (e : EngId) (g : Eng) : (s.setEng e g).gangs = s.gangs := rfl
@[simp] theorem State.setEng_binds (s : State) (e : EngId) (g : Eng) : (s.setEng e g).binds = s.binds := rfl
@[simp] theorem State.setEng_nextTag (s : State) (e : EngId) (g : Eng) : (s.setEng e g).nextTag = s.nextTag := rfl
@[simp] theorem State.setEng_ctxNext (s : State) (e : EngId) (g : Eng) : (s.setEng e g).ctxNext = s.ctxNext := rfl
@[simp] theorem State.setEng_saved (s : State) (e : EngId) (g : Eng) : (s.setEng e g).saved = s.saved := rfl
@[simp] theorem State.setEng_arrivals (s : State) (e : EngId) (g : Eng) : (s.setEng e g).arrivals = s.arrivals := rfl
@[simp] theorem State.setEng_left (s : State) (e : EngId) (g : Eng) : (s.setEng e g).left = s.left := rfl
@[simp] theorem State.setEng_departs (s : State) (e : EngId) (g : Eng) : (s.setEng e g).departs = s.departs := rfl
@[simp] theorem State.setEng_iinvs (s : State) (e : EngId) (g : Eng) : (s.setEng e g).iinvs = s.iinvs := rfl
@[simp] theorem State.setEng_nextIinv (s : State) (e : EngId) (g : Eng) : (s.setEng e g).nextIinv = s.nextIinv := rfl
@[simp] theorem State.setEng_faults (s : State) (e : EngId) (g : Eng) : (s.setEng e g).faults = s.faults := rfl
@[simp] theorem State.setEng_tagsSeen (s : State) (e : EngId) (g : Eng) : (s.setEng e g).tagsSeen = s.tagsSeen := rfl
@[simp] theorem State.setEng_weir (s : State) (e : EngId) (g : Eng) : (s.setEng e g).weir = s.weir := rfl
@[simp] theorem State.setEng_power (s : State) (e : EngId) (g : Eng) : (s.setEng e g).power = s.power := rfl
@[simp] theorem State.setEng_exitAt (s : State) (e : EngId) (g : Eng) : (s.setEng e g).exitAt = s.exitAt := rfl
@[simp] theorem State.setEng_hostTol (s : State) (e : EngId) (g : Eng) : (s.setEng e g).hostTol = s.hostTol := rfl
@[simp] theorem State.setEng_fw (s : State) (e : EngId) (g : Eng) : (s.setEng e g).fw = s.fw := rfl
@[simp] theorem State.setEng_flash (s : State) (e : EngId) (g : Eng) : (s.setEng e g).flash = s.flash := rfl
@[simp] theorem State.setEng_rollback (s : State) (e : EngId) (g : Eng) : (s.setEng e g).rollback = s.rollback := rfl
@[simp] theorem State.setEng_descriptor (s : State) (e : EngId) (g : Eng) : (s.setEng e g).descriptor = s.descriptor
    := rfl
@[simp] theorem State.setEng_bootParts (s : State) (e : EngId) (g : Eng) : (s.setEng e g).bootParts = s.bootParts := rfl
@[simp] theorem State.setEng_coresFailed (s : State) (e : EngId) (g : Eng) : (s.setEng e g).coresFailed = s.coresFailed
    := rfl
@[simp] theorem State.setEng_dumpAt (s : State) (e : EngId) (g : Eng) : (s.setEng e g).dumpAt = s.dumpAt := rfl
@[simp] theorem State.setEng_lanesDown (s : State) (e : EngId) (g : Eng) : (s.setEng e g).lanesDown = s.lanesDown := rfl
@[simp] theorem State.setEng_replays (s : State) (e : EngId) (g : Eng) : (s.setEng e g).replays = s.replays := rfl
@[simp] theorem State.setEng_dumps (s : State) (e : EngId) (g : Eng) : (s.setEng e g).dumps = s.dumps := rfl
@[simp] theorem State.setEng_bootReports (s : State) (e : EngId) (g : Eng) : (s.setEng e g).bootReports = s.bootReports
    := rfl
@[simp] theorem State.setEng_reports (s : State) (e : EngId) (g : Eng) : (s.setEng e g).reports = s.reports := rfl
@[simp] theorem State.setEng_rings (s : State) (e : EngId) (g : Eng) : (s.setEng e g).rings = s.rings := rfl
@[simp] theorem State.setEng_splitPorts (s : State) (e : EngId) (g : Eng) : (s.setEng e g).splitPorts = s.splitPorts
    := rfl
@[simp] theorem State.setEng_xlat (s : State) (e : EngId) (g : Eng) : (s.setEng e g).xlat = s.xlat := rfl
@[simp] theorem State.setEng_shoots (s : State) (e : EngId) (g : Eng) : (s.setEng e g).shoots = s.shoots := rfl
@[simp] theorem State.setEng_agenda (s : State) (e : EngId) (g : Eng) : (s.setEng e g).agenda = s.agenda := rfl
@[simp] theorem State.setEng_inputs (s : State) (e : EngId) (g : Eng) : (s.setEng e g).inputs = s.inputs := rfl
@[simp] theorem State.setEng_cur_pcore (s : State) (e : EngId) (g : Eng) : (s.setEng e g).cur.pcore = s.cur.pcore := rfl
@[simp] theorem State.setEng_cur_slot (s : State) (e : EngId) (g : Eng) : (s.setEng e g).cur.slot = s.cur.slot := rfl
@[simp] theorem State.setEng_cur_released (s : State) (e : EngId) (g : Eng) : (s.setEng e g).cur.released = s.cur.released
    := rfl
@[simp] theorem State.setEng_cur_staged (s : State) (e : EngId) (g : Eng) : (s.setEng e g).cur.staged = s.cur.staged
    := rfl
@[simp] theorem State.setEng_cur_stagedTask (s : State) (e : EngId) (g : Eng) : (s.setEng e g).cur.stagedTask = s.cur.stagedTask
    := rfl
@[simp] theorem State.setEng_cur_stagedTag (s : State) (e : EngId) (g : Eng) : (s.setEng e g).cur.stagedTag = s.cur.stagedTag
    := rfl
@[simp] theorem State.setEng_cur_fillFrom (s : State) (e : EngId) (g : Eng) : (s.setEng e g).cur.fillFrom = s.cur.fillFrom
    := rfl
@[simp] theorem State.setEng_cur_fillVirt (s : State) (e : EngId) (g : Eng) : (s.setEng e g).cur.fillVirt = s.cur.fillVirt
    := rfl
@[simp] theorem State.setEng_cur_fillCtx (s : State) (e : EngId) (g : Eng) : (s.setEng e g).cur.fillCtx = s.cur.fillCtx
    := rfl
@[simp] theorem State.setEng_cur_saveTo (s : State) (e : EngId) (g : Eng) : (s.setEng e g).cur.saveTo = s.cur.saveTo
    := rfl
@[simp] theorem State.setEng_task_lid (s : State) (e : EngId) (g : Eng) : (s.setEng e g).cur.task.lid = s.cur.task.lid
    := by cases e <;> rfl
@[simp] theorem State.setEng_task_lcn (s : State) (e : EngId) (g : Eng) : (s.setEng e g).cur.task.lcn = s.cur.task.lcn
    := by cases e <;> rfl
@[simp] theorem State.setEng_task_gsize (s : State) (e : EngId) (g : Eng) : (s.setEng e g).cur.task.gsize = s.cur.task.gsize
    := by cases e <;> rfl
@[simp] theorem State.setEng_task_gcount (s : State) (e : EngId) (g : Eng) : (s.setEng e g).cur.task.gcount = s.cur.task.gcount
    := by cases e <;> rfl
@[simp] theorem State.setEng_task_part (s : State) (e : EngId) (g : Eng) : (s.setEng e g).cur.task.part = s.cur.task.part
    := by cases e <;> rfl
@[simp] theorem State.setEng_task_queue (s : State) (e : EngId) (g : Eng) : (s.setEng e g).cur.task.queue = s.cur.task.queue
    := by cases e <;> rfl
@[simp] theorem State.setEng_task_argptr (s : State) (e : EngId) (g : Eng) : (s.setEng e g).cur.task.argptr = s.cur.task.argptr
    := by cases e <;> rfl
@[simp] theorem State.setEng_task_saveMask (s : State) (e : EngId) (g : Eng) : (s.setEng e g).cur.task.saveMask = s.cur.task.saveMask
    := by cases e <;> rfl
@[simp] theorem State.setEng_task_wbSave (s : State) (e : EngId) (g : Eng) : (s.setEng e g).cur.task.wbSave = s.cur.task.wbSave
    := by cases e <;> rfl
@[simp] theorem State.setEng_task_timedLaunch (s : State) (e : EngId) (g : Eng) : (s.setEng e g).cur.task.timedLaunch = s.cur.task.timedLaunch
    := by cases e <;> rfl
@[simp] theorem State.setEng_task_ctl (s : State) (e : EngId) (g : Eng) : (s.setEng e g).cur.task.ctl = s.cur.task.ctl
    := by cases e <;> rfl
@[simp] theorem State.setEng_task_fidNext (s : State) (e : EngId) (g : Eng) : (s.setEng e g).cur.task.fidNext = s.cur.task.fidNext
    := by cases e <;> rfl
@[simp] theorem State.setEng_task_t (s : State) (e : EngId) (g : Eng) : (s.setEng e g).cur.task.t = s.cur.task.t
    := by cases e <;> rfl
@[simp] theorem State.setEng_task_pat (s : State) (e : EngId) (g : Eng) : (s.setEng e g).cur.task.pat = s.cur.task.pat
    := by cases e <;> rfl
@[simp] theorem State.setEng_task_sh (s : State) (e : EngId) (g : Eng) : (s.setEng e g).cur.task.sh = s.cur.task.sh
    := by cases e <;> rfl
@[simp] theorem State.setEng_task_reg (s : State) (e : EngId) (g : Eng) : (s.setEng e g).cur.task.reg = s.cur.task.reg
    := by cases e <;> rfl
@[simp] theorem State.setEng_task_flags (s : State) (e : EngId) (g : Eng) : (s.setEng e g).cur.task.flags = s.cur.task.flags
    := by cases e <;> rfl
@[simp] theorem State.setEng_task_scr (s : State) (e : EngId) (g : Eng) : (s.setEng e g).cur.task.scr = s.cur.task.scr
    := by cases e <;> rfl
@[simp] theorem State.setEng_task_wb (s : State) (e : EngId) (g : Eng) : (s.setEng e g).cur.task.wb = s.cur.task.wb
    := by cases e <;> rfl
@[simp] theorem State.setEng_task_wbValid (s : State) (e : EngId) (g : Eng) : (s.setEng e g).cur.task.wbValid = s.cur.task.wbValid
    := by cases e <;> rfl
@[simp] theorem State.setEng_task_drainGen (s : State) (e : EngId) (g : Eng) : (s.setEng e g).cur.task.drainGen = s.cur.task.drainGen
    := by cases e <;> rfl
@[simp] theorem State.setEng_task_flumeGen (s : State) (e : EngId) (g : Eng) : (s.setEng e g).cur.task.flumeGen = s.cur.task.flumeGen
    := by cases e <;> rfl
@[simp] theorem State.setEng_task_sluGen (s : State) (e : EngId) (g : Eng) : (s.setEng e g).cur.task.sluGen = s.cur.task.sluGen
    := by cases e <;> rfl
@[simp] theorem State.setEng_task_pins (s : State) (e : EngId) (g : Eng) : (s.setEng e g).cur.task.pins = s.cur.task.pins
    := by cases e <;> rfl
@[simp] theorem State.setEng_task_tlb (s : State) (e : EngId) (g : Eng) : (s.setEng e g).cur.task.tlb = s.cur.task.tlb
    := by cases e <;> rfl
@[simp] theorem State.setEng_task_icache (s : State) (e : EngId) (g : Eng) : (s.setEng e g).cur.task.icache = s.cur.task.icache
    := by cases e <;> rfl
@[simp] theorem State.setEng_task_parking (s : State) (e : EngId) (g : Eng) : (s.setEng e g).cur.task.parking = s.cur.task.parking
    := by cases e <;> rfl
@[simp] theorem State.setEng_task_parkAll (s : State) (e : EngId) (g : Eng) : (s.setEng e g).cur.task.parkAll = s.cur.task.parkAll
    := by cases e <;> rfl
@[simp] theorem State.setEng_task_parkCtl (s : State) (e : EngId) (g : Eng) : (s.setEng e g).cur.task.parkCtl = s.cur.task.parkCtl
    := by cases e <;> rfl
@[simp] theorem State.setEng_task_saving (s : State) (e : EngId) (g : Eng) : (s.setEng e g).cur.task.saving = s.cur.task.saving
    := by cases e <;> rfl
@[simp] theorem State.setEng_task_bad (s : State) (e : EngId) (g : Eng) : (s.setEng e g).cur.task.bad = s.cur.task.bad
    := by cases e <;> rfl
@[simp] theorem State.setEng_task_recs (s : State) (e : EngId) (g : Eng) : (s.setEng e g).cur.task.recs = s.cur.task.recs
    := by cases e <;> rfl
@[simp] theorem State.eng_setEng (s : State) (e : EngId) (g : Eng) : (s.setEng e g).eng e = g := by cases e <;> rfl
theorem State.eng_setEng_ne (s : State) (e x : EngId) (g : Eng) (h : x ≠ e) : (s.setEng e g).eng x = s.eng x := by
  cases e <;> cases x <;> first | rfl | exact absurd rfl h

/-! ### Operand registers, bytes and flags of a task -/

@[simp] theorem Task.setTword_lid (t : Task) (n w : Nat) (v : Word) : (t.setTword n w v).lid = t.lid := rfl
@[simp] theorem Task.setTword_lcn (t : Task) (n w : Nat) (v : Word) : (t.setTword n w v).lcn = t.lcn := rfl
@[simp] theorem Task.setTword_gsize (t : Task) (n w : Nat) (v : Word) : (t.setTword n w v).gsize = t.gsize := rfl
@[simp] theorem Task.setTword_gcount (t : Task) (n w : Nat) (v : Word) : (t.setTword n w v).gcount = t.gcount := rfl
@[simp] theorem Task.setTword_part (t : Task) (n w : Nat) (v : Word) : (t.setTword n w v).part = t.part := rfl
@[simp] theorem Task.setTword_queue (t : Task) (n w : Nat) (v : Word) : (t.setTword n w v).queue = t.queue := rfl
@[simp] theorem Task.setTword_argptr (t : Task) (n w : Nat) (v : Word) : (t.setTword n w v).argptr = t.argptr := rfl
@[simp] theorem Task.setTword_saveMask (t : Task) (n w : Nat) (v : Word) : (t.setTword n w v).saveMask = t.saveMask
    := rfl
@[simp] theorem Task.setTword_wbSave (t : Task) (n w : Nat) (v : Word) : (t.setTword n w v).wbSave = t.wbSave := rfl
@[simp] theorem Task.setTword_timedLaunch (t : Task) (n w : Nat) (v : Word) : (t.setTword n w v).timedLaunch = t.timedLaunch
    := rfl
@[simp] theorem Task.setTword_ctl (t : Task) (n w : Nat) (v : Word) : (t.setTword n w v).ctl = t.ctl := rfl
@[simp] theorem Task.setTword_fidNext (t : Task) (n w : Nat) (v : Word) : (t.setTword n w v).fidNext = t.fidNext := rfl
@[simp] theorem Task.setTword_pat (t : Task) (n w : Nat) (v : Word) : (t.setTword n w v).pat = t.pat := rfl
@[simp] theorem Task.setTword_sh (t : Task) (n w : Nat) (v : Word) : (t.setTword n w v).sh = t.sh := rfl
@[simp] theorem Task.setTword_m (t : Task) (n w : Nat) (v : Word) : (t.setTword n w v).m = t.m := rfl
@[simp] theorem Task.setTword_f (t : Task) (n w : Nat) (v : Word) : (t.setTword n w v).f = t.f := rfl
@[simp] theorem Task.setTword_s (t : Task) (n w : Nat) (v : Word) : (t.setTword n w v).s = t.s := rfl
@[simp] theorem Task.setTword_reg (t : Task) (n w : Nat) (v : Word) : (t.setTword n w v).reg = t.reg := rfl
@[simp] theorem Task.setTword_flags (t : Task) (n w : Nat) (v : Word) : (t.setTword n w v).flags = t.flags := rfl
@[simp] theorem Task.setTword_scr (t : Task) (n w : Nat) (v : Word) : (t.setTword n w v).scr = t.scr := rfl
@[simp] theorem Task.setTword_wb (t : Task) (n w : Nat) (v : Word) : (t.setTword n w v).wb = t.wb := rfl
@[simp] theorem Task.setTword_wbValid (t : Task) (n w : Nat) (v : Word) : (t.setTword n w v).wbValid = t.wbValid := rfl
@[simp] theorem Task.setTword_drainGen (t : Task) (n w : Nat) (v : Word) : (t.setTword n w v).drainGen = t.drainGen
    := rfl
@[simp] theorem Task.setTword_flumeGen (t : Task) (n w : Nat) (v : Word) : (t.setTword n w v).flumeGen = t.flumeGen
    := rfl
@[simp] theorem Task.setTword_sluGen (t : Task) (n w : Nat) (v : Word) : (t.setTword n w v).sluGen = t.sluGen := rfl
@[simp] theorem Task.setTword_pins (t : Task) (n w : Nat) (v : Word) : (t.setTword n w v).pins = t.pins := rfl
@[simp] theorem Task.setTword_tlb (t : Task) (n w : Nat) (v : Word) : (t.setTword n w v).tlb = t.tlb := rfl
@[simp] theorem Task.setTword_icache (t : Task) (n w : Nat) (v : Word) : (t.setTword n w v).icache = t.icache := rfl
@[simp] theorem Task.setTword_parking (t : Task) (n w : Nat) (v : Word) : (t.setTword n w v).parking = t.parking := rfl
@[simp] theorem Task.setTword_parkAll (t : Task) (n w : Nat) (v : Word) : (t.setTword n w v).parkAll = t.parkAll := rfl
@[simp] theorem Task.setTword_parkCtl (t : Task) (n w : Nat) (v : Word) : (t.setTword n w v).parkCtl = t.parkCtl := rfl
@[simp] theorem Task.setTword_saving (t : Task) (n w : Nat) (v : Word) : (t.setTword n w v).saving = t.saving := rfl
@[simp] theorem Task.setTword_bad (t : Task) (n w : Nat) (v : Word) : (t.setTword n w v).bad = t.bad := rfl
@[simp] theorem Task.setTword_recs (t : Task) (n w : Nat) (v : Word) : (t.setTword n w v).recs = t.recs := rfl
@[simp] theorem Task.putReg_lid (t : Task) (a : Nat) (v : Byte) : (t.putReg a v).lid = t.lid := rfl
@[simp] theorem Task.putReg_lcn (t : Task) (a : Nat) (v : Byte) : (t.putReg a v).lcn = t.lcn := rfl
@[simp] theorem Task.putReg_gsize (t : Task) (a : Nat) (v : Byte) : (t.putReg a v).gsize = t.gsize := rfl
@[simp] theorem Task.putReg_gcount (t : Task) (a : Nat) (v : Byte) : (t.putReg a v).gcount = t.gcount := rfl
@[simp] theorem Task.putReg_part (t : Task) (a : Nat) (v : Byte) : (t.putReg a v).part = t.part := rfl
@[simp] theorem Task.putReg_queue (t : Task) (a : Nat) (v : Byte) : (t.putReg a v).queue = t.queue := rfl
@[simp] theorem Task.putReg_argptr (t : Task) (a : Nat) (v : Byte) : (t.putReg a v).argptr = t.argptr := rfl
@[simp] theorem Task.putReg_saveMask (t : Task) (a : Nat) (v : Byte) : (t.putReg a v).saveMask = t.saveMask := rfl
@[simp] theorem Task.putReg_wbSave (t : Task) (a : Nat) (v : Byte) : (t.putReg a v).wbSave = t.wbSave := rfl
@[simp] theorem Task.putReg_timedLaunch (t : Task) (a : Nat) (v : Byte) : (t.putReg a v).timedLaunch = t.timedLaunch
    := rfl
@[simp] theorem Task.putReg_ctl (t : Task) (a : Nat) (v : Byte) : (t.putReg a v).ctl = t.ctl := rfl
@[simp] theorem Task.putReg_fidNext (t : Task) (a : Nat) (v : Byte) : (t.putReg a v).fidNext = t.fidNext := rfl
@[simp] theorem Task.putReg_t (t : Task) (a : Nat) (v : Byte) : (t.putReg a v).t = t.t := rfl
@[simp] theorem Task.putReg_pat (t : Task) (a : Nat) (v : Byte) : (t.putReg a v).pat = t.pat := rfl
@[simp] theorem Task.putReg_sh (t : Task) (a : Nat) (v : Byte) : (t.putReg a v).sh = t.sh := rfl
@[simp] theorem Task.putReg_m (t : Task) (a : Nat) (v : Byte) : (t.putReg a v).m = t.m := rfl
@[simp] theorem Task.putReg_f (t : Task) (a : Nat) (v : Byte) : (t.putReg a v).f = t.f := rfl
@[simp] theorem Task.putReg_s (t : Task) (a : Nat) (v : Byte) : (t.putReg a v).s = t.s := rfl
@[simp] theorem Task.putReg_scr (t : Task) (a : Nat) (v : Byte) : (t.putReg a v).scr = t.scr := rfl
@[simp] theorem Task.putReg_wb (t : Task) (a : Nat) (v : Byte) : (t.putReg a v).wb = t.wb := rfl
@[simp] theorem Task.putReg_wbValid (t : Task) (a : Nat) (v : Byte) : (t.putReg a v).wbValid = t.wbValid := rfl
@[simp] theorem Task.putReg_drainGen (t : Task) (a : Nat) (v : Byte) : (t.putReg a v).drainGen = t.drainGen := rfl
@[simp] theorem Task.putReg_flumeGen (t : Task) (a : Nat) (v : Byte) : (t.putReg a v).flumeGen = t.flumeGen := rfl
@[simp] theorem Task.putReg_sluGen (t : Task) (a : Nat) (v : Byte) : (t.putReg a v).sluGen = t.sluGen := rfl
@[simp] theorem Task.putReg_pins (t : Task) (a : Nat) (v : Byte) : (t.putReg a v).pins = t.pins := rfl
@[simp] theorem Task.putReg_tlb (t : Task) (a : Nat) (v : Byte) : (t.putReg a v).tlb = t.tlb := rfl
@[simp] theorem Task.putReg_icache (t : Task) (a : Nat) (v : Byte) : (t.putReg a v).icache = t.icache := rfl
@[simp] theorem Task.putReg_parking (t : Task) (a : Nat) (v : Byte) : (t.putReg a v).parking = t.parking := rfl
@[simp] theorem Task.putReg_parkAll (t : Task) (a : Nat) (v : Byte) : (t.putReg a v).parkAll = t.parkAll := rfl
@[simp] theorem Task.putReg_parkCtl (t : Task) (a : Nat) (v : Byte) : (t.putReg a v).parkCtl = t.parkCtl := rfl
@[simp] theorem Task.putReg_saving (t : Task) (a : Nat) (v : Byte) : (t.putReg a v).saving = t.saving := rfl
@[simp] theorem Task.putReg_recs (t : Task) (a : Nat) (v : Byte) : (t.putReg a v).recs = t.recs := rfl
@[simp] theorem Task.putScr_lid (t : Task) (a : Nat) (v : Byte) : (t.putScr a v).lid = t.lid := rfl
@[simp] theorem Task.putScr_lcn (t : Task) (a : Nat) (v : Byte) : (t.putScr a v).lcn = t.lcn := rfl
@[simp] theorem Task.putScr_gsize (t : Task) (a : Nat) (v : Byte) : (t.putScr a v).gsize = t.gsize := rfl
@[simp] theorem Task.putScr_gcount (t : Task) (a : Nat) (v : Byte) : (t.putScr a v).gcount = t.gcount := rfl
@[simp] theorem Task.putScr_part (t : Task) (a : Nat) (v : Byte) : (t.putScr a v).part = t.part := rfl
@[simp] theorem Task.putScr_queue (t : Task) (a : Nat) (v : Byte) : (t.putScr a v).queue = t.queue := rfl
@[simp] theorem Task.putScr_argptr (t : Task) (a : Nat) (v : Byte) : (t.putScr a v).argptr = t.argptr := rfl
@[simp] theorem Task.putScr_saveMask (t : Task) (a : Nat) (v : Byte) : (t.putScr a v).saveMask = t.saveMask := rfl
@[simp] theorem Task.putScr_wbSave (t : Task) (a : Nat) (v : Byte) : (t.putScr a v).wbSave = t.wbSave := rfl
@[simp] theorem Task.putScr_timedLaunch (t : Task) (a : Nat) (v : Byte) : (t.putScr a v).timedLaunch = t.timedLaunch
    := rfl
@[simp] theorem Task.putScr_ctl (t : Task) (a : Nat) (v : Byte) : (t.putScr a v).ctl = t.ctl := rfl
@[simp] theorem Task.putScr_fidNext (t : Task) (a : Nat) (v : Byte) : (t.putScr a v).fidNext = t.fidNext := rfl
@[simp] theorem Task.putScr_t (t : Task) (a : Nat) (v : Byte) : (t.putScr a v).t = t.t := rfl
@[simp] theorem Task.putScr_pat (t : Task) (a : Nat) (v : Byte) : (t.putScr a v).pat = t.pat := rfl
@[simp] theorem Task.putScr_sh (t : Task) (a : Nat) (v : Byte) : (t.putScr a v).sh = t.sh := rfl
@[simp] theorem Task.putScr_m (t : Task) (a : Nat) (v : Byte) : (t.putScr a v).m = t.m := rfl
@[simp] theorem Task.putScr_f (t : Task) (a : Nat) (v : Byte) : (t.putScr a v).f = t.f := rfl
@[simp] theorem Task.putScr_s (t : Task) (a : Nat) (v : Byte) : (t.putScr a v).s = t.s := rfl
@[simp] theorem Task.putScr_reg (t : Task) (a : Nat) (v : Byte) : (t.putScr a v).reg = t.reg := rfl
@[simp] theorem Task.putScr_flags (t : Task) (a : Nat) (v : Byte) : (t.putScr a v).flags = t.flags := rfl
@[simp] theorem Task.putScr_wb (t : Task) (a : Nat) (v : Byte) : (t.putScr a v).wb = t.wb := rfl
@[simp] theorem Task.putScr_wbValid (t : Task) (a : Nat) (v : Byte) : (t.putScr a v).wbValid = t.wbValid := rfl
@[simp] theorem Task.putScr_drainGen (t : Task) (a : Nat) (v : Byte) : (t.putScr a v).drainGen = t.drainGen := rfl
@[simp] theorem Task.putScr_flumeGen (t : Task) (a : Nat) (v : Byte) : (t.putScr a v).flumeGen = t.flumeGen := rfl
@[simp] theorem Task.putScr_sluGen (t : Task) (a : Nat) (v : Byte) : (t.putScr a v).sluGen = t.sluGen := rfl
@[simp] theorem Task.putScr_pins (t : Task) (a : Nat) (v : Byte) : (t.putScr a v).pins = t.pins := rfl
@[simp] theorem Task.putScr_tlb (t : Task) (a : Nat) (v : Byte) : (t.putScr a v).tlb = t.tlb := rfl
@[simp] theorem Task.putScr_icache (t : Task) (a : Nat) (v : Byte) : (t.putScr a v).icache = t.icache := rfl
@[simp] theorem Task.putScr_parking (t : Task) (a : Nat) (v : Byte) : (t.putScr a v).parking = t.parking := rfl
@[simp] theorem Task.putScr_parkAll (t : Task) (a : Nat) (v : Byte) : (t.putScr a v).parkAll = t.parkAll := rfl
@[simp] theorem Task.putScr_parkCtl (t : Task) (a : Nat) (v : Byte) : (t.putScr a v).parkCtl = t.parkCtl := rfl
@[simp] theorem Task.putScr_saving (t : Task) (a : Nat) (v : Byte) : (t.putScr a v).saving = t.saving := rfl
@[simp] theorem Task.putScr_recs (t : Task) (a : Nat) (v : Byte) : (t.putScr a v).recs = t.recs := rfl
@[simp] theorem State.putFlags_d4 (s : State) (fs : List (Nat × Flag)) : (s.putFlags fs).d4 = s.d4 := rfl
@[simp] theorem State.putFlags_boot (s : State) (fs : List (Nat × Flag)) : (s.putFlags fs).boot = s.boot := rfl
@[simp] theorem State.putFlags_now (s : State) (fs : List (Nat × Flag)) : (s.putFlags fs).now = s.now := rfl
@[simp] theorem State.putFlags_bootAt (s : State) (fs : List (Nat × Flag)) : (s.putFlags fs).bootAt = s.bootAt := rfl
@[simp] theorem State.putFlags_fresh (s : State) (fs : List (Nat × Flag)) : (s.putFlags fs).fresh = s.fresh := rfl
@[simp] theorem State.putFlags_rest (s : State) (fs : List (Nat × Flag)) : (s.putFlags fs).rest = s.rest := rfl
@[simp] theorem State.putFlags_mem (s : State) (fs : List (Nat × Flag)) : (s.putFlags fs).mem = s.mem := rfl
@[simp] theorem State.putFlags_badMem (s : State) (fs : List (Nat × Flag)) : (s.putFlags fs).badMem = s.badMem := rfl
@[simp] theorem State.putFlags_pkg (s : State) (fs : List (Nat × Flag)) : (s.putFlags fs).pkg = s.pkg := rfl
@[simp] theorem State.putFlags_hostLink (s : State) (fs : List (Nat × Flag)) : (s.putFlags fs).hostLink = s.hostLink
    := rfl
@[simp] theorem State.putFlags_parts (s : State) (fs : List (Nat × Flag)) : (s.putFlags fs).parts = s.parts := rfl
@[simp] theorem State.putFlags_launches (s : State) (fs : List (Nat × Flag)) : (s.putFlags fs).launches = s.launches
    := rfl
@[simp] theorem State.putFlags_nextLid (s : State) (fs : List (Nat × Flag)) : (s.putFlags fs).nextLid = s.nextLid := rfl
@[simp] theorem State.putFlags_gangs (s : State) (fs : List (Nat × Flag)) : (s.putFlags fs).gangs = s.gangs := rfl
@[simp] theorem State.putFlags_binds (s : State) (fs : List (Nat × Flag)) : (s.putFlags fs).binds = s.binds := rfl
@[simp] theorem State.putFlags_nextTag (s : State) (fs : List (Nat × Flag)) : (s.putFlags fs).nextTag = s.nextTag := rfl
@[simp] theorem State.putFlags_ctxNext (s : State) (fs : List (Nat × Flag)) : (s.putFlags fs).ctxNext = s.ctxNext := rfl
@[simp] theorem State.putFlags_saved (s : State) (fs : List (Nat × Flag)) : (s.putFlags fs).saved = s.saved := rfl
@[simp] theorem State.putFlags_arrivals (s : State) (fs : List (Nat × Flag)) : (s.putFlags fs).arrivals = s.arrivals
    := rfl
@[simp] theorem State.putFlags_left (s : State) (fs : List (Nat × Flag)) : (s.putFlags fs).left = s.left := rfl
@[simp] theorem State.putFlags_departs (s : State) (fs : List (Nat × Flag)) : (s.putFlags fs).departs = s.departs := rfl
@[simp] theorem State.putFlags_iinvs (s : State) (fs : List (Nat × Flag)) : (s.putFlags fs).iinvs = s.iinvs := rfl
@[simp] theorem State.putFlags_nextIinv (s : State) (fs : List (Nat × Flag)) : (s.putFlags fs).nextIinv = s.nextIinv
    := rfl
@[simp] theorem State.putFlags_faults (s : State) (fs : List (Nat × Flag)) : (s.putFlags fs).faults = s.faults := rfl
@[simp] theorem State.putFlags_tagsSeen (s : State) (fs : List (Nat × Flag)) : (s.putFlags fs).tagsSeen = s.tagsSeen
    := rfl
@[simp] theorem State.putFlags_weir (s : State) (fs : List (Nat × Flag)) : (s.putFlags fs).weir = s.weir := rfl
@[simp] theorem State.putFlags_power (s : State) (fs : List (Nat × Flag)) : (s.putFlags fs).power = s.power := rfl
@[simp] theorem State.putFlags_exitAt (s : State) (fs : List (Nat × Flag)) : (s.putFlags fs).exitAt = s.exitAt := rfl
@[simp] theorem State.putFlags_hostTol (s : State) (fs : List (Nat × Flag)) : (s.putFlags fs).hostTol = s.hostTol := rfl
@[simp] theorem State.putFlags_fw (s : State) (fs : List (Nat × Flag)) : (s.putFlags fs).fw = s.fw := rfl
@[simp] theorem State.putFlags_flash (s : State) (fs : List (Nat × Flag)) : (s.putFlags fs).flash = s.flash := rfl
@[simp] theorem State.putFlags_rollback (s : State) (fs : List (Nat × Flag)) : (s.putFlags fs).rollback = s.rollback
    := rfl
@[simp] theorem State.putFlags_descriptor (s : State) (fs : List (Nat × Flag)) : (s.putFlags fs).descriptor = s.descriptor
    := rfl
@[simp] theorem State.putFlags_bootParts (s : State) (fs : List (Nat × Flag)) : (s.putFlags fs).bootParts = s.bootParts
    := rfl
@[simp] theorem State.putFlags_coresFailed (s : State) (fs : List (Nat × Flag)) : (s.putFlags fs).coresFailed = s.coresFailed
    := rfl
@[simp] theorem State.putFlags_dumpAt (s : State) (fs : List (Nat × Flag)) : (s.putFlags fs).dumpAt = s.dumpAt := rfl
@[simp] theorem State.putFlags_lanesDown (s : State) (fs : List (Nat × Flag)) : (s.putFlags fs).lanesDown = s.lanesDown
    := rfl
@[simp] theorem State.putFlags_replays (s : State) (fs : List (Nat × Flag)) : (s.putFlags fs).replays = s.replays := rfl
@[simp] theorem State.putFlags_dumps (s : State) (fs : List (Nat × Flag)) : (s.putFlags fs).dumps = s.dumps := rfl
@[simp] theorem State.putFlags_bootReports (s : State) (fs : List (Nat × Flag)) : (s.putFlags fs).bootReports = s.bootReports
    := rfl
@[simp] theorem State.putFlags_reports (s : State) (fs : List (Nat × Flag)) : (s.putFlags fs).reports = s.reports := rfl
@[simp] theorem State.putFlags_rings (s : State) (fs : List (Nat × Flag)) : (s.putFlags fs).rings = s.rings := rfl
@[simp] theorem State.putFlags_splitPorts (s : State) (fs : List (Nat × Flag)) : (s.putFlags fs).splitPorts = s.splitPorts
    := rfl
@[simp] theorem State.putFlags_xlat (s : State) (fs : List (Nat × Flag)) : (s.putFlags fs).xlat = s.xlat := rfl
@[simp] theorem State.putFlags_shoots (s : State) (fs : List (Nat × Flag)) : (s.putFlags fs).shoots = s.shoots := rfl
@[simp] theorem State.putFlags_agenda (s : State) (fs : List (Nat × Flag)) : (s.putFlags fs).agenda = s.agenda := rfl
@[simp] theorem State.putFlags_inputs (s : State) (fs : List (Nat × Flag)) : (s.putFlags fs).inputs = s.inputs := rfl
@[simp] theorem State.putFlags_task_lid (s : State) (fs : List (Nat × Flag)) : (s.putFlags fs).cur.task.lid = s.cur.task.lid
    := rfl
@[simp] theorem State.putFlags_task_lcn (s : State) (fs : List (Nat × Flag)) : (s.putFlags fs).cur.task.lcn = s.cur.task.lcn
    := rfl
@[simp] theorem State.putFlags_task_gsize (s : State) (fs : List (Nat × Flag)) : (s.putFlags fs).cur.task.gsize = s.cur.task.gsize
    := rfl
@[simp] theorem State.putFlags_task_gcount (s : State) (fs : List (Nat × Flag)) : (s.putFlags fs).cur.task.gcount = s.cur.task.gcount
    := rfl
@[simp] theorem State.putFlags_task_part (s : State) (fs : List (Nat × Flag)) : (s.putFlags fs).cur.task.part = s.cur.task.part
    := rfl
@[simp] theorem State.putFlags_task_queue (s : State) (fs : List (Nat × Flag)) : (s.putFlags fs).cur.task.queue = s.cur.task.queue
    := rfl
@[simp] theorem State.putFlags_task_argptr (s : State) (fs : List (Nat × Flag)) : (s.putFlags fs).cur.task.argptr = s.cur.task.argptr
    := rfl
@[simp] theorem State.putFlags_task_saveMask (s : State) (fs : List (Nat × Flag)) : (s.putFlags fs).cur.task.saveMask = s.cur.task.saveMask
    := rfl
@[simp] theorem State.putFlags_task_wbSave (s : State) (fs : List (Nat × Flag)) : (s.putFlags fs).cur.task.wbSave = s.cur.task.wbSave
    := rfl
@[simp] theorem State.putFlags_task_timedLaunch (s : State) (fs : List (Nat × Flag)) : (s.putFlags fs).cur.task.timedLaunch = s.cur.task.timedLaunch
    := rfl
@[simp] theorem State.putFlags_task_ctl (s : State) (fs : List (Nat × Flag)) : (s.putFlags fs).cur.task.ctl = s.cur.task.ctl
    := rfl
@[simp] theorem State.putFlags_task_fidNext (s : State) (fs : List (Nat × Flag)) : (s.putFlags fs).cur.task.fidNext = s.cur.task.fidNext
    := rfl
@[simp] theorem State.putFlags_task_t (s : State) (fs : List (Nat × Flag)) : (s.putFlags fs).cur.task.t = s.cur.task.t
    := rfl
@[simp] theorem State.putFlags_task_pat (s : State) (fs : List (Nat × Flag)) : (s.putFlags fs).cur.task.pat = s.cur.task.pat
    := rfl
@[simp] theorem State.putFlags_task_sh (s : State) (fs : List (Nat × Flag)) : (s.putFlags fs).cur.task.sh = s.cur.task.sh
    := rfl
@[simp] theorem State.putFlags_task_m (s : State) (fs : List (Nat × Flag)) : (s.putFlags fs).cur.task.m = s.cur.task.m
    := rfl
@[simp] theorem State.putFlags_task_f (s : State) (fs : List (Nat × Flag)) : (s.putFlags fs).cur.task.f = s.cur.task.f
    := rfl
@[simp] theorem State.putFlags_task_s (s : State) (fs : List (Nat × Flag)) : (s.putFlags fs).cur.task.s = s.cur.task.s
    := rfl
@[simp] theorem State.putFlags_task_reg (s : State) (fs : List (Nat × Flag)) : (s.putFlags fs).cur.task.reg = s.cur.task.reg
    := rfl
@[simp] theorem State.putFlags_task_scr (s : State) (fs : List (Nat × Flag)) : (s.putFlags fs).cur.task.scr = s.cur.task.scr
    := rfl
@[simp] theorem State.putFlags_task_wb (s : State) (fs : List (Nat × Flag)) : (s.putFlags fs).cur.task.wb = s.cur.task.wb
    := rfl
@[simp] theorem State.putFlags_task_wbValid (s : State) (fs : List (Nat × Flag)) : (s.putFlags fs).cur.task.wbValid = s.cur.task.wbValid
    := rfl
@[simp] theorem State.putFlags_task_drainGen (s : State) (fs : List (Nat × Flag)) : (s.putFlags fs).cur.task.drainGen = s.cur.task.drainGen
    := rfl
@[simp] theorem State.putFlags_task_flumeGen (s : State) (fs : List (Nat × Flag)) : (s.putFlags fs).cur.task.flumeGen = s.cur.task.flumeGen
    := rfl
@[simp] theorem State.putFlags_task_sluGen (s : State) (fs : List (Nat × Flag)) : (s.putFlags fs).cur.task.sluGen = s.cur.task.sluGen
    := rfl
@[simp] theorem State.putFlags_task_pins (s : State) (fs : List (Nat × Flag)) : (s.putFlags fs).cur.task.pins = s.cur.task.pins
    := rfl
@[simp] theorem State.putFlags_task_tlb (s : State) (fs : List (Nat × Flag)) : (s.putFlags fs).cur.task.tlb = s.cur.task.tlb
    := rfl
@[simp] theorem State.putFlags_task_icache (s : State) (fs : List (Nat × Flag)) : (s.putFlags fs).cur.task.icache = s.cur.task.icache
    := rfl
@[simp] theorem State.putFlags_task_parking (s : State) (fs : List (Nat × Flag)) : (s.putFlags fs).cur.task.parking = s.cur.task.parking
    := rfl
@[simp] theorem State.putFlags_task_parkAll (s : State) (fs : List (Nat × Flag)) : (s.putFlags fs).cur.task.parkAll = s.cur.task.parkAll
    := rfl
@[simp] theorem State.putFlags_task_parkCtl (s : State) (fs : List (Nat × Flag)) : (s.putFlags fs).cur.task.parkCtl = s.cur.task.parkCtl
    := rfl
@[simp] theorem State.putFlags_task_saving (s : State) (fs : List (Nat × Flag)) : (s.putFlags fs).cur.task.saving = s.cur.task.saving
    := rfl
@[simp] theorem State.putFlags_task_bad (s : State) (fs : List (Nat × Flag)) : (s.putFlags fs).cur.task.bad = s.cur.task.bad
    := rfl
@[simp] theorem State.putFlags_task_recs (s : State) (fs : List (Nat × Flag)) : (s.putFlags fs).cur.task.recs = s.cur.task.recs
    := rfl
@[simp] theorem State.choose_d4 (s : State) : s.choose.2.d4 = s.d4 := rfl
@[simp] theorem State.choose_boot (s : State) : s.choose.2.boot = s.boot := rfl
@[simp] theorem State.choose_now (s : State) : s.choose.2.now = s.now := rfl
@[simp] theorem State.choose_bootAt (s : State) : s.choose.2.bootAt = s.bootAt := rfl
@[simp] theorem State.choose_cur (s : State) : s.choose.2.cur = s.cur := rfl
@[simp] theorem State.choose_rest (s : State) : s.choose.2.rest = s.rest := rfl
@[simp] theorem State.choose_mem (s : State) : s.choose.2.mem = s.mem := rfl
@[simp] theorem State.choose_badMem (s : State) : s.choose.2.badMem = s.badMem := rfl
@[simp] theorem State.choose_pkg (s : State) : s.choose.2.pkg = s.pkg := rfl
@[simp] theorem State.choose_hostLink (s : State) : s.choose.2.hostLink = s.hostLink := rfl
@[simp] theorem State.choose_parts (s : State) : s.choose.2.parts = s.parts := rfl
@[simp] theorem State.choose_launches (s : State) : s.choose.2.launches = s.launches := rfl
@[simp] theorem State.choose_nextLid (s : State) : s.choose.2.nextLid = s.nextLid := rfl
@[simp] theorem State.choose_gangs (s : State) : s.choose.2.gangs = s.gangs := rfl
@[simp] theorem State.choose_binds (s : State) : s.choose.2.binds = s.binds := rfl
@[simp] theorem State.choose_nextTag (s : State) : s.choose.2.nextTag = s.nextTag := rfl
@[simp] theorem State.choose_ctxNext (s : State) : s.choose.2.ctxNext = s.ctxNext := rfl
@[simp] theorem State.choose_saved (s : State) : s.choose.2.saved = s.saved := rfl
@[simp] theorem State.choose_arrivals (s : State) : s.choose.2.arrivals = s.arrivals := rfl
@[simp] theorem State.choose_left (s : State) : s.choose.2.left = s.left := rfl
@[simp] theorem State.choose_departs (s : State) : s.choose.2.departs = s.departs := rfl
@[simp] theorem State.choose_iinvs (s : State) : s.choose.2.iinvs = s.iinvs := rfl
@[simp] theorem State.choose_nextIinv (s : State) : s.choose.2.nextIinv = s.nextIinv := rfl
@[simp] theorem State.choose_faults (s : State) : s.choose.2.faults = s.faults := rfl
@[simp] theorem State.choose_tagsSeen (s : State) : s.choose.2.tagsSeen = s.tagsSeen := rfl
@[simp] theorem State.choose_weir (s : State) : s.choose.2.weir = s.weir := rfl
@[simp] theorem State.choose_power (s : State) : s.choose.2.power = s.power := rfl
@[simp] theorem State.choose_exitAt (s : State) : s.choose.2.exitAt = s.exitAt := rfl
@[simp] theorem State.choose_hostTol (s : State) : s.choose.2.hostTol = s.hostTol := rfl
@[simp] theorem State.choose_fw (s : State) : s.choose.2.fw = s.fw := rfl
@[simp] theorem State.choose_flash (s : State) : s.choose.2.flash = s.flash := rfl
@[simp] theorem State.choose_rollback (s : State) : s.choose.2.rollback = s.rollback := rfl
@[simp] theorem State.choose_descriptor (s : State) : s.choose.2.descriptor = s.descriptor := rfl
@[simp] theorem State.choose_bootParts (s : State) : s.choose.2.bootParts = s.bootParts := rfl
@[simp] theorem State.choose_coresFailed (s : State) : s.choose.2.coresFailed = s.coresFailed := rfl
@[simp] theorem State.choose_dumpAt (s : State) : s.choose.2.dumpAt = s.dumpAt := rfl
@[simp] theorem State.choose_lanesDown (s : State) : s.choose.2.lanesDown = s.lanesDown := rfl
@[simp] theorem State.choose_replays (s : State) : s.choose.2.replays = s.replays := rfl
@[simp] theorem State.choose_dumps (s : State) : s.choose.2.dumps = s.dumps := rfl
@[simp] theorem State.choose_bootReports (s : State) : s.choose.2.bootReports = s.bootReports := rfl
@[simp] theorem State.choose_reports (s : State) : s.choose.2.reports = s.reports := rfl
@[simp] theorem State.choose_rings (s : State) : s.choose.2.rings = s.rings := rfl
@[simp] theorem State.choose_splitPorts (s : State) : s.choose.2.splitPorts = s.splitPorts := rfl
@[simp] theorem State.choose_xlat (s : State) : s.choose.2.xlat = s.xlat := rfl
@[simp] theorem State.choose_shoots (s : State) : s.choose.2.shoots = s.shoots := rfl
@[simp] theorem State.choose_agenda (s : State) : s.choose.2.agenda = s.agenda := rfl
@[simp] theorem State.choose_inputs (s : State) : s.choose.2.inputs = s.inputs := rfl

/-! ### Parking -/

@[simp] theorem Task.park_lid (t : Task) (c : Code) : (t.park c).lid = t.lid := rfl
@[simp] theorem Task.park_lcn (t : Task) (c : Code) : (t.park c).lcn = t.lcn := rfl
@[simp] theorem Task.park_gsize (t : Task) (c : Code) : (t.park c).gsize = t.gsize := rfl
@[simp] theorem Task.park_gcount (t : Task) (c : Code) : (t.park c).gcount = t.gcount := rfl
@[simp] theorem Task.park_part (t : Task) (c : Code) : (t.park c).part = t.part := rfl
@[simp] theorem Task.park_queue (t : Task) (c : Code) : (t.park c).queue = t.queue := rfl
@[simp] theorem Task.park_argptr (t : Task) (c : Code) : (t.park c).argptr = t.argptr := rfl
@[simp] theorem Task.park_saveMask (t : Task) (c : Code) : (t.park c).saveMask = t.saveMask := rfl
@[simp] theorem Task.park_wbSave (t : Task) (c : Code) : (t.park c).wbSave = t.wbSave := rfl
@[simp] theorem Task.park_timedLaunch (t : Task) (c : Code) : (t.park c).timedLaunch = t.timedLaunch := rfl
@[simp] theorem Task.park_ctl (t : Task) (c : Code) : (t.park c).ctl = t.ctl := rfl
@[simp] theorem Task.park_fidNext (t : Task) (c : Code) : (t.park c).fidNext = t.fidNext := rfl
@[simp] theorem Task.park_t (t : Task) (c : Code) : (t.park c).t = t.t := rfl
@[simp] theorem Task.park_pat (t : Task) (c : Code) : (t.park c).pat = t.pat := rfl
@[simp] theorem Task.park_sh (t : Task) (c : Code) : (t.park c).sh = t.sh := rfl
@[simp] theorem Task.park_m (t : Task) (c : Code) : (t.park c).m = t.m := rfl
@[simp] theorem Task.park_f (t : Task) (c : Code) : (t.park c).f = t.f := rfl
@[simp] theorem Task.park_s (t : Task) (c : Code) : (t.park c).s = t.s := rfl
@[simp] theorem Task.park_reg (t : Task) (c : Code) : (t.park c).reg = t.reg := rfl
@[simp] theorem Task.park_flags (t : Task) (c : Code) : (t.park c).flags = t.flags := rfl
@[simp] theorem Task.park_scr (t : Task) (c : Code) : (t.park c).scr = t.scr := rfl
@[simp] theorem Task.park_wb (t : Task) (c : Code) : (t.park c).wb = t.wb := rfl
@[simp] theorem Task.park_wbValid (t : Task) (c : Code) : (t.park c).wbValid = t.wbValid := rfl
@[simp] theorem Task.park_drainGen (t : Task) (c : Code) : (t.park c).drainGen = t.drainGen := rfl
@[simp] theorem Task.park_flumeGen (t : Task) (c : Code) : (t.park c).flumeGen = t.flumeGen := rfl
@[simp] theorem Task.park_sluGen (t : Task) (c : Code) : (t.park c).sluGen = t.sluGen := rfl
@[simp] theorem Task.park_pins (t : Task) (c : Code) : (t.park c).pins = t.pins := rfl
@[simp] theorem Task.park_tlb (t : Task) (c : Code) : (t.park c).tlb = t.tlb := rfl
@[simp] theorem Task.park_icache (t : Task) (c : Code) : (t.park c).icache = t.icache := rfl
@[simp] theorem Task.park_parkAll (t : Task) (c : Code) : (t.park c).parkAll = t.parkAll := rfl
@[simp] theorem Task.park_saving (t : Task) (c : Code) : (t.park c).saving = t.saving := rfl
@[simp] theorem Task.park_bad (t : Task) (c : Code) : (t.park c).bad = t.bad := rfl
@[simp] theorem Task.park_recs (t : Task) (c : Code) : (t.park c).recs = t.recs := rfl
@[simp] theorem Task.unpark_lid (t : Task) : t.unpark.lid = t.lid := rfl
@[simp] theorem Task.unpark_lcn (t : Task) : t.unpark.lcn = t.lcn := rfl
@[simp] theorem Task.unpark_gsize (t : Task) : t.unpark.gsize = t.gsize := rfl
@[simp] theorem Task.unpark_gcount (t : Task) : t.unpark.gcount = t.gcount := rfl
@[simp] theorem Task.unpark_part (t : Task) : t.unpark.part = t.part := rfl
@[simp] theorem Task.unpark_queue (t : Task) : t.unpark.queue = t.queue := rfl
@[simp] theorem Task.unpark_argptr (t : Task) : t.unpark.argptr = t.argptr := rfl
@[simp] theorem Task.unpark_saveMask (t : Task) : t.unpark.saveMask = t.saveMask := rfl
@[simp] theorem Task.unpark_wbSave (t : Task) : t.unpark.wbSave = t.wbSave := rfl
@[simp] theorem Task.unpark_timedLaunch (t : Task) : t.unpark.timedLaunch = t.timedLaunch := rfl
@[simp] theorem Task.unpark_ctl (t : Task) : t.unpark.ctl = t.ctl := rfl
@[simp] theorem Task.unpark_fidNext (t : Task) : t.unpark.fidNext = t.fidNext := rfl
@[simp] theorem Task.unpark_t (t : Task) : t.unpark.t = t.t := rfl
@[simp] theorem Task.unpark_pat (t : Task) : t.unpark.pat = t.pat := rfl
@[simp] theorem Task.unpark_sh (t : Task) : t.unpark.sh = t.sh := rfl
@[simp] theorem Task.unpark_reg (t : Task) : t.unpark.reg = t.reg := rfl
@[simp] theorem Task.unpark_flags (t : Task) : t.unpark.flags = t.flags := rfl
@[simp] theorem Task.unpark_scr (t : Task) : t.unpark.scr = t.scr := rfl
@[simp] theorem Task.unpark_wb (t : Task) : t.unpark.wb = t.wb := rfl
@[simp] theorem Task.unpark_wbValid (t : Task) : t.unpark.wbValid = t.wbValid := rfl
@[simp] theorem Task.unpark_drainGen (t : Task) : t.unpark.drainGen = t.drainGen := rfl
@[simp] theorem Task.unpark_flumeGen (t : Task) : t.unpark.flumeGen = t.flumeGen := rfl
@[simp] theorem Task.unpark_sluGen (t : Task) : t.unpark.sluGen = t.sluGen := rfl
@[simp] theorem Task.unpark_pins (t : Task) : t.unpark.pins = t.pins := rfl
@[simp] theorem Task.unpark_tlb (t : Task) : t.unpark.tlb = t.tlb := rfl
@[simp] theorem Task.unpark_icache (t : Task) : t.unpark.icache = t.icache := rfl
@[simp] theorem Task.unpark_saving (t : Task) : t.unpark.saving = t.saving := rfl
@[simp] theorem Task.unpark_bad (t : Task) : t.unpark.bad = t.bad := rfl
@[simp] theorem Task.unpark_recs (t : Task) : t.unpark.recs = [] := rfl

/-! ### Taking a fault -/

@[simp] theorem State.takeFault_task_recs (s : State) (x : StreamId) (tr : Trap) (pc w : Word) (n : Nat) :
    (s.takeFault x tr pc w n).cur.task.recs = s.task.noteRec (faultRecord s.task x tr pc w n) := by
  unfold State.takeFault Task.noteRec; split <;> rfl

@[simp] theorem State.takeFault_d4 (s : State) (x : StreamId) (tr : Trap) (pc w : Word) (n : Nat) : (s.takeFault x tr pc w n).d4 = s.d4
    := rfl
@[simp] theorem State.takeFault_boot (s : State) (x : StreamId) (tr : Trap) (pc w : Word) (n : Nat) : (s.takeFault x tr pc w n).boot = s.boot
    := rfl
@[simp] theorem State.takeFault_now (s : State) (x : StreamId) (tr : Trap) (pc w : Word) (n : Nat) : (s.takeFault x tr pc w n).now = s.now
    := rfl
@[simp] theorem State.takeFault_bootAt (s : State) (x : StreamId) (tr : Trap) (pc w : Word) (n : Nat) : (s.takeFault x tr pc w n).bootAt = s.bootAt
    := rfl
@[simp] theorem State.takeFault_fresh (s : State) (x : StreamId) (tr : Trap) (pc w : Word) (n : Nat) : (s.takeFault x tr pc w n).fresh = s.fresh
    := rfl
@[simp] theorem State.takeFault_rest (s : State) (x : StreamId) (tr : Trap) (pc w : Word) (n : Nat) : (s.takeFault x tr pc w n).rest = s.rest
    := rfl
@[simp] theorem State.takeFault_mem (s : State) (x : StreamId) (tr : Trap) (pc w : Word) (n : Nat) : (s.takeFault x tr pc w n).mem = s.mem
    := rfl
@[simp] theorem State.takeFault_badMem (s : State) (x : StreamId) (tr : Trap) (pc w : Word) (n : Nat) : (s.takeFault x tr pc w n).badMem = s.badMem
    := rfl
@[simp] theorem State.takeFault_pkg (s : State) (x : StreamId) (tr : Trap) (pc w : Word) (n : Nat) : (s.takeFault x tr pc w n).pkg = s.pkg
    := rfl
@[simp] theorem State.takeFault_hostLink (s : State) (x : StreamId) (tr : Trap) (pc w : Word) (n : Nat) : (s.takeFault x tr pc w n).hostLink = s.hostLink
    := rfl
@[simp] theorem State.takeFault_parts (s : State) (x : StreamId) (tr : Trap) (pc w : Word) (n : Nat) : (s.takeFault x tr pc w n).parts = s.parts
    := rfl
@[simp] theorem State.takeFault_launches (s : State) (x : StreamId) (tr : Trap) (pc w : Word) (n : Nat) : (s.takeFault x tr pc w n).launches = s.launches
    := rfl
@[simp] theorem State.takeFault_nextLid (s : State) (x : StreamId) (tr : Trap) (pc w : Word) (n : Nat) : (s.takeFault x tr pc w n).nextLid = s.nextLid
    := rfl
@[simp] theorem State.takeFault_gangs (s : State) (x : StreamId) (tr : Trap) (pc w : Word) (n : Nat) : (s.takeFault x tr pc w n).gangs = s.gangs
    := rfl
@[simp] theorem State.takeFault_binds (s : State) (x : StreamId) (tr : Trap) (pc w : Word) (n : Nat) : (s.takeFault x tr pc w n).binds = s.binds
    := rfl
@[simp] theorem State.takeFault_nextTag (s : State) (x : StreamId) (tr : Trap) (pc w : Word) (n : Nat) : (s.takeFault x tr pc w n).nextTag = s.nextTag
    := rfl
@[simp] theorem State.takeFault_ctxNext (s : State) (x : StreamId) (tr : Trap) (pc w : Word) (n : Nat) : (s.takeFault x tr pc w n).ctxNext = s.ctxNext
    := rfl
@[simp] theorem State.takeFault_saved (s : State) (x : StreamId) (tr : Trap) (pc w : Word) (n : Nat) : (s.takeFault x tr pc w n).saved = s.saved
    := rfl
@[simp] theorem State.takeFault_arrivals (s : State) (x : StreamId) (tr : Trap) (pc w : Word) (n : Nat) : (s.takeFault x tr pc w n).arrivals = s.arrivals
    := rfl
@[simp] theorem State.takeFault_left (s : State) (x : StreamId) (tr : Trap) (pc w : Word) (n : Nat) : (s.takeFault x tr pc w n).left = s.left
    := rfl
@[simp] theorem State.takeFault_departs (s : State) (x : StreamId) (tr : Trap) (pc w : Word) (n : Nat) : (s.takeFault x tr pc w n).departs = s.departs
    := rfl
@[simp] theorem State.takeFault_iinvs (s : State) (x : StreamId) (tr : Trap) (pc w : Word) (n : Nat) : (s.takeFault x tr pc w n).iinvs = s.iinvs
    := rfl
@[simp] theorem State.takeFault_nextIinv (s : State) (x : StreamId) (tr : Trap) (pc w : Word) (n : Nat) : (s.takeFault x tr pc w n).nextIinv = s.nextIinv
    := rfl
@[simp] theorem State.takeFault_tagsSeen (s : State) (x : StreamId) (tr : Trap) (pc w : Word) (n : Nat) : (s.takeFault x tr pc w n).tagsSeen = s.tagsSeen
    := rfl
@[simp] theorem State.takeFault_weir (s : State) (x : StreamId) (tr : Trap) (pc w : Word) (n : Nat) : (s.takeFault x tr pc w n).weir = s.weir
    := rfl
@[simp] theorem State.takeFault_power (s : State) (x : StreamId) (tr : Trap) (pc w : Word) (n : Nat) : (s.takeFault x tr pc w n).power = s.power
    := rfl
@[simp] theorem State.takeFault_exitAt (s : State) (x : StreamId) (tr : Trap) (pc w : Word) (n : Nat) : (s.takeFault x tr pc w n).exitAt = s.exitAt
    := rfl
@[simp] theorem State.takeFault_hostTol (s : State) (x : StreamId) (tr : Trap) (pc w : Word) (n : Nat) : (s.takeFault x tr pc w n).hostTol = s.hostTol
    := rfl
@[simp] theorem State.takeFault_fw (s : State) (x : StreamId) (tr : Trap) (pc w : Word) (n : Nat) : (s.takeFault x tr pc w n).fw = s.fw
    := rfl
@[simp] theorem State.takeFault_flash (s : State) (x : StreamId) (tr : Trap) (pc w : Word) (n : Nat) : (s.takeFault x tr pc w n).flash = s.flash
    := rfl
@[simp] theorem State.takeFault_rollback (s : State) (x : StreamId) (tr : Trap) (pc w : Word) (n : Nat) : (s.takeFault x tr pc w n).rollback = s.rollback
    := rfl
@[simp] theorem State.takeFault_descriptor (s : State) (x : StreamId) (tr : Trap) (pc w : Word) (n : Nat) : (s.takeFault x tr pc w n).descriptor = s.descriptor
    := rfl
@[simp] theorem State.takeFault_bootParts (s : State) (x : StreamId) (tr : Trap) (pc w : Word) (n : Nat) : (s.takeFault x tr pc w n).bootParts = s.bootParts
    := rfl
@[simp] theorem State.takeFault_coresFailed (s : State) (x : StreamId) (tr : Trap) (pc w : Word) (n : Nat) : (s.takeFault x tr pc w n).coresFailed = s.coresFailed
    := rfl
@[simp] theorem State.takeFault_dumpAt (s : State) (x : StreamId) (tr : Trap) (pc w : Word) (n : Nat) : (s.takeFault x tr pc w n).dumpAt = s.dumpAt
    := rfl
@[simp] theorem State.takeFault_lanesDown (s : State) (x : StreamId) (tr : Trap) (pc w : Word) (n : Nat) : (s.takeFault x tr pc w n).lanesDown = s.lanesDown
    := rfl
@[simp] theorem State.takeFault_replays (s : State) (x : StreamId) (tr : Trap) (pc w : Word) (n : Nat) : (s.takeFault x tr pc w n).replays = s.replays
    := rfl
@[simp] theorem State.takeFault_dumps (s : State) (x : StreamId) (tr : Trap) (pc w : Word) (n : Nat) : (s.takeFault x tr pc w n).dumps = s.dumps
    := rfl
@[simp] theorem State.takeFault_bootReports (s : State) (x : StreamId) (tr : Trap) (pc w : Word) (n : Nat) : (s.takeFault x tr pc w n).bootReports = s.bootReports
    := rfl
@[simp] theorem State.takeFault_reports (s : State) (x : StreamId) (tr : Trap) (pc w : Word) (n : Nat) : (s.takeFault x tr pc w n).reports = s.reports
    := rfl
@[simp] theorem State.takeFault_rings (s : State) (x : StreamId) (tr : Trap) (pc w : Word) (n : Nat) : (s.takeFault x tr pc w n).rings = s.rings
    := rfl
@[simp] theorem State.takeFault_splitPorts (s : State) (x : StreamId) (tr : Trap) (pc w : Word) (n : Nat) : (s.takeFault x tr pc w n).splitPorts = s.splitPorts
    := rfl
@[simp] theorem State.takeFault_xlat (s : State) (x : StreamId) (tr : Trap) (pc w : Word) (n : Nat) : (s.takeFault x tr pc w n).xlat = s.xlat
    := rfl
@[simp] theorem State.takeFault_shoots (s : State) (x : StreamId) (tr : Trap) (pc w : Word) (n : Nat) : (s.takeFault x tr pc w n).shoots = s.shoots
    := rfl
@[simp] theorem State.takeFault_agenda (s : State) (x : StreamId) (tr : Trap) (pc w : Word) (n : Nat) : (s.takeFault x tr pc w n).agenda = s.agenda
    := rfl
@[simp] theorem State.takeFault_inputs (s : State) (x : StreamId) (tr : Trap) (pc w : Word) (n : Nat) : (s.takeFault x tr pc w n).inputs = s.inputs
    := rfl
@[simp] theorem State.takeFault_faults (s : State) (x : StreamId) (tr : Trap) (pc w : Word) (n : Nat) : (s.takeFault x tr pc w n).faults = s.faults ++ [faultRecord s.cur.task x tr pc w n]
    := rfl
@[simp] theorem State.takeFault_cur_pcore (s : State) (x : StreamId) (tr : Trap) (pc w : Word) (n : Nat) : (s.takeFault x tr pc w n).cur.pcore = s.cur.pcore
    := rfl
@[simp] theorem State.takeFault_cur_slot (s : State) (x : StreamId) (tr : Trap) (pc w : Word) (n : Nat) : (s.takeFault x tr pc w n).cur.slot = s.cur.slot
    := rfl
@[simp] theorem State.takeFault_cur_released (s : State) (x : StreamId) (tr : Trap) (pc w : Word) (n : Nat) : (s.takeFault x tr pc w n).cur.released = s.cur.released
    := rfl
@[simp] theorem State.takeFault_cur_staged (s : State) (x : StreamId) (tr : Trap) (pc w : Word) (n : Nat) : (s.takeFault x tr pc w n).cur.staged = s.cur.staged
    := rfl
@[simp] theorem State.takeFault_cur_stagedTask (s : State) (x : StreamId) (tr : Trap) (pc w : Word) (n : Nat) : (s.takeFault x tr pc w n).cur.stagedTask = s.cur.stagedTask
    := rfl
@[simp] theorem State.takeFault_cur_stagedTag (s : State) (x : StreamId) (tr : Trap) (pc w : Word) (n : Nat) : (s.takeFault x tr pc w n).cur.stagedTag = s.cur.stagedTag
    := rfl
@[simp] theorem State.takeFault_cur_fillFrom (s : State) (x : StreamId) (tr : Trap) (pc w : Word) (n : Nat) : (s.takeFault x tr pc w n).cur.fillFrom = s.cur.fillFrom
    := rfl
@[simp] theorem State.takeFault_cur_fillVirt (s : State) (x : StreamId) (tr : Trap) (pc w : Word) (n : Nat) : (s.takeFault x tr pc w n).cur.fillVirt = s.cur.fillVirt
    := rfl
@[simp] theorem State.takeFault_cur_fillCtx (s : State) (x : StreamId) (tr : Trap) (pc w : Word) (n : Nat) : (s.takeFault x tr pc w n).cur.fillCtx = s.cur.fillCtx
    := rfl
@[simp] theorem State.takeFault_cur_saveTo (s : State) (x : StreamId) (tr : Trap) (pc w : Word) (n : Nat) : (s.takeFault x tr pc w n).cur.saveTo = s.cur.saveTo
    := rfl
@[simp] theorem State.takeFault_task_lid (s : State) (x : StreamId) (tr : Trap) (pc w : Word) (n : Nat) : (s.takeFault x tr pc w n).cur.task.lid = s.cur.task.lid
    := by unfold State.takeFault; split <;> rfl
@[simp] theorem State.takeFault_task_lcn (s : State) (x : StreamId) (tr : Trap) (pc w : Word) (n : Nat) : (s.takeFault x tr pc w n).cur.task.lcn = s.cur.task.lcn
    := by unfold State.takeFault; split <;> rfl
@[simp] theorem State.takeFault_task_gsize (s : State) (x : StreamId) (tr : Trap) (pc w : Word) (n : Nat) : (s.takeFault x tr pc w n).cur.task.gsize = s.cur.task.gsize
    := by unfold State.takeFault; split <;> rfl
@[simp] theorem State.takeFault_task_gcount (s : State) (x : StreamId) (tr : Trap) (pc w : Word) (n : Nat) : (s.takeFault x tr pc w n).cur.task.gcount = s.cur.task.gcount
    := by unfold State.takeFault; split <;> rfl
@[simp] theorem State.takeFault_task_part (s : State) (x : StreamId) (tr : Trap) (pc w : Word) (n : Nat) : (s.takeFault x tr pc w n).cur.task.part = s.cur.task.part
    := by unfold State.takeFault; split <;> rfl
@[simp] theorem State.takeFault_task_queue (s : State) (x : StreamId) (tr : Trap) (pc w : Word) (n : Nat) : (s.takeFault x tr pc w n).cur.task.queue = s.cur.task.queue
    := by unfold State.takeFault; split <;> rfl
@[simp] theorem State.takeFault_task_argptr (s : State) (x : StreamId) (tr : Trap) (pc w : Word) (n : Nat) : (s.takeFault x tr pc w n).cur.task.argptr = s.cur.task.argptr
    := by unfold State.takeFault; split <;> rfl
@[simp] theorem State.takeFault_task_saveMask (s : State) (x : StreamId) (tr : Trap) (pc w : Word) (n : Nat) : (s.takeFault x tr pc w n).cur.task.saveMask = s.cur.task.saveMask
    := by unfold State.takeFault; split <;> rfl
@[simp] theorem State.takeFault_task_wbSave (s : State) (x : StreamId) (tr : Trap) (pc w : Word) (n : Nat) : (s.takeFault x tr pc w n).cur.task.wbSave = s.cur.task.wbSave
    := by unfold State.takeFault; split <;> rfl
@[simp] theorem State.takeFault_task_timedLaunch (s : State) (x : StreamId) (tr : Trap) (pc w : Word) (n : Nat) : (s.takeFault x tr pc w n).cur.task.timedLaunch = s.cur.task.timedLaunch
    := by unfold State.takeFault; split <;> rfl
@[simp] theorem State.takeFault_task_fidNext (s : State) (x : StreamId) (tr : Trap) (pc w : Word) (n : Nat) : (s.takeFault x tr pc w n).cur.task.fidNext = s.cur.task.fidNext
    := by unfold State.takeFault; split <;> rfl
@[simp] theorem State.takeFault_task_t (s : State) (x : StreamId) (tr : Trap) (pc w : Word) (n : Nat) : (s.takeFault x tr pc w n).cur.task.t = s.cur.task.t
    := by unfold State.takeFault; split <;> rfl
@[simp] theorem State.takeFault_task_pat (s : State) (x : StreamId) (tr : Trap) (pc w : Word) (n : Nat) : (s.takeFault x tr pc w n).cur.task.pat = s.cur.task.pat
    := by unfold State.takeFault; split <;> rfl
@[simp] theorem State.takeFault_task_sh (s : State) (x : StreamId) (tr : Trap) (pc w : Word) (n : Nat) : (s.takeFault x tr pc w n).cur.task.sh = s.cur.task.sh
    := by unfold State.takeFault; split <;> rfl
@[simp] theorem State.takeFault_task_m (s : State) (x : StreamId) (tr : Trap) (pc w : Word) (n : Nat) : (s.takeFault x tr pc w n).cur.task.m = s.cur.task.m
    := by unfold State.takeFault; split <;> rfl
@[simp] theorem State.takeFault_task_f (s : State) (x : StreamId) (tr : Trap) (pc w : Word) (n : Nat) : (s.takeFault x tr pc w n).cur.task.f = s.cur.task.f
    := by unfold State.takeFault; split <;> rfl
@[simp] theorem State.takeFault_task_s (s : State) (x : StreamId) (tr : Trap) (pc w : Word) (n : Nat) : (s.takeFault x tr pc w n).cur.task.s = s.cur.task.s
    := by unfold State.takeFault; split <;> rfl
@[simp] theorem State.takeFault_task_reg (s : State) (x : StreamId) (tr : Trap) (pc w : Word) (n : Nat) : (s.takeFault x tr pc w n).cur.task.reg = s.cur.task.reg
    := by unfold State.takeFault; split <;> rfl
@[simp] theorem State.takeFault_task_flags (s : State) (x : StreamId) (tr : Trap) (pc w : Word) (n : Nat) : (s.takeFault x tr pc w n).cur.task.flags = s.cur.task.flags
    := by unfold State.takeFault; split <;> rfl
@[simp] theorem State.takeFault_task_scr (s : State) (x : StreamId) (tr : Trap) (pc w : Word) (n : Nat) : (s.takeFault x tr pc w n).cur.task.scr = s.cur.task.scr
    := by unfold State.takeFault; split <;> rfl
@[simp] theorem State.takeFault_task_wb (s : State) (x : StreamId) (tr : Trap) (pc w : Word) (n : Nat) : (s.takeFault x tr pc w n).cur.task.wb = s.cur.task.wb
    := by unfold State.takeFault; split <;> rfl
@[simp] theorem State.takeFault_task_wbValid (s : State) (x : StreamId) (tr : Trap) (pc w : Word) (n : Nat) : (s.takeFault x tr pc w n).cur.task.wbValid = s.cur.task.wbValid
    := by unfold State.takeFault; split <;> rfl
@[simp] theorem State.takeFault_task_drainGen (s : State) (x : StreamId) (tr : Trap) (pc w : Word) (n : Nat) : (s.takeFault x tr pc w n).cur.task.drainGen = s.cur.task.drainGen
    := by unfold State.takeFault; split <;> rfl
@[simp] theorem State.takeFault_task_flumeGen (s : State) (x : StreamId) (tr : Trap) (pc w : Word) (n : Nat) : (s.takeFault x tr pc w n).cur.task.flumeGen = s.cur.task.flumeGen
    := by unfold State.takeFault; split <;> rfl
@[simp] theorem State.takeFault_task_sluGen (s : State) (x : StreamId) (tr : Trap) (pc w : Word) (n : Nat) : (s.takeFault x tr pc w n).cur.task.sluGen = s.cur.task.sluGen
    := by unfold State.takeFault; split <;> rfl
@[simp] theorem State.takeFault_task_pins (s : State) (x : StreamId) (tr : Trap) (pc w : Word) (n : Nat) : (s.takeFault x tr pc w n).cur.task.pins = s.cur.task.pins
    := by unfold State.takeFault; split <;> rfl
@[simp] theorem State.takeFault_task_tlb (s : State) (x : StreamId) (tr : Trap) (pc w : Word) (n : Nat) : (s.takeFault x tr pc w n).cur.task.tlb = s.cur.task.tlb
    := by unfold State.takeFault; split <;> rfl
@[simp] theorem State.takeFault_task_icache (s : State) (x : StreamId) (tr : Trap) (pc w : Word) (n : Nat) : (s.takeFault x tr pc w n).cur.task.icache = s.cur.task.icache
    := by unfold State.takeFault; split <;> rfl
@[simp] theorem State.takeFault_task_parkAll (s : State) (x : StreamId) (tr : Trap) (pc w : Word) (n : Nat) : (s.takeFault x tr pc w n).cur.task.parkAll = s.cur.task.parkAll
    := by unfold State.takeFault; split <;> rfl
@[simp] theorem State.takeFault_task_saving (s : State) (x : StreamId) (tr : Trap) (pc w : Word) (n : Nat) : (s.takeFault x tr pc w n).cur.task.saving = s.cur.task.saving
    := by unfold State.takeFault; split <;> rfl
@[simp] theorem State.takeFault_task_bad (s : State) (x : StreamId) (tr : Trap) (pc w : Word) (n : Nat) : (s.takeFault x tr pc w n).cur.task.bad = s.cur.task.bad
    := by unfold State.takeFault; split <;> rfl
@[simp] theorem State.takeFault_ctl_g (s : State) (x : StreamId) (tr : Trap) (pc w : Word) (n : Nat) : (s.takeFault x tr pc w n).cur.task.ctl.g = s.cur.task.ctl.g
    := by unfold State.takeFault; split <;> rfl
@[simp] theorem State.takeFault_ctl_p (s : State) (x : StreamId) (tr : Trap) (pc w : Word) (n : Nat) : (s.takeFault x tr pc w n).cur.task.ctl.p = s.cur.task.ctl.p
    := by unfold State.takeFault; split <;> rfl
@[simp] theorem State.takeFault_ctl_j (s : State) (x : StreamId) (tr : Trap) (pc w : Word) (n : Nat) : (s.takeFault x tr pc w n).cur.task.ctl.j = s.cur.task.ctl.j
    := by unfold State.takeFault; split <;> rfl
@[simp] theorem State.takeFault_ctl_ssp (s : State) (x : StreamId) (tr : Trap) (pc w : Word) (n : Nat) : (s.takeFault x tr pc w n).cur.task.ctl.ssp = s.cur.task.ctl.ssp
    := by unfold State.takeFault; split <;> rfl
@[simp] theorem State.takeFault_ctl_ssl (s : State) (x : StreamId) (tr : Trap) (pc w : Word) (n : Nat) : (s.takeFault x tr pc w n).cur.task.ctl.ssl = s.cur.task.ctl.ssl
    := by unfold State.takeFault; split <;> rfl
@[simp] theorem State.takeFault_ctl_pc (s : State) (x : StreamId) (tr : Trap) (pc w : Word) (n : Nat) : (s.takeFault x tr pc w n).cur.task.ctl.pc = s.cur.task.ctl.pc
    := by unfold State.takeFault; split <;> rfl
@[simp] theorem State.takeFault_ctl_ir (s : State) (x : StreamId) (tr : Trap) (pc w : Word) (n : Nat) : (s.takeFault x tr pc w n).cur.task.ctl.ir = s.cur.task.ctl.ir
    := by unfold State.takeFault; split <;> rfl
@[simp] theorem State.takeFault_ctl_waiting (s : State) (x : StreamId) (tr : Trap) (pc w : Word) (n : Nat) : (s.takeFault x tr pc w n).cur.task.ctl.waiting = s.cur.task.ctl.waiting
    := by unfold State.takeFault; split <;> rfl
@[simp] theorem State.takeFault_ctl_step (s : State) (x : StreamId) (tr : Trap) (pc w : Word) (n : Nat) : (s.takeFault x tr pc w n).cur.task.ctl.step = s.cur.task.ctl.step
    := by unfold State.takeFault; split <;> rfl
@[simp] theorem State.takeFault_ctl_phys (s : State) (x : StreamId) (tr : Trap) (pc w : Word) (n : Nat) : (s.takeFault x tr pc w n).cur.task.ctl.phys = s.cur.task.ctl.phys
    := by unfold State.takeFault; split <;> rfl
@[simp] theorem State.takeFault_ctl_timed (s : State) (x : StreamId) (tr : Trap) (pc w : Word) (n : Nat) : (s.takeFault x tr pc w n).cur.task.ctl.timed = s.cur.task.ctl.timed
    := by unfold State.takeFault; split <;> rfl
@[simp] theorem State.takeFault_ctl_frame (s : State) (x : StreamId) (tr : Trap) (pc w : Word) (n : Nat) : (s.takeFault x tr pc w n).cur.task.ctl.frame = s.cur.task.ctl.frame
    := by unfold State.takeFault; split <;> rfl
@[simp] theorem State.takeFault_ctl_framecnt (s : State) (x : StreamId) (tr : Trap) (pc w : Word) (n : Nat) : (s.takeFault x tr pc w n).cur.task.ctl.framecnt = s.cur.task.ctl.framecnt
    := by unfold State.takeFault; split <;> rfl
@[simp] theorem State.takeFault_ctl_frameEng (s : State) (x : StreamId) (tr : Trap) (pc w : Word) (n : Nat) : (s.takeFault x tr pc w n).cur.task.ctl.frameEng = s.cur.task.ctl.frameEng
    := by unfold State.takeFault; split <;> rfl
@[simp] theorem State.takeFault_ctl_tasktime (s : State) (x : StreamId) (tr : Trap) (pc w : Word) (n : Nat) : (s.takeFault x tr pc w n).cur.task.ctl.tasktime = s.cur.task.ctl.tasktime
    := by unfold State.takeFault; split <;> rfl
@[simp] theorem State.takeFault_ctl_pending (s : State) (x : StreamId) (tr : Trap) (pc w : Word) (n : Nat) : (s.takeFault x tr pc w n).cur.task.ctl.pending = s.cur.task.ctl.pending
    := by unfold State.takeFault; split <;> rfl
@[simp] theorem State.takeFault_ctl_clo (s : State) (x : StreamId) (tr : Trap) (pc w : Word) (n : Nat) : (s.takeFault x tr pc w n).cur.task.ctl.clo = s.cur.task.ctl.clo
    := by unfold State.takeFault; split <;> rfl
@[simp] theorem State.takeFault_ctl_chi (s : State) (x : StreamId) (tr : Trap) (pc w : Word) (n : Nat) : (s.takeFault x tr pc w n).cur.task.ctl.chi = s.cur.task.ctl.chi
    := by unfold State.takeFault; split <;> rfl
@[simp] theorem State.takeFault_ctl_remote (s : State) (x : StreamId) (tr : Trap) (pc w : Word) (n : Nat) : (s.takeFault x tr pc w n).cur.task.ctl.remote = s.cur.task.ctl.remote
    := by unfold State.takeFault; split <;> rfl
@[simp] theorem State.takeFault_ctl_remoteAge (s : State) (x : StreamId) (tr : Trap) (pc w : Word) (n : Nat) : (s.takeFault x tr pc w n).cur.task.ctl.remoteAge = s.cur.task.ctl.remoteAge
    := by unfold State.takeFault; split <;> rfl

end Sys2Proof.Machine
end

