-- ==== Sys2Proof/Laws/Memory.lean ====
section
/-! SUPPORT. The operations over the stores: each keeps the canonical form of physical memory and of every task's
stores, and what a byte read after it gives. -/

namespace Sys2Proof.Machine

/-! ### Canonical stores -/

/-- A core's tasks are held in canonical form. -/
def Core.canonical (c : Core) : Prop := c.task.canonical ∧ c.stagedTask.canonical

theorem State.canonical_iff {s : State} :
    s.canonical ↔ Memory.wf s.mem = true ∧ s.cur.canonical ∧ ∀ c ∈ s.rest, c.canonical := by
  simp [State.canonical, State.cores, Core.canonical]

theorem Task.blank_canonical : Task.blank.canonical := ⟨rfl, rfl, rfl, rfl, rfl, rfl, rfl, rfl, rfl⟩

theorem Core.blank_canonical (n : Nat) : (Core.blank n).canonical := ⟨Task.blank_canonical, Task.blank_canonical⟩

theorem State.reset_canonical : State.reset.canonical :=
  State.canonical_iff.2 ⟨rfl, Core.blank_canonical 0, by simp [State.reset]⟩

/-- Memory of the machine at reset has its canonical form. -/
theorem Memory.wf_reset : Memory.wf State.reset.mem = true := rfl

theorem State.canonical_withTask {s : State} {t : Task} (h : s.canonical) (ht : t.canonical) :
    (s.withTask t).canonical := by
  rw [State.canonical_iff] at h ⊢
  exact ⟨h.1, ⟨ht, h.2.1.2⟩, h.2.2⟩

theorem State.canonical_task {s : State} (h : s.canonical) : s.task.canonical := (State.canonical_iff.1 h).2.1.1

theorem Task.canonical_putReg {t : Task} (h : t.canonical) (a : Nat) (v : Byte) : (t.putReg a v).canonical := by
  obtain ⟨h1, h2, h3, h4, h5, h6, h7, h8, h9⟩ := h
  exact ⟨h1, h2, h3, h4, h5, spWf_spSet h6, h7, h8, spWf_spSet h9⟩

theorem Task.canonical_putScr {t : Task} (h : t.canonical) (a : Nat) (v : Byte) : (t.putScr a v).canonical := by
  obtain ⟨h1, h2, h3, h4, h5, h6, h7, h8, h9⟩ := h
  exact ⟨h1, h2, h3, h4, h5, h6, spWf_spSet h7, h8, h9⟩

/-- A write of no bit does nothing. -/
@[simp] theorem State.wrByte_none {s : State} {w : BWrite} (h : w.mask = 0) : s.wrByte w = s := if_pos h

@[simp] theorem State.wrAcc_none {s : State} {w : BWrite} (h : w.mask = 0) : s.wrAcc w = s := if_pos (.inl h)

/-- A byte write keeps every store in canonical form. -/
theorem State.canonical_wrByte {s : State} (h : s.canonical) (w : BWrite) : (s.wrByte w).canonical := by
  have ht := State.canonical_task h
  unfold State.wrByte
  split
  · exact h
  cases w.sp with
  | reg => exact State.canonical_withTask h (Task.canonical_putReg ht _ _)
  | scr => exact State.canonical_withTask h (Task.canonical_putScr ht _ _)
  | wbuf =>
    obtain ⟨h1, h2, h3, h4, h5, h6, h7, h8, h9⟩ := ht
    exact State.canonical_withTask h ⟨h1, h2, h3, h4, h5, h6, h7, spWf_spSet h8, h9⟩
  | mem =>
    rw [State.canonical_iff] at h ⊢
    exact ⟨spWf_spSet h.1, h.2⟩
  | far n =>
    simp only
    split
    · exact State.canonical_withTask h (Task.canonical_putScr ht _ _)
    · rw [State.canonical_iff] at h ⊢
      refine ⟨h.1, h.2.1, fun c hc => ?_⟩
      obtain ⟨d, hd, rfl⟩ := List.mem_map.1 hc
      have hd' := h.2.2 d hd
      split
      · exact ⟨Task.canonical_putScr hd'.1 _ _, hd'.2⟩
      · exact hd'

/-- Clearing the mark of an uncorrectable error keeps every store in canonical form. -/
theorem State.canonical_unmark {s : State} (h : s.canonical) (p : Space × Nat) : (s.unmark p).canonical := by
  have ht := State.canonical_task h
  obtain ⟨sp, a⟩ := p
  unfold State.unmark
  cases sp with
  | mem => rw [State.canonical_iff] at h ⊢; exact h
  | far n =>
    dsimp only
    split
    · exact State.canonical_withTask h ht
    · rw [State.canonical_iff] at h ⊢
      refine ⟨h.1, h.2.1, fun c hc => ?_⟩
      obtain ⟨d, hd, rfl⟩ := List.mem_map.1 hc
      have hd' := h.2.2 d hd
      split
      · exact ⟨hd'.1, hd'.2⟩
      · exact hd'
  | reg => exact State.canonical_withTask h ht
  | scr => exact State.canonical_withTask h ht
  | wbuf => exact State.canonical_withTask h ht

/-- A fold of steps that each keep the canonical form. -/
theorem State.canonical_foldl {α : Type} {f : State → α → State} (hf : ∀ u a, State.canonical u → (f u a).canonical)
    (l : List α) {s : State} (h : s.canonical) : (l.foldl f s).canonical := by
  induction l generalizing s with
  | nil => exact h
  | cons a l ih => exact ih (hf _ _ h)

theorem State.canonical_unmarkAll {s : State} (h : s.canonical) (ws : List BWrite) : (s.unmarkAll ws).canonical := by
  unfold State.unmarkAll
  split
  · exact h
  · exact State.canonical_foldl (fun _ p hu => State.canonical_unmark hu p) _ h

/-- With no uncorrectable error in the machine a write clears none. -/
@[simp] theorem State.unmarkAll_sound {s : State} (h : s.sound = true) (ws : List BWrite) : s.unmarkAll ws = s := if_pos h

theorem State.canonical_wrBytes {s : State} (h : s.canonical) (ws : List BWrite) : (s.wrBytes ws).canonical :=
  State.canonical_unmarkAll (State.canonical_foldl (fun _ w hu => State.canonical_wrByte hu w) ws h) ws

/-- A number's store keeps every store in canonical form. -/
theorem State.canonical_wrNat {s : State} (h : s.canonical) (sp : Space) (a n v : Nat) :
    (s.wrNat sp a n v).canonical := State.canonical_wrBytes h _

/-- An accumulator command's byte write keeps every store in canonical form. -/
theorem State.canonical_wrAcc {s : State} (h : s.canonical) (w : BWrite) : (s.wrAcc w).canonical := by
  obtain ⟨h1, h2, h3, h4, h5, h6, h7⟩ := State.canonical_task h
  unfold State.wrAcc
  split
  · exact h
  · exact State.canonical_withTask h ⟨h1, h2, h3, h4, h5, spWf_spSet h6, h7⟩

theorem State.canonical_putFlags {s : State} (h : s.canonical) (fs : List (Nat × Flag)) : (s.putFlags fs).canonical := by
  obtain ⟨h1, h2, h3, h4, h5, h6, h7, h8, h9⟩ := State.canonical_task h
  exact State.canonical_withTask h ⟨h1, h2, h3, h4, h5, h6, h7, h8, spWf_spSetMany h9⟩

/-- Performing what a command writes keeps every store in canonical form. -/
theorem State.canonical_perform {s : State} (h : s.canonical) (acc : Bool) (ws : List BWrite) (fs : List (Nat × Flag)) :
    (s.perform acc ws fs).canonical := by
  apply State.canonical_putFlags
  apply State.canonical_unmarkAll
  cases acc
  exacts [State.canonical_foldl (fun _ w hu => State.canonical_wrByte hu w) ws h,
    State.canonical_foldl (fun _ w hu => State.canonical_wrAcc hu w) ws h]

/-- A fold keeps the canonical form. -/
theorem State.canonical_doFold {s : State} (h : s.canonical) (f : FoldOp) : (s.doFold f).canonical :=
  State.canonical_wrNat h _ _ _ _

theorem Memory.wf_setMany {m : List Host.Cell} (h : Memory.wf m = true) (ws : List (Nat × Byte)) :
    Memory.wf (spSetMany emptyByte m ws) = true := spWf_spSetMany h

theorem Memory.wf_drop {m : List Host.Cell} (h : Memory.wf m = true) (f : Nat → Bool) :
    Memory.wf (spDrop f m) = true := spWf_spDrop h

theorem Task.canonical_openLine {t : Task} (h : t.canonical) (l : Nat) : (t.openLine l).canonical := by
  unfold Task.openLine
  split
  · exact h
  · obtain ⟨h1, h2, h3, h4, h5, h6, h7, h8, h9⟩ := h
    exact ⟨h1, h2, h3, h4, h5, h6, h7, Memory.wf_drop h8 (fun k => k / 256 == l), h9⟩

/-- A fill of the weight buffer keeps the canonical form of a task's stores. -/
theorem Task.canonical_fillWeights {t : Task} (h : t.canonical) (cells : List (Nat × Byte)) :
    (t.fillWeights cells).canonical := by
  have key : ∀ (ls : List Nat) (u : Task), u.canonical → (ls.foldl Task.openLine u).canonical := by
    intro ls
    induction ls with
    | nil => exact fun _ hu => hu
    | cons l ls ih => exact fun u hu => ih _ (Task.canonical_openLine hu l)
  obtain ⟨h1, h2, h3, h4, h5, h6, h7, h8, h9⟩ := key (dedupAdj (cells.map (·.1 / 256))) t h
  exact ⟨h1, h2, h3, h4, h5, h6, h7, spWf_spSetMany h8, h9⟩

/-- So does what a weight-port command leaves. -/
theorem Task.canonical_landWeights {t : Task} (h : t.canonical) (cells : List (Nat × Byte)) (lines : List (Nat × Nat)) :
    (t.landWeights cells lines).canonical := by
  obtain ⟨h1, h2, h3, h4, h5, h6, h7, h8, h9⟩ := h
  exact Task.canonical_fillWeights (t := t.dropLines lines) ⟨h1, h2, h3, h4, h5, h6, h7, h8, h9⟩ cells

/-- A context image is written in canonical form. -/
theorem Memory.wf_writeImage {s : State} (h : Memory.wf s.mem = true) (t : Task) (pa : Nat) :
    Memory.wf (s.writeImage t pa).mem = true := by
  simp only [State.writeImage]
  exact Memory.wf_setMany (Memory.wf_drop h _) _

/-- A placed word keeps memory in canonical form. -/
theorem Memory.wf_placeWord {s : State} (h : Memory.wf s.mem = true) (w : Nat) :
    Memory.wf (s.placeWord w).mem = true := by
  unfold State.placeWord
  dsimp only
  exact Memory.wf_setMany h _

/-- A dump is written in canonical form. -/
theorem Memory.wf_writeDump {s : State} (h : Memory.wf s.mem = true) (cause : BitVec 8) (addr : Word) :
    Memory.wf (s.writeDump cause addr).mem = true := by
  simp only [State.writeDump]
  exact Memory.wf_setMany (Memory.wf_drop h _) _

/-- Losing HBM leaves what the host holds of memory, in canonical form. -/
theorem Memory.wf_loseAll {s : State} (h : Memory.wf s.mem = true) : Memory.wf s.loseAll.mem = true :=
  spWfFrom_filter h

/-! ### Registers -/

theorem State.canonical_setG {s : State} (h : s.canonical) (d : BitVec 5) (v : Word) : (s.setG d v).canonical := by
  obtain ⟨h1, h2⟩ := State.canonical_task h
  refine State.canonical_withTask h ⟨?_, ?_⟩
  · simp only [Ctl.setG]; split
    · exact h1
    · exact spWf_spSet h1
  · simp only [Ctl.setG]; split <;> exact h2

theorem State.canonical_setJ {s : State} (h : s.canonical) (j : BitVec 3) (v : JReg) : (s.setJ j v).canonical := by
  obtain ⟨h1, h2, h3⟩ := State.canonical_task h
  exact State.canonical_withTask h ⟨h1, spWf_spSet h2, h3⟩

theorem State.canonical_withCtl {s : State} (h : s.canonical) {c : Ctl} (hg : c.g = s.ctl.g) (hj : c.j = s.ctl.j) :
    (s.withCtl c).canonical := by
  obtain ⟨h1, h2, h3⟩ := State.canonical_task h
  exact State.canonical_withTask h ⟨by rw [hg]; exact h1, by rw [hj]; exact h2, h3⟩

/-- A write to G0 is discarded; any other register reads back what was written. -/
theorem State.getG_setG_self {s : State} (h : s.canonical) {d : BitVec 5} (hd : d ≠ 0) (v : Word) :
    (s.setG d v).getG d = v := by
  have hg := (State.canonical_task h).1
  simp only [State.getG, State.setG, Ctl.getG, Ctl.setG, hd, if_false, State.withCtl, State.withTask]
  exact spGet_spSet_self hg

theorem State.getG_setG_ne {s : State} (h : s.canonical) {d r : BitVec 5} (hr : r ≠ d) (v : Word) :
    (s.setG d v).getG r = s.getG r := by
  have hg := (State.canonical_task h).1
  have hne : r.toNat ≠ d.toNat := fun e => hr (BitVec.eq_of_toNat_eq e)
  simp only [State.getG, State.setG, Ctl.getG, Ctl.setG, State.withCtl, State.withTask]
  split
  · rfl
  · split
    · rfl
    · exact spGet_spSet_ne hg hne

@[simp] theorem State.getG_zero (s : State) : s.getG 0 = 0 := rfl

@[simp] theorem State.setG_zero (s : State) (v : Word) : s.setG 0 v = s := rfl

@[simp] theorem State.getP_zero (s : State) : s.getP 0 = true := rfl

theorem Ctl.getP_setP (c : Ctl) (i j : BitVec 3) (v : Bool) :
    (c.setP i v).getP j = if j = 0 then true else if j = i then v else c.getP j := by
  have hj : j.toNat < 8 := j.isLt
  simp only [Ctl.getP, Ctl.setP]
  by_cases h0 : j = 0
  · subst h0; simp
  · have hb : (j == 0#3) = false := by simpa using h0
    by_cases hi0 : i = 0
    · subst hi0; rw [if_pos rfl, if_neg h0, if_neg h0]
    · by_cases hij : j = i
      · subst hij
        simp only [h0, if_false, if_true]
        cases v <;> simp [hb, hj]
      · have hne : j.toNat ≠ i.toNat := fun e => hij (BitVec.eq_of_toNat_eq e)
        simp only [h0, hi0, hij, if_false]
        cases v <;> simp [hb, hj] <;> intros <;> omega

/-- P0 reads 1; any other predicate reads back what was written, and the others stay (R117). -/
theorem State.getP_setP (s : State) (i j : BitVec 3) (v : Bool) :
    (s.setP i v).getP j = if j = 0 then true else if j = i then v else s.getP j := Ctl.getP_setP s.ctl i j v

/-! ### Bytes -/

/-- Replacing the focused task by one with the same stores and the same identity changes no byte of any store. -/
theorem State.rdByte_withTask {s : State} {t : Task} (hr : t.reg = s.task.reg) (hs : t.scr = s.task.scr)
    (hw : t.wb = s.task.wb) (hv : t.wbValid = s.task.wbValid) (hl : t.lid = s.task.lid) (hn : t.lcn = s.task.lcn)
    (sp : Space) (a : Nat) : (s.withTask t).rdByte sp a = s.rdByte sp a := by
  cases sp with
  | reg => simp [State.rdByte, hr]
  | scr => simp [State.rdByte, hs]
  | wbuf => simp [State.rdByte, hw, hv]
  | mem => rfl
  | far n =>
    simp only [State.rdByte, State.withTask_cur_task, hs, hl, hn]
    split
    · rfl
    · rename_i hne
      have h1 : ∀ c : Core, c.task.lcn = s.task.lcn → c.holdsTask s.task.lid n = false := fun c hc => by
        simp [Core.holdsTask, hc, Ne.symm hne]
      have h2 : (s.withTask t).findTask s.task.lid n = s.findTask s.task.lid n := by
        simp only [State.findTask, State.cores, State.withTask_rest]
        rw [List.find?_cons_of_neg, List.find?_cons_of_neg]
        · simp [h1 s.cur rfl]
        · simp [h1 (s.withTask t).cur hn]
      rw [h2]

/-- Replacing the control registers changes no byte of any store. -/
theorem State.rdByte_withCtl (s : State) (c : Ctl) (sp : Space) (a : Nat) :
    (s.withCtl c).rdByte sp a = s.rdByte sp a :=
  State.rdByte_withTask (s := s) (t := { s.task with ctl := c }) rfl rfl rfl rfl rfl rfl sp a

/-- Replacing an engine changes no byte of any store. -/
theorem State.rdByte_setEng (s : State) (e : EngId) (g : Eng) (sp : Space) (a : Nat) :
    (s.setEng e g).rdByte sp a = s.rdByte sp a := by
  cases e <;> exact State.rdByte_withTask (s := s) (t := s.task.setEng _ g) rfl rfl rfl rfl rfl rfl sp a

/-- A write of all eight bits of a byte. -/
theorem mergeByte_all (o v : Byte) : mergeByte o 0xFF v = v := by
  show (o &&& ~~~(BitVec.allOnes 8)) ||| (v &&& BitVec.allOnes 8) = v
  rw [BitVec.and_allOnes]
  simp

/-- A byte of physical memory after a write. -/
theorem State.rdByte_mem_wrByte {s : State} (h : s.canonical) (a a' : Nat) (v : Byte) :
    (s.wrByte ⟨.mem, a, 0xFF, v⟩).rdByte .mem a' = if a' = a then v else s.rdByte .mem a' := by
  have hm : Memory.wf s.mem = true := h.1
  simp only [State.wrByte, State.rdByte, show ((0xFF : Byte) = 0) = False from by decide, if_false]
  split
  · rename_i e; subst e
    rw [spGet_spSet_self hm]
    exact mergeByte_all _ v
  · rename_i e
    exact spGet_spSet_ne hm e

end Sys2Proof.Machine
end

