-- ==== Sys2Proof/Laws/Access.lean ====
section
/-! SUPPORT. What translating an address, finding a target, fetching and prefetching can change: the translations and
words that core and die hold, and the counter of free choices, and nothing else. -/

namespace Sys2Proof.Machine

theorem State.heldOnly_refl (s : State) : s.heldOnly s := ⟨s.task.tlb, s.task.icache, s.fresh, s.xlat, rfl⟩

theorem State.heldOnly_trans {s u v : State} (h : s.heldOnly u) (h' : u.heldOnly v) : s.heldOnly v := by
  obtain ⟨tl, ic, n, xl, rfl⟩ := h
  obtain ⟨tl', ic', n', xl', rfl⟩ := h'
  exact ⟨tl', ic', n', xl', rfl⟩

theorem State.heldOnly_ctl {s u : State} (h : s.heldOnly u) : u.ctl = s.ctl := by
  obtain ⟨tl, ic, n, xl, rfl⟩ := h; rfl

theorem State.heldOnly_rest {s u : State} (h : s.heldOnly u) : u.rest = s.rest := by
  obtain ⟨tl, ic, n, xl, rfl⟩ := h; rfl

theorem State.heldOnly_mem {s u : State} (h : s.heldOnly u) : u.mem = s.mem := by
  obtain ⟨tl, ic, n, xl, rfl⟩ := h; rfl

theorem State.heldOnly_faults {s u : State} (h : s.heldOnly u) : u.faults = s.faults := by
  obtain ⟨tl, ic, n, xl, rfl⟩ := h; rfl

theorem State.heldOnly_sameOutside {s u : State} (h : s.heldOnly u) : s.sameOutside u := by
  obtain ⟨tl, ic, n, xl, rfl⟩ := h; exact ⟨rfl, rfl, rfl, rfl, rfl, rfl, rfl, rfl, rfl, rfl, rfl, rfl, rfl⟩

theorem State.heldOnly_sameUnits {s u : State} (h : s.heldOnly u) : u.task.sameUnits s.task := by
  obtain ⟨tl, ic, n, xl, rfl⟩ := h
  exact ⟨rfl, rfl, rfl, rfl, rfl, rfl, rfl, rfl, rfl, rfl, rfl, rfl, rfl, rfl, rfl, rfl⟩

theorem State.heldOnly_sameBytes {s u : State} (h : s.heldOnly u) : s.sameBytes u := by
  obtain ⟨tl, ic, n, xl, rfl⟩ := h
  exact fun sp a => State.rdByte_withTask (s := s) (t := { s.task with tlb := tl, icache := ic }) rfl rfl rfl rfl rfl
    rfl sp a

theorem State.heldOnly_canonical {s u : State} (h : s.heldOnly u) (hc : s.canonical) : u.canonical := by
  obtain ⟨tl, ic, n, xl, rfl⟩ := h
  rw [State.canonical_iff] at hc ⊢
  exact ⟨hc.1, hc.2.1, hc.2.2⟩

theorem State.heldOnly_tlb (s : State) (tl : List (Nat × Leaf)) : s.heldOnly (s.withTask { s.task with tlb := tl }) :=
  ⟨tl, s.task.icache, s.fresh, s.xlat, rfl⟩

theorem State.heldOnly_icache (s : State) (ic : List (Nat × Word)) :
    s.heldOnly (s.withTask { s.task with icache := ic }) := ⟨s.task.tlb, ic, s.fresh, s.xlat, rfl⟩

theorem State.heldOnly_xlat (s : State) (xl : List DieXlat) : s.heldOnly { s with xlat := xl } :=
  ⟨s.task.tlb, s.task.icache, s.fresh, xl, rfl⟩

theorem State.heldOnly_choose (s : State) : s.heldOnly s.choose.2 :=
  ⟨s.task.tlb, s.task.icache, s.fresh + 1, s.xlat, rfl⟩

/-! ### One lemma for each operation -/

theorem State.leafFor_heldOnly (s : State) (va : Nat) : s.heldOnly (s.leafFor va).2 := by
  unfold State.leafFor
  split
  · exact s.heldOnly_refl
  · exact s.heldOnly_choose

theorem State.noteTlb_heldOnly (s : State) (va : Nat) (l : Leaf) : s.heldOnly (s.noteTlb va l) := by
  unfold State.noteTlb
  have key : ∀ u : State, s.heldOnly u → s.heldOnly (if (heldLeaf u.task.tlb va).isSome then u
      else u.withTask { u.task with tlb := u.task.tlb ++ [(l.base va, l)] }) := by
    intro u h
    split
    · exact h
    · exact State.heldOnly_trans h (State.heldOnly_tlb _ _)
  refine key (if (heldLeaf s.dieLeaves va).isSome then s
      else { s with xlat := s.xlat ++ [⟨dieOf s.cur.pcore, s.task.part, s.root, l.base va, l⟩] }) ?_
  split
  · exact s.heldOnly_refl
  · exact s.heldOnly_xlat _

theorem State.translate_heldOnly (s : State) (va : Nat) (k : Acc) (timed : Bool) :
    s.heldOnly (s.translate va k timed).2 := by
  have h := s.leafFor_heldOnly va
  unfold State.translate
  dsimp only
  split
  · exact State.heldOnly_trans h (State.noteTlb_heldOnly _ _ _)
  · exact h
  · exact h

theorem State.target_heldOnly (s : State) (va n : Nat) (k : Acc) : s.heldOnly (s.target va n k).2 := by
  have h := s.translate_heldOnly va k s.ctl.timedOpen
  unfold State.target
  split
  · exact s.heldOnly_refl
  · split
    · exact s.heldOnly_refl
    · split
      · exact s.heldOnly_refl
      · split
        · exact s.heldOnly_refl
        · split <;> exact s.heldOnly_refl
    · exact s.heldOnly_refl
    · split <;> (rename_i e; rw [e] at h; exact h)

theorem State.vread_heldOnly (s : State) (va : Nat) (k : Acc) (n : Nat) : s.heldOnly (s.vread va k n).2 := by
  unfold State.vread
  dsimp only
  split
  · exact s.heldOnly_refl
  · split <;> exact s.heldOnly_refl
  · have h := s.translate_heldOnly va k false
    split
    · rename_i e; rw [e] at h; exact h
    · rename_i e; rw [e] at h
      split <;> exact h

theorem State.fetchAt_heldOnly (s : State) (va : Nat) : s.heldOnly (s.fetchAt va).2 := by
  unfold State.fetchAt
  split
  · have h := s.translate_heldOnly va .fetch false
    split
    · rename_i e; rw [e] at h; exact h
    · rename_i e; rw [e] at h
      split <;> exact h
  · exact s.heldOnly_refl

theorem State.fetchLineAt_heldOnly (s : State) (va pa : Nat) : s.heldOnly (s.fetchLineAt va pa).2 := by
  unfold State.fetchLineAt
  dsimp only
  split
  · exact s.heldOnly_refl
  · exact s.heldOnly_choose

theorem State.fetchWord_heldOnly (s : State) (va : Nat) : s.heldOnly (s.fetchWord va).2 := by
  have h := s.fetchAt_heldOnly va
  unfold State.fetchWord
  split
  · rename_i e; rw [e] at h; exact h
  · rename_i pa u e; rw [e] at h
    exact State.heldOnly_trans (State.heldOnly_trans h (u.fetchLineAt_heldOnly va pa)) (State.heldOnly_icache _ _)

theorem State.fetchLine_heldOnly (s : State) (hi n va : Nat) : s.heldOnly (s.fetchLine hi n va).2 := by
  induction n generalizing s va with
  | zero => exact s.heldOnly_refl
  | succ n ih =>
    unfold State.fetchLine
    split
    · exact s.heldOnly_refl
    · have h := s.fetchAt_heldOnly va
      split
      · rename_i e; rw [e] at h; exact h
      · rename_i u e; rw [e] at h
        have h' := ih u (va + 8)
        split
        · rename_i e'; rw [e'] at h'; exact State.heldOnly_trans h h'
        · rename_i e'; rw [e'] at h'
          exact State.heldOnly_trans (State.heldOnly_trans h h') (State.fetchLineAt_heldOnly _ _ _)

theorem State.prefetch_heldOnly (s : State) (va : Nat) : s.heldOnly (s.prefetch va).2 := by
  unfold State.prefetch
  split
  · exact s.heldOnly_refl
  · exact s.fetchLine_heldOnly _ _ _

theorem State.shadowTarget_heldOnly (s : State) (va : Nat) (k : Acc) : s.heldOnly (s.shadowTarget va k).2 := by
  unfold State.shadowTarget
  split
  · exact s.translate_heldOnly _ _ _
  · exact s.heldOnly_refl
  · exact s.heldOnly_refl

end Sys2Proof.Machine
end

