-- ==== Sys2Proof/Laws/Encoding.lean ====
section
/-! SUPPORT. Fields of concatenated words: each field of `cat` is a field of one of its parts. -/

namespace Sys2Proof

/-- A field above the low part is a field of the high part. -/
theorem fld_cat_high {x n y lo w : Nat} (hy : y < 2 ^ n) (h : n ≤ lo) : fld (cat x n y) lo w = fld x (lo - n) w := by
  obtain ⟨k, rfl⟩ := Nat.exists_eq_add_of_le h
  rw [cat, fld, fld, Nat.pow_add, ← Nat.div_div_eq_div_mul, Nat.add_sub_cancel_left,
    Nat.add_comm, Nat.add_mul_div_right _ _ (Nat.two_pow_pos n), Nat.div_eq_of_lt hy, Nat.zero_add]

/-- A field inside the low part is a field of the low part. -/
theorem fld_cat_low {x n y lo w : Nat} (h : lo + w ≤ n) : fld (cat x n y) lo w = fld y lo w := by
  obtain ⟨k, rfl⟩ := Nat.exists_eq_add_of_le h
  rw [cat, fld, fld]
  have e : x * 2 ^ (lo + w + k) + y = y + 2 ^ lo * (2 ^ w * (x * 2 ^ k)) := by
    rw [Nat.pow_add, Nat.pow_add]; ring
  rw [e, Nat.add_mul_div_left _ _ (Nat.two_pow_pos lo), Nat.add_mul_mod_self_left]

/-- The whole of a number below `2 ^ w` is its field of width `w`. -/
theorem fld_self {y w : Nat} (h : y < 2 ^ w) : fld y 0 w = y := by
  rw [fld, Nat.pow_zero, Nat.div_one, Nat.mod_eq_of_lt h]

theorem fld_zero (lo w : Nat) : fld 0 lo w = 0 := by simp [fld]

theorem fld_lt (x lo w : Nat) : fld x lo w < 2 ^ w := Nat.mod_lt _ (Nat.two_pow_pos w)

/-- A concatenation is as long as its parts. -/
theorem cat_lt {x n y m : Nat} (h : x < 2 ^ m) (hy : y < 2 ^ n) : cat x n y < 2 ^ (m + n) := by
  rw [cat, Nat.pow_add]
  calc x * 2 ^ n + y < x * 2 ^ n + 2 ^ n := Nat.add_lt_add_left hy _
    _ = (x + 1) * 2 ^ n := by ring
    _ ≤ 2 ^ m * 2 ^ n := Nat.mul_le_mul_right _ h

/-- A bit is a field of width 1. -/
theorem bitOf_eq_fld (x i : Nat) : bitOf x i = (fld x i 1 == 1) := rfl

/-- The bit vector of a field is the bit vector that was put there. -/
theorem bv_fld {n : Nat} (v : BitVec n) : BitVec.ofNat n (fld v.toNat 0 n) = v := by
  rw [fld_self v.isLt]; simp

end Sys2Proof
end

