-- ==== Sys2Proof/Laws/Updates.lean ====
section
/-! SUPPORT. The updates of the sluice, the fold and the requests: each keeps every store in canonical form (R94). -/

namespace Sys2Proof.Machine

/-- Replacing an engine keeps the canonical form. -/
theorem State.canonical_setEng {s : State} (h : s.canonical) (e : EngId) (g : Eng) : (s.setEng e g).canonical := by
  obtain ⟨h1, h2, h3, h4, h5, h6, h7, h8, h9⟩ := State.canonical_task h
  cases e <;> exact State.canonical_withTask h ⟨h1, h2, h3, h4, h5, h6, h7, h8, h9⟩

theorem State.canonical_sluPut {s : State} (h : s.canonical) (v : View) (e code : Nat) : (s.sluPut v e code).canonical :=
  State.canonical_wrBytes h _

/-- Setting the sluice's generator keeps every store in canonical form. -/
theorem State.canonical_seed {s : State} (h : s.canonical) (x : BitVec 32) :
    (s.withTask { s.task with sluGen := x }).canonical :=
  have ht := State.canonical_task h
  State.canonical_withTask h ⟨ht.1, ht.2⟩

/-- A draw changes the sluice's generator alone. -/
theorem State.canonical_sluDraw {s : State} (h : s.canonical) : s.sluDraw.2.canonical := State.canonical_seed h _

theorem State.canonical_countUp {s : State} (h : s.canonical) (v : View) (e : Nat) : (s.countUp v e).canonical := by
  unfold State.countUp
  dsimp only
  split
  · exact h
  split
  · exact State.canonical_sluPut h _ _ _
  split
  · exact h
  split
  · exact State.canonical_sluPut (State.canonical_sluDraw h) _ _ _
  · exact State.canonical_sluDraw h

theorem canonical_mergeTrials (k lim n : Nat) : ∀ (j z : Nat) {s : State}, s.canonical →
    (mergeTrials k lim n j z s).2.canonical := by
  induction n with
  | zero => exact fun _ _ _ h => h
  | succ n ih =>
    intro j z s h
    unfold mergeTrials
    dsimp only
    split
    · exact ih _ _ h
    · exact ih _ _ (State.canonical_sluDraw h)

theorem State.canonical_mergeInto {s : State} (h : s.canonical) (v : View) (e y : Nat) : (s.mergeInto v e y).canonical := by
  have hm := fun k l n j z => canonical_mergeTrials k l n j z h
  unfold State.mergeInto
  dsimp only
  split
  · exact hm _ _ _ _ _
  · exact State.canonical_sluPut (hm _ _ _ _ _) _ _ _

theorem State.canonical_raise {s : State} (h : s.canonical) (v : View) (e d : Nat) : (s.raise v e d).canonical := by
  unfold State.raise
  split
  · exact h
  · exact State.canonical_sluPut h _ _ _

/-- One element's access keeps every store in canonical form. -/
theorem SluOp.canonical_element (op : SluOp) (i e : Nat) {s : State} (h : s.canonical) :
    (op.element i e s).1.canonical := by
  unfold SluOp.element
  split
  · exact State.canonical_sluPut h _ _ _
  · dsimp only; split
    · exact State.canonical_sluPut h _ _ _
    · exact h
  · exact State.canonical_sluPut h _ _ _
  · exact h
  · dsimp only
    cases op.raised i with
    | none => exact State.canonical_countUp h _ _
    | some d => exact State.canonical_raise h _ _ d
  · dsimp only
    cases op.raised i with
    | none => exact State.canonical_mergeInto h _ _ _
    | some d => exact State.canonical_raise h _ _ d
  · exact h
  · exact h

theorem SluOp.canonical_elements (op : SluOp) (n : Nat) : ∀ (i : Nat) (r : SluRun), r.s.canonical →
    (op.elements n i r).s.canonical := by
  induction n with
  | zero => exact fun _ _ h => h
  | succ n ih =>
    intro i r h
    unfold SluOp.elements
    split
    · exact ih _ _ h
    · split
      · exact h
      · exact ih _ _ (SluOp.canonical_element op _ _ h)

theorem SluOp.canonical_windows (op : SluOp) (sop fuel : Nat) : ∀ (lo : Nat) (r : SluRun), r.s.canonical →
    (op.windows sop fuel lo r).s.canonical := by
  induction fuel with
  | zero => exact fun _ _ h => h
  | succ n ih =>
    intro lo r h
    unfold SluOp.windows
    dsimp only
    split
    · exact h
    split
    · exact h
    · exact ih _ _ (State.canonical_foldl (fun _ _ hu => State.canonical_sluPut hu _ _ _) _ h)

/-- A command's accesses keep every store in canonical form. -/
theorem SluOp.canonical_perform (op : SluOp) {s : State} (h : s.canonical) : (op.perform s).s.canonical := by
  unfold SluOp.perform
  dsimp only
  split
  · exact SluOp.canonical_windows _ _ _ _ _ h
  · exact SluOp.canonical_windows _ _ _ _ _ h
  · exact SluOp.canonical_windows _ _ _ _ _ h
  · exact SluOp.canonical_elements _ _ _ _ h

/-- What a command returns is written in canonical form. -/
theorem SluOp.canonical_deliver (op : SluOp) (olds : List (Nat × Nat)) {s : State} (h : s.canonical) :
    (op.deliver olds s).canonical := by
  unfold SluOp.deliver
  split
  · exact State.canonical_foldl (fun _ _ hu => State.canonical_setEng (State.canonical_sluPut hu _ _ _) _ _) _ h
  · exact State.canonical_foldl (fun _ _ hu => State.canonical_wrBytes hu _) _ h

theorem SluOp.canonical_performAt (op : SluOp) (p : Space → Nat → Bool) {s : State} (h : s.canonical) :
    (op.performAt p s).1.canonical :=
  SluOp.canonical_deliver _ _ (SluOp.canonical_perform _ h)

/-- The landing of a local command keeps every store in canonical form. -/
theorem SluOp.canonical_land (op : SluOp) (seed : Option (BitVec 32)) {s : State} (h : s.canonical) :
    (op.land seed s).1.canonical := by
  have hd := SluOp.canonical_deliver op ((op.perform s).olds ++ op.olds) (SluOp.canonical_perform op h)
  unfold SluOp.land
  dsimp only
  split
  · exact hd
  · split
    · exact State.canonical_seed hd _
    · exact hd

/-! ### Requests -/

theorem State.canonical_reduce {s : State} (h : s.canonical) (sp : Space) (rop fmt : Nat) (x : RedElem) :
    (s.reduce sp rop fmt x).canonical := by
  unfold State.reduce
  split
  · exact h
  · exact State.canonical_wrBytes h _

/-- Applying a request keeps every store in canonical form. -/
theorem State.canonical_applyReq {s : State} (h : s.canonical) (r : Req) : (s.applyReq r).1.canonical := by
  unfold State.applyReq
  split
  · exact State.canonical_foldl (fun _ x hu => State.canonical_reduce hu _ _ _ x) _ h
  · exact SluOp.canonical_perform _ h
  · exact State.canonical_doFold h _

theorem State.canonical_applyAt {s : State} (h : s.canonical) (r : Req) (p : Space → Nat → Bool) :
    (s.applyAt r p).1.canonical := by
  unfold State.applyAt
  split
  · exact State.canonical_foldl (fun _ x hu => State.canonical_reduce hu _ _ _ x) _ h
  · exact SluOp.canonical_performAt _ _ h
  · exact h

end Sys2Proof.Machine
end

