-- ==== Sys2Proof/Laws/InFlight.lean ====
section
/-! SUPPORT. What effects in flight leave when a read finds them (R23, R88, R157): each performs part of a flight, and
every store stays in canonical form. -/

namespace Sys2Proof.Machine

/-! ### Cores in focus -/

theorem insertCore_mem {c d : Core} {l : List Core} (h : d ∈ insertCore c l) : d = c ∨ d ∈ l := by
  induction l with
  | nil => simpa [insertCore] using h
  | cons x l ih =>
    unfold insertCore at h
    split at h
    · simpa using h
    · rcases List.mem_cons.1 h with rfl | h
      · exact .inr List.mem_cons_self
      · exact (ih h).imp_right (List.mem_cons_of_mem x)

/-- Bringing a core into focus keeps every store in canonical form. -/
theorem State.canonical_focus {s : State} (h : s.canonical) (n : Nat) : (s.focus n).canonical := by
  unfold State.focus
  split
  · exact h
  · rw [State.canonical_iff] at h ⊢
    have hr : ∀ c ∈ s.rest.filter fun c => c.pcore != n, c.canonical := fun c hc => h.2.2 c (List.mem_of_mem_filter hc)
    refine ⟨h.1, ?_, fun c hc => ?_⟩
    · show (((s.rest.find? fun c => c.pcore == n).getD (Core.blank n)) : Core).canonical
      cases hf : s.rest.find? fun c => c.pcore == n with
      | none => exact Core.blank_canonical n
      | some c => exact h.2.2 c (List.mem_of_find?_eq_some hf)
    · dsimp only at hc
      split at hc
      · exact hr c hc
      · rcases insertCore_mem hc with rfl | hc
        · exact h.2.1
        · exact hr c hc

/-- Doing something at a core keeps the canonical form if it does. -/
theorem State.canonical_onCore {s : State} (h : s.canonical) (n : Nat) {f : State → State}
    (hf : ∀ u : State, u.canonical → (f u).canonical) : (s.onCore n f).canonical :=
  State.canonical_focus (hf _ (State.canonical_focus h n)) _

/-! ### What a command performs beneath -/

/-- Showing what stood there before keeps every store in canonical form. -/
theorem State.canonical_exhume {s : State} (h : s.canonical) (bs : List Buried) : (s.exhume bs).canonical :=
  State.canonical_foldl (fun _ _ hu => State.canonical_wrByte hu _) bs h

@[simp] theorem State.exhume_nil (s : State) : s.exhume [] = s := rfl

@[simp] theorem State.rebury_nil (s t : State) : s.rebury [] t = t := rfl

/-- Putting back what stands there keeps every store in canonical form. -/
theorem State.canonical_rebury (s : State) (bs : List Buried) {t : State} (h : t.canonical) : (s.rebury bs t).canonical := by
  unfold State.rebury
  split
  · exact h
  · have hu := State.canonical_putFlags (State.canonical_foldl (f := fun (u : State) (b : Buried) =>
        u.wrByte ⟨b.w.sp, b.w.at_, 0xFF, s.rdByte b.w.sp b.w.at_⟩) (fun _ _ hv => State.canonical_wrByte hv _) bs
      (State.canonical_foldl (f := fun (u : State) (b : Buried) => u.setEng b.e ((u.eng b.e).mapFlight b.seq fun x =>
        { x with writes := x.writes.map fun w =>
            if w.mask == 0 && w.sp == b.w.sp && w.at_ == b.w.at_ then { w with val := t.rdByte w.sp w.at_ } else w }))
        (fun _ _ hv => State.canonical_setEng hv _ _) bs h))
      ((bs.filter fun b => b.w.sp == .reg).map fun b => (b.w.at_ / 4, spGet Flag.fresh s.task.flags (b.w.at_ / 4)))
    rw [State.canonical_iff] at hu ⊢
    exact hu

/-- What a command does beneath something keeps every store in canonical form if it does elsewhere. -/
theorem State.canonical_beneath {s : State} (h : s.canonical) (e : EngId) (f : Flight) {act : State → State}
    (ha : ∀ u : State, u.canonical → (act u).canonical) : (s.beneath e f act).canonical :=
  State.canonical_rebury s _ (ha _ (State.canonical_exhume h _))

/-- With nothing that a load has seen early, a command performs beneath nothing. -/
theorem State.buried_nil {s : State} (h : s.seesAhead = false) (e : EngId) (f : Flight) : s.buried e f = [] := by
  simp [State.buried, h]

/-- Nor does one of elastic mode. -/
theorem State.buried_elastic (s : State) (e : EngId) {f : Flight} (h : f.timed = false) : s.buried e f = [] := by
  simp [State.buried, h]

/-! ### Flights -/

theorem Task.canonical_zeroGranule {t : Task} (h : t.canonical) (a : Nat) : (t.zeroGranule a).canonical := by
  obtain ⟨h1, h2, h3, h4, h5, h6, h7, h8, h9⟩ := h
  have hw := Memory.wf_drop h8 (fun k => k / 64 == a / 64)
  exact ⟨h1, h2, h3, h4, h5, h6, h7, hw, h9⟩

theorem Task.canonical_foldl_zeroGranule (gs : List Nat) {t : Task} (h : t.canonical) :
    (gs.foldl Task.zeroGranule t).canonical := by
  induction gs generalizing t with
  | nil => exact h
  | cons g gs ih => exact ih (Task.canonical_zeroGranule h g)

/-- Seeding the sluice's generator after a command keeps the canonical form. -/
theorem State.canonical_seeded {s : State} (h : s.canonical) (f : Flight) : (s.seeded f).canonical := by
  unfold State.seeded
  split
  · exact State.canonical_setEng (State.canonical_seed h _) _ _
  · exact h

/-- Performing part of a sluice command in flight keeps every store in canonical form. -/
theorem State.canonical_sluPart {s : State} (h : s.canonical) (f : Flight) (p : Space → Nat → Bool) :
    (s.sluPart f p).canonical := by
  refine State.canonical_beneath h _ _ fun u hu => ?_
  split
  · dsimp only
    split
    · exact State.canonical_setEng (SluOp.canonical_deliver _ _ hu) _ _
    · exact State.canonical_setEng (SluOp.canonical_performAt _ p hu) _ _
  · exact hu

/-- Performing parts of sluice commands, the earlier ones first, keeps every store in canonical form. -/
theorem State.canonical_sluBack {s : State} (h : s.canonical) (fs : List Flight) (p : Space → Nat → Bool) :
    (State.sluBack fs p s).canonical := by
  induction fs generalizing p with
  | nil => exact h
  | cons f t ih =>
    unfold State.sluBack
    split
    · exact State.canonical_sluPart (ih _) f p
    · exact ih _

/-- Taking draws changes no store but the commands in flight and the generator. -/
theorem State.canonical_takeDraws (fs : List (EngId × Flight)) {s : State} (h : s.canonical) (w : State) :
    (State.takeDraws fs w s).canonical := by
  induction fs generalizing s w with
  | nil => exact h
  | cons f t ih =>
    unfold State.takeDraws
    split
    · split
      · exact ih (State.canonical_seeded h f.2) _
      · dsimp only
        split
        · exact State.canonical_setEng (State.canonical_seed h _) _ _
        · exact ih (State.canonical_seeded (State.canonical_setEng (State.canonical_seed h _) _ _) f.2) _
    · exact ih h _

theorem State.canonical_drawsFor {s : State} (h : s.canonical) (f : Flight) (p : Space → Nat → Bool) :
    (s.drawsFor f p).canonical := by
  unfold State.drawsFor
  split
  · exact State.canonical_takeDraws _ h _
  · exact h

theorem State.canonical_sluParts {s : State} (h : s.canonical) (f : Flight) (p : Space → Nat → Bool) :
    (s.sluParts f p).canonical := by
  unfold State.sluParts
  split
  · split
    · exact h
    · exact State.canonical_sluBack (State.canonical_drawsFor h f p) _ p
  · exact h

theorem State.canonical_foldPart {s : State} (h : s.canonical) (e : EngId) (f : Flight) (p : Space → Nat → Bool) :
    (s.foldPart e f p).canonical := by
  unfold State.foldPart
  split
  · split
    · exact State.canonical_setEng (State.canonical_doFold h _) _ _
    · exact h
  · exact h

theorem State.canonical_weightPart {s : State} (h : s.canonical) (op : LandOp) (p : Space → Nat → Bool) :
    (s.weightPart op p).2.2.2.canonical := by
  unfold State.weightPart
  split
  · exact State.canonical_withTask h
      (Task.canonical_foldl_zeroGranule _ (Task.canonical_fillWeights (State.canonical_task h) _))
  · exact h

/-- Performing part of a flight, the sluice's updates apart, keeps every store in canonical form. -/
theorem State.canonical_landOwn {s : State} (h : s.canonical) (e : EngId) (seq : Nat) (p : Space → Nat → Bool) :
    (s.landOwn e seq p).canonical := by
  unfold State.landOwn
  split
  · exact h
  · refine State.canonical_beneath h _ _ fun u hu => ?_
    exact State.canonical_foldPart
      (State.canonical_setEng (State.canonical_weightPart (State.canonical_perform hu _ _ _) _ p) _ _) _ _ p

/-- Performing part of a flight keeps every store in canonical form. -/
theorem State.canonical_landPart {s : State} (h : s.canonical) (e : EngId) (seq : Nat) (p : Space → Nat → Bool) :
    (s.landPart e seq p).canonical := by
  unfold State.landPart
  split
  · exact h
  · exact State.canonical_sluParts (State.canonical_landOwn h e seq p) _ p

theorem State.canonical_choose {s : State} (h : s.canonical) : s.choose.2.canonical := by
  rw [State.canonical_iff] at h ⊢; exact h

/-- What may happen or not keeps the canonical form if it does where it happens and where it does not. -/
theorem State.canonical_pick {s : State} (h : s.canonical) (c : Bool) {f : Bool × State → State}
    (hf : ∀ b v, State.canonical v → (f (b, v)).canonical) : (f (if c = true then (true, s) else s.choose)).canonical := by
  split
  · exact hf _ _ h
  · exact hf _ _ (State.canonical_choose h)

theorem State.canonical_landAt {s : State} (h : s.canonical) (k : Nat × Space) (a n : Nat) (l : List (EngId × Flight)) :
    (s.landAt k a n l).canonical :=
  State.canonical_foldl (fun _ _ hu => State.canonical_landPart hu _ _ _) l h

theorem State.canonical_behindDrawn {s : State} (h : s.canonical) (k : Nat × Space) (a n : Nat) :
    (s.behindDrawn k a n).canonical := State.canonical_landAt h k a n _

/-- Performing what loads have seen at some bytes keeps every store in canonical form. -/
theorem State.canonical_behind {s : State} (h : s.canonical) (k : Nat × Space) (a n : Nat) : (s.behind k a n).canonical :=
  State.canonical_behindDrawn (State.canonical_landAt h k a n _) k a n

theorem State.canonical_behindOthers {s : State} (h : s.canonical) (k : Nat × Space) (a n : Nat) :
    (s.behindOthers k a n).canonical := by
  unfold State.behindOthers
  exact State.canonical_foldl (fun u m hu => State.canonical_onCore hu m fun v hv => State.canonical_behind hv k a n) _ h

theorem State.canonical_behindSeen {s : State} (h : s.canonical) (sp : Space) (a n : Nat) : (s.behindSeen sp a n).canonical :=
  State.canonical_behindOthers (State.canonical_behind h _ _ _) _ _ _

theorem State.canonical_overDrawn {s : State} (h : s.canonical) (e : EngId) (ps : List (Space × Nat)) :
    (s.overDrawn e ps).canonical := by
  unfold State.overDrawn
  split
  · exact h
  · exact State.canonical_foldl (fun _ _ hu => State.canonical_behindDrawn hu _ _ _) _ h

theorem State.canonical_overOthers {s : State} (h : s.canonical) (ps : List (Space × Nat)) : (s.overOthers ps).canonical := by
  unfold State.overOthers
  split
  · exact h
  · exact State.canonical_foldl (fun u x hu => State.canonical_behindOthers hu _ _ _) _ h

theorem State.canonical_overAhead {s : State} (h : s.canonical) (e : EngId) (ps : List (Space × Nat)) :
    (s.overAhead e ps).canonical := State.canonical_overOthers (State.canonical_overDrawn h e ps) ps

/-- What a core's loads have seen, performed, leaves every store in canonical form. -/
theorem State.canonical_ownSeen {s : State} (h : s.canonical) : s.ownSeen.canonical :=
  State.canonical_foldl (fun _ _ hu => State.canonical_landPart hu _ _ _) _ h

theorem State.canonical_elsewhere {s : State} (h : s.canonical) : s.elsewhere.canonical :=
  State.canonical_foldl (fun _ m hu => State.canonical_onCore hu m fun _ hv => State.canonical_ownSeen hv) _ h

theorem State.canonical_beheld {s : State} (h : s.canonical) : s.beheld.canonical :=
  State.canonical_elsewhere (State.canonical_ownSeen h)

/-- Performing part of a request keeps every store in canonical form. -/
theorem State.canonical_reqPart {s : State} (h : s.canonical) (e : EngId) (tag : BitVec 32) (p : Space → Nat → Bool) :
    (s.reqPart e tag p).canonical := by
  unfold State.reqPart
  refine State.canonical_foldl (fun u r hu => ?_) _ h
  dsimp only
  split
  · exact hu
  · exact State.canonical_setEng (State.canonical_applyAt (State.canonical_overAhead hu _ _) r p) _ _

theorem State.canonical_showReqs {s : State} (h : s.canonical) (e : EngId) (f : Flight) (want : Space → Nat → Bool)
    (key : Space → Nat → Nat) : (s.showReqs e f want key).canonical := by
  unfold State.showReqs
  refine State.canonical_foldl (fun u r hu => State.canonical_foldl (fun v k hv => ?_) _ hu) _ h
  dsimp only
  split
  · exact State.canonical_reqPart (State.canonical_choose hv) _ _ _
  · exact State.canonical_choose hv

/-- What a read finds of effects in flight keeps every store in canonical form (R23, R88). -/
theorem State.canonical_showAt {s : State} (h : s.canonical) (want : Space → Nat → Bool)
    (key : Flight → Space → Nat → Nat) : (s.showAt want key).canonical := by
  unfold State.showAt
  refine State.canonical_foldl (fun u e hu => State.canonical_foldl (fun u f hu => ?_) _ hu) _ h
  split
  · exact hu
  · refine State.canonical_showReqs (State.canonical_foldl (fun u k hu => ?_) _ hu) _ _ _ _
    dsimp only
    split
    · split
      · exact State.canonical_landPart (State.canonical_overAhead hu _ _) _ _ _
      · exact hu
    · split
      · exact State.canonical_landPart (State.canonical_overAhead (State.canonical_choose hu) _ _) _ _ _
      · exact State.canonical_choose hu

/-- A load's view of what is in flight keeps every store in canonical form (R88, R157). -/
theorem State.canonical_showFor {s : State} (h : s.canonical) (sp : Space) (a n : Nat) : (s.showFor sp a n).canonical := by
  unfold State.showFor
  refine State.canonical_foldl (fun u m hu => ?_) _ (State.canonical_showAt h _ _)
  exact State.canonical_onCore hu _ fun _ hv => State.canonical_showAt hv _ _

/-! ### When nothing is in flight -/

/-- With no command of the task in flight there is nothing to find. -/
theorem State.showAt_idle {s : State} (h : ∀ e, (s.eng e).flight = []) (want : Space → Nat → Bool)
    (key : Flight → Space → Nat → Nat) : s.showAt want key = s := by
  simp [State.showAt, engines, h]

/-- With no command in flight anywhere a load reads the store as it stands. -/
theorem State.showFor_idle {s : State} (h : ∀ e, (s.eng e).flight = []) (hr : ∀ c ∈ s.rest, c.inFlight = false)
    (sp : Space) (a n : Nat) : s.showFor sp a n = s := by
  unfold State.showFor
  have hf : s.rest.filter Core.inFlight = [] := List.filter_eq_nil_iff.2 fun c hc => by simp [hr c hc]
  simp only [State.showAt_idle h, hf, List.map_nil, List.foldl_nil]

/-- With nothing of another core's that has been seen early or has drawn, nothing of another core shows early. -/
theorem State.seers_nil {s : State} (h : ∀ c ∈ s.rest, c.ahead = false) : s.seers = [] := by
  simp only [State.seers, List.map_eq_nil_iff, List.filter_eq_nil_iff]
  exact fun c hc => by simp [h c hc]

theorem State.elsewhere_unseen {s : State} (h : ∀ c ∈ s.rest, c.ahead = false) : s.elsewhere = s := by
  simp [State.elsewhere, State.seers_nil h]

theorem State.behindOthers_unseen {s : State} (h : ∀ c ∈ s.rest, c.ahead = false) (k : Nat × Space) (a n : Nat) :
    s.behindOthers k a n = s := by
  simp [State.behindOthers, State.seers_nil h]

theorem State.overOthers_unseen {s : State} (h : ∀ c ∈ s.rest, c.ahead = false) (ps : List (Space × Nat)) :
    s.overOthers ps = s := by
  simp [State.overOthers, State.seers_nil h]

/-- With nothing anywhere that has been seen early or has drawn, an engine's writes come after nothing. -/
theorem State.overAhead_unseen {s : State} (hc : s.cur.ahead = false) (h : ∀ c ∈ s.rest, c.ahead = false) (e : EngId)
    (ps : List (Space × Nat)) : s.overAhead e ps = s := by
  simp [State.overAhead, State.overDrawn, hc, State.overOthers_unseen h]

end Sys2Proof.Machine
end

