-- ==== Sys2Proof/Laws/Fatal.lean ====
section
/-! SUPPORT. Cutting what is in flight, the dump and the reset after a fatal error keep every store in canonical form (R222, R299,
R314). -/

namespace Sys2Proof.Machine

/-- Landing a command's operation keeps every store in canonical form. -/
theorem State.canonical_landOp {s : State} (h : s.canonical) (e : EngId) (f : Flight) : (s.landOp e f).1.canonical := by
  unfold State.landOp
  split
  · rename_i op _
    dsimp only
    split
    · have hd := SluOp.canonical_deliver op (((s.eng e).reqs.filter fun r => r.seq == f.seq).flatMap (·.olds)).reverse h
      split
      · exact State.canonical_seed hd _
      · exact hd
    · exact SluOp.canonical_land _ _ h
  · split
    · exact h
    · exact State.canonical_doFold h _
  · exact State.canonical_withTask h (Task.canonical_landWeights (State.canonical_task h) _ _)
  · exact h

theorem State.canonical_cutUnits (acc : Bool) (us : List (List BWrite)) : ∀ {s : State}, s.canonical →
    (s.cutUnits acc us).canonical := by
  induction us with
  | nil => exact fun h => h
  | cons u us ih =>
    intro s h
    unfold State.cutUnits
    apply ih
    exact State.canonical_pick h (u.any fun w => w.mask == 0) (f := fun x => if x.1 then x.2.perform acc u [] else x.2)
      fun b v hv => by
        cases b
        exacts [hv, State.canonical_perform hv _ _ _]

/-- Cutting a command keeps every store in canonical form. -/
theorem State.canonical_cutFlight {s : State} (h : s.canonical) (e : EngId) (f : Flight) : (s.cutFlight e f).canonical := by
  have hc := State.canonical_choose (State.canonical_cutUnits f.acc f.parts h)
  have hf : ({ (s.cutUnits f.acc f.parts).choose.2 with fresh := (s.cutUnits f.acc f.parts).choose.2.fresh + 1 } : State).canonical := by
    rw [State.canonical_iff] at hc ⊢; exact hc
  unfold State.cutFlight
  dsimp only
  split
  · exact hc
  · split
    · split
      · exact hc
      · exact State.canonical_landOp hf e _
    · exact State.canonical_landOp hc e f
    · exact hc

theorem State.canonical_cutReq {s : State} (h : s.canonical) (e : EngId) (r : Req) : (s.cutReq e r).canonical := by
  unfold State.cutReq
  dsimp only
  split
  · exact h
  · split
    · exact State.canonical_applyReq (State.canonical_choose h) r
    · exact State.canonical_choose h

theorem State.canonical_cutInFlight {s : State} (h : s.canonical) : s.cutInFlight.canonical := by
  unfold State.cutInFlight
  refine State.canonical_foldl (fun u e hu => State.canonical_foldl (fun v r hv => State.canonical_cutReq hv e r) _ hu) _ ?_
  exact State.canonical_foldl (fun u e hu => State.canonical_foldl (fun v f hv => State.canonical_cutFlight hv e f) _ hu) _ h

/-- With every die stopped every store is in canonical form. -/
theorem State.canonical_stopDies {s : State} (h : s.canonical) : s.stopDies.canonical :=
  State.canonical_foldl (fun _ n hu => State.canonical_onCore hu n fun _ hv => State.canonical_cutInFlight hv) _ h

/-- A reset after a fatal error leaves memory in canonical form. -/
theorem Memory.wf_fatal {s : State} (h : s.canonical) (cause : BitVec 8) (addr : Word) :
    Memory.wf (s.fatal cause addr).mem = true := by
  simp only [State.fatal, State.afterReset]
  exact Memory.wf_writeDump (State.canonical_stopDies h).1 cause addr

end Sys2Proof.Machine
end

