-- ==== Sys2Proof/Laws/Ops.lean ====
section
/-! SUPPORT. One lemma for each shared operation that says all it can do: retiring, qualified instructions, taking a
fault, finding the head of a queue and issuing a command. -/

namespace Sys2Proof.Machine

/-! ### Retiring -/

/-- Retiring answers a next state: PC is written and, with MODE.STEP set, STEP is raised (R126, R312). -/
theorem State.retireTo_eq (s : State) (pc : Word) : s.retireTo pc = .next (s.retired pc) := rfl

theorem State.retire_eq (s : State) : s.retire = .next (s.retired (s.ctl.pc + 8)) := rfl

theorem State.fail_eq (s : State) (tr : Trap) : s.fail tr = .next (s.trapHere tr) := rfl

theorem State.wait_eq (s : State) : s.wait = .next s.waits := rfl

/-- A squashed instruction only retires (R127). -/
theorem State.qualified_eq (s : State) (q : Qual) (k : State → Out) :
    s.qualified q k = if s.holds q = true then k s else .next (s.retired (s.ctl.pc + 8)) := rfl

/-- An instruction that writes one G register and retires. -/
theorem State.writeG_eq (s : State) (q : Qual) (d : BitVec 5) (v : Word) : s.writeG q d v = .next (s.writes q d v) := by
  have hpc : (s.setG d v).ctl.pc = s.ctl.pc := by simp only [State.setG, Ctl.setG]; split <;> rfl
  unfold State.writeG State.writes State.completes
  rw [State.qualified_eq]
  by_cases h : (s.getP q.p != q.n) = true
  · simp only [State.holds, h, if_true, State.retire_eq, hpc]
  · simp only [State.holds, h, if_false, Bool.false_eq_true]

/-- A qualified instruction with an effect that does not move PC. -/
theorem State.completes_eq (s : State) (q : Qual) (u : State) (h : u.ctl.pc = s.ctl.pc) :
    (s.qualified q fun _ => u.retire) = .next (s.completes q u) := by
  unfold State.completes
  rw [State.qualified_eq]
  by_cases hq : (s.getP q.p != q.n) = true
  · simp only [State.holds, hq, if_true, State.retire_eq, h]
  · simp only [State.holds, hq, if_false, Bool.false_eq_true]

@[simp] theorem State.retired_pc (s : State) (pc : Word) : (s.retired pc).ctl.pc = pc := by
  unfold State.retired; dsimp only; split <;> simp

theorem State.retired_ctl (s : State) (pc : Word) : (s.retired pc).ctl = { s.ctl with pc, waiting := false } := by
  unfold State.retired; dsimp only
  split <;> rfl

@[simp] theorem State.retired_getG (s : State) (pc : Word) (r : BitVec 5) : (s.retired pc).getG r = s.getG r := by
  simp only [State.getG, State.retired_ctl, Ctl.getG]

@[simp] theorem State.retired_getP (s : State) (pc : Word) (i : BitVec 3) : (s.retired pc).getP i = s.getP i := by
  simp only [State.getP, State.retired_ctl, Ctl.getP]

@[simp] theorem State.retired_mem (s : State) (pc : Word) : (s.retired pc).mem = s.mem := by
  unfold State.retired; dsimp only; split <;> simp

@[simp] theorem State.retired_rest (s : State) (pc : Word) : (s.retired pc).rest = s.rest := by
  unfold State.retired; dsimp only; split <;> simp

/-- Taking a fault changes no byte of any store. -/
theorem State.takeFault_rdByte (s : State) (st : StreamId) (tr : Trap) (pc w : Word) (n : Nat) (sp : Space) (a : Nat) :
    (s.takeFault st tr pc w n).rdByte sp a = s.rdByte sp a := by
  have key : ∀ (t : Task) (fs : List FaultRec), t.reg = s.task.reg → t.scr = s.task.scr → t.wb = s.task.wb →
      t.wbValid = s.task.wbValid → t.lid = s.task.lid → t.lcn = s.task.lcn →
      State.rdByte { s.withTask t with faults := fs } sp a = s.rdByte sp a := by
    intro t fs h1 h2 h3 h4 h5 h6
    have h := State.rdByte_withTask (s := s) (t := t) h1 h2 h3 h4 h5 h6 sp a
    cases sp <;> exact h
  unfold State.takeFault
  split <;> exact key _ _ rfl rfl rfl rfl rfl rfl

/-- Taking a fault adds one record, of its code, and nothing is taken out of the queue (R306). -/
theorem State.takeFault_faults_eq (s : State) (st : StreamId) (tr : Trap) (pc w : Word) (n : Nat) :
    (s.takeFault st tr pc w n).faults = s.faults ++ [faultRecord s.task st tr pc w n] := rfl

theorem State.trapHere_rdByte (s : State) (tr : Trap) (sp : Space) (a : Nat) :
    (s.trapHere tr).rdByte sp a = s.rdByte sp a := by
  unfold State.trapHere
  rw [State.takeFault_rdByte, State.rdByte_withCtl]

theorem State.retired_rdByte (s : State) (pc : Word) (sp : Space) (a : Nat) :
    (s.retired pc).rdByte sp a = s.rdByte sp a := by
  unfold State.retired
  dsimp only
  split
  · rw [State.takeFault_rdByte, State.rdByte_withCtl]
  · rw [State.rdByte_withCtl]

/-- Writing a G register changes no byte of any store. -/
theorem State.setG_rdByte (s : State) (d : BitVec 5) (v : Word) (sp : Space) (a : Nat) :
    (s.setG d v).rdByte sp a = s.rdByte sp a := State.rdByte_withCtl _ _ _ _

/-! ### Issuing a command -/

/-- What becomes of a command that meets its end at issue: nothing more, or it stops at once, with its fault (R241, log
entry 65). -/
theorem State.stopNow_cases (s : State) (e : EngId) :
    s.stopNow e = s ∨ ∃ f tr, (s.eng e).flight.getLast? = some f ∧ f.timed = true ∧ f.stop = some tr ∧
      s.stopNow e = s.stopAt e { f with stop := none, redo := true } tr 0 0 := by
  unfold State.stopNow
  split
  · exact .inl rfl
  · rename_i f hf
    split
    · rename_i tr htr
      split
      · rename_i ht; exact .inr ⟨f, tr, hf, ht, htr, rfl⟩
      · exact .inl rfl
    · exact .inl rfl

/-- All that an issue can do: nothing (not ready, or held), a fault at the head, or the command in flight. -/
theorem State.issue_cases {s t : State} {e : EngId} {h : CmdHead} {r : Res} {cost : State → Cost}
    {body : State → Except Trap (State × Issued)} (hs : s.issue e h r cost body = .next t) :
    t = s ∨ (∃ tr, t = s.failAt e tr) ∨
      ∃ q u i, s.mayGo e h r (cost s).lat q ∧ body s = .ok (u, i) ∧ i.held = false ∧
        t = u.issuedAs e h r q (cost s) i := by
  unfold State.issue State.issueAs at hs
  split at hs
  · injection hs with hs; exact .inr (.inl ⟨_, hs.symm⟩)
  · rename_i q hr hq
    split at hs
    · injection hs with hs; exact .inr (.inl ⟨_, hs.symm⟩)
    · rename_i u i hb
      split at hs
      · injection hs with hs; exact .inl hs.symm
      · rename_i hh
        injection hs with hs
        exact .inr (.inr ⟨q, u, i, ⟨hr, hq⟩, hb, by simpa using hh, hs.symm⟩)
  · injection hs with hs; exact .inl hs.symm

/-- An issue always has a next state. -/
theorem State.issue_next (s : State) (e : EngId) (h : CmdHead) (r : Res) (cost : State → Cost)
    (body : State → Except Trap (State × Issued)) : ∃ t, s.issue e h r cost body = .next t := by
  unfold State.issue State.issueAs
  split
  · exact ⟨_, rfl⟩
  · split
    · exact ⟨_, rfl⟩
    · split <;> exact ⟨_, rfl⟩
  · exact ⟨_, rfl⟩

/-- A command that is ready and whose checks pass goes into flight. -/
theorem State.issue_goes {s u : State} {e : EngId} {h : CmdHead} {r : Res} {cost : State → Cost} {q : QEnt} {i : Issued}
    {body : State → Except Trap (State × Issued)} (hg : s.mayGo e h r (cost s).lat q) (hb : body s = .ok (u, i))
    (hh : i.held = false) : s.issue e h r cost body = .next (u.issuedAs e h r q (cost s) i) := by
  unfold State.issue State.issueAs
  rw [hg.1, hg.2]
  simp only [hb, hh]
  rfl

/-- A command that reads a core that is not resident stays at the head (R75). -/
theorem State.issue_held {s u : State} {e : EngId} {h : CmdHead} {r : Res} {cost : State → Cost} {q : QEnt} {i : Issued}
    {body : State → Except Trap (State × Issued)} (hg : s.mayGo e h r (cost s).lat q) (hb : body s = .ok (u, i))
    (hh : i.held = true) : s.issue e h r cost body = .next s := by
  unfold State.issue State.issueAs
  rw [hg.1, hg.2]
  simp only [hb, hh]
  rfl

end Sys2Proof.Machine
end

