-- ==== Sys2Proof/Tests/Slice0.lean ====
section
/-! SUPPORT. Tests on fixed values, and for every statement with hypotheses a state and operands that meet them. Expected
results are the spec's worked words, or calculated by hand from the rule that a test names. -/

namespace Sys2Proof.Tests

open Sys2Proof Sys2Proof.Machine

set_option maxRecDepth 20000

/-! ### Helpers -/

/-- P0, not negated. -/
def q0 : Qual := ⟨0, false⟩

/-- A command head without IDLE and without waits. -/
def h0 : CmdHead := ⟨0, ⟨3, 0⟩, ⟨3, 0⟩, ⟨3, 0⟩⟩

/-- Control registers with three general registers. -/
def ctl0 : Ctl := { Ctl.blank with pc := 0x1000, chi := 0x2000, g := [(1, 5), (2, 7), (3, 0xFFFFFFFFFFFFFFFE)] }

/-- A resident task of launch 1 at core 0, and nothing else. -/
def base : State :=
  { State.reset with
    boot := .running
    cur := { Core.blank 0 with slot := .resident, task := { Task.blank with lid := 1, ctl := ctl0 } } }

/-- The base state with its control registers changed. -/
def withC (f : Ctl → Ctl) : State := base.withCtl (f base.ctl)

/-- The base state with general registers. -/
def withG (g : Sparse Word) : State := withC fun c => { c with g := g }

/-- The base state with its task changed. -/
def withT (f : Task → Task) : State := base.withTask (f base.task)

/-- What `f` sees after the instruction. -/
def after {α : Type} (i : Instr) (s : State) (f : State → α) : Option α :=
  match exec i s with
  | .next t => some (f t)
  | _ => none

/-- A register and PC. -/
def gp (r : BitVec 5) (t : State) : Nat × Nat := ((t.getG r).toNat, t.ctl.pc.toNat)

/-- The codes of the faults that have been recorded. -/
def codes (t : State) : List Nat := t.faults.map fun r => fld r.w0.toNat 0 8

/-- Codes and PC. -/
def cp (t : State) : List Nat × Nat := (codes t, t.ctl.pc.toNat)

/-! ### Well-formedness: a term that each check refuses -/

theorem test_wf_iinv_scope : (Instr.iinv q0 1 2 6 false).wf = false := by decide
theorem test_wf_iinv_whole : (Instr.iinv q0 1 0 0 true).wf = false := by decide
theorem test_wf_fork_none : (Instr.fork q0 1 1 1 8).wf = false := by decide
theorem test_wf_fork_unused : (Instr.fork q0 1 1 0 1).wf = false := by decide
theorem test_wf_twait : (Instr.twait q0 1 1 3 0).wf = false := by decide
theorem test_wf_bar : (Instr.bar q0 5 0).wf = false := by decide
theorem test_wf_barr : (Instr.barr q0 1 2 1 0 7 0).wf = false ∧ (Instr.barr q0 1 2 1 0 0 5).wf = false
    ∧ (Instr.barr q0 1 2 1 0 3 4).wf = false := by decide
theorem test_wf_bfx : (Instr.bfx q0 1 2 63 1 false).wf = false ∧ (Instr.bfi q0 1 2 32 32).wf = false := by decide
theorem test_wf_cmp : (Instr.cmp 1 2 1 (.reg 0) 12).wf = false ∧ (Instr.cmp 1 1 1 (.reg 0) 0).wf = false := by decide
theorem test_wf_fcmp : (Instr.fcmp 1 2 1 (.reg 0) 6).wf = false ∧ (Instr.fcmp 3 3 1 (.reg 0) 0).wf = false := by decide
theorem test_wf_pload : (Instr.pload q0 1 3).wf = false := by decide
theorem test_wf_ld : (Instr.ld q0 1 2 0 0 3 true 0).wf = false := by decide
theorem test_wf_lda : (Instr.lda q0 1 2 0 0 6 3 false 0 0).wf = false ∧ (Instr.stl q0 1 2 0 0 7 3 0 0).wf = false
    ∧ (Instr.lda q0 1 2 0 0 0 3 true 0 0).wf = false := by decide
theorem test_wf_fence : (Instr.fence q0 0 0 6).wf = false := by decide
theorem test_wf_wait : (Instr.mseed ⟨0, ⟨3, 1⟩, ⟨3, 0⟩, ⟨3, 0⟩⟩ 0).wf = false := by decide
theorem test_wf_rep : (Instr.rep .flume h0 0 0 0 0 0).wf = false := by decide
theorem test_wf_efence : (Instr.efence .flume h0 0 6).wf = false := by decide
theorem test_wf_winv : (Instr.winv h0 1 true).wf = false := by decide
theorem test_wf_fill : (Instr.fill h0 1 2 true).wf = false := by decide
theorem test_wf_unlisted : (Instr.opcodeNotListed 0).wf = false ∧ (Instr.engineOpcodeNotListed .flume 0).wf = false := by
  decide

/-! ### Decoding: words that the spec writes out -/

theorem test_word_system : decodeControl 0x0418_0000_4000_0000 = .ok (.spget q0 3 2)
    ∧ decodeControl 0x0501_C001_6000_0000 = .ok (.spset q0 7 11)
    ∧ decodeControl 0x0100_0040_0000_0000 = .ok (.halt ⟨1, false⟩) := by decide
theorem test_word_operand_registers : decodeControl 0x0C01_0004_9000_0000 = .ok (.tset q0 4 9 1)
    ∧ decodeControl 0x0D28_0004_9000_0000 = .ok (.tget q0 5 9 1)
    ∧ decodeControl 0x0E00_C004_0000_0000 = .ok (.patw q0 3 2) ∧ decodeControl 0x0F18_0004_0000_0000 = .ok (.patr q0 3 2)
    ∧ decodeControl 0x1002_0006_0000_0000 = .ok (.shpw q0 8 1 2)
    ∧ decodeControl 0x1140_0006_0000_0000 = .ok (.shpr q0 8 1 2) := by decide
theorem test_word_arithmetic : decodeControl 0x2008_8600_0000_0000 = .ok (.add q0 1 2 3)
    ∧ decodeControl 0x2008_86E0_0000_0000 = .ok (.add ⟨3, true⟩ 1 2 3)
    ∧ decodeControl 0x3510_C000_0000_0180 = .ok (.shri q0 2 3 12)
    ∧ decodeControl 0x3808_0000_0000_1FE0 = .ok (.limmh q0 1 0xFF) := by decide
theorem test_word_memory : decodeControl 0x5256_0001_1800_0400 = .ok (.lda q0 10 24 0 0 4 3 false 1 0)
    ∧ decodeControl 0x5352_4001_1800_0400 = .ok (.stl q0 10 9 0 0 4 3 1 0)
    ∧ decodeControl 0x510D_EA00_1800_0000 = .ok (.st q0 1 23 21 0 3 0) := by decide
theorem test_word_transfer : decodeControl 0x6020_FFFF_FFFF_FFFD = .ok (.prep 1 0 false (-3))
    ∧ decodeControl 0x6119_C000_0000_0000 = .ok (.prepr q0 3 7) ∧ decodeControl 0x622A_0000_0000_0000 = .ok (.xfer 1 2 true)
    ∧ decodeControl 0x6400_0000_0000_0000 = .ok (.ret q0) ∧ decodeControl 0x6548_0000_6000_0000 = .ok (.jget q0 9 3)
    ∧ decodeControl 0x6600_0000_6000_0000 = .ok (.jclr q0 3) := by decide
theorem test_word_commands : decodeEngine .matrix 0x0080_23C1_8041_49E0
      = .ok (.mma ⟨2, ⟨1, 3⟩, ⟨3, 0⟩, ⟨3, 0⟩⟩ 4 5 9 3 true false false)
    ∧ decodeEngine .flume 0x0038_E0C1_8040_0A10 = .ok (.rep .flume h0 1 2 4 1 0) := by decide
theorem test_word_matrix : decodeEngine .matrix 0x00C0_02C1_8041_4928
      = .ok (.mma ⟨3, ⟨0, 2⟩, ⟨3, 0⟩, ⟨3, 0⟩⟩ 4 5 9 0 true false true)
    ∧ decodeEngine .matrix 0x0000_E0C1_8000_0900 = .ok (.accz h0 9)
    ∧ decodeEngine .matrix 0x0001_60C1_8090_0A01 = .ok (.acccp h0 9 10 true)
    ∧ decodeEngine .matrix 0x0001_E0C1_8030_0600 = .ok (.wfill h0 3 6)
    ∧ decodeEngine .matrix 0x0002_60C1_8000_0001 = .ok (.winv h0 0 true)
    ∧ decodeEngine .matrix 0x0002_E0C1_8140_1500 = .ok (.part h0 20 21 false)
    ∧ decodeEngine .matrix 0x0003_60C1_8050_0C01 = .ok (.rank h0 5 12 true)
    ∧ decodeEngine .matrix 0x0003_E0C1_8050_0C07 = .ok (.topk h0 5 12 7 false)
    ∧ decodeEngine .matrix 0x0004_60C1_8090_0E01 = .ok (.drain h0 9 14 1) := by decide
theorem test_word_flume : decodeEngine .flume 0x0003_E0C1_8040_0A01 = .ok (.bcast h0 4 10 1)
    ∧ decodeEngine .flume 0x0005_60C1_8010_8300 = .ok (.cmpb h0 1 2 3)
    ∧ decodeEngine .flume 0x0002_E0C1_8030_0800 = .ok (.exp24 h0 3 8)
    ∧ decodeEngine .flume 0x0000_E0C1_8000_0601 = .ok (.fill h0 0 6 true)
    ∧ decodeEngine .flume 0x0004_60C1_8070_0000 = .ok (.fseed h0 7)
    ∧ decodeEngine .flume 0x0002_60C1_8031_091F = .ok (.gathp h0 3 4 9 15 true)
    ∧ decodeEngine .flume 0x0004_E0C1_8030_0000 = .ok (.pfetch h0 3) := by decide
theorem test_word_sluice : decodeEngine .sluice 0x0000_60C1_8010_8509 = .ok (.sacc h0 1 2 5 true 1)
    ∧ decodeEngine .sluice 0x0000_E0C1_8010_C600 = .ok (.sfetch h0 1 3 6 false 0)
    ∧ decodeEngine .sluice 0x0001_60C1_8011_0600 = .ok (.scas h0 1 4 6 false)
    ∧ decodeEngine .sluice 0x0001_E0C1_8010_0700 = .ok (.bset h0 1 7 false)
    ∧ decodeEngine .sluice 0x0002_60C1_8010_0700 = .ok (.bclr h0 1 7 false)
    ∧ decodeEngine .sluice 0x0002_E0C1_8012_0701 = .ok (.btest h0 1 8 7 false true)
    ∧ decodeEngine .sluice 0x0003_60C1_8010_0500 = .ok (.cinc h0 1 5 false)
    ∧ decodeEngine .sluice 0x0003_E0C1_8060_0500 = .ok (.cmerge h0 6 5)
    ∧ decodeEngine .sluice 0x0004_60C1_8050_0900 = .ok (.cread h0 5 9)
    ∧ decodeEngine .sluice 0x0004_E0C1_8070_0000 = .ok (.sseed h0 7) := by decide
theorem test_word_reserved : decodeControl 0x2008_8600_0000_0001 = .error .reservedField
    ∧ decodeControl 0x4028_80C8_0000_0320 = .error .reservedCode
    ∧ decodeControl 0x7000_0000_0000_0001 = .ok (.opcodeNotListed 0x7000_0000_0000_0001) := by decide

/-! ### Control core: integers (R136 to R141) -/

theorem test_add : after (.add q0 4 1 3) base (gp 4) = some (3, 0x1008) := by decide
theorem test_add_g0 : after (.add q0 0 1 2) base (gp 0) = some (0, 0x1008) := by decide
theorem test_sub : after (.sub q0 4 1 2) base (gp 4) = some (2 ^ 64 - 2, 0x1008) := by decide
theorem test_and : after (.and q0 4 1 2) base (gp 4) = some (5, 0x1008) := by decide
theorem test_or : after (.or q0 1 1 2) base (gp 1) = some (7, 0x1008) := by decide
theorem test_xor : after (.xor q0 4 1 2) base (gp 4) = some (2, 0x1008) := by decide
theorem test_andn : after (.andn q0 4 2 1) base (gp 4) = some (2, 0x1008) := by decide
theorem test_shl : after (.shl q0 4 1 2) base (gp 4) = some (640, 0x1008) := by decide
theorem test_shl_by_64 : after (.shl q0 4 1 2) (withG [(1, 5), (2, 64)]) (gp 4) = some (5, 0x1008) := by decide
theorem test_shr : after (.shr q0 4 3 2) base (gp 4) = some (2 ^ 57 - 1, 0x1008) := by decide
theorem test_sar : after (.sar q0 4 3 1) base (gp 4) = some (2 ^ 64 - 1, 0x1008) := by decide
theorem test_min : after (.min q0 false 4 1 3) base (gp 4) = some (2 ^ 64 - 2, 0x1008) := by decide
theorem test_min_u : after (.min q0 true 4 1 3) base (gp 4) = some (5, 0x1008) := by decide
theorem test_max : after (.max q0 false 4 1 3) base (gp 4) = some (5, 0x1008) := by decide
theorem test_max_u : after (.max q0 true 4 1 3) base (gp 4) = some (2 ^ 64 - 2, 0x1008) := by decide
theorem test_mul : after (.mul q0 4 2 3) base (gp 4) = some (2 ^ 64 - 14, 0x1008) := by decide
theorem test_mulh : after (.mulh q0 false 4 2 3) base (gp 4) = some (2 ^ 64 - 1, 0x1008) := by decide
theorem test_mulh_u : after (.mulh q0 true 4 2 3) base (gp 4) = some (6, 0x1008) := by decide
theorem test_div_by_zero : after (.div q0 false 4 1 0) base (gp 4) = some (2 ^ 64 - 1, 0x1008) := by decide
theorem test_div_truncates : after (.div q0 false 4 2 3) base (gp 4) = some (2 ^ 64 - 3, 0x1008) := by decide
theorem test_rem_by_zero : after (.rem q0 true 4 2 0) base (gp 4) = some (7, 0x1008) := by decide
theorem test_rem_sign : after (.rem q0 false 4 3 1) base (gp 4) = some (2 ^ 64 - 2, 0x1008) := by decide
theorem test_csel : after (.csel q0 4 1 2 0 true) base (gp 4) = some (7, 0x1008) := by decide
theorem test_addi : after (.addi q0 4 1 (-8)) base (gp 4) = some (2 ^ 64 - 3, 0x1008) := by decide
theorem test_andi : after (.andi q0 4 3 (-1)) base (gp 4) = some (2 ^ 64 - 2, 0x1008) := by decide
theorem test_ori : after (.ori q0 4 1 8) base (gp 4) = some (13, 0x1008) := by decide
theorem test_xori : after (.xori q0 4 1 (-1)) base (gp 4) = some (2 ^ 64 - 6, 0x1008) := by decide
theorem test_shli : after (.shli q0 4 1 63) base (gp 4) = some (2 ^ 63, 0x1008) := by decide
theorem test_shri : after (.shri q0 4 3 60) base (gp 4) = some (15, 0x1008) := by decide
theorem test_sari : after (.sari q0 4 3 63) base (gp 4) = some (2 ^ 64 - 1, 0x1008) := by decide
theorem test_limm : after (.limm q0 4 (-2)) base (gp 4) = some (2 ^ 64 - 2, 0x1008) := by decide
theorem test_limmh : after (.limmh q0 3 0xFF) base (gp 3) = some (0xFFFFFFFFFE, 0x1008) := by decide
theorem test_bfx : after (.bfx q0 4 3 0 3 true) base (gp 4) = some (2 ^ 64 - 2, 0x1008) := by decide
theorem test_bfi : after (.bfi q0 3 1 4 3) base (gp 3) = some (0xFFFFFFFFFFFFFF5E, 0x1008) := by decide
theorem test_rev : after (.rev q0 4 1 false) base (gp 4) = some (0xA000000000000000, 0x1008) := by decide
theorem test_rev_bytes : after (.rev q0 4 1 true) base (gp 4) = some (0x0500000000000000, 0x1008) := by decide
theorem test_clz : after (.clz q0 4 0) base (gp 4) = some (64, 0x1008) := by decide
theorem test_ctz : after (.ctz q0 4 3) base (gp 4) = some (1, 0x1008) := by decide
theorem test_popc : after (.popc q0 4 3) base (gp 4) = some (63, 0x1008) := by decide
theorem test_clmul : after (.clmul q0 false 4 1 2) base (gp 4) = some (27, 0x1008) := by decide
theorem test_clmul_h : after (.clmul q0 true 4 3 2) base (gp 4) = some (2, 0x1008) := by decide

/-! ### Control core: compares, predicates, FP32 (R142 to R150) -/

theorem test_cmp : after (.cmp 1 2 1 (.imm 100) 2) base (fun t => (t.getP 1, t.getP 2)) = some (true, false) := by decide
theorem test_cmp_unsigned : after (.cmp 1 0 1 (.imm (-1)) 5) base (fun t => (t.getP 1, t.getP 0)) = some (false, true) := by
  decide
theorem test_plog : after (.plog q0 3 0 1 0x4) base (fun t => t.getP 3) = some true := by decide
theorem test_psave : after (.psave q0 4) (withC fun c => { c with p := 0x0A }) (gp 4) = some (0x0B, 0x1008) := by decide
theorem test_pload : after (.pload q0 1 0x0C) (withC fun c => { c with p := 0x0A }) (fun t => t.ctl.psave % 256)
    = some 0x07 := by decide
theorem test_fadd : after (.fadd q0 4 1 2) (withG [(1, 0x3F800000), (2, 0x33800000)]) (gp 4)
    = some (0x3F800000, 0x1008) := by decide
theorem test_fsub : after (.fsub q0 4 1 1) (withG [(1, 0x7F800000)]) (gp 4) = some (0x7FC00000, 0x1008) := by decide
theorem test_fmul : after (.fmul q0 4 1 2) (withG [(1, 0x40400000), (2, 0xBF000000)]) (gp 4)
    = some (0xBFC00000, 0x1008) := by decide
theorem test_ffma : after (.ffma q0 4 1 2) (withG [(1, 0x40000000), (2, 0x40400000), (4, 0x3F800000)]) (gp 4)
    = some (0x40E00000, 0x1008) := by decide
theorem test_fmin : after (.fmin q0 4 1 2) (withG [(2, 0x80000000)]) (gp 4) = some (0x80000000, 0x1008) := by decide
theorem test_fmax : after (.fmax q0 4 1 2) (withG [(1, 0x7FC00001), (2, 0x3F800000)]) (gp 4)
    = some (0x3F800000, 0x1008) := by decide
theorem test_fcmp : after (.fcmp 1 2 1 (.imm 0x80000000) 0) (withG []) (fun t => (t.getP 1, t.getP 2))
    = some (true, false) := by decide
theorem test_fcvt_from_int : after (.fcvt q0 4 3 0) base (gp 4) = some (0xC0000000, 0x1008) := by decide
theorem test_fcvt_bf16 : after (.fcvt q0 4 1 3) (withG [(1, 0x3F80)]) (gp 4) = some (0x3F800000, 0x1008) := by decide

/-! ### Control core: memory and transfers (R151 to R163) -/

/-- Registers that point into the register-space window, and bytes there. -/
def regs : State :=
  withT fun t => { t with
    reg := [(8, 0x34), (9, 0x12), (15, 0x80)]
    ctl := { t.ctl with g := [(1, 0xFF80000000000008), (2, 0x1122334455667788)] } }

theorem test_ld_little_endian : after (.ld q0 4 1 0 0 1 false 0) regs (gp 4) = some (0x1234, 0x1008) := by decide
theorem test_ld_sign : after (.ld q0 4 1 0 0 0 true 7) regs (gp 4) = some (2 ^ 64 - 0x80, 0x1008) := by decide
theorem test_ld_align : after (.ld q0 4 1 0 0 1 false 1) regs cp = some ([0x0A], 0x1000) := by decide
theorem test_lda : after (.lda q0 4 1 0 0 0 3 false 1 0) regs (gp 4) = some (0x8000000000001234, 0x1008) := by decide
theorem test_st : after (.st q0 2 1 0 0 1 4) regs (fun t => (t.task.reg, codes t))
    = some ([(8, 0x34), (9, 0x12), (12, 0x88), (13, 0x77), (15, 0x80)], []) := by decide
theorem test_st_zero : after (.st q0 0 1 0 0 1 0) regs (fun t => t.task.reg) = some [(15, 0x80)] := by decide
theorem test_stl : after (.stl q0 2 1 0 0 0 0 1 0) regs (fun t => t.task.reg) = some [(8, 0x88), (9, 0x12), (15, 0x80)] := by
  decide
theorem test_ld_no_window : after (.ld q0 4 1 0 0 3 false 0) (withG [(1, 0xFF40000000000000)]) cp
    = some ([0x0B], 0x1000) := by decide
theorem test_pref : after (.pref q0 1 0 0) base cp = some ([], 0x1008) := by decide
theorem test_fence : after (.fence q0 4 8 1) base cp = some ([], 0x1008) := by decide
theorem test_prep : after (.prep 1 0 false (-3)) base (fun t => (t.ctl.getJ 1).taddr.toNat) = some 0xFE8 := by decide
theorem test_prepr : after (.prepr q0 3 2) base (fun t => ((t.ctl.getJ 3).taddr.toNat, (t.ctl.getJ 3).st))
    = some (0, .fetching) := by decide
theorem test_xfer : after (.xfer 1 0 false) (withC fun c => { c with j := [(1, ⟨0x1200, .ready, []⟩)] }) cp
    = some ([], 0x1200) := by decide
theorem test_xfer_unprepared : after (.xfer 1 0 false) base cp = some ([0x03], 0x1000) := by decide
theorem test_xcall_no_stack : after (.xcall 1 0 false) (withC fun c => { c with j := [(1, ⟨0x1200, .ready, []⟩)] }) cp
    = some ([0x05], 0x1000) := by decide
theorem test_ret_limit : after (.ret q0) (withC fun c => { c with ssp := 0x10000 }) cp = some ([0x05], 0x1000) := by decide
theorem test_jget : after (.jget q0 4 1) (withC fun c => { c with j := [(1, ⟨0x1200, .stale, []⟩)] }) (gp 4)
    = some (0x1203, 0x1008) := by decide
theorem test_jclr : after (.jclr q0 1) (withC fun c => { c with j := [(1, ⟨0x1200, .ready, []⟩)] })
    (fun t => ((t.ctl.getJ 1).taddr.toNat, (t.ctl.getJ 1).st)) = some (0x1200, .empty) := by decide
theorem test_prefetch_stale : after (.prefetchComplete 1) (withC fun c => { c with j := [(1, ⟨0x1200, .fetching, []⟩)] })
    (fun t => ((t.ctl.getJ 1).st, codes t)) = some (.stale, []) := by decide

/-! ### Control core: system (R164 to R176) -/

theorem test_nop_squashed : after (.nop ⟨1, false⟩) base cp = some ([], 0x1008) := by decide
theorem test_nop_step : after (.nop q0) (withC fun c => { c with step := true }) cp = some ([0x08], 0x1008) := by decide
theorem test_halt : after (.halt q0) base (fun t => t.cur.slot) = some .empty := by decide
theorem test_trap : after (.trap q0 0x0E01) base (fun t => (cp t, t.faults.map fun r => fld r.w0.toNat 48 16))
    = some (([0x07], 0x1008), [0x0E01]) := by decide
theorem test_brk : after .brk base cp = some ([0x06], 0x1000) := by decide
theorem test_spget_devinfo : after (.spget q0 4 0) base (gp 4) = some (0x0C04480810, 0x1008) := by decide
theorem test_spget_wallclk : after (.spget q0 4 10) base cp = some ([0x17], 0x1000) := by decide
theorem test_spset : after (.spset q0 1 11) (withC fun c => { c with ssl := 0x10000, ssp := 0x10000, g := [(1, 0x20000)] })
    (fun t => (t.ctl.ssp.toNat, codes t)) = some (0x20000, []) := by decide
theorem test_spset_above : after (.spset q0 1 11)
    (withC fun c => { c with ssl := 0x10000, ssp := 0x10000, g := [(1, 0x20008)] })
    (fun t => (t.ctl.ssp.toNat, codes t)) = some (0x10000, [0x17]) := by decide
theorem test_iinv : after (.iinv q0 1 2 0 false) base (fun t => (t.ctl.waiting, t.iinvs.map (·.todo)))
    = some (true, [[0]]) := by decide
theorem test_iinv_point : after (.iinvInvalidationPoint 1)
    { withC (fun c => { c with j := [(1, ⟨0x1200, .ready, []⟩)] }) with iinvs := [⟨1, 1, 0, 0, 0, 0, true, false, [0]⟩] }
    (fun t => ((t.ctl.getJ 1).st, t.iinvs.map (·.todo))) = some (.stale, [[]]) := by decide
theorem test_prime_unpins : after (.prime q0 1 0) (withT fun t => { t with
      ctl := { t.ctl with g := [] }, pins := [(0, ⟨16, 0, 0, false, true, true, true, true⟩)] })
    (fun t => (t.task.pins.length, codes t)) = some (0, []) := by decide
theorem test_prime_too_many : after (.prime q0 1 2) (withG [(2, 257)]) cp = some ([0x10], 0x1000) := by decide
theorem test_fork : after (.fork q0 0 1 0 1) (withG [(1, 0xFF80000001000000)])
    (fun t => (t.task.m.running, t.task.m.countdown, t.task.f.running, t.ctl.frame)) = some (true, 64, false, true) := by
  decide
theorem test_fork_align : after (.fork q0 0 1 0 1) (withG [(1, 0xFF80000001000004)]) cp = some ([0x0A], 0x1000) := by decide
theorem test_join : after (.join q0 4) (withT fun t => { t with
      ctl := { t.ctl with frame := true, pending := 0x10 }, m := { Eng.idle with ran := true, sat := true } })
    (fun t => ((t.getG 4).toNat, t.ctl.frame, t.ctl.pending.toNat)) = some (0x19, false, 0) := by decide
theorem test_join_waits : after (.join q0 4) (withT fun t => { t with m := { Eng.idle with running := true } })
    (fun t => (t.ctl.waiting, t.ctl.pc.toNat)) = some (true, 0x1000) := by decide
theorem test_twait_never_forked : after (.twait q0 4 1 0 0) base (gp 4) = some (4, 0x1008) := by decide
theorem test_twait_done : after (.twait q0 4 0 1 3)
    (withT fun t => { t with f := { Eng.idle with forked := true, seq := 4, toks := [⟨3, 9, true, true⟩] } }) (gp 4)
    = some (2, 0x1008) := by decide
theorem test_qcancel : after (.qcancel q0 1) (withT fun t => { t with
      m := { Eng.idle with running := true, forked := true, queue := [⟨0, 0⟩] } })
    (fun t => (t.task.m.running, t.task.m.queue.length, t.task.m.can)) = some (false, 0, true) := by decide
theorem test_tset : after (.tset q0 1 63 7) base (fun t => (t.task.tword 63 7).toNat) = some 5 := by decide
theorem test_tset_timed : after (.tset q0 1 63 7) (withC fun c => { c with frame := true, timed := true }) cp
    = some ([0x13], 0x1000) := by decide
theorem test_tget : after (.tget q0 4 63 7) (withT fun t => { t with t := [(511, 9)] }) (gp 4) = some (9, 0x1008) := by decide
theorem test_patw : after (.patw q0 1 15) base (fun t => (t.task.patReg 15).toNat) = some 5 := by decide
theorem test_patr : after (.patr q0 4 15) (withT fun t => { t with pat := [(15, 9)] }) (gp 4) = some (9, 0x1008) := by decide
theorem test_shpw : after (.shpw q0 1 7 3) base (fun t => (t.task.shapeWord 7 3).toNat) = some 5 := by decide
theorem test_shpr : after (.shpr q0 4 7 3) (withT fun t => { t with sh := [(31, 9)] }) (gp 4) = some (9, 0x1008) := by decide
theorem test_bar_core : after (.bar q0 0 0) base cp = some ([], 0x1008) := by decide
theorem test_bar_arrives : after (.bar q0 1 5) base (fun t => (t.ctl.waiting, t.arrivals.map (·.bid))) = some (true, [5]) := by
  decide
theorem test_barr_core : after (.barr q0 1 2 0 0 0 0) (withT fun t => { t with
      reg := [(3, 7)], ctl := { t.ctl with g := [(1, 0xFF80000000000000), (2, 0xFF80000000000040)] } })
    (fun t => (t.task.reg, t.ctl.pc.toNat)) = some ([(3, 7), (67, 7)], 0x1008) := by decide
theorem test_launch_align : after (.launch q0 4 1) base cp = some ([0x0A], 0x1000) := by decide
theorem test_launch : after (.launch q0 4 1) (withT fun t => { t with
      reg := [(24, 1), (40, 0x10)], ctl := { t.ctl with g := [(1, 0xFF80000000000000)] } })
    (fun t => (gp 4 t, codes t, t.launches.map (·.lid))) = some ((1, 0x1008), [], [1]) := by decide
theorem test_opcode_not_listed : after (.opcodeNotListed 0x7000000000000000) base cp = some ([0x01], 0x1000)
    ∧ after (.opcodeNotListed 0x8000000000000000) base cp = some ([0x02], 0x1000) := by decide

/-! ### Engine commands (chapters 10 to 17) -/

/-- A tack entry's first three words: KIND, FMT, LAYOUT, ROWS, COLS, the low 16 bits of W0; the base; ROWSTRIDE (R40 to
R42). -/
def ent (tid kind fmt layout rows cols lo base stride : Nat) : List (Nat × Word) :=
  [(8 * tid, BitVec.ofNat 64 (kind * 2 ^ 60 + fmt * 2 ^ 52 + layout * 2 ^ 48 + rows * 2 ^ 32 + cols * 2 ^ 16 + lo)),
    (8 * tid + 1, BitVec.ofNat 64 base), (8 * tid + 2, BitVec.ofNat 64 (stride * 2 ^ 32))]

/-- An engine whose elastic frame has run for 100 cycles, with one word at the head of its queue. -/
def eng0 : Eng :=
  { Eng.idle with
    mask := 7, started := true, cnt := 100, running := true, forked := true, ran := true, queue := [⟨0x1000, 0⟩], fid := 1 }

/-- A task whose three engines stand so, with tack entries and bytes in the register space and the scratchpad: 2 and 3 at
0 and 1, 4 and 5 at 0x100 and 0x101, the index list 1, 0 at 0x300, and 0x11 to 0x14 at the start of the scratchpad. -/
def eng : State :=
  { base with
    cur := { base.cur with
      task := { base.task with
        m := eng0, f := eng0, s := eng0
        t := spSetMany 0 []
          (ent 0 1 0x02 0 1 2 0xC000 0 64 ++ ent 1 1 0x02 0 2 1 0xC000 0x100 1 ++ ent 2 1 0x05 0 1 1 0xC010 0x200 64
            ++ ent 3 1 0x05 0 1 1 0xC010 0x240 64 ++ ent 4 2 0x03 0 1 4 0xC000 0 256 ++ ent 5 1 0x03 0 1 4 0xC000 0x280 64
            ++ ent 6 1 0x05 0 1 3 0x8000 0x400 64 ++ ent 7 1 0x05 0 1 4 0xC010 0x440 64
            ++ ent 8 1 0x03 0 1 2 0x8000 0x300 64 ++ ent 9 1 0x05 0 1 4 0xC000 0x480 64
            ++ ent 10 1 0x05 0 1 2 0xC000 0x4C0 64 ++ ent 11 1 0x20 0 1 32 0xC000 0x500 64
            ++ ent 12 8 0x05 0 1 1 0xC000 0 256 ++ ent 13 1 0x05 0 1 1 0xC000 0x540 64
            ++ ent 14 4 0x03 0 1 4 0xC000 0 256 ++ ent 15 2 0x12 0 1 1 0xC000 0x100 256
            ++ ent 16 2 0x03 0 2 1 0x8000 0 1 ++ ent 17 1 0x03 0 2 1 0xC000 0x2A0 1 ++ ent 18 2 0x05 0 1 4 0xC000 0x40 256
            ++ ent 19 1 0x05 0 2 2 0xC000 0x4C0 8 ++ ent 20 2 0x20 0 1 32 0xC000 0x80 256
            ++ ent 21 7 0x30 0 1 16 0xC000 0xC0 256 ++ [(171, 0x2000000000)]
            ++ ent 22 7 0x30 0 1 16 0xC000 0xD0 256 ++ [(179, 0x2000000000)] ++ ent 23 1 0x05 0 1 16 0xC000 0x700 64
            ++ ent 24 1 0x03 0 2 1 0x8000 0x600 1 ++ ent 25 1 0x03 0 4 1 0xC000 0x640 1 ++ ent 26 2 0x21 0 1 4 0x8000 0 256
            ++ ent 27 3 0x03 0 1 1 0x8000 0x10000 64 ++ ent 28 8 0x03 0 1 4 0xC000 0x20 256
            ++ ent 29 1 0x03 0 2 1 0xC000 0x6C0 1)
        reg := spSetMany emptyByte []
          [(0, 2), (1, 3), (0x100, 4), (0x101, 5), (0x300, 1), (0x400, 9), (0x404, 2), (0x408, 9), (0x4C0, 7), (0x4C4, 5),
            (0x540, 1),
            (0x600, 6), (0x601, 7), (0x603, 1)]
        scr := [(0, 0x11), (1, 0x12), (2, 0x13), (3, 0x14)] } } }

/-- The bytes that the newest flight of an engine will write, and how often the engine has issued. -/
def flown (e : EngId) (t : State) : Nat × List (Nat × Nat) :=
  ((t.eng e).seq, ((t.eng e).flight.flatMap (·.writes)).map fun w => (w.at_, w.val.toNat))

theorem test_mma : after (.mma h0 0 1 2 0 false false false) eng (flown .matrix)
    = some (1, [(0x200, 23), (0x201, 0), (0x202, 0), (0x203, 0)]) := by decide
theorem test_accz : after (.accz h0 2) eng (flown .matrix) = some (1, [(0x200, 0), (0x201, 0), (0x202, 0), (0x203, 0)]) := by
  decide
theorem test_rank : after (.rank h0 6 7 false) eng
    (fun t => (((t.eng .matrix).flight.flatMap (·.writes)).map (·.val)).filter (· ≠ 0)) = some [2, 1] := by decide
theorem test_topk : after (.topk h0 6 7 1 false) eng
    (fun t => (((t.eng .matrix).flight.flatMap (·.writes)).map (·.val)).filter (· ≠ 0)) = some [2] := by decide
theorem test_part : after (.part h0 6 7 false) eng
    (fun t => (((t.eng .matrix).flight.flatMap (·.writes)).map (·.val)).filter (· ≠ 0)) = some [1, 2, 3] := by decide
theorem test_mseed : after (.mseed h0 13) eng (fun t => (spGet seedZero t.task.drainGen 0, spGet seedZero t.task.drainGen 1))
    = some (1, 0x9E3779B8) := by decide
theorem test_drain : after (.drain h0 3 13 0) eng (flown .matrix)
    = some (1, [(0x540, 0), (0x541, 0), (0x542, 0), (0x543, 0)]) := by decide
theorem test_wfill : after (.wfill h0 4 14) eng (fun t => (t.eng .matrix).flight.map fun f => (f.land, f.op))
    = some [(141, .weight 0 4 [(0, 0x11), (1, 0x12), (2, 0x13), (3, 0x14)] [])] := by decide
theorem test_copy : after (.copy h0 4 5) eng (flown .flume)
    = some (1, [(0x280, 0x11), (0x281, 0x12), (0x282, 0x13), (0x283, 0x14)]) := by decide
theorem test_fill : after (.fill h0 0 5 true) eng (flown .flume)
    = some (1, [(0x280, 0), (0x281, 0), (0x282, 0), (0x283, 0)]) := by decide
theorem test_gather : after (.gather h0 16 8 17 false) eng (flown .flume) = some (1, [(0x2A0, 0x12), (0x2A1, 0x11)]) := by
  decide
theorem test_scatter : after (.scatter h0 16 8 17 false) eng (flown .flume) = some (1, [(0x2A1, 0x11), (0x2A0, 0x12)]) := by
  decide
theorem test_exp24 : after (.exp24 h0 24 25) eng (flown .flume)
    = some (1, [(0x640, 6), (0x641, 7), (0x642, 0), (0x643, 0)]) := by decide
theorem test_putr : after (.putr h0 13 12 0) eng (fun t => (t.eng .flume).reqs.map fun r => (r.tag, r.op))
    = some [(0, .putr 0 0x05 [⟨[0, 1, 2, 3], 0, 32, 1, false⟩])] := by decide
theorem test_bcast : after (.bcast h0 4 28 0) eng (flown .flume)
    = some (1, [(0x20, 0x11), (0x21, 0x12), (0x22, 0x13), (0x23, 0x14)]) := by decide
theorem test_cmpb : after (.cmpb h0 26 26 13) eng (flown .flume)
    = some (1, [(0x540, 0xFF), (0x541, 0xFF), (0x542, 0), (0x543, 0)]) := by decide
theorem test_fseed : after (.fseed h0 13) eng (fun t => spGet seedZero t.task.flumeGen 0) = some 1 := by decide
theorem test_sacc_index : after (.sacc h0 8 10 18 false 0) eng
    (fun t => (t.eng .sluice).flight.map fun f => match f.op with | .slu op => (op.idx, op.vals) | _ => ([], []))
    = some [([1, 0], [7, 5])] := by decide
theorem test_sseed : after (.sseed h0 13) eng (fun t => t.task.sluGen) = some 1 := by decide
theorem test_cinc_d2 : after (.cinc h0 8 21 false) { eng with d4 := false } codes = some [0x02] := by decide
theorem test_issue_tack : after (.copy h0 63 5) eng codes = some [0x0D] := by decide
theorem test_idle : after (.idle .flume h0 1000) eng (fun t => ((t.eng .flume).stamp, (t.eng .flume).seq)) = some (1001, 1) := by
  decide
theorem test_end : after (.endStream .flume h0) eng (fun t => ((t.eng .flume).running, (t.eng .flume).toks.map (·.done)))
    = some (false, [true]) := by decide
theorem test_efence : after (.efence .flume h0 1 0) eng (fun t => ((t.eng .flume).hold, (t.eng .flume).seq)) = some (some 0, 1) := by
  decide
theorem test_engine_opcode : after (.engineOpcodeNotListed .flume (0x40 * 2 ^ 47)) eng codes = some [0x02]
    ∧ after (.engineOpcodeNotListed .flume (0x20 * 2 ^ 47)) eng codes = some [0x01] := by decide

/-- An issued command of the flume that is due. -/
def flight0 : Flight :=
  { seq := 0, pc := 0x1000, word := 0, timed := false, land := 100, writes := [⟨.reg, 0x280, 0xFF, 0x11⟩], flags := []
    acc := false, op := .none, seedAfter := none, stop := none, ranges := [], cls := 0, age := 0, redo := false, units := []
    cont := 1, scont := 1, scales := [], seen := [] }

/-- The state with that flight in the engine `e`, its token not done. -/
def flying (e : EngId) (f : Flight) : State :=
  eng.setEng e { eng0 with seq := 1, toks := [⟨0, 1, false, false⟩], flight := [f], queue := [] }

theorem test_lands : after (.commandLands .flume 0) (flying .flume flight0)
    (fun t => (t.rdByte .reg 0x280, (t.eng .flume).toks.map (·.done), (t.eng .flume).flight.length)) = some (0x11, [true], 0) := by
  decide
theorem test_lands_sacc : after (.commandLands .sluice 0)
    (flying .sluice { flight0 with writes := [], op := .slu ⟨.sacc 0, [1, 0, 1], [7, 5, 1], [], ⟨eng.task.entry 18, 0⟩, View.none_, 0, 3, [], [], [], []⟩ })
    (fun t => (t.rdNat .scr 0x40 4, t.rdNat .scr 0x44 4)) = some (5, 8) := by decide
theorem test_sequencer_fetch : after (.sequencerFetch .flume)
    (eng.setEng .flume { eng0 with queue := [], pc := 0xFF80000001000000, rlo := 0xFF80000001000000, rhi := 0xFF80000001200000 })
    (fun t => (t.eng .flume).queue) = some [⟨0xFF80000001000000, 0x14131211⟩] := by decide
theorem test_frame_start : after (.frameStart .matrix) (eng.setEng .matrix { eng0 with started := false, cnt := 0 })
    (fun t => (t.eng .matrix).started) = some true := by decide
theorem test_remote_timeout : after (.remoteTimeout .control)
    (withC fun c => { c with remote := some 0xFF00000001000000, remoteAge := 14000000 }) cp = some ([0x15], 0x1000) := by decide

/-! ### The headgate, the firmware, the hypervisor (chapters 19 to 21) -/

/-- A record of one task that breaks no rule (R291). -/
def rec0 : LaunchWords := ⟨0, 0x77, 0, 1, 0, 0x10, 0, 0⟩

/-- An active launch of that record. -/
def launch0 : Launch := ⟨1, 0, 0, rec0, .active, [], 0⟩

/-- A BIND record for core 0. -/
def bind0 : BindRec :=
  { die := 0, action := 1, commit := true, groupn := 1, tag := 3, pcore := 0, lid := 1, status := 0, virt := false
    gshape := 0, lcn := 0, addr := 0x5000, started := false }

/-- A partition with cores 0 to 3, whose page-table root lies at 0. -/
def part0 : Partition := { fetchPart 0 0 0 with cores := [0, 1, 2, 3], ring := 0x8000, ringSlots := 2, directory := 0x9000 }

/-- A booted package with that partition, an active launch, and nothing resident. -/
def pkg0 : State := { State.reset with boot := .running, parts := [part0], launches := [launch0] }

theorem test_launch_call : after (.hypervisorLaunchCall 0 ⟨0, false⟩ rec0) pkg0 (fun t => (t.nextLid, t.launches.map (·.st)))
    = some (2, [.active, .queued]) := by decide
theorem test_launch_call_bad : after (.hypervisorLaunchCall 0 ⟨0, false⟩ { rec0 with w6 := 1 }) pkg0 (·.nextLid) = some 1 := by decide
theorem test_dispatch : after (.launchDispatch 0 0) { pkg0 with launches := [{ launch0 with st := .queued }] }
    (fun t => (t.launches.map (·.st), t.gangs.map (·.st))) = some ([.active], [.ready]) := by decide
theorem test_bind : after (.bind 0) { pkg0 with binds := [bind0] } (fun t => (t.cur.staged, t.cur.fillFrom, t.cur.slot))
    = some (.filling, 0x5000, .empty) := by decide
theorem test_resume : after (.resume 0) { pkg0 with binds := [{ bind0 with action := 2 }] } (fun t => (t.cur.staged, t.cur.fillCtx))
    = some (.filling, true) := by decide
theorem test_bind_other : after (.bindActionOther 0) { pkg0 with binds := [{ bind0 with action := 9 }] }
    (fun t => t.binds.map (·.status)) = some [3] := by decide
theorem test_preempt : after (.preempt 0)
    { base with launches := [launch0], binds := [{ bind0 with action := 3 }] } (fun t => (t.cur.slot, t.cur.saveTo))
    = some (.saving, 0x5000) := by decide
theorem test_kill : after (.kill 0) { base with launches := [launch0], binds := [{ bind0 with action := 4 }] }
    (fun t => (t.cur.slot, t.launches.map (·.st))) = some (.empty, [.finished]) := by decide
theorem test_gang_swap : after (.gangSwap 3)
    { pkg0 with
      binds := [{ bind0 with started := true }]
      cur := { Core.blank 0 with staged := .staged, stagedTag := 3, stagedTask := { Task.blank with lid := 1, lcn := 0 } } }
    (fun t => (t.cur.slot, t.cur.released, t.binds.map (·.status))) = some (.resident, true, [1]) := by decide
theorem test_quantum : after (.quantumExpiry 1 0)
    { base with
      now := 3500000, launches := [launch0], parts := [part0]
      gangs := [⟨1, 0, .resident, 0, 0, false, []⟩, ⟨1, 1, .ready, 0, 0, false, []⟩] }
    (fun t => (t.gangs.map (·.st), t.binds.map (·.action))) = some ([.saving, .ready], [3]) := by decide
theorem test_aging : after (.agingPromotion 1 0)
    { base with now := 14000000, launches := [launch0], parts := [part0], gangs := [⟨1, 0, .ready, 2, 0, false, []⟩] }
    (fun t => t.gangs.map (·.level)) = some [3] := by decide
theorem test_delivery : after (.faultRecordDelivery 0) { pkg0 with faults := [launchFault 0 9] }
    (fun t => (t.rdNat .mem 0x8008 8, t.rdByte .mem 0x8000, t.faults.length, t.parts.map (·.ringAt))) = some (9, 0x18, 0, [1]) := by
  decide
theorem test_continue : after (.taskContinue 1 0) { withT (fun t => { t with parkAll := true }) with launches := [launch0] }
    (fun t => t.task.parkAll) = some false := by decide
theorem test_edit_emulated : after (.taskEdit (.emulated .flume 0 [] false false)) (eng.withTask { eng.task with parkAll := true })
    (fun t => ((t.eng .flume).seq, (t.eng .flume).queue.length)) = some (1, 0) := by decide
theorem test_edit_unknown : after (.taskEdit (.unknownWord .control))
    (withT fun t => { t with parkAll := true, recs := [{ launchFault 0 1 with w0 := 0x1002 }] }) codes = some [0x01] := by
  decide
theorem test_shootdown : after (.shootdown 0 0x10000 0x20000)
    (withT fun t => { t with tlb := [(0x10000, ⟨16, 0, 0, false, true, true, true, true⟩), (0x20000, ⟨16, 0, 0, false, true, true, true, true⟩)] })
    (fun t => t.task.tlb.map (·.1)) = some [0x20000] := by decide
theorem test_power_reserved : after (.powerRequest 0 false (1#64 <<< 40)) pkg0 (fun t => t.parts.map (·.tolNs)) = some [0] := by
  decide
theorem test_power : after (.powerRequest 0 false 2000) { base with parts := [part0] }
    (fun t => (t.parts.map (·.tolNs), t.power)) = some ([2000], .s0) := by decide
theorem test_power_exit : after .powerStateExit { pkg0 with power := .s2, exitAt := some 262500, now := 262500 }
    (fun t => (t.power, t.exitAt)) = some (.s0, none) := by decide
theorem test_weir : after (.weirSample 3 true (2 ^ 21)) pkg0 (fun t => spGet 0 t.weir 3) = some (2 ^ 20) := by decide
theorem test_boot : after .boot { State.reset with flash := ⟨1, 5, true, true⟩ } (fun t => (t.boot, t.fw.measure))
    = some (.running, 5) := by decide
theorem test_boot_recovery : after .boot State.reset (·.boot) = some .recovery := by decide
theorem test_update_rollback : after (.firmwareUpdate ⟨1, 0, true, true⟩ false) { pkg0 with rollback := 2 } (·.rollback) = some 2 := by
  decide
theorem test_attestation : after (.attestationRequest 0 [1, 2]) pkg0 (fun t => t.reports.map (·.nonce)) = some [[1, 2]] := by decide
theorem test_scale_out_pause : after (.scaleOutFrameReceive 7 true [0, 1])
    { pkg0 with rings := [⟨7, 0, 0x10000, 0x20000, 2, 0, 0, 0, []⟩] } (fun t => t.rings.map (·.paused)) = some [2] := by decide
theorem test_load_conflict : after (.codeObjectLoad 0 ⟨1, [], [], [(1, 1, 0)], [⟨5, 0x100⟩], [], [], false⟩)
    { pkg0 with parts := [{ part0 with objects := [⟨0, [], [], [(1, 1, 0)], [⟨5, 0x200⟩], [], [], false⟩] }] }
    (fun t => t.parts.map fun p => (p.lastLoad, p.objects.length)) = some [(2, 1)] := by decide
theorem test_lane_failure : after (.laneFailure 5) pkg0 (·.lanesDown) = some [5] := by decide
theorem test_flit_replay : after (.flitReplay 5) pkg0 (·.replays) = some 1 := by decide
theorem test_fatal_none : after (.fatalError 5 0) pkg0 (fun t => t.dumps.length) = some 0 := by decide
theorem test_barrier_departs : after (.barrierDeparture 1 1 0 5)
    { base with launches := [launch0], arrivals := [⟨1, 0, 1, 0, 5, false, 0, 0, [], 0⟩] }
    (fun t => (t.arrivals.length, t.departs.map (·.ok))) = some (0, [true]) := by decide

/-! ### Helpers for the witnesses -/

def canonT (t : Task) : Bool :=
  spWf 0 t.ctl.g && (spWf JReg.blank t.ctl.j && (spWf 0 t.t && (spWf 0 t.pat && (spWf 0 t.sh && (Memory.wf t.reg
    && (Memory.wf t.scr && (Memory.wf t.wb && spWf Flag.fresh t.flags)))))))

def canonB (s : State) : Bool := Memory.wf s.mem && s.cores.all fun c => canonT c.task && canonT c.stagedTask

theorem canon_of {s : State} (h : canonB s = true) : s.canonical := by
  simp only [canonB, canonT, Bool.and_eq_true, List.all_eq_true] at h
  exact ⟨h.1, fun c hc => h.2 c hc⟩

theorem ok_of {ε α β : Type} {x : Except ε α × β} (h : x.1.isOk = true) : ∃ a b, x = (.ok a, b) := by
  obtain ⟨a, b⟩ := x
  cases a with
  | error => cases h
  | ok a => exact ⟨a, b, rfl⟩

theorem error_of {ε α β : Type} {x : Except ε α × β} (h : x.1.isOk = false) : ∃ a b, x = (.error a, b) := by
  obtain ⟨a, b⟩ := x
  cases a with
  | error a => exact ⟨a, b, rfl⟩
  | ok => cases h

/-- No command is in flight on any core. -/
def stillB (s : State) : Bool := s.cores.all fun c => engines.all fun e => (c.task.eng e).flight.isEmpty

theorem still_of {s : State} (h : stillB s = true) : s.still := by
  simp only [stillB, List.all_eq_true, List.isEmpty_iff] at h
  exact fun c hc e => h c hc e (by cases e <;> simp [engines])

/-- No core beside the focused one is listed. -/
theorem ordered_of {s : State} (h : s.rest = []) : s.ordered := by simp [State.ordered, h]

theorem distinct_of {s : State} (h : s.rest = []) : s.distinct := by simp [State.distinct, State.cores, h]

theorem body_of {ε α : Type} {x : Except ε α} (h : x.isOk = true) : ∃ a, x = .ok a := by
  cases x with
  | error => cases h
  | ok a => exact ⟨a, rfl⟩

/-- The base state with one 1 GiB page from address 0, mapped by the given leaf entry of level 2 (R79, R80). -/
def mapped (leaf : Nat) (f : Ctl → Ctl) : State :=
  { withC f with
    parts := [fetchPart 0 0 0]
    mem := spSetMany emptyByte [] (numbered 0x80000000 (leBytes 8 0x80200001) ++ numbered 0x80200000 (leBytes 8 leaf)) }

/-- The same with a link address 0x1008 at 0x2FFF8. -/
def linked : State :=
  { mapped (2 ^ 57 + 0xF9) (fun c => { c with ssl := 0x20000, ssp := 0x2FFF8, g := [(31, 0x1008)] }) with
    mem := spSetMany emptyByte
      (mapped (2 ^ 57 + 0xF9) id).mem (numbered 0x2FFF8 (leBytes 8 0x1008)) }

/-- A received frame goes to its slot in an NMC page: the length in 8 bytes, then the bytes (R321). -/
theorem test_scale_out : after (.scaleOutFrameReceive 7 false [9])
    { mapped (2 ^ 58 + 0xF9) id with rings := [⟨7, 0, 0x10000, 0x20000, 2, 0, 0, 0, []⟩] }
    (fun t => (t.rdNat .mem 0x10000 8, t.rdByte .mem 0x10008, t.rings.map (·.rxAt))) = some (1, 9, [1]) := by decide

/-- A state in a timed frame. -/
def timedS : State := withC fun c => { c with frame := true, timed := true }

/-! ### Witnesses: encodings and steps -/

theorem witness_DecodeInvertsEncode : (Instr.addi q0 31 31 (-1)).wf = true ∧ (Instr.addi q0 31 31 (-1)).agent = some .control
    ∧ (Instr.opcodeNotListed (-1)).wf = true
    ∧ (Instr.rep .flume ⟨0x3FF, ⟨2, 31⟩, ⟨1, 31⟩, ⟨0, 31⟩⟩ 15 4095 7 7 7).wf = true := by decide
theorem witness_EncodeInvertsDecode : 0x3029801FFFFFFF00 < 2 ^ 64
    ∧ decodeControl 0x3029801FFFFFFF00 = .ok (.addi q0 5 6 (-8))
    ∧ decodeEngine .sluice 0x0039E0C180000000 = .ok (.endStream .sluice h0) := by decide

/-- The word of `limm g1, 0x1234_5678` where the next step fetches. -/
def placed : State := State.reset.withFetchWord 64 0x3708_0002_468A_CF00

theorem test_step_runs_placed : (match step placed with | .next t => gp 1 t | _ => (0, 0)) = (0x12345678, 8) := by decide
theorem test_step_illegal : (match step (State.reset.withFetchWord 64 1) with | .next t => cp t | _ => ([], 0)) = ([0x01], 0) := by
  decide
theorem witness_StepRunsDecoded_fetch : placed.agenda = [.control 0]
    ∧ (State.focus { placed with agenda := [] } 0).canRun = true
    ∧ (State.focus { placed with agenda := [] } 0).ctl.waiting = false
    ∧ (State.focus { placed with agenda := [] } 0).ctl.clo ≤ 0 ∧ 0 < (State.focus { placed with agenda := [] } 0).ctl.chi
    ∧ (∃ v u, (State.focus { placed with agenda := [] } 0).fetchWord 0 = (.ok v, u))
    ∧ (∃ pa v, (State.focus { placed with agenda := [] } 0).fetchAt 0 = (.ok pa, v))
    ∧ (∀ x ∈ (State.focus { placed with agenda := [] } 0).task.icache, x.1 / 64 ≠ 0 / 64)
    ∧ decodeControl 0x3708_0002_468A_CF00 = .ok (.limm q0 1 0x12345678)
    ∧ decodeControl 1 = .error .reservedField :=
  ⟨by decide, by decide, by decide, by decide, by decide, ok_of (by decide), ok_of (by decide), by decide, by decide, by decide⟩
theorem witness_StepRunsDecoded_waiting :
    let u := State.focus { (withC fun c => { c with waiting := true, ir := 0x3708_0002_468A_CF00 }) with agenda := [] } 0
    u.canRun = true ∧ u.ctl.waiting = true ∧ decodeControl u.ctl.ir.toNat = .ok (.limm q0 1 0x12345678) := by decide
theorem witness_StepRunsDecoded_issue :
    let u := State.focus { eng with agenda := [] } 0
    (u.eng .flume).head = some ⟨0x1000, 0⟩ ∧ decodeEngine .flume 0x0000_60C1_8040_0500 = .ok (.copy h0 4 5) := by decide
theorem witness_StepKeepsInvariants : (∃ t, step State.reset = .next t) ∧ State.reset.canonical ∧ State.reset.distinct
    ∧ State.reset.ordered ∧ State.reset.aligned ∧ (∃ t, step eng = .next t) ∧ eng.canonical :=
  ⟨⟨_, rfl⟩, State.reset_canonical, distinct_of rfl, ordered_of rfl,
    by simp [State.aligned, State.cores, State.reset, Core.blank, Task.aligned, Task.blank, Ctl.blank], ⟨_, rfl⟩,
    canon_of (by decide)⟩

/-! ### Witnesses: compute instructions -/

theorem witness_DivisionNeverFaults : base.getG 0 = 0 ∧ base.getG 1 ≠ 0 ∧ (withG [(1, 2 ^ 63), (2, -1)]).getG 1 = 2 ^ 63
    ∧ (withG [(1, 2 ^ 63), (2, -1)]).getG 2 = -1 := by decide
theorem witness_BitFieldInstructions : (63#6).toNat + (0#6).toNat + 1 ≤ 64 ∧ (0#6).toNat + (63#6).toNat + 1 ≤ 64 := by decide
theorem witness_CompareConditions : (11#4).toNat ≤ 11 ∧ (5#4).toNat ≤ 5 := by decide
theorem witness_PredicateInstructions : (0xFE#8).getLsbD 0 = false ∧ (7#3) ≠ 0 ∧ (6#3) ≠ 7 := by decide
theorem witness_FloatArithmetic : (f32 0x7F800001).isNan = true ∧ ((f32 0x7F800000).add (f32 0xFF800000)).isNan = true
    ∧ ((f32 0x3F800000).add (f32 0)).isNan = false := by decide
theorem witness_RoundingKeepsExactValues : 0xFF7FFFFF < 2 ^ 32 ∧ (f32 0xFF7FFFFF).isNan = false ∧ rne32 (f32 0xFF7FFFFF) = 0xFF7FFFFF
    ∧ rne32 (f32 0x80000001) = 0x80000001 := by decide
theorem witness_FloatSelectCompareConvert : (f32 0x7FC00000).isNan = true ∧ (f32 0x3F800000).isNan = false
    ∧ (5#4).toNat ≤ 5 := by decide
/-- 2.5 goes to the even integer 2, 2^63 saturates, and 0x3F80_8000 rounds to the even BF16 code (R150). -/
theorem test_fcvt_ties : after (.fcvt q0 4 1 1) (withG [(1, 0x40200000)]) (gp 4) = some (2, 0x1008)
    ∧ after (.fcvt q0 4 1 1) (withG [(1, 0x5F000000)]) (gp 4) = some (2 ^ 63 - 1, 0x1008)
    ∧ after (.fcvt q0 4 1 2) (withG [(1, 0x3F808000)]) (gp 4) = some (0x3F80, 0x1008) := by decide
theorem witness_RegisterInstructionFrames : base.canonical ∧ (Instr.spget q0 4 10).writesReg = some 4
    ∧ (∃ t, exec (.spget q0 4 10) base = .next t) ∧ (∃ t, exec (.cmp 1 2 1 (.reg 2) 2) base = .next t)
    ∧ (∃ t, exec (.plog q0 1 2 3 6) base = .next t) ∧ ∃ t, exec (.pload q0 1 6) base = .next t :=
  ⟨canon_of (by decide), by decide, ⟨_, rfl⟩, ⟨_, rfl⟩, ⟨_, rfl⟩, ⟨_, rfl⟩⟩
theorem witness_SquashedInstruction : (base.getP 0 != false) = true ∧ (Instr.add ⟨1, false⟩ 1 2 3).qual = some ⟨1, false⟩ ∧ (base.getP 1 != false) = false
    ∧ (Instr.ret ⟨0, true⟩).qual = some ⟨0, true⟩
    ∧ decodeControl (withC fun c => { c with ir := 1 }).ctl.ir.toNat = .error .reservedField := by decide

/-! ### Witnesses: memory and transfers -/

theorem witness_StoresReadBack : regs.canonical ∧ Space.reg ≠ .wbuf ∧ (Space.far 0 = .far regs.task.lcn) :=
  ⟨canon_of (by decide), by decide, by decide⟩
theorem witness_StoresReadBack_far :
    ({ base with rest := [{ Core.blank 1 with slot := .resident, task := { Task.blank with lid := 1, lcn := 1 } }] : State}.findTask
      base.task.lid 1).isSome = true := by decide
theorem witness_LoadsAndStoresComplete : regs.holds q0 = true ∧ regs.addressOf 1 0 3 0 = 0xFF80000000000008
    ∧ (regs.target 0xFF80000000000008 8 .load).1 = .at_ .reg 8 ∧ (regs.target 0xFF80000000000008 8 .store).1 = .at_ .reg 8
    ∧ regs.badIn .reg 8 8 = none ∧ Space.reg.remote = false ∧ regs.distinct ∧ regs.still :=
  ⟨by decide, by decide, by decide, by decide, by decide, by decide, distinct_of rfl, still_of (by decide)⟩
theorem witness_LoadsAndStoresComplete_remote : (base.target 0xFF00000000000000 8 .load).1 = .at_ (.far 0) 0
    ∧ (Space.far 0).remote = true ∧ base.ctl.remote ≠ some 0xFF00000000000000
    ∧ (withC fun c => { c with remote := some 0xFF00000000000000 }).ctl.remote = some 0xFF00000000000000
    ∧ base.badIn (.far 0) 0 8 = none := by decide
theorem witness_LoadStoreFrames : (∃ t, exec (.st q0 2 1 0 0 1 4) regs = .next t) ∧ (∃ t, exec (.ld q0 2 1 0 0 1 true 4) regs = .next t)
    ∧ (regs.target 3 8 .store).1 ≠ .at_ .mem 3 ∧ (regs.target 0xFF8000000000000C 2 .store).1 = .at_ .reg 12 ∧ regs.canonical
    ∧ regs.ordered := ⟨⟨_, rfl⟩, ⟨_, rfl⟩, by decide, by decide, canon_of (by decide), ordered_of rfl⟩
theorem witness_AccessFaults : 0xFF80000000000001 % 2 ^ (3#2).toNat ≠ 0 ∧ locate 0xFF00000001000000 = .window (.far 1) 0
    ∧ timedS.ctl.frame = true ∧ timedS.ctl.timed = true ∧ base.ctl.frame = false ∧ base.task.gcount * base.task.gsize ≤ 1
    ∧ locate 0xFF40000000000000 = .none ∧ locate 0x1000 = .virt ∧ (base.translate 0x1000 .load false).1.isOk = false := by decide
theorem witness_BranchTargets : (base.ctl.getJ 1).st ≠ .fetching
    ∧ ((withC fun c => { c with j := [(1, ⟨0x1200, .fetching, []⟩)] }).ctl.getJ 1).st = .fetching
    ∧ (∃ ws u, (mapped 0xF9 id).prefetch 0x1200 = (.ok ws, u)) ∧ ∃ tr u, base.prefetch 0x1200 = (.error tr, u) :=
  ⟨by decide, by decide, ok_of (by decide), error_of (by decide)⟩
theorem witness_TransferControl : (base.getP 0 != false) = true ∧ (base.ctl.getJ 1).st = .empty
    ∧ ((withC fun c => { c with j := [(1, ⟨0x1200, .ready, []⟩)] }).ctl.getJ 1).st = .ready
    ∧ ((withC fun c => { c with j := [(1, ⟨0x1200, .stale, []⟩)] }).ctl.getJ 1).st = .stale := by decide

/-- XCALL through a READY register with an empty shadow stack of one page. -/
def calling : State :=
  mapped (2 ^ 57 + 0xF9) fun c => { c with ssl := 0x20000, ssp := 0x30000, j := [(1, ⟨0x1200, .ready, []⟩)] }

/-- The same with J1 STALE. -/
def staled (s : State) : State := s.setJ 1 ⟨0x1200, .stale, []⟩

theorem witness_CallPushesShadow : calling.canonical ∧ (calling.getP 0 != false) = true ∧ (calling.ctl.getJ 1).st = .ready
    ∧ calling.ctl.shadowLo + 8 ≤ calling.ctl.ssp.toNat ∧ (∃ pa u, calling.shadowTarget 0x2FFF8 .push = (.ok pa, u))
    ∧ (∃ tr u, base.shadowTarget 0x2FFF8 .push = (.error tr, u))
    ∧ (withC fun c => { c with ssl := 0x20000, ssp := 0x20000 }).ctl.ssp.toNat
        < (withC fun c => { c with ssl := 0x20000, ssp := 0x20000 }).ctl.shadowLo + 8
    ∧ ((staled base).ctl.getJ 1).st = .stale ∧ (∃ tr u, (staled base).prefetch 0x1200 = (.error tr, u))
    ∧ ((staled calling).ctl.getJ 1).st = .stale ∧ (∃ ws u, (staled calling).prefetch 0x1200 = (.ok ws, u)) :=
  ⟨canon_of (by decide), by decide, by decide, by decide, ok_of (by decide), error_of (by decide), by decide, by decide,
    error_of (by decide), by decide, ok_of (by decide)⟩
theorem test_xcall : after (.xcall 1 0 false) calling
    (fun t => (gp 31 t, t.ctl.ssp.toNat, t.rdNat .mem 0x2FFF8 8)) = some ((0x1008, 0x1200), 0x2FFF8, 0x1008) := by decide
theorem witness_ReturnChecksShadow : linked.holds q0 = true ∧ linked.ctl.ssp.toNat + 8 ≤ linked.ctl.shadowHi
    ∧ (∃ pa u, linked.shadowTarget 0x2FFF8 .pop = (.ok pa, u)) ∧ linked.littleEndian .mem 0x2FFF8 8 = 0x1008
    ∧ (∃ ws u, linked.prefetch 0x1008 = (.ok ws, u)) ∧ linked.badIn .mem 0x2FFF8 8 = none
    ∧ (withC fun c => { c with ssp := 0x10000 }).ctl.shadowHi < (withC fun c => { c with ssp := 0x10000 }).ctl.ssp.toNat + 8 :=
  ⟨by decide, by decide, ok_of (by decide), by decide, ok_of (by decide), by decide, by decide⟩
/-- XCALL through STALE whose push fails leaves the register as it was (R120, R160). -/
theorem test_xcall_limit : after (.xcall 1 0 false) ((staled calling).withCtl { (staled calling).ctl with ssp := 0x20000 })
    (fun t => ((t.ctl.getJ 1).st, codes t, t.getG 31)) = some (.stale, [0x05], 0) := by decide
theorem test_ret : after (.ret q0) linked (fun t => (t.ctl.pc.toNat, t.ctl.ssp.toNat, codes t)) = some (0x1008, 0x30000, []) := by
  decide
theorem test_ret_integrity : after (.ret q0) (linked.setG 31 0x1010) (fun t => (t.ctl.ssp.toNat, codes t))
    = some (0x2FFF8, [0x04]) := by decide

/-! ### Witnesses: system instructions -/

theorem witness_TrapsBreaksAndSteps : base.task.lcn < 2 ^ 17 ∧ base.holds q0 = true
    ∧ (withC fun c => { c with step := true }).ctl.step = true ∧ base.ctl.step = false := by decide
theorem witness_FaultsParkTheTask : Code.uncorrectable.parksAll = true ∧ Code.trap.parksAll = false ∧ base.cur.slot = .resident
    ∧ (withT fun t => { t with parkAll := true }).task.parkAll = true := by decide
theorem witness_SpecialRegisters : base.holds q0 = true ∧ (withC fun c => { c with phys := true }).ctl.phys = true
    ∧ (let s := withC fun c => { c with ssl := 0x10000, ssp := 0x10000, g := [(1, 0x20000), (2, 0x20008)] }
       (s.getG 1).toNat % 8 = 0 ∧ s.ctl.ssp.toNat ≤ (s.getG 1).toNat ∧ (s.getG 1).toNat ≤ s.ctl.shadowHi
         ∧ s.ctl.shadowHi < (s.getG 2).toNat) := by decide
theorem witness_OperandRegisters : (base.ctl.frame && base.ctl.timed) = false ∧ (timedS.ctl.frame && timedS.ctl.timed) = true
    ∧ timedS.holds q0 = true := by decide

/-- G1 to G3 are stream addresses, in order: misaligned, in the window, outside it. -/
def forks : State := withG [(1, 0xFF80000001000004), (2, 0xFF80000001000000), (3, 0x8000)]

theorem witness_ForkStartsStreams : forks.holds q0 = true ∧ (1#4).getLsbD EngId.matrix.num = true ∧ (forks.getG 1).toNat % 8 ≠ 0
    ∧ (forks.getG 3).toNat % 8 = 0 ∧ (9#4).getLsbD 3 = true ∧ inStreamWindow (forks.getG 3).toNat = false
    ∧ inStreamWindow (forks.getG 2).toNat = true ∧ forks.task.forkStalls 9 = false
    ∧ (withT fun t => { t with m := { Eng.idle with running := true } }).task.forkStalls 1 = true := by decide
theorem witness_JoinAndTokenWait : base.canonical ∧ base.task.framesDone = true
    ∧ (withT fun t => { t with m := { Eng.idle with running := true } }).task.framesDone = false
    ∧ EngId.ofNum (2#2).toNat = some .sluice ∧ (base.eng .sluice).forked = false
    ∧ (let g : Eng := { Eng.idle with forked := true, running := true, seq := 40, toks := [⟨39, 9, false, false⟩, ⟨38, 8, true, true⟩] }
       g.toks.find? (fun t => t.seq == 39) = some ⟨39, 9, false, false⟩ ∧ g.toks.find? (fun t => t.seq == 38) = some ⟨38, 8, true, true⟩
         ∧ g.toks.find? (fun t => t.seq == 3) = none ∧ g.toks.find? (fun t => t.seq == 40) = none) :=
  ⟨canon_of (by decide), by decide⟩
theorem witness_QueueCancel : eng.holds q0 = true ∧ (7#3).getLsbD EngId.flume.num = true ∧ (eng.eng .flume).running = true
    ∧ (base.eng .flume).running = false ∧ (eng.eng .flume).rep = none ∧ (∀ w ∈ (eng.eng .flume).queue, opOf w.word ≠ 0x71)
    ∧ (let g : Eng := { eng0 with queue := [⟨0x1000, 0⟩, ⟨0x1008, 0⟩, ⟨0x1010, 0⟩], rep := some ⟨2, 3, 1, 1, 0, 0, 0⟩ }
       (∀ w ∈ g.queue, opOf w.word ≠ 0x71) ∧ 2 ≤ g.queue.length) := by decide
/-- Two queued words get their tokens, cancelled, and their numbers (R28). -/
theorem test_qcancel_tokens : after (.qcancel q0 2)
    (eng.setEng .flume { eng0 with seq := 5, stamp := 9, queue := [⟨0x1000, 0⟩, ⟨0x1008, 0⟩] })
    (fun t => ((t.eng .flume).seq, (t.eng .flume).toks)) = some (7, [⟨6, 11, true, true⟩, ⟨5, 10, true, true⟩]) := by decide
theorem witness_HaltRetiresTask : base.holds q0 = true ∧ base.task.framesDone = true ∧ eng.task.framesDone = false
    ∧ ({ base with launches := [launch0] } : State).findLaunch base.task.lid = some launch0 := by decide

/-- BARR with a source and a destination in the register space, its departure at hand. -/
def meeting : State :=
  { withG [(1, 0xFF80000000000000), (2, 0xFF80000000000040)] with
    launches := [launch0]
    departs := [⟨1, 0, 1, 5, true, List.replicate 64 7⟩]
    arrivals := [⟨1, 0, 1, 0, 5, false, 0, 0, [], 0⟩] }

theorem witness_BarriersMeet : base.holds q0 = true ∧ timedS.holds q0 = true ∧ (timedS.ctl.frame && timedS.ctl.timed) = true
    ∧ base.departs = [] ∧ base.arrivals = [] ∧ meeting.holds q0 = true
    ∧ (meeting.departs.find? fun x => (x.lid == 1 && x.lcn == 0) && x.scope == 1 && x.bid == 5)
        = some ⟨1, 0, 1, 5, true, List.replicate 64 7⟩
    ∧ (meeting.arrivals.any fun x => (x.lid == 1 && x.lcn == 0) && x.scope == 1 && x.bid == 5) = true
    ∧ ownWindow (meeting.getG 1).toNat = some (.reg, 0) ∧ ownWindow (meeting.getG 2).toNat = some (.reg, 64)
    ∧ meeting.readBad 0xFF80000000000000 .reg 0 64 = none ∧ meeting.participants 1 1 0 = [0]
    ∧ ({ base with launches := [launch0] } : State).participants 1 1 0 = [0] ∧ (List.replicate 64 (7 : Byte)).length = 64
    ∧ ([⟨1, 0, 1, 5, false, []⟩] : List Depart).find? (fun x => (x.lid == 1 && x.lcn == 0) && x.scope == 1 && x.bid == 5)
        = some ⟨1, 0, 1, 5, false, []⟩ := by decide
theorem witness_BarriersMeet_addresses : (base.getG 1).toNat % 64 ≠ 0
    ∧ (let s := withG [(1, 0xFF80000000000000), (2, 4)]
       (s.getG 1).toNat % 64 = 0 ∧ (s.getG 2).toNat % 64 ≠ 0)
    ∧ ownWindow 0x8000 = none ∧ ownWindow 0xFF80000000000040 ≠ none ∧ 0x8000 % 64 = 0
    ∧ ((withT fun t => { t with bad := [(.reg, 3)] }).readBad 0xFF80000000000000 .reg 0 64).isSome = true
    ∧ meeting.distinct ∧ meeting.still ∧ meeting.canonical :=
  ⟨by decide, by decide, by decide, by decide, by decide, by decide, distinct_of rfl, still_of (by decide), canon_of (by decide)⟩

/-- Four tasks of a quad have arrived at a BARR that adds 32-bit integers, with the payloads 1, 2, 3 and 4. -/
def quad (rop3 : Nat) : State :=
  { base with
    launches := [{ launch0 with rec_ := { rec0 with w3 := 1#64 <<< 62 + 1 } }]
    arrivals := [⟨1, 3, 1, 0, 5, true, rop3, 0, leBytes 64 4, 0⟩, ⟨1, 0, 1, 0, 5, true, 0, 0, leBytes 64 1, 0⟩,
      ⟨1, 1, 1, 0, 5, true, 0, 0, leBytes 64 2, 0⟩, ⟨1, 2, 1, 0, 5, true, 0, 0, leBytes 64 3, 0⟩] }

theorem witness_BarriersMeet_departure :
    let here (a : Arrival) : Bool := a.lid == 1 && a.scope == 1 && a.unit == 0 && a.bid == 5
    let at_ (s : State) (n : Nat) : Option Arrival := s.arrivals.find? fun a => here a && a.lcn == n
    (quad 0).participants 1 1 0 ≠ [] ∧ ((quad 0).participants 1 1 0).map (at_ (quad 0))
        = [⟨1, 0, 1, 0, 5, true, 0, 0, leBytes 64 1, 0⟩, ⟨1, 1, 1, 0, 5, true, 0, 0, leBytes 64 2, 0⟩,
          ⟨1, 2, 1, 0, 5, true, 0, 0, leBytes 64 3, 0⟩, ⟨1, 3, 1, 0, 5, true, 0, 0, leBytes 64 4, 0⟩].map some
      ∧ at_ { quad 0 with arrivals := [] } 2 = none := by decide
theorem test_barr_reduces : after (.barrierDeparture 1 1 0 5) (quad 0)
    (fun t => t.departs.map fun x => (x.lcn, x.ok, x.payload.take 5))
    = some [(0, true, [10, 0, 0, 0, 0]), (1, true, [10, 0, 0, 0, 0]), (2, true, [10, 0, 0, 0, 0]), (3, true, [10, 0, 0, 0, 0])] := by
  decide
theorem test_barr_disagrees : after (.barrierDeparture 1 1 0 5) (quad 1) (fun t => t.departs.map (·.ok))
    = some [false, false, false, false] := by decide

/-- G1 points at eight words of the register space. -/
def lists (ws : List Nat) (n : Nat) : State :=
  withT fun t => { t with
    reg := spSetMany emptyByte [] (numbered 0 (ws.flatMap (leBytes 8)))
    ctl := { t.ctl with g := [(1, 0xFF80000000000000), (2, BitVec.ofNat 64 n)] } }

theorem witness_LaunchSubmits : base.holds q0 = true ∧ (base.getG 1).toNat % 64 ≠ 0 ∧ ((lists [] 0).getG 1).toNat % 64 = 0
    ∧ (lists [0, 0, 0, 1, 0, 0x10, 0, 0] 0).loadWords 8 0xFF80000000000000
        = (.words [0, 0, 0, 1, 0, 0x10, 0, 0], lists [0, 0, 0, 1, 0, 0x10, 0, 0] 0)
    ∧ (launchWords [0, 0, 0, 1, 0, 0x10, 0, 0]).bad = false ∧ (launchWords [0, 0, 0, 1, 0, 0x10, 1, 0]).bad = true := by decide
theorem witness_LaunchSubmits_full :
    256 ≤ (List.replicate 256 { launch0 with st := .queued } |>.filter fun l => l.die == 0 && l.rec_.prio == 0 && l.st == .queued).length := by
  decide
theorem witness_InstructionInvalidate : base.holds q0 = true ∧ base.iinvs = []
    ∧ ([⟨1, 1, 0, 0, 64, 0, false, false, [0]⟩] : List Iinv).find? (fun x => x.id == 1 && x.todo.contains 0)
        = some ⟨1, 1, 0, 0, 64, 0, false, false, [0]⟩
    ∧ (withG [(1, 4), (2, 8)]).getG 1 = 4 ∧ (withG [(1, 4), (2, 8)]).getG 2 = 8
    ∧ ∀ todo ∈ [[], [0]], ([⟨2, 1, 0, 0, 64, 0, false, false, todo⟩] : List Iinv).find? (fun i =>
        (i.lid == 1 && i.lcn == 0 && !i.left) && i.lo == 4 / 64 * 64 && i.hi == (4 + 8 + 63) / 64 * 64 && i.scope == 0
          && i.whole == false) = some ⟨2, 1, 0, 0, 64, 0, false, false, todo⟩ := by
  decide
theorem witness_PrimePins : base.holds q0 = true ∧ 256 < ((withG [(2, 257)]).getG 2).toNat ∧ (base.getG 1).toNat % 8 ≠ 0
    ∧ timedS.holds q0 = true ∧ ((lists [] 0).getG 2).toNat = 0
    ∧ (lists [0xFF80000000000000] 1).loadWords 1 0xFF80000000000000
        = (.words [0xFF80000000000000], lists [0xFF80000000000000] 1)
    ∧ ((lists [0xFF80000000000000] 1).primeList 1 0xFF80000000000000 []).1 = .pins []
    ∧ ((lists [0x1000] 1).primeList 1 0xFF80000000000000 []).1 = .trap { code := .notPresent, addr := some 0x1000 }
    ∧ (base.loadWords 1 0x1000).1 = .trap { code := .notPresent, addr := some 0x1000 } := by decide
theorem witness_PrimePins_entries : locate 0xFF80000000000000 = .window .reg 0 ∧ locate 0xFF40000000000000 = .none
    ∧ locate 0x1000 = .virt ∧ base.oldLeaf 0x1000 = none ∧ base.walk 0x1000 = .error .notPresent
    ∧ (mapped 0xF9 id).oldLeaf 0x1000 = none ∧ ((mapped 0xF9 id).walk 0x1000).isOk = true ∧ base.distinct :=
  ⟨by decide, by decide, by decide, by decide, by decide, by decide, by decide, distinct_of rfl⟩
theorem witness_PrimePins_held :
    let s := withT fun t => { t with gcount := 2, gsize := 1, ctl := { t.ctl with g := [(1, 0xFF00000001000000), (2, 1)] } }
    (s.primeList 1 0xFF00000001000000 []).1 = .held ∧ (s.getG 1).toNat % 8 = 0 := by decide

/-! ### Witnesses: commands -/

/-- The entry at the head of every queue of `eng`. -/
def head0 : QEnt := ⟨0x1000, 0⟩

/-- The command can issue: its engine is ready, its checks pass, it is not held and stops at no element. -/
def goesB (s : State) (e : EngId) (r : Res) (k : State → Cost) (body : State → Except Trap (State × Issued)) : Bool :=
  decide (s.ready e h0 r (k s).lat = .go) && (decide ((s.eng e).head = some head0)
    && match body s with | .ok x => !x.2.held && x.2.stop.isNone | .error _ => false)

theorem goes_of {s : State} {e : EngId} {r : Res} {k : State → Cost} {body : State → Except Trap (State × Issued)}
    (h : goesB s e r k body = true) :
    s.mayGo e h0 r (k s).lat head0 ∧ ∃ u i, body s = .ok (u, i) ∧ i.held = false ∧ i.stop = none := by
  simp only [goesB, Bool.and_eq_true, decide_eq_true_eq] at h
  obtain ⟨h1, h2, h4⟩ := h
  cases hb : body s with
  | error => rw [hb] at h4; cases h4
  | ok x => rw [hb] at h4; exact ⟨⟨h1, h2⟩, x.1, x.2, rfl, by simpa using h4⟩

/-- `eng` with the frame of engine `e` timed. -/
def engTimed (e : EngId) : State := eng.setEng e { eng0 with timed := true, stamp := 99 }

theorem witness_GenericCommands : (∀ e, eng.mayGo e h0 .none 0 head0 ∧ (eng.eng e).rep = none)
    ∧ head0.pc + 8 + 8 * (0#4).toNat ≤ { eng0 with rhi := 0x1008 }.rhi ∧ (0#4).toNat + 1 ≤ (eng.eng .flume).queue.length
    ∧ (((eng.eng .flume).queue.drop 1).take 0).any (fun x => bodyBad .flume 0 0 x.word) = false :=
  ⟨fun e => ⟨(goes_of (s := eng) (e := e) (r := .none) (k := fun _ => {}) (body := fun s => .ok (s, {}))
    (by cases e <;> decide)).1, by cases e <;> rfl⟩, by decide⟩
theorem witness_GenericCommands_fence : eng.mayGo .flume h0 .none ((eng.eng .flume).fenceLat 1) head0
    ∧ (engTimed .flume).mayGo .flume h0 .none (((engTimed .flume).eng .flume).fenceLat 1) head0
    ∧ ((engTimed .flume).eng .flume).strict = true ∧ ((engTimed .flume).eng .flume).rep = none ∧ (1#3).toNat ≠ 0 :=
  ⟨⟨by decide, by decide⟩, ⟨by decide, by decide⟩, by decide, by decide, by decide⟩
theorem witness_MatrixCommandsIssue_passes : goesB eng .matrix .a (mmaCost 0 1 .sum false) (mmaBody 0 1 2 .sum false false false) = true
    ∧ goesB eng .matrix .a (acczCost 2) (acczBody 2) = true ∧ goesB eng .matrix .b (rowsCost 3 16) (acccpBody 3 2 false) = true
    ∧ goesB eng .matrix .c (wfillCost 4 14) (wfillBody 4 14) = true ∧ goesB eng .matrix .c (fun _ => { occ := 1, lat := 1 }) (winvBody 14 false) = true := by decide
theorem witness_MatrixCommandsIssue_lists : goesB eng .matrix .a (rankCost 6) (partBody 6 7 false) = true
    ∧ goesB eng .matrix .a (rankCost 6) (rankBody 6 7 false) = true ∧ goesB eng .matrix .a (rankCost 6) (topkBody 6 7 1 false) = true
    ∧ goesB eng .matrix .b (rowsCost 3 60) (drainBody false 3 13 0) = true ∧ goesB eng .matrix .b (rowsCost 3 48) (drainBody true 3 15 0) = true
    ∧ goesB eng .matrix .none (fun _ => { lat := 1 }) (mseedBody 13) = true := by decide
theorem witness_FlumeCommandsIssue_copies : goesB eng .flume .a (copyCost 4 5) (copyBody 4 5) = true ∧ goesB eng .flume .a (fillCost 5) (fillBody 0 5 true) = true
    ∧ goesB eng .flume .a (gatherCost 16 8 17) (gatherBody false false 16 8 17) = true ∧ goesB eng .flume .a (gatherCost 16 8 17) (gatherBody true false 16 8 17) = true
    ∧ goesB { eng with parts := [fetchPart 0 0 0], mem := (mapped 0xF9 id).mem } .flume .a (gathpCost 27 8 29) (gathpBody 27 8 29 6 true) = true := by decide
theorem witness_FlumeCommandsIssue_others : goesB eng .flume .a (exp24Cost 24 25) (exp24Body 24 25) = true
    ∧ goesB eng .flume .a (putrCost 13 12) (putrBody 13 12 0) = true ∧ goesB eng .flume .a (bcastCost 4 28 0) (bcastBody 4 28 0) = true
    ∧ goesB eng .flume .none (fun _ => { lat := 1 }) (fseedBody 13) = true ∧ goesB eng .flume .a (fun _ => { occ := 1, lat := 1 }) (pfetchBody 27) = true
    ∧ goesB eng .flume .a (cmpbCost 26 26 13) (cmpbBody 26 26 13) = true := by decide
theorem witness_SluiceCommandsIssue_arithmetic : goesB eng .sluice .a (costWide 8 18) (saccBody 8 10 18 false 0) = true
    ∧ goesB eng .sluice .a (costEach 8 18) (sfetchBody 8 10 18 false 0) = true ∧ goesB eng .sluice .a (costEach 8 18) (scasBody 8 19 18 false) = true
    ∧ goesB eng .sluice .a (costWide 8 20) (bsetBody 8 20 false) = true ∧ goesB eng .sluice .a (costWide 8 20) (bclrBody 8 20 false) = true
    ∧ goesB eng .sluice .a (costEach 8 20) (btestBody 8 11 20 false true) = true := by decide
theorem witness_SluiceCommandsIssue_counting : eng.d4 = true ∧ goesB eng .sluice .a (costEach 8 21) (cincBody 8 21 false) = true
    ∧ goesB eng .sluice .a (cmergeCost 22) (cmergeBody 21 22) = true ∧ goesB eng .sluice .a (creadCost 21) (creadBody 21 23) = true
    ∧ goesB eng .sluice .none (fun _ => { lat := 1 }) (sseedBody 13) = true := by decide
theorem witness_SluiceCommandsIssue_d2 : (({ eng with d4 := false } : State).eng .sluice).head = some head0
    ∧ ({ eng with d4 := false } : State).ready .sluice (headAt head0.word.toNat) .a 0 ≠ .wait
    ∧ (eng.setEng .sluice { eng0 with stamp := 500 }).ready .sluice (headAt head0.word.toNat) .a 0 = .wait
    ∧ ((engTimed .sluice).eng .sluice).strict = true ∧ (engTimed .sluice).mayIssue .sluice = true
    ∧ (engTimed .sluice).stampReached .sluice head0
    ∧ (engTimed .sluice).task.resolveAll .sluice (((engTimed .sluice).eng .sluice).nextStamp (headAt head0.word.toNat).idle.toNat)
        ((engTimed .sluice).eng .sluice).seq (((engTimed .sluice).eng .sluice).waits (headAt head0.word.toNat)) ≠ .cancelled :=
  ⟨by decide, by decide, by decide, by decide, by decide, by unfold State.stampReached; decide, by decide⟩
theorem witness_IssueChangesNoByte : (Instr.copy h0 4 5).agent = some (.engine .flume)
    ∧ (Instr.idle .sluice h0 9).agent = some (.engine .sluice) ∧ (∃ t, exec (.copy h0 4 5) eng = .next t)
    ∧ ∃ t, exec (.copy h0 63 5) eng = .next t := ⟨rfl, rfl, ⟨_, rfl⟩, ⟨_, rfl⟩⟩
theorem witness_CommandTimes : (eng.slotView .matrix 0 0).isOk = true ∧ (eng.slotView .matrix 1 1).isOk = true
    ∧ (eng.slotView .matrix 2 2).isOk = true ∧ (eng.slotView .flume 0 4).isOk = true ∧ (eng.slotView .flume 2 5).isOk = true
    ∧ (eng.slotView .sluice 0 8).isOk = true ∧ (eng.slotView .sluice 1 10).isOk = true ∧ (eng.slotView .sluice 2 18).isOk = true
    ∧ (eng.eng .sluice).flight = [] := by decide

/-! ### Witnesses: landing, tokens, remote accesses -/

theorem witness_CommandsLand : (flying .flume flight0).due .flume flight0 = true
    ∧ ((flying .flume flight0).eng .flume).flight.find? (fun x => x.seq == 0) = some flight0
    ∧ (flying .flume { flight0 with land := 101 }).due .flume { flight0 with land := 101 } = false
    ∧ ((flying .flume { flight0 with timed := true, land := 101 }).eng .flume).cnt < 101
    ∧ flight0.op = .none ∧ flight0.ranges = [] ∧ flight0.stop = none
    ∧ (flying .flume { flight0 with stop := some { code := .notPresent } }).due .flume { flight0 with stop := some { code := .notPresent } }
        = true := by decide
theorem witness_AccumulatorUpdates : eng.canonical ∧ (eng.slotView .matrix 2 2).isOk = true ∧ (∃ x, acczBody 2 eng = .ok x)
    ∧ ([1, -2] : List Int) ≠ [] ∧ ([.fin false 1 1, .fin true 2 1] : List Machine.Num).Perm [.fin true 2 1, .fin false 1 1]
    ∧ ([.fin false 1 1, .nan 0x7FC00001] : List Machine.Num).find? (·.isNan) = some (.nan 0x7FC00001) :=
  ⟨canon_of (by decide), by decide, body_of (by decide), by decide, List.Perm.swap .., by decide⟩
theorem witness_RanksArePermutation : ∀ k ∈ ([.fin false 3 1, .nan 0, .fin true 0 1] : List Machine.Num), ∀ sg n d,
    k = .fin sg n d → d ≠ 0 := by
  intro k hk sg n d h
  subst h
  simp only [List.mem_cons, Machine.Num.fin.injEq, reduceCtorEq, false_or, List.not_mem_nil, or_false] at hk
  omega
theorem witness_SeedsFillGenerators : (∃ x, seedOperand .matrix 13 eng = .ok x) ∧ (∃ x, mseedBody 13 eng = .ok x)
    ∧ (∃ x, seedOperand .flume 13 eng = .ok x) ∧ (∃ x, fseedBody 13 eng = .ok x)
    ∧ (∃ x, seedOperand .sluice 13 eng = .ok x) ∧ ∃ x, sseedBody 13 eng = .ok x :=
  ⟨body_of (by decide), body_of (by decide), body_of (by decide), body_of (by decide), body_of (by decide), body_of (by decide)⟩

/-- The flume of `eng` with an empty queue, at the start of its region, at its end, and past it. -/
def fetching (pc : Nat) : State :=
  eng.setEng .flume { eng0 with queue := [], pc := pc, rlo := 0xFF80000001000000, rhi := 0xFF80000001200000 }

theorem witness_SequencersRun : (fetching 0xFF80000001000000).canFetch .flume = true
    ∧ (∃ w u, (fetching 0xFF80000001000000).vread 0xFF80000001000000 .fetch 8 = (.ok w, u))
    ∧ (fetching 0xFF80000001200000).canFetch .flume = true ∧ base.canFetch .flume = false ∧ eng.mayIssue .flume = true
    ∧ (eng.eng .flume).head = some head0 ∧ eng.ready .flume (headAt head0.word.toNat) .none 0 ≠ .wait
    ∧ (eng.setEng .flume { eng0 with stamp := 500 }).ready .flume (headAt head0.word.toNat) .none 0 = .wait
    ∧ ((fetching 0xFF80000001000000).eng .flume).peek = none ∧ (fetching 0xFF80000001000000).task.admits .flume 0x14131211 = true :=
  ⟨by decide, ok_of (by decide), by decide, by decide, by decide, by decide, by decide, by decide, by decide, by decide⟩
theorem witness_SequencersRun_start :
    let g := (eng.setEng .matrix { eng0 with started := false, cnt := 0 }).eng .matrix
    g.running = true ∧ g.started = false ∧ g.countdown = 0 ∧ eng.task.parkAll = false ∧ eng.task.saving = false := by decide

/-- The flume waits on command 1 of the sluice, which a cut of that stream has cancelled. -/
def cutWait : State :=
  (eng.setEng .sluice { eng0 with seq := 2, stamp := 9, running := false, queue := [], toks := [⟨1, 9, true, true⟩, ⟨0, 8, true, false⟩] }).setEng .flume
    { eng0 with stamp := 50, queue := [⟨0x1000, BitVec.ofNat 64 (encode (.copy ⟨0, ⟨2, 1⟩, ⟨3, 0⟩, ⟨3, 0⟩⟩ 4 5))⟩] }

theorem witness_SequencersRun_cancelled : ∀ g q, g = cutWait.eng .flume → g.head = some q →
    cutWait.mayIssue .flume = true ∧ g.hold = none ∧ g.slotFree g.seq = true ∧ cutWait.stampReached .flume q ∧
      cutWait.task.resolveAll .flume (g.stamp + idleOf q.word + 1) g.seq (g.waits (headAt q.word.toNat)) = .cancelled := by
  intro g q hg hq
  subst hg
  obtain rfl : ⟨0x1000, BitVec.ofNat 64 (encode (.copy ⟨0, ⟨2, 1⟩, ⟨3, 0⟩, ⟨3, 0⟩⟩ 4 5))⟩ = q := by
    have : (cutWait.eng .flume).head = some ⟨0x1000, BitVec.ofNat 64 (encode (.copy ⟨0, ⟨2, 1⟩, ⟨3, 0⟩, ⟨3, 0⟩⟩ 4 5))⟩ := by decide
    simpa [this] using hq
  exact ⟨by decide, by decide, by decide, by unfold State.stampReached; decide, by decide⟩
theorem test_cancelled : after (.cancelledAtHead .flume) cutWait
    (fun t => ((t.eng .flume).seq, (t.eng .flume).can, (t.eng .flume).toks.map fun k => (k.done, k.can))) = some (1, true, [(true, true)]) := by
  decide

/-- A request at its source, in its three stages, and the command that made it. -/
def asked (r : Req → Req) (fl : Flight → Flight) : State :=
  eng.setEng .flume { eng0 with
    seq := 1, toks := [⟨0, 1, false, false⟩], queue := []
    flight := [fl { flight0 with writes := [] }]
    reqs := [r ⟨5, 0, 0, .scr, .putr 0 0x05 [⟨[0, 1, 2, 3], 0, 32, 1, false⟩], false, false, false, [], 0⟩] }

theorem witness_TaggedRequests : ((asked id id).eng .flume).reqs.find? (fun x => x.tag == 5)
      = some ⟨5, 0, 0, .scr, .putr 0 0x05 [⟨[0, 1, 2, 3], 0, 32, 1, false⟩], false, false, false, [], 0⟩
    ∧ (asked id id).reqReady .flume ⟨5, 0, 0, .scr, .putr 0 0x05 [⟨[0, 1, 2, 3], 0, 32, 1, false⟩], false, false, false, [], 0⟩ = true
    ∧ (asked id id).tagApplied .flume 5 = false
    ∧ ({ asked id id with tagsSeen := [⟨1, 0, .flume, 5, 0⟩] } : State).tagApplied .flume 5 = true
    ∧ ((asked id id).eng .flume).flight.find? (fun f => f.seq == 0) = some { flight0 with writes := [] }
    ∧ (asked id id).reqBad { flight0 with writes := [] } ⟨5, 0, 0, .scr, .putr 0 0x05 [⟨[0, 1, 2, 3], 0, 32, 1, false⟩], false, false, false, [], 0⟩ = none
    ∧ (let s := (asked id id).withTask { (asked id id).task with bad := [(.scr, 2)] }
       (s.reqBad { flight0 with writes := [] } ⟨5, 0, 0, .scr, .putr 0 0x05 [⟨[0, 1, 2, 3], 0, 32, 1, false⟩], false, false, false, [], 0⟩).isSome = true
         ∧ ((s.eng .flume).reqs.takeWhile fun x => x.tag != 5) = []
         ∧ s.reqReady .flume ⟨5, 0, 0, .scr, .putr 0 0x05 [⟨[0, 1, 2, 3], 0, 32, 1, false⟩], false, false, false, [], 0⟩ = true
         ∧ s.tagApplied .flume 5 = false) := by decide
theorem witness_RemoteTimeouts : (withC fun c => { c with remote := some 0xFF00000001000000, remoteAge := 14000000 }).ctl.remote
      = some 0xFF00000001000000
    ∧ 14000000 ≤ (withC fun c => { c with remote := some 0xFF00000001000000, remoteAge := 14000000 }).ctl.remoteAge
    ∧ (let s := asked (fun r => { r with age := 14000000 }) id
       ((s.eng .flume).reqs.all fun r => s.reqReaches r && !r.confirmed && !r.lost && decide (14000000 ≤ r.age)) = true
         ∧ (s.eng .flume).reqs.length = 1 ∧ (s.eng .flume).stopped = none
         ∧ ((s.eng .flume).flight.find? fun x => x.seq == 0).isSome = true) := by decide
theorem witness_RemoteTimeouts_plain :
    let op : FluOp := ⟨.copy, ⟨eng.task.entry 4, 0⟩, View.none_, ⟨eng.task.entry 28, 0⟩, View.none_.t, View.none_.t, View.none_.t, [], none, false, false, none, none⟩
    let f : Flight := { flight0 with writes := [⟨.far 1, 0, 0xFF, 1⟩], age := 14000000, op := .flu op [⟨0, 0, []⟩] }
    let s := { flying .flume f with rest := [{ Core.blank 1 with slot := .resident, task := { Task.blank with lid := 1, lcn := 1 } }] }
    (s.eng .flume).flight.find? (fun f => f.plainRemote && cycles8ms ≤ f.age) = some f ∧ s.reaches f = true
      ∧ (s.eng .flume).stopped = none ∧ f.cuts op [⟨0, 0, []⟩] ≠ [] := by decide

/-! ### Witnesses: the headgate, the firmware and the hypervisor -/

theorem witness_HeadgateStartsTasks_calls : rec0.bad = false ∧ { rec0 with w6 := 1 }.bad = true ∧ 0 < pkg0.dies
    ∧ pkg0.partOf 0 = some part0 ∧ part0.running = true ∧ pkg0.queueLen 0 0 < 256 ∧ pkg0.power = .s0 ∧ pkg0.exitAt = none
    ∧ pkg0.misfit 0 rec0 = false ∧ pkg0.misfit 0 { rec0 with w5 := 0x200010 } = true := by decide
theorem witness_HeadgateStartsTasks_fills : ({ pkg0 with binds := [bind0] } : State).nextBind 0 = some bind0
    ∧ pkg0.findLaunch 1 = some launch0 ∧ (pkg0.coreAt 0).staged = .empty ∧ pkg0.distinct
    ∧ ({ pkg0 with binds := [{ bind0 with action := 2 }] } : State).nextBind 0 = some { bind0 with action := 2 } :=
  ⟨by decide, by decide, by decide, by simp [State.distinct, State.cores, pkg0, State.reset, Core.blank], by decide⟩

/-- A staged slot that fills from a launch image at 0x5000, which is a header alone. -/
def filling : State :=
  { pkg0 with
    mem := spSetMany emptyByte [] (numbered 0x5000 (leBytes 8 0x0001010000000000))
    cur := { Core.blank 0 with staged := .filling, stagedTask := { Task.blank with lid := 1 }, fillFrom := 0x5000 } }

/-- A task that is being saved to 0x5000. -/
def saving : State := { base with cur := { base.cur with slot := .saving, saveTo := 0x5000, task := { base.task with saving := true } } }

theorem witness_HeadgateStopsTasks : ({ base with binds := [{ bind0 with action := 3 }], launches := [launch0] } : State).nextBind 0
      = some { bind0 with action := 3 }
    ∧ (base.coreAt 0).holdsTask 1 0 = true ∧ (pkg0.coreAt 0).holdsTask 1 0 = false ∧ base.distinct ∧ base.canonical
    ∧ ({ launch0 with halted := [0] }.halted.contains 0) = true ∧ saving.gangStopped = true ∧ saving.cur.slot = .saving
    ∧ saving.canonical ∧ (∀ e, (saving.eng e).flight = []) ∧ saving.task.imageBad = false ∧ (flying .flume flight0).stoppedForSave = false :=
  ⟨by decide, by decide, by decide, distinct_of rfl, canon_of (by decide), by decide, by decide, by decide, canon_of (by decide),
    fun e => by cases e <;> rfl, by decide, by decide⟩
theorem witness_HeadgateStopsTasks_quantum :
    let s : State := { base with
      now := 3500000, launches := [launch0], parts := [part0]
      gangs := [⟨1, 0, .resident, 0, 0, false, []⟩, ⟨1, 1, .ready, 0, 0, false, []⟩] }
    s.gangs.find? (fun g => g.lid == 1 && g.idx == 0) = some ⟨1, 0, .resident, 0, 0, false, []⟩ ∧ launch0.rec_.timed = false
      ∧ s.rival ⟨1, 0, .resident, 0, 0, false, []⟩ launch0 = true ∧ s.byDefault launch0.part = true
      ∧ ({ s with parts := [{ part0 with ownPolicy := true }] } : State).byDefault launch0.part = false
      ∧ ({ s with gangs := [⟨1, 0, .resident, 0, 0, false, []⟩] } : State).rival ⟨1, 0, .resident, 0, 0, false, []⟩ launch0 = false := by
  decide
theorem witness_FaultsAreDeliveredAndContinued : ({ pkg0 with faults := [launchFault 0 9] } : State).canonical
    ∧ pkg0.partOf 0 = some part0 ∧ [launchFault 0 9].find? (fun r => r.part == 0) = some (launchFault 0 9) ∧ part0.ringSlots ≠ 0
    ∧ pkg0.rdNat .mem (part0.ring + 64 * part0.ringAt + 8) 8 = 0 ∧ base.distinct
    ∧ (let s := { withT (fun t => { t with parkAll := true, recs := [(launchFault 0 1)] }) with launches := [launch0] }
       s.cur.slot = .resident ∧ s.task.parkAll = true ∧ s.gangAt 1 0 = [0] ∧ s.undelivered 1 0 = false
         ∧ s.task.recs = [launchFault 0 1])
    ∧ (eng.eng .flume).head = some head0 :=
  ⟨canon_of (by decide), by decide, by decide, by decide, by decide,
    by simp [State.distinct, State.cores, base, State.reset, Core.blank], by decide, by decide⟩
theorem witness_TranslationsPowerAndWeir : (base.cores.any fun c => c.slot != .empty && c.task.part == 0 && c.task.blocksShootdown 0 9)
      = false
    ∧ (let s := flying .flume { flight0 with writes := [⟨.mem, 0, 0xFF, 1⟩] }
       (s.cores.any fun c => c.slot != .empty && c.task.part == 0 && c.task.blocksShootdown 0 9) = true)
    ∧ fld (1#64 <<< 40).toNat 40 24 ≠ 0 ∧ 1 < fld (2#64 <<< 32).toNat 32 8 ∧ fld (7#64).toNat 32 8 = 0
    ∧ (∃ c ∈ base.cores, c.slot ≠ .empty) ∧ base.power = .s0 ∧ spWf 0 base.weir = true ∧ 3 < base.dies :=
  ⟨by decide, by decide, by decide, by decide, by decide, ⟨base.cur, List.mem_cons_self .., by decide⟩, by decide⟩
theorem witness_BootUpdateAttestLoad : State.reset.boot = .off ∧ State.reset.verified State.reset.flash = false
    ∧ ({ State.reset with flash := ⟨1, 5, true, true⟩ } : State).verified ⟨1, 5, true, true⟩ = true ∧ pkg0.boot = .running
    ∧ pkg0.partOf 0 = some part0 ∧ pkg0.loadEnd part0 ⟨1, [], [], [(1, 1, 0)], [], [], [], false⟩ = .ok
    ∧ ({ pkg0 with d4 := false } : State).loadEnd part0 ⟨1, [], [], [(1, 1, 0)], [], [], [], true⟩ = .refused ∧ 7 < 2 * pkg0.dies := by decide
theorem witness_FatalErrorsAndLinks : pkg0.canonical ∧ pkg0.still ∧ (4#8).toNat ≤ 4 ∧ 71 < pkg0.lanes ∧ pkg0.lanesDown.contains 71 = false
    ∧ ({ pkg0 with lanesDown := List.range 17 } : State).lanesDown.contains 17 = false
    ∧ ∀ k, k < 18 → k ≠ 17 → ({ pkg0 with lanesDown := List.range 17 } : State).lanesDown.contains k = true :=
  ⟨canon_of (by decide), still_of (by decide), by decide, by decide, by decide, by decide, by decide⟩
theorem witness_HeadgateStartsTasks_images : filling.cur.staged = .filling ∧ filling.findLaunch 1 = some launch0
    ∧ filling.cur.fillCtx = false ∧ (∃ x, filling.readImage 0 0 0x5000 false = .ok x)
    ∧ (match filling.readImage 0 0 0x5000 false with
       | .ok x => x.header 1 && (x.launch (filling.identity launch0 0) false).isSome
       | .error _ => false) = true :=
  ⟨by decide, by decide, by decide, body_of (by decide), by decide⟩
theorem test_context_fill : after .contextFill filling (fun t => (t.cur.staged, t.cur.stagedTask.lid)) = some (.staged, 1) := by decide

/-- A staged task of launch 1 at core 0, with its record. -/
def staged : State :=
  { pkg0 with
    binds := [{ bind0 with started := true }]
    cur := { Core.blank 0 with staged := .staged, stagedTag := 3, stagedTask := { Task.blank with lid := 1, lcn := 0 } } }

theorem witness_HeadgateStartsTasks_group : staged.distinct ∧ staged.binds.filter (staged.inGroup 3) = [{ bind0 with started := true }]
    ∧ staged.stagedFor { bind0 with started := true } = true ∧ (staged.coreAt 0).slot = .empty
    ∧ staged.saved = [] ∧ ({ staged with cur := Core.blank 0 } : State).stagedFor { bind0 with started := true } = false :=
  ⟨by simp [State.distinct, State.cores, staged, pkg0, State.reset, Core.blank], by decide, by decide, by decide, by decide⟩
theorem test_request : after (.reductionRequest .flume 5) (asked id id)
    (fun t => (t.rdByte .scr 0, ((t.eng .flume).reqs.map (·.applied)))) = some (0x12, [true]) := by decide
theorem test_confirmation : after (.remoteConfirmation .flume 5) (asked (fun r => { r with applied := true }) id)
    (fun t => (t.eng .flume).reqs.map (·.confirmed)) = some [true] := by decide

/-! ### The words of the other instructions, written from the field tables (R14, R129 to R134) -/

/-- A CR or CE word: OP, D, A, B and the bits below, P0 as qualifier. -/
def cr (op d a b low : Nat) : Nat := op * 2 ^ 56 + d * 2 ^ 51 + a * 2 ^ 46 + b * 2 ^ 41 + low

/-- An engine word without IDLE and waits: OP, T1, T2, T3, MOD. -/
def cmd (op t1 t2 t3 mod : Nat) : Nat := 0x60C1_8000_0000 + op * 2 ^ 47 + t1 * 2 ^ 20 + t2 * 2 ^ 14 + t3 * 2 ^ 8 + mod

theorem test_words_system : decodeControl 0 = .ok (.nop q0) ∧ decodeControl 0x0300_0000_0000_0000 = .ok .brk
    ∧ decodeControl 0x0601_0A10_0000_0000 = .ok (.iinv q0 4 5 4 false)
    ∧ decodeControl 0x0600_000A_0000_0000 = .ok (.iinv q0 0 0 2 true) ∧ decodeControl (cr 0x07 0 3 4 0) = .ok (.prime q0 3 4)
    ∧ decodeControl 0x0928_0000_0000_0000 = .ok (.join q0 5) ∧ decodeControl 0x0A30_0000_0001_8000 = .ok (.twait q0 6 0 0 3)
    ∧ decodeControl 0x0B00_0008_0000_0000 = .ok (.qcancel q0 2) ∧ decodeControl 0x1200_0004_5000_0000 = .ok (.bar q0 1 5)
    ∧ decodeControl (cr 0x14 2 3 0 0) = .ok (.launch q0 2 3) := by decide
theorem test_words_integer : [0x21, 0x22, 0x23, 0x24, 0x25, 0x26, 0x27, 0x28, 0x2B].map (fun op => (decodeControl (cr op 1 2 3 0)).toOption)
    = [.sub q0 1 2 3, .and q0 1 2 3, .or q0 1 2 3, .xor q0 1 2 3, .andn q0 1 2 3, .shl q0 1 2 3, .shr q0 1 2 3, .sar q0 1 2 3,
        .mul q0 1 2 3].map some
    ∧ [0x29, 0x2A, 0x2C, 0x2D, 0x2E].map (fun op => (decodeControl (cr op 1 2 3 (2 ^ 29))).toOption)
    = [.min q0 true 1 2 3, .max q0 true 1 2 3, .mulh q0 true 1 2 3, .div q0 true 1 2 3, .rem q0 true 1 2 3].map some
    ∧ decodeControl 0x2D21_4C00_2000_0000 = .ok (.div q0 true 4 5 6)
    ∧ decodeControl (cr 0x2F 1 2 3 (0xC * 2 ^ 29)) = .ok (.csel q0 1 2 3 4 true) := by decide
theorem test_words_immediate : [0x31, 0x32, 0x33].map (fun op => (decodeControl (cr op 1 2 0 (7 * 2 ^ 5))).toOption)
    = [.andi q0 1 2 7, .ori q0 1 2 7, .xori q0 1 2 7].map some
    ∧ decodeControl (cr 0x34 1 2 0 (63 * 2 ^ 5)) = .ok (.shli q0 1 2 63)
    ∧ decodeControl (cr 0x36 1 2 0 (63 * 2 ^ 5)) = .ok (.sari q0 1 2 63)
    ∧ decodeControl 0x3908_8004_0700_0000 = .ok (.bfx q0 1 2 8 3 true)
    ∧ decodeControl (cr 0x3A 1 2 0 (8 * 2 ^ 31 + 3 * 2 ^ 25)) = .ok (.bfi q0 1 2 8 3) := by decide
theorem test_words_bits : decodeControl (cr 0x3B 1 2 0 (2 ^ 29)) = .ok (.rev q0 1 2 true)
    ∧ decodeControl (cr 0x3C 1 2 0 0) = .ok (.clz q0 1 2) ∧ decodeControl (cr 0x3D 1 2 0 0) = .ok (.ctz q0 1 2)
    ∧ decodeControl (cr 0x3E 1 2 0 0) = .ok (.popc q0 1 2) ∧ decodeControl (cr 0x3F 1 2 3 (2 ^ 29)) = .ok (.clmul q0 true 1 2 3)
    ∧ decodeControl 0x4054_E880_0000_0000 = .ok (.cmp 2 5 7 (.reg 8) 8)
    ∧ decodeControl 0x4100_000C_A800_0000 = .ok (.plog q0 3 1 2 8) ∧ decodeControl (cr 0x42 1 0 0 0) = .ok (.psave q0 1)
    ∧ decodeControl (cr 0x43 0 2 0 (6 * 2 ^ 29)) = .ok (.pload q0 2 6) := by decide
theorem test_words_float : [0x48, 0x49, 0x4A, 0x4B, 0x4C, 0x4D].map (fun op => (decodeControl (cr op 1 2 3 0)).toOption)
    = [.fadd q0 1 2 3, .fsub q0 1 2 3, .fmul q0 1 2 3, .ffma q0 1 2 3, .fmin q0 1 2 3, .fmax q0 1 2 3].map some
    ∧ decodeControl (cr 0x4E 1 2 0 (3 * 2 ^ 29)) = .ok (.fcvt q0 1 2 3)
    ∧ decodeControl (0x44 * 2 ^ 56 + 1 * 2 ^ 53 + 2 * 2 ^ 50 + 3 * 2 ^ 45 + 5 * 2 ^ 36 + 2 ^ 35 + 0x3F800000 * 8)
      = .ok (.fcmp 1 2 3 (.imm 0x3F800000) 5)
    ∧ decodeControl (cr 0x54 0 2 3 (5)) = .ok (.pref q0 2 3 5)
    ∧ decodeControl 0x524A_8006_D800_1810 = .ok (.lda q0 9 10 0 3 3 3 false 6 16) := by decide
theorem test_words_commands : decodeEngine .flume (cmd 0x70 0 0 0 0 + 1000) = .ok (.idle .flume h0 1000)
    ∧ decodeEngine .sluice (cmd 0x72 0 0 0 0 + 5 * 2 ^ 10 + 1 * 2 ^ 7) = .ok (.efence .sluice h0 5 1)
    ∧ decodeEngine .matrix 0x0004_E0C1_8090_0C02 = .ok (.amax h0 9 12 2)
    ∧ decodeEngine .matrix 0x0005_60C1_8070_0000 = .ok (.mseed h0 7)
    ∧ decodeEngine .flume 0x0001_60C1_8021_4600 = .ok (.gather h0 2 5 6 false)
    ∧ decodeEngine .flume 0x0001_E0C1_8021_4600 = .ok (.scatter h0 2 5 6 false)
    ∧ decodeEngine .flume (cmd 0x0B 0 0 0 0) = .ok (.engineOpcodeNotListed .flume (BitVec.ofNat 64 (cmd 0x0B 0 0 0 0))) := by decide

/-! ### Witnesses of the clauses about commands -/

/-- `eng` with an index list 0, 1 in place of 1, 0. -/
def rising : State := eng.wrBytes [⟨.reg, 0x300, 0xFF, 0⟩, ⟨.reg, 0x301, 0xFF, 1⟩]

theorem witness_IssueChangesNoByte_copies : eng.canonical ∧ eng.ordered ∧ eng.still ∧ (eng.eng .flume).strict = false
    ∧ ((engTimed .flume).eng .flume).strict = true ∧ (eng.slotView .flume 0 4).isOk = true ∧ (eng.slotView .flume 1 8).isOk = true
    ∧ (eng.slotView .flume 2 5).isOk = true ∧ goesB eng .flume .a (copyCost 15 13) (copyBody 15 13) = true
    ∧ verbatim (eng.task.entry 4) (eng.task.entry 5) = true ∧ verbatim (eng.task.entry 15) (eng.task.entry 13) = false :=
  ⟨canon_of (by decide), ordered_of rfl, still_of (by decide), by decide, by decide, by decide, by decide, by decide, by decide,
    by decide, by decide⟩
theorem witness_IssueChangesNoByte_rows : goesB rising .flume .a (gatherCost 16 8 17) (gatherBody true false 16 8 17) = true
    ∧ verbatim (eng.task.entry 16) (eng.task.entry 17) = true ∧ ([0, 1] : List Nat).Pairwise (· < ·)
    ∧ goesB eng .flume .a (fillCost 5) (fillBody 13 5 false) = true ∧ verbatim (eng.task.entry 13) (eng.task.entry 5) = false
    ∧ goesB eng .flume .a (fillCost 5) (fillBody 4 5 false) = true
    ∧ goesB eng .flume .a (putrCost 15 12) (putrBody 15 12 0) = true
    ∧ verbatim (eng.task.entry 13) (eng.task.entry 12) = true ∧ verbatim (eng.task.entry 15) (eng.task.entry 12) = false := by
  decide
theorem witness_CommandTimes_kinds : (eng.slotView .matrix 1 14).isOk = true ∧ (eng.task.entry 14).kind = 4
    ∧ (eng.task.entry 1).kind = 1 ∧ (eng.slotView .matrix 2 11).isOk = true ∧ (eng.task.entry 11).fmtCode = 0x20
    ∧ (eng.task.entry 2).fmtCode ≠ 0x20 ∧ (∃ x, wfillBody 4 14 eng = .ok x) ∧ (eng.slotView .flume 0 27).isOk = true
    ∧ (eng.task.entry 27).kind = 3 ∧ (eng.slotView .flume 2 28).isOk = true ∧ (eng.task.entry 28).kind = 8
    ∧ (eng.slotView .sluice 2 12).isOk = true ∧ (eng.task.entry 12).kind = 8 ∧ (eng.task.entry 18).kind ≠ 8
    ∧ (eng.slotView .sluice 0 21).isOk = true ∧ (eng.slotView .sluice 2 21).isOk = true ∧ (eng.task.entry 21).kind = 7 :=
  ⟨by decide, by decide, by decide, by decide, by decide, by decide, body_of (by decide), by decide⟩

/-! ### Witnesses of the clauses about landing -/

/-- A command of engine `e` with operation `op` and nothing else to write is due, its requests settled. -/
def landsB (e : EngId) (op : LandOp) : Bool :=
  let f : Flight := { flight0 with writes := [], op }
  (flying e f).due e f && ((flying e f).eng e).foldLeft 0 == none && ((flying e f).eng e).flight.find? (fun x => x.seq == 0) == some f

/-- An SACC on entry 18, and on an entry in another core. -/
def saccOn (tid : Nat) : SluOp := ⟨.sacc 0, [1, 0, 1], [7, 5, 1], [], ⟨eng.task.entry tid, 0⟩, View.none_, 0, 3, [], [], [], []⟩

theorem witness_CommandsLand_operations : landsB .flume (.fence 1) = true
    ∧ landsB .flume (.flu ⟨.copy, ⟨eng.task.entry 4, 0⟩, View.none_, ⟨eng.task.entry 5, 0⟩, View.none_.t, View.none_.t, View.none_.t, [], none, false, false, none, none⟩ [])
      = true
    ∧ landsB .matrix (.weight 0 2 [(0, 5), (1, 6)] [(4, 5)]) = true ∧ landsB .matrix (.fold ⟨.scr, 0x100, 5⟩) = true
    ∧ landsB .sluice (.slu (saccOn 18)) = true ∧ landsB .sluice (.slu (saccOn 12)) = true
    ∧ (saccOn 18).tgt.t.kind ≠ 8 ∧ (saccOn 12).tgt.t.kind = 8 := by decide
theorem witness_CommandsLand_stops : ((saccOn 18).perform (flying .sluice flight0)).stop = none
    ∧ (((saccOn 18).perform ((flying .sluice flight0).withTask { (flying .sluice flight0).task with bad := [(.scr, 0x44)] })).stop).isSome
      = true
    ∧ (flying .matrix flight0).canonical ∧ spWf false (flying .matrix flight0).task.wbValid = true
    ∧ (([(0, 5), (1, 6)] : List (Nat × Byte)).map (·.1)).Nodup ∧ (flying .matrix flight0).badIn .scr 0x100 4 = none
    ∧ (flying .flume flight0).task.saving = false ∧ (withT fun t => { t with parkAll := true }).task.parkAll = true :=
  ⟨by decide, by decide, canon_of (by decide), by decide, by decide, by decide, by decide, by decide⟩
theorem test_lands_fold : after (.commandLands .matrix 0)
    (flying .matrix { flight0 with writes := [], op := .fold ⟨.scr, 0x100, 0x40000000⟩ }) (fun t => t.rdNat .scr 0x100 4)
    = some 0x40000000 := by decide
theorem test_lands_weight : after (.commandLands .matrix 0)
    (flying .matrix { flight0 with writes := [], op := .weight 0 2 [(0, 5), (1, 6)] [(0, 1)] })
    (fun t => (t.rdByte .wbuf 0, t.rdByte .wbuf 1, (t.eng .matrix).toks.map (·.done))) = some (5, 6, [true]) := by decide

/-! ### Witnesses of the clauses about what lands -/

/-- Entries for a column-major and a 2:4 tile in the weight buffer, and for two accumulators. -/
def tiles : State := eng.withTask { eng.task with
  t := spSetMany 0 eng.task.t
    (ent 31 4 0x03 1 4 1 0xC000 0x400 256 ++ ent 33 4 0x03 2 4 4 0xC000 0x800 256 ++ ent 34 1 0x12 0 1 1 0xC010 0x780 64
      ++ ent 35 1 0x12 0 1 1 0xC010 0x7C0 64) }

theorem witness_AccumulatorUpdates_weights : (tiles.slotView .matrix 0 4).isOk = true ∧ (tiles.slotView .matrix 2 14).isOk = true
    ∧ (∃ x, wfillBody 4 14 tiles = .ok x) ∧ (∃ x, wfillBody 4 31 tiles = .ok x) ∧ (∃ x, wfillBody 4 33 tiles = .ok x)
    ∧ (tiles.task.entry 31).layout = 1 ∧ (tiles.task.entry 33).layout = 2 ∧ (tiles.task.entry 14).layout = 0
    ∧ (∃ x, winvBody 14 true tiles = .ok x) ∧ ∃ x, winvBody 14 false tiles = .ok x :=
  ⟨by decide, by decide, body_of (by decide), body_of (by decide), body_of (by decide), by decide, by decide, by decide,
    body_of (by decide), body_of (by decide)⟩
theorem witness_AccumulatorUpdates_tiles : tiles.canonical ∧ (∃ x, acccpBody 34 35 true tiles = .ok x)
    ∧ (∃ x, acccpBody 34 35 false tiles = .ok x) ∧ (View.mk (tiles.task.entry 35) 0).apart ∧ (tiles.task.entry 35).fmtCode ≠ 0x20
    ∧ (tiles.task.entry 11).kind = 1 ∧ (([(0, [.fin false 1 1]), (33, [])] : List (Int × List Machine.Num)).map (·.1)).Nodup
    ∧ (∃ x, drainBody false 34 13 0 tiles = .ok x) ∧ (∃ x, drainBody true 34 15 0 tiles = .ok x)
    ∧ (tiles.task.entry 13).sen = false ∧ (tiles.task.entry 15).kind = 2 :=
  ⟨canon_of (by decide), body_of (by decide), body_of (by decide), by unfold View.apart; decide, by decide, by decide, by decide,
    body_of (by decide), body_of (by decide), by decide, by decide⟩
theorem witness_AccumulatorUpdates_chain : (Shape.mk 0 0 0 0).clen = false ∧ (Shape.mk (2 ^ 32) 0 0 0).clen = true
    ∧ (Shape.mk (2 ^ 32) 0 0 0).smode = 0 ∧ (Shape.mk (2 ^ 32) 0 0 0).ben = false ∧ (Shape.mk (2 ^ 32) 0 0 0).func = 0
    ∧ (Shape.mk (2 ^ 32) 0 0 0).ccond = 0 ∧ (Shape.mk (2 ^ 32) 0 0 0).sel = 0 ∧ (f32 0x7FC00000).isNan = true
    ∧ (f32 5).isNan = false ∧ (Shape.mk (2 ^ 24) 0 0 0).outm = true := by decide
theorem test_fold_keeps_nan : foldWord 0x7FC00001 0x40000000 = 0x7FC00001 ∧ foldWord 0x3F800000 0x40000000 = 0x40000000
    ∧ foldWord 0x40400000 0x40000000 = 0x40400000 := by decide

/-! ### Witnesses of the clauses about the sluice -/

theorem witness_SeedsFillGenerators_sluice : (eng.eng .sluice).flight = [] ∧ eng.sound = true ∧ eng.canonical
    ∧ (View.mk (eng.task.entry 18) 0).apart ∧ (saccOn 18).last ≤ (saccOn 18).first + 64 ∧ (saccOn 18).tgt = ⟨eng.task.entry 18, 0⟩
    ∧ { saccOn 18 with last := 1 }.at_ 0 = some 1 ∧ { saccOn 18 with last := 1 }.unreadable 0 1 eng = none
    ∧ { saccOn 18 with idx := [9] }.at_ 0 = none :=
  ⟨by decide, by decide, canon_of (by decide), by unfold View.apart; decide, by decide, rfl, by decide, by decide, by decide⟩
theorem witness_SeedsFillGenerators_bodies : (∃ x, saccBody 8 10 18 false 0 eng = .ok x) ∧ (∃ x, sfetchBody 8 10 18 false 0 eng = .ok x)
    ∧ (∃ x, scasBody 8 19 18 false eng = .ok x) ∧ (∃ x, bsetBody 8 20 false eng = .ok x) ∧ (∃ x, bclrBody 8 20 false eng = .ok x)
    ∧ (∃ x, btestBody 8 11 20 false true eng = .ok x) ∧ (∃ x, btestBody 8 11 20 false false eng = .ok x)
    ∧ (∃ x, cincBody 8 21 false eng = .ok x) ∧ (∃ x, cmergeBody 21 22 eng = .ok x) ∧ (∃ x, creadBody 21 23 eng = .ok x)
    ∧ (eng.task.entry 23).sen = false ∧ (eng.slotView .sluice 1 10).isOk = true :=
  ⟨body_of (by decide), body_of (by decide), body_of (by decide), body_of (by decide), body_of (by decide), body_of (by decide),
    body_of (by decide), body_of (by decide), body_of (by decide), body_of (by decide), by decide, by decide⟩
/-- The first increment of a counter draws nothing, and an estimate of level 3 with K = 1 is 7 (R278, R281). -/
theorem test_counter : after (.commandLands .sluice 0)
    (flying .sluice { flight0 with writes := [], op := .slu ⟨.cinc, [0], [], [], ⟨eng.task.entry 21, 0⟩, View.none_, 0, 1, [], [], [], []⟩ })
    (fun t => (t.sluGet ⟨eng.task.entry 21, 0⟩ 0, t.task.sluGen == eng.task.sluGen)) = some (1, true) ∧ estimate 1 3 = 7 := by
  decide

/-! ### Witnesses of the clauses about streams, the headgate and the package -/

theorem witness_FlumeCommandsIssue_prefetch : ((engTimed .flume).eng .flume).strict = true
    ∧ ((engTimed .flume).eng .flume).head = some head0 ∧ (engTimed .flume).mayIssue .flume = true
    ∧ ((engTimed .flume).eng .flume).nextStamp h0.idle.toNat ≤ ((engTimed .flume).eng .flume).cnt
    ∧ ∀ w ∈ ((engTimed .flume).eng .flume).waits h0, (engTimed .flume).task.resolve .flume
        (((engTimed .flume).eng .flume).nextStamp h0.idle.toNat) ((engTimed .flume).eng .flume).seq w ≠ .token
      ∧ (engTimed .flume).task.resolve .flume
        (((engTimed .flume).eng .flume).nextStamp h0.idle.toNat) ((engTimed .flume).eng .flume).seq w ≠ .cancelled := by decide
theorem test_pfetch_timed : after (.pfetch h0 27) (engTimed .flume) codes = some [0x13] := by decide
theorem witness_SequencersRun_faults : (fetching 0x8000).canFetch .flume = true
    ∧ (let s := (fetching 0x8000).setEng .flume { (fetching 0x8000).eng .flume with rlo := 0x8000, rhi := 0x9000 }
       s.canFetch .flume = true ∧ (s.eng .flume).rlo ≤ (s.eng .flume).pc ∧ (s.eng .flume).pc + 8 ≤ (s.eng .flume).rhi
         ∧ s.fetchesNext .flume = true ∧ (s.eng .flume).peek = none
         ∧ (s.vread 0x8000 .fetch 8).1.isOk = false ∧ (s.eng .flume).queue = [] ∧ (s.eng .flume).started = true)
    ∧ cutWait.task.headSlot .flume = true ∧ opOf ((cutWait.eng .flume).queue.headD ⟨0, 0⟩).word ≠ 0x70 := by decide
theorem witness_InstructionInvalidate_registers : base.cur.slot = .resident ∧ (base.ctl.getJ 1).st = .empty
    ∧ ((staled base).ctl.getJ 1).st ≠ .empty ∧ ((withG []).getG 2).toNat = 0 := by decide
theorem test_iinv_empty : after (.iinvInvalidationPoint 1) { base with iinvs := [⟨1, 1, 0, 0, 0, 0, true, false, [0]⟩] }
    (fun t => (t.ctl.getJ 1).st) = some .empty := by decide

/-- Partition 0 has a virtual function, and the host its link. -/
def hosted : State := { pkg0 with hostLink := true, parts := [{ part0 with vf := true }] }

theorem witness_HeadgateStartsTasks_host : hosted.partOf 0 = some { part0 with vf := true } ∧ hosted.hostLink = true
    ∧ 0 < hosted.dies ∧ part0.running = true ∧ part0.vf = false ∧ rec0.bad = false := by decide
theorem test_launch_call_host : after (.hypervisorLaunchCall 0 ⟨0, true⟩ rec0) hosted (fun t => t.parts.map (·.lastCall)) = some [1]
    ∧ after (.hypervisorLaunchCall 0 ⟨0, true⟩ rec0) pkg0 (·.nextLid) = some 1 := by decide

/-- A parked task whose frame of engine `e` is timed or not, `landing` cycles away from a landing. -/
def parked (e : EngId) (timed : Bool) : State :=
  let s := if timed then engTimed e else eng
  s.withTask { s.task with parkAll := true, recs := engines.map fun x => { launchFault 0 1 with w0 := BitVec.ofNat 64 ((StreamId.engine x).num * 256) } }

theorem witness_FaultsAreDeliveredAndContinued_edits : (parked .flume false).cur.slot = .resident
    ∧ (parked .flume false).task.parkAll = true ∧ ((parked .flume false).eng .flume).head = some head0
    ∧ ((parked .flume true).eng .flume).strict = true ∧ ((parked .flume true).eng .flume).cnt < 140 ∧ opOf head0.word < 6
    ∧ ((parked .flume false).recordOf (.engine .flume)).isSome = true ∧ (parked .flume false).canonical :=
  ⟨by decide, by decide, by decide, by decide, by decide, by decide, by decide, canon_of (by decide)⟩
theorem test_emulated_lands_later : after (.taskEdit (.emulated .flume 140 [(0xFF80000000000280, 9)] true false)) (parked .flume true)
    (fun t => (t.rdByte .reg 0x280, (t.eng .flume).toks.map (·.done), (t.eng .flume).flight.map (·.land), (t.eng .flume).nan))
    = some (0, [false], [140], true) := by decide
theorem test_emulated_now : after (.taskEdit (.emulated .flume 0 [(0xFF80000000000280, 9)] false true)) (parked .flume false)
    (fun t => (t.rdByte .reg 0x280, (t.eng .flume).toks.map (·.done), (t.eng .flume).queue.length, (t.eng .flume).sat))
    = some (9, [true], 0, true) := by decide

/-- The same with a CINC at the head of the sluice's queue. -/
def counting : State :=
  (parked .sluice false).setEng .sluice { eng0 with queue := [⟨0x1000, BitVec.ofNat 64 (encode (.cinc h0 8 21 false))⟩] }

theorem witness_FaultsAreDeliveredAndContinued_counting :
    decodeEngine .sluice (encode (.cinc h0 8 21 false)) = .ok (.cinc h0 8 21 false) ∧ (∃ x, cincBody 8 21 false counting = .ok x)
    ∧ (counting.eng .sluice).head = some ⟨0x1000, BitVec.ofNat 64 (encode (.cinc h0 8 21 false))⟩
    ∧ counting.readyNow .sluice h0 .a (costEach 8 21 counting).lat = .go := ⟨by decide, body_of (by decide), by decide, by decide⟩
theorem witness_FaultsAreDeliveredAndContinued_memory : locate 0x1000 = .virt
    ∧ ((mapped 0xF9 id).translateIn 0 (some 0) 0x1000 .loader) = .ok 0x1000 ∧ (mapped 0xF9 id).canonical
    ∧ (mapped 0xF9 id).cur.slot ≠ .empty
    ∧ (({ base with saved := [(0x5000, SavedRest.blank)] } : State).saved.find? fun e => e.1 == 0x5000) = some (0x5000, SavedRest.blank) :=
  ⟨by decide, by decide, canon_of (by decide), by decide, by decide⟩
theorem test_debugger_store : after (.taskEdit (.store 0x1000 [7])) (mapped 0xF9 id) (fun t => t.rdByte .mem 0x1000) = some 7 := by
  decide
theorem witness_TranslationsPowerAndWeir_exits : base.saved = [] ∧ pkg0.hostLink = false ∧ pkg0.exitAt = none
    ∧ ({ pkg0 with exitAt := some 9, now := 9 } : State).exitAt = some 9 ∧ pkg0.power ≠ .s3 := by decide
theorem test_partition_wakes : after .powerStateExit
    { pkg0 with now := 3500, parts := [{ part0 with power := .s1, exitAt := some 3500 }, { part0 with id := 1, power := .s1 }] }
    (fun t => t.parts.map (·.power)) = some [.s0, .s1] := by decide

/-- A package whose boot descriptor names one partition of a verified image, and one that shares cores with it. -/
def booting : State :=
  { State.reset with
    flash := ⟨1, 5, true, true⟩, bootParts := [{ part0 with image := ⟨1, 6, true, true⟩ }, { part0 with id := 1 }] }

theorem witness_BootUpdateAttestLoad_parts : booting.boot = .off ∧ booting.verified booting.flash = true
    ∧ booting.wholeQuads part0 = true ∧ ([part0] : List Partition).Pairwise (fun p q => q.shares p = false) := by decide
theorem test_boot_forms : after .boot booting (fun t => (t.parts.map fun p => (p.id, p.running), t.bootReports.map (·.part)))
    = some ([(0, true)], [0]) := by decide
theorem test_boot_failed_core : after .boot { booting with coresFailed := [2] }
    (fun t => (t.parts.map (·.running), t.bootReports.map (·.failed))) = some ([false], [[2]]) := by decide

/-- A loaded object refers to name 5, and one that defines it. -/
def definer : CodeObject := ⟨1, [], [], [(1, 1, 0)], [⟨5, 0x100⟩], [], [], false⟩
def referrer : CodeObject := ⟨0, [], [], [(1, 1, 0)], [], [], [⟨5, 0x1008⟩], false⟩

theorem witness_BootUpdateAttestLoad_loads : servesEntry definer ([] ++ [definer]) = true
    ∧ servesEntry { definer with strong := [], weak := [⟨5, 0x200⟩] } ([definer] ++ [{ definer with strong := [], weak := [⟨5, 0x200⟩] }]) = false
    ∧ ({ pkg0 with parts := [{ part0 with objects := [referrer] }] } : State).loadEnd { part0 with objects := [referrer] } definer = .ok
    ∧ pkg0.loadEnd { part0 with objects := [definer] } definer = .conflict := by decide
theorem witness_BootUpdateAttestLoad_frames :
    let s : State := { mapped (2 ^ 58 + 0xF9) id with rings := [⟨7, 0, 0x10000, 0x20000, 2, 0, 0, 0, []⟩] }
    s.canonical ∧ s.portUsable 7 = true ∧ s.nmcBytes 0 0x10000 9 = some [0x10000, 0x10001, 0x10002, 0x10003, 0x10004, 0x10005,
      0x10006, 0x10007, 0x10008] := ⟨canon_of (by decide), by decide, by decide⟩

/-! ### Witnesses of the clauses that follow the second review -/

theorem unseen_of {s : State} (h : (engines.all fun e => (s.eng e).flight.all fun f => f.seen.isEmpty) = true) : s.unseen := by
  simp only [List.all_eq_true, List.isEmpty_iff] at h
  exact fun e => h e (by cases e <;> simp [engines])

theorem witness_LoadsAndStoresComplete_unseen : regs.unseen ∧ (flying .flume flight0).unseen :=
  ⟨unseen_of (by decide), unseen_of (by decide)⟩
theorem witness_JoinAndTokenWait_end : (0#64).toNat < 2 ^ 14 ∧ (4#5) ≠ 0
    ∧ (let g : Eng := { Eng.idle with forked := true, ended := true, endSeq := some 39, seq := 40, toks := [⟨39, 9, true, false⟩] }
       g.cut = false ∧ g.toks.find? (fun t => some t.seq == g.endSeq) = some ⟨39, 9, true, false⟩ ∧ g.seq ≤ 40
         ∧ g.toks.find? (fun t => t.seq == 40) = none)
    ∧ ({ Eng.idle with forked := true, running := true } : Eng).cut = false := by decide

/-- The flume stands in the second of three passes of a body of one word. -/
def looping : State := eng.setEng .flume { eng0 with rep := some ⟨1, 3, 1, 0, 0, 0, 0⟩ }

theorem witness_GenericCommands_body : looping.mayGo .flume h0 .none 0 head0
    ∧ looping.mayGo .flume h0 .none (((looping).eng .flume).fenceLat 0) head0 := ⟨⟨by decide, by decide⟩, ⟨by decide, by decide⟩⟩
theorem test_idle_in_body : after (.idle .flume h0 0) looping (fun t => ((t.eng .flume).rep, (t.eng .flume).queue.length))
    = some (some ⟨1, 3, 2, 0, 0, 0, 0⟩, 1) := by decide

/-- Bit tiles, an INT32 list and a BYTE row with one scale each, and a bit accumulator. -/
def scaledS : State := tiles.withTask { tiles.task with
  t := spSetMany 0 tiles.task.t
    (ent 36 1 0x05 0 1 1 0xC000 0x540 64 ++ [(8 * 36 + 4, 0x18480F)] ++ ent 37 2 0x21 0 1 4 0x8000 0 256 ++ [(8 * 37 + 4, 0x18480F)]
      ++ ent 38 2 0x21 0 1 4 0x8000 0 256 ++ ent 40 1 0x20 0 1 32 0xC000 0x500 64 ++ ent 41 1 0x20 0 32 1 0xC000 0x600 1
      ++ ent 42 1 0x20 0 1 1 0xC010 0x740 64) }

theorem witness_IssueChangesNoByte_scaled : (∃ x, cmpbBody 37 38 13 scaledS = .ok x) ∧ (∃ x, cmpbBody 38 38 36 scaledS = .ok x)
    ∧ (scaledS.task.entry 37).sen = true ∧ (scaledS.task.entry 36).sen = true ∧ (scaledS.task.entry 13).sen = false :=
  ⟨body_of (by decide), body_of (by decide), by decide, by decide, by decide⟩
theorem witness_AccumulatorUpdates_mma : (∃ x, mmaBody 0 1 2 .sum false false false eng = .ok x)
    ∧ (match mmaBody 0 1 2 .sum true false false eng with | .ok x => !x.2.held | .error _ => false) = true
    ∧ (match mmaBody 0 1 2 .max false false false eng with | .ok x => !x.2.held | .error _ => false) = true
    ∧ (match mmaBody 40 41 42 .xor false false false scaledS with | .ok x => !x.2.held | .error _ => false) = true
    ∧ (eng.slotView .matrix 0 0).isOk = true ∧ eng.operand ⟨eng.task.entry 0, 0⟩ = .stored ⟨eng.task.entry 0, 0⟩
    ∧ (eng.task.entry 0).layout < 2 ∧ (eng.task.entry 1).layout < 2 ∧ (eng.task.entry 0).furrowed = false
    ∧ (eng.task.entry 0).laneMod = 0 ∧ (eng.task.entry 1).laneMod = 0 :=
  ⟨body_of (by decide), by decide⟩
theorem witness_AccumulatorUpdates_passes : (∀ x ∈ ([.inf false, .inf true] : List Machine.Num), x.isNan = false)
    ∧ (Machine.Num.inf false) ∈ ([.inf false, .fin true 1 1] : List Machine.Num)
    ∧ (Machine.Num.inf true) ∉ ([.inf false, .fin true 1 1] : List Machine.Num)
    ∧ (∀ x ∈ ([.fin true 0 1, .fin true 0 1] : List Machine.Num), x.isZero = true)
    ∧ (∃ x ∈ ([.fin true 0 1, .fin true 3 4] : List Machine.Num), x.isZero = false)
    ∧ (AccEl.mk 0 ⟨true, false⟩).fl.touched = true ∧ (AccEl.mk 0 ⟨false, false⟩).fl.touched = false := by decide
/-- 2^70 takes a 1, which lies below its unit 2^6, to 0; 2^24 + 1 rounds to even (R185). -/
theorem test_pass_cut : passSum [.fin false (2 ^ 70) 1, .fin false 1 1] = .fin false (2 ^ 70) 1
    ∧ rne32 (passSum [.fin false (2 ^ 24) 1, .fin false 1 1]) = 0x4B800000
    ∧ passSum [.inf false, .inf true] = .nan 0x7FC00000 ∧ passSum [.fin true 0 1, .fin true 0 1] = .fin true 0 1 := by decide
/-- One word of a BIT accumulator that a command covers in part keeps its other bits, and TOUCHED (R189, R200). -/
theorem test_bits_outside_stay :
    let s := (eng.wrNat .reg 0x500 4 0x80000000).perform true
      (accBits (eng.wrNat .reg 0x500 4 0x80000000) ⟨eng.task.entry 11, 0⟩ false false [(0x2800, [.fin false 1 1])]).1
      (accBits (eng.wrNat .reg 0x500 4 0x80000000) ⟨eng.task.entry 11, 0⟩ false false [(0x2800, [.fin false 1 1])]).2
    s.rdNat .reg 0x500 4 = 0x80000001 ∧ (spGet Flag.fresh s.task.flags 0x140).touched = true := by decide
theorem witness_RanksArePermutation_order : ∃ goes : Nat → Nat → Bool, ∀ i j x y,
    ([.fin false 3 1] : List Machine.Num)[i]? = some x → ([.fin false 3 1] : List Machine.Num)[j]? = some y →
    (goes j i = true ↔ (y.isNan = false ∧ x.isNan = true) ∨ (y.isNan = true ∧ x.isNan = true ∧ j < i) ∨
      (y.isNan = false ∧ x.isNan = false ∧ (((false : Bool) = false ∧ x.lt y = true) ∨
        ((false : Bool) = true ∧ y.lt x = true) ∨ (x.eq y = true ∧ j < i)))) := by
  refine ⟨fun _ _ => false, fun i j x y hx hy => ?_⟩
  rcases i with _ | i
  · rcases j with _ | j
    · simp only [List.length_cons, List.length_nil, Nat.zero_lt_succ, List.getElem?_eq_getElem, List.getElem_cons_zero,
        Option.some.injEq] at hx hy
      subst hx hy
      decide
    · simp at hy
  · simp at hx
theorem witness_RanksArePermutation_bodies : (∃ x, rankBody 6 7 false eng = .ok x) ∧ (∃ x, topkBody 6 7 1 false eng = .ok x)
    ∧ (∃ x, partBody 6 7 false eng = .ok x) ∧ (eng.slotView .matrix 0 6).isOk = true ∧ (eng.slotView .matrix 2 7).isOk = true :=
  ⟨body_of (by decide), body_of (by decide), body_of (by decide), by decide, by decide⟩
theorem witness_SeedsFillGenerators_taken :
    let op : SluOp := { saccOn 21 with kind := .cinc, last := 1, rise := [(0, 2)] }
    op.raised 0 = some 2 ∧ op.at_ op.first = some 1 ∧ op.unreadable 0 1 eng = none ∧ op.last = op.first + 1
      ∧ (saccOn 18).done = [] ∧ { op with rise := [] }.raised 0 = none := by decide

/-- The flume has no free slot for its 33rd command, or has read a word that it keeps. -/
def crowded (peek : Option Word) : State :=
  eng.setEng .flume { (fetching 0xFF80000001000000).eng .flume with seq := 32, peek, toks := [⟨0, 1, false, false⟩] }

theorem witness_SequencersRun_kept : (crowded none).canFetch .flume = true ∧ (crowded none).task.admits .flume 0x14131211 = false
    ∧ ((crowded (some 0)).eng .flume).peek = some 0 ∧ (crowded (some 0)).task.admits .flume 0 = false
    ∧ (let s := eng.setEng .flume { eng0 with queue := [], pc := 0xFF40000000000000, rlo := 1, rhi := 0 }
       s.canFetch .flume = true ∧ (s.eng .flume).rhi < (s.eng .flume).pc + 8 ∧ locate 0xFF40000000000000 = .none
         ∧ (s.eng .flume).queue = [] ∧ (s.eng .flume).started = true) := by decide
theorem test_fetch_kept : after (.sequencerFetch .flume) (crowded none) (fun t => ((t.eng .flume).peek, (t.eng .flume).queue.length))
    = some (some 0x14131211, 0) := by decide
theorem test_fetch_nowhere : after (.sequencerFetch .flume)
    (eng.setEng .flume { eng0 with queue := [], pc := 0xFF40000000000000, rlo := 1, rhi := 0 }) codes = some [0x0B] := by decide
theorem witness_HeadgateStopsTasks_bad : (saving.withTask { saving.task with bad := [(.reg, 3)] }).task.imageBad = true
    ∧ (saving.withTask { saving.task with bad := [(.reg, 3)] }).gangStopped = true := by decide

/-- The debugger at a core whose slot is EMPTY, in a partition that maps its memory. -/
def emptied : State := { mapped 0xF9 id with cur := Core.blank 0, parts := [{ fetchPart 0 0 0 with cores := [0] }] }

theorem witness_FaultsAreDeliveredAndContinued_empty : emptied.cur.slot = .empty
    ∧ (emptied.parts.find? fun p => p.cores.contains emptied.cur.pcore) = some { fetchPart 0 0 0 with cores := [0] }
    ∧ emptied.translateIn 0 none 0x1000 .loader = .ok 0x1000 := by decide
theorem test_debugger_store_empty : after (.taskEdit (.store 0x1000 [7])) emptied (fun t => t.rdByte .mem 0x1000) = some 7 := by
  decide
theorem witness_FaultsAreDeliveredAndContinued_displaced :
    let s := withT fun t => { t with parkCtl := true }
    s.cur.slot = .resident ∧ s.ctl.waiting = false ∧ decodeControl 0x622A_0000_0000_0000 = .ok (.xfer 1 2 true)
      ∧ ∃ u, exec (.xfer 1 2 true) (s.withCtl { s.ctl with ir := 0x622A_0000_0000_0000, step := false }) = .next u :=
  ⟨by decide, by decide, by decide, _, rfl⟩
theorem test_displaced_unprepared : after (.taskEdit (.displaced 0x622A_0000_0000_0000)) (withT fun t => { t with parkCtl := true }) codes
    = some [0x03] := by decide

/-! ### Witnesses of the clauses that follow the third review -/

/-- A command of a timed frame that a load has seen before its landing. -/
def seenS : State := flying .flume { flight0 with timed := true, seen := [(.reg, 10)] }

theorem witness_LoadsAndStoresComplete_waits : ¬seenS.unseen ∧ seenS.holds q0 = true ∧ (1#16) ≠ 0 ∧ (1#3) ≠ 0 :=
  ⟨fun h => absurd (h .flume _ (List.Mem.head _)) (by decide), by decide, by decide, by decide⟩
theorem test_fence_waits : after (.fence q0 1 1 1) seenS (·.ctl.waiting) = some true
    ∧ after (.fence q0 1 1 0) seenS (·.ctl.waiting) = some false := by decide
theorem test_stl_waits : after (.stl q0 2 1 0 0 1 0 1 0) seenS (·.ctl.waiting) = some true := by decide
theorem witness_LaunchSubmits_waits : launchWords [0, 0, 0, 1, 0, 0x10, 0, 0] = ⟨0, 0, 0, 1, 0, 0x10, 0, 0⟩
    ∧ (lists [0, 0, 0, 1, 0, 0x10, 0, 0] 0).unseen ∧ ¬seenS.unseen :=
  ⟨rfl, unseen_of (by decide), fun h => absurd (h .flume _ (List.Mem.head _)) (by decide)⟩

/-- The context image of a task that was saved parked, in the slot that fills. -/
def refilling : State :=
  { filling with
    mem := spSetMany emptyByte [] (numbered 0x5000 (leBytes 8 0x0001020000000000))
    cur := { filling.cur with fillCtx := true }
    saved := [(0x5000, { SavedRest.blank with lid := 1, parkAll := true })] }

theorem witness_HeadgateStartsTasks_context : refilling.cur.staged = .filling ∧ refilling.findLaunch 1 = some launch0
    ∧ (match refilling.readImage 0 0 0x5000 false with | .ok x => x.header 2 | .error _ => false) = true
    ∧ (refilling.saved.find? fun e => e.1 == refilling.cur.fillFrom).isSome = true := by decide
theorem test_refill_keeps_park : after .contextFill refilling (fun t => (t.cur.staged, t.cur.stagedTask.parkAll)) = some (.staged, true) := by
  decide
theorem test_bind_waits_for_exit : after (.bind 0) { pkg0 with binds := [bind0], parts := [{ part0 with power := .s1 }] }
    (fun t => (t.cur.staged, t.binds.map (·.started))) = some (.empty, [false]) := by decide

/-- Two tasks of one gang on cores 0 and 1, of which the first is to be saved, and maybe the second. -/
def pair0 (slot : SlotSt) (g : Eng) : State :=
  { base with
    launches := [{ launch0 with rec_ := { rec0 with w3 := 2 ^ 62 + 1 } }]
    cur := { base.cur with slot := slot }
    rest := [{ Core.blank 1 with slot := slot, task := { Task.blank with lid := 1, lcn := 1, f := g } }]
    binds := [{ bind0 with action := 3, commit := false, groupn := 2 },
      { bind0 with action := 3, groupn := 2, pcore := 1, lcn := 1, addr := 0x405000 }] }

theorem test_preempt_waits_for_group : after (.preempt 0) (pair0 .resident Eng.idle)
    (fun t => (t.cur.slot, t.rest.map (·.slot), t.binds.map (·.started))) = some (.resident, [.resident], [true, false]) := by decide
theorem test_preempt_group :
    ((after (.preempt 0) (pair0 .resident Eng.idle) id).bind fun s =>
      after (.preempt 0) s fun t => (t.cur.slot, t.rest.map (·.slot), t.rest.map (·.saveTo)))
      = some (.saving, [.saving], [0x405000]) := by decide
theorem witness_HeadgateStopsTasks_group :
    let s := pair0 .saving { Eng.idle with flight := [flight0] }
    s.cur.slot = .saving ∧ (s.findLaunch s.task.lid).isSome = true ∧ s.cores.map (·.slot) = [.saving, .saving]
      ∧ s.gangOf { rec0 with w3 := 2 ^ 62 + 1 } 1 = s.gangOf { rec0 with w3 := 2 ^ 62 + 1 } 0
      ∧ (s.focus 0).stoppedForSave = true ∧ (s.focus 1).stoppedForSave = false := by decide
theorem test_saved_waits_for_gang : after .contextSaved (pair0 .saving { Eng.idle with flight := [flight0] }) (·.cur.slot) = some .saving := by
  decide

/-- A task of launch 1 that was saved parked. -/
def savedParked : State :=
  { base with launches := [launch0], saved := [(0x5000, { SavedRest.blank with lid := 1, parkAll := true })] }

theorem witness_FaultsAreDeliveredAndContinued_saved : savedParked.findLaunch 1 = some launch0
    ∧ (savedParked.gangCores launch0 (savedParked.gangOf launch0.rec_ 0)).contains 0 = true ∧ savedParked.undelivered 1 0 = false := by
  decide
theorem test_continue_saved : after (.taskContinue 1 0) savedParked (fun t => t.saved.map (·.2.parkAll)) = some [false] := by decide
theorem test_edit_releases : after (.taskEdit (.image 0x5000 0x100 7)) savedParked (fun t => (t.saved.map (·.2.parkAll), t.rdNat .mem 0x5100 8))
    = some ([false], 7) := by decide

/-- The displaced PREP names a J register that already fetches the same target. -/
theorem test_displaced_prep : after (.taskEdit (.displaced (BitVec.ofNat 64 (encode (.prep 1 0 false 3)))))
    ((withT fun t => { t with parkCtl := true }).setJ 1 ⟨0x1018, .fetching, []⟩) (fun t => (t.ctl.getJ 1).st) = some .stale := by decide
theorem test_page_beyond : (View.mk (eng.task.entry 4) (2 ^ 64)).beyond.map (·.code) = some .notPresent
    ∧ (View.mk (eng.task.entry 4) 0).beyond = none := by decide

/-- A PUTR whose second request is unconfirmed: its lanes as before that request's element, and as after the last again. -/
theorem test_rewind_sent :
    let op : FluOp := ⟨.putr 0, ⟨eng.task.entry 4, 0⟩, View.none_, ⟨eng.task.entry 28, 0⟩, View.none_.t, View.none_.t, View.none_.t, [], none, false, false, none, none⟩
    let f : Flight := { flight0 with op := .flu op [⟨0, 0, [(0, 5)]⟩, ⟨1, 0, [(0, 6)]⟩, ⟨2, 0, [(0, 7)]⟩] }
    let r := (withT fun t => { t with flumeGen := [(0, 7)] }).rewindSent f 1
    r.1.task.flumeGen = [(0, 6)] ∧ (r.1.resumeSent r.2).1.task.flumeGen = [(0, 7)] := by decide

/-- An SACC that lands before a flume write on the same word, which a load has seen. -/
theorem test_glimpse_in_landing_order :
    let s := (flying .sluice { flight0 with
        timed := true, land := 90, writes := []
        op := .slu ⟨.sacc 0, [0], [5], [], ⟨eng.task.entry 18, 0⟩, View.none_, 0, 1, [], [], [], []⟩ }).setEng .flume
      { eng0 with flight := [{ flight0 with
          timed := true, seen := [(.scr, 1)]
          writes := [⟨.scr, 0x40, 0xFF, 9⟩, ⟨.scr, 0x41, 0xFF, 0⟩, ⟨.scr, 0x42, 0xFF, 0⟩, ⟨.scr, 0x43, 0xFF, 0⟩] }] }
    let r := s.glimpse .scr 0x40
    r.2.rdNat .scr 0x40 4 = 9 ∧ r.1.rdNat .scr 0x40 4 = 0 ∧ (r.1.eng .sluice).flight.map (·.seen) = [[]] := by decide

/-! ### Witnesses of the clauses that follow the fourth review -/

theorem unseenAnywhere_of {s : State}
    (h : (s.cores.all fun c => engines.all fun e => (c.task.eng e).flight.all fun f => f.seen.isEmpty && !f.drew) = true) :
    s.unseenAnywhere := by
  simp only [List.all_eq_true, List.isEmpty_iff, Bool.and_eq_true, Bool.not_eq_true'] at h
  exact fun c hc e => h c hc e (by cases e <;> simp [engines])

theorem witness_LoadsAndStoresComplete_unseenAnywhere : regs.unseenAnywhere ∧ (flying .flume flight0).unseenAnywhere
    ∧ ¬seenS.unseenAnywhere :=
  ⟨unseenAnywhere_of (by decide), unseenAnywhere_of (by decide),
    fun h => absurd (h _ (List.Mem.head _) .flume _ (List.Mem.head _)) (by decide)⟩

/-- A timed SACC with new value 5 for a word that holds 0, which a load finds new or old. -/
def saccTimed (running : Bool) (seen : List (Space × Nat)) : State :=
  let s := flying .sluice { flight0 with
    timed := true, land := 200, writes := [], seen
    op := .slu ⟨.sacc 0, [0], [5], [], ⟨eng.task.entry 18, 0⟩, View.none_, 0, 1, [], [], [], []⟩ }
  engines.foldl (fun s e => s.setEng e { s.eng e with running }) s

theorem test_update_unsettled : (let r := (saccTimed true []).glimpse .scr 0x40
      (r.2.rdNat .scr 0x40 4, (r.1.eng .sluice).flight.map (·.seen))) = (0, [[]])
    ∧ ((saccTimed false [(.scr, 1)]).glimpse .scr 0x40).2.rdNat .scr 0x40 4 = 5 := by decide

/-- What core 0's load has seen shows to core 1's as landed (R85). -/
theorem test_seen_elsewhere :
    let s : State := { flying .flume { flight0 with timed := true, land := 200, seen := [(.scr, 1)], writes := [⟨.scr, 0x40, 0xFF, 9⟩] } with
      rest := [{ Core.blank 1 with slot := .resident, task := { Task.blank with lid := 1, lcn := 1 } }] }
    ((s.focus 1).glimpse (.far 0) 0x40).2.rdNat (.far 0) 0x40 1 = 9 ∧ s.rdNat .scr 0x40 1 = 0 := by decide

/-- A gang of which one task stands on die 0 and one on die 1. -/
def acrossDies : State :=
  { base with
    launches := [launch0]
    cur := { base.cur with task := { base.task with gsize := 576 } }
    rest := [{ Core.blank 144 with slot := .resident, task := { Task.blank with lid := 1, lcn := 144, gsize := 576 } }]
    binds := [{ bind0 with action := 4 }] }

theorem witness_HeadgateStopsTasks_gang : acrossDies.distinct ∧ acrossDies.nextBind 0 = some { bind0 with action := 4 }
    ∧ acrossDies.cores.map (fun c => (dieOf c.pcore, c.task.gang)) = [(0, 0), (1, 0)] :=
  ⟨by simp [State.distinct, State.cores, acrossDies, base, Core.blank], by decide, by decide⟩
theorem test_kill_gang : after (.kill 0) acrossDies (fun t => (t.cores.map (·.slot), t.launches.map (·.st)))
    = some ([.empty], [.finished]) := by decide

theorem test_line_without_bad_words : (({ base with badMem := [0x1008] } : State).memLine 0x1000 0x1000).map (·.1)
    = [0x1000, 0x1010, 0x1018, 0x1020, 0x1028, 0x1030, 0x1038] := by decide
theorem test_package_without_partitions : ({ State.reset with hostLink := true, hostTol := 20000000 } : State).deepest = .s3
    ∧ ({ State.reset with hostLink := true, hostTol := 150000 } : State).deepest = .s2 ∧ State.reset.deepest = .s0 := by decide
/-- A command whose target overlaps its source writes all or nothing (R239). -/
theorem test_cuts_whole :
    let op : FluOp := ⟨.bcast [0, 1], ⟨eng.task.entry 4, 0⟩, View.none_, ⟨eng.task.entry 28, 0⟩, View.none_.t, View.none_.t, View.none_.t, [], none, true, false, none, none⟩
    let ends : List FluEnd := [⟨0, 0, []⟩, ⟨1, 1, []⟩]
    ({ flight0 with op := .flu op ends }).cuts op ends = [0]
      ∧ ({ flight0 with op := .flu { op with whole := false } ends }).cuts { op with whole := false } ends = [0, 1] := by decide

/-- Two CINC in flight on counters 0 and 1, each of level 3. -/
def twoCounts : State :=
  let op (i : Int) : LandOp := .slu ⟨.cinc, [i], [], [], ⟨eng.task.entry 21, 0⟩, View.none_, 0, 1, [], [], [], []⟩
  (eng.setEng .sluice { eng0 with
    seq := 2, toks := [⟨0, 1, false, false⟩, ⟨1, 1, false, false⟩], queue := []
    flight := [{ flight0 with writes := [], op := op 0 }, { flight0 with seq := 1, writes := [], op := op 1 }] }).wrNat .scr 0xC0 2 0x303

/-- A read that finds the later one's counter new leaves the levels and the generator as without it (R269, R270). -/
theorem test_counts_in_order :
    let read := match (twoCounts.eng .sluice).flight with
      | [_, f] => twoCounts.sluParts f fun sp a => sp == .scr && a == 0xC1
      | _ => twoCounts
    let ends (s : State) := ((after (.commandLands .sluice 0) s id).bind fun s => after (.commandLands .sluice 1) s fun t =>
      (t.rdNat .scr 0xC0 2, t.task.sluGen))
    ends read = ends twoCounts ∧ (ends twoCounts).isSome = true := by decide

/-! ### Witnesses and tests of the clauses that follow the fifth review -/

theorem witness_StepRunsDecoded_leaves : (State.focus { placed with agenda := [] } 0).oldLeaf 0 = none
    ∧ (State.focus { placed with agenda := [] } 0).task.icache = [] := by decide
theorem witness_distinct : base.distinct ∧ eng.distinct ∧ tiles.distinct ∧ meeting.distinct ∧ (flying .flume flight0).distinct
    ∧ (asked id id).distinct ∧ (asked id id).unseenAnywhere :=
  ⟨distinct_of rfl, distinct_of rfl, distinct_of rfl, distinct_of rfl, distinct_of rfl, distinct_of rfl, unseenAnywhere_of (by decide)⟩
theorem witness_LoadsAndStoresComplete_faults : base.holds q0 = true
    ∧ (base.target 0x1003 8 .load).1 = .trap { code := .align, addr := some 0x1003 }
    ∧ (base.target 0x1003 8 .store).1 = .trap { code := .align, addr := some 0x1003 }
    ∧ ((withT fun t => { t with gsize := 2 }).target 0xFF00000001000000 8 .load).1 = .held
    ∧ ((withT fun t => { t with gsize := 2 }).target 0xFF00000001000000 8 .store).1 = .held
    ∧ (withT fun t => { t with bad := [(.reg, 12)] }).badIn .reg 8 8 = some 12
    ∧ ((withT fun t => { t with bad := [(.reg, 12)] }).target 0xFF80000000000008 8 .load).1 = .at_ .reg 8 := by decide
theorem test_load_uncorrectable : after (.ld q0 2 1 0 0 3 false 0)
    ((withT fun t => { t with bad := [(.reg, 12)] }).withCtl { ctl0 with g := [(1, 0xFF80000000000008)] })
    (fun t => (cp t, t.faults.map (·.w5.toNat))) = some (([0x16], 0x1000), [0xFF8000000000000C]) := by decide

/-- A queued command holds its token slot: the bit of the command before it in that slot is not shown (R25, R306). -/
theorem test_slot_bits :
    ({ eng0 with seq := 32, toks := [⟨1, 2, true, false⟩, ⟨0, 1, true, false⟩], queue := [⟨0x1000, 0⟩] } : Eng).slotBits false = 2
      ∧ ({ eng0 with seq := 32, toks := [⟨1, 2, true, false⟩, ⟨0, 1, true, false⟩], queue := [] } : Eng).slotBits false = 3 := by decide

/-- FORK carries the flags of an engine that has run nothing into the report (R166). -/
theorem test_fork_flags : after (.fork q0 0 1 0 1)
    (((withG [(1, 0xFF80000001000000)]).setEng .matrix { Eng.idle with nan := true, sat := true }))
    (fun t => (t.ctl.pending.toNat, (t.eng .matrix).nan, (t.eng .matrix).running)) = some (12, false, true) := by decide

/-- A launch image whose FRAMECNT word is 5: the clock of its task reads 0 (R125). -/
theorem test_launch_clock : after .contextFill
    { filling with mem := spSetMany emptyByte filling.mem (numbered 0x5260 (leBytes 8 5) ++ numbered 0x5270 (leBytes 8 7)) }
    (fun t => (t.cur.staged, t.cur.stagedTask.ctl.framecnt, t.cur.stagedTask.ctl.frame)) = some (.staged, 0, false) := by decide

/-- A BTEST of bit 0 and after it a BSET of it, in flight; the BTEST's old values go to 0x4C0. -/
def testThenSet : State :=
  let op (k : SluKind) (vals : List Nat) (res : View) : LandOp := .slu ⟨k, [0], vals, [], ⟨eng.task.entry 20, 0⟩, res, 0, 1, [], [], [], []⟩
  eng.setEng .sluice { eng0 with
    seq := 2, toks := [⟨1, 1, false, false⟩, ⟨0, 1, false, false⟩], queue := []
    flight := [{ flight0 with writes := [], op := op (.btest false) [] ⟨eng.task.entry 11, 0⟩ },
      { flight0 with seq := 1, writes := [], op := op .bset [1] View.none_ }] }

/-- A read that finds the BSET new leaves the BTEST the old bit (R269, R270). -/
theorem test_btest_before_bset :
    let bit := ((View.mk (eng.task.entry 20) 0).bitAt 0 0 / 8).toNat
    let read := match (testThenSet.eng .sluice).flight with
      | [_, f] => testThenSet.sluParts f fun sp a => sp == (eng.task.entry 20).space && a == bit
      | _ => testThenSet
    read.rdByte (eng.task.entry 20).space bit = 1
      ∧ (after (.commandLands .sluice 0) read fun t => t.rdByte .reg 0x500) = some 0 := by decide

/-- An edit of PC past a waiting BAR: the BAR at another pair arrives there, and the first arrival still counts (R171). -/
theorem test_bar_other_pair : after (.bar q0 1 6) { meeting with departs := [] }
    (fun t => (t.arrivals.map (·.bid), t.left.map (·.bid), t.ctl.waiting)) = some ([6], [5], true) := by decide
theorem test_departure_of_left : after (.barrierDeparture 1 1 0 5)
    { meeting with departs := [], arrivals := [], left := [⟨1, 0, 1, 0, 5, false, 0, 0, [], 0⟩] }
    (fun t => (t.left.length, t.departs.length)) = some (0, 0) := by decide
theorem witness_BarriersMeet_left : ({ meeting with departs := [] } : State).arrivals.any
      (fun x => (x.lid == 1 && x.lcn == 0) && x.scope == 1 && x.bid == 6) = false
    ∧ (([⟨1, 0, 1, 0, 5, false, 0, 0, [], 0⟩] : List Arrival) ++ []).find? (fun (a : Arrival) => a.lid == 1 && a.bid == 5 && a.lcn == 0)
      = some ⟨1, 0, 1, 0, 5, false, 0, 0, [], 0⟩ ∧ (base.showFor .reg 0 64).unseenAnywhere :=
  ⟨by decide, by decide, unseenAnywhere_of (by decide)⟩

/-- An IINV of another range than the one that an edit has left starts its own (R163). -/
theorem test_iinv_other_range : after (.iinv q0 1 2 0 false)
    { withG [(1, 0x1000), (2, 64)] with iinvs := [⟨1, 1, 0, 0, 64, 0, false, false, []⟩], nextIinv := 2 }
    (fun t => (t.ctl.waiting, t.iinvs.map fun i => (i.id, i.lo, i.hi, i.left)))
    = some (true, [(1, 0, 64, true), (2, 0x1000, 0x1040, false)]) := by decide

/-- An element whose bytes stand in two pages keeps each of them (R248, R36). -/
theorem test_element_across_pages :
    let x : RedElem := ⟨[0x1FFFF, 0x40000], 0, 16, 0, false⟩
    let t := base.redPut .mem x 0x1234
    t.redGet .mem x = 0x1234 ∧ t.rdByte .mem 0x1FFFF = 0x34 ∧ t.rdByte .mem 0x40000 = 0x12 ∧ t.rdByte .mem 0x20000 = 0 := by decide

/-- The counter of an elastic frame goes on until the issued commands of a task that is saved have finished (R288). -/
theorem test_saving_clock :
    let s (f : List Flight) : State := { (eng.withTask { eng.task with saving := true }).setEng .flume { eng0 with flight := f } with
      cur := { ((eng.withTask { eng.task with saving := true }).setEng .flume { eng0 with flight := f }).cur with slot := .saving } }
    ((s [flight0]).tickCore.eng .flume).cnt = 101 ∧ ((s []).tickCore.eng .flume).cnt = 100 := by decide

/-- A command of a parked task that a PREEMPT waits for is emulated (R31, R309). -/
theorem test_emulated_while_saving :
    let s := parked .flume true
    after (.taskEdit (.emulated .flume 0 [(0xFF80000000000280, 9)] false true)) { s with cur := { s.cur with slot := .saving } }
      (fun t => (t.rdByte .reg 0x280, (t.eng .flume).seq, t.cur.slot)) = some (9, 1, .saving) := by decide

/-- KILL of a launch whose one gang is staged on this die and has swapped on die 1 (R297). -/
theorem test_kill_mid_swap : after (.kill 0)
    { pkg0 with
      cur := { Core.blank 0 with staged := .staged, stagedTask := { Task.blank with lid := 1, gsize := 576 } }
      rest := [{ Core.blank 144 with slot := .resident, released := false, task := { Task.blank with lid := 1, lcn := 144, gsize := 576 } }]
      binds := [{ bind0 with action := 4 }] }
    (fun t => (t.cores.map (·.slot), t.cores.map (·.staged), t.launches.map (·.st))) = some ([.empty], [.empty], [.finished]) := by
  decide

/-- Behind a stopped command of the sluice another of its commands stays, and a save does not wait for it; a plain write of the flume
lands (R269, R305). -/
theorem test_held_behind :
    let s : State := flying .sluice { flight0 with writes := [], op := .slu (saccOn 18) }
    let s := s.setEng .sluice { s.eng .sluice with stopped := some { flight0 with seq := 0 } }
    let f := flying .flume flight0
    let f := f.setEng .flume { f.eng .flume with stopped := some { flight0 with seq := 5 } }
    s.stoppedForSave = true ∧ f.stoppedForSave = false ∧ after (.commandLands .flume 0) f (·.rdByte .reg 0x280) = some 0x11 := by decide

/-! ### Witnesses and tests of the clauses that follow the sixth review -/

/-- A command of a timed frame that a load of the core has seen in the granule of the shadow stack's top: it writes 0x10 there. -/
def shadowSeen (s : State) : State :=
  s.setEng .flume { Eng.idle with
    seq := 1, toks := [⟨0, 1, false, false⟩]
    flight := [{ flight0 with timed := true, land := 200, seen := [(.mem, 0xBFF)], writes := [⟨.mem, 0x2FFF8, 0xFF, 0x10⟩] }] }

theorem witness_CallPushesShadow_order : calling.ordered ∧ calling.unseenAnywhere :=
  ⟨ordered_of rfl, unseenAnywhere_of (by decide)⟩
theorem witness_ReturnChecksShadow_order : linked.canonical ∧ linked.ordered ∧ linked.still :=
  ⟨canon_of (by decide), ordered_of rfl, still_of (by decide)⟩
/-- RET pops what a load before it has seen there, and what XCALL pushes stays (R88, R89). -/
theorem test_ret_after_seen : after (.ret q0) (shadowSeen linked) (fun t => (t.ctl.ssp.toNat, codes t)) = some (0x2FFF8, [0x04])
    ∧ after (.ret q0) ((shadowSeen linked).setG 31 0x1010) (fun t => (t.ctl.ssp.toNat, codes t)) = some (0x30000, []) := by decide
theorem test_xcall_over_seen : ((after (.xcall 1 0 false) (shadowSeen calling) id).bind fun t =>
    after (.commandLands .flume 0) (t.withTask { t.task with saving := true }) (·.rdNat .mem 0x2FFF8 8)) = some 0x1008 := by decide

/-- A command that lands at cycle 150 at the byte that a store has written after a load saw one that lands at cycle 200 there: both
land beneath the store (R88, R157). -/
def storedOver : State :=
  let s := flying .flume { flight0 with timed := true, land := 200, seen := [(.scr, 1)], writes := [⟨.scr, 0x40, 0xFF, 9⟩] }
  let s := (s.behindSeen .scr 0x40 1).wrNat .scr 0x40 1 7
  s.setEng .matrix { eng0 with
    seq := 1, toks := [⟨0, 1, false, false⟩], queue := []
    flight := [{ flight0 with timed := true, land := 150, seen := [(.scr, 1)], writes := [⟨.scr, 0x40, 0xFF, 5⟩] }] }

theorem test_lands_beneath_store : (storedOver.loaded .scr 0x40 1).1 = 7
    ∧ after (.commandLands .matrix 0) (storedOver.withTask { storedOver.task with saving := true }) (fun t =>
      (t.rdByte .scr 0x40, (t.eng .flume).flight.map fun f => f.writes.map (·.val))) = some (7, [[5]]) := by decide

/-- The fold word of a DRAIN cannot be read: nothing of the command lands (R223). -/
def foldUnread : State :=
  let s := flying .matrix { flight0 with op := .fold ⟨.scr, 0x100, 5⟩ }
  s.withTask { s.task with bad := [(.scr, 0x102)] }

theorem witness_CommandsLand_fold : (foldUnread.landing .matrix { flight0 with op := .fold ⟨.scr, 0x100, 5⟩ }).badIn .scr 0x100 4
      = some 0x102
    ∧ after (.commandLands .matrix 0) foldUnread (fun t => (t.rdByte .reg 0x280, codes t)) = some (0, [0x16]) := by decide

/-- KILL of a launch that is only staged on a core leaves the task of another launch that runs there (R296, R297, R299). -/
theorem test_kill_staged : after (.kill 0)
    { pkg0 with
      cur := { base.cur with task := { base.task with lid := 2 }, staged := .staged, stagedTask := { Task.blank with lid := 1 } }
      launches := [launch0, { launch0 with lid := 2 }], binds := [{ bind0 with action := 4 }] }
    (fun t => (t.cur.slot, t.cur.task.lid, t.cur.staged, t.launches.map (·.st))) = some (.resident, 2, .empty, [.finished, .active]) := by
  decide
/-- A fill empties the whole instruction cache of its core (R163). -/
theorem test_fill_invalidates : after .contextFill
    { filling with cur := { filling.cur with slot := .resident, task := { base.task with icache := [(0x1000, 0)] } } }
    (fun t => (t.cur.staged, t.cur.task.icache)) = some (.staged, []) := by decide
/-- A task that waits at a BAR comes back waiting (R171). -/
theorem test_refill_keeps_wait : after .contextFill
    { refilling with saved := [(0x5000, { SavedRest.blank with lid := 1, waiting := true })] }
    (fun t => (t.cur.staged, t.cur.stagedTask.ctl.waiting)) = some (.staged, true) := by decide
/-- The latest record of each stream is kept (R310). -/
theorem test_record_of_stream : (((parked .flume false).recordOf (.engine .flume)).map (·.stream),
    ((parked .flume false).recordOf (.engine .matrix)).map (·.stream), (parked .flume false).recordOf .control) = (some 2, some 1, none) := by
  decide
/-- The host of a virtual function reads the oldest record of its mailbox's fault queue and frees its slot (R307, R320). -/
theorem test_mailbox :
    let s := hosted.wrNat .mem 0x8048 8 9
    ((s.mailRead 0).parts.map fun p => p.mail.map (·.toNat)) = [[0, 9, 0, 0, 0, 0, 0, 0]] ∧ (s.mailFree 0).rdNat .mem 0x8048 8 = 0
      ∧ (pkg0.mailRead 0).parts.map (·.mail) = [[]] := by decide

/-- Of two CINC in flight the first will stop at a counter that cannot be read. -/
def heldCounts : State := twoCounts.withTask { twoCounts.task with bad := [(.scr, 0xC0)] }

/-- Behind it no draw is taken and nothing is found (R269, R279, R284). -/
theorem test_draws_wait :
    let f1 := (heldCounts.eng .sluice).flight.getD 1 flight0
    heldCounts.blocked .sluice ((heldCounts.eng .sluice).flight.getD 0 flight0) = true ∧ heldCounts.ownAhead f1 = true
      ∧ heldCounts.sluParts f1 (fun _ _ => true) = heldCounts := by decide
/-- A CREAD's elements that wait for a stop are read when it performs (R269, R284). -/
theorem test_read_late :
    let op : SluOp := { saccOn 18 with kind := .cread, tgt := ⟨eng.task.entry 21, 0⟩, vals := [3, 3], late := [0] }
    op.holds 0 = false ∧ op.holds 1 = true ∧ op.taken 1 heldCounts = 3 := by decide

end Sys2Proof.Tests
end

section
/-! PROOF. The special registers: what SPGET answers for each number, and what SPSET does with SSP (R121 to R125, R175). -/

namespace Sys2Proof.Machine

/-! ### What the registers hold -/

/-- CAPS as its table gives it (R4). -/
theorem State.caps_eq (s : State) :
    s.caps = (if s.d4 then 0x0C04480810 else 0x0602240000) + if s.hostLink then 8 else 0 := by
  cases h : s.hostLink <;> simp [State.caps, b2n, h]

/-- Each status bit has its own place in MODE (R124). -/
theorem Ctl.mode_toNat (c : Ctl) :
    c.mode.toNat = (if c.step then 128 else 0) + (if c.phys then 8 else 0) + (if c.degr then 4 else 0)
      + (if c.timed then 2 else 0) + if c.frame then 1 else 0 := by
  have h (b : Bool) (n : Nat) : b2n b * n = if b then n else 0 := by cases b <;> simp [b2n]
  rw [Ctl.mode, BitVec.toNat_ofNat, ← Nat.mul_one (b2n c.frame)]
  simp only [h]
  apply Nat.mod_eq_of_lt
  split_ifs <;> decide

/-- Number 13 and the numbers from 19 are reserved (R121). -/
theorem State.special_reserved (s : State) {n : Nat} (h : n = 13 ∨ 19 ≤ n) : s.special n = .error .illegal := by
  obtain rfl | h := h
  · rfl
  · obtain ⟨k, rfl⟩ := Nat.exists_eq_add_of_le' h
    rfl

/-! ### The two instructions -/

section
variable {s : State} {q : Qual} (hq : s.holds q = true)
include hq

/-- SPGET of a register that reads `v` writes it to G[D]. -/
theorem State.spget_read (d : BitVec 5) {fn : BitVec 8} {v : Nat} (h : s.special fn.toNat = .ok v) :
    exec (.spget q d fn) s = .next (s.writes q d (BitVec.ofNat 64 v)) := by
  rw [← State.writeG_eq]
  show execSpget q d fn s = _
  simp only [execSpget, State.writeG, State.qualified_eq, hq, if_true, h]

/-- SPGET of a register that faults only takes the fault. -/
theorem State.spget_fault (d : BitVec 5) {fn : BitVec 8} {c : Code} (h : s.special fn.toNat = .error c) :
    exec (.spget q d fn) s = .next (s.trapHere { code := c }) := by
  show execSpget q d fn s = _
  simp only [execSpget, State.qualified_eq, hq, if_true, h, State.fail_eq]

/-- The three outcomes of SPSET. -/
theorem State.spset_eq (a : BitVec 5) (fn : BitVec 8) :
    exec (.spset q a fn) s
      = if fn.toNat = 13 ∨ 19 ≤ fn.toNat then .next (s.trapHere { code := .illegal })
        else if fn.toNat = 11 ∧ (s.getG a).toNat % 8 = 0 ∧ s.ctl.ssp.toNat ≤ (s.getG a).toNat ∧
            (s.getG a).toNat ≤ s.ctl.shadowHi then
          .next (State.retired (s.withCtl { s.ctl with ssp := s.getG a }) (s.ctl.pc + 8))
        else .next (s.trapHere { code := .privilege }) := by
  show execSpset q a fn s = _
  simp only [execSpset, State.qualified_eq, hq, if_true, State.retire_eq, State.fail_eq, State.withCtl_task_ctl,
    Bool.or_eq_true, Bool.and_eq_true, decide_eq_true_eq, beq_iff_eq, and_assoc]

end

/-! ### The obligation -/

/-- Settles O32: by the register's number, and for SPSET by its three outcomes. -/
theorem specialRegisters : Obligations.SpecialRegisters := by
  unfold Obligations.SpecialRegisters
  constructor
  · intro s q d fn hq
    dsimp only
    split
    case h_1 h => exact State.spget_read hq d (by rw [h, ← State.caps_eq]; rfl)
    case h_8 h =>
      split
      case isTrue hp => exact State.spget_read hq d (by rw [h]; exact if_pos hp)
      case isFalse hp => exact State.spget_fault hq d (by rw [h]; exact if_neg hp)
    case h_11 h => exact State.spget_fault hq d (by rw [h]; rfl)
    case h_14 h => exact State.spget_read hq d (by rw [h, ← Ctl.mode_toNat]; rfl)
    case h_19 =>
      simp only [imp_false] at *
      exact State.spget_fault hq d (State.special_reserved s (by omega))
    all_goals exact State.spget_read hq d (by rw [‹fn.toNat = _›]; rfl)
  · intro s q a fn hq
    have h11 : fn = 11 ↔ fn.toNat = 11 := BitVec.toNat_inj.symm
    have h13 : fn = 13 ↔ fn.toNat = 13 := BitVec.toNat_inj.symm
    simp only [State.spset_eq hq, ne_eq, h11, h13]
    refine ⟨fun hf h8 hlo hhi => ?_, fun hf hv => ?_, fun hf hr hn => ?_, fun hf => if_pos hf⟩
    · rw [if_neg (by omega), if_pos ⟨hf, h8, hlo, hhi⟩]
    · rw [if_neg (by omega), if_neg (by omega)]
    · rw [if_neg (by omega), if_neg (fun h => hf h.1)]

end Sys2Proof.Machine
end

section
/-! PROOF. Where the bytes of a store lie: in physical memory, or in the task that holds them (R75). What a byte reads
and whether its error correction fails, after a byte write and after its mark has been cleared (R38, R65, R308). -/

namespace Sys2Proof.Machine

/-! ### The task that holds a store -/

/-- The launch core, another than the focused task's own, whose scratchpad the store is. -/
def State.away (s : State) : Space → Option Nat
  | .far k => if k = s.task.lcn then none else some k
  | _ => none

/-- The store of its holder that a space is: every remote one is a scratchpad (R75). -/
def Space.own : Space → Space
  | .far _ => .scr
  | sp => sp

/-- The task that holds a store other than physical memory, if there is one. -/
def State.holder (s : State) (sp : Space) : Option Task :=
  match s.away sp with
  | none => some s.task
  | some k => s.findTask s.task.lid k

/-- Change the task of a core that holds the resident task `k` of launch `lid`. -/
def Core.changeHeld (lid k : Nat) (f : Task → Task) (c : Core) : Core :=
  if c.holdsTask lid k then { c with task := f c.task } else c

/-- Change the task that holds a store. -/
def State.atHolder (s : State) (sp : Space) (f : Task → Task) : State :=
  match s.away sp with
  | none => s.withTask (f s.task)
  | some k => { s with rest := s.rest.map (Core.changeHeld s.task.lid k f) }

/-- One byte of a task's own stores. -/
def Task.byte (t : Task) (sp : Space) (a : Nat) : Byte :=
  match sp with
  | .reg => spGet emptyByte t.reg a
  | .wbuf => if spGet false t.wbValid (a / 256) then spGet emptyByte t.wb a else 0
  | .mem => 0
  | _ => spGet emptyByte t.scr a

/-- Write one byte of a task's own stores. -/
def Task.putByte (t : Task) (sp : Space) (a : Nat) (v : Byte) : Task :=
  match sp with
  | .reg => t.putReg a v
  | .wbuf => t.putWb a v
  | .mem => t
  | _ => t.putScr a v

theorem State.away_ne {s : State} {sp : Space} {k : Nat} (h : s.away sp = some k) : k ≠ s.task.lcn := by
  unfold State.away at h
  split at h
  · split at h
    · cases h
    · cases h; assumption
  · cases h

/-- Two bytes are the same one if one task holds them, in one store, at one address. -/
theorem State.place_eq_iff (s : State) (sp sp' : Space) (a a' : Nat) :
    s.place sp a = s.place sp' a' ↔ s.away sp = s.away sp' ∧ sp.own = sp'.own ∧ a = a' := by
  have key (x : Space) (i : Nat) : s.place x i = ((s.away x).elim x.own .far, i) := by
    cases x with
    | far n => by_cases h : n = s.task.lcn <;> simp [State.place, State.away, Space.own, h]
    | _ => rfl
  have own (x : Space) (k : Nat) : x.own ≠ .far k := by cases x <;> simp [Space.own]
  have away (x : Space) (k : Nat) (h : s.away x = some k) : x.own = .scr := by
    cases x with
    | far n => rfl
    | _ => cases h
  rw [key, key, Prod.mk.injEq]
  cases h : s.away sp with
  | none =>
    cases h' : s.away sp' with
    | none => simp
    | some k' => simp [own]
  | some k =>
    cases h' : s.away sp' with
    | none => simp [(own _ _).symm]
    | some k' => simp [away _ _ h, away _ _ h']

theorem Core.holdsTask_iff {c : Core} {lid k : Nat} : c.holdsTask lid k = true ↔
    c.slot = .resident ∧ c.task.lid = lid ∧ c.task.lcn = k := by
  simp [Core.holdsTask, and_assoc]

/-- A task that is not the focused one is looked for among the other cores. -/
theorem State.findTask_rest {s : State} {lid k : Nat} (h : k ≠ s.task.lcn) :
    s.findTask lid k = (s.rest.find? fun c => c.holdsTask lid k).map (·.task) := by
  rw [State.findTask, State.cores, List.find?_cons_of_neg]
  simp [Core.holdsTask_iff, Ne.symm h]

@[simp] theorem State.atHolder_mem (s : State) (sp : Space) (f : Task → Task) : (s.atHolder sp f).mem = s.mem := by
  unfold State.atHolder
  split <;> rfl

@[simp] theorem State.atHolder_badMem (s : State) (sp : Space) (f : Task → Task) :
    (s.atHolder sp f).badMem = s.badMem := by
  unfold State.atHolder
  split <;> rfl

section
variable {f : Task → Task} (hl : ∀ t, (f t).lid = t.lid) (hn : ∀ t, (f t).lcn = t.lcn)

include hn in
theorem State.atHolder_lcn (s : State) (sp : Space) : (s.atHolder sp f).task.lcn = s.task.lcn := by
  unfold State.atHolder
  split
  · exact hn _
  · rfl

include hn in
theorem State.away_atHolder (s : State) (sp sp' : Space) : (s.atHolder sp f).away sp' = s.away sp' := by
  cases sp' with
  | far k => simp only [State.away, State.atHolder_lcn hn]
  | _ => rfl

include hl hn

/-- A change that keeps its task's identity keeps what the core holds. -/
theorem Core.changeHeld_holdsTask (c : Core) (lid k k' : Nat) :
    (c.changeHeld lid k f).holdsTask lid k' = c.holdsTask lid k' := by
  unfold Core.changeHeld
  split
  · simp [Core.holdsTask, hl, hn]
  · rfl

/-- A task found among changed cores. -/
theorem find?_changeHeld (l : List Core) (lid k k' : Nat) :
    ((l.map (Core.changeHeld lid k f)).find? fun c => c.holdsTask lid k').map (·.task)
      = let t := (l.find? fun c => c.holdsTask lid k').map (·.task)
        if k' = k then t.map f else t := by
  rw [List.find?_map]
  simp only [Function.comp_def, Core.changeHeld_holdsTask hl hn, Option.map_map]
  cases hc : l.find? fun c => c.holdsTask lid k' with
  | none => simp
  | some c =>
    have hk' : c.holdsTask lid k' = true := by simpa using List.find?_some hc
    by_cases e : k' = k
    · subst e
      simp [Core.changeHeld, hk']
    · have hk : c.holdsTask lid k = false := by
        have hlcn : c.task.lcn = k' := (Core.holdsTask_iff.1 hk').2.2
        simp [Core.holdsTask, hlcn, e]
      simp [Core.changeHeld, hk, e]

/-- A change of the task that holds a store is found in every store that this task holds, and nowhere else. -/
theorem State.holder_atHolder (s : State) (sp sp' : Space) :
    (s.atHolder sp f).holder sp' = if s.away sp' = s.away sp then (s.holder sp').map f else s.holder sp' := by
  unfold State.holder
  rw [State.away_atHolder hn]
  unfold State.atHolder
  cases h' : s.away sp' with
  | none => cases s.away sp <;> rfl
  | some k' =>
    have hk' := State.away_ne h'
    cases s.away sp with
    | none =>
      dsimp only
      rw [State.findTask_rest (by simpa [hn] using hk'), State.findTask_rest hk']
      simp [hl]
    | some k =>
      have hfind (r : List Core) : State.findTask { s with rest := r } s.task.lid k'
          = (r.find? fun c => c.holdsTask s.task.lid k').map (·.task) := State.findTask_rest hk'
      dsimp only
      rw [hfind, find?_changeHeld hl hn, State.findTask_rest hk']
      simp only [Option.some.injEq]

end

/-- A store's holder is the task of a listed core. -/
theorem State.holder_mem {s : State} {sp : Space} {t : Task} (h : s.holder sp = some t) : ∃ c ∈ s.cores, c.task = t := by
  unfold State.holder at h
  split at h
  · exact ⟨s.cur, List.mem_cons_self, Option.some.inj h⟩
  · obtain ⟨c, hc, rfl⟩ := Option.map_eq_some_iff.1 h
    exact ⟨c, List.mem_of_find?_eq_some hc, rfl⟩

theorem State.canonical_holder {s : State} (h : s.canonical) {sp : Space} {t : Task} (ht : s.holder sp = some t) :
    t.canonical := by
  obtain ⟨c, hc, rfl⟩ := State.holder_mem ht
  exact (h.2 c hc).1

/-! ### The model's accesses by the holder -/

theorem State.rdByte_holder (s : State) {sp : Space} (h : sp ≠ .mem) (a : Nat) :
    s.rdByte sp a = (s.holder sp).elim 0 (·.byte sp.own a) := by
  cases sp with
  | mem => exact absurd rfl h
  | far k =>
    by_cases hk : k = s.task.lcn
    · simp [State.rdByte, State.holder, State.away, hk, Space.own, Task.byte]
    · simp only [State.rdByte, State.holder, State.away, hk, if_false, Space.own, Task.byte]
      cases s.findTask s.task.lid k <;> rfl
  | _ => rfl

theorem State.wrByte_mem (s : State) {w : BWrite} (h : w.sp = .mem) (hm : w.mask ≠ 0) :
    s.wrByte w = { s with mem := spSet emptyByte s.mem w.at_ (mergeByte (s.rdByte .mem w.at_) w.mask w.val) } := by
  obtain ⟨sp, a, mask, val⟩ := w
  subst h
  rw [State.wrByte, if_neg hm]

theorem State.wrByte_holder (s : State) {w : BWrite} (h : w.sp ≠ .mem) (hm : w.mask ≠ 0) :
    s.wrByte w = s.atHolder w.sp fun t => t.putByte w.sp.own w.at_ (mergeByte (s.rdByte w.sp w.at_) w.mask w.val) := by
  obtain ⟨sp, a, mask, val⟩ := w
  rw [State.wrByte, if_neg hm]
  cases sp with
  | mem => exact absurd rfl h
  | far k =>
    by_cases hk : k = s.task.lcn <;> simp [State.atHolder, State.away, hk, Space.own, Task.putByte, Core.changeHeld]
  | _ => rfl

theorem State.unmark_holder (s : State) {sp : Space} (h : sp ≠ .mem) (a : Nat) :
    s.unmark (sp, a) = s.atHolder sp fun t => t.unmark sp.own a := by
  cases sp with
  | mem => exact absurd rfl h
  | far k =>
    by_cases hk : k = s.task.lcn <;> simp [State.unmark, State.atHolder, State.away, hk, Space.own, Core.changeHeld]
  | _ => rfl

/-! ### A task's own bytes -/

@[simp] theorem Task.putByte_lid (sp : Space) (a : Nat) (v : Byte) (t : Task) : (t.putByte sp a v).lid = t.lid := by
  cases sp <;> rfl

@[simp] theorem Task.putByte_lcn (sp : Space) (a : Nat) (v : Byte) (t : Task) : (t.putByte sp a v).lcn = t.lcn := by
  cases sp <;> rfl

@[simp] theorem Task.unmark_lid (sp : Space) (a : Nat) (t : Task) : (t.unmark sp a).lid = t.lid := rfl

@[simp] theorem Task.unmark_lcn (sp : Space) (a : Nat) (t : Task) : (t.unmark sp a).lcn = t.lcn := rfl

/-- The weight buffer apart, where a byte of a line that is not valid reads 0, a byte reads back what was written. -/
theorem Task.byte_putByte_self {t : Task} (h : t.canonical) {sp : Space} (hw : sp ≠ .wbuf) (hm : sp ≠ .mem) (a : Nat)
    (v : Byte) : (t.putByte sp a v).byte sp a = v := by
  obtain ⟨-, -, -, -, -, hreg, hscr, -, -⟩ := h
  cases sp with
  | wbuf => exact absurd rfl hw
  | mem => exact absurd rfl hm
  | reg => exact spGet_spSet_self hreg
  | _ => exact spGet_spSet_self hscr

/-- Every other byte reads as before. -/
theorem Task.byte_putByte_ne {t : Task} (h : t.canonical) {sp sp' : Space} {a a' : Nat} (v : Byte)
    (hne : sp'.own = sp.own → a' ≠ a) : (t.putByte sp.own a v).byte sp'.own a' = t.byte sp'.own a' := by
  obtain ⟨-, -, -, -, -, hreg, hscr, hwb, -⟩ := h
  cases sp with
  | mem => rfl
  | reg =>
    cases sp' with
    | reg => exact spGet_spSet_ne hreg (hne rfl)
    | _ => rfl
  | wbuf =>
    cases sp' with
    | wbuf =>
      have hget := spGet_spSet_ne (v := v) hwb (hne rfl)
      simp only [Task.byte, Task.putByte, Task.putWb, Space.own, hget]
    | _ => rfl
  | _ =>
    cases sp' with
    | scr | far => exact spGet_spSet_ne hscr (hne rfl)
    | _ => rfl

/-! ### Bytes after a byte write -/

theorem Space.own_ne_mem {sp : Space} (h : sp ≠ .mem) : sp.own ≠ .mem := by
  cases sp <;> simp_all [Space.own]

theorem State.rdByte_place {s : State} {sp sp' : Space} {a a' : Nat} (h : s.place sp a = s.place sp' a') :
    s.rdByte sp a = s.rdByte sp' a' := by
  have key (x : Space) (i : Nat) : s.rdByte (s.place x i).1 (s.place x i).2 = s.rdByte x i := by
    cases x with
    | far k => by_cases hk : k = s.task.lcn <;> simp [State.place, State.rdByte, hk]
    | _ => rfl
  rw [← key sp a, h, key]

/-- A byte write keeps which places are the same (R75). -/
theorem State.wrByte_lcn (s : State) (w : BWrite) : (s.wrByte w).task.lcn = s.task.lcn := by
  by_cases hm : w.mask = 0
  · rw [State.wrByte_none hm]
  by_cases h : w.sp = .mem
  · rw [State.wrByte_mem s h hm]
  · rw [State.wrByte_holder s h hm, State.atHolder_lcn (by simp)]

theorem State.place_of_lcn {s t : State} (h : t.task.lcn = s.task.lcn) : t.place = s.place := by
  funext sp a
  cases sp with
  | far k => simp only [State.place, h]
  | _ => rfl

/-- A byte write leaves every byte at another place as it was. -/
theorem State.rdByte_wrByte_ne {s : State} (hs : s.canonical) {w : BWrite} {sp : Space} {a : Nat}
    (h : s.place sp a ≠ s.place w.sp w.at_) : (s.wrByte w).rdByte sp a = s.rdByte sp a := by
  by_cases hm : w.mask = 0
  · rw [State.wrByte_none hm]
  by_cases hw : w.sp = .mem
  · rw [State.wrByte_mem s hw hm]
    cases sp with
    | mem => exact spGet_spSet_ne hs.1 fun e => h (by rw [e, hw])
    | _ => rfl
  rw [State.wrByte_holder s hw hm]
  by_cases hsp : sp = .mem
  · simp only [hsp, State.rdByte, State.atHolder_mem]
  rw [State.rdByte_holder _ hsp, State.rdByte_holder _ hsp, State.holder_atHolder (by simp) (by simp)]
  split
  next haway =>
    cases ht : s.holder sp with
    | none => rfl
    | some t =>
      exact Task.byte_putByte_ne (State.canonical_holder hs ht) _ fun ho ha =>
        h ((State.place_eq_iff s _ _ _ _).2 ⟨haway, ho, ha⟩)
  next => rfl

/-- A store other than the weight buffer, that somebody holds, reads back the bits that are written to it. -/
theorem State.rdByte_wrByte_self {s : State} (hs : s.canonical) {w : BWrite} (hw : w.sp ≠ .wbuf)
    (hh : (s.holder w.sp).isSome) (hm : w.mask ≠ 0) :
    (s.wrByte w).rdByte w.sp w.at_ = mergeByte (s.rdByte w.sp w.at_) w.mask w.val := by
  by_cases hmem : w.sp = .mem
  · rw [State.wrByte_mem s hmem hm, hmem]
    exact spGet_spSet_self hs.1
  obtain ⟨t, ht⟩ := Option.isSome_iff_exists.1 hh
  rw [State.wrByte_holder s hmem hm, State.rdByte_holder _ hmem, State.holder_atHolder (by simp) (by simp), if_pos rfl, ht]
  have how : w.sp.own ≠ .wbuf := by cases hsp : w.sp <;> simp_all [Space.own]
  exact Task.byte_putByte_self (State.canonical_holder hs ht) how (Space.own_ne_mem hmem) _ _

/-- A byte write takes no task away from the store that it holds. -/
theorem State.holder_wrByte_isSome (s : State) (w : BWrite) (sp : Space) :
    ((s.wrByte w).holder sp).isSome = (s.holder sp).isSome := by
  by_cases hm : w.mask = 0
  · rw [State.wrByte_none hm]
  by_cases hw : w.sp = .mem
  · rw [State.wrByte_mem s hw hm]
    rfl
  rw [State.wrByte_holder s hw hm, State.holder_atHolder (by simp) (by simp)]
  split
  · exact Option.isSome_map
  · rfl

/-! ### Bytes whose error correction fails -/

/-- The error correction of the byte fails (R308). -/
def State.badAt (s : State) (sp : Space) (a : Nat) : Prop :=
  match sp with
  | .mem => a ∈ s.badMem
  | _ => ∃ t, s.holder sp = some t ∧ (sp.own, a) ∈ t.bad

theorem State.badAt_holder (s : State) {sp : Space} (h : sp ≠ .mem) (a : Nat) :
    s.badAt sp a ↔ ∃ t, s.holder sp = some t ∧ (sp.own, a) ∈ t.bad := by
  cases sp with
  | mem => exact absurd rfl h
  | _ => rfl

theorem Task.badIn_eq_none (t : Task) (sp : Space) (a n : Nat) :
    t.badIn sp a n = none ↔ ∀ b, a ≤ b → b < a + n → (sp, b) ∉ t.bad := by
  simp only [Task.badIn, Option.map_eq_none_iff, List.find?_eq_none]
  constructor
  · intro h b hlo hhi hb
    exact h _ hb (by simp [hlo, hhi])
  · rintro h ⟨sp', b⟩ hb hc
    simp only [Bool.and_eq_true, beq_iff_eq, decide_eq_true_eq] at hc
    obtain ⟨⟨rfl, hlo⟩, hhi⟩ := hc
    exact h b hlo hhi hb

theorem State.badIn_holder (s : State) {sp : Space} (h : sp ≠ .mem) (a n : Nat) :
    s.badIn sp a n = (s.holder sp).bind fun t => t.badIn sp.own a n := by
  cases sp with
  | mem => exact absurd rfl h
  | far k => by_cases hk : k = s.task.lcn <;> simp [State.badIn, State.holder, State.away, hk, Space.own]
  | _ => rfl

/-- The range holds no such byte. -/
theorem State.badIn_eq_none (s : State) (sp : Space) (a n : Nat) :
    s.badIn sp a n = none ↔ ∀ b, a ≤ b → b < a + n → ¬s.badAt sp b := by
  by_cases h : sp = .mem
  · subst h
    simp only [State.badIn, State.badAt, List.find?_eq_none, Bool.and_eq_true, decide_eq_true_eq]
    exact ⟨fun h b hlo hhi hb => h b hb ⟨hlo, hhi⟩, fun h b hb hc => h b hc.1 hc.2 hb⟩
  · simp only [State.badIn_holder s h, State.badAt_holder s h]
    cases s.holder sp with
    | none => simp
    | some t => simp [Task.badIn_eq_none]

/-- Clearing the mark of a byte clears it at that place alone. -/
theorem State.badAt_unmark (s : State) (sp sp' : Space) (a a' : Nat) :
    (s.unmark (sp, a)).badAt sp' a' ↔ s.badAt sp' a' ∧ s.place sp' a' ≠ s.place sp a := by
  by_cases h : sp = .mem
  · subst h
    cases sp' with
    | mem => simp [State.unmark, State.badAt, State.place]
    | far k =>
      have hne : s.place (.far k) a' ≠ s.place .mem a := by
        by_cases hk : k = s.task.lcn <;> simp [State.place, hk]
      exact (and_iff_left hne).symm
    | _ => simp [State.place]; rfl
  rw [State.unmark_holder s h, Ne, State.place_eq_iff]
  by_cases h' : sp' = .mem
  · subst h'
    have hown : Space.mem.own ≠ sp.own := fun e => Space.own_ne_mem h e.symm
    simp only [State.badAt, State.atHolder_badMem, hown, false_and, and_false, not_false_eq_true, and_true]
  simp only [State.badAt_holder _ h', State.holder_atHolder (f := (·.unmark sp.own a)) (by simp) (by simp)]
  split
  next haway =>
    cases s.holder sp' with
    | none => simp
    | some t => simp [Task.unmark, haway]
  next haway => simp [haway]

end Sys2Proof.Machine
end

section
/-! PROOF. Storing a number and reading it: `State.wrNat` against `State.rdNat` and `State.littleEndian` (R6, R38, R308). -/

namespace Sys2Proof.Machine

/-! ### Little-endian reads -/

/-- The two ways of reading a number agree. -/
theorem State.littleEndian_eq_rdNat (s : State) (sp : Space) (a n : Nat) : s.littleEndian sp a n = s.rdNat sp a n := by
  induction n generalizing a with
  | zero => rfl
  | succ n ih =>
    rw [State.rdNat, ← ih (a + 1)]
    simp only [State.littleEndian, List.range_succ_eq_map, List.map_cons, List.map_map, leNat, Nat.add_zero,
      Function.comp_def, Nat.succ_eq_add_one, Nat.add_assoc, Nat.add_comm 1]

theorem State.rdNat_congr {s t : State} {sp : Space} (h : ∀ a, t.rdByte sp a = s.rdByte sp a) (a n : Nat) :
    t.rdNat sp a n = s.rdNat sp a n := by
  induction n generalizing a with
  | zero => rfl
  | succ n ih => rw [State.rdNat, State.rdNat, h, ih]

/-! ### A list of byte writes -/

theorem State.foldl_wrByte_lcn (ws : List BWrite) (s : State) : (ws.foldl State.wrByte s).task.lcn = s.task.lcn := by
  induction ws generalizing s with
  | nil => rfl
  | cons w ws ih => rw [List.foldl_cons, ih, State.wrByte_lcn]

theorem State.canonical_foldl_wrByte {s : State} (h : s.canonical) (ws : List BWrite) :
    (ws.foldl State.wrByte s).canonical := State.canonical_foldl (fun _ w hu => State.canonical_wrByte hu w) ws h

/-- A byte that no write of the list names reads as before. -/
theorem State.rdByte_foldl_wrByte_ne {s : State} (hs : s.canonical) {ws : List BWrite} {sp : Space} {a : Nat}
    (h : ∀ w ∈ ws, s.place sp a ≠ s.place w.sp w.at_) : (ws.foldl State.wrByte s).rdByte sp a = s.rdByte sp a := by
  induction ws generalizing s with
  | nil => rfl
  | cons w ws ih =>
    have hplace := State.place_of_lcn (State.wrByte_lcn s w)
    rw [List.foldl_cons, ih (State.canonical_wrByte hs w), State.rdByte_wrByte_ne hs (h w List.mem_cons_self)]
    rw [hplace]
    exact fun x hx => h x (List.mem_cons_of_mem w hx)

/-- A byte write refreshes the flags of the word of the register space that it falls in, and touches no others (R38). -/
theorem State.flags_wrByte {s : State} (hs : s.canonical) (w : BWrite) (k : Nat) :
    spGet Flag.fresh (s.wrByte w).task.flags k
      = if w.mask ≠ 0 ∧ w.sp = .reg ∧ k = w.at_ / 4 then Flag.fresh else spGet Flag.fresh s.task.flags k := by
  by_cases hm : w.mask = 0
  · rw [State.wrByte_none hm, if_neg fun h => h.1 hm]
  obtain ⟨-, -, -, -, -, -, -, -, hflags⟩ := State.canonical_task hs
  obtain ⟨sp, a, mask, v⟩ := w
  rw [State.wrByte, if_neg hm]
  cases sp with
  | reg =>
    by_cases hk : k = a / 4
    · rw [if_pos ⟨hm, rfl, hk⟩, hk]
      exact spGet_spSet_self hflags
    · rw [if_neg fun h => hk h.2.2]
      exact spGet_spSet_ne hflags hk
  | far n =>
    simp only [reduceCtorEq, false_and, and_false, if_false]
    split <;> rfl
  | _ => simp [Task.putWb]

/-- A word that one of the writes falls in has fresh flags after them. -/
theorem State.flags_foldl_wrByte {s : State} (hs : s.canonical) {ws : List BWrite} {k : Nat}
    (h : spGet Flag.fresh s.task.flags k = Flag.fresh ∨ ∃ w ∈ ws, w.mask ≠ 0 ∧ w.sp = .reg ∧ k = w.at_ / 4) :
    spGet Flag.fresh (ws.foldl State.wrByte s).task.flags k = Flag.fresh := by
  induction ws generalizing s with
  | nil => simpa using h
  | cons w ws ih =>
    refine ih (State.canonical_wrByte hs w) ?_
    rw [State.flags_wrByte hs]
    split
    · exact .inl rfl
    next hw =>
      obtain h | ⟨x, hx, hxw⟩ := h
      · exact .inl h
      · obtain rfl | hx := List.mem_cons.1 hx
        · exact absurd hxw hw
        · exact .inr ⟨x, hx, hxw⟩

/-! ### Clearing the marks of bad data -/

theorem State.unmark_flags (s : State) (p : Space × Nat) : (s.unmark p).task.flags = s.task.flags := by
  obtain ⟨sp, a⟩ := p
  by_cases h : sp = .mem
  · subst h; rfl
  · rw [State.unmark_holder s h, State.atHolder]
    split <;> rfl

/-- Clearing a mark changes no byte. -/
theorem State.rdByte_unmark (s : State) (p : Space × Nat) (sp : Space) (a : Nat) :
    (s.unmark p).rdByte sp a = s.rdByte sp a := by
  obtain ⟨psp, pa⟩ := p
  by_cases h : psp = .mem
  · subst h; cases sp <;> rfl
  rw [State.unmark_holder s h]
  by_cases hsp : sp = .mem
  · simp only [hsp, State.rdByte, State.atHolder_mem]
  rw [State.rdByte_holder _ hsp, State.rdByte_holder _ hsp, State.holder_atHolder (by simp) (by simp)]
  split
  · cases s.holder sp with
    | none => rfl
    | some t => cases sp <;> rfl
  · rfl

/-- What holds of a state and is kept by clearing a mark holds after all marks of the writes have been cleared. -/
theorem State.unmarkAll_induction {P : State → Prop} (hP : ∀ u p, P u → P (u.unmark p)) {s : State} (h : P s)
    (ws : List BWrite) : P (s.unmarkAll ws) := by
  unfold State.unmarkAll
  split
  · exact h
  · exact List.foldlRecOn _ _ h fun u hu p _ => hP u p hu

theorem State.rdByte_unmarkAll (s : State) (ws : List BWrite) (sp : Space) (a : Nat) :
    (s.unmarkAll ws).rdByte sp a = s.rdByte sp a :=
  State.unmarkAll_induction (P := fun u => u.rdByte sp a = s.rdByte sp a)
    (fun u p hu => (u.rdByte_unmark p sp a).trans hu) rfl ws

theorem State.unmarkAll_flags (s : State) (ws : List BWrite) : (s.unmarkAll ws).task.flags = s.task.flags :=
  State.unmarkAll_induction (P := fun u => u.task.flags = s.task.flags) (fun u p hu => (u.unmark_flags p).trans hu) rfl ws

/-- Without an uncorrectable error in the machine no byte's error correction fails. -/
theorem State.not_badAt_of_sound {s : State} (h : s.sound = true) (sp : Space) (a : Nat) : ¬s.badAt sp a := by
  simp only [State.sound, Bool.and_eq_true, List.isEmpty_iff, List.all_eq_true] at h
  by_cases hsp : sp = .mem
  · subst hsp; simp [State.badAt, h.1]
  · rw [State.badAt_holder s hsp]
    rintro ⟨t, ht, hb⟩
    obtain ⟨c, hc, rfl⟩ := State.holder_mem ht
    simp [h.2 c hc] at hb

theorem State.not_badAt_foldl_unmark {sp : Space} {a : Nat} (ps : List (Space × Nat)) {s : State}
    (h : ¬s.badAt sp a ∨ (sp, a) ∈ ps) : ¬(ps.foldl State.unmark s).badAt sp a := by
  induction ps generalizing s with
  | nil => simpa using h
  | cons p ps ih =>
    refine ih ?_
    rw [State.badAt_unmark]
    obtain h | h := h
    · exact .inl fun hb => h hb.1
    · obtain rfl | h := List.mem_cons.1 h
      · exact .inl fun hb => hb.2 rfl
      · exact .inr h

/-- A write of all eight bits covers its byte. -/
theorem mem_covered {ws : List BWrite} {w : BWrite} (h : w ∈ ws) (hm : w.mask = 0xFF) : (w.sp, w.at_) ∈ covered ws := by
  have all (l : List BWrite) (m : Byte) (hl : m = 0xFF ∨ w ∈ l) : l.foldl (fun m x => m ||| x.mask) m = 0xFF := by
    induction l generalizing m with
    | nil => simpa using hl
    | cons x l ih =>
      refine ih (m ||| x.mask) ?_
      have hor : ∀ b : Byte, 0xFF ||| b = 0xFF := fun b => BitVec.allOnes_or (x := b)
      obtain rfl | hl := hl
      · exact .inl (hor _)
      · obtain rfl | hl := List.mem_cons.1 hl
        · exact .inl (by rw [hm, BitVec.or_comm, hor])
        · exact .inr hl
  refine List.mem_map.2 ⟨w, List.mem_filter.2 ⟨h, ?_⟩, rfl⟩
  rw [beq_iff_eq]
  exact all _ _ (.inr (List.mem_filter.2 ⟨h, by simp⟩))

/-- Bad data that a write covers is replaced (R308). -/
theorem State.not_badAt_unmarkAll (s : State) {ws : List BWrite} {w : BWrite} (h : w ∈ ws) (hm : w.mask = 0xFF) :
    ¬(s.unmarkAll ws).badAt w.sp w.at_ := by
  unfold State.unmarkAll
  split
  next hs => exact State.not_badAt_of_sound hs _ _
  next => exact State.not_badAt_foldl_unmark _ (.inr (mem_covered h hm))

/-! ### Storing a number -/

/-- The writes of a number: one of all eight bits for each of its bytes. -/
theorem mem_natWrites {sp : Space} {a n v : Nat} {w : BWrite} (h : w ∈ natWrites sp a n v) :
    w.sp = sp ∧ a ≤ w.at_ ∧ w.at_ < a + n := by
  induction n generalizing a v with
  | zero => cases h
  | succ n ih =>
    obtain rfl | h := List.mem_cons.1 h
    · simp
    · obtain ⟨hsp, hlo, hhi⟩ := ih h
      exact ⟨hsp, by omega, by omega⟩

theorem exists_natWrites (sp : Space) {a n b : Nat} (v : Nat) (hlo : a ≤ b) (hhi : b < a + n) :
    ∃ w ∈ natWrites sp a n v, w.sp = sp ∧ w.at_ = b ∧ w.mask = 0xFF := by
  induction n generalizing a v with
  | zero => omega
  | succ n ih =>
    by_cases hb : b = a
    · exact ⟨_, List.mem_cons_self, rfl, hb.symm, rfl⟩
    · obtain ⟨w, hw, h⟩ := ih (a := a + 1) (v / 256) (by omega) (by omega)
      exact ⟨w, List.mem_cons_of_mem _ hw, h⟩

/-- The bytes of a number, written in order, read back as the number. -/
theorem State.rdNat_foldl_natWrites {s : State} (hs : s.canonical) {sp : Space} (hsp : sp ≠ .wbuf)
    (hh : (s.holder sp).isSome) (a n v : Nat) :
    ((natWrites sp a n v).foldl State.wrByte s).rdNat sp a n = v % 2 ^ (8 * n) := by
  induction n generalizing a v s with
  | zero => simp [State.rdNat, Nat.mod_one]
  | succ n ih =>
    have hs' := State.canonical_wrByte hs ⟨sp, a, 0xFF, BitVec.ofNat 8 v⟩
    have hfirst := State.rdByte_wrByte_self hs (w := ⟨sp, a, 0xFF, BitVec.ofNat 8 v⟩) hsp hh
      (show (0xFF : Byte) ≠ 0 by decide)
    have hrest := ih hs' (by rw [State.holder_wrByte_isSome]; exact hh) (a + 1) (v / 256)
    have hne : ∀ w ∈ natWrites sp (a + 1) n (v / 256), (s.wrByte ⟨sp, a, 0xFF, BitVec.ofNat 8 v⟩).place sp a
        ≠ (s.wrByte ⟨sp, a, 0xFF, BitVec.ofNat 8 v⟩).place w.sp w.at_ := by
      intro w hw
      obtain ⟨-, hlo, -⟩ := mem_natWrites hw
      rw [Ne, State.place_eq_iff]
      omega
    rw [State.rdNat, natWrites, List.foldl_cons, hrest, State.rdByte_foldl_wrByte_ne hs' hne, hfirst, mergeByte_all,
      BitVec.toNat_ofNat, show 8 * (n + 1) = 8 + 8 * n by omega, Nat.pow_add, Nat.mod_mul]

/-- A stored number reads back modulo 2^(8n) (R6). -/
theorem State.rdNat_wrNat {s : State} (hs : s.canonical) {sp : Space} (hsp : sp ≠ .wbuf) (hh : (s.holder sp).isSome)
    (a n v : Nat) : (s.wrNat sp a n v).rdNat sp a n = v % 2 ^ (8 * n) := by
  rw [State.wrNat, State.wrBytes, State.rdNat_congr (State.rdByte_unmarkAll _ _ sp),
    State.rdNat_foldl_natWrites hs hsp hh]

/-- Storing a number leaves every byte outside it as it was, also in the weight buffer. -/
theorem State.sameBytesBut_wrNat {s : State} (hs : s.canonical) (sp : Space) (a n v : Nat) :
    s.sameBytesBut (s.wrNat sp a n v) sp a n := by
  intro sp' a' h
  rw [State.wrNat, State.wrBytes, State.rdByte_unmarkAll, State.rdByte_foldl_wrByte_ne hs]
  intro w hw
  obtain ⟨rfl, hlo, hhi⟩ := mem_natWrites hw
  have hk := h (w.at_ - a) (by omega)
  rwa [Nat.add_sub_cancel' hlo] at hk

/-- Storing a number replaces the bad data under it (R308). -/
theorem State.badIn_wrNat (s : State) (sp : Space) (a n v : Nat) : (s.wrNat sp a n v).badIn sp a n = none := by
  rw [State.badIn_eq_none]
  intro b hlo hhi
  obtain ⟨w, hw, rfl, rfl, hm⟩ := exists_natWrites sp v hlo hhi
  exact State.not_badAt_unmarkAll _ hw hm

/-- Storing a number refreshes the flags of the words of the register space under it (R38). -/
theorem State.flags_wrNat {s : State} (hs : s.canonical) {a n b : Nat} (v : Nat) (hlo : a ≤ b) (hhi : b < a + n) :
    spGet Flag.fresh (s.wrNat .reg a n v).task.flags (b / 4) = Flag.fresh := by
  obtain ⟨w, hw, hsp, rfl, hm⟩ := exists_natWrites .reg v hlo hhi
  rw [State.wrNat, State.wrBytes, State.unmarkAll_flags]
  exact State.flags_foldl_wrByte hs (.inr ⟨w, hw, by rw [hm]; decide, hsp, rfl⟩)

/-- A store has a holder if it is physical memory, the task's own, or the scratchpad of a resident task of the launch. -/
theorem State.holder_isSome {s : State} {sp : Space}
    (h : ∀ k, sp = .far k → k = s.task.lcn ∨ (s.findTask s.task.lid k).isSome = true) : (s.holder sp).isSome := by
  cases sp with
  | far k =>
    by_cases hk : k = s.task.lcn
    · simp [State.holder, State.away, hk]
    · simpa [State.holder, State.away, hk] using h k rfl
  | _ => rfl

/-! ### The obligation -/

/-- Settles O21: the bytes of the number are written at distinct places, each held by one task or by memory. -/
theorem storesReadBack : Obligations.StoresReadBack := by
  unfold Obligations.StoresReadBack
  intro s sp a n v hs hsp hfar
  have hread := State.rdNat_wrNat hs hsp (State.holder_isSome hfar) a n v
  refine ⟨(State.littleEndian_eq_rdNat _ sp a n).trans hread, hread, State.sameBytesBut_wrNat hs sp a n v,
    State.canonical_wrNat hs sp a n v, State.badIn_wrNat s sp a n v, ?_⟩
  rintro rfl k hk
  exact State.flags_wrNat hs v (Nat.le_add_right a k) (by omega)

end Sys2Proof.Machine
end

section
/-! PROOF. Decoding inverts encoding: what each format keeps of its fields, then each instruction by its format (R14,
R129 to R134). -/

namespace Sys2Proof

/-! ### Fields of a concatenation -/

theorem b2n_lt (b : Bool) {k : Nat} (h : 1 ≤ k) : b2n b < 2 ^ k :=
  calc b2n b < 2 ^ 1 := by cases b <;> decide
    _ ≤ 2 ^ k := Nat.pow_le_pow_right (by decide) h

theorem b2n_eq_one (b : Bool) : (b2n b == 1) = b := by cases b <;> rfl

theorem toNat_lt_pow {n k : Nat} (v : BitVec n) (h : n ≤ k) : v.toNat < 2 ^ k :=
  Nat.lt_of_lt_of_le v.isLt (Nat.pow_le_pow_right (by decide) h)

/-- A concatenation is as long as its parts. -/
theorem cat_lt_pow {x n y k : Nat} (hy : y < 2 ^ n) (h : n ≤ k) : cat x n y < 2 ^ k ↔ x < 2 ^ (k - n) := by
  obtain ⟨m, rfl⟩ := Nat.exists_eq_add_of_le h
  rw [Nat.add_sub_cancel_left]
  refine ⟨fun hx => ?_, fun hx => by rw [Nat.add_comm]; exact cat_lt hx hy⟩
  rw [cat, Nat.pow_add, Nat.mul_comm (2 ^ n)] at hx
  exact Nat.lt_of_mul_lt_mul_right (Nat.lt_of_le_of_lt (Nat.le_add_right ..) hx)

theorem cat_zero (k y : Nat) : cat 0 k y = y := by simp [cat]

theorem cat_assoc (x m y n z : Nat) : cat (cat x m y) n z = cat x (m + n) (cat y n z) := by
  simp only [cat, Nat.pow_add]; ring

/-- Concatenations nest to the left. -/
theorem cat_cat {x n y m z : Nat} (h : m ≤ n) : cat x n (cat y m z) = cat (cat x (n - m) y) m z := by
  rw [cat_assoc, Nat.sub_add_cancel h]

/-- A field above all bits of a number is 0. -/
theorem fld_of_lt {y lo : Nat} (w : Nat) (h : y < 2 ^ lo) : fld y lo w = 0 := by
  rw [fld, Nat.div_eq_of_lt h, Nat.zero_mod]

/-- A field from bit 0 that takes in the whole low part. -/
theorem fld_cat_zero {x n y w : Nat} (hy : y < 2 ^ n) (h : n ≤ w) :
    fld (cat x n y) 0 w = cat (fld x 0 (w - n)) n y := by
  obtain ⟨k, rfl⟩ := Nat.exists_eq_add_of_le h
  simp only [fld, cat, Nat.pow_zero, Nat.div_one, Nat.add_sub_cancel_left]
  rw [Nat.pow_add, Nat.mod_mul, Nat.mul_add_mod_of_lt hy, Nat.mul_comm x, Nat.mul_add_div (Nat.two_pow_pos n),
    Nat.div_eq_of_lt hy, Nat.add_zero, Nat.mul_comm, Nat.add_comm]

/-! ### What each format keeps -/

/-- The fields of a word with OP, D, A, B, QP and QN above 37 bits `low` (R129, R130). -/
theorem encCE_fields {w op d a b low : Nat} {q : Qual} (hw : encCE op d a b q low = w)
    (hop : op < 2 ^ 8 := by decide)
    (hd : d < 2 ^ 5 := by simp only [toNat_lt_pow, Nat.reduceLeDiff, Nat.two_pow_pos])
    (ha : a < 2 ^ 5 := by simp only [toNat_lt_pow, Nat.reduceLeDiff, Nat.two_pow_pos])
    (hb : b < 2 ^ 5 := by simp only [toNat_lt_pow, Nat.reduceLeDiff, Nat.two_pow_pos])
    (hl : low < 2 ^ 37 := by
      simp only [cat_lt_pow, toNat_lt_pow, b2n_lt, BitVec.isLt, Nat.reduceSub, Nat.reduceLeDiff, Nat.two_pow_pos]) :
    w < 2 ^ 64 ∧ fld w 56 8 = op ∧ (∀ lo n, 51 ≤ lo → lo + n ≤ 56 → fld w lo n = fld d (lo - 51) n) ∧ fld w 46 5 = a ∧
      fld w 41 5 = b ∧ qualAt w = q ∧ ∀ lo n, lo + n ≤ 37 → fld w lo n = fld low lo n := by
  subst hw
  have htop : encTop op d a b q < 2 ^ 27 := by
    simp only [encTop, encQual, cat_lt_pow, BitVec.isLt, b2n_lt, Nat.reduceSub, Nat.reduceLeDiff, *]
  refine ⟨cat_lt htop hl, ?_, fun lo n hlo hn => ?_, ?_, ?_, ?_, fun lo n h => fld_cat_low h⟩
  case refine_2 =>
    obtain ⟨k, rfl⟩ := Nat.exists_eq_add_of_le hlo
    have e : 51 + k - 37 - 1 - 3 - 5 - 5 = k := by omega
    rw [Nat.add_sub_cancel_left, encCE, encTop, encQual, fld_cat_high hl (by omega),
      fld_cat_high (b2n_lt q.n le_rfl) (by omega), fld_cat_high q.p.isLt (by omega), fld_cat_high hb (by omega),
      fld_cat_high ha (by omega), fld_cat_low (by omega), e]
  all_goals
    simp only [qualAt, bv, bitOf_eq_fld, encCE, encTop, encQual, fld_cat_high, fld_cat_low, fld_self, BitVec.isLt,
      b2n_lt, b2n_eq_one, Nat.reduceSub, Nat.reduceAdd, Nat.reduceLeDiff, BitVec.ofNat_toNat, BitVec.setWidth_eq, *]

theorem encCR_eq (op d a b : Nat) (q : Qual) (fn : Nat) : encCR op d a b q fn = encCE op d a b q (cat fn 29 0) :=
  cat_assoc ..

theorem encCI_eq (op d a : Nat) (q : Qual) (imm : Nat) : encCI op d a q imm = encCE op d a 0 q (cat imm 5 0) :=
  cat_assoc ..

theorem encCM_eq (op d a x : Nat) (q : Qual) (cls scope sz sx low : Nat) : encCM op d a x q cls scope sz sx low
    = encCE op d a x q (cat (cat (cat (cat cls 3 scope) 3 sz) 1 sx) 26 low) := by
  rw [encCM, encCE]; simp only [cat_assoc]

/-- The fields of a CT word (R131). -/
theorem encCT_fields {w op j p off : Nat} {pn : Bool} (hw : encCT op j p pn off = w) (hop : op < 2 ^ 8 := by decide)
    (hj : j < 2 ^ 3 := by exact BitVec.isLt _) (hp : p < 2 ^ 3 := by exact BitVec.isLt _)
    (ho : off < 2 ^ 48 := by simp only [BitVec.isLt, Nat.two_pow_pos]) :
    w < 2 ^ 64 ∧ fld w 56 8 = op ∧ fld w 53 3 = j ∧ fld w 50 3 = p ∧ bitOf w 49 = pn ∧ fld w 48 1 = 0 ∧
      fld w 0 48 = off ∧ fld w 0 49 = off := by
  subst hw
  simp only [bitOf_eq_fld, encCT, fld_cat_high, fld_cat_low, fld_cat_zero, cat_zero, fld_self, cat_lt_pow, b2n_lt,
    b2n_eq_one, Nat.two_pow_pos, Nat.reduceSub, Nat.reduceAdd, Nat.reduceLeDiff, and_self, *]

/-- The fields of a CC word (R131). -/
theorem encCC_fields {w op pd pc a cond : Nat} {rhs : CmpRhs} (hw : encCC op pd pc a rhs cond = w)
    (hop : op < 2 ^ 8 := by decide) (hpd : pd < 2 ^ 3 := by exact BitVec.isLt _)
    (hpc : pc < 2 ^ 3 := by exact BitVec.isLt _) (ha : a < 2 ^ 5 := by exact BitVec.isLt _)
    (hc : cond < 2 ^ 4 := by exact BitVec.isLt _) :
    w < 2 ^ 64 ∧ fld w 56 8 = op ∧ fld w 53 3 = pd ∧ fld w 50 3 = pc ∧ fld w 45 5 = a ∧ fld w 36 4 = cond ∧
      ccRhs w = rhs ∧ ∀ z ∈ ccZero w, fld w z.1 z.2 = 0 := by
  subst hw
  have h1 : 1 < 2 ^ 1 := by decide
  cases rhs
  all_goals
    simp only [ccRhs, ccZero, bv, bitOf_eq_fld, encCC, fld_cat_high, fld_cat_low, fld_self, fld_zero, cat_lt_pow,
      BitVec.isLt, BitVec.ofNat_toNat, BitVec.setWidth_eq, Nat.two_pow_pos, Nat.reduceSub, Nat.reduceAdd,
      Nat.reduceLeDiff, Nat.reduceBEq, Bool.false_eq_true, if_true, if_false, List.forall_mem_cons, List.not_mem_nil,
      false_imp_iff, implies_true, and_self, *]

/-! ### The control core -/

theorem gate_eq_ok {w : Nat} {zs : List (Nat × Nat)} {i j : Instr} (hz : ∀ z ∈ zs, fld w z.1 z.2 = 0) (hij : i = j)
    (hj : j.wf = true) : gate w zs i = .ok j := by
  subst hij
  have : zs.any (fun z => fld w z.1 z.2 != 0) = false := by simpa using hz
  rw [gate, this, hj]; rfl

/-- A word whose opcode is not listed decodes to OPCODE_NOT_LISTED (R134). -/
theorem decodeControl_of_not_listed {w : Nat} (h : controlListed (fld w 56 8) = false) :
    decodeControl w = gate w [] (.opcodeNotListed (BitVec.ofNat 64 w)) := by
  unfold decodeControl
  split
  case h_79 => rfl
  all_goals
    rw [‹fld w 56 8 = _›] at h
    exact absurd h (by decide)

/-- The encoder's words of the control core decode to what they encode. -/
theorem decodeControl_encode {i : Instr} (h : i.wf = true) (hi : i.agent = some .control) :
    encode i < 2 ^ 64 ∧ decodeControl (encode i) = .ok i := by
  generalize hw : encode i = w
  cases i
  case nop | halt | trap | spget | spset | iinv | prime | fork | join | twait | qcancel | tset | tget | patw | patr |
    shpw | shpr | bar | barr | launch | add | sub | and | or | xor | andn | shl | shr | sar | min | max | mul | mulh |
    div | rem | csel | addi | andi | ori | xori | shli | shri | sari | limm | limmh | bfx | bfi | rev | clz | ctz |
    popc | clmul | plog | psave | pload | fadd | fsub | fmul | ffma | fmin | fmax | fcvt | ld | st | lda | stl | pref
    | fence | prepr | ret | jget | jclr =>
    unfold encode at hw
    simp only [encCR_eq, encCI_eq, encCM_eq] at hw
    obtain ⟨hlt, hop, hd, ha, hb, hq, hl⟩ := encCE_fields hw
    rw [decodeControl, hop]
    refine ⟨hlt, gate_eq_ok ?_ ?_ h⟩
    all_goals simp only [bv, bitOf_eq_fld, hd, ha, hb, hq, hl, fld_cat_high, fld_cat_low, fld_self, fld_of_lt, cat_zero,
      cat_lt_pow, toNat_lt_pow, b2n_lt, b2n_eq_one, BitVec.isLt, BitVec.ofNat_toNat, BitVec.setWidth_eq, Nat.reduceSub,
      Nat.reduceAdd, Nat.reduceLeDiff, Nat.two_pow_pos, List.forall_mem_cons, List.not_mem_nil, and_self, false_imp_iff,
      implies_true]
  case prep | xfer | xcall =>
    obtain ⟨hlt, hop, hj, hp, hpn, hz, ho, hoz⟩ := encCT_fields hw
    rw [decodeControl, hop]
    refine ⟨hlt, gate_eq_ok ?_ ?_ h⟩
    all_goals simp only [bv, hj, hp, hpn, hz, ho, hoz, BitVec.ofNat_toNat, BitVec.setWidth_eq, List.forall_mem_cons,
      List.not_mem_nil, and_self, false_imp_iff, implies_true]
  case cmp | fcmp =>
    obtain ⟨hlt, hop, hpd, hpc, ha, hc, hr, hz⟩ := encCC_fields hw
    rw [decodeControl, hop]
    refine ⟨hlt, gate_eq_ok hz ?_ h⟩
    simp only [bv, hpd, hpc, ha, hc, hr, BitVec.ofNat_toNat, BitVec.setWidth_eq]
  case brk => subst hw; decide
  case opcodeNotListed v =>
    subst hw
    refine ⟨v.isLt, (decodeControl_of_not_listed ?_).trans (gate_eq_ok (List.forall_mem_nil _) ?_ h)⟩
    · exact Bool.not_eq_true' _ ▸ h
    · exact congrArg _ ((BitVec.ofNat_toNat 64 v).trans (BitVec.setWidth_eq v))
  all_goals cases hi

/-! ### The engines -/

/-- The fields of a command word (R14). -/
theorem encCmd_fields {w op x : Nat} {h : CmdHead} (hw : encCmd h op x = w) (hop : op < 2 ^ 7 := by decide)
    (hx : x < 2 ^ 26 := by
      simp only [encSlots, cat_cat, cat_lt_pow, toNat_lt_pow, b2n_lt, BitVec.isLt, Nat.reduceSub, Nat.reduceLeDiff,
        Nat.two_pow_pos]) :
    w < 2 ^ 64 ∧ fld w 47 7 = op ∧ headAt w = h ∧ ∀ lo n, lo + n ≤ 26 → fld w lo n = fld x lo n := by
  subst hw
  refine ⟨?_, ?_, ?_, fun lo n h => fld_cat_low h⟩
  all_goals
    simp only [headAt, waitAt, bv, encCmd, encWait, fld_cat_high, fld_cat_low, fld_self, cat_lt_pow, BitVec.isLt,
      BitVec.ofNat_toNat, BitVec.setWidth_eq, Nat.reduceSub, Nat.reduceAdd, Nat.reduceLeDiff, *]

/-- Opcodes outside an engine's own map are read as the generic commands, the same in every engine (R32 to R35). -/
theorem decodeEngine_eq_generic {e : EngId} {w : Nat}
    (h : 0x70 ≤ fld w 47 7 ∨ engineListed e (fld w 47 7) = false) :
    decodeEngine e w = decodeGeneric e w := by
  cases e
  case matrix =>
    show decodeMatrix w = _
    unfold decodeMatrix
    split
    case h_12 => rfl
    all_goals exact absurd h (by rw [‹fld w 47 7 = _›]; decide)
  case flume =>
    show decodeFlume w = _
    unfold decodeFlume
    split
    case h_12 => rfl
    all_goals exact absurd h (by rw [‹fld w 47 7 = _›]; decide)
  case sluice =>
    show decodeSluice w = _
    unfold decodeSluice
    split
    case h_11 => rfl
    all_goals exact absurd h (by rw [‹fld w 47 7 = _›]; decide)

/-- A word whose opcode is not listed for the engine decodes to ENGINE_OPCODE_NOT_LISTED. -/
theorem decodeEngine_of_not_listed {e : EngId} {w : Nat} (h : engineListed e (fld w 47 7) = false) :
    decodeEngine e w = gate w [] (.engineOpcodeNotListed e (BitVec.ofNat 64 w)) := by
  rw [decodeEngine_eq_generic (.inr h)]
  unfold decodeGeneric
  split
  case h_5 => rfl
  all_goals exact absurd h (by rw [‹fld w 47 7 = _›]; cases e <;> decide)

/-- The encoder's words of the engines decode, in their engine's stream, to what they encode. -/
theorem decodeEngine_encode {i : Instr} {e : EngId} (h : i.wf = true) (hi : i.agent = some (.engine e)) :
    encode i < 2 ^ 64 ∧ decodeEngine e (encode i) = .ok i := by
  generalize hw : encode i = w
  cases i
  case mma | accz | acccp | wfill | winv | part | rank | topk | drain | amax | mseed | copy | fill | gather | scatter
    | gathp | exp24 | putr | bcast | fseed | pfetch | cmpb | sacc | sfetch | scas | bset | bclr | btest | cinc |
    cmerge | cread | sseed =>
    cases hi
    obtain ⟨hlt, hop, hh, hx⟩ := encCmd_fields hw
    simp only [decodeEngine, decodeMatrix, decodeFlume, decodeSluice, hop]
    refine ⟨hlt, gate_eq_ok ?_ ?_ h⟩
    all_goals simp only [bv, bitOf_eq_fld, hh, hx, encSlots, cat_cat, fld_cat_high, fld_cat_low, fld_self, fld_of_lt,
      cat_zero, cat_lt_pow, toNat_lt_pow, b2n_lt, b2n_eq_one, BitVec.ofNat_toNat, BitVec.setWidth_eq, Nat.reduceSub,
      Nat.reduceAdd, Nat.reduceLeDiff, Nat.two_pow_pos, List.forall_mem_cons, List.not_mem_nil, and_self, false_imp_iff,
      implies_true]
  case idle | rep | efence | endStream =>
    cases hi
    obtain ⟨hlt, hop, hh, hx⟩ := encCmd_fields hw
    rw [decodeEngine_eq_generic (.inl (by simp only [hop, Nat.reduceLeDiff])), decodeGeneric, hop]
    refine ⟨hlt, gate_eq_ok ?_ ?_ h⟩
    all_goals simp only [bv, hh, hx, fld_cat_high, fld_cat_low, fld_self, fld_of_lt, toNat_lt_pow, BitVec.ofNat_toNat,
      BitVec.setWidth_eq, Nat.reduceSub, Nat.reduceAdd, Nat.reduceLeDiff, Nat.two_pow_pos, List.forall_mem_cons,
      List.not_mem_nil, and_self, false_imp_iff, implies_true]
  case engineOpcodeNotListed v =>
    cases hi
    subst hw
    refine ⟨v.isLt, (decodeEngine_of_not_listed ?_).trans (gate_eq_ok (List.forall_mem_nil _) ?_ h)⟩
    · exact Bool.not_eq_true' _ ▸ h
    · exact congrArg _ ((BitVec.ofNat_toNat 64 v).trans (BitVec.setWidth_eq v))
  all_goals cases hi

/-! ### The obligation -/

/-- Settles O2: every format keeps its fields, and an instruction's word has no other bits. -/
theorem decodeInvertsEncode : Obligations.DecodeInvertsEncode := by
  unfold Obligations.DecodeInvertsEncode
  intro i h
  split
  case h_1 hi =>
    obtain ⟨hlt, hd⟩ := decodeControl_encode h hi
    refine ⟨hlt, hd, ?_⟩
    rw [decodeTableWord, if_pos le_rfl, Nat.mod_eq_of_lt hlt, hd]
  case h_2 e hi => exact decodeEngine_encode h hi
  case h_3 => trivial

end Sys2Proof
end

section
/-! PROOF. Every command of an engine issues when it is ready and its checks pass (R13, R17, R195, R198, R233, R263). -/

namespace Sys2Proof.Machine

/-! ### Issue of a ready command -/

/-- A ready command whose checks pass goes into flight, but for one that reads a core that is not resident (R75). -/
theorem State.issue_of_mayGo {s u : State} {e : EngId} {h : CmdHead} {r : Res} {cost : State → Cost} {q : QEnt}
    {i : Issued} {body : State → Except Trap (State × Issued)} (hg : s.mayGo e h r (cost s).lat q)
    (hb : body s = .ok (u, i)) :
    s.issue e h r cost body = .next (if i.held then s else u.issuedAs e h r q (cost s) i) := by
  cases hh : i.held
  case false => exact State.issue_goes hg hb hh
  case true => exact State.issue_held hg hb hh

/-! ### What each command issues -/

theorem exec_mma (h : CmdHead) (a b c : BitVec 6) (semi : BitVec 2) (x y z : Bool) (s : State) :
    exec (.mma h a b c semi x y z) s = s.issue .matrix h .a
      (mmaCost a b (Semi.of semi) y) (mmaBody a b c (Semi.of semi) x y z) := rfl

theorem exec_accz (h : CmdHead) (c : BitVec 6) (s : State) :
    exec (.accz h c) s = s.issue .matrix h .a (acczCost c) (acczBody c) := rfl

theorem exec_acccp (h : CmdHead) (a c : BitVec 6) (x : Bool) (s : State) :
    exec (.acccp h a c x) s = s.issue .matrix h .b (rowsCost a 16) (acccpBody a c x) := rfl

theorem exec_wfill (h : CmdHead) (a c : BitVec 6) (s : State) :
    exec (.wfill h a c) s = s.issue .matrix h .c (wfillCost a c) (wfillBody a c) := rfl

theorem exec_winv (h : CmdHead) (c : BitVec 6) (x : Bool) (s : State) :
    exec (.winv h c x) s = s.issue .matrix h .c (fun _ => { occ := 1, lat := 1 }) (winvBody c x) := rfl

theorem exec_part (h : CmdHead) (a c : BitVec 6) (x : Bool) (s : State) :
    exec (.part h a c x) s = s.issue .matrix h .a (rankCost a) (partBody a c x) := rfl

theorem exec_rank (h : CmdHead) (a c : BitVec 6) (x : Bool) (s : State) :
    exec (.rank h a c x) s = s.issue .matrix h .a (rankCost a) (rankBody a c x) := rfl

theorem exec_topk (h : CmdHead) (a c : BitVec 6) (k : BitVec 7) (x : Bool) (s : State) :
    exec (.topk h a c k x) s = s.issue .matrix h .a (rankCost a) (topkBody a c k x) := rfl

theorem exec_drain (h : CmdHead) (a c : BitVec 6) (sh : BitVec 3) (s : State) :
    exec (.drain h a c sh) s = s.issue .matrix h .b (rowsCost a 60) (drainBody false a c sh) := rfl

theorem exec_amax (h : CmdHead) (a c : BitVec 6) (sh : BitVec 3) (s : State) :
    exec (.amax h a c sh) s = s.issue .matrix h .b (rowsCost a 48) (drainBody true a c sh) := rfl

theorem exec_mseed (h : CmdHead) (a : BitVec 6) (s : State) :
    exec (.mseed h a) s = s.issue .matrix h .none (fun _ => { lat := 1 }) (mseedBody a) := rfl

theorem exec_copy (h : CmdHead) (a c : BitVec 6) (s : State) :
    exec (.copy h a c) s = s.issue .flume h .a (copyCost a c) (copyBody a c) := rfl

theorem exec_fill (h : CmdHead) (a c : BitVec 6) (x : Bool) (s : State) :
    exec (.fill h a c x) s = s.issue .flume h .a (fillCost c) (fillBody a c x) := rfl

theorem exec_gather (h : CmdHead) (a b c : BitVec 6) (x : Bool) (s : State) :
    exec (.gather h a b c x) s = s.issue .flume h .a (gatherCost a b c) (gatherBody false x a b c) := rfl

theorem exec_scatter (h : CmdHead) (a b c : BitVec 6) (x : Bool) (s : State) :
    exec (.scatter h a b c x) s = s.issue .flume h .a (gatherCost a b c) (gatherBody true x a b c) := rfl

theorem exec_gathp (h : CmdHead) (a b c p : BitVec 6) (x : Bool) (s : State) :
    exec (.gathp h a b c p x) s = s.issue .flume h .a (gathpCost a b c) (gathpBody a b c p x) := rfl

theorem exec_exp24 (h : CmdHead) (a c : BitVec 6) (s : State) :
    exec (.exp24 h a c) s = s.issue .flume h .a (exp24Cost a c) (exp24Body a c) := rfl

theorem exec_putr (h : CmdHead) (a c : BitVec 6) (rop : BitVec 2) (s : State) :
    exec (.putr h a c rop) s = s.issue .flume h .a (putrCost a c) (putrBody a c rop) := rfl

theorem exec_bcast (h : CmdHead) (a c : BitVec 6) (scope : BitVec 3) (s : State) :
    exec (.bcast h a c scope) s = s.issue .flume h .a (bcastCost a c scope) (bcastBody a c scope) := rfl

theorem exec_fseed (h : CmdHead) (a : BitVec 6) (s : State) :
    exec (.fseed h a) s = s.issue .flume h .none (fun _ => { lat := 1 }) (fseedBody a) := rfl

theorem exec_cmpb (h : CmdHead) (a b c : BitVec 6) (s : State) :
    exec (.cmpb h a b c) s = s.issue .flume h .a (cmpbCost a b c) (cmpbBody a b c) := rfl

theorem exec_sacc (h : CmdHead) (a b c : BitVec 6) (skip : Bool) (sop : BitVec 3) (s : State) :
    exec (.sacc h a b c skip sop) s = s.issue .sluice h .a (costWide a c) (saccBody a b c skip sop) := rfl

theorem exec_sfetch (h : CmdHead) (a b c : BitVec 6) (skip : Bool) (sop : BitVec 3) (s : State) :
    exec (.sfetch h a b c skip sop) s = s.issue .sluice h .a (costEach a c) (sfetchBody a b c skip sop) := rfl

theorem exec_scas (h : CmdHead) (a b c : BitVec 6) (skip : Bool) (s : State) :
    exec (.scas h a b c skip) s = s.issue .sluice h .a (costEach a c) (scasBody a b c skip) := rfl

theorem exec_bset (h : CmdHead) (a c : BitVec 6) (skip : Bool) (s : State) :
    exec (.bset h a c skip) s = s.issue .sluice h .a (costWide a c) (bsetBody a c skip) := rfl

theorem exec_bclr (h : CmdHead) (a c : BitVec 6) (skip : Bool) (s : State) :
    exec (.bclr h a c skip) s = s.issue .sluice h .a (costWide a c) (bclrBody a c skip) := rfl

theorem exec_btest (h : CmdHead) (a b c : BitVec 6) (skip x : Bool) (s : State) :
    exec (.btest h a b c skip x) s = s.issue .sluice h .a (costEach a c) (btestBody a b c skip x) := rfl

theorem exec_sseed (h : CmdHead) (a : BitVec 6) (s : State) :
    exec (.sseed h a) s = s.issue .sluice h .none (fun _ => { lat := 1 }) (sseedBody a) := rfl

theorem exec_cinc (h : CmdHead) (a c : BitVec 6) (skip : Bool) (s : State) : exec (.cinc h a c skip) s
    = if s.d4 then s.issue .sluice h .a (costEach a c) (cincBody a c skip) else s.failFirst .sluice .a .unimpl := rfl

theorem exec_cmerge (h : CmdHead) (a c : BitVec 6) (s : State) : exec (.cmerge h a c) s
    = if s.d4 then s.issue .sluice h .a (cmergeCost c) (cmergeBody a c) else s.failFirst .sluice .a .unimpl := rfl

theorem exec_cread (h : CmdHead) (a c : BitVec 6) (s : State) : exec (.cread h a c) s
    = if s.d4 then s.issue .sluice h .a (creadCost a) (creadBody a c) else s.failFirst .sluice .a .unimpl := rfl

/-- Settles O43: each command is an issue of its own checks on its own resource. -/
theorem matrixCommandsIssue : Obligations.MatrixCommandsIssue := by
  unfold Obligations.MatrixCommandsIssue
  intro s u h q i a b c semi x y z sh km1 goes
  refine ⟨?_, ?_, ?_, ?_, ?_, ?_, ?_, ?_, ?_, ?_, ?_⟩
  all_goals
    intro hg hb
    simp only [exec_mma, exec_accz, exec_acccp, exec_wfill, exec_winv, exec_part, exec_rank, exec_topk,
      exec_drain, exec_amax, exec_mseed]
    exact State.issue_of_mayGo hg hb

/-! ### PFETCH (R254) -/

/-- The waits of a command stand together as neither TOKEN nor cancelled if each of them does. -/
theorem Task.resolveAll_eq_notYet_or_met {t : Task} {e : EngId} {S seq : Nat} {ws : List (Nat × Nat)}
    (h : ∀ w ∈ ws, t.resolve e S seq w ≠ .token ∧ t.resolve e S seq w ≠ .cancelled) :
    t.resolveAll e S seq ws = .notYet ∨ t.resolveAll e S seq ws = .met := by
  have ht : (ws.map (t.resolve e S seq)).contains .token = false := by
    simpa using fun a b hab => (h _ hab).1
  have hc : (ws.map (t.resolve e S seq)).contains .cancelled = false := by
    simpa using fun a b hab => (h _ hab).2
  rw [Task.resolveAll, ht, hc]
  cases (ws.map (t.resolve e S seq)).contains .notYet
  case true => exact .inl rfl
  case false => exact .inr rfl

/-- In an elastic frame PFETCH issues like any other command. -/
theorem exec_pfetch_elastic {s : State} (h : CmdHead) (a : BitVec 6) (hs : (s.eng .flume).strict = false) :
    exec (.pfetch h a) s = s.issue .flume h .a (fun _ => { occ := 1, lat := 1 }) (pfetchBody a) := by
  show execPfetch h a s = _
  simp only [execPfetch, hs, Bool.false_and, Bool.false_eq_true, if_false]

/-- In a timed frame PFETCH raises TIMED-STATE at its stamp, if its waits raise nothing before. -/
theorem exec_pfetch_timed {s : State} {h : CmdHead} (a : BitVec 6) (hs : (s.eng .flume).strict = true)
    (hm : s.mayIssue .flume = true) (hS : (s.eng .flume).nextStamp h.idle.toNat ≤ (s.eng .flume).cnt)
    (hw : ∀ w ∈ (s.eng .flume).waits h,
      s.task.resolve .flume ((s.eng .flume).nextStamp h.idle.toNat) (s.eng .flume).seq w ≠ .token ∧
        s.task.resolve .flume ((s.eng .flume).nextStamp h.idle.toNat) (s.eng .flume).seq w ≠ .cancelled) :
    exec (.pfetch h a) s = .next (s.failAt .flume { code := .timedState }) := by
  show execPfetch h a s = _
  obtain hr | hr := Task.resolveAll_eq_notYet_or_met hw
  all_goals simp only [execPfetch, hs, hm, hS, hr, decide_true, Bool.and_self, if_true]

/-- Settles O44: each command is an issue of its own checks; PFETCH by the mode of its frame. -/
theorem flumeCommandsIssue : Obligations.FlumeCommandsIssue := by
  unfold Obligations.FlumeCommandsIssue
  intro s u h q i a b c x p rop scope goes
  refine ⟨?_, ?_, ?_, ?_, ?_, ?_, ?_, ?_, ?_,
    fun hs hg hb => (exec_pfetch_elastic h a hs).trans (State.issue_of_mayGo hg hb),
    fun hs _ hm hS hw => exec_pfetch_timed a hs hm hS hw, ?_⟩
  all_goals
    intro hg hb
    simp only [exec_copy, exec_fill, exec_gather, exec_scatter, exec_gathp, exec_exp24, exec_putr,
      exec_bcast, exec_fseed, exec_cmpb]
    exact State.issue_of_mayGo hg hb

end Sys2Proof.Machine
end

section
/-! PROOF. The sluice's commands issue; the counting ones on the D4 (R263, R271, R286). -/

namespace Sys2Proof.Machine

/-! ### What a body that passes its checks has computed -/

/-- A computation that succeeds has succeeded at each step. -/
theorem ok_of_bind_ok {ε α β : Type} {x : Except ε α} {f : α → Except ε β} {b : β} (h : (x >>= f) = .ok b) :
    ∃ a, x = .ok a ∧ f a = .ok b := by
  cases x with
  | error => cases h
  | ok a => exact ⟨a, rfl, h⟩

/-- No sluice command is held at the head: its target is reached by requests. -/
theorem State.sluGo_held (s : State) (op : SluOp) (written : List View) : (s.sluGo op written).2.held = false := by
  unfold State.sluGo
  dsimp only
  split <;> rfl

theorem held_of_sluBody {kind : SluKind} {a c : BitVec 6} {b : Option (BitVec 6)} {skip bWritten cWritten : Bool}
    {kinds : List Nat} {fmtBad : View → Option View → Bool} {bShort : View → Nat → Bool} {s u : State} {i : Issued}
    (h : sluBody kind a b c skip bWritten cWritten kinds fmtBad bShort s = .ok (u, i)) : i.held = false := by
  unfold sluBody at h
  obtain ⟨-, -, h⟩ := ok_of_bind_ok h
  obtain ⟨va, -, h⟩ := ok_of_bind_ok h
  cases b
  all_goals
    dsimp only at h
    repeat obtain ⟨_, -, h⟩ := ok_of_bind_ok h
    injection h with h
    exact (congrArg (·.2.held) h).symm.trans (State.sluGo_held ..)

theorem held_of_cmergeBody {a c : BitVec 6} {s u : State} {i : Issued} (h : cmergeBody a c s = .ok (u, i)) :
    i.held = false := by
  unfold cmergeBody at h
  repeat obtain ⟨_, -, h⟩ := ok_of_bind_ok h
  injection h with h
  exact (congrArg (·.2.held) h).symm.trans (State.sluGo_held ..)

theorem held_of_creadBody {a c : BitVec 6} {s u : State} {i : Issued} (h : creadBody a c s = .ok (u, i)) :
    i.held = false := by
  unfold creadBody at h
  repeat obtain ⟨_, -, h⟩ := ok_of_bind_ok h
  injection h with h
  exact (congrArg (·.2.held) h).symm.trans (State.sluGo_held ..)

theorem held_of_sseedBody {a : BitVec 6} {s u : State} {i : Issued} (h : sseedBody a s = .ok (u, i)) :
    i.held = false := by
  unfold sseedBody at h
  repeat obtain ⟨_, -, h⟩ := ok_of_bind_ok h
  dsimp only at h
  split at h
  all_goals
    injection h with h
    exact (congrArg (·.2.held) h).symm

/-! ### The counting commands (R286) -/

/-- A head command that fails at its first check does so once nothing keeps it waiting. -/
theorem State.failFirst_of_ready {s : State} {e : EngId} {r : Res} {q : QEnt} (c : Code)
    (hq : (s.eng e).head = some q) (h : s.ready e (headAt q.word.toNat) r 0 ≠ .wait) :
    s.failFirst e r c = .next (s.failAt e { code := c }) := by
  unfold State.failFirst
  rw [hq]
  dsimp only
  split
  · exact absurd ‹_› h
  · rfl

theorem State.failFirst_of_wait {s : State} {e : EngId} {r : Res} {q : QEnt} (c : Code)
    (hq : (s.eng e).head = some q) (h : s.ready e (headAt q.word.toNat) r 0 = .wait) :
    s.failFirst e r c = .next s := by
  unfold State.failFirst
  rw [hq]
  dsimp only
  rw [h]

/-- On the D2 the counting commands fail at their first check with UNIMPL (R286). -/
theorem exec_counting_d2 {s : State} (hd : s.d4 = false) {h : CmdHead} {a c : BitVec 6} {skip : Bool} {ins : Instr}
    (hi : ins = .cinc h a c skip ∨ ins = .cmerge h a c ∨ ins = .cread h a c) :
    exec ins s = s.failFirst .sluice .a .unimpl := by
  obtain rfl | rfl | rfl := hi
  case inl => rw [exec_cinc, hd]; rfl
  case inr.inl => rw [exec_cmerge, hd]; rfl
  case inr.inr => rw [exec_cread, hd]; rfl

/-- IDLE of a command word, as a field of its head and by itself (R14). -/
theorem headAt_idle (w : Word) : (headAt w.toNat).idle.toNat = idleOf w := by
  show (BitVec.ofNat 10 (fld w.toNat 54 10)).toNat = _
  rw [BitVec.toNat_ofNat, Nat.mod_eq_of_lt (fld_lt ..), idleOf]

/-- In a timed frame a command whose stamp has come is kept waiting by a cancelled wait alone (R19, R26). -/
theorem State.ready_ne_wait {s : State} {e : EngId} {h : CmdHead} {r : Res} {lat : Nat} (hs : (s.eng e).strict = true)
    (hm : s.mayIssue e = true) (hS : (s.eng e).nextStamp h.idle.toNat ≤ (s.eng e).cnt)
    (hw : s.task.resolveAll e ((s.eng e).nextStamp h.idle.toNat) (s.eng e).seq ((s.eng e).waits h) ≠ .cancelled) :
    s.ready e h r lat ≠ .wait := by
  unfold State.ready State.readyNow
  rw [hm, if_neg (by simpa using hS)]
  dsimp only
  rw [hs, if_neg hw, if_pos rfl]
  split_ifs <;> exact Ready.noConfusion

/-! ### The obligation -/

/-- Settles O45: each command is an issue of its own checks; the counting ones by the part. -/
theorem sluiceCommandsIssue : Obligations.SluiceCommandsIssue := by
  unfold Obligations.SluiceCommandsIssue
  intro s u h q i a b c skip x sop goes
  refine ⟨?_, ?_, ?_, ?_, ?_, ?_, fun hd => ⟨?_, ?_, ?_⟩, ?_, fun hd hq ins hi => ⟨fun hr => ?_, fun hr => ?_⟩,
    fun hs hm hS hw => State.ready_ne_wait hs hm (by rw [headAt_idle]; exact hS) hw⟩
  case refine_7 => exact fun hg hb => by simpa [exec_cinc, hd] using State.issue_goes hg hb (held_of_sluBody hb)
  case refine_8 => exact fun hg hb => by simpa [exec_cmerge, hd] using State.issue_goes hg hb (held_of_cmergeBody hb)
  case refine_9 => exact fun hg hb => by simpa [exec_cread, hd] using State.issue_goes hg hb (held_of_creadBody hb)
  case refine_10 => exact fun hg hb => by rw [exec_sseed]; exact State.issue_goes hg hb (held_of_sseedBody hb)
  case refine_11 => exact (exec_counting_d2 hd hi).trans (State.failFirst_of_ready _ hq hr)
  case refine_12 => exact (exec_counting_d2 hd hi).trans (State.failFirst_of_wait _ hq hr)
  all_goals
    intro hg hb
    simp only [exec_sacc, exec_sfetch, exec_scas, exec_bset, exec_bclr, exec_btest]
    exact State.issue_goes hg hb (held_of_sluBody hb)

end Sys2Proof.Machine
end

section
/-! PROOF. The generic commands of every engine: IDLE, REP, EFENCE and END (R17, R24, R32 to R35). -/

namespace Sys2Proof.Machine

/-! ### Replacing an engine -/

@[simp] theorem State.setEng_setEng (s : State) (e : EngId) (g h : Eng) : (s.setEng e g).setEng e h = s.setEng e h := by
  cases e <;> rfl

/-- Replacing an engine changes no byte, no control register and no other engine. -/
theorem State.setEng_frame (s : State) (e : EngId) (g : Eng) :
    s.sameBytes (s.setEng e g) ∧ (s.setEng e g).ctl = s.ctl ∧ ∀ x, x ≠ e → (s.setEng e g).eng x = s.eng x :=
  ⟨State.rdByte_setEng s e g, State.setEng_task_ctl s e g, fun x hx => State.eng_setEng_ne s e x g hx⟩

/-! ### The head leaves the queue -/

/-- Taking the head changes the queue and the progress of a REP alone. -/
theorem Eng.pop_eq (g : Eng) : g.pop = { g with rep := g.pop.rep, queue := g.pop.queue } := by
  unfold Eng.pop
  split
  · rfl
  · split_ifs <;> rfl

theorem Eng.pop_of_no_rep {g : Eng} (h : g.rep = none) : g.pop.queue = g.queue.tail ∧ g.pop.rep = none := by
  simp only [Eng.pop, h, and_self]

theorem Eng.pop_of_rep {g : Eng} {r : RepSt} (h : g.rep = some r) :
    if r.pos + 1 < r.body then g.pop.queue = g.queue ∧ g.pop.rep = some { r with pos := r.pos + 1 }
    else if r.pass + 1 < r.count then g.pop.queue = g.queue ∧ g.pop.rep = some { r with pos := 0, pass := r.pass + 1 }
    else g.pop.queue = g.queue.drop r.body ∧ g.pop.rep = none := by
  simp only [Eng.pop, h]
  split_ifs <;> exact ⟨rfl, rfl⟩

/-- A command that takes no resource is numbered and stamped, and the head leaves the queue (R13, R17). -/
theorem Eng.issued_none (g : Eng) (h : CmdHead) (q : QEnt) (k : Cost) (i : Issued) :
    g.issued h q .none k i =
      { g with
        rep := g.pop.rep, queue := g.pop.queue, seq := wrap48 (g.seq + 1), stamp := g.nextStamp h.idle.toNat
        toks := ⟨g.seq, g.nextStamp h.idle.toNat, i.instant, false⟩ :: g.toks
        flight := (g.issued h q .none k i).flight } := by
  unfold Eng.issued Eng.occupy
  dsimp only
  rw [Eng.pop_eq]

/-! ### Issue without a stop -/

/-- A stamp or a number wraps at 48 bits, and never to itself. -/
theorem wrap48_succ_ne (n : Nat) : wrap48 (n + 1) ≠ n := by unfold wrap48; omega

theorem State.mayIssue_of_mayGo {s : State} {e : EngId} {h : CmdHead} {r : Res} {lat : Nat} {q : QEnt}
    (hg : s.mayGo e h r lat q) : s.mayIssue e = true := by
  by_contra hm
  have hr := hg.1
  rw [State.ready, if_pos (by simp [hm])] at hr
  cases hr

theorem State.no_stop_of_mayIssue {s : State} {e : EngId} (hm : s.mayIssue e = true) :
    ∀ f ∈ (s.eng e).flight, f.stop = none := by
  simp only [State.mayIssue, Bool.and_eq_true, List.all_eq_true, Option.isNone_iff_eq_none] at hm
  obtain ⟨⟨-, hf⟩, -⟩ := hm
  exact hf

theorem State.stopNow_of_no_stop {s : State} {e : EngId} (h : ∀ f ∈ (s.eng e).flight, f.stop = none) :
    s.stopNow e = s := by
  obtain hs | ⟨f, tr, hf, -, hstop, -⟩ := State.stopNow_cases s e
  · exact hs
  · rw [h f (List.mem_of_getLast? hf)] at hstop
    cases hstop

/-- A ready command that is to stop nowhere leaves its engine as it issues it, and nothing else changes. -/
theorem State.issuedAs_of_no_stop {s : State} {e : EngId} {h : CmdHead} {r : Res} {lat : Nat} {q : QEnt} {k : Cost}
    {i : Issued} (hg : s.mayGo e h r lat q) (hi : i.stop = none) :
    s.issuedAs e h r q k i = s.setEng e ((s.eng e).issued h q r k i) := by
  refine State.stopNow_of_no_stop fun f hf => ?_
  have hold := State.no_stop_of_mayIssue (State.mayIssue_of_mayGo hg)
  rw [State.eng_setEng] at hf
  unfold Eng.issued at hf
  dsimp only at hf
  split_ifs at hf
  · exact hold f hf
  · obtain hf | hf := List.mem_append.1 hf
    · exact hold f hf
    · rw [List.mem_singleton.1 hf]
      exact hi

/-- A ready generic command issues as its body says. -/
theorem State.issue_none {s : State} {e : EngId} {h : CmdHead} {q : QEnt} {i : Issued} {cost : State → Cost}
    {body : State → Except Trap (State × Issued)} (hg : s.mayGo e h .none (cost s).lat q) (hb : body s = .ok (s, i))
    (hh : i.held = false) (hi : i.stop = none) :
    s.issue e h .none cost body = .next (s.setEng e ((s.eng e).issued h q .none (cost s) i)) :=
  (State.issue_goes hg hb hh).trans (congrArg _ (State.issuedAs_of_no_stop hg hi))

/-- A ready generic command is numbered, so that its engine's number changes. -/
theorem Eng.issued_seq_ne (g : Eng) (h : CmdHead) (q : QEnt) (r : Res) (k : Cost) (i : Issued) :
    (g.issued h q r k i).seq ≠ g.seq := wrap48_succ_ne g.seq

/-! ### Each generic command -/

section
variable {s : State} {e : EngId} {h : CmdHead} {q : QEnt}

/-- What IDLE, REP and END do first: they issue without an effect that lands, and their tokens are done (R32). -/
def Eng.idled (g : Eng) (h : CmdHead) (q : QEnt) : Eng := g.issued h q .none {} { instant := true }

theorem exec_idle (hg : s.mayGo e h .none 0 q) (extra : BitVec 26) :
    exec (.idle e h extra) s = .next (s.setEng e { (s.eng e).idled h q with
      stamp := wrap48 ((s.eng e).nextStamp h.idle.toNat + extra.toNat) }) := by
  show execIdle e h extra s = _
  unfold execIdle
  rw [State.issue_none (cost := noCost) hg rfl rfl rfl]
  simp only [State.eng_setEng, Eng.issued_seq_ne, if_false, State.setEng_setEng]
  rfl

theorem exec_rep (hg : s.mayGo e h .none 0 q) {body : BitVec 4} {countm1 : BitVec 12} {addr tid wstep : BitVec 3}
    (hr : q.pc + 8 + 8 * body.toNat ≤ (s.eng e).rhi) (hq : body.toNat + 1 ≤ (s.eng e).queue.length)
    (hb : (((s.eng e).queue.drop 1).take body.toNat).any (fun x => bodyBad e addr tid x.word) = false) :
    exec (.rep e h body countm1 addr tid wstep) s = .next (s.setEng e { (s.eng e).idled h q with
      rep := some ⟨body.toNat, countm1.toNat + 1, 0, 0, addr, tid, wstep⟩ }) := by
  show execRep e h body countm1 addr tid wstep s = _
  obtain ⟨hready, hhead⟩ := hg
  unfold execRep
  rw [hready, State.issue_none (cost := noCost) ⟨hready, hhead⟩ rfl rfl rfl]
  dsimp only
  rw [hhead, hb]
  simp only [Option.map_some, Option.getD_some, Nat.not_lt.2 hr, Nat.not_lt.2 hq, if_false, Bool.false_eq_true,
    State.eng_setEng, State.setEng_setEng]
  rfl

theorem exec_endStream (hg : s.mayGo e h .none 0 q) :
    exec (.endStream e h) s = .next (s.setEng e (Eng.settle { (s.eng e).idled h q with
      running := false, ended := true, endSeq := some (s.eng e).seq, queue := []
      toks := ((s.eng e).idled h q).toks.map fun t =>
        if t.seq = (s.eng e).seq then { t with done := false } else t })) := by
  show execEndStream e h s = _
  unfold execEndStream
  rw [State.issue_none (cost := noCost) hg rfl rfl rfl]
  simp only [State.eng_setEng, Eng.issued_seq_ne, if_false, State.setEng_setEng]
  rfl

/-- What EFENCE's body answers once its classes and its scope are known. -/
def fenceBody (classes : BitVec 16) (bad : Bool) (s : State) : Except Trap (State × Issued) :=
  if classes = 0 then .ok (s, { instant := true })
  else if bad then .error { code := .timedState }
  else .ok (s, { op := .fence classes.toNat })

/-- EFENCE lands with the last access that it waits for (R34). -/
def fenceCost (e : EngId) (classes : BitVec 16) (s : State) : Cost := { lat := (s.eng e).fenceLat classes.toNat }

theorem execEfence_eq (e : EngId) (h : CmdHead) (classes : BitVec 16) (scope : BitVec 3) (s : State) :
    exec (.efence e h classes scope) s
      = match s.issue e h .none (fenceCost e classes)
            (fenceBody classes ((s.eng e).strict && scope.toNat ≠ 0)) with
        | .next s' =>
          if (s'.eng e).seq = (s.eng e).seq || (s.eng e).strict || classes = 0 then .next s'
          else .next (s'.setEng e { s'.eng e with hold := some (s.eng e).seq })
        | o => o := rfl

/-- EFENCE with a mask of zero only produces a token. -/
theorem exec_efence_zero {scope : BitVec 3} (hg : s.mayGo e h .none ((s.eng e).fenceLat (0 : BitVec 16).toNat) q) :
    exec (.efence e h 0 scope) s = .next (s.setEng e ((s.eng e).idled h q)) := by
  rw [execEfence_eq, State.issue_none (cost := fenceCost e 0) (i := { instant := true }) hg rfl rfl rfl]
  simp only [decide_true, Bool.or_true, if_true]
  rfl

/-- A ready command whose checks fail raises their fault (R241). -/
theorem State.issue_of_error {r : Res} {cost : State → Cost} {tr : Trap} {body : State → Except Trap (State × Issued)}
    (hg : s.mayGo e h r (cost s).lat q) (hb : body s = .error tr) : s.issue e h r cost body = .next (s.failAt e tr) := by
  unfold State.issue State.issueAs
  rw [hg.1, hg.2]
  simp only [hb]

theorem exec_efence_scope {classes : BitVec 16} {scope : BitVec 3}
    (hg : s.mayGo e h .none ((s.eng e).fenceLat classes.toNat) q) (hc : classes ≠ 0) (hs : (s.eng e).strict = true)
    (hsc : scope.toNat ≠ 0) :
    exec (.efence e h classes scope) s = .next (s.failAt e { code := .timedState }) := by
  rw [execEfence_eq, State.issue_of_error (cost := fenceCost e classes) (tr := { code := .timedState }) hg (by
    rw [fenceBody, if_neg hc, hs, if_pos (by simpa using hsc)])]
  simp only [hs, Bool.or_true, Bool.true_or, if_true]

/-- What EFENCE of some class puts in flight: the fence alone, landing with the last access it waits for (R34). -/
def Eng.fenced (g : Eng) (h : CmdHead) (q : QEnt) (classes : Nat) : Eng :=
  g.issued h q .none { lat := g.fenceLat classes } { op := .fence classes }

theorem exec_efence {classes : BitVec 16} {scope : BitVec 3}
    (hg : s.mayGo e h .none ((s.eng e).fenceLat classes.toNat) q) (hc : classes ≠ 0)
    (hsc : (s.eng e).strict = true → scope.toNat = 0) :
    exec (.efence e h classes scope) s = .next (s.setEng e { (s.eng e).fenced h q classes.toNat with
      hold := if (s.eng e).strict then (s.eng e).hold else some (s.eng e).seq }) := by
  rw [execEfence_eq, State.issue_none (cost := fenceCost e classes) (i := { op := .fence classes.toNat }) hg (by
    rw [fenceBody, if_neg hc, if_neg (by simpa using hsc)]) rfl rfl]
  cases hs : (s.eng e).strict
  case false =>
    simp only [State.eng_setEng, Eng.issued_seq_ne, hc, decide_false, Bool.or_self, Bool.false_eq_true, if_false,
      State.setEng_setEng]
    rfl
  case true =>
    simp only [Bool.or_true, Bool.true_or, if_true]
    have hhold : ((s.eng e).fenced h q classes.toNat).hold = (s.eng e).hold := by rw [Eng.fenced, Eng.issued_none]
    rw [← hhold]
    rfl

end

/-! ### What the engine is left with -/

/-- A fence lands no earlier than an access that it waits for. -/
theorem Eng.land_le_fenceLat {g : Eng} {classes : Nat} {x : Flight} (hx : x ∈ g.flight) (hc : x.cls &&& classes ≠ 0) :
    x.land ≤ g.cnt + g.fenceLat classes := by
  have hmem : x ∈ g.flight.filter fun f => f.cls &&& classes != 0 := by simpa [hx] using hc
  have hle : ∀ (l : List Flight) (m : Nat), m ≤ l.foldl (fun m f => max m (f.land - g.cnt)) m ∧
      ∀ f ∈ l, f.land - g.cnt ≤ l.foldl (fun m f => max m (f.land - g.cnt)) m := by
    intro l
    induction l with
    | nil => simp
    | cons f fs ih =>
      intro m
      obtain ⟨h1, h2⟩ := ih (max m (f.land - g.cnt))
      rw [List.foldl_cons, List.forall_mem_cons]
      exact ⟨by omega, by omega, h2⟩
  have := (hle _ 0).2 x hmem
  rw [← Eng.fenceLat] at this
  omega

/-- Where the queue and a REP stand once the head has been taken (R13, R33). -/
def Eng.Moved (g g' : Eng) : Prop :=
  match g.rep with
  | none => g'.queue = g.queue.tail ∧ g'.rep = none
  | some r =>
    if r.pos + 1 < r.body then g'.queue = g.queue ∧ g'.rep = some { r with pos := r.pos + 1 }
    else if r.pass + 1 < r.count then g'.queue = g.queue ∧ g'.rep = some { r with pos := 0, pass := r.pass + 1 }
    else g'.queue = g.queue.drop r.body ∧ g'.rep = none

theorem Eng.moved_of_pop {g g' : Eng} (hq : g'.queue = g.pop.queue) (hr : g'.rep = g.pop.rep) : g.Moved g' := by
  unfold Eng.Moved
  rw [hq, hr]
  cases h : g.rep with
  | none => exact Eng.pop_of_no_rep h
  | some r => exact Eng.pop_of_rep h

theorem Eng.idled_eq (g : Eng) (h : CmdHead) (q : QEnt) :
    g.idled h q =
      { g with
        rep := g.pop.rep, queue := g.pop.queue, seq := wrap48 (g.seq + 1), stamp := g.nextStamp h.idle.toNat
        toks := ⟨g.seq, g.nextStamp h.idle.toNat, true, false⟩ :: g.toks } :=
  Eng.issued_none g h q {} { instant := true }

theorem Eng.fenced_eq (g : Eng) (h : CmdHead) (q : QEnt) (classes : Nat) :
    g.fenced h q classes =
      { g with
        rep := g.pop.rep, queue := g.pop.queue, seq := wrap48 (g.seq + 1), stamp := g.nextStamp h.idle.toNat
        toks := ⟨g.seq, g.nextStamp h.idle.toNat, false, false⟩ :: g.toks
        flight := (g.fenced h q classes).flight } :=
  Eng.issued_none g h q { lat := g.fenceLat classes } { op := .fence classes }

/-- END's token is done when every earlier command has completed, and nothing else of its engine changes (R24). -/
theorem Eng.settle_eq {g : Eng} {n : Nat} (hn : g.endSeq = some n) :
    g.settle = { g with toks := if g.flight.isEmpty && g.stopped.isNone then (g.complete n).toks else g.toks } := by
  have hif : g.settle = if g.flight.isEmpty && g.stopped.isNone then g.complete n else g := by
    unfold Eng.settle
    rw [hn]
  rw [hif]
  split_ifs <;> rfl

/-- END's token, cleared at issue, is done exactly when nothing of the stream is in flight or stopped. -/
theorem Eng.mem_settle_toks {g : Eng} {n S : Nat} (hn : g.endSeq = some n) (hm : ⟨n, S, false, false⟩ ∈ g.toks) :
    ⟨n, S, g.flight.isEmpty && g.stopped.isNone, false⟩ ∈ g.settle.toks := by
  rw [Eng.settle_eq hn]
  dsimp only
  split_ifs with hd
  · rw [hd]
    exact List.mem_map.2 ⟨_, hm, by rw [if_pos rfl]⟩
  · rw [Bool.eq_false_of_not_eq_true hd]
    exact hm

/-! ### The obligation -/

/-- Settles O42: what each command leaves its engine as, and `State.setEng_frame` for the rest. -/
theorem genericCommands : Obligations.GenericCommands := by
  unfold Obligations.GenericCommands
  intro s e h q g moved S issued
  have hmoved : ∀ g' : Eng, g'.queue = g.pop.queue → g'.rep = g.pop.rep → moved (s.setEng e g') := by
    intro g' hq hr
    have hm := Eng.moved_of_pop (g := g) (g' := ((s.setEng e g').eng e)) (by rw [State.eng_setEng, hq])
      (by rw [State.eng_setEng, hr])
    exact hm
  have hissued : ∀ (g' : Eng) (done : Bool), g'.seq = (g.seq + 1) % 2 ^ 48 →
      g'.toks = ⟨g.seq, S, done, false⟩ :: g.toks → issued (s.setEng e g') done := by
    intro g' done hs ht
    obtain ⟨hbytes, hctl, hothers⟩ := State.setEng_frame s e g'
    exact ⟨by rw [State.eng_setEng, hs], by rw [State.eng_setEng, ht], hbytes, hctl, hothers⟩
  refine ⟨fun hg => ⟨fun extra => ?_, fun hrep body countm1 addr tid wstep hr hq hb => ?_, fun hrep => ?_⟩,
    fun classes scope hg => ⟨fun hc => ?_, fun hc hs hsc => exec_efence_scope hg hc hs hsc, fun hc hsc => ?_⟩⟩
  case refine_1 =>
    refine ⟨_, exec_idle hg extra, hissued _ _ ?_ ?_, ?_, hmoved _ ?_ ?_, ?_⟩
    all_goals simp only [State.eng_setEng, Eng.idled_eq]
    all_goals rfl
  case refine_2 =>
    refine ⟨_, exec_rep hg hr hq hb, hissued _ _ ?_ ?_, ?_, ?_, ?_⟩
    all_goals simp only [State.eng_setEng, Eng.idled_eq]
    case refine_4 => exact (Eng.pop_of_no_rep hrep).1
    all_goals rfl
  case refine_3 =>
    refine ⟨_, exec_endStream hg, ?_, ?_, ?_, ?_, ?_, ?_, (State.setEng_frame s e _).1, ?_⟩
    all_goals simp only [State.eng_setEng]
    case refine_7 =>
      refine ⟨_, Eng.mem_settle_toks rfl (S := S) (List.mem_map.2 ⟨⟨g.seq, S, true, false⟩, ?_, ?_⟩), rfl, rfl, rfl, ?_⟩
      · rw [Eng.idled_eq]; exact List.mem_cons_self
      · exact if_pos rfl
      · rw [Eng.idled_eq]
    all_goals rw [Eng.settle_eq rfl, Eng.idled_eq]
    all_goals rfl
  case refine_4 =>
    subst hc
    refine ⟨_, exec_efence_zero hg, hissued _ _ ?_ ?_, hmoved _ ?_ ?_, ?_, ?_⟩
    all_goals simp only [State.eng_setEng, Eng.idled_eq]
    all_goals rfl
  case refine_5 =>
    refine ⟨_, exec_efence hg hc hsc, hissued _ _ ?_ ?_, hmoved _ ?_ ?_, ?_, ?_, ?_⟩
    case refine_7 =>
      rw [State.eng_setEng]
      exact ⟨_, rfl, rfl, rfl, rfl, fun x hx hcls => Eng.land_le_fenceLat hx hcls⟩
    all_goals simp only [State.eng_setEng]
    case refine_6 => rfl
    all_goals rw [Eng.fenced_eq]
    all_goals rfl

end Sys2Proof.Machine
end

section
/-! PROOF. FORK, JOIN, TWAIT and QCANCEL of the control core (R16, R18, R28, R166 to R169). -/

namespace Sys2Proof.Machine

/-! ### Retiring, faulting and replacing the task -/

theorem State.retired_eng (s : State) (pc : Word) (e : EngId) : (s.retired pc).eng e = s.eng e := by
  unfold State.retired
  dsimp only
  split <;> cases e <;> rfl

theorem State.trapHere_ctl_pc (s : State) (tr : Trap) : (s.trapHere tr).ctl.pc = s.ctl.pc :=
  State.takeFault_ctl_pc ..

/-- The code of a record stands in bits [7:0] of its first word (R306). -/
theorem faultRecord_code (t : Task) (x : StreamId) (tr : Trap) (pc w : Word) (n : Nat) :
    fld (faultRecord t x tr pc w n).w0.toNat 0 8 = tr.code.num := by
  have hmod (X c : Nat) (hc : c < 2 ^ 8) : fld (BitVec.ofNat 64 (cat X 8 c)).toNat 0 8 = c := by
    rw [BitVec.toNat_ofNat, fld, cat]
    omega
  have hcode : tr.code.num < 2 ^ 8 := by cases tr.code <;> decide
  exact hmod _ _ hcode

/-- What an instruction that faults leaves: one record with the fault's code, the engines and PC as they are (R304). -/
theorem State.trapHere_spec (s : State) (tr : Trap) :
    ∃ r, (s.trapHere tr).faults = s.faults ++ [r] ∧ fld r.w0.toNat 0 8 = tr.code.num ∧
      (s.trapHere tr).task.m = s.task.m ∧ (s.trapHere tr).task.f = s.task.f ∧ (s.trapHere tr).task.s = s.task.s ∧
      (s.trapHere tr).ctl.pc = s.ctl.pc :=
  ⟨_, State.takeFault_faults_eq .., faultRecord_code .., State.takeFault_task_m .., State.takeFault_task_f ..,
    State.takeFault_task_s .., State.trapHere_ctl_pc s tr⟩

/-! ### The JOIN report of an engine (R167) -/

theorem EngId.num_lt (e : EngId) : e.num < 3 := by cases e <;> decide

theorem EngId.ofNum_num (e : EngId) : EngId.ofNum e.num = some e := by cases e <;> rfl

theorem EngId.num_inj {x e : EngId} (h : x.num = e.num) : x = e :=
  Option.some.inj (by rw [← EngId.ofNum_num x, h, EngId.ofNum_num])

/-- Flag `k` of an engine as the report has it: RAN, CAN, NAN, SAT. -/
def Eng.flag (g : Eng) (k : Nat) : Bool := match k with
  | 0 => g.ran | 1 => g.can | 2 => g.nan | _ => g.sat

/-- The four flags of an engine as a number. -/
def Eng.nibble (g : Eng) : Nat := b2n g.sat * 8 + b2n g.nan * 4 + b2n g.can * 2 + b2n g.ran

theorem Eng.nibble_lt (g : Eng) : g.nibble < 2 ^ 4 := by
  unfold Eng.nibble
  cases g.sat <;> cases g.nan <;> cases g.can <;> cases g.ran <;> decide

theorem Eng.testBit_nibble (g : Eng) {k : Nat} (hk : k < 4) : g.nibble.testBit k = g.flag k := by
  have h : ∀ a b c d : Bool, ∀ k < 4, (b2n a * 8 + b2n b * 4 + b2n c * 2 + b2n d).testBit k
      = match k with | 0 => d | 1 => c | 2 => b | _ => a := by decide
  exact h g.sat g.nan g.can g.ran k hk

/-- DEGR and TIMED of an engine's frame as a number. -/
def Eng.modeBits (g : Eng) : Nat := if g.ran then b2n g.degr + b2n g.timed * 2 else 0

theorem Eng.modeBits_lt (g : Eng) : g.modeBits < 2 ^ 2 := by
  unfold Eng.modeBits
  cases g.ran <;> cases g.degr <;> cases g.timed <;> decide

theorem Eng.report_eq (x : EngId) (g : Eng) :
    g.report x = 2 ^ 12 * g.modeBits + 2 ^ (4 * x.num) * g.nibble := by
  unfold Eng.report Eng.modeBits Eng.nibble
  split_ifs <;> ring

theorem Eng.nibble_place_lt (x : EngId) (g : Eng) : 2 ^ (4 * x.num) * g.nibble < 2 ^ 12 := by
  have hx := EngId.num_lt x
  calc 2 ^ (4 * x.num) * g.nibble < 2 ^ (4 * x.num) * 2 ^ 4 := Nat.mul_lt_mul_of_pos_left g.nibble_lt (by positivity)
    _ = 2 ^ (4 * x.num + 4) := (Nat.pow_add ..).symm
    _ ≤ 2 ^ 12 := Nat.pow_le_pow_right (by decide) (by omega)

theorem Eng.report_lt (x : EngId) (g : Eng) : g.report x < 2 ^ 14 := by
  have h1 := Eng.nibble_place_lt x g
  have h2 := g.modeBits_lt
  rw [Eng.report_eq]
  omega

/-- Bit `k` of engine `e`'s place in what engine `x` reports: the flag of `e`, and nothing of another engine. -/
theorem Eng.report_flag (x e : EngId) (g : Eng) {k : Nat} (hk : k < 4) :
    (BitVec.ofNat 64 (g.report x)).getLsbD (4 * e.num + k) = (decide (x = e) && g.flag k) := by
  have he := EngId.num_lt e
  rw [BitVec.getLsbD_ofNat, Eng.report_eq, Nat.testBit_two_pow_mul_add _ (Eng.nibble_place_lt x g),
    if_pos (by omega), Nat.testBit_two_pow_mul]
  by_cases hxe : x = e
  · subst hxe
    simp only [Eng.testBit_nibble g hk, Nat.add_sub_cancel_left, decide_true, Bool.true_and, Nat.le_add_right,
      Bool.and_eq_right_iff_imp, decide_eq_true_eq]
    omega
  · have hne : x.num ≠ e.num := fun h => hxe (EngId.num_inj h)
    rw [decide_eq_false hxe, Bool.false_and]
    by_cases hlt : 4 * x.num ≤ 4 * e.num + k
    · rw [Nat.testBit_lt_two_pow (lt_of_lt_of_le g.nibble_lt (Nat.pow_le_pow_right (by decide) (by omega)))]
      simp
    · rw [decide_eq_false hlt]
      simp

/-- Bits 12 and 13 of what an engine reports: DEGR and TIMED of its frame. -/
theorem Eng.report_mode (x : EngId) (g : Eng) :
    (BitVec.ofNat 64 (g.report x)).getLsbD 12 = (g.ran && g.degr) ∧
      (BitVec.ofNat 64 (g.report x)).getLsbD 13 = (g.ran && g.timed) := by
  have h : ∀ a b c : Bool, (if a then b2n b + b2n c * 2 else 0).testBit 0 = (a && b) ∧
      (if a then b2n b + b2n c * 2 else 0).testBit 1 = (a && c) := by decide
  simp only [BitVec.getLsbD_ofNat, Eng.report_eq, Nat.testBit_two_pow_mul_add _ (Eng.nibble_place_lt x g)]
  exact h g.ran g.degr g.timed

/-! ### FORK (R16, R166) -/

/-- Start one engine of a FORK: its flags go to the pending report (R166). -/
def Task.forkOne (start : Eng → Nat → Eng) (t : Task) (p : EngId × Nat) : Task :=
  Task.setEng { t with
    ctl := { t.ctl with pending := t.ctl.pending ||| BitVec.ofNat 64 ((t.eng p.1).report p.1) } } p.1
    (start (t.eng p.1) p.2)

/-- Start the engines of a FORK's list. -/
def Task.forked (start : Eng → Nat → Eng) (t : Task) (l : List (EngId × Nat)) : Task := l.foldl (Task.forkOne start) t

section
variable {start : Eng → Nat → Eng}

theorem Task.eng_withCtl (t : Task) (c : Ctl) (e : EngId) : Task.eng { t with ctl := c } e = t.eng e := by
  cases e <;> rfl

theorem Task.eng_forkOne_self (t : Task) (p : EngId × Nat) :
    (t.forkOne start p).eng p.1 = start (t.eng p.1) p.2 := Task.eng_setEng ..

theorem Task.eng_forkOne_ne {t : Task} {p : EngId × Nat} {e : EngId} (h : p.1 ≠ e) :
    (t.forkOne start p).eng e = t.eng e :=
  (Task.eng_setEng_ne _ _ _ _ h.symm).trans (Task.eng_withCtl ..)

/-- Flag `k` of engine `e` in the pending report: as it was, and that of `e` if `e` is started. -/
theorem Task.pending_forkOne (t : Task) (p : EngId × Nat) (e : EngId) {k : Nat} (hk : k < 4) :
    (t.forkOne start p).ctl.pending.getLsbD (4 * e.num + k)
      = (t.ctl.pending.getLsbD (4 * e.num + k) || (decide (p.1 = e) && (t.eng e).flag k)) := by
  rw [Task.forkOne, Task.setEng_ctl]
  dsimp only
  rw [BitVec.getLsbD_or, Eng.report_flag _ _ _ hk]
  by_cases h : p.1 = e
  · rw [h]
  · rw [decide_eq_false h, Bool.false_and, Bool.false_and]

/-- The stores, the identity and the control registers but for the pending report stay. -/
def Task.KeepsAtFork (t u : Task) : Prop :=
  u.reg = t.reg ∧ u.scr = t.scr ∧ u.wb = t.wb ∧ u.wbValid = t.wbValid ∧ u.lid = t.lid ∧ u.lcn = t.lcn ∧
    u.ctl = { t.ctl with pending := u.ctl.pending }

theorem Task.keepsAtFork_forkOne (t : Task) (p : EngId × Nat) : t.KeepsAtFork (t.forkOne start p) := by
  simp only [Task.KeepsAtFork, Task.forkOne, Task.setEng_reg, Task.setEng_scr, Task.setEng_wb, Task.setEng_wbValid,
    Task.setEng_lid, Task.setEng_lcn, Task.setEng_ctl, and_self]

theorem Task.keepsAtFork_forked (l : List (EngId × Nat)) (t : Task) : t.KeepsAtFork (t.forked start l) := by
  induction l generalizing t with
  | nil => exact ⟨rfl, rfl, rfl, rfl, rfl, rfl, rfl⟩
  | cons p l ih =>
    obtain ⟨h1, h2, h3, h4, h5, h6, h7⟩ := Task.keepsAtFork_forkOne (start := start) t p
    obtain ⟨i1, i2, i3, i4, i5, i6, i7⟩ := ih (t.forkOne start p)
    exact ⟨i1.trans h1, i2.trans h2, i3.trans h3, i4.trans h4, i5.trans h5, i6.trans h6, by rw [h7] at i7; exact i7⟩

theorem Task.eng_forked_of_notMem {l : List (EngId × Nat)} {e : EngId} (h : e ∉ l.map Prod.fst) (t : Task) :
    (t.forked start l).eng e = t.eng e ∧
      ∀ k < 4, (t.forked start l).ctl.pending.getLsbD (4 * e.num + k) = t.ctl.pending.getLsbD (4 * e.num + k) := by
  induction l generalizing t with
  | nil => exact ⟨rfl, fun _ _ => rfl⟩
  | cons p l ih =>
    obtain ⟨hp, hl⟩ := List.ne_and_not_mem_of_not_mem_cons h
    obtain ⟨i1, i2⟩ := ih hl (t.forkOne start p)
    refine ⟨i1.trans (Task.eng_forkOne_ne (Ne.symm hp)), fun k hk => (i2 k hk).trans ?_⟩
    rw [Task.pending_forkOne _ _ _ hk, decide_eq_false (Ne.symm hp), Bool.false_and, Bool.or_false]

theorem Task.eng_forked_of_mem {l : List (EngId × Nat)} (hn : (l.map Prod.fst).Nodup) {e : EngId} {a : Nat}
    (h : (e, a) ∈ l) (t : Task) :
    (t.forked start l).eng e = start (t.eng e) a ∧
      ∀ k < 4, (t.forked start l).ctl.pending.getLsbD (4 * e.num + k)
        = (t.ctl.pending.getLsbD (4 * e.num + k) || (t.eng e).flag k) := by
  induction l generalizing t with
  | nil => cases h
  | cons p l ih =>
    obtain ⟨hp, hl⟩ := List.nodup_cons.1 hn
    obtain rfl | h := List.mem_cons.1 h
    · obtain ⟨i1, i2⟩ := Task.eng_forked_of_notMem (start := start) hp (t.forkOne start (e, a))
      refine ⟨i1.trans (Task.eng_forkOne_self t (e, a)), fun k hk => (i2 k hk).trans ?_⟩
      rw [Task.pending_forkOne _ _ _ hk, decide_eq_true rfl, Bool.true_and]
    · have hne : p.1 ≠ e := fun he => hp (he ▸ List.mem_map_of_mem h)
      obtain ⟨i1, i2⟩ := ih hl h (t.forkOne start p)
      rw [Task.eng_forkOne_ne hne] at i1 i2
      refine ⟨i1, fun k hk => (i2 k hk).trans ?_⟩
      rw [Task.pending_forkOne _ _ _ hk, decide_eq_false hne, Bool.false_and, Bool.or_false]

end

/-- The address of an engine's stream in a FORK (R166). -/
def forkAddr (m f sl : Word) : EngId → Word
  | .matrix => m
  | .flume => f
  | .sluice => sl

/-- A FORK's list has each enabled engine with its address. -/
theorem mem_forkList {fn : BitVec 4} {m f sl : Word} {p : EngId × Nat} :
    p ∈ forkList fn m f sl ↔ fn.getLsbD p.1.num = true ∧ p.2 = (forkAddr m f sl p.1).toNat := by
  obtain ⟨e, a⟩ := p
  unfold forkList
  simp only [List.mem_append, List.mem_ite_nil_right, List.mem_singleton, Prod.mk.injEq]
  cases e <;> simp [EngId.num, forkAddr]

/-- No address of the list is refused if none of an enabled engine is. -/
theorem forkList_find_none {fn : BitVec 4} {m f sl : Word} {P : Nat → Bool}
    (h : ∀ e, fn.getLsbD (EngId.num e) = true → P (forkAddr m f sl e).toNat = false) :
    (forkList fn m f sl).find? (fun p => P p.2) = none := by
  rw [List.find?_eq_none]
  intro p hp
  obtain ⟨hon, h2⟩ := mem_forkList.1 hp
  rw [h2, h p.1 hon]
  exact Bool.false_ne_true

/-- Some address of the list is refused if one of an enabled engine is. -/
theorem forkList_find_some {fn : BitVec 4} {m f sl : Word} {P : Nat → Bool} {e : EngId}
    (he : fn.getLsbD e.num = true) (h : P (forkAddr m f sl e).toNat = true) :
    ∃ p, (forkList fn m f sl).find? (fun p => P p.2) = some p :=
  Option.isSome_iff_exists.1 (List.find?_isSome.2 ⟨(e, _), mem_forkList.2 ⟨he, rfl⟩, h⟩)

theorem forkList_nodup (fn : BitVec 4) (m f sl : Word) : ((forkList fn m f sl).map Prod.fst).Nodup := by
  unfold forkList
  split_ifs <;> simp

section
variable {s : State} {q : Qual} {d a b : BitVec 5} {fn : BitVec 4} (hq : s.holds q = true)
include hq

/-- A misaligned stream address raises ALIGN. -/
theorem exec_fork_align {p : EngId × Nat}
    (h : (forkList fn (s.getG a) (s.getG b) (s.getG d)).find? (fun p => p.2 % 8 != 0) = some p) :
    exec (.fork q d a b fn) s = .next (s.trapHere { code := .align, addr := some p.2 }) := by
  show execFork q d a b fn s = _
  simp only [execFork, State.qualified_eq, hq, if_true, h, State.fail_eq]

/-- A timed stream outside the register-space and scratchpad windows raises TIMED-STATE. -/
theorem exec_fork_window {p : EngId × Nat}
    (ha : (forkList fn (s.getG a) (s.getG b) (s.getG d)).find? (fun p => p.2 % 8 != 0) = none)
    (h : (forkList fn (s.getG a) (s.getG b) (s.getG d)).find? (fun p => fn.getLsbD 3 && !inStreamWindow p.2) = some p) :
    exec (.fork q d a b fn) s = .next (s.trapHere { code := .timedState, addr := some p.2 }) := by
  show execFork q d a b fn s = _
  simp only [execFork, State.qualified_eq, hq, if_true, ha, h, State.fail_eq]

end

/-- How FORK starts an engine at an address. -/
def State.forkStart (s : State) (fn : BitVec 4) (g : Eng) (a : Nat) : Eng :=
  g.start s.task.fidNext (fn.truncate 3) (fn.getLsbD 3) a ((s.streamRegion a).getD (1, 0)) (64 + s.weirD)

/-- What FORK leaves of the task: its engines started and a frame open (R16). -/
def State.forkTask (s : State) (fn : BitVec 4) (l : List (EngId × Nat)) : Task :=
  let t := s.task.forked (s.forkStart fn) l
  { t with
    fidNext := s.task.fidNext + 1
    ctl := { t.ctl with
      frame := true, timed := fn.getLsbD 3, degr := false, framecnt := 0, frameEng := s.task.fidNext } }

theorem State.forkTask_ctl (s : State) (fn : BitVec 4) (l : List (EngId × Nat)) :
    (s.forkTask fn l).ctl = { s.ctl with
      pending := (s.task.forked (s.forkStart fn) l).ctl.pending
      frame := true, timed := fn.getLsbD 3, degr := false, framecnt := 0, frameEng := s.task.fidNext } := by
  obtain ⟨-, -, -, -, -, -, hctl⟩ := Task.keepsAtFork_forked (start := s.forkStart fn) l s.task
  unfold State.forkTask
  dsimp only
  rw [hctl]

theorem State.forkTask_eng (s : State) (fn : BitVec 4) (l : List (EngId × Nat)) (e : EngId) :
    (s.forkTask fn l).eng e = (s.task.forked (s.forkStart fn) l).eng e := by
  cases e <;> rfl

/-- FORK changes no G register. -/
theorem State.forkTask_getG (s : State) (fn : BitVec 4) (l : List (EngId × Nat)) (g : BitVec 5) :
    (State.withTask s (s.forkTask fn l)).getG g = s.getG g := by
  show Ctl.getG (s.forkTask fn l).ctl g = s.ctl.getG g
  rw [State.forkTask_ctl]
  rfl

/-- FORK changes no byte of any store. -/
theorem State.forkTask_sameBytes (s : State) (fn : BitVec 4) (l : List (EngId × Nat)) :
    s.sameBytes (s.withTask (s.forkTask fn l)) := by
  obtain ⟨hreg, hscr, hwb, hval, hlid, hlcn, -⟩ := Task.keepsAtFork_forked (start := s.forkStart fn) l s.task
  exact State.rdByte_withTask (t := s.forkTask fn l) hreg hscr hwb hval hlid hlcn

section
variable {s : State} {q : Qual} {d a b : BitVec 5} {fn : BitVec 4} (hq : s.holds q = true)
  (ha : (forkList fn (s.getG a) (s.getG b) (s.getG d)).find? (fun p => p.2 % 8 != 0) = none)
  (hw : (forkList fn (s.getG a) (s.getG b) (s.getG d)).find? (fun p => fn.getLsbD 3 && !inStreamWindow p.2) = none)
include hq ha hw

/-- FORK waits for a busy engine (R16). -/
theorem exec_fork_stall (hst : s.task.forkStalls fn = true) : exec (.fork q d a b fn) s = .next s.waits := by
  show execFork q d a b fn s = _
  simp only [execFork, State.qualified_eq, hq, if_true, ha, hw, hst, State.wait_eq]

/-- FORK starts its streams. -/
theorem exec_fork_go (hst : s.task.forkStalls fn = false) :
    exec (.fork q d a b fn) s = .next (State.retired
      (s.withTask (s.forkTask fn (forkList fn (s.getG a) (s.getG b) (s.getG d)))) (s.ctl.pc + 8)) := by
  have hpc : (s.withTask (s.forkTask fn (forkList fn (s.getG a) (s.getG b) (s.getG d)))).ctl.pc = s.ctl.pc :=
    (congrArg Ctl.pc (State.forkTask_ctl ..) :)
  rw [← hpc]
  show execFork q d a b fn s = _
  simp only [execFork, State.qualified_eq, hq, if_true, ha, hw, hst, Bool.false_eq_true, if_false]
  rfl

end

section
variable {s : State} {a b d : BitVec 5} {fn : BitVec 4} {e : EngId}

/-- An engine that FORK does not enable stays as it is. -/
theorem State.forkTask_eng_off (he : fn.getLsbD e.num = false) :
    (State.withTask s (s.forkTask fn (forkList fn (s.getG a) (s.getG b) (s.getG d)))).eng e = s.eng e := by
  have hnot : e ∉ (forkList fn (s.getG a) (s.getG b) (s.getG d)).map Prod.fst := fun h => by
    obtain ⟨p, hp, rfl⟩ := List.mem_map.1 h
    exact Bool.false_ne_true (he.symm.trans (mem_forkList.1 hp).1)
  exact (State.forkTask_eng ..).trans (Task.eng_forked_of_notMem hnot s.task).1

/-- An engine that FORK enables starts at its address, and its flags go to the pending report (R166). -/
theorem State.forkTask_eng_on (he : fn.getLsbD e.num = true) :
    (State.withTask s (s.forkTask fn (forkList fn (s.getG a) (s.getG b) (s.getG d)))).eng e
        = s.forkStart fn (s.eng e) (forkAddr (s.getG a) (s.getG b) (s.getG d) e).toNat ∧
      ∀ k < 4, (s.forkTask fn (forkList fn (s.getG a) (s.getG b) (s.getG d))).ctl.pending.getLsbD (4 * e.num + k)
        = (s.ctl.pending.getLsbD (4 * e.num + k) || (s.eng e).flag k) := by
  have hmem : (e, (forkAddr (s.getG a) (s.getG b) (s.getG d) e).toNat)
      ∈ forkList fn (s.getG a) (s.getG b) (s.getG d) := mem_forkList.2 ⟨he, rfl⟩
  obtain ⟨h1, h2⟩ := Task.eng_forked_of_mem (start := s.forkStart fn) (forkList_nodup ..) hmem s.task
  rw [State.forkTask_ctl]
  exact ⟨(State.forkTask_eng ..).trans h1, h2⟩

end

/-- Settles O34: by the first fault in its list, then by whether it must wait. -/
theorem forkStartsStreams : Obligations.ForkStartsStreams := by
  unfold Obligations.ForkStartsStreams
  intro s q d a b fn hq addr on timed
  have haddr : addr = forkAddr (s.getG a) (s.getG b) (s.getG d) := by funext e; cases e <;> rfl
  rw [haddr]
  refine ⟨fun e he hmis => ?_, fun hal => ?_⟩
  · obtain ⟨p, hp⟩ := forkList_find_some (P := fun v => v % 8 != 0) he (by simpa using hmis)
    obtain ⟨r, h⟩ := State.trapHere_spec s { code := .align, addr := some p.2 }
    exact ⟨_, r, exec_fork_align hq hp, h⟩
  have hal' := forkList_find_none (P := fun v => v % 8 != 0) fun e he => by simpa using hal e he
  refine ⟨fun e he ht hout => ?_, fun hin => ?_⟩
  · obtain ⟨p, hp⟩ := forkList_find_some (P := fun v => timed && !inStreamWindow v) he (by rw [ht, hout]; rfl)
    obtain ⟨r, h⟩ := State.trapHere_spec s { code := .timedState, addr := some p.2 }
    exact ⟨_, r, exec_fork_window hq hal' hp, h⟩
  have hin' := forkList_find_none (P := fun v => timed && !inStreamWindow v) fun e he => by
    cases ht : timed
    · rfl
    · rw [hin ht e he]; rfl
  refine ⟨fun hst => exec_fork_stall hq hal' hin' hst, fun hst => ⟨_, exec_fork_go hq hal' hin' hst, ?_⟩⟩
  have hctl := State.forkTask_ctl s fn (forkList fn (s.getG a) (s.getG b) (s.getG d))
  refine ⟨?_, ?_, ?_, ?_, ?_, fun g => ?_, fun sp x => ?_, fun e => ⟨fun hoff => ?_, fun hon => ?_⟩⟩
  case refine_6 => rw [State.retired_getG, State.forkTask_getG]
  case refine_7 => rw [State.retired_rdByte, State.forkTask_sameBytes]
  case refine_8 => rw [State.retired_eng, State.forkTask_eng_off (Bool.eq_false_of_not_eq_true hoff)]
  case refine_9 =>
    obtain ⟨heng, hpending⟩ := State.forkTask_eng_on (s := s) (a := a) (b := b) (d := d) hon
    rw [State.retired_eng, State.retired_ctl, heng]
    exact ⟨rfl, rfl, rfl, rfl, rfl, rfl, rfl, rfl, rfl, rfl, rfl, hpending⟩
  all_goals rw [State.retired_ctl]
  case refine_1 => exact (congrArg Ctl.frame hctl :)
  case refine_2 => exact (congrArg Ctl.timed hctl :)
  case refine_3 => exact (congrArg Ctl.degr hctl :)
  case refine_4 => exact (congrArg Ctl.framecnt hctl :)

end Sys2Proof.Machine
end

section
/-! PROOF. JOIN and TWAIT (R18, R167, R168). -/

namespace Sys2Proof.Machine

/-! ### Writing a G register -/

/-- A write of a G register changes no other control register. -/
theorem Ctl.setG_eq (c : Ctl) (d : BitVec 5) (v : Word) : c.setG d v = { c with g := (c.setG d v).g } := by
  unfold Ctl.setG
  split_ifs <;> rfl

/-- An instruction under its predicate that writes one G register and retires. -/
theorem State.retire_setG {s : State} {q : Qual} (hq : s.holds q = true) (d : BitVec 5) (v : Word) :
    (s.setG d v).retire = .next (s.writes q d v) := by
  rw [← State.writeG_eq, State.writeG, State.qualified_eq, if_pos hq]

/-! ### The report of a JOIN (R167) -/

theorem Eng.joins_flag (x e : EngId) (g : Eng) {k : Nat} (hk : k < 4) :
    (g.joins x).getLsbD (4 * e.num + k) = (decide (x = e) && (g.ran && g.flag k)) := by
  unfold Eng.joins
  cases g.ran
  · simp
  · rw [if_pos rfl, Eng.report_flag x e g hk, Bool.true_and]

theorem Eng.joins_mode (x : EngId) (g : Eng) :
    (g.joins x).getLsbD 12 = (g.ran && g.degr) ∧ (g.joins x).getLsbD 13 = (g.ran && g.timed) := by
  unfold Eng.joins
  cases hr : g.ran
  · exact ⟨BitVec.getLsbD_zero, BitVec.getLsbD_zero⟩
  · obtain ⟨h1, h2⟩ := Eng.report_mode x g
    rw [hr] at h1 h2
    exact ⟨h1, h2⟩

theorem Eng.joins_lt (x : EngId) (g : Eng) : (g.joins x).toNat < 2 ^ 14 := by
  unfold Eng.joins
  split_ifs
  · have h := Eng.report_lt x g
    rw [BitVec.toNat_ofNat]
    omega
  · decide

/-- Flag 0 is RAN itself. -/
theorem Eng.ran_and_flag (g : Eng) (k : Nat) :
    (g.ran && g.flag k) = (g.ran && match k with | 0 => true | 1 => g.can | 2 => g.nan | _ => g.sat) := by
  match k with
  | 0 => exact (Bool.and_self _).trans (Bool.and_true _).symm
  | 1 | 2 | _ + 3 => rfl

/-- Flag `k` of engine `e` in the report: what is pending, and that of `e`'s frame if one ran. -/
theorem Task.report_flag (t : Task) (e : EngId) {k : Nat} (hk : k < 4) :
    t.report.getLsbD (4 * e.num + k)
      = (t.ctl.pending.getLsbD (4 * e.num + k) || ((t.eng e).ran && (t.eng e).flag k)) := by
  simp only [Task.report, BitVec.getLsbD_or, Eng.joins_flag _ _ _ hk]
  cases e <;> simp [Task.eng]

theorem Task.report_mode (t : Task) :
    (t.report.getLsbD 12 = true ↔
        t.ctl.pending.getLsbD 12 = true ∨ ∃ e, (t.eng e).ran = true ∧ (t.eng e).degr = true) ∧
      (t.report.getLsbD 13 = true ↔
        t.ctl.pending.getLsbD 13 = true ∨ ∃ e, (t.eng e).ran = true ∧ (t.eng e).timed = true) := by
  have hex (P : EngId → Prop) : (∃ e, P e) ↔ P .matrix ∨ P .flume ∨ P .sluice :=
    ⟨fun ⟨e, h⟩ => by cases e <;> simp [h], fun h => by obtain h | h | h := h <;> exact ⟨_, h⟩⟩
  simp only [Task.report, BitVec.getLsbD_or, Eng.joins_mode, hex, Task.eng, Bool.or_eq_true, Bool.and_eq_true, or_assoc,
    and_self]

theorem Task.report_lt {t : Task} (h : t.ctl.pending.toNat < 2 ^ 14) : t.report.toNat < 2 ^ 14 := by
  simp only [Task.report, BitVec.toNat_or]
  exact Nat.or_lt_two_pow (Nat.or_lt_two_pow (Nat.or_lt_two_pow h (Eng.joins_lt ..)) (Eng.joins_lt ..)) (Eng.joins_lt ..)

/-! ### JOIN and TWAIT -/

section
variable {s : State} {q : Qual} (hq : s.holds q = true)
include hq

theorem exec_join_wait (d : BitVec 5) (hd : s.task.framesDone = false) : exec (.join q d) s = .next s.waits := by
  show execJoin q d s = _
  simp only [execJoin, State.qualified_eq, hq, hd, if_true, Bool.false_eq_true, if_false, State.wait_eq]

theorem exec_join (d : BitVec 5) (hd : s.task.framesDone = true) : exec (.join q d) s
    = .next (State.retired ((s.withTask s.task.joined).setG d s.task.report) (s.ctl.pc + 8)) := by
  have hpc : ((s.withTask s.task.joined).setG d s.task.report).ctl.pc = s.ctl.pc :=
    (congrArg Ctl.pc (Ctl.setG_eq s.task.joined.ctl d s.task.report) :)
  rw [← hpc]
  show execJoin q d s = _
  simp only [execJoin, State.qualified_eq, hq, hd, if_true]
  rfl

/-- TWAIT writes what it learns of the command, or waits (R168). -/
theorem exec_twait {d a : BitVec 5} {eng : BitVec 2} {seq20 : BitVec 20} {e : EngId}
    (he : EngId.ofNum eng.toNat = some e) :
    exec (.twait q d a eng seq20) s
      = .next (match (s.eng e).twait (((s.getG a).toNat + seq20.toNat) % 2 ^ 64) with
        | some v => s.writes q d (BitVec.ofNat 64 v)
        | none => s.waits) := by
  have hn : (s.getG a + seq20.zeroExtend 64).toNat = ((s.getG a).toNat + seq20.toNat) % 2 ^ 64 := by
    rw [BitVec.toNat_add, BitVec.toNat_setWidth, Nat.mod_eq_of_lt (by omega : seq20.toNat < 2 ^ 64)]
  show execTwait q d a eng seq20 s = _
  simp only [execTwait, State.qualified_eq, hq, if_true, he, hn]
  cases (s.eng e).twait (((s.getG a).toNat + seq20.toNat) % 2 ^ 64) with
  | none => rfl
  | some v => exact State.retire_setG hq d _

end

/-! ### What TWAIT learns (R168) -/

section
variable {g : Eng} {n : Nat}

theorem Eng.twait_of_not_forked (hf : g.forked = false) : g.twait n = some 4 := by
  simp only [Eng.twait, hf, Bool.not_false, if_true]

variable (hf : g.forked = true)
include hf

theorem Eng.twait_of_listed {k : Tok} (h : g.toks.find? (fun t => t.seq == n) = some k) :
    g.twait n = if k.done then some (if k.can then 2 else 0) else none := by
  simp only [Eng.twait, hf, Bool.not_true, Bool.false_eq_true, if_false, h]

variable (h : g.toks.find? (fun t => t.seq == n) = none)
include h

theorem Eng.twait_of_lt (hn : n < g.seq) : g.twait n = some 0 := by
  simp only [Eng.twait, hf, Bool.not_true, Bool.false_eq_true, if_false, h, hn, if_true]

theorem Eng.twait_of_open (hn : g.seq ≤ n) (hc : g.cut = false) (he : g.ended = false) : g.twait n = none := by
  simp only [Eng.twait, hf, Bool.not_true, Bool.false_eq_true, if_false, h, Nat.not_lt.2 hn, hc, he]

theorem Eng.twait_of_ended (hn : g.seq ≤ n) (hc : g.cut = false) (he : g.ended = true) {x : Tok}
    (hx : g.toks.find? (fun t => some t.seq == g.endSeq) = some x) : g.twait n = if x.done then some 4 else none := by
  simp only [Eng.twait, hf, Bool.not_true, Bool.false_eq_true, if_false, h, Nat.not_lt.2 hn, hc, he, hx, if_true]

end

/-! ### The obligation -/

/-- Settles O35: JOIN by whether the frames have ended, TWAIT by what has become of the command. -/
theorem joinAndTokenWait : Obligations.JoinAndTokenWait := by
  unfold Obligations.JoinAndTokenWait
  intro s q d a eng seq20 hs hq
  refine ⟨exec_join_wait hq d, fun hd => ⟨_, exec_join hq d hd, ?_⟩, fun e he => ?_⟩
  case refine_1 =>
    have hu : (s.withTask s.task.joined).canonical := State.canonical_withTask hs (State.canonical_task hs)
    have hctl := Ctl.setG_eq s.task.joined.ctl d s.task.report
    refine ⟨?_, ?_, ?_, fun g hg => ?_, fun sp x => ?_, fun hd0 e k hk => ?_, fun hd0 => ?_⟩
    case refine_4 => rw [State.retired_getG, State.getG_setG_ne hu hg]; rfl
    case refine_5 =>
      rw [State.retired_rdByte, State.setG_rdByte]
      exact State.rdByte_withTask (t := s.task.joined) rfl rfl rfl rfl rfl rfl sp x
    case refine_6 =>
      rw [State.retired_getG, State.getG_setG_self hu hd0, Task.report_flag _ _ hk, Eng.ran_and_flag]
      rfl
    case refine_7 =>
      rw [State.retired_getG, State.getG_setG_self hu hd0]
      obtain ⟨h12, h13⟩ := s.task.report_mode
      exact ⟨h12, h13, Task.report_lt⟩
    all_goals rw [State.retired_ctl]
    case refine_1 => exact (congrArg Ctl.frame hctl :)
    case refine_2 => exact (congrArg Ctl.pending hctl :)
  case refine_2 =>
    rw [exec_twait hq he]
    refine ⟨fun hf => ?_, fun hf k hk => ⟨fun hd => ?_, fun hd => ?_⟩,
      fun hf h => ⟨fun hn => ?_, fun hn _ hen hc => ?_, fun hn hen hc x hx => ?_⟩⟩
    · rw [Eng.twait_of_not_forked hf]
      rfl
    · rw [Eng.twait_of_listed hf hk, hd]
      cases k.can <;> rfl
    · rw [Eng.twait_of_listed hf hk, hd]
      rfl
    · rw [Eng.twait_of_lt hf h hn]
      rfl
    · rw [Eng.twait_of_open hf h hn hc hen]
    · rw [Eng.twait_of_ended hf h hn hc hen hx]
      cases x.done <;> rfl

end Sys2Proof.Machine
end

section
/-! PROOF. QCANCEL (R28, R169). -/

namespace Sys2Proof.Machine

/-! ### How many commands a queue holds -/

theorem stampWords_length (ws : List Word) (st : Nat) : (stampWords ws st).1.length = ws.length := by
  induction ws generalizing st with
  | nil => rfl
  | cons w ws ih => exact congrArg (· + 1) (ih _)

/-- Each pass of a body stamps every word of it. -/
theorem stampPasses_length (body : List Word) (k st : Nat) : (stampPasses body k st).1.length = k * body.length := by
  induction k generalizing st with
  | zero => exact (Nat.zero_mul _).symm
  | succ k ih =>
    have hstep : (stampPasses body (k + 1) st).1
        = (stampWords body st).1 ++ (stampPasses body k (stampWords body st).2).1 := rfl
    rw [hstep, List.length_append, ih, stampWords_length, Nat.succ_mul, Nat.add_comm]

/-- A queue without a REP holds one command per word. -/
theorem stampQueue_length {fuel : Nat} {ws : List Word} (hf : ws.length ≤ fuel) (hr : ∀ w ∈ ws, opOf w ≠ 0x71)
    (st : Nat) : (stampQueue fuel ws st).length = ws.length := by
  induction fuel generalizing ws st with
  | zero => rw [List.length_eq_zero_iff.1 (Nat.le_zero.1 hf)]; rfl
  | succ fuel ih =>
    cases ws with
    | nil => rfl
    | cons w ws =>
      obtain ⟨hw, hws⟩ := List.forall_mem_cons.1 hr
      simp only [stampQueue, beq_eq_false_iff_ne.2 hw, Bool.false_eq_true, if_false, List.length_append,
        stampWords_length, List.length_cons, ih (Nat.le_of_succ_le_succ hf) hws, List.length_nil]
      omega

/-- Without a REP the sequencer holds one command per queued word. -/
theorem Eng.stamps_length_of_no_rep {g : Eng} (h : g.rep = none) (hr : ∀ x ∈ g.queue, opOf x.word ≠ 0x71) :
    g.stamps.length = g.queue.length := by
  unfold Eng.stamps
  rw [h]
  dsimp only
  rw [stampQueue_length (Nat.le_succ _) (by simpa using hr), List.length_map]

/-- With a running REP it holds the rest of this pass, the passes to come and the words behind the body. -/
theorem Eng.stamps_length_of_rep {g : Eng} {r : RepSt} (h : g.rep = some r) (hr : ∀ x ∈ g.queue, opOf x.word ≠ 0x71)
    (hb : r.body ≤ g.queue.length) :
    g.stamps.length = r.body - r.pos + (r.count - r.pass - 1) * r.body + (g.queue.length - r.body) := by
  have hrest : ∀ w ∈ (g.queue.map (·.word)).drop r.body, opOf w ≠ 0x71 := fun w hw => by
    obtain ⟨x, hx, rfl⟩ := List.mem_map.1 (List.mem_of_mem_drop hw)
    exact hr x hx
  unfold Eng.stamps
  rw [h]
  dsimp only
  rw [List.length_append, List.length_append, stampWords_length, stampPasses_length,
    stampQueue_length (by rw [List.length_drop]; omega) hrest, List.length_drop, List.length_drop, List.length_take,
    List.length_map, Nat.min_eq_left hb]

theorem numbered_length {β : Type} (k : Nat) (l : List β) : (numbered k l).length = l.length := by
  induction l generalizing k with
  | nil => rfl
  | cons v l ih => exact congrArg (· + 1) (ih _)

/-- Value `i` of a list numbered from `k` has the key `k + i`. -/
theorem exists_mem_numbered {β : Type} {i : Nat} {l : List β} (hi : i < l.length) (k : Nat) :
    ∃ v, (k + i, v) ∈ numbered k l := by
  induction l generalizing k i with
  | nil => cases hi
  | cons v l ih =>
    cases i with
    | zero => exact ⟨v, List.mem_cons_self⟩
    | succ i =>
      obtain ⟨v', hv⟩ := ih (Nat.lt_of_succ_lt_succ hi) (k + 1)
      exact ⟨v', List.mem_cons_of_mem _ (by rwa [Nat.add_right_comm] at hv)⟩

/-! ### Cancelling a stream -/

/-- The tokens of the commands that a cancelled queue held (R28). -/
def Eng.cancelledToks (g : Eng) : List Tok :=
  ((numbered g.seq g.stamps).map fun p => (⟨p.1, p.2, true, true⟩ : Tok)).reverse

theorem Eng.cancelledToks_length (g : Eng) : g.cancelledToks.length = g.stamps.length := by
  rw [Eng.cancelledToks, List.length_reverse, List.length_map, numbered_length]

theorem Eng.exists_cancelledTok {g : Eng} {k : Nat} (hk : k < g.stamps.length) :
    ∃ x ∈ g.cancelledToks, x.seq = g.seq + k ∧ x.done = true ∧ x.can = true := by
  obtain ⟨v, hv⟩ := exists_mem_numbered hk g.seq
  exact ⟨_, List.mem_reverse.2 (List.mem_map.2 ⟨_, hv, rfl⟩), rfl, rfl, rfl⟩

theorem Eng.cancel_of_not_running {g : Eng} (h : g.running = false) : g.cancel = g := by
  simp only [Eng.cancel, h, Bool.false_eq_true, if_false]

theorem Eng.cancel_of_running {g : Eng} (h : g.running = true) :
    g.cancel.running = false ∧ g.cancel.queue = [] ∧ g.cancel.rep = none ∧ g.cancel.can = true ∧
      g.cancel.flight = g.flight ∧ g.cancel.seq = (g.seq + g.stamps.length) % 2 ^ 48 ∧
      g.cancel.toks = g.cancelledToks ++ g.toks := by
  rw [Eng.cancel, if_pos h]
  exact ⟨rfl, rfl, rfl, rfl, rfl, rfl, rfl⟩

/-- The task after a QCANCEL: the engines that it names are cancelled (R169). -/
def Task.cancels (t : Task) (mask : BitVec 3) : Task :=
  engines.foldl (fun (t : Task) e => if mask.getLsbD e.num then t.setEng e (t.eng e).cancel else t) t

/-- An engine under a QCANCEL's mask. -/
def Eng.cancelIf (g : Eng) (b : Bool) : Eng := if b then g.cancel else g

theorem Task.setEng_cancelIf (t : Task) (e : EngId) (b : Bool) :
    (if b then t.setEng e (t.eng e).cancel else t) = t.setEng e ((t.eng e).cancelIf b) := by
  cases b
  · cases e <;> rfl
  · rfl

theorem Task.cancels_eq (t : Task) (mask : BitVec 3) :
    t.cancels mask = { t with
      m := t.m.cancelIf (mask.getLsbD 0), f := t.f.cancelIf (mask.getLsbD 1), s := t.s.cancelIf (mask.getLsbD 2) } := by
  unfold Task.cancels
  simp only [Task.setEng_cancelIf]
  rfl

theorem Task.eng_cancels (t : Task) (mask : BitVec 3) (e : EngId) :
    (t.cancels mask).eng e = (t.eng e).cancelIf (mask.getLsbD e.num) := by
  rw [Task.cancels_eq]
  cases e <;> rfl

theorem exec_qcancel {s : State} {q : Qual} (hq : s.holds q = true) (mask : BitVec 3) :
    exec (.qcancel q mask) s = .next (State.retired (s.withTask (s.task.cancels mask)) (s.ctl.pc + 8)) := by
  have hctl : (s.withTask (s.task.cancels mask)).ctl = s.ctl := (congrArg Task.ctl (Task.cancels_eq ..) :)
  rw [← hctl, ← State.retire_eq]
  show execQcancel q mask s = _
  simp only [execQcancel, State.qualified_eq, hq, if_true]
  rfl

/-- Settles O36: what QCANCEL leaves of each engine, and the count of its queue's commands. -/
theorem queueCancel : Obligations.QueueCancel := by
  unfold Obligations.QueueCancel
  intro s q mask hq
  have heq := Task.cancels_eq s.task mask
  refine ⟨_, exec_qcancel hq mask, State.retired_pc .., fun g => ?_, fun sp x => ?_, fun e => ?_⟩
  case refine_1 => rw [State.retired_getG, heq]; rfl
  case refine_2 =>
    rw [State.retired_rdByte]
    exact State.rdByte_withTask (t := s.task.cancels mask) (congrArg Task.reg heq :) (congrArg Task.scr heq :)
      (congrArg Task.wb heq :) (congrArg Task.wbValid heq :) (congrArg Task.lid heq :) (congrArg Task.lcn heq :) sp x
  have heng : (State.retired (s.withTask (s.task.cancels mask)) (s.ctl.pc + 8)).eng e
      = (s.eng e).cancelIf (mask.getLsbD e.num) := by
    rw [State.retired_eng]
    exact Task.eng_cancels ..
  rw [heng]
  refine ⟨fun hoff => ?_, fun hon hrun => ?_⟩
  · obtain hm | hrun := hoff
    · rw [hm]; rfl
    · cases mask.getLsbD e.num
      · rfl
      · exact Eng.cancel_of_not_running hrun
  · rw [hon]
    obtain ⟨h1, h2, h3, h4, h5, h6, h7⟩ := Eng.cancel_of_running hrun
    refine ⟨h1, h2, h3, h4, h5, (s.eng e).stamps.length, h6, Eng.stamps_length_of_no_rep,
      fun r hr hw _ _ hb => Eng.stamps_length_of_rep hr hw hb, fun k hk => ?_, ?_⟩
    · obtain ⟨x, hx, h⟩ := Eng.exists_cancelledTok hk
      exact ⟨x, (congrArg (x ∈ ·) h7).mpr (List.mem_append_left _ hx), h⟩
    · exact (congrArg (List.drop _) h7).trans (List.drop_left' (Eng.cancelledToks_length _))

end Sys2Proof.Machine
end

section
/-! PROOF. Where two cores hold the same task of a launch, a command's issue can change a byte that nothing in flight is to write
(R20, R88). -/

namespace Sys2Proof.Machine

/-! ### The counterexample -/

/-- What a flight of the counterexample has beside its writes, its landing cycle and what loads have seen of it. -/
def twinFlight : Flight :=
  { seq := 0, pc := 0, word := 0, timed := true, land := 200, writes := [], flags := [], acc := false, op := .none
    seedAfter := none, stop := none, ranges := [], cls := 0, age := 0, redo := false, units := [], cont := 1, scont := 1
    scales := [], seen := [] }

/-- A core at which task `lcn` of launch 1 is resident, with its scratchpad. -/
def twinCore (pcore lcn : Nat) (scr : Sparse Byte) : Core :=
  { Core.blank pcore with slot := .resident, task := { Task.blank with lid := 1, lcn, scr } }

/-- The flume of core 1: a command of elastic mode has performed one byte of a granule of memory and is still to write another. -/
def twinElastic : Eng :=
  { Eng.idle with
    flight := [{ twinFlight with timed := false, writes := [⟨.mem, 1, 0xFF, 7⟩, ⟨.mem, 2, 0, 0⟩] }] }

/-- The flume of core 2: a load has seen a command of a timed frame that is still to write that byte of memory, and of a later one
that has written byte 0 of the scratchpad of task 1, which held 5. -/
def twinTimed : Eng :=
  { Eng.idle with
    flight :=
      [{ twinFlight with writes := [⟨.mem, 1, 0xFF, 7⟩], seen := [(.mem, 0)] },
       { twinFlight with seq := 1, land := 300, writes := [⟨.far 1, 0, 0, 5⟩], seen := [(.far 1, 0)] }] }

/-- The matrix engine of core 1, with a word at the head of its queue. -/
def twinReady : Eng := { Eng.idle with started := true, cnt := 100, running := true, queue := [⟨0, 0⟩] }

/-- Tack entry 0: one INT32 element at the start of the register space (R40 to R42). -/
def twinTack : Sparse Word := [(0, 0x105000010001C000), (2, 0x4000000000)]

/-- Cores 0 and 1 both hold task 1 of launch 1, with 0 and with 9 in byte 0 of their scratchpads. -/
def twins : State :=
  let c := twinCore 1 1 [(0, 9)]
  let d := twinCore 2 2 []
  { State.reset with
    cur := { c with task := { c.task with m := twinReady, f := twinElastic, t := twinTack } }
    rest := [twinCore 0 1 [], { d with task := { d.task with f := twinTimed } }] }

/-- The head of a command without IDLE and without waits. -/
def plainHead : CmdHead := ⟨0, ⟨3, 0⟩, ⟨3, 0⟩, ⟨3, 0⟩⟩

/-! ### What the model makes of it -/

theorem twins_canonical : twins.canonical := by
  unfold State.canonical Task.canonical
  decide

theorem twins_ordered : twins.ordered := by
  unfold State.ordered
  decide

/-- A byte after an instruction, if it answers a next state. -/
def byteAfter (i : Instr) (s : State) (sp : Space) (a : Nat) : Option Byte :=
  match exec i s with
  | .next t => some (t.rdByte sp a)
  | _ => none

theorem exists_next_of_byteAfter {i : Instr} {s : State} {sp : Space} {a : Nat} {v : Byte}
    (h : byteAfter i s sp a = some v) : ∃ t, exec i s = .next t ∧ t.rdByte sp a = v := by
  unfold byteAfter at h
  split at h
  · exact ⟨_, ‹_›, Option.some.inj h⟩
  · cases h

/-- MSEED of core 1 reads its source; the byte of memory is found new, and so the timed command before it performs, beneath the later
one: that one's byte is put back at both cores as core 0 has it. -/
theorem twins_byte_after : byteAfter (.mseed plainHead 0) twins .scr 0 = some 0 := by decide

theorem twins_byte_before : twins.rdByte .scr 0 = 9 := by decide

/-- All that is in flight is still to write memory. -/
theorem twins_writes_memory {c : Core} (hc : c ∈ twins.cores) (e : EngId) :
    (c.task.eng e).reqs = [] ∧ ∀ f ∈ (c.task.eng e).flight, f.hasOp = false ∧
      ∀ w ∈ f.writes, w.mask ≠ 0 → w.sp = .mem := by
  cases e
  all_goals
    revert c
    decide

theorem twins_not_inFlightAt : ¬ twins.inFlightAt .scr 0 := by
  rintro ⟨c, hc, e, -, h⟩
  obtain ⟨hreqs, hflight⟩ := twins_writes_memory hc e
  obtain ⟨f, hf, hop⟩ | hr | ⟨f, hf, w, hw, hmask, -, p, hp, hcur⟩ := h
  · obtain ⟨hno, -⟩ := hflight f hf
    exact Bool.false_ne_true (hno.symm.trans hop)
  · exact hr hreqs
  · obtain ⟨-, hmem⟩ := hflight f hf
    rw [hmem w hw hmask] at hp
    rw [List.mem_singleton.1 hp] at hcur
    exact absurd (List.mem_singleton.1 hcur) (by decide)

/-- Refutes O46: its hypotheses allow two cores that hold the same task of a launch. A read of core 1's MSEED finds an effect in flight
performed, and the effect of core 2 that performs beneath a later one puts the later one's byte back at both cores, as the first of them
has it, so that byte 0 of the other's scratchpad changes, which nothing in flight is to write. -/
theorem not_issueChangesNoByte : ¬ Obligations.IssueChangesNoByte := by
  unfold Obligations.IssueChangesNoByte
  rintro ⟨h, -⟩
  obtain ⟨t, ht, hbyte⟩ := exists_next_of_byteAfter twins_byte_after
  obtain ⟨hbytes, -⟩ := h (.mseed plainHead 0) .matrix twins t rfl twins_canonical twins_ordered ht
  obtain hsame | hshown := hbytes .scr 0
  · rw [hbyte, twins_byte_before] at hsame
    exact absurd hsame (by decide)
  · exact twins_not_inFlightAt hshown

end Sys2Proof.Machine
end

section
/-! PROOF. What finding effects in flight leaves alone: of every core, all but its stores, the draws and the commands in flight; and so the
mode in which a command's sources are read is the mode in which it issues (R20, R23, R85, R88). -/

namespace Sys2Proof.Machine

/-! ### The outline of the package -/

/-- An engine without its commands in flight, its requests and the sticky bits of what returns. -/
def Eng.outline (g : Eng) : Eng := { g with flight := [], reqs := [], nan := false, sat := false }

/-- A task without the bytes of its stores, their hidden flags and errors, the sluice's draws and what its engines have in flight. -/
def Task.outline (t : Task) : Task :=
  { t with
    reg := [], flags := [], scr := [], wb := [], wbValid := [], bad := [], sluGen := 0
    m := t.m.outline, f := t.f.outline, s := t.s.outline }

/-- A core with the outline of its resident task. -/
def Core.outline (c : Core) : Core := { c with task := c.task.outline }

/-- The outlines of the listed cores, the focused one first. -/
def State.outlines (s : State) : List Core := s.cores.map Core.outline

theorem Task.outline_eng (t : Task) (e : EngId) : t.outline.eng e = (t.eng e).outline := by cases e <;> rfl

theorem Core.outline_eng_strict {c d : Core} (h : c.outline = d.outline) (e : EngId) :
    (c.task.eng e).strict = (d.task.eng e).strict := by
  have he : (c.task.eng e).outline = (d.task.eng e).outline := by
    rw [← Task.outline_eng, ← Task.outline_eng]
    exact congrArg (fun x : Core => x.task.eng e) h
  have hs : (c.task.eng e).outline.strict = (d.task.eng e).outline.strict := congrArg Eng.strict he
  exact hs

theorem State.outline_eng_congr {s u : State} (h : u.outlines = s.outlines) (e : EngId) :
    (u.eng e).outline = (s.eng e).outline := by
  have hc : u.cur.outline = s.cur.outline := (List.cons.inj h).1
  exact (u.task.outline_eng e).symm.trans ((congrArg (fun c : Core => c.task.eng e) hc).trans (s.task.outline_eng e))

/-! ### Operations at the focused core -/

theorem State.outlines_withTask {s : State} {t : Task} (h : t.outline = s.task.outline) :
    (s.withTask t).outlines = s.outlines :=
  congrArg (fun x => ({ s.cur with task := x } : Core) :: s.rest.map Core.outline) h

theorem State.outlines_setEng {s : State} {e : EngId} {g : Eng} (h : g.outline = (s.eng e).outline) :
    (s.setEng e g).outlines = s.outlines := by
  apply State.outlines_withTask
  cases e
  case matrix => exact congrArg (fun x => ({ s.task.outline with m := x } : Task)) h
  case flume => exact congrArg (fun x => ({ s.task.outline with f := x } : Task)) h
  case sluice => exact congrArg (fun x => ({ s.task.outline with s := x } : Task)) h

/-- Replacing an engine's commands in flight, its requests and those sticky bits changes no outline. -/
theorem State.outlines_setInFlight (s : State) (e : EngId) (fs : List Flight) (rs : List Req) (nan sat : Bool) :
    (s.setEng e { s.eng e with flight := fs, reqs := rs, nan, sat }).outlines = s.outlines := State.outlines_setEng rfl

theorem State.outlines_foldl {α : Type} {f : State → α → State} (hf : ∀ u a, (f u a).outlines = u.outlines)
    (l : List α) (s : State) : (l.foldl f s).outlines = s.outlines :=
  List.foldlRecOn (motive := fun u => u.outlines = s.outlines) l f rfl fun u hu a _ => (hf u a).trans hu

/-- Changing the stores of the tasks at some other cores changes no outline. -/
theorem State.outlines_mapRest (s : State) (p : Core → Bool) {f : Task → Task} (hf : ∀ t : Task, (f t).outline = t.outline) :
    State.outlines { s with rest := s.rest.map fun c => if p c then { c with task := f c.task } else c } = s.outlines := by
  unfold State.outlines State.cores
  rw [List.map_cons, List.map_cons, List.map_map]
  refine congrArg (s.cur.outline :: ·) (List.map_congr_left fun c _ => ?_)
  rw [Function.comp_apply]
  split
  · exact congrArg (fun t => { c with task := t }) (hf c.task)
  · rfl

@[simp] theorem State.outlines_choose (s : State) : s.choose.2.outlines = s.outlines := rfl

@[simp] theorem State.outlines_seed (s : State) (x : BitVec 32) :
    (s.withTask { s.task with sluGen := x }).outlines = s.outlines := State.outlines_withTask rfl

@[simp] theorem State.outlines_wrByte (s : State) (w : BWrite) : (s.wrByte w).outlines = s.outlines := by
  unfold State.wrByte
  split
  · rfl
  · dsimp only
    split
    · exact State.outlines_withTask rfl
    · exact State.outlines_withTask rfl
    · exact State.outlines_withTask rfl
    · rfl
    · split
      · exact State.outlines_withTask rfl
      · exact s.outlines_mapRest _ (f := fun t => t.putScr w.at_ _) fun _ => rfl

@[simp] theorem State.outlines_unmark (s : State) (p : Space × Nat) : (s.unmark p).outlines = s.outlines := by
  unfold State.unmark
  split
  · rfl
  · split
    · exact State.outlines_withTask rfl
    · exact s.outlines_mapRest _ (f := fun t => t.unmark .scr p.2) fun _ => rfl
  · exact State.outlines_withTask rfl

@[simp] theorem State.outlines_unmarkAll (s : State) (ws : List BWrite) : (s.unmarkAll ws).outlines = s.outlines := by
  unfold State.unmarkAll
  split
  · rfl
  · exact State.outlines_foldl State.outlines_unmark _ s

@[simp] theorem State.outlines_wrBytes (s : State) (ws : List BWrite) : (s.wrBytes ws).outlines = s.outlines :=
  (State.outlines_unmarkAll _ ws).trans (State.outlines_foldl State.outlines_wrByte ws s)

theorem State.outlines_wrAcc (s : State) (w : BWrite) : (s.wrAcc w).outlines = s.outlines := by
  unfold State.wrAcc
  split
  · rfl
  · exact State.outlines_withTask rfl

@[simp] theorem State.outlines_putFlags (s : State) (fs : List (Nat × Flag)) : (s.putFlags fs).outlines = s.outlines :=
  State.outlines_withTask rfl

@[simp] theorem State.outlines_perform (s : State) (acc : Bool) (ws : List BWrite) (fs : List (Nat × Flag)) :
    (s.perform acc ws fs).outlines = s.outlines := by
  unfold State.perform
  rw [State.outlines_putFlags, State.outlines_unmarkAll]
  cases acc
  case false => exact State.outlines_foldl State.outlines_wrByte ws s
  case true => exact State.outlines_foldl State.outlines_wrAcc ws s

/-! ### Updates of single locations -/

@[simp] theorem State.outlines_sluPut (s : State) (v : View) (e code : Nat) : (s.sluPut v e code).outlines = s.outlines :=
  s.outlines_wrBytes _

@[simp] theorem State.outlines_sluDraw (s : State) : s.sluDraw.2.outlines = s.outlines := s.outlines_seed _

@[simp] theorem State.outlines_countUp (s : State) (v : View) (e : Nat) : (s.countUp v e).outlines = s.outlines := by
  unfold State.countUp
  dsimp only
  split_ifs <;> simp

@[simp] theorem outlines_mergeTrials (k lim n j z : Nat) (s : State) :
    (mergeTrials k lim n j z s).2.outlines = s.outlines := by
  induction n generalizing j z s with
  | zero => rfl
  | succ n ih =>
    unfold mergeTrials
    dsimp only
    split
    · exact ih ..
    · exact (ih ..).trans s.outlines_sluDraw

@[simp] theorem State.outlines_mergeInto (s : State) (v : View) (e y : Nat) : (s.mergeInto v e y).outlines = s.outlines := by
  unfold State.mergeInto
  dsimp only
  split <;> simp

@[simp] theorem State.outlines_raise (s : State) (v : View) (e d : Nat) : (s.raise v e d).outlines = s.outlines := by
  unfold State.raise
  split <;> simp

@[simp] theorem SluOp.outlines_element (op : SluOp) (i e : Nat) (s : State) : (op.element i e s).1.outlines = s.outlines := by
  unfold SluOp.element
  split
  case h_2 => dsimp only; split <;> simp
  case h_5 | h_6 => cases op.raised i <;> simp
  all_goals simp

theorem SluOp.outlines_elements (op : SluOp) (n i : Nat) (r : SluRun) : (op.elements n i r).s.outlines = r.s.outlines := by
  induction n generalizing i r with
  | zero => rfl
  | succ n ih =>
    unfold SluOp.elements
    split
    · exact ih ..
    · split
      · rfl
      · exact (ih ..).trans (op.outlines_element ..)

theorem SluOp.outlines_windows (op : SluOp) (sop fuel lo : Nat) (r : SluRun) :
    (op.windows sop fuel lo r).s.outlines = r.s.outlines := by
  induction fuel generalizing lo r with
  | zero => rfl
  | succ n ih =>
    unfold SluOp.windows
    dsimp only
    split
    · rfl
    · split
      · rfl
      · exact (ih ..).trans (State.outlines_foldl (fun _ _ => State.outlines_sluPut ..) _ _)

@[simp] theorem SluOp.outlines_perform (op : SluOp) (s : State) : (op.perform s).s.outlines = s.outlines := by
  unfold SluOp.perform
  dsimp only
  split
  case h_4 => exact op.outlines_elements ..
  all_goals exact op.outlines_windows ..

@[simp] theorem SluOp.outlines_deliver (op : SluOp) (olds : List (Nat × Nat)) (s : State) :
    (op.deliver olds s).outlines = s.outlines := by
  unfold SluOp.deliver
  split
  · exact State.outlines_foldl (fun u _ => (State.outlines_setInFlight ..).trans (u.outlines_sluPut ..)) _ s
  · exact State.outlines_foldl (fun u _ => u.outlines_wrBytes _) _ s

@[simp] theorem SluOp.outlines_performAt (op : SluOp) (p : Space → Nat → Bool) (s : State) :
    (op.performAt p s).1.outlines = s.outlines := (op.outlines_deliver ..).trans (SluOp.outlines_perform ..)

theorem State.outlines_reduce (s : State) (sp : Space) (rop fmt : Nat) (x : RedElem) :
    (s.reduce sp rop fmt x).outlines = s.outlines := by
  unfold State.reduce
  split
  · rfl
  · exact s.outlines_wrBytes _

theorem State.outlines_applyAt (s : State) (r : Req) (p : Space → Nat → Bool) : (s.applyAt r p).1.outlines = s.outlines := by
  unfold State.applyAt
  split
  · exact State.outlines_foldl (fun u x => u.outlines_reduce _ _ _ x) _ s
  · exact SluOp.outlines_performAt ..
  · rfl

/-! ### Parts of a command -/

@[simp] theorem State.outlines_exhume (s : State) (bs : List Buried) : (s.exhume bs).outlines = s.outlines :=
  State.outlines_foldl (fun _ _ => State.outlines_wrByte ..) bs s

@[simp] theorem State.outlines_rebury (s : State) (bs : List Buried) (t : State) : (s.rebury bs t).outlines = t.outlines := by
  unfold State.rebury
  split
  · rfl
  · refine (State.outlines_withTask ?_).trans ((State.outlines_putFlags ..).trans ?_)
    · rfl
    refine (State.outlines_foldl (fun _ _ => State.outlines_wrByte ..) bs _).trans ?_
    exact State.outlines_foldl (fun _ _ => State.outlines_setInFlight ..) bs t

theorem State.outlines_beneath (s : State) (e : EngId) (f : Flight) {act : State → State}
    (ha : ∀ u, (act u).outlines = u.outlines) : (s.beneath e f act).outlines = s.outlines :=
  (State.outlines_rebury ..).trans ((ha _).trans (s.outlines_exhume _))

@[simp] theorem State.outlines_seeded (s : State) (f : Flight) : (s.seeded f).outlines = s.outlines := by
  unfold State.seeded
  split
  · refine (State.outlines_setEng ?_).trans (s.outlines_seed _)
    rfl
  · rfl

theorem Task.outline_foldl {α : Type} {f : Task → α → Task} (hf : ∀ t a, (f t a).outline = t.outline) (l : List α)
    (t : Task) : (l.foldl f t).outline = t.outline :=
  List.foldlRecOn (motive := fun u => u.outline = t.outline) l f rfl fun u hu a _ => (hf u a).trans hu

theorem Task.outline_openLine (t : Task) (l : Nat) : (t.openLine l).outline = t.outline := by
  unfold Task.openLine
  split <;> rfl

theorem Task.outline_fillWeights (t : Task) (cells : List (Nat × Byte)) : (t.fillWeights cells).outline = t.outline :=
  Task.outline_foldl Task.outline_openLine _ t

@[simp] theorem State.outlines_weightPart (s : State) (op : LandOp) (p : Space → Nat → Bool) :
    (s.weightPart op p).2.2.2.outlines = s.outlines := by
  unfold State.weightPart
  split
  · have hz (t : Task) (a : Nat) : (t.zeroGranule a).outline = t.outline := rfl
    exact State.outlines_withTask ((Task.outline_foldl hz _ _).trans (Task.outline_fillWeights ..))
  · rfl

@[simp] theorem State.outlines_foldPart (s : State) (e : EngId) (f : Flight) (p : Space → Nat → Bool) :
    (s.foldPart e f p).outlines = s.outlines := by
  unfold State.foldPart
  split
  · split
    · have hd : (s.doFold ‹_›).outlines = s.outlines := s.outlines_wrBytes _
      refine (State.outlines_setEng ?_).trans hd
      exact (State.outline_eng_congr hd e).symm
    · rfl
  · rfl

@[simp] theorem State.outlines_landOwn (s : State) (e : EngId) (seq : Nat) (p : Space → Nat → Bool) :
    (s.landOwn e seq p).outlines = s.outlines := by
  unfold State.landOwn
  split
  · rfl
  · refine s.outlines_beneath e _ fun u => ?_
    dsimp only
    rw [State.outlines_foldPart]
    refine (State.outlines_setInFlight ..).trans ?_
    rw [State.outlines_weightPart, State.outlines_perform]

@[simp] theorem State.outlines_sluPart (s : State) (f : Flight) (p : Space → Nat → Bool) :
    (s.sluPart f p).outlines = s.outlines := by
  refine s.outlines_beneath .sluice f fun u => ?_
  split
  · dsimp only
    split
    · have hd (olds : List (Nat × Nat)) := SluOp.outlines_deliver ‹_› olds u
      exact (State.outlines_setInFlight ..).trans (hd _)
    · exact (State.outlines_setInFlight ..).trans (SluOp.outlines_performAt ..)
  · rfl

@[simp] theorem State.outlines_sluBack (fs : List Flight) (p : Space → Nat → Bool) (s : State) :
    (State.sluBack fs p s).outlines = s.outlines := by
  induction fs generalizing p with
  | nil => rfl
  | cons f t ih =>
    unfold State.sluBack
    split
    · exact (State.outlines_sluPart ..).trans (ih _)
    · exact ih _

theorem State.outlines_takeDraws (fs : List (EngId × Flight)) (w s : State) :
    (State.takeDraws fs w s).outlines = s.outlines := by
  induction fs generalizing w s with
  | nil => rfl
  | cons x t ih =>
    unfold State.takeDraws
    split
    · split
      · exact (ih ..).trans (State.outlines_seeded ..)
      · dsimp only
        split
        · exact (State.outlines_setEng (by rfl)).trans (s.outlines_seed _)
        · rw [ih, State.outlines_seeded]
          exact (State.outlines_setEng (by rfl)).trans (s.outlines_seed _)
    · exact ih ..

@[simp] theorem State.outlines_drawsFor (s : State) (f : Flight) (p : Space → Nat → Bool) :
    (s.drawsFor f p).outlines = s.outlines := by
  unfold State.drawsFor
  split
  · exact State.outlines_takeDraws ..
  · rfl

theorem State.outlines_sluParts (s : State) (f : Flight) (p : Space → Nat → Bool) : (s.sluParts f p).outlines = s.outlines := by
  unfold State.sluParts
  split
  · split
    · rfl
    · exact (State.outlines_sluBack ..).trans (s.outlines_drawsFor f p)
  · rfl

@[simp] theorem State.outlines_landPart (s : State) (e : EngId) (seq : Nat) (p : Space → Nat → Bool) :
    (s.landPart e seq p).outlines = s.outlines := by
  unfold State.landPart
  split
  · rfl
  · exact (State.outlines_sluParts ..).trans (s.outlines_landOwn e seq p)

theorem State.outlines_landAt (s : State) (h : Nat × Space) (a n : Nat) (l : List (EngId × Flight)) :
    (s.landAt h a n l).outlines = s.outlines := State.outlines_foldl (fun _ _ => State.outlines_landPart ..) l s

theorem State.outlines_behind (s : State) (h : Nat × Space) (a n : Nat) : (s.behind h a n).outlines = s.outlines :=
  (State.outlines_landAt ..).trans (s.outlines_landAt h a n _)

/-! ### Cores in focus -/

theorem insertCore_perm (c : Core) (l : List Core) : (insertCore c l).Perm (c :: l) := by
  induction l with
  | nil => exact .rfl
  | cons d t ih =>
    unfold insertCore
    split
    · exact .rfl
    · exact (ih.cons d).trans (.swap c d t)

/-- Inserting a core of a new number, one finds it there and every other as before. -/
theorem find?_insertCore {c : Core} {l : List Core} (h : c.pcore ∉ l.map (·.pcore)) (k : Nat) :
    (insertCore c l).find? (fun d => d.pcore == k) = (c :: l).find? fun d => d.pcore == k := by
  induction l with
  | nil => rfl
  | cons d t ih =>
    obtain ⟨hd, ht⟩ : c.pcore ≠ d.pcore ∧ c.pcore ∉ t.map (·.pcore) := by simpa using h
    unfold insertCore
    split
    · rfl
    · rw [List.find?_cons, ih ht]
      cases hc : c.pcore == k
      case false => simp only [List.find?_cons, hc]
      case true =>
        have hdk : (d.pcore == k) = false := by
          rw [beq_iff_eq] at hc
          exact beq_false_of_ne fun hk => hd (hc.trans hk.symm)
        simp only [List.find?_cons, hc, hdk]

@[simp] theorem State.focus_pcore (s : State) (n : Nat) : (s.focus n).cur.pcore = n := by
  unfold State.focus
  split
  · assumption
  · cases h : s.rest.find? fun c => c.pcore == n
    · simp [Core.blank]
    · simpa [h] using List.find?_some h

theorem State.distinct_iff {s : State} :
    s.distinct ↔ s.cur.pcore ∉ s.rest.map (·.pcore) ∧ (s.rest.map (·.pcore)).Nodup := by
  unfold State.distinct State.cores
  rw [List.map_cons, List.nodup_cons]

/-- The cores out of focus after bringing another one into focus. -/
theorem State.focus_rest {s : State} {n : Nat} (h : s.cur.pcore ≠ n) :
    (s.focus n).rest = if s.cur = Core.blank s.cur.pcore then s.rest.filter fun c => c.pcore != n
      else insertCore s.cur (s.rest.filter fun c => c.pcore != n) := by
  unfold State.focus
  rw [if_neg h]

theorem State.distinct_focus {s : State} (h : s.distinct) (n : Nat) : (s.focus n).distinct := by
  by_cases hn : s.cur.pcore = n
  · unfold State.focus
    rwa [if_pos hn]
  · rw [State.distinct_iff] at h ⊢
    obtain ⟨hcur, hrest⟩ := h
    have hsub : ((s.rest.filter fun c => c.pcore != n).map (·.pcore)).Sublist (s.rest.map (·.pcore)) :=
      List.filter_sublist.map _
    have hne : n ∉ (s.rest.filter fun c => c.pcore != n).map (·.pcore) := by simp
    rw [State.focus_pcore, State.focus_rest hn]
    split
    · exact ⟨hne, hrest.sublist hsub⟩
    · have hp := (insertCore_perm s.cur (s.rest.filter fun c => c.pcore != n)).map (·.pcore)
      refine ⟨fun hmem => ?_, hp.nodup_iff.2 (List.nodup_cons.2 ⟨fun hc => hcur (hsub.subset hc), hrest.sublist hsub⟩)⟩
      obtain hc | hr := List.mem_cons.1 (hp.mem_iff.1 hmem)
      · exact hn hc.symm
      · exact hne hr

theorem State.focus_cur {s : State} {n : Nat} (h : s.cur.pcore ≠ n) : (s.focus n).cur = s.coreAt n := by
  have hc : (s.cur.pcore == n) = false := by simpa using h
  unfold State.focus State.coreAt State.cores
  rw [if_neg h, List.find?_cons, hc]

/-- Bringing a core into focus changes no core. -/
theorem State.coreAt_focus {s : State} (h : s.distinct) (n k : Nat) : (s.focus n).coreAt k = s.coreAt k := by
  by_cases hn : s.cur.pcore = n
  · unfold State.focus
    rw [if_pos hn]
  obtain ⟨hcur, -⟩ := State.distinct_iff.1 h
  by_cases hk : n = k
  · have hf : ((s.focus n).cur.pcore == k) = true := by simpa using hk
    rw [State.coreAt, State.cores, List.find?_cons, hf, State.focus_cur hn, hk]
    rfl
  have hf : ((s.focus n).cur.pcore == k) = false := by simpa using hk
  have hfilter : (s.rest.filter fun c => c.pcore != n).find? (fun c => c.pcore == k) =
      s.rest.find? fun c => c.pcore == k := by
    rw [List.find?_filter]
    congr 1
    funext c
    by_cases hc : c.pcore = k
    · simp [hc, Ne.symm hk]
    · simp [hc]
  rw [State.coreAt, State.cores, List.find?_cons, hf, State.focus_rest hn]
  dsimp only
  split
  case isTrue hb =>
    rw [hfilter]
    unfold State.coreAt State.cores
    rw [List.find?_cons]
    cases hc : s.cur.pcore == k
    case false => rfl
    case true =>
      have hck : s.cur.pcore = k := by simpa using hc
      have hnone : s.rest.find? (fun c => c.pcore == k) = none := by
        rw [List.find?_eq_none]
        intro c hm hp
        exact hcur (List.mem_map.2 ⟨c, hm, by simpa [hck] using hp⟩)
      rw [hnone, hb, hck]
      rfl
  case isFalse =>
    have hin : s.cur.pcore ∉ (s.rest.filter fun c => c.pcore != n).map (·.pcore) :=
      fun hm => hcur ((List.filter_sublist.map _).subset hm)
    rw [find?_insertCore hin, List.find?_cons, hfilter, State.coreAt, State.cores, List.find?_cons]

/-! ### Operations over several cores -/

/-- Where no core is listed twice, neither is one in `u`, and the same core is in focus; every core has its outline. -/
def State.keepsOutlines (s u : State) : Prop :=
  s.distinct → u.distinct ∧ u.cur.pcore = s.cur.pcore ∧ ∀ n, (u.coreAt n).outline = (s.coreAt n).outline

theorem State.keepsOutlines_refl (s : State) : s.keepsOutlines s := fun h => ⟨h, rfl, fun _ => rfl⟩

theorem State.keepsOutlines_trans {s u v : State} (h : s.keepsOutlines u) (h' : u.keepsOutlines v) : s.keepsOutlines v := by
  intro hs
  obtain ⟨hu, hp, hc⟩ := h hs
  obtain ⟨hv, hp', hc'⟩ := h' hu
  exact ⟨hv, hp'.trans hp, fun n => (hc' n).trans (hc n)⟩

theorem State.keepsOutlines_foldl {α : Type} {f : State → α → State} (hf : ∀ (u : State) (a : α), u.keepsOutlines (f u a))
    (l : List α) (s : State) : s.keepsOutlines (l.foldl f s) :=
  List.foldlRecOn (motive := s.keepsOutlines) l f s.keepsOutlines_refl fun u hu a _ => State.keepsOutlines_trans (u := u) hu (hf u a)

theorem State.coreAt_outline (s : State) (n : Nat) :
    (s.coreAt n).outline = (s.outlines.find? fun c => c.pcore == n).getD (Core.blank n).outline := by
  unfold State.coreAt State.outlines
  rw [List.find?_map]
  exact (Option.getD_map ..).symm

/-- What changes no outline at the focused core or elsewhere keeps them. -/
theorem State.keepsOutlines_of_eq {s u : State} (h : u.outlines = s.outlines) : s.keepsOutlines u := by
  intro hs
  have hp : u.cores.map (·.pcore) = s.cores.map (·.pcore) := by
    have := congrArg (List.map fun c : Core => c.pcore) h
    unfold State.outlines at this
    rwa [List.map_map, List.map_map] at this
  refine ⟨?_, (List.cons.inj hp).1, fun n => ?_⟩
  · unfold State.distinct
    rwa [hp]
  · rw [State.coreAt_outline, State.coreAt_outline, h]

theorem State.keepsOutlines_onCore {f : State → State} (hf : ∀ u : State, u.keepsOutlines (f u)) (s : State) (n : Nat) :
    s.keepsOutlines (s.onCore n f) := by
  intro hs
  obtain ⟨hd, -, hc⟩ := hf _ (State.distinct_focus hs n)
  refine ⟨State.distinct_focus hd _, State.focus_pcore .., fun k => ?_⟩
  rw [State.onCore, State.coreAt_focus hd, hc, State.coreAt_focus hs]

theorem State.keepsOutlines_behindDrawn (s : State) (h : Nat × Space) (a n : Nat) : s.keepsOutlines (s.behindDrawn h a n) :=
  State.keepsOutlines_of_eq (State.outlines_landAt ..)

theorem State.keepsOutlines_behindOthers (s : State) (h : Nat × Space) (a n : Nat) :
    s.keepsOutlines (s.behindOthers h a n) :=
  State.keepsOutlines_foldl (fun u m => u.keepsOutlines_onCore (fun v => State.keepsOutlines_of_eq (v.outlines_behind h a n)) m) _ s

theorem State.keepsOutlines_overAhead (s : State) (e : EngId) (ps : List (Space × Nat)) :
    s.keepsOutlines (s.overAhead e ps) := by
  have hdrawn : s.keepsOutlines (s.overDrawn e ps) := by
    unfold State.overDrawn
    split
    · exact s.keepsOutlines_refl
    · exact State.keepsOutlines_foldl (fun u _ => u.keepsOutlines_behindDrawn _ _ _) ps s
  refine State.keepsOutlines_trans hdrawn ?_
  unfold State.overAhead State.overOthers
  split
  · exact State.keepsOutlines_refl _
  · exact State.keepsOutlines_foldl (fun u _ => u.keepsOutlines_behindOthers _ _ _) ps _

/-! ### What a read finds -/

theorem State.keepsOutlines_reqPart (s : State) (e : EngId) (tag : BitVec 32) (p : Space → Nat → Bool) :
    s.keepsOutlines (s.reqPart e tag p) := by
  unfold State.reqPart
  refine State.keepsOutlines_foldl (fun u r => ?_) _ s
  dsimp only
  split
  · exact u.keepsOutlines_refl
  · refine State.keepsOutlines_trans (u.keepsOutlines_overAhead e (r.places.filter fun x => p x.1 x.2))
      (State.keepsOutlines_of_eq ?_)
    exact (State.outlines_setInFlight ..).trans (State.outlines_applyAt ..)

theorem State.keepsOutlines_choose (s : State) : s.keepsOutlines s.choose.2 := State.keepsOutlines_of_eq s.outlines_choose

theorem State.keepsOutlines_showReqs (s : State) (e : EngId) (f : Flight) (want : Space → Nat → Bool)
    (key : Space → Nat → Nat) : s.keepsOutlines (s.showReqs e f want key) := by
  refine State.keepsOutlines_foldl (fun u r => State.keepsOutlines_foldl (fun v k => ?_) _ u) _ s
  dsimp only
  split
  · exact State.keepsOutlines_trans v.keepsOutlines_choose (State.keepsOutlines_reqPart _ _ _ _)
  · exact v.keepsOutlines_choose

/-- What a read finds of the task's effects in flight keeps the outlines (R23, R88). -/
theorem State.keepsOutlines_showAt (s : State) (want : Space → Nat → Bool) (key : Flight → Space → Nat → Nat) :
    s.keepsOutlines (s.showAt want key) := by
  refine State.keepsOutlines_foldl (fun u e => State.keepsOutlines_foldl (fun u f => ?_) _ u) _ s
  split
  · exact u.keepsOutlines_refl
  · refine State.keepsOutlines_trans (State.keepsOutlines_foldl (fun v k => ?_) _ u) (State.keepsOutlines_showReqs _ _ _ _ _)
    have hland (w : State) (p : Space → Nat → Bool) (ps : List (Space × Nat)) :
        w.keepsOutlines ((w.overAhead e ps).landPart e f.seq p) :=
      State.keepsOutlines_trans (w.keepsOutlines_overAhead e ps) (State.keepsOutlines_of_eq (State.outlines_landPart ..))
    dsimp only
    split
    · split
      · exact hland _ _ _
      · exact v.keepsOutlines_refl
    · split
      · exact State.keepsOutlines_trans v.keepsOutlines_choose (hland _ _ _)
      · exact v.keepsOutlines_choose

/-- A command's sources are read with the outlines of every core as they are. -/
theorem State.keepsOutlines_asRead (s : State) (e : EngId) : s.keepsOutlines (s.asRead e) := by
  have hown : s.keepsOutlines (if (s.eng e).strict then s else s.showAt (fun _ _ => true) fun _ _ a => a / 64) := by
    split
    · exact s.keepsOutlines_refl
    · exact s.keepsOutlines_showAt _ _
  unfold State.asRead
  refine State.keepsOutlines_trans hown (State.keepsOutlines_foldl (fun u c => ?_) _ _)
  exact State.keepsOutlines_onCore (fun v => v.keepsOutlines_showAt _ _) u c.pcore

theorem State.coreAt_cur (s : State) : s.coreAt s.cur.pcore = s.cur := by
  simp [State.coreAt, State.cores]

/-- A command's sources are read in the mode in which it issues (R20, R23). -/
theorem State.asRead_eng_strict {s : State} (h : s.distinct) (e x : EngId) :
    ((s.asRead e).eng x).strict = (s.eng x).strict := by
  obtain ⟨-, hp, hc⟩ := s.keepsOutlines_asRead e h
  have hcur : (s.asRead e).cur.outline = s.cur.outline := by
    have hn := hc s.cur.pcore
    rwa [State.coreAt_cur, ← hp, State.coreAt_cur] at hn
  exact Core.outline_eng_strict hcur x

end Sys2Proof.Machine
end

section
/-! PROOF. What translating the pages of a walk gives and what it can change (R79 to R84), and the environment in which a command reads
its views. -/

namespace Sys2Proof.Machine

/-! ### Walks and held translations -/

/-- A walk is of the tables in memory alone, which a held translation does not change. -/
theorem State.walkFrom_heldOnly {s u : State} (h : s.heldOnly u) (p : Partition) (va level table : Nat) :
    u.walkFrom p va level table = s.walkFrom p va level table := by
  have hrd (a n : Nat) : u.rdNat .mem a n = s.rdNat .mem a n :=
    State.rdNat_congr (fun b => State.heldOnly_sameBytes h .mem b) a n
  have hbad (a n : Nat) : u.badIn .mem a n = s.badIn .mem a n := by obtain ⟨tl, ic, n, xl, rfl⟩ := h; rfl
  have hpop (a n : Nat) : u.populated p.vf a n = s.populated p.vf a n := by obtain ⟨tl, ic, n, xl, rfl⟩ := h; rfl
  induction level generalizing table with
  | zero => simp only [State.walkFrom, hrd, hbad]
  | succ level ih => simp only [State.walkFrom, hrd, hbad, hpop, ih]

theorem State.walk_heldOnly {s u : State} (h : s.heldOnly u) (va : Nat) : u.walk va = s.walk va := by
  have hw := State.walkFrom_heldOnly h
  obtain ⟨tl, ic, n, xl, rfl⟩ := h
  unfold State.walk State.walkIn State.leafIn
  simp only [hw]
  rfl

theorem State.judge_heldOnly {s u : State} (h : s.heldOnly u) (va : Nat) (k : Acc) (timed : Bool) (l : Except Code Leaf) :
    u.judge va k timed l = s.judge va k timed l := by
  obtain ⟨tl, ic, n, xl, rfl⟩ := h
  rfl

/-! ### The pages of a walk -/

theorem State.heldOnly_fresh (s : State) (n : Nat) : s.heldOnly { s with fresh := n } :=
  ⟨s.task.tlb, s.task.icache, n, s.xlat, rfl⟩

theorem State.mapPage_heldOnly (s : State) (k : Acc) (timed : Bool) (page : Nat) : s.heldOnly (s.mapPage k timed page).2 := by
  unfold State.mapPage
  extract_lets va l r u
  have hu : s.heldOnly u := by
    unfold u
    split
    · exact s.heldOnly_fresh _
    · exact s.heldOnly_refl
  split
  · split
    · exact State.heldOnly_trans hu (State.noteTlb_heldOnly _ _ _)
    · exact hu
  · exact s.heldOnly_refl

theorem State.mapPage_cur {page : Nat} (h : page * 2 ^ 16 < 2 ^ 56) (s : State) (k : Acc) (timed : Bool) :
    (s.mapPage k timed page).1.cur = s.judge (page * 2 ^ 16) k timed (s.walk (page * 2 ^ 16)) := by
  simp only [State.mapPage, if_pos h]

/-- The first page is translated, and the others in the state after it. -/
theorem State.mapPages_cons (s : State) (k : Acc) (timed : Bool) (p : Nat) (t : List Nat) :
    s.mapPages k timed (p :: t) = ((p, (s.mapPage k timed p).1) :: ((s.mapPage k timed p).2.mapPages k timed t).1,
      ((s.mapPage k timed p).2.mapPages k timed t).2) := by
  refine (State.mapPages.eq_2 ..).trans ?_
  obtain ⟨r, u⟩ := s.mapPage k timed p
  dsimp only

theorem State.mapPages_heldOnly (s : State) (k : Acc) (timed : Bool) (ps : List Nat) :
    s.heldOnly (s.mapPages k timed ps).2 := by
  induction ps generalizing s with
  | nil => exact s.heldOnly_refl
  | cons p t ih =>
    rw [State.mapPages_cons]
    exact State.heldOnly_trans (s.mapPage_heldOnly k timed p) (ih _)

/-- Each page of a walk is translated as the walk of the state before the first of them has it (R81). -/
theorem State.maps_mapPages (s : State) (k : Acc) (timed : Bool) (ps : List Nat) :
    s.maps k timed ps (s.mapPages k timed ps).1 := by
  induction ps generalizing s with
  | nil => exact ⟨rfl, fun p hp => nomatch hp⟩
  | cons p t ih =>
    have hheld := s.mapPage_heldOnly k timed p
    have hfirst := fun hlt => State.mapPage_cur (page := p) hlt s k timed
    rw [State.mapPages_cons]
    generalize s.mapPage k timed p = x at hheld hfirst ⊢
    obtain ⟨r, u⟩ := x
    obtain ⟨hkeys, hcur⟩ := ih u
    refine ⟨congrArg (p :: ·) hkeys, fun q hq hlt => ?_⟩
    obtain rfl | hq := List.mem_cons.1 hq
    · exact hfirst hlt
    · rw [hcur q hq hlt, State.judge_heldOnly hheld, State.walk_heldOnly hheld]

/-! ### Reading -/

/-- A command that reads runs of bytes sees what stands there at issue, with their pages translated. -/
theorem State.readIn_ok {s u : State} {e : EngId} {rs : List Run} {env : Env} (h : s.readIn e rs = .ok (env, u)) :
    s.heldOnly u ∧ env.s = s.elsewhere ∧ s.maps .load (s.eng e).strict (pagesOf rs) env.pages := by
  unfold State.readIn at h
  obtain ⟨-, -, h⟩ := ok_of_bind_ok h
  obtain ⟨-, -, h⟩ := ok_of_bind_ok h
  cases h
  exact ⟨State.mapPages_heldOnly .., rfl, State.maps_mapPages ..⟩

/-- Reading its views, a command sees what stands at issue, in the mode in which it issues. -/
theorem State.readEnv_ok {s u : State} (hs : s.distinct) {e : EngId} {vs : List View} {env : Env}
    (h : s.readEnv e vs = .ok (env, u)) :
    (s.asRead e).heldOnly u ∧ env.s = (s.asRead e).elsewhere ∧
      (s.asRead e).maps .load (s.eng e).strict (pagesOf (vs.flatMap (s.asRead e).readRuns)) env.pages := by
  rw [← State.asRead_eng_strict hs e e]
  exact State.readIn_ok h

end Sys2Proof.Machine
end

section
/-! PROOF. RANK, TOPK and PART (R51, R208, R209): numbers and NaNs stand in one linear order with their indexes, and so counting what goes
before permutes the indexes. -/

namespace Sys2Proof.Machine

/-! ### The order of numbers -/

/-- The place of a number among the extended reals. NaNs, which have none, stand at 0. -/
noncomputable def Num.toEReal : Num → EReal
  | .fin s n d => ((signed s n / d : ℝ) : EReal)
  | .inf s => if s then ⊥ else ⊤
  | .nan _ => 0

/-- A fraction has a denominator that is not 0. -/
def Num.proper (x : Num) : Prop := ∀ s n d, x = .fin s n d → d ≠ 0

theorem signed_mul (s : Bool) (n d : Nat) : signed s (n * d) = signed s n * d := by
  cases s <;> simp [signed]

theorem Num.lt_iff {x y : Num} (hx : x.isNan = false) (hy : y.isNan = false) (dx : x.proper) (dy : y.proper) :
    x.lt y = true ↔ x.toEReal < y.toEReal := by
  cases x with
  | nan b => cases hx
  | inf s =>
    cases y with
    | nan b => cases hy
    | inf s' => cases s <;> cases s' <;> simp [Num.lt, Num.toEReal]
    | fin s' n' d' => cases s <;> simp [Num.lt, Num.toEReal]
  | fin s n d =>
    cases y with
    | nan b => cases hy
    | inf s' => cases s' <;> simp [Num.lt, Num.toEReal]
    | fin s' n' d' =>
      have hd : (0 : ℝ) < d := by exact_mod_cast Nat.pos_of_ne_zero (dx s n d rfl)
      have hd' : (0 : ℝ) < d' := by exact_mod_cast Nat.pos_of_ne_zero (dy s' n' d' rfl)
      simp only [Num.lt, Num.toEReal, decide_eq_true_eq, EReal.coe_lt_coe_iff, div_lt_div_iff₀ hd hd', signed_mul]
      exact_mod_cast Iff.rfl

theorem Num.eq_iff {x y : Num} (hx : x.isNan = false) (hy : y.isNan = false) (dx : x.proper) (dy : y.proper) :
    x.eq y = true ↔ x.toEReal = y.toEReal := by
  have hlt := Num.lt_iff hx hy dx dy
  have hgt := Num.lt_iff hy hx dy dx
  simp only [Num.eq, hx, hy, Bool.not_false, Bool.true_and, Bool.and_eq_true, Bool.not_eq_true', ← Bool.not_eq_true, hlt, hgt,
    not_lt]
  exact and_comm.trans le_antisymm_iff.symm

/-! ### The order of keys -/

/-- When one key goes before another (R51, R208). -/
theorem rankBefore_iff (asc : Bool) (x y : Num) (i j : Nat) : rankBefore asc x y i j = true ↔
    (y.isNan = false ∧ x.isNan = true) ∨ (y.isNan = true ∧ x.isNan = true ∧ j < i) ∨
      (y.isNan = false ∧ x.isNan = false ∧
        ((asc = false ∧ x.lt y = true) ∨ (asc = true ∧ y.lt x = true) ∨ (x.eq y = true ∧ j < i))) := by
  unfold rankBefore
  cases x.isNan <;> cases y.isNan <;> cases asc <;> simp

/-- The place of a key in the order of ranks: NaNs last, the greater first or with ASC the lesser, ties by their indexes. -/
noncomputable def rankKey (asc : Bool) (x : Num) (i : Nat) : Bool ×ₗ EReal ×ₗ Nat :=
  toLex (x.isNan, toLex (if asc then x.toEReal else -x.toEReal, i))

theorem rankKey_injective {asc : Bool} {x y : Num} {i j : Nat} (h : rankKey asc x i = rankKey asc y j) : i = j :=
  congrArg (fun k => (ofLex (ofLex k).2).2) h

theorem rankBefore_iff_rankKey_lt {asc : Bool} {x y : Num} (dx : x.proper) (dy : y.proper) (i j : Nat) :
    rankBefore asc x y i j = true ↔ rankKey asc y j < rankKey asc x i := by
  rw [rankBefore_iff, rankKey, rankKey, Prod.Lex.toLex_lt_toLex, Prod.Lex.toLex_lt_toLex]
  dsimp only
  cases hx : x.isNan
  case true =>
    cases x <;> cases hx
    cases hy : y.isNan
    case true => cases y <;> cases hy; simp [Num.toEReal]
    case false => simp
  case false =>
    cases hy : y.isNan
    case true => simp
    case false =>
      rw [Num.lt_iff hx hy dx dy, Num.lt_iff hy hx dy dx, Num.eq_iff hx hy dx dy]
      cases asc <;> simp [EReal.neg_lt_neg_iff, eq_comm]

/-! ### Counting what goes before -/

/-- In a linear order what stands before an element is fewer than what stands before a later one. -/
theorem count_lt_count {κ : Type} [LinearOrder κ] {k : Nat → κ} {l : List Nat} {i j : Nat} (hj : j ∈ l) (h : k j < k i) :
    (l.filter fun m => decide (k m < k j)).length < (l.filter fun m => decide (k m < k i)).length := by
  have hsub : (l.filter fun m => decide (k m < k j)).Sublist (l.filter fun m => decide (k m < k i)) :=
    List.monotone_filter_right l fun m hm => decide_eq_true ((of_decide_eq_true hm).trans h)
  refine lt_of_le_of_ne hsub.length_le fun heq => ?_
  have hmem : j ∈ l.filter fun m => decide (k m < k i) := List.mem_filter.2 ⟨hj, decide_eq_true h⟩
  rw [← hsub.eq_of_length heq] at hmem
  simp at hmem

/-- Counting what stands before each of n different elements of a linear order permutes 0 to n − 1. -/
theorem counts_perm_range {κ : Type} [LinearOrder κ] {k : Nat → κ} (hk : Function.Injective k) (n : Nat) :
    ((List.range n).map fun i => ((List.range n).filter fun j => decide (k j < k i)).length).Perm (List.range n) := by
  have hnodup : ((List.range n).map fun i => ((List.range n).filter fun j => decide (k j < k i)).length).Nodup := by
    refine List.nodup_range.map_on fun i hi j hj hij => ?_
    by_contra hne
    obtain h | h := lt_or_gt_of_ne fun he => hne (hk he)
    · exact (count_lt_count hi h).ne hij
    · exact (count_lt_count hj h).ne' hij
  refine (List.subperm_of_subset hnodup fun c hc => ?_).perm_of_length_le (by simp)
  obtain ⟨i, hi, rfl⟩ := List.mem_map.1 hc
  have hlt : ((List.range n).filter fun j => decide (k j < k i)).length < (List.range n).length :=
    List.length_filter_lt_length_iff_exists.2 ⟨i, hi, by simp⟩
  exact List.mem_range.2 (by simpa using hlt)

/-! ### Numbered lists -/

theorem numbered_eq_zipIdx {β : Type} (k : Nat) (l : List β) : numbered k l = (l.zipIdx k).map Prod.swap := by
  induction l generalizing k with
  | nil => rfl
  | cons x t ih => rw [numbered, ih, List.zipIdx_cons, List.map_cons, Prod.swap_prod_mk]

theorem map_fst_numbered {β : Type} (l : List β) : (numbered 0 l).map Prod.fst = List.range l.length := by
  rw [numbered_eq_zipIdx, List.map_map, List.range_eq_range', ← List.zipIdx_map_snd]
  rfl

theorem getElem?_of_mem_numbered {β : Type} {l : List β} {p : Nat × β} (h : p ∈ numbered 0 l) : l[p.1]? = some p.2 := by
  rw [numbered_eq_zipIdx] at h
  obtain ⟨q, hq, rfl⟩ := List.mem_map.1 h
  exact List.mem_zipIdx_iff_getElem?.1 hq

theorem take_numbered {l : List Nat} {k : Nat} (h : k ≤ l.length) :
    (numbered 0 l).take k = (List.range k).map fun i => (i, l.getD i 0) := by
  rw [numbered_eq_zipIdx]
  refine List.ext_getElem (by simp [h]) fun i h1 h2 => ?_
  have hi : i < l.length := by simp at h2; omega
  simp [hi]

/-! ### The lists written -/

/-- Each rank is the number of keys that go before its own. -/
theorem ranksOf_eq {keys : List Num} {asc : Bool} {goes : Nat → Nat → Bool}
    (h : ∀ i j x y, keys[i]? = some x → keys[j]? = some y → goes j i = rankBefore asc x y i j) :
    ranksOf asc keys = (List.range keys.length).map fun i => ((List.range keys.length).filter fun j => goes j i).length := by
  unfold ranksOf
  rw [← map_fst_numbered, List.map_map]
  refine List.map_congr_left fun p hp => ?_
  rw [Function.comp_apply, List.filter_map, List.length_map]
  refine congrArg List.length (List.filter_congr fun r hr => ?_)
  exact (h _ _ _ _ (getElem?_of_mem_numbered hp) (getElem?_of_mem_numbered hr)).symm

@[simp] theorem ranksOf_length (asc : Bool) (keys : List Num) : (ranksOf asc keys).length = keys.length := by
  simp [ranksOf, numbered_length]

/-- The ranks of n keys are 0 to n − 1, each once. -/
theorem ranksOf_perm {keys : List Num} (hd : ∀ x ∈ keys, x.proper) (asc : Bool) :
    (ranksOf asc keys).Perm (List.range keys.length) := by
  have hk : Function.Injective fun i => rankKey asc (keys.getD i (.nan 0)) i := fun i j => rankKey_injective
  rw [ranksOf_eq (goes := fun j i => decide (rankKey asc (keys.getD j (.nan 0)) j < rankKey asc (keys.getD i (.nan 0)) i))]
  · exact counts_perm_range hk _
  · intro i j x y hx hy
    have hiff := rankBefore_iff_rankKey_lt (asc := asc) (hd x (List.mem_of_getElem? hx)) (hd y (List.mem_of_getElem? hy)) i j
    rw [List.getD_eq_getElem?_getD, List.getD_eq_getElem?_getD, hx, hy]
    exact (Bool.eq_iff_iff.2 (hiff.trans decide_eq_true_iff.symm)).symm

@[simp] theorem byRank_length (ranks : List Nat) (k : Nat) : (byRank ranks k).length = k := by simp [byRank]

/-- TOPK's list has at each rank the index whose rank it is. -/
theorem byRank_getElem? {ranks : List Nat} {k r : Nat} (hr : r ∈ ranks) (hk : r < k) :
    ∃ i, (byRank ranks k)[r]? = some i ∧ ranks[i]? = some r :=
  ⟨ranks.idxOf r, by simp [byRank, hk], List.getElem?_idxOf hr⟩

/-- The indexes of the keys that PART selects, or with `b` false of the others (R209). -/
def partHalf (keys : List Num) (b : Bool) : List Nat := ((numbered 0 keys).filter fun p => selected p.2 == b).map (·.1)

theorem partList_eq (neg : Bool) (keys : List Num) :
    partList neg keys = partHalf keys (!neg) ++ partHalf keys neg ++ [(partHalf keys (!neg)).length] := by
  have hf : (fun p : Nat × Num => selected p.2 != neg) = fun p => selected p.2 == !neg := by
    funext p
    cases selected p.2 <;> cases neg <;> rfl
  unfold partList partHalf
  rw [hf, List.length_map]

theorem partHalf_pairwise (keys : List Num) (b : Bool) : (partHalf keys b).Pairwise (· < ·) := by
  have hsub : (partHalf keys b).Sublist ((numbered 0 keys).map Prod.fst) := List.filter_sublist.map _
  rw [map_fst_numbered] at hsub
  exact List.pairwise_lt_range.sublist hsub

theorem selected_of_mem_partHalf {keys : List Num} {b : Bool} {i : Nat} {x : Num} (hi : i ∈ partHalf keys b)
    (hx : keys[i]? = some x) : selected x = b := by
  obtain ⟨p, hp, rfl⟩ := List.mem_map.1 hi
  obtain ⟨hmem, hsel⟩ := List.mem_filter.1 hp
  rw [getElem?_of_mem_numbered hmem, Option.some.injEq] at hx
  rw [← hx]
  exact beq_iff_eq.1 hsel

theorem selected_iff {x : Num} {b : Bool} (h : selected x = b) : (x.isNan = false ∧ x.isZero = false) ↔ b = true := by
  rw [← h]
  simp [selected]

/-- The two parts together are every index once. -/
theorem partHalf_perm (keys : List Num) (b : Bool) :
    (partHalf keys (!b) ++ partHalf keys b).Perm (List.range keys.length) := by
  have hnot : (fun p : Nat × Num => selected p.2 == b) = fun p => !(selected p.2 == !b) := by
    funext p
    cases selected p.2 <;> cases b <;> rfl
  have hp := (List.filter_append_perm (fun p : Nat × Num => selected p.2 == !b) (numbered 0 keys)).map Prod.fst
  rw [map_fst_numbered, List.map_append, ← hnot] at hp
  exact hp

theorem partList_length (neg : Bool) (keys : List Num) : (partList neg keys).length = keys.length + 1 := by
  have h := (partHalf_perm keys neg).length_eq
  rw [partList_eq, List.length_append, h, List.length_range, List.length_singleton]

/-! ### The bodies (R208, R209) -/

theorem need_ok {c : Code} {b : Bool} {x : Unit} (h : need c b = .ok x) : b = false := by
  cases b
  case false => rfl
  case true => cases h

section
variable {s u : State} {a c : BitVec 6} {i : Issued} {va vc : View} {len : Nat → Nat} {small : Nat → Bool}
  {f : List Num → List Nat}

/-- What a command that passes its checks writes: the list that it makes of its keys, as far as `len` goes. -/
theorem rankCommand_ok (ha : s.slotView .matrix 0 a = .ok va) (hc : s.slotView .matrix 2 c = .ok vc)
    (h : rankCommand a c len small f s = .ok (u, i)) :
    small va.t.cols = false ∧ ∃ env : Env, s.readEnv .matrix [va] = .ok (env, u) ∧ i.acc = true ∧
      let list := f ((List.range va.t.cols).map fun k => env.value va (u.scaleOf va) 0 k)
      let out := (numbered 0 list).take (len va.t.cols)
      i.writes = (out.flatMap fun p => env.put vc.t (vc.bitAt 0 p.1) 32 p.2) ∧
      i.flags = out.map fun p => ((vc.bitAt 0 p.1 / 32).toNat, ⟨true, false⟩) := by
  unfold rankCommand at h
  obtain ⟨-, -, h⟩ := ok_of_bind_ok h
  obtain ⟨va', hva, h⟩ := ok_of_bind_ok h
  cases ha.symm.trans hva
  obtain ⟨vc', hvc, h⟩ := ok_of_bind_ok h
  cases hc.symm.trans hvc
  obtain ⟨-, -, h⟩ := ok_of_bind_ok h
  obtain ⟨-, -, h⟩ := ok_of_bind_ok h
  obtain ⟨_, hgeom, h⟩ := ok_of_bind_ok h
  obtain ⟨⟨env, v⟩, henv, h⟩ := ok_of_bind_ok h
  have hsmall := need_ok hgeom
  cases h
  simp only [Bool.or_eq_false_iff] at hsmall
  obtain ⟨⟨⟨⟨-, hsmall⟩, -⟩, -⟩, -⟩ := hsmall
  exact ⟨hsmall, env, henv, rfl, rfl, rfl⟩

/-- A command has written the first `len` of the indexes that `f` makes of its keys, each TOUCHED, to slot c; the keys are as its
sources stand at issue. -/
def State.ranksWritten (s u : State) (i : Issued) (va vc : View) (len : Nat) (f : List Num → List Nat) : Prop :=
  let r := s.asRead .matrix
  i.acc = true ∧ r.heldOnly u ∧ ∃ env : Env, env.s = r.elsewhere ∧
    r.maps .load (s.eng .matrix).strict (pagesOf (r.readRuns va)) env.pages ∧
    let list := f ((List.range va.t.cols).map fun k => env.value va (u.scaleOf va) 0 k)
    i.writes = ((List.range len).flatMap fun k => env.put vc.t (vc.bitAt 0 k) 32 (list.getD k 0)) ∧
    i.flags = (List.range len).map fun k => ((vc.bitAt 0 k / 32).toNat, ⟨true, false⟩)

/-- A command whose list is long enough writes all of `len`. -/
theorem ranksWritten_of_rankCommand (hs : s.distinct) (ha : s.slotView .matrix 0 a = .ok va)
    (hc : s.slotView .matrix 2 c = .ok vc) (h : rankCommand a c len small f s = .ok (u, i))
    (hf : ∀ keys, len keys.length ≤ (f keys).length) : s.ranksWritten u i va vc (len va.t.cols) f := by
  obtain ⟨-, env, henv, hacc, hwrites, hflags⟩ := rankCommand_ok ha hc h
  obtain ⟨hheld, helse, hmaps⟩ := State.readEnv_ok hs henv
  rw [List.flatMap_singleton] at hmaps
  have hlen := hf ((List.range va.t.cols).map fun k => env.value va (u.scaleOf va) 0 k)
  rw [List.length_map, List.length_range] at hlen
  rw [take_numbered hlen] at hwrites hflags
  rw [List.flatMap_map] at hwrites
  rw [List.map_map] at hflags
  exact ⟨hacc, hheld, env, helse, hmaps, hwrites, hflags⟩

end

/-- Settles O50: the keys stand in one linear order with their indexes, so that counting permutes these, and the three bodies write the
lists of the keys that they have read. -/
theorem ranksArePermutation : Obligations.RanksArePermutation := by
  unfold Obligations.RanksArePermutation
  refine ⟨fun keys asc neg hd => ⟨ranksOf_perm hd asc, fun k r hk hr => ?_, ?_⟩, fun keys asc goes hgoes => ?_,
    fun s u a c i va vc hs ha hc => ⟨fun asc h => ?_, fun km1 asc h => ⟨?_, ?_⟩, fun neg h => ?_⟩⟩
  case refine_1 =>
    exact byRank_getElem? ((ranksOf_perm hd asc).mem_iff.2 (List.mem_range.2 (hr.trans_le hk))) hr
  case refine_2 =>
    refine ⟨partHalf keys (!neg), partHalf keys neg, partList_eq neg keys, partHalf_perm keys neg,
      partHalf_pairwise keys _, partHalf_pairwise keys _, fun i hi x hx => ?_, fun i hi x hx => ?_⟩
    · rw [selected_iff (selected_of_mem_partHalf hi hx), Bool.not_eq_true']
    · exact selected_iff (selected_of_mem_partHalf hi hx)
  case refine_3 =>
    exact ranksOf_eq fun i j x y hx hy =>
      Bool.eq_iff_iff.2 ((hgoes i j x y hx hy).trans (rankBefore_iff asc x y i j).symm)
  case refine_4 => exact ranksWritten_of_rankCommand hs ha hc h fun keys => (ranksOf_length asc keys).ge
  case refine_5 =>
    obtain ⟨hsmall, -⟩ := rankCommand_ok ha hc h
    exact not_lt.1 (of_decide_eq_false hsmall)
  case refine_6 =>
    have hwritten := ranksWritten_of_rankCommand hs ha hc h fun keys => (byRank_length (ranksOf asc keys) _).ge
    exact hwritten
  case refine_7 => exact ranksWritten_of_rankCommand hs ha hc h fun keys => (partList_length neg keys).ge

end Sys2Proof.Machine
end

section
/-! PROOF. Rounding to binary32 gives an exact value its own code (R57, R60, R147): a significand times a power of two is scaled
by its unit and back. -/

namespace Sys2Proof.Machine

/-! ### Scaling by a power of two -/

theorem scale2_den_pos {n d : Nat} (hd : 0 < d) (k : Int) : 0 < (scale2 n d k).2 := by
  unfold scale2
  split
  · exact hd
  · exact Nat.mul_pos hd (Nat.two_pow_pos _)

/-- The scaled fraction has `2 ^ k` times the value. -/
theorem scale2_div (n d : Nat) (k : Int) : ((scale2 n d k).1 / (scale2 n d k).2 : ℚ) = n / d * 2 ^ k := by
  unfold scale2
  split
  case isTrue hk =>
    obtain ⟨j, rfl⟩ := Int.eq_ofNat_of_zero_le hk
    simp only [Int.toNat_natCast, Nat.cast_mul, Nat.cast_pow, Nat.cast_ofNat, zpow_natCast]
    ring
  case isFalse hk =>
    obtain ⟨j, hj⟩ := Int.eq_ofNat_of_zero_le (show 0 ≤ -k by omega)
    rw [hj, ← neg_neg k, hj]
    simp only [Int.toNat_natCast, Nat.cast_mul, Nat.cast_pow, Nat.cast_ofNat, zpow_neg, zpow_natCast]
    rw [← div_eq_mul_inv, div_div]

theorem log2_mul_two_pow {n : Nat} (hn : n ≠ 0) (k : Nat) : Nat.log2 (n * 2 ^ k) = Nat.log2 n + k := by
  induction k with
  | zero => rw [Nat.pow_zero, Nat.mul_one, Nat.add_zero]
  | succ k ih =>
    have hne : n * 2 ^ k ≠ 0 := Nat.mul_ne_zero hn (Nat.two_pow_pos k).ne'
    rw [Nat.pow_succ, ← Nat.mul_assoc, Nat.log2_eq_log_two, Nat.log_mul_base one_lt_two hne, ← Nat.log2_eq_log_two, ih,
      Nat.add_assoc]

theorem Num.mk2_eq (neg : Bool) (m : Nat) (k : Int) : Num.mk2 neg m k = .fin neg (scale2 m 1 k).1 (scale2 m 1 k).2 := rfl

/-! ### A significand times a power of two -/

/-- A significand scaled twice. -/
theorem scale2_scale2_div (m : Nat) (k j : Int) :
    ((scale2 (scale2 m 1 k).1 (scale2 m 1 k).2 j).1 / (scale2 (scale2 m 1 k).1 (scale2 m 1 k).2 j).2 : ℚ) = m * 2 ^ (k + j) := by
  rw [scale2_div, scale2_div, Nat.cast_one, div_one, mul_assoc, ← zpow_add₀ two_ne_zero]

/-- Scaling back leaves the significand, over the denominator. -/
theorem scale2_scale2_neg (m : Nat) (k : Int) :
    (scale2 (scale2 m 1 k).1 (scale2 m 1 k).2 (-k)).1 = m * (scale2 (scale2 m 1 k).1 (scale2 m 1 k).2 (-k)).2 := by
  have hd := scale2_den_pos (n := (scale2 m 1 k).1) (scale2_den_pos (n := m) one_pos k) (-k)
  have hval := scale2_scale2_div m k (-k)
  rw [add_neg_cancel, zpow_zero, mul_one, div_eq_iff (Nat.cast_ne_zero.2 hd.ne')] at hval
  exact_mod_cast hval

section
variable {m : Nat} (hm : m ≠ 0) (k : Int)
include hm

theorem scale2_num_ne_zero : (scale2 m 1 k).1 ≠ 0 := by
  unfold scale2
  split
  · exact Nat.mul_ne_zero hm (Nat.two_pow_pos _).ne'
  · exact hm

theorem log2_scale2 : (Nat.log2 (scale2 m 1 k).1 : Int) - Nat.log2 (scale2 m 1 k).2 = Nat.log2 m + k := by
  unfold scale2
  split
  case isTrue hk =>
    rw [log2_mul_two_pow hm, show Nat.log2 1 = 0 from rfl]
    omega
  case isFalse hk =>
    rw [Nat.one_mul, Nat.log2_two_pow]
    dsimp only
    omega

theorem floorLog2_scale2 : floorLog2 (scale2 m 1 k).1 (scale2 m 1 k).2 = Nat.log2 m + k := by
  have hd := scale2_den_pos (n := (scale2 m 1 k).1) (scale2_den_pos (n := m) one_pos k) (-(Nat.log2 m + k))
  have hone : (1 : ℚ) ≤ m * 2 ^ (k + -(Nat.log2 m + k)) := by
    rw [show k + -((Nat.log2 m : Int) + k) = -Nat.log2 m by ring, zpow_neg, zpow_natCast, ← div_eq_mul_inv,
      one_le_div (by positivity)]
    exact_mod_cast Nat.log2_self_le hm
  rw [← scale2_scale2_div, one_le_div (by exact_mod_cast hd), Nat.cast_le] at hone
  unfold floorLog2
  rw [log2_scale2 hm]
  exact if_pos hone

end

/-- A fraction whose unit is `2 ^ k` is a multiple of it and rounds to itself (R66). -/
theorem Fmt.round_scale2 {F : Fmt} {m : Nat} (hm : m ≠ 0) {k : Int} (hk : F.lsb (scale2 m 1 k).1 (scale2 m 1 k).2 = k) :
    F.round none (scale2 m 1 k).1 (scale2 m 1 k).2 = scale2 m 1 k := by
  have hd := scale2_den_pos (n := (scale2 m 1 k).1) (scale2_den_pos (n := m) one_pos k) (-k)
  simp only [Fmt.round, beq_eq_false_iff_ne.2 (scale2_num_ne_zero hm k), Bool.false_eq_true, if_false, hk, scale2_scale2_neg,
    Nat.mul_mod_left, Nat.mul_zero, beq_eq_false_iff_ne.2 hd.ne, not_lt_zero, decide_false, Nat.mul_div_cancel _ hd]

/-! ### The values of binary32 (R57, R60) -/

/-- Rounding to binary32 is to its unit, then to an infinity beyond the greatest finite value (R66, R68). -/
theorem rne32_fin (neg : Bool) (n d : Nat) : rne32 (.fin neg n d) =
    let p := fp32.round none n d
    if fracLt fp32.largest.1 fp32.largest.2 p.1 p.2 then (overflowInto fp32 false neg 1).code
    else encodeNum fp32 neg p.1 p.2 := by
  show Conv.code (if fracLt fp32.largest.1 fp32.largest.2 _ _ = true then _ else _) = _
  exact apply_ite Conv.code _ _ _

/-- The unit of a value: that of its 24 bits, or the least one (R60, R66). -/
theorem lsb_fp32 (n d : Nat) : fp32.lsb n d = if floorLog2 n d < -126 then -149 else floorLog2 n d - 23 := by
  show (if (true && decide (floorLog2 n d < -126)) = true then _ else _) = _
  simp only [Bool.true_and, decide_eq_true_eq]
  rfl

/-- The code of a nonzero value: its sign, the exponent of a normal one, and its units without a leading bit (R57, R60). -/
theorem encodeNum_fp32 (neg : Bool) {n : Nat} (hn : n ≠ 0) (d : Nat) : encodeNum fp32 neg n d =
    let p := scale2 n d (-fp32.lsb n d)
    cat (b2n neg) 31 (if floorLog2 n d < -126 then p.1 / p.2
      else cat (floorLog2 n d + 127).toNat 23 (p.1 / p.2 - 2 ^ 23)) := by
  simp only [encodeNum, fp32, Fmt.lsb, beq_eq_false_iff_ne.2 hn, Bool.false_eq_true, if_false, Bool.true_and,
    decide_eq_true_eq, beq_self_eq_true, if_true]
  rw [show (1 : Int) - 127 = -126 by rfl]
  split
  case isTrue h => rfl
  case isFalse h => rfl

/-- `m` units of `2 ^ k` are a nonzero finite value of binary32: a normal one, or a subnormal one in the least unit. -/
structure IsSingle (m : Nat) (k : Int) : Prop where
  ne_zero : m ≠ 0
  lt : m < 2 ^ 24
  least : -149 ≤ k
  greatest : k ≤ 104
  normal : k = -149 ∨ 2 ^ 23 ≤ m

namespace IsSingle
variable {m : Nat} {k : Int} (h : IsSingle m k)
include h

/-- The significand of a normal value uses all its bits. -/
theorem log2_of_ge (hge : 2 ^ 23 ≤ m) : Nat.log2 m = 23 := (Nat.log2_eq_iff h.ne_zero).2 ⟨hge, h.lt⟩

/-- Subnormal values are those whose significand has no leading bit. -/
theorem floorLog2_lt_iff : floorLog2 (scale2 m 1 k).1 (scale2 m 1 k).2 < -126 ↔ m < 2 ^ 23 := by
  have hleast := h.least
  have hnormal := h.normal
  have hlog := Nat.log2_lt (k := 23) h.ne_zero
  rw [floorLog2_scale2 h.ne_zero]
  by_cases hge : 2 ^ 23 ≤ m
  · rw [h.log2_of_ge hge]
    omega
  · omega

/-- The unit of the value is the one in which it is given. -/
theorem lsb_eq : fp32.lsb (scale2 m 1 k).1 (scale2 m 1 k).2 = k := by
  rw [lsb_fp32]
  simp only [h.floorLog2_lt_iff]
  split
  case isTrue hlt => exact (h.normal.resolve_right (Nat.not_le_of_lt hlt)).symm
  case isFalse hge =>
    rw [floorLog2_scale2 h.ne_zero, h.log2_of_ge (Nat.le_of_not_lt hge)]
    exact add_sub_cancel_left 23 k

/-- The value is at most the greatest finite one. -/
theorem not_overflow : fracLt fp32.largest.1 fp32.largest.2 (scale2 m 1 k).1 (scale2 m 1 k).2 = false := by
  have hd := scale2_den_pos (n := m) one_pos k
  have hval := scale2_div m 1 k
  have hle : (m : ℚ) * 2 ^ k ≤ ((2 ^ 24 - 1) * 2 ^ 104 : Nat) := by
    rw [Nat.cast_mul, Nat.cast_pow 2 104, ← zpow_natCast]
    exact mul_le_mul (by exact_mod_cast Nat.le_pred_of_lt h.lt) (zpow_le_zpow_right₀ one_le_two h.greatest)
      (by positivity) (by positivity)
  rw [Nat.cast_one, div_one] at hval
  rw [← hval, div_le_iff₀ (by exact_mod_cast hd)] at hle
  show decide ((2 ^ 24 - 1) * 2 ^ 104 * (scale2 m 1 k).2 < (scale2 m 1 k).1 * 1) = false
  rw [decide_eq_false_iff_not, Nat.mul_one, not_lt]
  exact_mod_cast hle

/-- The code of the value: its sign, the exponent of a normal one, and its significand without a leading bit. -/
theorem rne32_mk2 (neg : Bool) : rne32 (.mk2 neg m k) =
    cat (b2n neg) 31 (if m < 2 ^ 23 then m else cat (k + 150).toNat 23 (m - 2 ^ 23)) := by
  have hd := scale2_den_pos (n := (scale2 m 1 k).1) (scale2_den_pos (n := m) one_pos k) (-k)
  rw [Num.mk2_eq, rne32_fin, Fmt.round_scale2 h.ne_zero h.lsb_eq]
  dsimp only
  rw [h.not_overflow, if_neg Bool.false_ne_true, encodeNum_fp32 neg (scale2_num_ne_zero h.ne_zero k), h.lsb_eq]
  dsimp only
  rw [scale2_scale2_neg, Nat.mul_div_cancel _ hd]
  simp only [h.floorLog2_lt_iff]
  split
  case isTrue => rfl
  case isFalse hge =>
    have hexp : ((23 : Nat) : Int) + k + 127 = k + 150 := by ring
    rw [floorLog2_scale2 h.ne_zero, h.log2_of_ge (Nat.le_of_not_lt hge), hexp]

end IsSingle

theorem rne32_mk2_zero (neg : Bool) (k : Int) : rne32 (.mk2 neg 0 k) = cat (b2n neg) 31 0 := by
  have hzero : (scale2 0 1 k).1 = 0 := by
    unfold scale2
    split
    · exact Nat.zero_mul _
    · rfl
  rw [Num.mk2_eq, hzero, rne32_fin]
  rfl

theorem rne32_inf (neg : Bool) : rne32 (.inf neg) = cat (b2n neg) 31 (cat 255 23 0) := rfl

/-! ### Reading a code -/

theorem b2n_bitOf (x i : Nat) : b2n (bitOf x i) = fld x i 1 := by
  obtain h | h := Nat.mod_two_eq_zero_or_one (x / 2 ^ i)
  · simp [bitOf, fld, b2n, h]
  · simp [bitOf, fld, b2n, h]

/-- A code is its sign, its exponent and its fraction (R57). -/
theorem cat_sign_exponent_fraction {c : Nat} (hc : c < 2 ^ 32) :
    cat (b2n (bitOf c 31)) 31 (cat (fld c 23 8) 23 (fld c 0 23)) = c := by
  rw [b2n_bitOf]
  unfold cat fld
  omega

/-- The values of codes (R57, R60). -/
theorem f32_of_lt {c : Nat} (hc : c < 2 ^ 32) : f32 c =
    if fld c 23 8 = 255 then (if fld c 0 23 = 0 then .inf (bitOf c 31) else widenNan (bitOf c 31) 23 (fld c 0 23))
    else if fld c 23 8 = 0 then .mk2 (bitOf c 31) (fld c 0 23) (-149)
    else .mk2 (bitOf c 31) (2 ^ 23 + fld c 0 23) (fld c 23 8 - 150) := by
  rw [f32, Nat.mod_eq_of_lt hc]
  simp only [decodeNum, fp32, beq_self_eq_true, Bool.true_and, if_true, beq_iff_eq]
  rw [show (fld c 23 8 : Int) - 127 - (23 : Nat) = fld c 23 8 - 150 by omega]
  rfl

/-- Rounding gives a finite value its exponent and its fraction: both zeros, the subnormal and the normal values. -/
theorem rne32_finite {neg : Bool} {e f : Nat} (he : e < 255) (hf : f < 2 ^ 23) :
    rne32 (if e = 0 then .mk2 neg f (-149) else .mk2 neg (2 ^ 23 + f) (e - 150)) = cat (b2n neg) 31 (cat e 23 f) := by
  split
  case isTrue hsub =>
    rw [hsub, cat_zero]
    by_cases hzero : f = 0
    · rw [hzero, rne32_mk2_zero]
    · have hsingle : IsSingle f (-149) := ⟨hzero, by omega, by omega, by omega, .inl rfl⟩
      rw [hsingle.rne32_mk2, if_pos hf]
  case isFalse hnormal =>
    have hsingle : IsSingle (2 ^ 23 + f) (e - 150) := ⟨by omega, by omega, by omega, by omega, .inr (by omega)⟩
    rw [hsingle.rne32_mk2, if_neg (by omega), Int.sub_add_cancel, Int.toNat_natCast, Nat.add_sub_cancel_left]

/-- Settles O17: a code's value is a significand in its own unit, so that rounding leaves it as it is and encoding puts the code's
fields together again. -/
theorem roundingKeepsExactValues : Obligations.RoundingKeepsExactValues := by
  unfold Obligations.RoundingKeepsExactValues
  intro c hc hnan
  have hexp := fld_lt c 23 8
  rw [f32_of_lt hc] at hnan ⊢
  refine Eq.trans ?_ (cat_sign_exponent_fraction hc)
  by_cases he : fld c 23 8 = 255
  · rw [if_pos he] at hnan ⊢
    by_cases hf : fld c 0 23 = 0
    · rw [if_pos hf, he, hf, rne32_inf]
    · rw [if_neg hf] at hnan
      cases hnan
  · rw [if_neg he]
    exact rne32_finite (by omega) (fld_lt c 0 23)

end Sys2Proof.Machine
end

section
/-! PROOF. What the statement about the sluice's elements leaves open: a value that is not taken over at issue and that the command has
no place to read from (R269, R274). -/

namespace Sys2Proof.Machine

/-! ### The counterexample -/

/-- An SFETCH with SOP = SWAP of the value 1 into the one UINT8 element of a view at scratchpad address 0, whose value is marked as not
taken over at issue. -/
def lateSwap : SluOp :=
  { SluOp.start (.sfetch 6) [0] ⟨⟨0x2030000100010000, 0, 0, 0, 0, 0, 0, 0⟩, 0⟩ View.none_ 1 with vals := [1], late := [0] }

/-! ### What the model makes of it -/

/-- A value that was not taken over at issue is 0 for a command that has no place to read it from later. -/
theorem SluOp.taken_of_late {op : SluOp} {i : Nat} (hlate : i ∈ op.late) (hearly : op.early i = none) (s : State) :
    op.taken i s = 0 := by
  have hholds : op.holds i = false := by simp [SluOp.holds, hlate]
  rw [SluOp.taken, hholds, if_neg Bool.false_ne_true, hearly]
  rfl

/-- Element 0 of the command swaps 0 in, not its value. -/
theorem lateSwap_element (s : State) : lateSwap.element 0 0 s = (s.sluPut lateSwap.tgt 0 0, some (s.sluGet lateSwap.tgt 0)) := by
  show (s.sluPut _ 0 (lateSwap.taken 0 s), _) = _
  rw [SluOp.taken_of_late (by decide) rfl]

theorem lateSwap_performs : (lateSwap.perform State.reset).s = State.reset.sluPut lateSwap.tgt 0 0 := by
  show (lateSwap.element 0 0 State.reset).1 = _
  rw [lateSwap_element]

/-- Swapping 1 in and swapping 0 in differ. -/
theorem lateSwap_puts_differ : (State.reset.sluPut lateSwap.tgt 0 0).sluGet lateSwap.tgt 0 = 0 ∧
    (State.reset.sluPut lateSwap.tgt 0 1).sluGet lateSwap.tgt 0 = 1 := by decide

/-- Refutes O51: its clause about SFETCH, and likewise the one about SCAS, is of every command, also of one whose value is marked
`late`, which the clauses about CREAD and CMERGE leave out. Such a command performs with 0 in the place of its value; no body of the
sluice's commands makes one. -/
theorem not_seedsFillGenerators : ¬ Obligations.SeedsFillGenerators := by
  unfold Obligations.SeedsFillGenerators
  rintro ⟨-, -, -, -, -, -, -, helement, -⟩
  obtain ⟨-, hperforms⟩ := helement State.reset lateSwap rfl
  obtain ⟨hsfetch, -⟩ := hperforms 0 rfl rfl
  have hclaim : (lateSwap.perform State.reset).s = State.reset.sluPut lateSwap.tgt 0 1 := congrArg SluRun.s (hsfetch 6 rfl)
  obtain ⟨hzero, hone⟩ := lateSwap_puts_differ
  rw [← hclaim, lateSwap_performs, hzero] at hone
  exact absurd hone (by decide)

end Sys2Proof.Machine
end

section
/-! PROOF. What an access of the control core finds in flight keeps the control registers, and where nothing is in flight or nothing has been
seen early it leaves the package as it is (R85, R88, R157). -/

namespace Sys2Proof.Machine

/-! ### The outlines after a load -/

theorem State.distinct_of_ordered {s : State} (h : s.ordered) : s.distinct := by
  obtain ⟨hrest, hcur⟩ := h
  exact State.distinct_iff.2 ⟨hcur, hrest.imp Nat.ne_of_lt⟩

/-- The focused core keeps its outline. -/
theorem State.keepsOutlines_cur {s u : State} (hs : s.distinct) (h : s.keepsOutlines u) :
    u.cur.outline = s.cur.outline := by
  obtain ⟨-, hp, hc⟩ := h hs
  have hn := hc s.cur.pcore
  rwa [State.coreAt_cur, ← hp, State.coreAt_cur] at hn

theorem State.keepsOutlines_ctl {s u : State} (hs : s.distinct) (h : s.keepsOutlines u) : u.ctl = s.ctl := by
  have hctl := congrArg (fun c : Core => c.task.ctl) (State.keepsOutlines_cur hs h)
  exact hctl

theorem State.keepsOutlines_showFor (s : State) (sp : Space) (a n : Nat) : s.keepsOutlines (s.showFor sp a n) := by
  unfold State.showFor
  refine State.keepsOutlines_trans (s.keepsOutlines_showAt _ _) (State.keepsOutlines_foldl (fun u m => ?_) _ _)
  exact State.keepsOutlines_onCore (fun v => v.keepsOutlines_showAt _ _) u m

theorem State.outlines_mapFlight (s : State) (e : EngId) (seq : Nat) (f : Flight → Flight) :
    (s.setEng e ((s.eng e).mapFlight seq f)).outlines = s.outlines := State.outlines_setEng rfl

/-- What a load finds of timed frames marks commands in flight and takes draws, and changes nothing else. -/
theorem State.outlines_pickSeen (here : Space → Nat → Bool) (l : List (EngId × Flight)) (later : List ((Nat × Space) × Nat))
    (found : List Found) (s : State) : (s.pickSeen here l later found).2.outlines = s.outlines := by
  induction l generalizing later found s with
  | nil => rfl
  | cons x t ih =>
    obtain ⟨e, f⟩ := x
    unfold State.pickSeen
    extract_lets ps mine under sure free first
    have hpick : (if (mine.any f.saw || (under || first) && sure) = true then (true, s)
        else if free = true then s.choose else (false, s)).2.outlines = s.outlines := by
      split_ifs <;> rfl
    generalize (if (mine.any f.saw || (under || first) && sure) = true then (true, s)
        else if free = true then s.choose else (false, s)) = r at hpick ⊢
    obtain ⟨whole, u⟩ := r
    dsimp only at hpick ⊢
    split_ifs
    · rw [ih, State.outlines_mapFlight]
      split
      · rw [State.outlines_drawsFor, hpick]
      · exact hpick
    · rw [ih]
      split
      · rw [State.outlines_drawsFor, hpick]
      · exact hpick
    · rw [ih, hpick]

theorem State.keepsOutlines_glimpse (s : State) (sp : Space) (a : Nat) : s.keepsOutlines (s.glimpse sp a).1 :=
  State.keepsOutlines_of_eq (State.outlines_pickSeen ..)

/-- A load keeps the outlines of every core. -/
theorem State.keepsOutlines_loaded (s : State) (sp : Space) (a n : Nat) :
    s.keepsOutlines ((s.showFor sp a n).glimpse sp a).1 :=
  State.keepsOutlines_trans (s.keepsOutlines_showFor sp a n) (State.keepsOutlines_glimpse _ sp a)

theorem State.loaded_eq (s : State) (sp : Space) (a n : Nat) :
    s.loaded sp a n = (((s.showFor sp a n).glimpse sp a).2.littleEndian sp a n, ((s.showFor sp a n).glimpse sp a).1) := by
  unfold State.loaded
  rw [State.littleEndian_eq_rdNat]

theorem State.keepsOutlines_behindSeen (s : State) (sp : Space) (a n : Nat) : s.keepsOutlines (s.behindSeen sp a n) :=
  State.keepsOutlines_trans (State.keepsOutlines_of_eq (s.outlines_behind _ a n)) (State.keepsOutlines_behindOthers _ _ a n)

/-! ### Nothing seen early, nothing in flight -/

theorem insertBy_perm {α : Type} (key : α → Nat) (x : α) (l : List α) : (insertBy key x l).Perm (x :: l) := by
  induction l with
  | nil => exact .rfl
  | cons y t ih =>
    unfold insertBy
    split
    · exact .rfl
    · exact (ih.cons y).trans (.swap x y t)

theorem orderBy_perm {α : Type} (key : α → Nat) (l : List α) : (orderBy key l).Perm l := by
  have hfold (l acc : List α) : (l.foldl (fun acc x => insertBy key x acc) acc).Perm (l.reverse ++ acc) := by
    induction l generalizing acc with
    | nil => exact .rfl
    | cons x t ih =>
      rw [List.reverse_cons, List.append_assoc]
      exact (ih _).trans ((insertBy_perm key x acc).append_left t.reverse)
  have h := hfold l []
  rw [List.append_nil] at h
  exact h.trans l.reverse_perm

/-- What is to land is in flight. -/
theorem State.mem_flight_of_mem_toLand {s : State} {x : EngId × Flight} (h : x ∈ s.toLand) :
    x.2 ∈ (s.eng x.1).flight := by
  obtain ⟨e, -, he⟩ := List.mem_flatMap.1 ((orderBy_perm ..).mem_iff.1 h)
  obtain ⟨f, hf, rfl⟩ := List.mem_map.1 he
  exact List.mem_of_mem_filter hf

theorem State.unseenAnywhere_of_still {s : State} (h : s.still) : s.unseenAnywhere := by
  intro c hc e f hf
  rw [h c hc e] at hf
  cases hf

theorem Core.ahead_eq_false {c : Core} (h : ∀ e, ∀ f ∈ (c.task.eng e).flight, f.seen = [] ∧ f.drew = false) :
    c.ahead = false := by
  have hsaw : c.sawAhead = false := by
    rw [Core.sawAhead, List.any_eq_false]
    intro e _ hany
    obtain ⟨f, hf, hseen⟩ := List.any_eq_true.1 hany
    simp [(h e f hf).1] at hseen
  rw [Core.ahead, hsaw, Bool.false_or, List.any_eq_false]
  exact fun f hf => by simp [(h .sluice f hf).2]

section
variable {s : State} (h : s.unseenAnywhere)
include h

theorem State.ahead_of_unseenAnywhere {c : Core} (hc : c ∈ s.cores) : c.ahead = false := Core.ahead_eq_false (h c hc)

theorem State.rest_unseen : ∀ c ∈ s.rest, c.ahead = false :=
  fun _ hc => State.ahead_of_unseenAnywhere h (List.mem_cons_of_mem _ hc)

theorem State.behind_unseen (k : Nat × Space) (a n : Nat) : s.behind k a n = s := by
  have hcur := h s.cur List.mem_cons_self
  have hseen : (s.toLand.filter fun x => x.2.seen.any fun y => s.home s.cur y.1 == k && y.2 == a / 64) = [] := by
    rw [List.filter_eq_nil_iff]
    intro x hx
    obtain ⟨hnone, -⟩ := hcur x.1 x.2 (State.mem_flight_of_mem_toLand hx)
    simp [hnone]
  have hdrew : ((s.eng .sluice).flight.filter fun f =>
      !f.timed && f.drew && ((s.eng .sluice).places f).any fun x => s.lies k a n x.1 x.2) = [] := by
    rw [List.filter_eq_nil_iff]
    intro f hf
    obtain ⟨-, hno⟩ := hcur .sluice f hf
    simp [hno]
  unfold State.behind
  rw [hseen]
  show s.behindDrawn k a n = s
  unfold State.behindDrawn
  rw [hdrew]
  rfl

/-- A store comes after nothing where no load has seen anything early. -/
theorem State.behindSeen_unseen (sp : Space) (a n : Nat) : s.behindSeen sp a n = s := by
  unfold State.behindSeen
  dsimp only
  rw [State.behind_unseen h, State.behindOthers_unseen (State.rest_unseen h)]

end

/-- With nothing in flight a load finds the package as it stands. -/
theorem State.loaded_still {s : State} (h : s.still) (sp : Space) (a n : Nat) :
    (s.showFor sp a n).glimpse sp a = (s, s) := by
  have hcur : ∀ e, (s.eng e).flight = [] := h s.cur List.mem_cons_self
  have hrest : ∀ c ∈ s.rest, c.inFlight = false := fun c hc => by
    simp [Core.inFlight, engines, h c (List.mem_cons_of_mem _ hc)]
  have hland : s.toLand = [] := by simp [State.toLand, engines, hcur, orderBy]
  rw [State.showFor_idle hcur hrest, State.glimpse, hland]
  exact congrArg (s, ·) (State.elsewhere_unseen (State.rest_unseen (State.unseenAnywhere_of_still h)))

end Sys2Proof.Machine
end

section
/-! PROOF. LD, LDA, ST, STL and their faults, NOP, PREF and FENCE (R75, R91, R151 to R157). -/

namespace Sys2Proof.Machine

/-! ### The address and the target of an access -/

/-- The address as the machine adds it up and as R151 states it. -/
theorem State.ea_eq_addressOf (s : State) (a x : BitVec 5) (sz : BitVec 2) {w : Nat} (off : BitVec w) :
    s.ea a x sz (off.signExtend 64) = s.addressOf a x sz off.toInt := by
  rw [State.ea, State.addressOf, BitVec.toNat_add, BitVec.toNat_add, BitVec.toNat_shiftLeft, Nat.shiftLeft_eq,
    BitVec.signExtend, BitVec.toNat_ofInt]
  have hshift : ((s.getG x).toNat : Int) * 2 ^ sz.toNat = ((s.getG x).toNat * 2 ^ sz.toNat : Nat) := by push_cast; rfl
  rw [hshift]
  generalize (s.getG x).toNat * 2 ^ sz.toNat = y
  omega

theorem State.target_align {s : State} {va n : Nat} (k : Acc) (h : va % n ≠ 0) :
    s.target va n k = (.trap { code := .align, addr := some va }, s) := by
  rw [State.target, if_pos (by simpa using h)]

section
variable {s : State} {va n : Nat} (h : va % n = 0)
include h

theorem State.target_nowhere (k : Acc) (hl : locate va = .none) :
    s.target va n k = (.trap { code := .notPresent, addr := some va }, s) := by
  rw [State.target, if_neg (by simp [h]), hl]

theorem State.target_timedState (k : Acc) {m o : Nat} (hl : locate va = .window (.far m) o) (ht : s.ctl.timedOpen = true) :
    s.target va n k = (.trap { code := .timedState, addr := some va }, s) := by
  rw [State.target, if_neg (by simp [h]), hl]
  dsimp only
  rw [if_pos ht]

theorem State.target_outside (k : Acc) {m o : Nat} (hl : locate va = .window (.far m) o) (ht : s.ctl.timedOpen = false)
    (hm : s.task.extent ≤ m) : s.target va n k = (.trap { code := .notPresent, addr := some va }, s) := by
  rw [State.target, if_neg (by simp [h]), hl]
  dsimp only
  rw [if_neg (by simp [ht]), if_pos hm]

theorem State.target_untranslated (k : Acc) {tr : Trap} {u : State} (hl : locate va = .virt)
    (ht : s.translate va k s.ctl.timedOpen = (.error tr, u)) : s.target va n k = (.trap tr, u) := by
  rw [State.target, if_neg (by simp [h]), hl]
  dsimp only
  rw [ht]

end

/-- Finding the target changes only what core and die hold of translations. -/
theorem State.heldOnly_of_target {s u : State} {va n : Nat} {k : Acc} {r : Target} (h : s.target va n k = (r, u)) :
    s.heldOnly u := by
  have hheld := s.target_heldOnly va n k
  rwa [h] at hheld

theorem State.heldOnly_distinct {s u : State} (h : s.heldOnly u) (hs : s.distinct) : u.distinct := by
  obtain ⟨tl, ic, n, xl, rfl⟩ := h
  exact hs

/-! ### The remote path (R75) -/

section
variable (s : State) (va : Nat) (k : State → Out) {sp : Space}

theorem State.remoteGate_local (h : sp.remote = false) : s.remoteGate sp va k = k s := by
  rw [State.remoteGate, h, if_neg Bool.false_ne_true]

theorem State.remoteGate_completes (h : sp.remote = true) (hr : s.ctl.remote = some va) :
    s.remoteGate sp va k = k (s.withCtl { s.ctl with remote := none, remoteAge := 0 }) := by
  rw [State.remoteGate, h, if_pos rfl, if_pos hr]

theorem State.remoteGate_starts (h : sp.remote = true) (hr : s.ctl.remote ≠ some va) :
    s.remoteGate sp va k = .next (s.withCtl { s.ctl with remote := some va, remoteAge := 0 }).waits := by
  rw [State.remoteGate, h, if_pos rfl, if_neg hr, State.wait_eq]

end

/-! ### Loads -/

/-- A two's-complement number of at least one bit, as the library has it. -/
theorem sgn_eq_bmod {w : Nat} (hw : 0 < w) (v : Nat) : sgn w v = Int.bmod v (2 ^ w) := by
  have hhalf : (2 ^ w + 1) / 2 = 2 ^ (w - 1) := by
    obtain ⟨k, rfl⟩ := Nat.exists_eq_succ_of_ne_zero hw.ne'
    rw [Nat.succ_sub_one, Nat.pow_succ]
    omega
  rw [sgn, Int.bmod_def, ← Int.natCast_emod, ← hhalf]
  generalize v % 2 ^ w = r
  split_ifs <;> omega

section
variable {s u : State} {va : Nat} {sz : BitVec 2} (d : BitVec 5) (sx : Bool)

theorem State.load_trap {tr : Trap} (h : s.target va (2 ^ sz.toNat) .load = (.trap tr, u)) :
    s.load d va sz sx = .next (u.trapHere tr) := by
  rw [State.load, h, ← State.fail_eq]

theorem State.load_held (h : s.target va (2 ^ sz.toNat) .load = (.held, u)) : s.load d va sz sx = .next u.waits := by
  rw [State.load, h, ← State.wait_eq]

theorem State.load_bad {sp : Space} {p b : Nat} (h : s.target va (2 ^ sz.toNat) .load = (.at_ sp p, u))
    (hb : u.badIn sp p (2 ^ sz.toNat) = some b) :
    s.load d va sz sx = .next (u.trapHere { code := .uncorrectable, addr := some (va + (b - p)) }) := by
  rw [State.load, h]
  dsimp only
  rw [State.readBad, hb, ← State.fail_eq]
  rfl

/-- What a load of `n` bytes does that has reached its target. -/
def State.loadAt (s : State) (d : BitVec 5) (sp : Space) (p n : Nat) (sx : Bool) : State :=
  let w := (s.showFor sp p n).glimpse sp p
  (w.1.setG d (if sx then BitVec.ofInt 64 (Int.bmod (w.2.littleEndian sp p n) (2 ^ (8 * n)))
    else BitVec.ofNat 64 (w.2.littleEndian sp p n))).retired (s.ctl.pc + 8)

theorem State.setG_ctl_pc (s : State) (d : BitVec 5) (v : Word) : (s.setG d v).ctl.pc = s.ctl.pc := by
  show (s.ctl.setG d v).pc = _
  rw [Ctl.setG_eq]

theorem State.load_reads {sp : Space} {p : Nat}
    (h : s.target va (2 ^ sz.toNat) .load = (.at_ sp p, u)) (hb : u.badIn sp p (2 ^ sz.toNat) = none) :
    ∃ k : State → Out, s.load d va sz sx = u.remoteGate sp va k ∧
      ∀ w : State, w.distinct → k w = .next (w.loadAt d sp p (2 ^ sz.toNat) sx) := by
  rw [State.load, h]
  dsimp only
  rw [State.readBad, hb]
  refine ⟨_, rfl, fun w hw => ?_⟩
  rw [State.loaded_eq]
  dsimp only
  rw [sgn_eq_bmod (by positivity), State.retire_eq, State.setG_ctl_pc,
    State.keepsOutlines_ctl hw (w.keepsOutlines_loaded sp p _)]
  rfl

end

/-! ### Stores -/

section
variable {s u : State} {va : Nat} {sz : BitVec 2} (d : BitVec 5)

theorem State.store_trap {tr : Trap} (h : s.target va (2 ^ sz.toNat) .store = (.trap tr, u)) :
    s.store d va sz = .next (u.trapHere tr) := by
  rw [State.store, h, ← State.fail_eq]

theorem State.store_held (h : s.target va (2 ^ sz.toNat) .store = (.held, u)) : s.store d va sz = .next u.waits := by
  rw [State.store, h, ← State.wait_eq]

theorem State.outlines_wrNat (s : State) (sp : Space) (a n v : Nat) : (s.wrNat sp a n v).outlines = s.outlines :=
  State.outlines_wrBytes s _

/-- What a store of `n` bytes does that has reached its target. -/
def State.storeAt (s : State) (d : BitVec 5) (sp : Space) (p n : Nat) : State :=
  ((s.behindSeen sp p n).wrNat sp p n (s.getG d).toNat).retired (s.ctl.pc + 8)

theorem State.store_writes {sp : Space} {p : Nat} (h : s.target va (2 ^ sz.toNat) .store = (.at_ sp p, u)) :
    ∃ k : State → Out, s.store d va sz = u.remoteGate sp va k ∧
      ∀ w : State, w.distinct → k w = .next (w.storeAt d sp p (2 ^ sz.toNat)) := by
  rw [State.store, h]
  refine ⟨_, rfl, fun w hw => ?_⟩
  have hkeeps := State.keepsOutlines_trans (w.keepsOutlines_behindSeen sp p (2 ^ sz.toNat))
    (State.keepsOutlines_of_eq (State.outlines_wrNat _ sp p (2 ^ sz.toNat) (w.getG d).toNat))
  rw [State.retire_eq, State.keepsOutlines_ctl hw hkeeps]
  rfl

end

/-! ### The obligations -/

theorem State.seesAhead_eq_false_iff (s : State) : s.seesAhead = false ↔ s.unseen := by
  simp only [State.seesAhead, Core.sawAhead, State.unseen, List.any_eq_false, Bool.not_eq_true, Bool.not_eq_false',
    List.isEmpty_iff]
  exact ⟨fun h e => h e (by cases e <;> decide), fun h e _ => h e⟩

/-- What follows waits only at a wide scope, for what a load has seen early. -/
theorem State.afterSeen_goes {s : State} {wide : Bool} (h : wide = false ∨ s.unseen) (k : State → Out) :
    s.afterSeen wide k = k s := by
  rw [← State.seesAhead_eq_false_iff, ← Bool.and_eq_false_iff] at h
  rw [State.afterSeen, h, if_neg Bool.false_ne_true]

theorem State.afterSeen_waits {s : State} {wide : Bool} (hw : wide = true) (h : ¬s.unseen) (k : State → Out) :
    s.afterSeen wide k = .next s.waits := by
  rw [← State.seesAhead_eq_false_iff, Bool.not_eq_false] at h
  rw [State.afterSeen, hw, h, Bool.and_self, if_pos rfl, State.wait_eq]

theorem exec_load {s : State} {q : Qual} (hq : s.holds q = true) {d a x : BitVec 5} {cls : BitVec 4} {scope : BitVec 3}
    {sz : BitVec 2} {sx : Bool} {mask : BitVec 16} {off : BitVec 26} {off10 : BitVec 10} {va : Nat} {i : Instr}
    (hi : (i = .ld q d a x cls sz sx off ∧ va = s.addressOf a x sz off.toInt) ∨
      (i = .lda q d a x cls scope sz sx mask off10 ∧ va = s.addressOf a x sz off10.toInt)) :
    exec i s = s.load d va sz sx := by
  obtain ⟨rfl, rfl⟩ | ⟨rfl, rfl⟩ := hi
  case inl =>
    show execLd q d a x cls sz sx off s = _
    rw [execLd, State.qualified_eq, if_pos hq, State.ea_eq_addressOf]
  case inr =>
    show execLda q d a x cls scope sz sx mask off10 s = _
    rw [execLda, State.qualified_eq, if_pos hq, State.ea_eq_addressOf]

theorem exec_stl {s : State} {q : Qual} (hq : s.holds q = true) (d a x : BitVec 5) (cls : BitVec 4) (scope : BitVec 3)
    (sz : BitVec 2) (mask : BitVec 16) (off : BitVec 10) :
    exec (.stl q d a x cls scope sz mask off) s
      = s.afterSeen (mask != 0 && scope != 0) fun s => s.store d (s.addressOf a x sz off.toInt) sz := by
  show execStl q d a x cls scope sz mask off s = _
  rw [execStl, State.qualified_eq, if_pos hq]
  simp only [State.ea_eq_addressOf]

theorem exec_store {s : State} {q : Qual} (hq : s.holds q = true) {d a x : BitVec 5} {cls : BitVec 4} {scope : BitVec 3}
    {sz : BitVec 2} {mask : BitVec 16} {off : BitVec 26} {off10 : BitVec 10} {va : Nat} {i : Instr}
    (hi : (i = .st q d a x cls sz off ∧ va = s.addressOf a x sz off.toInt) ∨
      (i = .stl q d a x cls scope sz mask off10 ∧ va = s.addressOf a x sz off10.toInt ∧
        (mask = 0 ∨ scope = 0 ∨ s.unseen))) :
    exec i s = s.store d va sz := by
  obtain ⟨rfl, rfl⟩ | ⟨rfl, rfl, hun⟩ := hi
  case inl =>
    show execSt q d a x cls sz off s = _
    rw [execSt, State.qualified_eq, if_pos hq, State.ea_eq_addressOf]
  case inr =>
    rw [← or_assoc] at hun
    rw [exec_stl hq, State.afterSeen_goes (hun.imp_left fun h => by simpa only [Bool.and_eq_false_iff, bne_eq_false_iff_eq] using h)]

/-- Settles O22: by the target of the access, and at a remote one by whether it has been issued. -/
theorem loadsAndStoresComplete : Obligations.LoadsAndStoresComplete := by
  unfold Obligations.LoadsAndStoresComplete
  refine ⟨?_, ?_, ?_⟩
  · intro s u q d a x cls scope sz sx mask off off10 sp p va i hs hq hi n
    rw [exec_load hq hi]
    refine ⟨fun tr h => State.load_trap d sx h, fun h => State.load_held d sx h,
      fun h => ⟨fun b hb => State.load_bad d sx h hb, fun hb => ?_⟩⟩
    have hheld := State.heldOnly_of_target h
    have hu := State.heldOnly_distinct hheld hs
    have hpc : u.ctl.pc = s.ctl.pc := congrArg Ctl.pc (State.heldOnly_ctl hheld)
    obtain ⟨k, hk, hdone⟩ := State.load_reads d sx h hb
    rw [hk, ← hpc]
    refine ⟨fun hr => ⟨?_, fun hst => State.loaded_still hst sp p n⟩,
      fun hr hva => ⟨?_, fun hst => State.loaded_still hst sp p n⟩, fun hr hva => ?_⟩
    · rw [State.remoteGate_local u va k hr]
      exact hdone u hu
    · rw [State.remoteGate_completes u va k hr hva]
      exact hdone _ hu
    · exact State.remoteGate_starts u va k hr hva
  · intro s u q d a x cls scope sz mask off off10 sp p va i hs hq hi n
    rw [exec_store hq hi]
    refine ⟨fun tr h => State.store_trap d h, fun h => State.store_held d h, fun h => ?_⟩
    have hheld := State.heldOnly_of_target h
    have hu := State.heldOnly_distinct hheld hs
    have hctl := State.heldOnly_ctl hheld
    have hpc : u.ctl.pc = s.ctl.pc := congrArg Ctl.pc hctl
    have hg : s.getG d = u.getG d := congrArg (fun c : Ctl => c.getG d) hctl.symm
    obtain ⟨k, hk, hdone⟩ := State.store_writes d h
    rw [hk, ← hpc, hg]
    refine ⟨fun hr => ⟨?_, fun hun => State.behindSeen_unseen hun sp p n⟩,
      fun hr hva => ⟨?_, fun hun => State.behindSeen_unseen hun sp p n⟩, fun hr hva => ?_⟩
    · rw [State.remoteGate_local u va k hr]
      exact hdone u hu
    · rw [State.remoteGate_completes u va k hr hva]
      exact hdone _ hu
    · exact State.remoteGate_starts u va k hr hva
  · intro s q d a x cls scope sz mask off hq hmask hscope hseen
    rw [exec_stl hq, State.afterSeen_waits (by rw [bne_iff_ne.2 hmask, bne_iff_ne.2 hscope]; rfl) hseen]

/-- Settles O24: the access goes to its target, whose checks stand in this order. -/
theorem accessFaults : Obligations.AccessFaults := by
  unfold Obligations.AccessFaults
  intro s q d a x cls sz off store hq va i
  have hexec {tr : Trap} {u : State}
      (h : s.target va (2 ^ sz.toNat) (if store then .store else .load) = (.trap tr, u)) :
      exec i s = .next (u.trapHere tr) := by
    cases store
    case false =>
      exact (exec_load (cls := cls) (scope := 0) (mask := 0) (off10 := 0) hq (.inl ⟨rfl, rfl⟩)).trans
        (State.load_trap d false h)
    case true =>
      exact (exec_store (cls := cls) (scope := 0) (mask := 0) (off10 := 0) hq (.inl ⟨rfl, rfl⟩)).trans
        (State.store_trap d h)
  refine ⟨fun h => hexec (State.target_align _ h), fun h => ⟨fun n o hl => ⟨fun hf ht => ?_, fun hf hn => ?_⟩,
    fun hl => hexec (State.target_nowhere h _ hl), fun tr u hl ht => hexec (State.target_untranslated h _ hl ht)⟩⟩
  · exact hexec (State.target_timedState h _ hl (by rw [Ctl.timedOpen, hf, ht]; rfl))
  · exact hexec (State.target_outside h _ hl (by rw [Ctl.timedOpen, hf]; rfl) hn)

/-- Settles O25: NOP and PREF retire whether they are squashed or not, and FENCE by whether a load has seen anything early. -/
theorem nopPrefetchFence : Obligations.NopPrefetchFence := by
  unfold Obligations.NopPrefetchFence
  intro s q a x off before after scope
  have hretire : (s.qualified q fun s => s.retire) = .next (s.retired (s.ctl.pc + 8)) := ite_self _
  have hfence : exec (.fence q before after scope) s
      = s.qualified q fun s => s.afterSeen (before != 0 && after != 0 && scope != 0) State.retire := rfl
  refine ⟨hretire, hretire, fun h => ?_, fun hq hb ha hs hun => ?_⟩
  · rw [hfence, State.qualified_eq]
    split
    next hq =>
      have hgo : (before != 0 && after != 0 && scope != 0) = false ∨ s.unseen := by
        simpa only [hq, Bool.true_eq_false, false_or, Bool.and_eq_false_iff, bne_eq_false_iff_eq, or_assoc] using h
      rw [State.afterSeen_goes hgo, State.retire_eq]
    next => rfl
  · rw [hfence, State.qualified_eq, if_pos hq,
      State.afterSeen_waits (by rw [bne_iff_ne.2 hb, bne_iff_ne.2 ha, bne_iff_ne.2 hs]; rfl) hun]

end Sys2Proof.Machine
end

section
/-! PROOF. XCALL: the fetch of its target, the push on the shadow stack, and the move to the target (R88, R89, R120, R158, R160). -/

namespace Sys2Proof.Machine

/-! ### The fetch of a transfer (R158, R160) -/

section
variable {s u : State} {j : BitVec 3}

theorem State.transferFetch_empty (h : (s.ctl.getJ j).st = .empty) :
    s.transferFetch j = (.error { code := .unprepared, addr := some (s.ctl.getJ j).taddr.toNat }, s) := by
  rw [State.transferFetch, h]

theorem State.transferFetch_ready (h : (s.ctl.getJ j).st = .ready) :
    s.transferFetch j = (.ok (s.ctl.getJ j).buf, s) := by
  rw [State.transferFetch, h]

variable (h : (s.ctl.getJ j).st = .fetching ∨ (s.ctl.getJ j).st = .stale)
include h

theorem State.transferFetch_fails {tr : Trap} (hp : s.prefetch (s.ctl.getJ j).taddr.toNat = (.error tr, u)) :
    s.transferFetch j = (.error { code := tr.code, addr := some (s.ctl.getJ j).taddr.toNat },
      u.setJ j ⟨(s.ctl.getJ j).taddr, .stale, []⟩) := by
  rw [State.transferFetch, hp]
  obtain h | h := h <;> rw [h]

theorem State.transferFetch_fetches {ws : List (Nat × Word)}
    (hp : s.prefetch (s.ctl.getJ j).taddr.toNat = (.ok ws, u)) :
    s.transferFetch j = (.ok ws, u.setJ j ⟨(s.ctl.getJ j).taddr, .ready, ws⟩) := by
  rw [State.transferFetch, hp]
  obtain h | h := h <;> rw [h]

end

/-! ### Entering a target -/

theorem State.enter_ctl (s : State) (va : Nat) (buf : List (Nat × Word)) :
    ∃ lo hi, (s.enter va buf).ctl = { s.ctl with clo := lo, chi := hi } := ⟨_, _, rfl⟩

theorem State.rdByte_enter (s : State) (va : Nat) (buf : List (Nat × Word)) (sp : Space) (a : Nat) :
    (s.enter va buf).rdByte sp a = s.rdByte sp a :=
  State.rdByte_withTask (s := s) (t := (s.enter va buf).task) rfl rfl rfl rfl rfl rfl sp a

/-! ### XCALL -/

/-- The link of a call stands at `pa`. -/
def State.pushed (u : State) (pa : Nat) : State :=
  (u.behindSeen .mem pa 8).wrNat .mem pa 8 (u.ctl.pc + 8).toNat

/-- SSP is lowered, G31 is the link, and control moves to the target. -/
def State.jumped (w : State) (link taddr : Word) (ws : List (Nat × Word)) : State :=
  (((w.withCtl { w.ctl with ssp := w.ctl.ssp - 8 }).setG 31 link).enter taddr.toNat ws).retired (taddr &&& ~~~7#64)

section
variable {s v : State} {j p : BitVec 3} {pn : Bool} (hq : s.holds ⟨p, pn⟩ = true)
include hq

theorem State.xcall_fault {tr : Trap} (h : s.transferFetch j = (.error tr, v)) :
    exec (.xcall j p pn) s = .next (v.trapHere tr) := by
  show execXcall j p pn s = _
  rw [execXcall, State.qualified_eq, if_pos hq, h, ← State.fail_eq]

variable {ws : List (Nat × Word)} (h : s.transferFetch j = (.ok ws, v))
include h

theorem State.xcall_pushFault {tr : Trap} {u : State} (hp : v.shadowPush = (.error tr, u)) :
    exec (.xcall j p pn) s = .next ((u.setJ j (s.ctl.getJ j)).trapHere
      { tr with addr := some (s.ctl.getJ j).taddr.toNat }) := by
  show execXcall j p pn s = _
  rw [execXcall, State.qualified_eq, if_pos hq, h]
  dsimp only
  rw [hp, ← State.fail_eq]

theorem State.xcall_pushes {pa : Nat} {u : State} (hp : v.shadowPush = (.ok pa, u)) :
    exec (.xcall j p pn) s = .next ((u.pushed pa).jumped (u.ctl.pc + 8) (s.ctl.getJ j).taddr ws) := by
  show execXcall j p pn s = _
  rw [execXcall, State.qualified_eq, if_pos hq, h]
  dsimp only
  rw [hp]
  dsimp only
  rw [State.retireTo_eq, State.jumped, State.pushed]

end

/-! ### What a call leaves -/

theorem State.rdByte_jumped (w : State) (link taddr : Word) (ws : List (Nat × Word)) (sp : Space) (a : Nat) :
    (w.jumped link taddr ws).rdByte sp a = w.rdByte sp a := by
  unfold State.jumped
  rw [State.retired_rdByte, State.rdByte_enter, State.setG_rdByte, State.rdByte_withCtl]

/-- The control registers but for G31, PC, SSP and the bounds of the code region stay. -/
theorem State.jumped_ctl (w : State) (link taddr : Word) (ws : List (Nat × Word)) :
    ∃ lo hi, (w.jumped link taddr ws).ctl = { Ctl.setG { w.ctl with ssp := w.ctl.ssp - 8 } 31 link with
      clo := lo, chi := hi, pc := taddr &&& ~~~7#64, waiting := false } :=
  ⟨_, _, State.retired_ctl ..⟩

theorem State.jumped_getG (w : State) (link taddr : Word) (ws : List (Nat × Word)) (g : BitVec 5) :
    (w.jumped link taddr ws).getG g = ((w.withCtl { w.ctl with ssp := w.ctl.ssp - 8 }).setG 31 link).getG g :=
  State.retired_getG ..

section
variable {w : State} (hw : w.canonical) (link taddr : Word) (ws : List (Nat × Word))
include hw

theorem State.jumped_getG_link : (w.jumped link taddr ws).getG 31 = link := by
  rw [State.jumped_getG]
  exact State.getG_setG_self (State.canonical_withCtl hw rfl rfl) (by decide) link

theorem State.jumped_getG_ne {g : BitVec 5} (hg : g ≠ 31) : (w.jumped link taddr ws).getG g = w.getG g := by
  rw [State.jumped_getG]
  exact State.getG_setG_ne (State.canonical_withCtl hw rfl rfl) hg link

end

theorem State.pushed_ctl {u : State} (hd : u.distinct) (pa : Nat) : (u.pushed pa).ctl = u.ctl :=
  State.keepsOutlines_ctl hd (State.keepsOutlines_trans (u.keepsOutlines_behindSeen .mem pa 8)
    (State.keepsOutlines_of_eq (State.outlines_wrNat ..)))

theorem State.canonical_pushed {u : State} (hc : u.canonical) (pa : Nat) : (u.pushed pa).canonical :=
  State.canonical_wrNat (State.canonical_behindSeen hc .mem pa 8) ..

theorem State.littleEndian_pushed {u : State} (hc : u.canonical) (pa : Nat) :
    (u.pushed pa).littleEndian .mem pa 8 = (u.ctl.pc + 8).toNat := by
  rw [State.littleEndian_eq_rdNat, State.pushed,
    State.rdNat_wrNat (State.canonical_behindSeen hc .mem pa 8) (by decide) rfl]
  exact Nat.mod_eq_of_lt (u.ctl.pc + 8).isLt

theorem State.sameBytesBut_pushed {u : State} (hc : u.canonical) (pa : Nat) :
    (u.behindSeen .mem pa 8).sameBytesBut (u.pushed pa) .mem pa 8 :=
  State.sameBytesBut_wrNat (State.canonical_behindSeen hc .mem pa 8) .mem pa 8 _

/-! ### The package after the fetch of a transfer -/

/-- Only the J registers and what core and die hold of translations and words can differ. -/
def State.fetchedFrom (s v : State) : Prop := ∃ u j, s.heldOnly u ∧ v = u.withCtl { u.ctl with j }

theorem State.fetchedFrom_refl (s : State) : s.fetchedFrom s := ⟨s, s.ctl.j, s.heldOnly_refl, rfl⟩

theorem State.fetchedFrom_setJ {s u : State} (h : s.heldOnly u) (j : BitVec 3) (r : JReg) : s.fetchedFrom (u.setJ j r) :=
  ⟨u, _, h, rfl⟩

theorem State.fetchedFrom_heldOnly {s v u : State} (h : s.fetchedFrom v) (hu : v.heldOnly u) : s.fetchedFrom u := by
  obtain ⟨w, j, ⟨tl, ic, n, xl, rfl⟩, rfl⟩ := h
  obtain ⟨tl', ic', n', xl', rfl⟩ := hu
  exact ⟨_, j, ⟨tl', ic', n', xl', rfl⟩, rfl⟩

section
variable {s v : State} (h : s.fetchedFrom v)
include h

theorem State.fetchedFrom_ctl : v.ctl = { s.ctl with j := v.ctl.j } := by
  obtain ⟨u, j, hu, rfl⟩ := h
  rw [← State.heldOnly_ctl hu]
  rfl

theorem State.fetchedFrom_lcn : v.task.lcn = s.task.lcn := by
  obtain ⟨u, j, ⟨tl, ic, n, xl, rfl⟩, rfl⟩ := h
  rfl

theorem State.fetchedFrom_sameBytes : s.sameBytes v := by
  obtain ⟨u, j, hu, rfl⟩ := h
  exact fun sp a => (State.rdByte_withCtl ..).trans (State.heldOnly_sameBytes hu sp a)

theorem State.fetchedFrom_distinct (hs : s.distinct) : v.distinct := by
  obtain ⟨u, j, hu, rfl⟩ := h
  exact (State.heldOnly_distinct hu hs : u.distinct)

theorem State.fetchedFrom_unseenAnywhere (hs : s.unseenAnywhere) : v.unseenAnywhere := by
  obtain ⟨u, j, ⟨tl, ic, n, xl, rfl⟩, rfl⟩ := h
  intro c hc e
  obtain rfl | hc := List.mem_cons.1 hc
  · have hcur := hs s.cur List.mem_cons_self e
    cases e <;> exact hcur
  · exact hs c (List.mem_cons_of_mem _ hc) e

end

/-- Bytes that are the same before are the same but for those that a write names. -/
theorem State.sameBytesBut_of_sameBytes {s u t : State} {sp : Space} {a n : Nat} (hlcn : u.task.lcn = s.task.lcn)
    (h : s.sameBytes u) (ht : u.sameBytesBut t sp a n) : s.sameBytesBut t sp a n := by
  intro sp' a' hne
  rw [← State.place_of_lcn hlcn] at hne
  exact (ht sp' a' hne).trans (h sp' a')

/-! ### The obligation -/

theorem State.shadowPush_limit {s : State} (h : s.ctl.ssp.toNat < s.ctl.shadowLo + 8) :
    s.shadowPush = (.error { code := .shadowLimit }, s) := if_pos h

theorem State.shadowPush_within {s : State} (h : s.ctl.shadowLo + 8 ≤ s.ctl.ssp.toNat) :
    s.shadowPush = s.shadowTarget (s.ctl.ssp.toNat - 8) .push := if_neg (Nat.not_lt.2 h)

theorem State.heldOnly_of_shadowTarget {s u : State} {va : Nat} {k : Acc} {r : Except Trap Nat}
    (h : s.shadowTarget va k = (r, u)) : s.heldOnly u := by
  have hheld := s.shadowTarget_heldOnly va k
  rwa [h] at hheld

theorem State.heldOnly_of_prefetch {s u : State} {va : Nat} {r : Except Trap (List (Nat × Word))}
    (h : s.prefetch va = (r, u)) : s.heldOnly u := by
  have hheld := s.prefetch_heldOnly va
  rwa [h] at hheld

/-- Settles O28: the state of the J register gives the fetch, and the shadow stack what becomes of the push. -/
theorem callPushesShadow : Obligations.CallPushesShadow := by
  unfold Obligations.CallPushesShadow
  intro s j p pn hcan hord hq r x goes
  have hs := State.distinct_of_ordered hord
  have hgoes : ∀ v ws, s.transferFetch j = (.ok ws, v) → s.fetchedFrom v → v.canonical → goes v := by
    intro v ws hfetch hv hvc
    have hctl := State.fetchedFrom_ctl hv
    have hssp : v.ctl.ssp = s.ctl.ssp := by rw [hctl]
    have hssl : v.ctl.ssl = s.ctl.ssl := by rw [hctl]
    have hlo : v.ctl.shadowLo = s.ctl.shadowLo := by rw [Ctl.shadowLo, hssl]; rfl
    refine ⟨fun hlt => ?_, fun hle => ⟨fun tr u hu => ?_, fun pa u hu => ?_⟩⟩
    · exact State.xcall_pushFault hq hfetch (State.shadowPush_limit (by rwa [hlo, hssp]))
    · exact State.xcall_pushFault hq hfetch ((State.shadowPush_within (by rwa [hlo, hssp])).trans (by rw [hssp]; exact hu))
    · have hpush : v.shadowPush = (.ok pa, u) :=
        (State.shadowPush_within (by rwa [hlo, hssp])).trans (by rw [hssp]; exact hu)
      have hheld := State.heldOnly_of_shadowTarget hu
      have hsu := State.fetchedFrom_heldOnly hv hheld
      have hud := State.fetchedFrom_distinct hsu hs
      have huc := State.heldOnly_canonical hheld hvc
      have huctl : u.ctl = { s.ctl with j := v.ctl.j } := (State.heldOnly_ctl hheld).trans hctl
      have hpctl := (State.pushed_ctl hud pa).trans huctl
      have hpc : u.ctl.pc = s.ctl.pc := by rw [huctl]
      have hcp := State.canonical_pushed huc pa
      obtain ⟨lo, hi, ht⟩ := State.jumped_ctl (u.pushed pa) (u.ctl.pc + 8) r.taddr ws
      rw [Ctl.setG_eq, hpctl] at ht
      have hbytes := State.rdByte_jumped (u.pushed pa) (u.ctl.pc + 8) r.taddr ws
      have hbut : (u.behindSeen .mem pa 8).sameBytesBut ((u.pushed pa).jumped (u.ctl.pc + 8) r.taddr ws) .mem pa 8 :=
        fun sp a hne => (hbytes sp a).trans (State.sameBytesBut_pushed huc pa sp a hne)
      refine ⟨_, State.xcall_pushes hq hfetch hpush, by rw [ht], by rw [ht], ?_, fun g hg => ?_, by rw [ht], by rw [ht],
        by rw [ht], ?_, hbut, fun hun => ?_⟩
      · rw [State.jumped_getG_link hcp, hpc]
      · rw [State.jumped_getG_ne hcp _ _ _ hg, State.getG, hpctl]
        rfl
      · rw [State.littleEndian_eq_rdNat, State.rdNat_congr (hbytes .mem), ← State.littleEndian_eq_rdNat,
          State.littleEndian_pushed huc, hpc]
      · have hsame := State.behindSeen_unseen (State.fetchedFrom_unseenAnywhere hsu hun) .mem pa 8
        rw [hsame] at hbut
        exact ⟨hsame, State.sameBytesBut_of_sameBytes (State.fetchedFrom_lcn hsu) (State.fetchedFrom_sameBytes hsu) hbut⟩
  refine ⟨fun h => State.xcall_fault hq (State.transferFetch_empty h),
    fun h => hgoes _ _ (State.transferFetch_ready h) s.fetchedFrom_refl hcan,
    fun h => ⟨fun u tr hu => State.xcall_fault hq (State.transferFetch_fails h hu), fun u ws hu => ?_⟩⟩
  have hheld := State.heldOnly_of_prefetch hu
  exact hgoes _ _ (State.transferFetch_fetches h hu) (State.fetchedFrom_setJ hheld _ _)
    (State.canonical_setJ (State.heldOnly_canonical hheld hcan) _ _)

end Sys2Proof.Machine
end

section
/-! PROOF. A step runs what is decoded at its place, and an instruction's word is the eight bytes that memory holds at its address (R13, R78
to R81, R85, R97, R126, R132). -/

namespace Sys2Proof.Machine

/-! ### Leaves lie in 64-byte lines (R79, R80) -/

theorem State.walkFrom_ok {s : State} {p : Partition} {va level table : Nat} {l : Leaf}
    (h : s.walkFrom p va level table = .ok l) : ∃ n e, l = leafOf n e := by
  induction level generalizing table with
  | zero =>
    unfold State.walkFrom at h
    dsimp only at h
    split_ifs at h
    exact ⟨_, _, (Except.ok.inj h).symm⟩
  | succ level ih =>
    unfold State.walkFrom at h
    dsimp only at h
    split_ifs at h
    · exact ⟨_, _, (Except.ok.inj h).symm⟩
    · exact ih h

theorem State.walk_ok {s : State} {va : Nat} {l : Leaf} (h : s.walk va = .ok l) : ∃ n e, l = leafOf n e := by
  unfold State.walk at h
  split at h
  · cases h
  · unfold State.walkIn at h
    split at h
    · cases h
    · next hleaf =>
      unfold State.leafIn at hleaf
      split_ifs at h hleaf
      obtain rfl := Except.ok.inj h
      exact State.walkFrom_ok hleaf

/-- A page and its physical address begin at multiples of 64. -/
theorem leafOf_mod_64 (n e va : Nat) : ((leafOf n e).pa + va % 2 ^ (leafOf n e).log2) % 64 = va % 64 := by
  have hpa : (leafOf n e).pa % 64 = 0 := by
    show fld e 8 44 * 2 ^ 8 % 64 = 0
    omega
  have hlog : 64 ∣ 2 ^ (leafOf n e).log2 := by
    show 2 ^ 6 ∣ 2 ^ pageLog2 n
    refine Nat.pow_dvd_pow 2 ?_
    unfold pageLog2
    split <;> decide
  rw [Nat.add_mod, hpa, Nat.mod_mod_of_dvd _ hlog, Nat.zero_add, Nat.mod_mod]

theorem State.judge_ok {s : State} {va pa : Nat} {k : Acc} {timed : Bool} {l : Leaf}
    (h : s.judge va k timed (.ok l) = .ok pa) : pa = l.pa + va % 2 ^ l.log2 := by
  unfold State.judge at h
  dsimp only at h
  split at h
  · cases h
  · split_ifs at h
    exact (Except.ok.inj h).symm

/-- What an access is translated to by a walk lies like its address in its 64 bytes. -/
theorem State.translate_mod_64 {s u : State} {va pa : Nat} {k : Acc} {timed : Bool} (hold : s.oldLeaf va = none)
    (h : s.translate va k timed = (.ok pa, u)) : pa % 64 = va % 64 := by
  have hleaf : s.leafFor va = (s.walk va, s) := by rw [State.leafFor, hold]
  rw [State.translate, hleaf] at h
  cases hw : s.walk va with
  | error c => rw [hw] at h; cases h
  | ok l =>
    obtain ⟨n, e, rfl⟩ := State.walk_ok hw
    rw [hw] at h
    cases hj : s.judge va k timed (.ok (leafOf n e)) with
    | error c => simp only [hj] at h; cases h
    | ok pa' =>
      simp only [hj] at h
      obtain rfl : pa' = pa := Except.ok.inj (Prod.mk.inj h).1
      rw [State.judge_ok hj, leafOf_mod_64]

/-! ### The instruction cache through a translation -/

theorem State.noteTlb_icache (s : State) (va : Nat) (l : Leaf) : (s.noteTlb va l).task.icache = s.task.icache := by
  unfold State.noteTlb
  dsimp only
  split_ifs <;> rfl

theorem State.leafFor_cur (s : State) (va : Nat) : (s.leafFor va).2.cur = s.cur := by
  unfold State.leafFor
  split <;> rfl

theorem State.translate_icache (s : State) (va : Nat) (k : Acc) (timed : Bool) :
    (s.translate va k timed).2.task.icache = s.task.icache := by
  have hcur : (s.leafFor va).2.task.icache = s.task.icache := congrArg (·.task.icache) (s.leafFor_cur va)
  unfold State.translate
  dsimp only
  split
  · exact (State.noteTlb_icache ..).trans hcur
  · exact hcur
  · exact hcur

/-! ### The word fetched -/

/-- A fetch that does not fault: its address is translated, and its eight bytes can be read. -/
theorem State.fetchAt_ok {s u : State} {va pa : Nat} (h : s.fetchAt va = (.ok pa, u)) :
    s.translate va .fetch false = (.ok pa, u) ∧ u.beheld.badIn .mem pa 8 = none := by
  unfold State.fetchAt at h
  split at h
  · split at h
    · cases h
    · next ht =>
      split at h
      · cases h
      · next hb =>
        cases h
        exact ⟨ht, Option.map_eq_none_iff.1 hb⟩
  · cases h

/-- The word at an address in memory's line of it. -/
theorem State.heldWord_memLine (s : State) {va pa : Nat} (hva : va % 8 = 0) (hmod : pa % 64 = va % 64)
    (hb : s.badIn .mem pa 8 = none) : heldWord (s.memLine va pa) va = BitVec.ofNat 64 (s.rdNat .mem pa 8) := by
  have hpa : pa / 64 * 64 + 8 * (va % 64 / 8) = pa := by omega
  have hfind : ((List.range 8).filter fun k => (s.badIn .mem (pa / 64 * 64 + 8 * k) 8).isNone).find?
      (fun k => va / 64 * 64 + 8 * k == va) = some (va % 64 / 8) := by
    rw [List.find?_filter, List.find?_range_eq_some]
    refine ⟨?_, by simp; omega, fun j hj => ?_⟩
    · simp [hpa, hb]
      omega
    · simp
      omega
  rw [heldWord, State.memLine, List.find?_map]
  simp only [Function.comp_def]
  rw [hfind]
  simp only [Option.map_some, Option.getD_some, hpa]

theorem State.rdNat_lt (s : State) (sp : Space) (a n : Nat) : s.rdNat sp a n < 2 ^ (8 * n) := by
  induction n generalizing a with
  | zero => simp [State.rdNat]
  | succ n ih =>
    have hbyte := (s.rdByte sp a).isLt
    have hrest := ih (a + 1)
    rw [State.rdNat, show 8 * (n + 1) = 8 + 8 * n by omega, Nat.pow_add]
    omega

/-- Where the instruction cache holds nothing of its line, the word fetched is memory's. -/
theorem State.fetchWord_uncached {u v : State} {pc pa : Nat} (hpc : pc % 8 = 0) (h : u.fetchAt pc = (.ok pa, v))
    (hmod : pa % 64 = pc % 64) (hcache : ∀ x ∈ u.task.icache, x.1 / 64 ≠ pc / 64) :
    ∃ w v', u.fetchWord pc = (.ok w, v') ∧ w.toNat = v.beheld.littleEndian .mem pa 8 := by
  obtain ⟨ht, hb⟩ := State.fetchAt_ok h
  have hic : v.task.icache = u.task.icache := by
    have hkeep := u.translate_icache pc .fetch false
    rwa [ht] at hkeep
  have hline : lineOf v.task.icache pc = [] := by
    rw [hic, lineOf, List.filter_eq_nil_iff]
    exact fun x hx => by simpa using hcache x hx
  have hnew : v.fetchLineAt pc pa = (v.beheld.memLine pc pa, v) := by
    simp only [State.fetchLineAt, hline, List.any_nil, Bool.not_false, Bool.true_or, if_true]
  refine ⟨heldWord (v.beheld.memLine pc pa) pc,
    v.withTask { v.task with icache := noteLine v.task.icache pc (v.beheld.memLine pc pa) }, ?_, ?_⟩
  · rw [State.fetchWord, h]
    dsimp only
    rw [hnew]
  · rw [State.heldWord_memLine _ hpc hmod hb, State.littleEndian_eq_rdNat, BitVec.toNat_ofNat]
    exact Nat.mod_eq_of_lt (State.rdNat_lt ..)

/-! ### The obligation -/

theorem step_move {s : State} {m : Move} {rest : List Move} (h : s.agenda = m :: rest) :
    step s = State.makeMove { s with agenda := rest } m := by
  show s.advance = _
  rw [State.advance, h]

/-- Executing runs what the word decodes to, and a word that does not decode raises ILLEGAL. -/
theorem State.execute_decoded (s : State) :
    (∀ i, decodeControl s.ctl.ir.toNat = .ok i → s.execute = exec i s) ∧
      ∀ e, decodeControl s.ctl.ir.toNat = .error e → s.execute = .next (s.trapHere { code := .illegal }) := by
  unfold State.execute
  refine ⟨fun i h => ?_, fun e h => ?_⟩
  · rw [h]
  · rw [h, ← State.fail_eq]

section
variable {s : State} (hrun : s.canRun = true)
include hrun

theorem State.controlMove_waiting (hwait : s.ctl.waiting = true) : s.controlMove = s.execute := by
  rw [State.controlMove, hrun, if_neg (by decide), if_pos hwait]

theorem State.controlMove_fetches {w : Word} {u : State} (hwait : s.ctl.waiting = false)
    (hlo : s.ctl.clo ≤ s.ctl.pc.toNat) (hhi : s.ctl.pc.toNat < s.ctl.chi)
    (hw : s.fetchWord s.ctl.pc.toNat = (.ok w, u)) :
    s.controlMove = (u.withCtl { u.ctl with ir := w }).execute := by
  have hin : ¬(decide (s.ctl.pc.toNat < s.ctl.clo) || decide (s.ctl.chi ≤ s.ctl.pc.toNat)) = true := by
    simp
    omega
  rw [State.controlMove, hrun, if_neg (by decide), if_neg (by simp [hwait]), State.fetchExecute]
  dsimp only
  rw [if_neg hin, hw]

end

/-- Settles O4: by the kind of the next move; a control core that does not wait fetches first. -/
theorem stepRunsDecoded : Obligations.StepRunsDecoded := by
  unfold Obligations.StepRunsDecoded
  intro s m rest hm
  rw [step_move hm]
  refine ⟨?_, ?_, ?_, ?_, ?_⟩
  · rintro c u rfl rfl hrun hwait hlo hhi w u' hw
    rw [State.makeMove, State.controlMove_fetches hrun hwait hlo hhi hw]
    exact (u'.withCtl { u'.ctl with ir := w }).execute_decoded
  · intro u v pc pa hpc h hold hcache
    have hmod : pa % 64 = pc % 64 := hold.elim (fun hnone => State.translate_mod_64 hnone (State.fetchAt_ok h).1) id
    obtain ⟨w, v', hword, hval⟩ := State.fetchWord_uncached hpc h hmod hcache
    exact ⟨w, v', hword, hmod, hval⟩
  · rintro c u rfl rfl hrun hwait i hi
    rw [State.makeMove, State.controlMove_waiting hrun hwait]
    exact (State.execute_decoded _).1 i hi
  · rintro c e u q i rfl rfl hq hi
    rw [State.makeMove, State.issueMove, hq]
    dsimp only
    rw [hi]
  · rintro c i rfl
    rfl

end Sys2Proof.Machine
end

section
/-! PROOF. Where two cores hold the same task of a launch, the pop of a RET can change a byte that nothing in flight is to write
(R20, R88, R89). -/

namespace Sys2Proof.Machine

/-! ### The counterexample -/

/-- Core 1 of `twins` with no matrix command, and a shadow stack whose page is mapped at address 0 (R79, R80, R120): byte 1 of its top is
the byte of memory that the flights of cores 1 and 2 write. -/
def popTwins : State :=
  let c := twinCore 1 1 [(0, 9)]
  { twins with
    cur := { c with task := { c.task with f := twinElastic } }
    parts := [fetchPart 0 0 0]
    mem := spSetMany emptyByte [] (numbered 0x80000000 (leBytes 8 0x80200001)
      ++ numbered 0x80200000 (leBytes 8 (2 ^ 57 + 0xF9))) }

theorem popTwins_canonical : popTwins.canonical := by
  unfold State.canonical Task.canonical
  decide

theorem popTwins_ordered : popTwins.ordered := by
  unfold State.ordered
  decide

/-- RET pops the top of the shadow stack; its byte 1 is found new, and so the timed command before it performs, beneath the later one:
that one's byte is put back at both cores as core 0 has it. -/
theorem popTwins_byte_after : byteAfter (.ret ⟨0, false⟩) popTwins .scr 0 = some 0 := by decide

theorem popTwins_byte_before : popTwins.rdByte .scr 0 = 9 := by decide

/-- Where all that is in flight is still to write memory, nothing in flight is to write a scratchpad. -/
theorem not_inFlightAt_scr_of_writes_memory {s : State} {a : Nat}
    (h : ∀ c ∈ s.cores, ∀ e, (c.task.eng e).reqs = [] ∧ ∀ f ∈ (c.task.eng e).flight, f.hasOp = false ∧
      ∀ w ∈ f.writes, w.mask ≠ 0 → w.sp = .mem) : ¬ s.inFlightAt .scr a := by
  rintro ⟨c, hc, e, -, hany⟩
  obtain ⟨hreqs, hflight⟩ := h c hc e
  obtain ⟨f, hf, hop⟩ | hr | ⟨f, hf, w, hw, hmask, -, p, hp, hcur⟩ := hany
  · obtain ⟨hno, -⟩ := hflight f hf
    exact Bool.false_ne_true (hno.symm.trans hop)
  · exact hr hreqs
  · obtain ⟨-, hmem⟩ := hflight f hf
    rw [hmem w hw hmask] at hp
    rw [List.mem_singleton.1 hp] at hcur
    obtain ⟨-, hsp⟩ := Prod.ext_iff.1 (List.mem_singleton.1 hcur)
    cases hsp

theorem popTwins_not_inFlightAt : ¬ popTwins.inFlightAt .scr 0 := by
  apply not_inFlightAt_scr_of_writes_memory
  intro c hc e
  cases e
  all_goals
    revert c
    decide

/-- Refutes O29: its hypotheses allow two cores that hold the same task of a launch. RET's pop finds an effect in flight performed, and
the effect of core 2 that performs beneath a later one puts the later one's byte back at both cores, as the first of them has it, so
that byte 0 of the other's scratchpad changes, which nothing in flight is to write. -/
theorem not_returnChecksShadow : ¬ Obligations.ReturnChecksShadow := by
  unfold Obligations.ReturnChecksShadow
  intro h
  obtain ⟨t, ht, hbyte⟩ := exists_next_of_byteAfter popTwins_byte_after
  obtain ⟨hnext, -⟩ := h popTwins ⟨0, false⟩ popTwins_canonical popTwins_ordered (by decide)
  obtain ⟨-, -, -, hbytes, -⟩ := hnext t ht
  obtain hsame | hshown := hbytes .scr 0
  · rw [hbyte, popTwins_byte_before] at hsame
    exact absurd hsame (by decide)
  · exact popTwins_not_inFlightAt hshown

end Sys2Proof.Machine
end

section
/-! PROOF. A landing command whose bytes come after a counter for which the sluice has drawn takes that command's further draws
(R94, R268, R279). -/

namespace Sys2Proof.Machine

/-! ### The counterexample -/

/-- A counter slot of one 4-bit level in byte 0 of the scratchpad, with K = 1 (R277 to R280). -/
def counterView : View := ⟨⟨0x7300000100018000, 0, 0, 0x2000000000, 0, 0, 0, 0⟩, 0⟩

/-- A slot of one INT32 element in the scratchpad of launch core 1 (R41). -/
def remoteView : View := ⟨⟨0x8050000100018000, 0x1000000, 0, 0, 0, 0, 0, 0⟩, 0⟩

/-- CINC of the counter, of which a draw has been taken before. -/
def drawnCount : SluOp := { SluOp.start .cinc [0] counterView View.none_ 1 with rise := [(7, 0)] }

/-- A command with an update of launch core 1, whose requests are done, and a write of the counter's byte. -/
def overCounter : Flight :=
  { twinFlight with
    timed := false, land := 0, writes := [⟨.scr, 0, 0xFF, 0⟩], op := .slu (SluOp.start .cinc [] remoteView View.none_ 0) }

/-- The counter stands at level 3, its command is in flight at the sluice, and the other command is due at the flume. -/
def countedOver : State :=
  let t := { Task.blank with sluGen := 1, scr := [(0, 3)] }
  { State.reset with
    cur := { Core.blank 0 with
      slot := .resident
      task := { t with
        f := { Eng.idle with cnt := 100, flight := [overCounter] }
        s := { Eng.idle with flight := [{ twinFlight with timed := false, op := .slu drawnCount }] } } } }

/-! ### What the model makes of it -/

/-- The sluice's generator after an instruction, if it answers a next state. -/
def sluGenAfter (i : Instr) (s : State) : Option (BitVec 32) :=
  match exec i s with
  | .next t => some t.task.sluGen
  | _ => none

/-- The flume's command lands after the counting of its byte, whose draw moves the generator. -/
theorem countedOver_draws : sluGenAfter (.commandLands .flume 0) countedOver = some (draw32 1) := by decide

theorem countedOver_distinct : countedOver.distinct := by
  unfold State.distinct
  decide

/-- Refutes O48: a command of the flume that holds an update of the sluice with a REMOTE target, and no seed for after it, lands on a
byte whose counting has drawn already. The counting comes first, and its draws leave the generator another value. -/
theorem not_commandsLand : ¬ Obligations.CommandsLand := by
  unfold Obligations.CommandsLand
  intro h
  obtain ⟨-, -, -, hdue⟩ := h countedOver .flume 0 overCounter (by decide)
  obtain ⟨-, -, -, hslu⟩ := hdue countedOver_distinct (by decide) (by decide)
  obtain ⟨-, hfar⟩ := hslu _ rfl rfl
  obtain ⟨t, ht, -, -, hgen⟩ := hfar (by decide)
  have hdraws := countedOver_draws
  rw [sluGenAfter, ht] at hdraws
  exact absurd (hgen.symm.trans (Option.some.inj hdraws)) (by decide)

end Sys2Proof.Machine
end

section
/-! PROOF. PRIME: what its walk of the list leaves alone, and how each entry takes the walk on (R165). -/

namespace Sys2Proof.Machine

/-! ### What PRIME's walk leaves alone -/

/-- From `s` to `u` the focused core keeps its control state and its pinned translations. -/
def State.keepsPins (s u : State) : Prop :=
  s.distinct → u.distinct ∧ u.ctl = s.ctl ∧ u.task.pins = s.task.pins

theorem State.keepsPins_refl (s : State) : s.keepsPins s := fun h => ⟨h, rfl, rfl⟩

theorem State.keepsPins_trans {s u v : State} (h : s.keepsPins u) (h' : u.keepsPins v) : s.keepsPins v := by
  intro hs
  obtain ⟨hu, hctl, hpins⟩ := h hs
  obtain ⟨hv, hctl', hpins'⟩ := h' hu
  exact ⟨hv, hctl'.trans hctl, hpins'.trans hpins⟩

theorem State.keepsPins_of_heldOnly {s u : State} (h : s.heldOnly u) : s.keepsPins u := by
  intro hs
  refine ⟨State.heldOnly_distinct h hs, State.heldOnly_ctl h, ?_⟩
  obtain ⟨tl, ic, n, xl, rfl⟩ := h
  rfl

theorem State.keepsPins_of_keepsOutlines {s u : State} (h : s.keepsOutlines u) : s.keepsPins u := by
  intro hs
  obtain ⟨hu, -, -⟩ := h hs
  have hpins := congrArg (fun c : Core => c.task.pins) (State.keepsOutlines_cur hs h)
  exact ⟨hu, State.keepsOutlines_ctl hs h, hpins⟩

theorem State.keepsPins_loaded (s : State) (sp : Space) (a n : Nat) : s.keepsPins (s.loaded sp a n).2 := by
  rw [State.loaded_eq]
  dsimp only
  exact State.keepsPins_of_keepsOutlines (s.keepsOutlines_loaded sp a n)

theorem State.keepsPins_loadWords (s : State) (n va : Nat) : s.keepsPins (s.loadWords n va).2 := by
  induction n generalizing s va with
  | zero => exact s.keepsPins_refl
  | succ n ih =>
    unfold State.loadWords
    split
    · exact State.keepsPins_of_heldOnly (State.heldOnly_of_target ‹_›)
    · exact State.keepsPins_of_heldOnly (State.heldOnly_of_target ‹_›)
    next sp a u htarget =>
      have hheld := State.keepsPins_of_heldOnly (State.heldOnly_of_target htarget)
      split
      · exact hheld
      · have hrest := State.keepsPins_trans hheld (State.keepsPins_trans (u.keepsPins_loaded sp a 8) (ih _ (va + 8)))
        dsimp only
        split
        next hwords => rwa [hwords] at hrest
        · exact hrest

theorem State.keepsPins_primeList (s : State) (n va : Nat) (ls : List (Nat × Leaf)) :
    s.keepsPins (s.primeList n va ls).2 := by
  induction n generalizing s va ls with
  | zero => exact s.keepsPins_refl
  | succ n ih =>
    have hload := s.keepsPins_loadWords 1 va
    unfold State.primeList
    split
    next hw => rwa [hw] at hload
    next hw => rwa [hw] at hload
    next ws u hw =>
      rw [hw] at hload
      dsimp only
      split
      · exact State.keepsPins_trans hload (ih u (va + 8) ls)
      · exact hload
      · have hleaf := State.keepsPins_trans hload (State.keepsPins_of_heldOnly (u.leafFor_heldOnly (ws.headD 0).toNat))
        split
        next hl => rwa [hl] at hleaf
        next hl => rw [hl] at hleaf; exact State.keepsPins_trans hleaf (ih _ (va + 8) _)

/-! ### One entry of the list -/

theorem State.leafFor_of_oldLeaf_eq_none {s : State} {va : Nat} (h : s.oldLeaf va = none) : s.leafFor va = (s.walk va, s) := by
  rw [State.leafFor, h]

theorem State.primeList_loadTrap {s u : State} {va : Nat} {tr : Trap} (h : s.loadWords 1 va = (.trap tr, u)) (n : Nat)
    (ls : List (Nat × Leaf)) : s.primeList (n + 1) va ls = (.trap tr, u) := by
  rw [State.primeList, h]

section
variable {s u : State} {va : Nat} {w : Word} {ws : List Word} (h : s.loadWords 1 va = (.words (w :: ws), u)) (n : Nat)
  (ls : List (Nat × Leaf))
include h

theorem State.primeList_window {sp : Space} {o : Nat} (hl : locate w.toNat = .window sp o) :
    s.primeList (n + 1) va ls = u.primeList n (va + 8) ls := by
  rw [State.primeList, h]
  dsimp only [List.headD_cons]
  rw [hl]

theorem State.primeList_nowhere (hl : locate w.toNat = .none) :
    s.primeList (n + 1) va ls = (.trap { code := .notPresent, addr := some w.toNat }, u) := by
  rw [State.primeList, h]
  dsimp only [List.headD_cons]
  rw [hl]

variable (hl : locate w.toNat = .virt) (hold : u.oldLeaf w.toNat = none)
include hl hold

theorem State.primeList_walkTrap {c : Code} (hw : u.walk w.toNat = .error c) :
    s.primeList (n + 1) va ls = (.trap { code := c, addr := some w.toNat }, u) := by
  rw [State.primeList, h]
  dsimp only [List.headD_cons]
  rw [hl]
  dsimp only
  rw [State.leafFor_of_oldLeaf_eq_none hold, hw]

theorem State.primeList_pins {l : Leaf} (hw : u.walk w.toNat = .ok l) :
    s.primeList (n + 1) va ls = u.primeList n (va + 8)
      (if ls.contains (l.base w.toNat, l) then ls else ls ++ [(l.base w.toNat, l)]) := by
  rw [State.primeList, h]
  dsimp only [List.headD_cons]
  rw [hl]
  dsimp only
  rw [State.leafFor_of_oldLeaf_eq_none hold, hw]
  rfl

end

/-- A list with an element added where it is not in it yet. -/
theorem mem_ite_contains_append {α : Type} [BEq α] [LawfulBEq α] (ls : List α) (x p : α) :
    p ∈ (if ls.contains x then ls else ls ++ [x]) ↔ p ∈ ls ∨ p = x := by
  split
  next hx =>
    have hmem : x ∈ ls := by simpa using hx
    exact ⟨Or.inl, fun h => h.elim id fun e => e ▸ hmem⟩
  · simp

/-! ### The instruction -/

theorem exec_prime {s : State} {q : Qual} (hq : s.holds q = true) (a b : BitVec 5) :
    exec (.prime q a b) s
      = if 256 < (s.getG b).toNat then .next (s.trapHere { code := .geometry })
        else if (s.getG a).toNat % 8 != 0 then .next (s.trapHere { code := .align, addr := some (s.getG a).toNat })
        else if s.ctl.timedOpen then .next (s.trapHere { code := .timedState })
        else match s.primeList (s.getG b).toNat (s.getG a).toNat [] with
          | (.trap tr, v) => .next (v.trapHere tr)
          | (.held, v) => .next v.waits
          | (.pins ls, v) => .next ((v.withTask { v.task with pins := ls }).retired (v.ctl.pc + 8)) := by
  show execPrime q a b s = _
  rw [execPrime, State.qualified_eq, if_pos hq]
  rfl

theorem State.retired_pins (s : State) (pc : Word) : (s.retired pc).task.pins = s.task.pins := by
  unfold State.retired
  dsimp only
  split <;> rfl

/-- Settles O41: PRIME's checks come in their order, and its walk keeps the control state and the pinned translations until it has
ended well. -/
theorem primePins : Obligations.PrimePins := by
  unfold Obligations.PrimePins
  refine ⟨fun s q a b hs hq => ?_, fun s u n va ls w ws => ⟨rfl, fun tr h => State.primeList_loadTrap h n ls, fun h =>
    ⟨fun sp o hl => State.primeList_window h n ls hl, fun hl => State.primeList_nowhere h n ls hl, fun hl hold =>
      ⟨fun c hw => State.primeList_walkTrap h n ls hl hold hw, fun l hw =>
        ⟨_, State.primeList_pins h n ls hl hold hw, fun p => mem_ite_contains_append ls _ p⟩⟩⟩⟩⟩
  dsimp only
  rw [exec_prime hq]
  refine ⟨fun hn => if_pos hn, fun hn ha => ?_, fun hn ha ht => ?_, fun hn ha ht => ?_⟩
  · rw [if_neg (Nat.not_lt.2 hn), if_pos (by simpa using ha)]
  · rw [if_neg (Nat.not_lt.2 hn), if_neg (by simp [ha]), Ctl.timedOpen, if_pos ht]
  · rw [if_neg (Nat.not_lt.2 hn), if_neg (by simp [ha]), Ctl.timedOpen, if_neg (by simp [ht])]
    have hkeeps := s.keepsPins_primeList (s.getG b).toNat (s.getG a).toNat [] hs
    refine ⟨fun v ls h => ?_, fun v tr h => ?_, fun v h => ?_, fun h0 => ?_⟩
    · rw [h] at hkeeps ⊢
      obtain ⟨-, hctl, -⟩ := hkeeps
      dsimp only at hctl ⊢
      rw [hctl]
    · rw [h] at hkeeps ⊢
      obtain ⟨-, hctl, hpins⟩ := hkeeps
      exact ⟨rfl, hpins, hctl⟩
    · rw [h] at hkeeps ⊢
      obtain ⟨-, -, hpins⟩ := hkeeps
      exact ⟨rfl, hpins⟩
    · rw [h0]
      exact ⟨_, rfl, State.retired_pins _ _⟩

end Sys2Proof.Machine
end

section
/-! PROOF. Shoot-down, the power words and exits, and the weir (R82, R83, R325 to R327). -/

namespace Sys2Proof.Machine

/-! ### Stores to memory leave the cores alone -/

theorem State.cores_wrByte_mem (s : State) {w : BWrite} (h : w.sp = .mem) : (s.wrByte w).cores = s.cores := by
  by_cases hm : w.mask = 0
  · rw [State.wrByte_none hm]
  · rw [State.wrByte_mem s h hm]
    rfl

theorem State.cores_foldl {α : Type} {f : State → α → State} {l : List α} (hf : ∀ (u : State), ∀ a ∈ l, (f u a).cores = u.cores)
    (s : State) : (l.foldl f s).cores = s.cores :=
  List.foldlRecOn (motive := fun u : State => u.cores = s.cores) l f rfl fun u hu a ha => (hf u a ha).trans hu

theorem State.cores_unmark_mem (s : State) {p : Space × Nat} (h : p.1 = .mem) : (s.unmark p).cores = s.cores := by
  unfold State.unmark
  rw [h]
  rfl

theorem State.cores_wrNat_mem (s : State) (a n v : Nat) : (s.wrNat .mem a n v).cores = s.cores := by
  have hbytes := State.cores_foldl (l := natWrites .mem a n v) (fun u w hw => u.cores_wrByte_mem (mem_natWrites hw).1) s
  unfold State.wrNat State.wrBytes State.unmarkAll
  split
  · exact hbytes
  · refine (State.cores_foldl (fun u p hp => u.cores_unmark_mem ?_) _).trans hbytes
    obtain ⟨w, hw, rfl⟩ := List.mem_map.1 hp
    exact (mem_natWrites (List.mem_of_mem_filter hw)).1

theorem State.cores_unpinImage (s : State) (lo hi addr : Nat) : (s.unpinImage lo hi addr).cores = s.cores := by
  unfold State.unpinImage
  refine State.cores_foldl (fun u k _ => ?_) s
  dsimp only
  split
  · exact u.cores_wrNat_mem ..
  · rfl

/-! ### Shoot-down (R83) -/

/-- A core without the translations of a range that a partition's tasks hold in its slots. -/
def Core.shotDown (c : Core) (part lo hi : Nat) : Core :=
  { c with
    task := if c.task.part = part then c.task.shotDown lo hi else c.task
    stagedTask := if c.stagedTask.part = part then c.stagedTask.shotDown lo hi else c.stagedTask }

/-- The state in which the translations of a range are gone from the cores and the saved contexts of a partition. -/
def State.shotDown (s : State) (part lo hi : Nat) : State :=
  (s.saved.filter fun e => (s.findLaunch e.2.lid).any fun l => l.part == part).foldl
    (fun s e => s.unpinImage lo hi e.1) (s.mapCores fun c => c.shotDown part lo hi)

theorem exec_shootdown (s : State) (part lo hi : Nat) :
    exec (.shootdown part lo hi) s
      = if (s.cores.any fun c => (c.slot != .empty && c.task.part == part) && c.task.blocksShootdown lo hi) = true then
          .next { s with shoots := ⟨part, lo, hi⟩ :: s.shoots.filter (· != ⟨part, lo, hi⟩) }
        else
          .next { s.shotDown part lo hi with
            shoots := s.shoots.filter (· != ⟨part, lo, hi⟩)
            xlat := s.xlat.filter fun x => !(x.part == part && x.base < hi && lo < x.base + 2 ^ x.leaf.log2) } := rfl

theorem State.cores_shotDown (s : State) (part lo hi : Nat) :
    (s.shotDown part lo hi).cores = s.cores.map fun c => c.shotDown part lo hi :=
  State.cores_foldl (fun u e _ => u.cores_unpinImage lo hi e.1) _

theorem Task.heldIn_shotDown {t : Task} {lo hi : Nat} {p : Nat × Leaf}
    (h : p ∈ (t.shotDown lo hi).tlb ∨ p ∈ (t.shotDown lo hi).pins) : heldIn lo hi p = false := by
  have hfilter {ls : List (Nat × Leaf)} (hp : p ∈ ls.filter fun p => !heldIn lo hi p) : heldIn lo hi p = false := by
    simpa using (List.mem_filter.1 hp).2
  exact h.elim hfilter hfilter

/-- Of two tasks, that of the partition holds no translation of the range any more. -/
theorem Task.heldIn_ite_shotDown {t : Task} {part lo hi : Nat} {p : Nat × Leaf}
    (hpart : (if t.part = part then t.shotDown lo hi else t).part = part)
    (h : p ∈ (if t.part = part then t.shotDown lo hi else t).tlb ∨ p ∈ (if t.part = part then t.shotDown lo hi else t).pins) :
    heldIn lo hi p = false := by
  split at h
  · exact Task.heldIn_shotDown h
  next hne => rw [if_neg hne] at hpart; exact absurd hpart hne

/-! ### Power (R325) -/

theorem exec_powerRequest_refused {s : State} {part : Nat} {host : Bool} {w : Word}
    (h : fld w.toNat 40 24 ≠ 0 ∨ 1 < fld w.toNat 32 8 ∨ (fld w.toNat 32 8 = 1 ∧ host = false) ∨
      (host = true ∧ s.hostLink = false)) : exec (.powerRequest part host w) s = .next s := by
  show execPowerRequest part host w s = _
  unfold execPowerRequest
  rw [if_pos]
  simpa [or_assoc] using h

theorem exec_powerRequest_tolerance {s : State} {part : Nat} {host : Bool} {w : Word} (hres : fld w.toNat 40 24 = 0)
    (hscope : fld w.toNat 32 8 = 0) (hlink : host = true → s.hostLink = true) :
    exec (.powerRequest part host w) s = .next (State.settlePower { s with
      parts := s.parts.map fun p => if p.id = part then { p with tolNs := fld w.toNat 0 32 } else p }) := by
  show execPowerRequest part host w s = _
  unfold execPowerRequest
  rw [if_neg, if_neg (by omega)]
  simpa [hres, hscope] using hlink

/-- A package with a task on a core fits no state deeper than S0. -/
theorem State.deepest_of_resident {s : State} (h : ∃ c ∈ s.cores, c.slot ≠ .empty) : s.deepest = .s0 := by
  have hany : (s.cores.any fun c => c.slot != .empty || c.staged != .empty) = true := by
    obtain ⟨c, hc, hslot⟩ := h
    exact List.any_eq_true.2 ⟨c, hc, by simp [hslot]⟩
  unfold State.deepest
  dsimp only
  rw [hany, Bool.or_true, if_pos rfl]

theorem State.settlePower_of_resident {s : State} (h : ∃ c ∈ s.cores, c.slot ≠ .empty) (hp : s.power = .s0) :
    s.settlePower = s ∨ s.settlePower = s.settleParts := by
  unfold State.settlePower
  rw [hp, State.deepest_of_resident h]
  split
  · exact .inl rfl
  · exact .inr rfl

theorem Partition.wake_id (p : Partition) (now : Nat) : (p.wake now).id = p.id := by
  unfold Partition.wake
  split <;> rfl

theorem Partition.wake_tolNs (p : Partition) (now : Nat) : (p.wake now).tolNs = p.tolNs := by
  unfold Partition.wake
  split <;> rfl

/-- Entering and leaving S1 changes no partition's number and tolerance. -/
theorem State.exists_of_mem_settleParts {s : State} {q : Partition} (h : q ∈ s.settleParts.parts) :
    ∃ p ∈ s.parts, q.id = p.id ∧ q.tolNs = p.tolNs := by
  obtain ⟨p, hp, rfl⟩ := List.mem_map.1 h
  refine ⟨p, hp, ?_⟩
  split
  · split
    · exact ⟨rfl, rfl⟩
    · exact ⟨p.wake_id _, p.wake_tolNs _⟩
  · split <;> exact ⟨rfl, rfl⟩

/-- A tolerance is set in the partitions with that number. -/
theorem tolNs_of_mem_map {ps : List Partition} {part tol : Nat} {p : Partition}
    (h : p ∈ ps.map fun p => if p.id = part then { p with tolNs := tol } else p) (hid : p.id = part) : p.tolNs = tol := by
  obtain ⟨q, -, rfl⟩ := List.mem_map.1 h
  split at hid
  next hq => rw [if_pos hq]
  next hq => exact absurd hid hq

theorem State.power_of_mem_formParts {s : State} {q : Partition} (h : q ∈ s.formParts) : q.power = .s0 := by
  obtain ⟨p, -, rfl⟩ := List.mem_map.1 h
  rfl

theorem exec_powerStateExit (s : State) :
    exec .powerStateExit s
      = if (s.exitAt.any fun c => decide (c ≤ s.now)) = true then
          if s.power = .s3 then
            .next { s with power := .s0, exitAt := none, parts := s.formParts, bootAt := s.now, bootReports := s.reportsOf none }
          else
            .next { s with
              power := .s0, exitAt := none, parts := s.parts.map fun p => { p with power := .s0, exitAt := none } }
        else .next { s with parts := s.wokenParts } := rfl

/-! ### The four parts -/

theorem State.shootdown_waits {s : State} {part lo hi : Nat}
    (h : (s.cores.any fun c => c.slot != .empty && c.task.part == part && c.task.blocksShootdown lo hi) = true) :
    ∃ t, exec (.shootdown part lo hi) s = .next t ∧ t.cur = s.cur ∧ t.rest = s.rest ∧ t.mem = s.mem ∧
      t.xlat = s.xlat ∧ t.shoots = ⟨part, lo, hi⟩ :: s.shoots.filter (· != ⟨part, lo, hi⟩) := by
  rw [exec_shootdown, if_pos h]
  exact ⟨_, rfl, rfl, rfl, rfl, rfl, rfl⟩

theorem State.shootdown_completes {s : State} {part lo hi : Nat}
    (h : (s.cores.any fun c => c.slot != .empty && c.task.part == part && c.task.blocksShootdown lo hi) = false) :
    ∃ t, exec (.shootdown part lo hi) s = .next t ∧ t.shoots = s.shoots.filter (· != ⟨part, lo, hi⟩) ∧
      ((∀ e ∈ s.saved, ((s.findLaunch e.2.lid).any fun l => l.part == part) = false) → t.mem = s.mem) ∧
      (∀ x ∈ t.xlat, x.part = part → hi ≤ x.base ∨ x.base + 2 ^ x.leaf.log2 ≤ lo) ∧ ∀ c ∈ t.cores,
      (c.task.part = part → ∀ p, p ∈ c.task.tlb ∨ p ∈ c.task.pins → heldIn lo hi p = false) ∧
      (c.stagedTask.part = part → ∀ p, p ∈ c.stagedTask.tlb ∨ p ∈ c.stagedTask.pins → heldIn lo hi p = false) := by
  rw [exec_shootdown, h, if_neg Bool.false_ne_true]
  refine ⟨_, rfl, rfl, fun hsaved => ?_, fun x hx hpart => ?_, fun c hc => ?_⟩
  · have hnone : (s.saved.filter fun e => (s.findLaunch e.2.lid).any fun l => l.part == part) = [] :=
      List.filter_eq_nil_iff.2 fun e he => by rw [hsaved e he]; exact Bool.false_ne_true
    show (s.shotDown part lo hi).mem = s.mem
    rw [State.shotDown, hnone]
    rfl
  · have hout := (List.mem_filter.1 hx).2
    simp [hpart] at hout
    omega
  · replace hc : c ∈ (s.shotDown part lo hi).cores := hc
    rw [State.cores_shotDown] at hc
    obtain ⟨d, -, rfl⟩ := List.mem_map.1 hc
    exact ⟨fun hpart p hp => Task.heldIn_ite_shotDown hpart hp, fun hpart p hp => Task.heldIn_ite_shotDown hpart hp⟩

theorem State.powerRequest_resident {s : State} {part : Nat} {host : Bool} {w : Word} (hres : fld w.toNat 40 24 = 0)
    (hscope : fld w.toNat 32 8 = 0) (hlink : host = true → s.hostLink = true) (h : ∃ c ∈ s.cores, c.slot ≠ .empty)
    (hp : s.power = .s0) :
    ∃ t, exec (.powerRequest part host w) s = .next t ∧ t.power = .s0 ∧ t.cur = s.cur ∧ t.rest = s.rest ∧
      t.mem = s.mem ∧ ∀ q ∈ t.parts, q.id = part → q.tolNs = fld w.toNat 0 32 := by
  refine ⟨_, exec_powerRequest_tolerance hres hscope hlink, ?_⟩
  obtain heq | heq := State.settlePower_of_resident (s := { s with
    parts := s.parts.map fun p => if p.id = part then { p with tolNs := fld w.toNat 0 32 } else p }) h hp
  · rw [heq]
    exact ⟨hp, rfl, rfl, rfl, fun q hq hid => tolNs_of_mem_map hq hid⟩
  · rw [heq]
    refine ⟨hp, rfl, rfl, rfl, fun q hq hid => ?_⟩
    obtain ⟨p, hpm, hpid, hptol⟩ := State.exists_of_mem_settleParts hq
    rw [hptol]
    exact tolNs_of_mem_map hpm (hpid.symm.trans hid)

theorem State.powerStateExit_completes {s : State} {c : Nat} (hexit : s.exitAt = some c) (hc : c ≤ s.now) :
    ∃ t, exec .powerStateExit s = .next t ∧ t.power = .s0 ∧ t.exitAt = none ∧
      (∀ q ∈ t.parts, q.power = .s0) ∧ (s.power ≠ .s3 → t.parts.map (·.id) = s.parts.map (·.id)) := by
  rw [exec_powerStateExit, if_pos (by rw [hexit]; exact decide_eq_true hc)]
  by_cases h3 : s.power = .s3
  · rw [if_pos h3]
    exact ⟨_, rfl, rfl, rfl, fun q hq => State.power_of_mem_formParts hq, fun h => absurd h3 h⟩
  · rw [if_neg h3]
    refine ⟨_, rfl, rfl, rfl, fun q hq => ?_, fun _ => ?_⟩
    · obtain ⟨p, -, rfl⟩ := List.mem_map.1 hq
      rfl
    · rw [List.map_map]
      rfl

/-- Settles O58: a shoot-down keeps only what lies outside its range, and a resident task keeps the package from every deeper state. -/
theorem translationsPowerAndWeir : Obligations.TranslationsPowerAndWeir := by
  unfold Obligations.TranslationsPowerAndWeir
  refine ⟨fun s part lo hi => ⟨State.shootdown_waits, State.shootdown_completes⟩,
    fun s part host w => ⟨exec_powerRequest_refused, State.powerRequest_resident⟩,
    fun s => ⟨fun h => ?_, fun c hexit hc => State.powerStateExit_completes hexit hc⟩, fun s die d limit hwf hdie => ?_⟩
  · rw [exec_powerStateExit, if_neg]
    · exact ⟨_, rfl, rfl, rfl, rfl, rfl⟩
    · cases hexit : s.exitAt with
      | none => exact Bool.false_ne_true
      | some c => simpa using h c hexit
  · exact ⟨_, if_pos hdie, spGet_spSet_self hwf, fun k hk => spGet_spSet_ne hwf hk⟩

end Sys2Proof.Machine
end

section
/-! PROOF. The timeouts of remote accesses: what they do before the fault is raised raises none, and a stopped command leaves its element
and its tag in the restart entry (R75, R241, R242, R251). -/

namespace Sys2Proof.Machine

/-! ### Writes and deliveries raise no fault -/

theorem State.faults_foldl {α : Type} {f : State → α → State} (hf : ∀ (u : State) (a : α), (f u a).faults = u.faults)
    (l : List α) (s : State) : (l.foldl f s).faults = s.faults :=
  List.foldlRecOn (motive := fun u : State => u.faults = s.faults) l f rfl fun u hu a _ => (hf u a).trans hu

theorem State.faults_atHolder (s : State) (sp : Space) (f : Task → Task) : (s.atHolder sp f).faults = s.faults := by
  unfold State.atHolder
  split <;> rfl

@[simp] theorem State.wrByte_faults (s : State) (w : BWrite) : (s.wrByte w).faults = s.faults := by
  by_cases hm : w.mask = 0
  · rw [State.wrByte_none hm]
  · by_cases hsp : w.sp = .mem
    · rw [State.wrByte_mem s hsp hm]
    · rw [State.wrByte_holder s hsp hm, State.faults_atHolder]

@[simp] theorem State.unmark_faults (s : State) (p : Space × Nat) : (s.unmark p).faults = s.faults := by
  unfold State.unmark
  split
  · rfl
  · split <;> rfl
  · rfl

@[simp] theorem State.wrBytes_faults (s : State) (ws : List BWrite) : (s.wrBytes ws).faults = s.faults := by
  unfold State.wrBytes State.unmarkAll
  split
  · exact State.faults_foldl State.wrByte_faults ws s
  · rw [State.faults_foldl State.unmark_faults, State.faults_foldl State.wrByte_faults]

@[simp] theorem State.redPut_faults (s : State) (sp : Space) (x : RedElem) (v : Nat) : (s.redPut sp x v).faults = s.faults :=
  s.wrBytes_faults _

@[simp] theorem State.sluPut_faults (s : State) (v : View) (e code : Nat) : (s.sluPut v e code).faults = s.faults :=
  s.wrBytes_faults _

theorem State.scramble_faults (s : State) (r : Req) : (s.scramble r).faults = s.faults := by
  unfold State.scramble
  dsimp only
  split
  · refine State.faults_foldl (fun u x => ?_) _ s
    exact u.redPut_faults ..
  · exact s.redPut_faults ..
  · have hupdates (op : SluOp) (l : List Nat) := State.faults_foldl (fun (u : State) (e : Nat) =>
      show State.faults { u.sluPut op.tgt e (Config.freeWord u.fresh).toNat with fresh := u.fresh + 1 } = u.faults
        from u.sluPut_faults ..) l s
    split
    · refine (State.faults_foldl (fun u i => ?_) _ _).trans (hupdates _ _)
      split
      · exact u.sluPut_faults ..
      · rfl
    · exact hupdates _ _

theorem SluOp.deliver_faults (op : SluOp) (olds : List (Nat × Nat)) (s : State) : (op.deliver olds s).faults = s.faults := by
  unfold SluOp.deliver
  split
  · refine State.faults_foldl (fun u p => ?_) _ s
    exact (State.setEng_faults ..).trans (u.sluPut_faults ..)
  · refine State.faults_foldl (fun u p => ?_) _ s
    exact u.wrBytes_faults _

theorem State.deliverConfirmed_faults (s : State) (e : EngId) (f : Flight) : (s.deliverConfirmed e f).faults = s.faults := by
  unfold State.deliverConfirmed
  split
  · exact (State.setEng_faults ..).trans (SluOp.deliver_faults ..)
  · rfl

theorem State.rewind_faults (s : State) (op : FluOp) (gens : Sparse (BitVec 32)) : (s.rewind op gens).1.faults = s.faults := by
  unfold State.rewind
  split <;> rfl

theorem State.rewindSent_faults (s : State) (f : Flight) (k : Nat) : (s.rewindSent f k).1.faults = s.faults := by
  unfold State.rewindSent
  split
  · split
    · exact s.rewind_faults ..
    · rfl
  · rfl

theorem State.castSome_faults (f : Flight) (ends : List FluEnd) (k t : Nat) (ns : List Nat) (s : State) :
    (s.castSome f ends k t ns).1.faults = s.faults := by
  induction ns generalizing s with
  | nil => rfl
  | cons n ns ih => exact ih { s with fresh := s.fresh + 1 }

/-! ### A command that stops -/

theorem State.takeFault_eng (s : State) (st : StreamId) (tr : Trap) (pc w : Word) (n : Nat) (e : EngId) :
    (s.takeFault st tr pc w n).eng e = s.eng e := by
  cases e
  · exact State.takeFault_task_m ..
  · exact State.takeFault_task_f ..
  · exact State.takeFault_task_s ..

/-- A stopped command raises its fault, and the restart entry names its element and its tag. -/
theorem State.stopAt_spec (s : State) (e : EngId) (f : Flight) (tr : Trap) (ktag conf : BitVec 32) :
    ∃ r, (s.stopAt e f tr ktag conf).faults = s.faults ++ [r] ∧ fld r.w0.toNat 0 8 = tr.code.num ∧
      ((s.stopAt e f tr ktag conf).eng e).stopped = some f ∧
      ((s.stopAt e f tr ktag conf).eng e).restart = ⟨true, tr.applied, tr.elem.getD 0, ktag, conf⟩ := by
  unfold State.stopAt
  dsimp only
  rw [State.takeFault_eng, State.eng_setEng]
  exact ⟨_, State.takeFault_faults_eq .., faultRecord_code .., rfl, rfl⟩

/-! ### The control core (R75) -/

theorem State.remoteTimeout_control {s : State} {va : Nat} (hr : s.ctl.remote = some va) (hage : 14000000 ≤ s.ctl.remoteAge) :
    ∃ t r, exec (.remoteTimeout .control) s = .next t ∧ t.faults = s.faults ++ [r] ∧ fld r.w0.toNat 0 8 = 0x15 ∧
      r.w5 = BitVec.ofNat 64 va ∧ t.ctl.remote = none ∧ t.ctl.pc = s.ctl.pc ∧ t.ctl.g = s.ctl.g ∧ s.sameBytes t := by
  have hexec : exec (.remoteTimeout .control) s = .next ((s.withCtl { s.ctl with remote := none, remoteAge := 0 }).trapHere
      { code := .remoteTimeout, addr := some va }) := by
    show execRemoteTimeout .control s = _
    unfold execRemoteTimeout
    dsimp only
    rw [hr]
    exact if_pos hage
  refine ⟨_, _, hexec, State.takeFault_faults_eq .., faultRecord_code .., rfl, State.takeFault_ctl_remote ..,
    State.takeFault_ctl_pc .., State.takeFault_ctl_g .., fun sp a => ?_⟩
  rw [State.trapHere_rdByte, State.rdByte_withCtl]

/-! ### Plain remote commands (R241) -/

theorem Flight.lt_length_of_mem_cuts {f : Flight} {op : FluOp} {ends : List FluEnd} {k : Nat} (h : k ∈ f.cuts op ends) :
    k < ends.length := by
  have hk := List.mem_range.1 (List.mem_of_mem_filter h)
  split at hk
  · exact hk.trans_le (Nat.min_le_left ..)
  · exact hk

/-- A plain remote command that has timed out stops at one of the elements at which it can have stopped. -/
theorem State.cutRemote_eq_stopAt {s : State} (e : EngId) {f : Flight} {op : FluOp} {ends : List FluEnd}
    (hop : f.op = .flu op ends) (hcuts : f.cuts op ends ≠ []) :
    ∃ (u : State) (y : Flight) (tr : Trap) (k : Nat) (x : FluEnd), s.cutRemote e f = u.stopAt e y tr 0 0 ∧
      u.faults = s.faults ∧ tr.code = .remoteTimeout ∧ tr.elem = some x.k ∧ k ∈ f.cuts op ends ∧ ends[k]? = some x := by
  have hlen : 0 < (f.cuts op ends).length := List.length_pos_of_ne_nil hcuts
  have hi : (Config.freeWord s.fresh).toNat % max (f.cuts op ends).length 1 < (f.cuts op ends).length := by
    rw [max_eq_left hlen]
    exact Nat.mod_lt _ hlen
  obtain ⟨k, hk⟩ : ∃ k, (f.cuts op ends)[(Config.freeWord s.fresh).toNat % max (f.cuts op ends).length 1]? = some k :=
    ⟨_, List.getElem?_eq_getElem hi⟩
  have hmem : k ∈ f.cuts op ends := List.mem_of_getElem? hk
  obtain ⟨x, hx⟩ : ∃ x, ends[k]? = some x := ⟨_, List.getElem?_eq_getElem (Flight.lt_length_of_mem_cuts hmem)⟩
  unfold State.cutRemote
  rw [hop]
  dsimp only
  rw [hk]
  dsimp only
  rw [hx]
  refine ⟨_, _, _, k, x, rfl, ?_, rfl, rfl, hmem, hx⟩
  rw [State.rewind_faults, State.wrBytes_faults]
  split
  · split
    · rfl
    · exact State.castSome_faults ..
  · rfl

theorem State.remoteTimeout_engine {s : State} {e : EngId} {f : Flight}
    (hf : (s.eng e).flight.find? (fun f => f.plainRemote && cycles8ms ≤ f.age) = some f) (hstop : (s.eng e).stopped = none)
    (hreach : s.reaches f = true) {op : FluOp} {ends : List FluEnd} (hop : f.op = .flu op ends) (hcuts : f.cuts op ends ≠ []) :
    ∃ t r, exec (.remoteTimeout (.engine e)) s = .next t ∧ t.faults = s.faults ++ [r] ∧ fld r.w0.toNat 0 8 = 0x15 ∧
      (t.eng e).stopped.isSome = true ∧ ∃ k x, k ∈ f.cuts op ends ∧ ends[k]? = some x ∧ (t.eng e).restart.elem = x.k := by
  have hexec : exec (.remoteTimeout (.engine e)) s = .next (s.cutRemote e f) := by
    show execRemoteTimeout (.engine e) s = _
    unfold execRemoteTimeout
    dsimp only
    rw [hf, hstop]
    exact if_pos hreach
  obtain ⟨u, y, tr, k, x, hcut, hu, htr, helem, hk, hx⟩ := State.cutRemote_eq_stopAt (s := s) e hop hcuts
  obtain ⟨r, hfaults, hcode, hstopped, hrestart⟩ := u.stopAt_spec e y tr 0 0
  rw [hcut] at hexec
  refine ⟨_, r, hexec, ?_, ?_, ?_, k, x, hk, hx, ?_⟩
  · rw [hfaults, hu]
  · rw [hcode, htr]
    rfl
  · rw [hstopped]
    rfl
  · rw [hrestart, helem]
    rfl

/-! ### Requests (R251) -/

/-- The one request of an engine has passed its 8 ms: its command stops. -/
theorem State.settleTimeout_of_lost {s : State} {e : EngId} {r : Req} {f : Flight} (hreqs : (s.eng e).reqs = [r])
    (hconf : r.confirmed = false) (hlost : r.lost = true) (hstop : (s.eng e).stopped = none)
    (hf : (s.eng e).flight.find? (fun x => x.seq == r.seq) = some f) :
    ∃ (u : State) (y : Flight) (tr : Trap) (conf : BitVec 32), s.settleTimeout e = u.stopAt e y tr r.tag conf ∧ u.faults = s.faults ∧ tr.code = .remoteTimeout := by
  have hfind : (s.eng e).reqs.find? (·.lost) = some r := by rw [hreqs, List.find?_cons_of_pos hlost]
  have hopen : ((s.eng e).reqs.filter fun x => !x.confirmed) = [r] := by rw [hreqs]; simp [hconf]
  have hwait : ((s.eng e).stopped.isSome || (s.eng e).window.any fun x => !x.lost && (x.applied || x.age != 0)) = false := by
    rw [hstop, Eng.window, hreqs, hstop]
    simp [hconf, hlost]
  have hscrambled (c : Prop) [Decidable c] (l : List Req) :
      (if c then l.foldl State.scramble s.choose.2 else s.choose.2).faults = s.faults := by
    split
    · exact State.faults_foldl State.scramble_faults l _
    · rfl
  unfold State.settleTimeout
  dsimp only
  rw [hfind]
  dsimp only
  rw [hwait, hopen, List.headD_cons, hf]
  refine ⟨_, _, _, _, rfl, ?_, rfl⟩
  rw [State.deliverConfirmed_faults]
  rw [if_neg (by exact Bool.false_ne_true), State.rewindSent_faults]
  exact hscrambled _ _

theorem State.requestTimeout_sole {s : State} {e : EngId} {tag : BitVec 32} {r : Req} {f : Flight}
    (hreqs : (s.eng e).reqs = [r]) (htag : r.tag = tag) (hconf : r.confirmed = false) (hlost : r.lost = false)
    (hage : 14000000 ≤ r.age) (hreach : s.reqReaches r = true) (hstop : (s.eng e).stopped = none)
    (hf : (s.eng e).flight.find? (fun x => x.seq == r.seq) = some f) :
    ∃ t x, exec (.putrRequestTimeout e tag) s = .next t ∧ t.faults = s.faults ++ [x] ∧ fld x.w0.toNat 0 8 = 0x15 ∧
      (t.eng e).stopped.isSome = true ∧ (t.eng e).restart.ktag = tag := by
  subst htag
  have hfind : (s.eng e).reqs.find? (fun x => x.tag == r.tag) = some r := by rw [hreqs]; simp
  have hexec : exec (.putrRequestTimeout e r.tag) s
      = .next ((s.setEng e ((s.eng e).setReq r.tag fun r => { r with lost := true })).settleTimeout e) := by
    show execPutrRequestTimeout e r.tag s = _
    unfold execPutrRequestTimeout
    dsimp only
    rw [hfind]
    dsimp only
    rw [hconf, hlost, hreach, hstop]
    exact if_pos (by simpa using decide_eq_true (p := cycles8ms ≤ r.age) hage)
  have hreqs' : ((s.eng e).setReq r.tag fun r => { r with lost := true }).reqs = [{ r with lost := true }] := by
    rw [Eng.setReq, hreqs, List.map_singleton, if_pos rfl]
  obtain ⟨u, y, tr, conf, hsettle, hu, htr⟩ := State.settleTimeout_of_lost (e := e) (r := { r with lost := true })
    (s := s.setEng e ((s.eng e).setReq r.tag fun r => { r with lost := true })) (f := f)
    (by rw [State.eng_setEng, hreqs']) hconf rfl (by rw [State.eng_setEng]; exact hstop) (by rw [State.eng_setEng]; exact hf)
  obtain ⟨x, hfaults, hcode, hstopped, hrestart⟩ := u.stopAt_spec e y tr r.tag conf
  rw [hsettle] at hexec
  refine ⟨_, x, hexec, ?_, ?_, ?_, ?_⟩
  · rw [hfaults, hu, State.setEng_faults]
  · rw [hcode, htr]
    rfl
  · rw [hstopped]
    rfl
  · rw [hrestart]

/-- Settles O54: each of the three timeouts raises its fault in the state whose other changes raise none. -/
theorem remoteTimeouts : Obligations.RemoteTimeouts := by
  unfold Obligations.RemoteTimeouts
  exact ⟨fun s va => State.remoteTimeout_control, fun s e f hf hstop hreach op ends => State.remoteTimeout_engine hf hstop hreach,
    fun s e tag r f => State.requestTimeout_sole⟩

end Sys2Proof.Machine
end

section
/-! PROOF. The sequencers: fetching, the frame's start, words without a listed opcode, and commands whose wait is cancelled (R13, R16,
R29, R196, R256, R285). -/

namespace Sys2Proof.Machine

/-! ### The engines where only held translations differ -/

theorem State.heldOnly_eng {s u : State} (h : s.heldOnly u) (e : EngId) : u.eng e = s.eng e := by
  obtain ⟨tl, ic, n, xl, rfl⟩ := h
  cases e <;> rfl

/-- Fetching a word changes only held translations. -/
theorem State.nextWord_heldOnly {s u : State} {e : EngId} {r : Except Trap Nat} (h : s.nextWord e = (r, u)) : s.heldOnly u := by
  unfold State.nextWord at h
  split at h
  · obtain ⟨-, rfl⟩ := Prod.ext_iff.1 h
    exact s.heldOnly_refl
  · have hheld := s.vread_heldOnly (s.eng e).pc .fetch 8
    rwa [h] at hheld

theorem State.nextWord_of_peek {s : State} {e : EngId} {w : Word} (h : (s.eng e).peek = some w) :
    s.nextWord e = (.ok w.toNat, s) := by
  rw [State.nextWord, h]

theorem State.nextWord_of_not_peek {s : State} {e : EngId} (h : (s.eng e).peek = none) :
    s.nextWord e = s.vread (s.eng e).pc .fetch 8 := by
  rw [State.nextWord, h]

/-- The word that the sequencer has read already, or the one that it fetches. -/
theorem State.nextWord_of_word {s : State} {e : EngId} {w : Word}
    (h : (s.eng e).peek = some w ∨
      ((s.eng e).peek = none ∧ ∃ n u, s.vread (s.eng e).pc .fetch 8 = (.ok n, u) ∧ w = BitVec.ofNat 64 n)) :
    ∃ n u, s.nextWord e = (.ok n, u) ∧ w = BitVec.ofNat 64 n := by
  obtain hpeek | ⟨hpeek, n, u, hread, hw⟩ := h
  · exact ⟨_, _, State.nextWord_of_peek hpeek, by rw [BitVec.ofNat_toNat, BitVec.setWidth_eq]⟩
  · exact ⟨n, u, (State.nextWord_of_not_peek hpeek).trans hread, hw⟩

/-! ### SEQUENCER_FETCH (R13) -/

theorem exec_sequencerFetch_idle {s : State} {e : EngId} (h : s.canFetch e = false) :
    exec (.sequencerFetch e) s = .next s := by
  show execSequencerFetch e s = _
  unfold execSequencerFetch
  dsimp only
  rw [h, if_neg Bool.false_ne_true]

section
variable {s : State} {e : EngId} (hcan : s.canFetch e = true)
include hcan

theorem exec_sequencerFetch_word (hlo : (s.eng e).rlo ≤ (s.eng e).pc) (hhi : (s.eng e).pc + 8 ≤ (s.eng e).rhi)
    {n : Nat} {u : State} (hnext : s.nextWord e = (.ok n, u)) :
    exec (.sequencerFetch e) s = if s.task.admits e (BitVec.ofNat 64 n) then
        .next (u.setEng e { u.eng e with
          queue := (s.eng e).queue ++ [⟨(s.eng e).pc, BitVec.ofNat 64 n⟩], pc := (s.eng e).pc + 8, peek := none })
      else .next (u.setEng e { u.eng e with peek := some (BitVec.ofNat 64 n) }) := by
  show execSequencerFetch e s = _
  unfold execSequencerFetch
  dsimp only
  rw [if_pos hcan, if_pos (by simp [hlo, hhi]), hnext]

theorem exec_sequencerFetch_refused (hlo : (s.eng e).rlo ≤ (s.eng e).pc) (hhi : (s.eng e).pc + 8 ≤ (s.eng e).rhi)
    {tr : Trap} {u : State} (hnext : s.nextWord e = (.error tr, u)) :
    exec (.sequencerFetch e) s = if s.fetchesNext e then
        .next (u.takeFault (.engine e) tr (BitVec.ofNat 64 (s.eng e).pc) 0 (s.eng e).seq)
      else .next u := by
  show execSequencerFetch e s = _
  unfold execSequencerFetch
  dsimp only
  rw [if_pos hcan, if_pos (by simp [hlo, hhi]), hnext]

theorem exec_sequencerFetch_outside (hhi : (s.eng e).rhi < (s.eng e).pc + 8) :
    exec (.sequencerFetch e) s = if ((s.eng e).queue.isEmpty && (s.eng e).started) = true then
        .next (s.takeFault (.engine e) (s.eng e).outside (BitVec.ofNat 64 (s.eng e).pc) 0 (s.eng e).seq)
      else .next s := by
  show execSequencerFetch e s = _
  unfold execSequencerFetch
  dsimp only
  rw [if_pos hcan, if_neg (by simp; omega)]

variable (hlo : (s.eng e).rlo ≤ (s.eng e).pc) (hhi : (s.eng e).pc + 8 ≤ (s.eng e).rhi)
include hlo hhi

/-- A word that may enter the queue enters it; any other is kept beside it. -/
theorem State.sequencerFetch_word {w : Word}
    (hw : (s.eng e).peek = some w ∨
      ((s.eng e).peek = none ∧ ∃ n u, s.vread (s.eng e).pc .fetch 8 = (.ok n, u) ∧ w = BitVec.ofNat 64 n)) :
    ∃ t, exec (.sequencerFetch e) s = .next t ∧ s.sameBytes t ∧ t.ctl = s.ctl ∧
      (s.task.admits e w = true → (t.eng e).queue = (s.eng e).queue ++ [⟨(s.eng e).pc, w⟩] ∧
        (t.eng e).pc = (s.eng e).pc + 8 ∧ (t.eng e).peek = none) ∧
      (s.task.admits e w = false → (t.eng e).queue = (s.eng e).queue ∧ (t.eng e).pc = (s.eng e).pc ∧
        (t.eng e).peek = some w) := by
  obtain ⟨n, u, hnext, rfl⟩ := State.nextWord_of_word hw
  have hheld := State.nextWord_heldOnly hnext
  have hframe (g : Eng) : s.sameBytes (u.setEng e g) ∧ (u.setEng e g).ctl = s.ctl := by
    obtain ⟨hbytes, hctl, -⟩ := State.setEng_frame u e g
    exact ⟨fun sp a => (hbytes sp a).trans (State.heldOnly_sameBytes hheld sp a), hctl.trans (State.heldOnly_ctl hheld)⟩
  rw [exec_sequencerFetch_word hcan hlo hhi hnext]
  by_cases hadmits : s.task.admits e (BitVec.ofNat 64 n) = true
  · rw [if_pos hadmits]
    refine ⟨_, rfl, (hframe _).1, (hframe _).2, fun _ => ?_, fun h => absurd (hadmits.symm.trans h) (by decide)⟩
    rw [State.eng_setEng]
    exact ⟨rfl, rfl, rfl⟩
  · rw [if_neg hadmits]
    refine ⟨_, rfl, (hframe _).1, (hframe _).2, fun h => absurd h hadmits, fun _ => ?_⟩
    rw [State.eng_setEng, State.heldOnly_eng hheld]
    exact ⟨rfl, rfl, rfl⟩

/-- A fetch that is refused faults only where its word is the next to be executed. -/
theorem State.sequencerFetch_refused (hpeek : (s.eng e).peek = none) {tr : Trap} {u : State}
    (hread : s.vread (s.eng e).pc .fetch 8 = (.error tr, u)) :
    (s.fetchesNext e = true →
      ∃ t r, exec (.sequencerFetch e) s = .next t ∧ t.faults = s.faults ++ [r] ∧ fld r.w0.toNat 0 8 = tr.code.num) ∧
    (s.fetchesNext e = false → exec (.sequencerFetch e) s = .next u) := by
  have hnext := (State.nextWord_of_not_peek hpeek).trans hread
  rw [exec_sequencerFetch_refused hcan hlo hhi hnext]
  refine ⟨fun h => ?_, fun h => ?_⟩
  · rw [if_pos h]
    have hfaults := State.takeFault_faults_eq u (.engine e) tr (BitVec.ofNat 64 (s.eng e).pc) 0 (s.eng e).seq
    rw [State.heldOnly_faults (State.nextWord_heldOnly hnext)] at hfaults
    exact ⟨_, _, rfl, hfaults, faultRecord_code ..⟩
  · rw [h, if_neg Bool.false_ne_true]

end

theorem Eng.outside_code (g : Eng) :
    g.outside.code.num = if g.rhi < g.rlo ∧ locate g.pc = .none then 0x0B else 0x09 := by
  unfold Eng.outside
  simp only [Bool.and_eq_true, decide_eq_true_eq, beq_iff_eq]
  split <;> rfl

/-- A word outside the region raises its fault where it is the next to be executed. -/
theorem State.sequencerFetch_outside {s : State} {e : EngId} (hcan : s.canFetch e = true)
    (hhi : (s.eng e).rhi < (s.eng e).pc + 8) :
    ((s.eng e).queue = [] → (s.eng e).started = true →
      ∃ t r, exec (.sequencerFetch e) s = .next t ∧ t.faults = s.faults ++ [r] ∧
        fld r.w0.toNat 0 8 = if (s.eng e).rhi < (s.eng e).rlo ∧ locate (s.eng e).pc = .none then 0x0B else 0x09) ∧
    ((s.eng e).queue ≠ [] → exec (.sequencerFetch e) s = .next s) := by
  rw [exec_sequencerFetch_outside hcan hhi]
  refine ⟨fun hqueue hstarted => ?_, fun hqueue => ?_⟩
  · rw [if_pos (by rw [hqueue, hstarted]; rfl)]
    exact ⟨_, _, rfl, State.takeFault_faults_eq .., (faultRecord_code ..).trans (Eng.outside_code _)⟩
  · rw [if_neg (by simp [hqueue])]

/-! ### The word that is the next to be executed (R33, R313) -/

theorem State.fetchesNext_of_empty {s : State} {e : EngId} (h : (s.eng e).queue = []) : s.fetchesNext e = (s.eng e).started := by
  unfold State.fetchesNext
  dsimp only
  rw [h]
  exact Bool.and_true _

theorem State.fetchesNext_of_not_started {s : State} {e : EngId} (h : (s.eng e).started = false) : s.fetchesNext e = false := by
  unfold State.fetchesNext
  dsimp only
  rw [h]
  exact Bool.false_and _

theorem State.fetchesNext_of_no_rep {s : State} {e : EngId} {q : QEnt} (hq : (s.eng e).queue.head? = some q)
    (hop : opOf q.word ≠ 0x71) : s.fetchesNext e = false := by
  unfold State.fetchesNext
  dsimp only
  rw [hq]
  simp [hop]

/-! ### FRAME_START (R16) -/

theorem exec_frameStart (s : State) (e : EngId) :
    exec (.frameStart e) s
      = if ((s.eng e).running && !(s.eng e).started && decide ((s.eng e).countdown = 0) && !s.task.parkAll && !s.task.saving)
          = true then .next (s.setEng e { s.eng e with started := true, cnt := 0 })
        else .next s := rfl

theorem State.frameStart_when_over {s : State} {e : EngId} (hrun : (s.eng e).running = true) (hstart : (s.eng e).started = false)
    (hpark : s.task.parkAll = false) (hsave : s.task.saving = false) :
    ((s.eng e).countdown = 0 → ∃ t, exec (.frameStart e) s = .next t ∧ (t.eng e).started = true ∧ (t.eng e).cnt = 0 ∧
      s.sameBytes t) ∧
    ((s.eng e).countdown ≠ 0 → exec (.frameStart e) s = .next s) := by
  rw [exec_frameStart, hrun, hstart, hpark, hsave]
  refine ⟨fun h0 => ?_, fun h0 => ?_⟩
  · rw [if_pos (by simp [h0])]
    obtain ⟨hbytes, -, -⟩ := State.setEng_frame s e { s.eng e with started := true, cnt := 0 }
    refine ⟨_, rfl, ?_, ?_, hbytes⟩
    all_goals rw [State.eng_setEng]
  · rw [if_neg (by simp [h0])]

/-! ### Words without a listed opcode (R196, R256, R285) -/

theorem exec_engineOpcodeNotListed (s : State) (e : EngId) (w : Word) :
    exec (.engineOpcodeNotListed e w) s
      = s.failFirst e .none (if 0x40 ≤ fld w.toNat 47 7 ∧ fld w.toNat 47 7 ≤ 0x5F then .unimpl else .illegal) := by
  show execEngineOpcodeNotListed e w s = _
  unfold execEngineOpcodeNotListed opOf
  simp only [Bool.and_eq_true, decide_eq_true_eq]

/-! ### CANCELLED_AT_HEAD (R29) -/

/-- The token of END completes, and nothing else changes. -/
theorem Eng.settle_toks (g : Eng) : g.settle = { g with toks := g.settle.toks } := by
  unfold Eng.settle
  split
  · split <;> rfl
  · rfl

theorem Eng.mem_settle_of_done {g : Eng} {k : Tok} (hk : k ∈ g.toks) (hdone : k.done = true) : k ∈ g.settle.toks := by
  have hcomplete (n : Nat) : k ∈ (g.complete n).toks := by
    refine List.mem_map.2 ⟨k, hk, ?_⟩
    split
    · rw [← hdone]
    · rfl
  unfold Eng.settle
  split
  · split
    · exact hcomplete _
    · exact hk
  · exact hk

/-- The engine once the head command `w` with stamp `S` has been cancelled: its token is done, and an END ends the stream. -/
def Eng.cancelHead (g : Eng) (w : Word) (S : Nat) : Eng :=
  let g' := { g.pop with
    seq := wrap48 (g.seq + 1), stamp := stampAfter w S, can := true, toks := ⟨g.seq, S, true, true⟩ :: g.toks }
  (if opOf w == 0x73 then { g' with running := false, ended := true, endSeq := some g.seq, queue := [] } else g').settle

theorem Eng.cancelHead_spec (g : Eng) (w : Word) (S : Nat) :
    (g.cancelHead w S).seq = wrap48 (g.seq + 1) ∧ (g.cancelHead w S).can = true ∧
      (g.cancelHead w S).stamp = stampAfter w S ∧ (g.cancelHead w S).flight = g.flight ∧
      ⟨g.seq, S, true, true⟩ ∈ (g.cancelHead w S).toks := by
  unfold Eng.cancelHead
  dsimp only
  rw [Eng.settle_toks]
  split
  all_goals
    refine ⟨rfl, rfl, rfl, ?_, Eng.mem_settle_of_done List.mem_cons_self rfl⟩
    rw [Eng.pop_eq]

theorem exec_cancelledAtHead {s : State} {e : EngId} {q : QEnt} (hq : (s.eng e).head = some q) (hmay : s.mayIssue e = true)
    (hcan : s.task.resolveAll e ((s.eng e).nextStamp (headAt q.word.toNat).idle.toNat) (s.eng e).seq
      ((s.eng e).waits (headAt q.word.toNat)) = .cancelled)
    (hstrict : (s.eng e).strict = true → (s.eng e).nextStamp (headAt q.word.toNat).idle.toNat ≤ (s.eng e).cnt)
    (hslot : (s.eng e).strict = false → s.task.headSlot e = true) :
    exec (.cancelledAtHead e) s
      = .next (s.setEng e ((s.eng e).cancelHead q.word ((s.eng e).nextStamp (headAt q.word.toNat).idle.toNat))) := by
  have hnow : (if (s.eng e).strict then decide ((s.eng e).nextStamp (headAt q.word.toNat).idle.toNat ≤ (s.eng e).cnt)
      else s.task.headSlot e) = true := by
    cases hs : (s.eng e).strict with
    | false => exact hslot hs
    | true => exact decide_eq_true (hstrict hs)
  show execCancelledAtHead e s = _
  unfold execCancelledAtHead
  dsimp only
  rw [hq]
  dsimp only
  rw [hmay, hcan, hnow, if_pos (by decide)]
  rfl

theorem stampAfter_of_not_idle {w : Word} (h : opOf w ≠ 0x70) (S : Nat) : stampAfter w S = S := by
  rw [stampAfter, if_neg (by simpa using h)]

theorem stampAfter_of_idle {w : Word} (h : opOf w = 0x70) (S : Nat) :
    stampAfter w S = (S + fld w.toNat 0 26) % 2 ^ 48 := by
  rw [stampAfter, if_pos (by simpa using h), wrap48]

/-- Settles O52: fetch, frame start, unlisted words and cancelled heads, each by what its event does in the case at hand. -/
theorem sequencersRun : Obligations.SequencersRun := by
  unfold Obligations.SequencersRun
  intro s e
  refine ⟨exec_sequencerFetch_idle, fun hcan hlo hhi w => State.sequencerFetch_word hcan hlo hhi,
    fun hcan hlo hhi hpeek tr u => State.sequencerFetch_refused hcan hlo hhi hpeek, State.fetchesNext_of_empty,
    State.fetchesNext_of_not_started, fun q => State.fetchesNext_of_no_rep, State.sequencerFetch_outside,
    State.frameStart_when_over, fun q w hq => ⟨fun h => ?_, fun h => ?_⟩, fun q hq hmay hcan hstrict hslot => ?_⟩
  · rw [exec_engineOpcodeNotListed, State.failFirst_of_ready _ hq h]
  · rw [exec_engineOpcodeNotListed, State.failFirst_of_wait _ hq h]
  · obtain ⟨hseq, hflag, hstamp, hflight, htok⟩ := (s.eng e).cancelHead_spec q.word
      ((s.eng e).nextStamp (headAt q.word.toNat).idle.toNat)
    obtain ⟨hbytes, hctl, -⟩ := State.setEng_frame s e
      ((s.eng e).cancelHead q.word ((s.eng e).nextStamp (headAt q.word.toNat).idle.toNat))
    refine ⟨_, exec_cancelledAtHead hq hmay hcan hstrict hslot, ?_⟩
    rw [State.eng_setEng]
    exact ⟨hseq, hflag, fun h => hstamp.trans (stampAfter_of_not_idle h _), fun h => hstamp.trans (stampAfter_of_idle h _),
      hflight, hbytes, hctl, State.setEng_faults .., _, htok, rfl, rfl, rfl, rfl⟩

end Sys2Proof.Machine
end

section
/-! PROOF. Boot, firmware update, attestation, code-object loads and scale-out frames (R116, R180, R314 to R316, R320 to R324). -/

namespace Sys2Proof.Machine

/-! ### Forming partitions (R320, R322) -/

theorem State.wholeQuads_iff {s : State} {p : Partition} :
    s.wholeQuads p = true ↔ ∀ c ∈ p.cores, c < s.coresPerPkg ∧ ∀ k, k < 4 → c / 4 * 4 + k ∈ p.cores := by
  have quad (P : Nat → Prop) : (P 0 ∧ P 1 ∧ P 2 ∧ P 3) ↔ ∀ k, k < 4 → P k :=
    ⟨fun ⟨h0, h1, h2, h3⟩ k hk => by interval_cases k <;> assumption,
      fun h => ⟨h 0 (by omega), h 1 (by omega), h 2 (by omega), h 3 (by omega)⟩⟩
  simp only [State.wholeQuads, List.all_eq_true, Bool.and_eq_true, decide_eq_true_eq, List.contains_eq_mem, List.forall_mem_cons,
    List.not_mem_nil, false_imp_iff, implies_true, and_true, ← quad]

theorem Partition.shares_eq_false_iff {p q : Partition} :
    q.shares p = false ↔ (∀ c ∈ p.cores, c ∉ q.cores) ∧ (∀ a ∈ p.appCores, a ∉ q.appCores) ∧
      ∀ x ∈ p.share, ∀ y ∈ q.share, x.2 ≤ y.1 ∨ y.2 ≤ x.1 := by
  have swap (l m : List Nat) : l.any m.contains = false ↔ ∀ c ∈ m, c ∉ l := by
    simp only [List.any_eq_false, List.contains_iff_mem]
    exact ⟨fun h c hm hl => h c hl hm, fun h c hl hm => h c hm hl⟩
  have apart : (q.share.any fun x => p.share.any fun y => decide (x.1 < y.2) && decide (y.1 < x.2)) = false ↔
      ∀ x ∈ p.share, ∀ y ∈ q.share, x.2 ≤ y.1 ∨ y.2 ≤ x.1 := by
    simp only [List.any_eq_false, Bool.and_eq_true, decide_eq_true_eq, List.any_eq_true, not_exists, not_and, not_lt]
    exact ⟨fun h x hx y hy => (lt_or_ge y.1 x.2).symm.imp_right (h y hy x hx),
      fun h y hy x hx hlt => (h x hx y hy).resolve_left (not_le.2 hlt)⟩
  rw [Partition.shares, Bool.or_eq_false_iff, Bool.or_eq_false_iff, swap, swap, apart, and_assoc]

/-- A partition as it joins those formed before it: at most 16 get a virtual function (R320). -/
def Partition.joining (done : List Partition) (p : Partition) : Partition :=
  { p with vf := p.vf && decide ((done.filter (·.vf)).length < 16) }

/-- A partition of whole units, none of them taken. -/
def State.canJoin (s : State) (done : List Partition) (p : Partition) : Prop :=
  s.wholeQuads p = true ∧ (∀ a ∈ p.appCores, a < 8 * s.dies) ∧ ∀ d ∈ done, p.shares d = false

theorem State.legalParts_cons_of_canJoin {s : State} {done : List Partition} {p : Partition} (h : s.canJoin done p)
    (ps : List Partition) : s.legalParts done (p :: ps) = s.legalParts (done ++ [p.joining done]) ps := by
  obtain ⟨hquads, happ, hfree⟩ := h
  rw [State.legalParts, if_pos]
  · rfl
  · simpa [hquads] using ⟨happ, hfree⟩

theorem State.legalParts_cons_of_not_canJoin {s : State} {done : List Partition} {p : Partition} (h : ¬s.canJoin done p)
    (ps : List Partition) : s.legalParts done (p :: ps) = s.legalParts done ps := by
  rw [State.legalParts, if_neg]
  simpa [State.canJoin, and_assoc] using h

/-- What every fitting partition keeps as it joins holds of all that are formed. -/
theorem State.legalParts_induction {s : State} {P : List Partition → Prop}
    (hjoin : ∀ done p, P done → s.canJoin done p → P (done ++ [p.joining done])) (ps : List Partition) {done : List Partition}
    (h : P done) : P (s.legalParts done ps) := by
  induction ps generalizing done with
  | nil => exact h
  | cons p ps ih =>
    by_cases hp : s.canJoin done p
    · rw [State.legalParts_cons_of_canJoin hp]
      exact ih (hjoin done p h hp)
    · rw [State.legalParts_cons_of_not_canJoin hp]
      exact ih h

theorem State.wholeQuads_of_mem_legalParts {s : State} {ps : List Partition} {p : Partition} (h : p ∈ s.legalParts [] ps) :
    s.wholeQuads p = true := by
  refine State.legalParts_induction (P := fun l => ∀ p ∈ l, s.wholeQuads p = true) (fun done p hdone hp => ?_) ps
    (List.forall_mem_nil _) p h
  rw [List.forall_mem_append, List.forall_mem_singleton]
  exact ⟨hdone, hp.1⟩

theorem State.legalParts_share_nothing (s : State) (ps : List Partition) :
    (s.legalParts [] ps).Pairwise fun p q => q.shares p = false := by
  refine State.legalParts_induction (P := List.Pairwise fun p q => q.shares p = false) (fun done p hdone hp => ?_) ps .nil
  obtain ⟨-, -, hfree⟩ := hp
  rw [List.pairwise_append]
  exact ⟨hdone, List.pairwise_singleton _ _, fun d hd q hq => List.mem_singleton.1 hq ▸ hfree d hd⟩

theorem State.legalParts_vf_le (s : State) (ps : List Partition) : ((s.legalParts [] ps).filter (·.vf)).length ≤ 16 := by
  refine State.legalParts_induction (P := fun l => (l.filter (·.vf)).length ≤ 16) (fun done p hdone _ => ?_) ps (by simp)
  rw [List.filter_append, List.length_append]
  by_cases hroom : (done.filter (·.vf)).length < 16
  · have hone := List.length_filter_le (·.vf) [p.joining done]
    rw [List.length_singleton] at hone
    omega
  · have hnone : [p.joining done].filter (·.vf) = [] := by simp [Partition.joining, hroom]
    rw [hnone]
    exact hdone

/-- A descriptor of whole units that share nothing is formed as it stands. -/
theorem State.legalParts_ids {s : State} {ps : List Partition}
    (hfit : ∀ p ∈ ps, s.wholeQuads p = true ∧ ∀ a ∈ p.appCores, a < 8 * s.dies)
    (hpair : ps.Pairwise fun p q => q.shares p = false) {done : List Partition}
    (hfree : ∀ p ∈ ps, ∀ d ∈ done, p.shares d = false) :
    (s.legalParts done ps).map (·.id) = done.map (·.id) ++ ps.map (·.id) := by
  induction ps generalizing done with
  | nil => rw [List.map_nil, List.append_nil]; rfl
  | cons p ps ih =>
    obtain ⟨hp, hps⟩ := List.forall_mem_cons.1 hfit
    obtain ⟨hfirst, hrest⟩ := List.pairwise_cons.1 hpair
    obtain ⟨hpfree, hpsfree⟩ := List.forall_mem_cons.1 hfree
    have hfree' : ∀ q ∈ ps, ∀ d ∈ done ++ [p.joining done], q.shares d = false := fun q hq => by
      rw [List.forall_mem_append, List.forall_mem_singleton]
      exact ⟨hpsfree q hq, hfirst q hq⟩
    rw [State.legalParts_cons_of_canJoin ⟨hp.1, hp.2, hpfree⟩, ih hps hrest hfree', List.map_append, List.append_assoc]
    rfl

theorem State.starts_iff {s : State} {p : Partition} :
    s.starts p = true ↔ p.image.edOk = true ∧ p.image.mlOk = true ∧ ∀ c ∈ p.cores, c ∉ s.coresFailed := by
  simp [State.starts, and_assoc]

/-! ### BOOT (R316, R322) -/

theorem exec_boot_recovery {s : State} (hoff : s.boot = .off) (hbad : s.verified s.flash = false) :
    exec .boot s = .next { s with boot := .recovery } := by
  show execBoot s = _
  rw [execBoot, if_neg (not_not_intro hoff), hbad, if_neg Bool.false_ne_true]

theorem exec_boot_running {s : State} (hoff : s.boot = .off) (hok : s.verified s.flash = true) :
    exec .boot s = .next { s with
      boot := .running, fw := s.flash, parts := s.formParts, bootAt := s.now, bootReports := s.reportsOf s.dumps.getLast?
      dumps := [] } := by
  show execBoot s = _
  rw [execBoot, if_neg (not_not_intro hoff), if_pos hok]

theorem State.running_iff_of_mem_formParts {s : State} {p : Partition} (h : p ∈ s.formParts) :
    p.running = true ↔ p.image.edOk = true ∧ p.image.mlOk = true ∧ ∀ c ∈ p.cores, c ∉ s.coresFailed := by
  obtain ⟨q, -, rfl⟩ := List.mem_map.1 h
  exact State.starts_iff

theorem State.quads_of_mem_formParts {s : State} {p : Partition} (h : p ∈ s.formParts) :
    ∀ c ∈ p.cores, c < s.coresPerPkg ∧ ∀ k, k < 4 → c / 4 * 4 + k ∈ p.cores := by
  obtain ⟨q, hq, rfl⟩ := List.mem_map.1 h
  exact State.wholeQuads_iff (p := q) |>.1 (State.wholeQuads_of_mem_legalParts hq)

theorem State.formParts_share_nothing (s : State) :
    s.formParts.Pairwise fun p q => (∀ c ∈ p.cores, c ∉ q.cores) ∧ (∀ a ∈ p.appCores, a ∉ q.appCores) ∧
      ∀ x ∈ p.share, ∀ y ∈ q.share, x.2 ≤ y.1 ∨ y.2 ≤ x.1 :=
  List.pairwise_map.2 ((s.legalParts_share_nothing s.bootParts).imp Partition.shares_eq_false_iff.1)

theorem State.formParts_vf_le (s : State) : (s.formParts.filter (·.vf)).length ≤ 16 := by
  rw [State.formParts, List.filter_map, List.length_map]
  exact s.legalParts_vf_le s.bootParts

theorem State.formParts_ids {s : State}
    (hfit : ∀ p ∈ s.bootParts, s.wholeQuads p = true ∧ ∀ a ∈ p.appCores, a < 8 * s.dies)
    (hpair : s.bootParts.Pairwise fun p q => q.shares p = false) : s.formParts.map (·.id) = s.bootParts.map (·.id) := by
  rw [State.formParts, List.map_map]
  exact State.legalParts_ids hfit hpair fun _ _ => List.forall_mem_nil _

theorem State.reportsOf_parts (s : State) (d : Option Dump) : (s.reportsOf d).map (·.part) = s.formParts.map (·.id) := by
  rw [State.reportsOf, List.map_map]
  rfl

theorem State.of_mem_reportsOf {s : State} {d : Option Dump} {r : BootReport} (h : r ∈ s.reportsOf d) :
    r.failed = s.coresFailed ∧ r.appCores = List.range (8 * s.dies) ∧ r.mgmtCores = List.range s.dies ∧ r.dump = d := by
  obtain ⟨p, -, rfl⟩ := List.mem_map.1 h
  exact ⟨rfl, rfl, rfl, rfl⟩

/-! ### FIRMWARE_UPDATE (R324) -/

theorem State.verified_iff {s : State} {i : SignedImage} :
    s.verified i = true ↔ i.edOk = true ∧ i.mlOk = true ∧ s.rollback ≤ i.version := by
  simp [State.verified, and_assoc]

theorem exec_firmwareUpdate_refused {s : State} {img : SignedImage}
    (h : img.version < s.rollback ∨ img.edOk = false ∨ img.mlOk = false) (cut : Bool) :
    exec (.firmwareUpdate img cut) s = .next s := by
  have hbad : s.verified img = false := by
    rw [Bool.eq_false_iff, Ne, State.verified_iff]
    rintro ⟨hed, hml, hver⟩
    obtain h | h | h := h
    · exact absurd hver (not_le.2 h)
    · exact Bool.false_ne_true (h.symm.trans hed)
    · exact Bool.false_ne_true (h.symm.trans hml)
  show execFirmwareUpdate img cut s = _
  rw [execFirmwareUpdate, hbad, if_pos (by simp)]

theorem exec_firmwareUpdate_verified {s : State} {img : SignedImage} (hrun : s.boot = .running) (hok : s.verified img = true)
    (cut : Bool) :
    exec (.firmwareUpdate img cut) s =
      if cut then
        .next { s with flash := ⟨img.version, Config.freeWord s.fresh, false, false⟩, fresh := s.fresh + 1 }
      else .next { s with flash := img, rollback := img.version } := by
  show execFirmwareUpdate img cut s = _
  rw [execFirmwareUpdate, hok, if_neg (by simp [hrun])]

/-! ### ATTESTATION_REQUEST (R323) -/

theorem exec_attestationRequest {s : State} {part : Nat} {p : Partition} {nonce : List Byte} (hrun : s.boot = .running)
    (hp : s.partOf part = some p) (hlen : nonce.length ≤ 64) :
    exec (.attestationRequest part nonce) s = .next { s with
      reports := s.reports ++ [⟨part, s.fw.measure, s.descriptor, p.image.measure, nonce, Config.freeWord s.fresh,
        Config.freeWord (s.fresh + 1)⟩]
      fresh := s.fresh + 2 } := by
  show execAttestationRequest part nonce s = _
  rw [execAttestationRequest, hp]
  dsimp only
  rw [if_neg (by simp [hrun, hlen])]

/-! ### CODE_OBJECT_LOAD (R116, R180) -/

/-- The two states differ in physical memory and its marks of bad data at most. -/
def State.memOnly (s u : State) : Prop := ∃ m b, u = { s with mem := m, badMem := b }

theorem State.memOnly_wrByte {s u : State} (h : s.memOnly u) {w : BWrite} (hw : w.sp = .mem) : s.memOnly (u.wrByte w) := by
  obtain ⟨m, b, rfl⟩ := h
  by_cases hm : w.mask = 0
  · rw [State.wrByte_none hm]
    exact ⟨m, b, rfl⟩
  · rw [State.wrByte_mem _ hw hm]
    exact ⟨_, b, rfl⟩

theorem State.memOnly_unmark {s u : State} (h : s.memOnly u) {p : Space × Nat} (hp : p.1 = .mem) : s.memOnly (u.unmark p) := by
  obtain ⟨m, b, rfl⟩ := h
  unfold State.unmark
  rw [hp]
  exact ⟨m, _, rfl⟩

/-- Writes to physical memory change nothing else. -/
theorem State.memOnly_wrBytes (s : State) {ws : List BWrite} (h : ∀ w ∈ ws, w.sp = .mem) : s.memOnly (s.wrBytes ws) := by
  have hbytes : s.memOnly (ws.foldl State.wrByte s) :=
    List.foldlRecOn (motive := s.memOnly) ws State.wrByte ⟨s.mem, s.badMem, rfl⟩ fun _ hu w hw => State.memOnly_wrByte hu (h w hw)
  unfold State.wrBytes State.unmarkAll
  split
  · exact hbytes
  · refine List.foldlRecOn (motive := s.memOnly) _ State.unmark hbytes fun _ hu p hp => State.memOnly_unmark hu ?_
    obtain ⟨w, hw, rfl⟩ := List.mem_map.1 hp
    exact h w (List.mem_of_mem_filter hw)

theorem State.memOnly_frame {s u : State} (h : s.memOnly u) : u.cores = s.cores ∧ u.rings = s.rings := by
  obtain ⟨m, b, rfl⟩ := h
  exact ⟨rfl, rfl⟩

@[simp] theorem State.cores_loaderPut (s : State) (part va : Nat) (bs : List Byte) : (s.loaderPut part va bs).cores = s.cores := by
  refine State.cores_foldl (fun u b _ => ?_) s
  split
  · exact (State.memOnly_frame (u.memOnly_wrBytes (by simp))).1
  · rfl

@[simp] theorem State.cores_loaderWord (s : State) (part va v : Nat) : (s.loaderWord part va v).cores = s.cores :=
  s.cores_loaderPut ..

@[simp] theorem State.cores_putRecords (s : State) (part dir : Nat) (os : List CodeObject) (k : Nat) (links : List Symbol) :
    (s.putRecords part dir os k links).cores = s.cores := by
  refine State.cores_foldl (fun u q _ => ?_) s
  rw [State.cores_loaderWord, State.cores_loaderWord]

@[simp] theorem State.cores_putTargets (s : State) (part dir : Nat) (os : List CodeObject) (o : CodeObject)
    (links : List Symbol) : (s.putTargets part dir os o links).cores = s.cores := by
  refine State.cores_foldl (fun u q _ => ?_) s
  split
  · exact u.cores_loaderWord ..
  · rfl

/-- A core as its partition's cores pass an invalidation point. -/
def Core.passPoint (part : Nat) (c : Core) : Core :=
  if c.slot != .empty && c.task.part = part then { c with task := c.task.invalidate 0 0 true } else c

theorem State.cores_invalidatePart (s : State) (part : Nat) :
    (s.invalidatePart part).cores = s.cores.map (Core.passPoint part) := rfl

theorem JReg.staled_st (r : JReg) : r.staled.st = .empty ∨ r.staled.st = .stale := by
  unfold JReg.staled
  split
  next h => exact .inl h
  next => exact .inr rfl

/-- Past its invalidation point a core of the partition has fetched nothing (R163). -/
theorem Core.passPoint_fetched_nothing {part : Nat} {c : Core} (hslot : (c.passPoint part).slot ≠ .empty)
    (hpart : (c.passPoint part).task.part = part) :
    (c.passPoint part).task.icache = [] ∧
      ∀ e ∈ (c.passPoint part).task.ctl.j, e.2.st = .empty ∨ e.2.st = .stale := by
  unfold Core.passPoint at *
  split
  · refine ⟨rfl, fun e he => ?_⟩
    obtain ⟨d, -, rfl⟩ := List.mem_map.1 he
    exact d.2.staled_st
  next hc =>
    rw [if_neg hc] at hslot hpart
    exact absurd (by simp [hslot, hpart]) hc

theorem Core.passPoint_frame (part : Nat) (c : Core) :
    (c.passPoint part).pcore = c.pcore ∧ (c.passPoint part).task.reg = c.task.reg ∧
      (c.passPoint part).task.ctl.g = c.task.ctl.g := by
  unfold Core.passPoint
  split <;> exact ⟨rfl, rfl, rfl⟩

/-- The object's bytes, its entries, its records and COUNT are in memory. -/
def State.placeObject (s : State) (part : Nat) (p : Partition) (o : CodeObject) : State :=
  let s := o.image.foldl (fun (s : State) b => s.loaderPut part b.1 b.2) s
  let s := o.links.foldl (fun (s : State) l => s.loaderWord part l.addr p.stub) s
  let s := s.putRecords part p.directory (p.objects ++ [o]) p.dirCount o.links
  if o.links.isEmpty then s else s.loaderWord part p.directory (p.dirCount + o.links.length)

/-- The definitions of a placed object serve the entries of their names (R180). -/
def State.serveEntries (s : State) (part : Nat) (p : Partition) (o : CodeObject) : State :=
  if servesEntry o (p.objects ++ [o]) then
    (s.invalidatePart part).putTargets part p.directory (p.objects ++ [o]) o (p.objects.flatMap (·.links))
  else s

theorem State.cores_placeObject (s : State) (part : Nat) (p : Partition) (o : CodeObject) :
    (s.placeObject part p o).cores = s.cores := by
  have himage (u : State) : (o.image.foldl (fun (s : State) b => s.loaderPut part b.1 b.2) u).cores = u.cores :=
    State.cores_foldl (fun v b _ => v.cores_loaderPut ..) u
  have hlinks (u : State) : (o.links.foldl (fun (s : State) l => s.loaderWord part l.addr p.stub) u).cores = u.cores :=
    State.cores_foldl (fun v l _ => v.cores_loaderWord ..) u
  unfold State.placeObject
  dsimp only
  split <;> simp only [State.cores_loaderWord, State.cores_putRecords, hlinks, himage]

theorem State.cores_serveEntries (s : State) (part : Nat) (p : Partition) (o : CodeObject) :
    (s.serveEntries part p o).cores
      = if servesEntry o (p.objects ++ [o]) then s.cores.map (Core.passPoint part) else s.cores := by
  unfold State.serveEntries
  split
  · rw [State.cores_putTargets, State.cores_invalidatePart]
  · rfl

theorem exec_codeObjectLoad_linked {s : State} {part : Nat} {p : Partition} {o : CodeObject} (hp : s.partOf part = some p)
    (h : ¬(s.loadEnd p o = .refused ∨ s.loadEnd p o = .conflict)) :
    exec (.codeObjectLoad part o) s = .next { (s.placeObject part p o).serveEntries part p o with
      parts := ((s.placeObject part p o).serveEntries part p o).parts.map fun q =>
        if q.id = part then
          { q with objects := p.objects ++ [o], dirCount := p.dirCount + o.links.length, lastLoad := (s.loadEnd p o).num }
        else q } := by
  show execCodeObjectLoad part o s = _
  unfold execCodeObjectLoad
  rw [hp]
  exact if_neg (by simpa using h)

/-- A load that conflicts or is refused leaves a note of its end alone. -/
theorem State.codeObjectLoad_refused {s : State} {part : Nat} {p : Partition} {o : CodeObject} (hp : s.partOf part = some p)
    (h : s.loadEnd p o = .refused ∨ s.loadEnd p o = .conflict) :
    ∃ t, exec (.codeObjectLoad part o) s = .next t ∧ t.mem = s.mem ∧ t.cur = s.cur ∧ t.rest = s.rest ∧
      t.parts.map (·.objects) = s.parts.map (·.objects) := by
  have hexec : exec (.codeObjectLoad part o) s = .next { s with
      parts := s.parts.map fun q => if q.id = part then { q with lastLoad := (s.loadEnd p o).num } else q } := by
    show execCodeObjectLoad part o s = _
    unfold execCodeObjectLoad
    rw [hp]
    exact if_pos (by simpa using h)
  refine ⟨_, hexec, rfl, rfl, rfl, ?_⟩
  dsimp only
  rw [List.map_map]
  refine List.map_congr_left fun q _ => ?_
  rw [Function.comp_apply]
  split <;> rfl

/-- Any other load adds its object, and its cores pass an invalidation point where its definitions serve entries. -/
theorem State.codeObjectLoad_linked {s : State} {part : Nat} {p : Partition} {o : CodeObject} (hp : s.partOf part = some p)
    (h : s.loadEnd p o = .ok ∨ s.loadEnd p o = .shadowed) :
    ∃ t, exec (.codeObjectLoad part o) s = .next t ∧ (∀ q ∈ t.parts, q.id = part → q.objects = p.objects ++ [o]) ∧
      t.cores = if servesEntry o (p.objects ++ [o]) then s.cores.map (Core.passPoint part) else s.cores := by
  have hlinked : ¬(s.loadEnd p o = .refused ∨ s.loadEnd p o = .conflict) := by
    obtain h | h := h <;> simp [h]
  have hcores := (s.placeObject part p o).cores_serveEntries part p o
  rw [State.cores_placeObject] at hcores
  refine ⟨_, exec_codeObjectLoad_linked hp hlinked, fun q hq hid => ?_, hcores⟩
  obtain ⟨r, -, rfl⟩ := List.mem_map.1 hq
  split at hid
  next hr => rw [if_pos hr]
  next hr => exact absurd hid hr

theorem State.codeObjectLoad_serving {s t : State} {part : Nat} (h : t.cores = s.cores.map (Core.passPoint part)) :
    (∀ c ∈ t.cores, c.slot ≠ .empty → c.task.part = part →
      c.task.icache = [] ∧ ∀ e ∈ c.task.ctl.j, e.2.st = .empty ∨ e.2.st = .stale) ∧
    ∀ c ∈ t.cores, ∃ d ∈ s.cores, c.pcore = d.pcore ∧ c.task.reg = d.task.reg ∧ c.task.ctl.g = d.task.ctl.g := by
  simp only [h, List.forall_mem_map]
  exact ⟨fun c _ => Core.passPoint_fetched_nothing, fun c hc => ⟨c, hc, c.passPoint_frame part⟩⟩

/-! ### SCALE_OUT_FRAME_RECEIVE (R321) -/

theorem exec_scaleOutFrameReceive_not_d4 {s : State} (h : s.d4 = false) (port : Nat) (pause : Bool) (data : List Byte) :
    exec (.scaleOutFrameReceive port pause data) s = .next s := by
  have hport : s.portUsable port = false := by rw [State.portUsable, h, Bool.false_and]
  show execScaleOutFrameReceive port pause data s = _
  unfold execScaleOutFrameReceive
  split
  · rfl
  · rw [hport, if_pos (by simp)]

theorem exec_scaleOutFrameReceive_usable {s : State} {port : Nat} {r : PortRing} {data : List Byte}
    (hr : s.rings.find? (fun r => r.port == port) = some r) (hport : s.portUsable port = true) (hlen : data.length ≤ 9216)
    (pause : Bool) :
    exec (.scaleOutFrameReceive port pause data) s
      = .next (if pause then s.putRing { r with paused := pauseMask data } else s.storeFrame r data) := by
  show execScaleOutFrameReceive port pause data s = _
  unfold execScaleOutFrameReceive
  rw [hr]
  dsimp only
  rw [hport, if_neg (by simp [hlen])]

/-- The writes that put bytes at physical addresses. -/
def memWrites (pas : List Nat) (bs : List Byte) : List BWrite := (pas.zip bs).map fun x => ⟨.mem, x.1, 0xFF, x.2⟩

theorem State.storeFrame_of_nmcBytes {s : State} {r : PortRing} {data : List Byte} {pas : List Nat}
    (h : s.nmcBytes r.part (r.rx + 0x2800 * r.rxAt) (leBytes 8 data.length ++ data).length = some pas) :
    s.storeFrame r data = (s.wrBytes (memWrites pas (leBytes 8 data.length ++ data))).putRing
      { r with rxAt := (r.rxAt + 1) % r.slots } := by
  unfold State.storeFrame ringSlot
  dsimp only
  rw [h]
  rfl

theorem length_of_mapM_eq_some {α β : Type} {f : α → Option β} (l : List α) {bs : List β} (h : l.mapM f = some bs) :
    bs.length = l.length := by
  induction l generalizing bs with
  | nil =>
    obtain rfl : [] = bs := by simpa using h
    rfl
  | cons a l ih =>
    simp only [List.mapM_cons, Option.bind_eq_bind, Option.bind_eq_some_iff, Option.pure_def, Option.some.injEq] at h
    obtain ⟨b, -, cs, hcs, rfl⟩ := h
    rw [List.length_cons, List.length_cons, ih hcs]

theorem State.length_nmcBytes {s : State} {part va n : Nat} {pas : List Nat} (h : s.nmcBytes part va n = some pas) :
    pas.length = n := (length_of_mapM_eq_some _ h).trans List.length_range

theorem State.putRing_rings (s : State) (r : PortRing) :
    (s.putRing r).rings = s.rings.map fun x => if x.port = r.port then r else x := rfl

theorem port_of_find? {rs : List PortRing} {port : Nat} {r : PortRing} (h : rs.find? (fun r => r.port == port) = some r) :
    r.port = port := by simpa using List.find?_some h

theorem map_at_memWrites {pas : List Nat} {bs : List Byte} (h : pas.length = bs.length) :
    (memWrites pas bs).map (·.at_) = pas := by
  rw [memWrites, List.map_map]
  exact List.map_fst_zip h.le

theorem mem_memWrites {pas : List Nat} {bs : List Byte} {w : BWrite} (h : w ∈ memWrites pas bs) :
    w.sp = .mem ∧ w.mask = 0xFF ∧ w.at_ ∈ pas := by
  obtain ⟨⟨a, b⟩, hx, rfl⟩ := List.mem_map.1 h
  exact ⟨rfl, rfl, (List.of_mem_zip hx).1⟩

theorem memWrites_at {pas : List Nat} {bs : List Byte} (hlen : pas.length = bs.length) {k a : Nat} (h : pas[k]? = some a) :
    ⟨.mem, a, 0xFF, bs.getD k 0⟩ ∈ memWrites pas bs := by
  obtain ⟨hk, -⟩ := List.getElem?_eq_some_iff.1 h
  have hb : bs[k]? = some (bs.getD k 0) := by
    rw [List.getD_eq_getElem?_getD, List.getElem?_eq_getElem (hlen ▸ hk)]
    rfl
  exact List.mem_map.2 ⟨(a, bs.getD k 0), List.mem_of_getElem? (List.getElem?_zip_eq_some.2 ⟨h, hb⟩), rfl⟩

/-- Whole bytes that go to distinct addresses of memory read back. -/
theorem State.rdByte_foldl_wrByte_self {s : State} (hs : s.canonical) {ws : List BWrite}
    (hmem : ∀ w ∈ ws, w.sp = .mem ∧ w.mask = 0xFF) (hdistinct : (ws.map (·.at_)).Nodup) {w : BWrite} (hw : w ∈ ws) :
    (ws.foldl State.wrByte s).rdByte .mem w.at_ = w.val := by
  induction ws generalizing s with
  | nil => cases hw
  | cons x ws ih =>
    obtain ⟨hx, hws⟩ := List.forall_mem_cons.1 hmem
    obtain ⟨hnew, hrest⟩ := List.nodup_cons.1 hdistinct
    have hs' := State.canonical_wrByte hs x
    obtain rfl | hw := List.mem_cons.1 hw
    · rw [List.foldl_cons, State.rdByte_foldl_wrByte_ne hs' fun y hy hplace => ?_]
      · obtain ⟨sp, a, mask, val⟩ := w
        obtain ⟨rfl, rfl⟩ := hx
        exact (State.rdByte_mem_wrByte hs a a val).trans (if_pos rfl)
      · obtain ⟨-, -, hat⟩ := (State.place_eq_iff ..).1 hplace
        exact hnew (List.mem_map.2 ⟨y, hy, hat.symm⟩)
    · exact ih hs' hws hrest hw

section
variable {s : State} (hs : s.canonical) {pas : List Nat} {bs : List Byte}
include hs

theorem State.rdByte_wrBytes_memWrites (hlen : pas.length = bs.length) (hdistinct : pas.Nodup) {k a : Nat}
    (h : pas[k]? = some a) : (s.wrBytes (memWrites pas bs)).rdByte .mem a = bs.getD k 0 := by
  rw [State.wrBytes, State.rdByte_unmarkAll]
  refine State.rdByte_foldl_wrByte_self hs (fun w hw => ?_) ?_ (memWrites_at hlen h)
  · exact ⟨(mem_memWrites hw).1, (mem_memWrites hw).2.1⟩
  · rwa [map_at_memWrites hlen]

theorem State.rdByte_wrBytes_memWrites_ne {a : Nat} (h : a ∉ pas) :
    (s.wrBytes (memWrites pas bs)).rdByte .mem a = s.rdByte .mem a := by
  rw [State.wrBytes, State.rdByte_unmarkAll]
  refine State.rdByte_foldl_wrByte_ne hs fun w hw hplace => ?_
  obtain ⟨-, -, hat⟩ := mem_memWrites hw
  obtain ⟨-, -, rfl⟩ := (State.place_eq_iff ..).1 hplace
  exact h hat

end

/-- A received frame fills the next slot of its port's receive ring, its length before it. -/
theorem State.scaleOutFrameReceive_stores {s : State} (hs : s.canonical) {port : Nat} {r : PortRing} {data : List Byte}
    (hr : s.rings.find? (fun r => r.port == port) = some r) (hport : s.portUsable port = true) (hlen : data.length ≤ 9216)
    {pas : List Nat}
    (hpas : s.nmcBytes r.part (r.rx + 0x2800 * r.rxAt) (leBytes 8 data.length ++ data).length = some pas)
    (hdistinct : pas.Nodup) :
    ∃ t, exec (.scaleOutFrameReceive port false data) s = .next t ∧ t.cur = s.cur ∧
      (∀ k a, pas[k]? = some a → t.rdByte .mem a = (leBytes 8 data.length ++ data).getD k 0) ∧
      (∀ a, a ∉ pas → t.rdByte .mem a = s.rdByte .mem a) ∧
      t.rings = s.rings.map fun x => if x.port = port then { r with rxAt := (r.rxAt + 1) % r.slots } else x := by
  refine ⟨_, exec_scaleOutFrameReceive_usable hr hport hlen false, ?_⟩
  rw [if_neg Bool.false_ne_true, State.storeFrame_of_nmcBytes hpas]
  have hframe := State.memOnly_frame (s.memOnly_wrBytes fun w hw => (mem_memWrites (pas := pas)
    (bs := leBytes 8 data.length ++ data) hw).1)
  refine ⟨(List.cons.inj hframe.1).1, fun k a hk => State.rdByte_wrBytes_memWrites hs (State.length_nmcBytes hpas) hdistinct hk,
    fun a ha => State.rdByte_wrBytes_memWrites_ne hs ha, ?_⟩
  rw [State.putRing_rings, port_of_find? hr, hframe.2]

/-- A flow-control frame pauses the priorities that it names. -/
theorem State.scaleOutFrameReceive_pauses {s : State} {port : Nat} {r : PortRing} {data : List Byte}
    (hr : s.rings.find? (fun r => r.port == port) = some r) (hport : s.portUsable port = true) (hlen : data.length ≤ 9216) :
    ∃ t, exec (.scaleOutFrameReceive port true data) s = .next t ∧ t.cur = s.cur ∧ t.mem = s.mem ∧
      t.rings = s.rings.map fun x => if x.port = port then { r with paused := pauseMask data } else x := by
  refine ⟨_, exec_scaleOutFrameReceive_usable hr hport hlen true, rfl, rfl, ?_⟩
  rw [if_pos rfl, State.putRing_rings, port_of_find? hr]

/-! ### The five parts -/

/-- A verified firmware runs, forms the partitions, and reports to each. -/
theorem State.boot_runs {s : State} (hoff : s.boot = .off) (hok : s.verified s.flash = true) :
    ∃ t, exec .boot s = .next t ∧ t.boot = .running ∧ t.fw = s.flash ∧ t.bootAt = s.now ∧ t.cur = s.cur ∧ t.mem = s.mem ∧
      t.parts = s.formParts ∧ t.bootReports = s.reportsOf s.dumps.getLast? :=
  ⟨_, exec_boot_running hoff hok, rfl, rfl, rfl, rfl, rfl, rfl, rfl⟩

/-- Settles O59: boot by what each partition that joins the others keeps, a load by how it ends, a frame by the writes of its bytes. -/
theorem bootUpdateAttestLoad : Obligations.BootUpdateAttestLoad := by
  unfold Obligations.BootUpdateAttestLoad
  refine ⟨fun s hoff => ⟨exec_boot_recovery hoff, fun hok => ?_⟩, fun s img hrun => ⟨exec_firmwareUpdate_refused, ?_⟩,
    fun s part p nonce hrun hp hlen => ?_,
    fun s part p o hp => ⟨State.codeObjectLoad_refused hp, fun hend => ?_⟩,
    fun s port pause data => ⟨fun h => exec_scaleOutFrameReceive_not_d4 h port pause data, fun r hr hport hlen => ⟨?_, ?_⟩⟩⟩
  · obtain ⟨t, hexec, hboot, hfw, hat, hcur, hmem, hparts, hreports⟩ := State.boot_runs hoff hok
    refine ⟨t, hexec, hboot, hfw, hat, hcur, hmem, ?_⟩
    rw [hparts, hreports]
    exact ⟨fun p => State.running_iff_of_mem_formParts, fun p => State.quads_of_mem_formParts, s.formParts_share_nothing,
      s.formParts_vf_le, State.formParts_ids, s.reportsOf_parts _, fun r => State.of_mem_reportsOf⟩
  · intro hver hed hml
    have hexec := exec_firmwareUpdate_verified hrun (State.verified_iff.2 ⟨hed, hml, hver⟩)
    exact ⟨hexec false, _, hexec true, rfl, rfl⟩
  · exact ⟨_, _, exec_attestationRequest hrun hp hlen, rfl, rfl, rfl, rfl, rfl, rfl, rfl⟩
  · obtain ⟨t, hexec, hobjects, hcores⟩ := State.codeObjectLoad_linked hp hend
    refine ⟨t, hexec, hobjects, ?_⟩
    cases hserves : servesEntry o (p.objects ++ [o]) with
    | true =>
      rw [hserves, if_pos rfl] at hcores
      obtain ⟨hempty, hframe⟩ := State.codeObjectLoad_serving hcores
      exact ⟨fun _ => hempty, fun h => absurd h (by decide), hframe⟩
    | false =>
      rw [hserves, if_neg Bool.false_ne_true] at hcores
      exact ⟨fun h => absurd h (by decide), fun _ => List.cons.inj hcores, fun c hc => ⟨c, hcores ▸ hc, rfl, rfl, rfl⟩⟩
  · rintro rfl
    exact State.scaleOutFrameReceive_pauses hr hport hlen
  · rintro rfl hs bs pas hpas hdistinct
    exact State.scaleOutFrameReceive_stores hs hr hport hlen hpas hdistinct

end Sys2Proof.Machine
end

section
/-! PROOF. The fixed words of O1, and the predicate instructions of O15. -/

namespace Sys2Proof.Machine

/-- Settles O1: each word is decoded by evaluation. -/
theorem specWordsDecode : Obligations.SpecWordsDecode := by
  unfold Obligations.SpecWordsDecode
  refine ⟨?_, ?_, ?_, ?_, ?_, ?_, ?_, ?_, ?_, ?_, ?_, ?_, ?_⟩ <;> rfl

/-- Bit 0 of what PSAVE reads is P0 (R145). -/
theorem Ctl.psave_getLsbD_zero (c : Ctl) : (BitVec.ofNat 64 c.psave).getLsbD 0 = true := by
  have hodd : c.psave % 2 = 1 := by unfold Ctl.psave; omega
  simp [BitVec.getLsbD_ofNat, Nat.testBit_zero, hodd]

/-- Above bit 0 PSAVE reads the stored predicates (R145). -/
theorem Ctl.psave_getLsbD_succ (c : Ctl) (i : Nat) :
    (BitVec.ofNat 64 c.psave).getLsbD (i + 1) = c.p.getLsbD (i + 1) := by
  have hhalf : c.psave / 2 = c.p.toNat / 2 := by unfold Ctl.psave; omega
  have hhigh : 64 ≤ i + 1 → c.p.getLsbD (i + 1) = false := fun h => BitVec.getLsbD_of_ge _ _ (by omega)
  rw [BitVec.getLsbD_ofNat, Nat.testBit_succ, hhalf, ← Nat.testBit_succ]
  by_cases h : i + 1 < 64
  · simp [h, BitVec.getLsbD]
  · simp [h, hhigh (by omega)]

theorem Ctl.psave_getLsbD (c : Ctl) (i : BitVec 3) : (BitVec.ofNat 64 c.psave).getLsbD i.toNat = c.getP i := by
  unfold Ctl.getP
  rcases Nat.eq_zero_or_eq_succ_pred i.toNat with h | h
  · have hi : i = 0 := BitVec.eq_of_toNat_eq h
    simp [hi, Ctl.psave_getLsbD_zero]
  · have hi : i ≠ 0 := fun e => by simp [e] at h
    rw [h, Ctl.psave_getLsbD_succ, beq_false_of_ne hi, Bool.false_or]

/-- PLOAD takes the masked bits from its value (R146). -/
theorem Ctl.pload_getLsbD (c : Ctl) (mask v : BitVec 8) (i : BitVec 3) :
    (c.pload mask v).p.getLsbD i.toNat = if mask.getLsbD i.toNat then v.getLsbD i.toNat else c.p.getLsbD i.toNat := by
  have hlt : i.toNat < 8 := i.isLt
  unfold Ctl.pload
  rw [BitVec.getLsbD_or, BitVec.getLsbD_and, BitVec.getLsbD_and, BitVec.getLsbD_not, decide_eq_true hlt]
  cases mask.getLsbD i.toNat <;> simp

theorem Ctl.getP_pload_of_not (c : Ctl) {mask : BitVec 8} (v : BitVec 8) {i : BitVec 3} (h : mask.getLsbD i.toNat = false) :
    (c.pload mask v).getP i = c.getP i := by
  rw [Ctl.getP, Ctl.pload_getLsbD, h, if_neg Bool.false_ne_true, Ctl.getP]

/-- A mask that leaves P0 alone loads the other predicates bit by bit (R146). -/
theorem Ctl.getP_pload (c : Ctl) {mask : BitVec 8} (v : BitVec 8) (h0 : mask.getLsbD 0 = false) (i : BitVec 3) :
    (c.pload mask v).getP i = if mask.getLsbD i.toNat then v.getLsbD i.toNat else c.getP i := by
  cases hm : mask.getLsbD i.toNat
  · rw [Ctl.getP_pload_of_not c v hm, if_neg Bool.false_ne_true]
  · have hi : i ≠ 0 := by
      rintro rfl
      exact absurd (h0.symm.trans hm) Bool.false_ne_true
    rw [Ctl.getP, Ctl.pload_getLsbD, hm, beq_false_of_ne hi, Bool.false_or, if_pos rfl, if_pos rfl]

theorem State.getP_setP_ne (s : State) {i k : BitVec 3} (v : Bool) (h : i ≠ k) : (s.setP k v).getP i = s.getP i := by
  by_cases h0 : i = 0
  · rw [h0, State.getP_zero, State.getP_zero]
  · rw [State.getP_setP, if_neg h0, if_neg h]

/-- Settles O15, instruction by instruction: PLOG and PLOAD by the rule of qualified instructions, PSAVE by that of register
writes, and their bits by the rules of the predicate file. -/
theorem predicateInstructions : Obligations.PredicateInstructions := by
  unfold Obligations.PredicateInstructions
  refine fun s q => ⟨?plog, ?psave, ?pload, ?setP⟩
  case plog => exact fun pd pa pb tt => State.completes_eq s q _ (Ctl.setP_pc s.ctl pd _)
  case psave =>
    refine fun d => ⟨_, State.writeG_eq s q d _, Ctl.psave_getLsbD_zero _, Ctl.psave_getLsbD _, fun i hi => ?_⟩
    obtain ⟨k, rfl⟩ : ∃ k, i = k + 1 := ⟨i - 1, by omega⟩
    rw [Ctl.psave_getLsbD_succ, BitVec.getLsbD_of_ge _ _ hi]
  case pload =>
    refine fun a mask h0 => ⟨_, State.completes_eq s q _ rfl, fun i => ?_, rfl⟩
    have hlt : i.toNat < 8 := i.isLt
    have hbit : ((s.getG a).truncate 8).getLsbD i.toNat = (s.getG a).getLsbD i.toNat := by
      rw [BitVec.truncate_eq_setWidth, BitVec.getLsbD_setWidth, decide_eq_true hlt, Bool.true_and]
    exact (Ctl.getP_pload s.ctl _ h0 i).trans (by rw [hbit]; rfl)
  case setP =>
    refine fun i v => ⟨State.getP_zero _, fun hi => ?_, fun j hj => State.getP_setP_ne s v hj⟩
    rw [State.getP_setP, if_neg hi, if_pos rfl]

end Sys2Proof.Machine
end

section
/-! PROOF. The branch-target instructions of O26: addresses of targets, and what a J register holds afterwards. -/

namespace Sys2Proof.Machine

/-- Clearing bits [2:0] rounds a word down to a multiple of 8. -/
theorem andNot7_toNat (x : Word) : (x &&& ~~~7#64).toNat = x.toNat / 8 * 8 := by
  have h7 (i : Nat) : (7#64).getLsbD i = decide (i < 3) := by
    rw [show (7#64) = BitVec.ofNat 64 (2 ^ 3 - 1) from rfl, BitVec.getLsbD_ofNat, Nat.testBit_two_pow_sub_one]
    exact Bool.eq_iff_iff.mpr (by simp; omega)
  have h : x &&& ~~~7#64 = (x >>> 3) <<< 3 := by
    refine BitVec.eq_of_getLsbD_eq fun i hi => ?_
    rw [BitVec.getLsbD_and, BitVec.getLsbD_not, h7, BitVec.getLsbD_shiftLeft, BitVec.getLsbD_ushiftRight]
    by_cases h3 : i < 3
    · simp [h3]
    · simp [h3, hi, show 3 + (i - 3) = i by omega]
  have hlt := x.isLt
  rw [h, BitVec.toNat_shiftLeft, BitVec.toNat_ushiftRight, Nat.shiftRight_eq_div_pow, Nat.shiftLeft_eq]
  omega

theorem andNot7_eq_ofNat (x : Word) : x &&& ~~~7#64 = BitVec.ofNat 64 (x.toNat / 8 * 8) := by
  have hlt := x.isLt
  apply BitVec.eq_of_toNat_eq
  rw [andNot7_toNat, BitVec.toNat_ofNat]
  omega

/-- A number narrowed to a word and rounded down to a multiple of 8 is the rounded number narrowed, since 8 divides 2^64. -/
theorem andNot7_ofInt (z : Int) : BitVec.ofInt 64 z &&& ~~~7#64 = BitVec.ofInt 64 (z / 8 * 8) := by
  apply BitVec.eq_of_toNat_eq
  rw [andNot7_toNat, BitVec.toNat_ofInt, BitVec.toNat_ofInt]
  omega

/-- The address that PREP forms, in the integers (R159). -/
theorem prepTarget_eq_ofInt (pc : Word) (off : BitVec 48) :
    pc + (off.signExtend 64 <<< 3) = BitVec.ofInt 64 (pc.toInt + off.toInt * 8) := by
  have hoff : BitVec.ofInt 64 off.toInt <<< 3 = BitVec.ofInt 64 (off.toInt * 8) := by
    apply BitVec.eq_of_toNat_eq
    rw [BitVec.toNat_shiftLeft, BitVec.toNat_ofInt, BitVec.toNat_ofInt, Nat.shiftLeft_eq]
    omega
  rw [BitVec.signExtend, hoff, BitVec.ofInt_add, BitVec.ofInt_toInt]

/-- JGET's two fields do not overlap: the address is a multiple of 8 and JSTATE is below 4 (R119, R162). -/
theorem andNot7_or_num (x : Word) (st : JState) :
    (x &&& ~~~7#64) ||| BitVec.ofNat 64 st.num = BitVec.ofNat 64 (x.toNat / 8 * 8 + st.num) := by
  have hx := x.isLt
  have hst : st.num < 8 := by cases st <;> decide
  apply BitVec.eq_of_toNat_eq
  rw [BitVec.toNat_or, andNot7_toNat, BitVec.toNat_ofNat, BitVec.toNat_ofNat, Nat.mod_eq_of_lt (show st.num < 2 ^ 64 by omega),
    Nat.mod_eq_of_lt (by omega), Nat.mul_comm, ← Nat.two_pow_add_eq_or_of_lt (i := 3) hst]

/-- Settles O26, clause by clause: the targets by the rounding of their addresses, the prefetch by what it answers. -/
theorem branchTargets : Obligations.BranchTargets := by
  unfold Obligations.BranchTargets
  refine fun s q j p pn off a d => ⟨?prep, ?prepr, ?jget, ?jclr, ?other, ?ready, ?stale⟩
  case prep =>
    rw [← andNot7_ofInt, ← prepTarget_eq_ofInt]
    exact State.completes_eq s ⟨p, pn⟩ _ rfl
  case prepr =>
    rw [← andNot7_eq_ofNat]
    exact State.completes_eq s q _ rfl
  case jget =>
    have hnum := andNot7_or_num (s.ctl.getJ j).taddr (s.ctl.getJ j).st
    refine (State.writeG_eq s q d _).trans ?_
    rw [hnum]
    cases (s.ctl.getJ j).st <;> rfl
  case jclr => exact State.completes_eq s q _ rfl
  case other => exact fun hst => if_neg hst
  case ready =>
    intro hst u ws hpre
    change execPrefetchComplete j s = _
    simp only [execPrefetchComplete, if_pos hst, hpre]
  case stale =>
    intro hst u tr hpre
    change execPrefetchComplete j s = _
    simp only [execPrefetchComplete, if_pos hst, hpre]

end Sys2Proof.Machine
end

section
/-! PROOF. Qualified instructions (O20): one with its predicate holding executes as its form with P0 does, one without it only
retires. -/

namespace Sys2Proof.Machine

/-! ### Every instruction with a qualifying predicate is `State.qualified` of what it does under P0 -/

/-- P0 reads 1, so under it an effect may be qualified once more. -/
theorem State.qualified_twice (s : State) (q : Qual) (k : State → Out) :
    s.qualified q k = s.qualified q fun s => s.qualified ⟨0, false⟩ k := rfl

theorem State.opWrite_twice (s : State) (q : Qual) (f : State → Task → Task) :
    s.opWrite q (f s) = s.qualified q fun s => s.opWrite ⟨0, false⟩ (f s) := rfl

/-- SPGET is the one instruction among the register-writing ones that can fault (R121). -/
def Instr.mayFault : Instr → Bool
  | .spget .. => true
  | _ => false

/-- A register-writing instruction is a register write of a value that does not depend on its qualifying predicate. -/
theorem exec_writesReg {i : Instr} {d : BitVec 5} (hd : i.writesReg = some d) (hs : Instr.mayFault i = false) (s : State) :
    ∃ q v, i.qual = some q ∧ exec i s = s.writeG q d v ∧ exec i.unqualified s = s.writeG ⟨0, false⟩ d v := by
  cases i <;> cases hd <;> cases hs <;> exact ⟨_, _, rfl, rfl, rfl⟩

theorem exec_writesReg_eq_qualified {i : Instr} {q : Qual} {d : BitVec 5} (hq : i.qual = some q)
    (hd : i.writesReg = some d) (s : State) : exec i s = s.qualified q (exec i.unqualified) := by
  cases hs : Instr.mayFault i
  case true =>
    cases i <;> cases hs
    cases hq
    simp only [exec, Instr.unqualified]
    exact State.qualified_twice s q _
  case false =>
    obtain ⟨q', v, hq', hexec, hun⟩ := exec_writesReg hd hs s
    obtain rfl : q' = q := Option.some.inj (hq'.symm.trans hq)
    rw [hexec, State.qualified, hun]
    exact State.qualified_twice s q' fun s => (s.setG d v).retire

/-- The other instructions with a qualifying predicate; TSET, PATW and SHPW go through `State.opWrite`. -/
theorem exec_other_eq_qualified {i : Instr} {q : Qual} (hq : i.qual = some q) (hd : i.writesReg = none) (s : State) :
    exec i s = s.qualified q (exec i.unqualified) := by
  cases i <;> cases hd <;> cases hq <;> simp only [exec, Instr.unqualified]
  case tset a tid word => exact State.opWrite_twice s q fun s t => t.setTword tid.toNat word.toNat (s.getG a)
  case patw a pat => exact State.opWrite_twice s q fun s t => { t with pat := spSet 0 t.pat pat.toNat (s.getG a) }
  case shpw a sh word =>
    exact State.opWrite_twice s q fun s t => { t with sh := spSet 0 t.sh (4 * sh.toNat + word.toNat) (s.getG a) }
  all_goals exact State.qualified_twice s _ _

theorem exec_eq_qualified {i : Instr} {q : Qual} (hq : i.qual = some q) (s : State) :
    exec i s = s.qualified q (exec i.unqualified) := by
  cases hd : i.writesReg
  · exact exec_other_eq_qualified hq hd s
  · exact exec_writesReg_eq_qualified hq hd s

theorem exec_of_holds {i : Instr} {q : Qual} (hq : i.qual = some q) {s : State} (h : (s.getP q.p != q.n) = true) :
    exec i s = exec i.unqualified s := by
  rw [exec_eq_qualified hq, State.qualified_eq, State.holds, if_pos h]

theorem exec_of_squashed {i : Instr} {q : Qual} (hq : i.qual = some q) {s : State} (h : (s.getP q.p != q.n) = false) :
    exec i s = .next (s.retired (s.ctl.pc + 8)) := by
  rw [exec_eq_qualified hq, State.qualified_eq, State.holds, h, if_neg Bool.false_ne_true]

/-! ### The obligation -/

/-- The opcode field of a word is its top byte (R129). -/
theorem fld_opcode (w : Word) : fld w.toNat 56 8 = w.toNat / 2 ^ 56 := by
  have hw := w.isLt
  unfold fld
  omega

/-- Settles O20: the two cases of the qualifying predicate, P0 negated among the squashed ones, and the words that raise
ILLEGAL or UNIMPL, which have no predicate. -/
theorem squashedInstruction : Obligations.SquashedInstruction := by
  unfold Obligations.SquashedInstruction
  refine ⟨fun i q s hq h => exec_of_holds hq h, fun i q s hq h => exec_of_squashed hq h,
    fun i s hq => exec_of_squashed hq rfl, fun s e he => ?undecoded, fun s w => ?unlisted⟩
  case undecoded => rw [State.execute, he, State.fail_eq]
  case unlisted =>
    change execOpcodeNotListed w s = _
    simp only [execOpcodeNotListed, State.fail_eq, fld_opcode, Bool.and_eq_true, decide_eq_true_eq]

end Sys2Proof.Machine
end

section
/-! PROOF. What register, compare and predicate instructions leave unchanged (O19). -/

namespace Sys2Proof.Machine

/-! ### All but the G registers, the predicates and PC -/

/-- The J registers, the special registers, the units, the other cores and every byte are as they were. -/
def State.sameAround (s t : State) : Prop :=
  t.ctl.j = s.ctl.j ∧ t.ctl.sameSpecial s.ctl ∧ t.task.sameUnits s.task ∧ s.sameOutside t ∧ s.sameBytes t

theorem Ctl.sameSpecial_refl (c : Ctl) : c.sameSpecial c := by simp [Ctl.sameSpecial]

theorem Task.sameUnits_refl (t : Task) : t.sameUnits t := by simp [Task.sameUnits]

theorem State.sameOutside_refl (s : State) : s.sameOutside s := by simp [State.sameOutside]

theorem Ctl.sameSpecial_trans {a b c : Ctl} (h : c.sameSpecial b) (h' : b.sameSpecial a) : c.sameSpecial a := by
  simp_all [Ctl.sameSpecial]

theorem State.sameAround_trans {s t u : State} (h : s.sameAround t) (h' : t.sameAround u) : s.sameAround u := by
  obtain ⟨hj, hsp, hunits, hout, hbytes⟩ := h
  obtain ⟨hj', hsp', hunits', hout', hbytes'⟩ := h'
  refine ⟨hj'.trans hj, Ctl.sameSpecial_trans hsp' hsp, ?_, ?_, fun sp a => (hbytes' sp a).trans (hbytes sp a)⟩
  · simp_all [Task.sameUnits]
  · simp_all [State.sameOutside]

/-- Writing control registers that hold the same J and special registers. -/
theorem State.sameAround_withCtl (s : State) {c : Ctl} (hj : c.j = s.ctl.j) (hsp : c.sameSpecial s.ctl) :
    s.sameAround (s.withCtl c) :=
  ⟨hj, hsp, Task.sameUnits_refl s.task, State.sameOutside_refl s, fun sp a => State.rdByte_withCtl _ _ sp a⟩

/-- Taking a fault writes park latches and records alone; only OVERRUN degrades the frame (R22). -/
theorem State.sameAround_takeFault (s : State) (st : StreamId) {tr : Trap} (h : tr.code ≠ .overrun) (pc w : Word) (n : Nat) :
    s.sameAround (s.takeFault st tr pc w n) := by
  refine ⟨?_, ?_, ?_, ?_, State.takeFault_rdByte s st tr pc w n⟩ <;> rw [State.takeFault, if_neg h]
  · rfl
  · exact Ctl.sameSpecial_refl _
  · exact Task.sameUnits_refl s.task
  · exact State.sameOutside_refl s

theorem State.sameAround_retired (s : State) (pc : Word) : s.sameAround (s.retired pc) := by
  have hctl : s.sameAround (s.withCtl { s.ctl with pc, waiting := false }) :=
    State.sameAround_withCtl s rfl (Ctl.sameSpecial_refl _)
  unfold State.retired
  dsimp only
  split
  · exact State.sameAround_trans hctl (State.sameAround_takeFault _ _ (by decide) _ _ _)
  · exact hctl

theorem State.sameAround_trapHere (s : State) {tr : Trap} (h : tr.code ≠ .overrun) : s.sameAround (s.trapHere tr) :=
  have hctl : s.sameAround (s.withCtl { s.ctl with waiting := false }) :=
    State.sameAround_withCtl s rfl (Ctl.sameSpecial_refl _)
  State.sameAround_trans hctl (State.sameAround_takeFault _ _ h _ _ _)

theorem State.sameAround_setG (s : State) (d : BitVec 5) (v : Word) : s.sameAround (s.setG d v) :=
  State.sameAround_withCtl s (by simp) (by simp [Ctl.sameSpecial])

theorem State.sameAround_setP (s : State) (i : BitVec 3) (v : Bool) : s.sameAround (s.setP i v) :=
  State.sameAround_withCtl s (by simp) (by simp [Ctl.sameSpecial])

/-- An instruction with the effect `u` leaves what `u` and retiring leave. -/
theorem State.sameAround_completes {s u : State} (q : Qual) (h : s.sameAround u) : s.sameAround (s.completes q u) := by
  unfold State.completes
  split
  · exact State.sameAround_trans h (State.sameAround_retired u _)
  · exact State.sameAround_retired s _

/-! ### The register files -/

theorem State.trapHere_getG (s : State) (tr : Trap) (r : BitVec 5) : (s.trapHere tr).getG r = s.getG r := by
  unfold State.trapHere State.takeFault
  split <;> rfl

theorem State.trapHere_p (s : State) (tr : Trap) : (s.trapHere tr).ctl.p = s.ctl.p := by
  unfold State.trapHere State.takeFault
  split <;> rfl

theorem State.completes_getG (s u : State) (q : Qual) (r : BitVec 5) (h : u.getG r = s.getG r) :
    (s.completes q u).getG r = s.getG r := by
  unfold State.completes
  split <;> simp [h]

theorem State.completes_getP (s u : State) (q : Qual) (i : BitVec 3) (h : u.getP i = s.getP i) :
    (s.completes q u).getP i = s.getP i := by
  unfold State.completes
  split <;> simp [h]

theorem State.completes_p (s u : State) (q : Qual) (h : u.ctl.p = s.ctl.p) : (s.completes q u).ctl.p = s.ctl.p := by
  unfold State.completes
  split <;> simp [State.retired_ctl, h]

/-! ### Instructions that write one G register -/

theorem State.sameBut_iff {s t : State} {d : BitVec 5} :
    s.sameBut t d ↔ (∀ r, r ≠ d → t.getG r = s.getG r) ∧ t.ctl.p = s.ctl.p ∧ s.sameAround t := Iff.rfl

theorem State.sameBut_writes {s : State} (hs : s.canonical) (q : Qual) (d : BitVec 5) (v : Word) :
    s.sameBut (s.writes q d v) d :=
  State.sameBut_iff.2 ⟨fun r hr => State.completes_getG s _ q r (State.getG_setG_ne hs hr v),
    State.completes_p s _ q (Ctl.setG_p s.ctl d v), State.sameAround_completes q (State.sameAround_setG s d v)⟩

theorem State.sameBut_trapHere (s : State) (d : BitVec 5) {tr : Trap} (h : tr.code ≠ .overrun) : s.sameBut (s.trapHere tr) d :=
  State.sameBut_iff.2 ⟨fun r _ => State.trapHere_getG s tr r, State.trapHere_p s tr,
    State.sameAround_trapHere s h⟩

/-- No special register's fault is OVERRUN (R121, R124). -/
theorem State.special_error_ne_overrun {s : State} {n : Nat} {c : Code} (h : s.special n = .error c) : c ≠ .overrun := by
  unfold State.special at h
  rintro rfl
  dsimp only at h
  split at h <;> first | cases h | (split at h <;> cases h)

/-- SPGET writes G[D], takes the fault of its register, or is squashed. -/
theorem State.sameBut_spget {s t : State} (hs : s.canonical) {q : Qual} {d : BitVec 5} {fn : BitVec 8}
    (h : exec (.spget q d fn) s = .next t) : s.sameBut t d := by
  cases hq : s.holds q
  case false =>
    rw [exec_of_squashed rfl hq, Host.Outcome.next.injEq] at h
    exact h ▸ State.sameBut_iff.2 ⟨fun r _ => State.retired_getG s _ r, by rw [State.retired_ctl], State.sameAround_retired s _⟩
  case true =>
    cases hsp : s.special fn.toNat with
    | ok v =>
      rw [State.spget_read hq d hsp, Host.Outcome.next.injEq] at h
      exact h ▸ State.sameBut_writes hs q d _
    | error c =>
      rw [State.spget_fault hq d hsp, Host.Outcome.next.injEq] at h
      exact h ▸ State.sameBut_trapHere s d (State.special_error_ne_overrun hsp)

theorem State.sameBut_of_writesReg {i : Instr} {d : BitVec 5} {s t : State} (hs : s.canonical) (hd : i.writesReg = some d)
    (h : exec i s = .next t) : s.sameBut t d := by
  cases hf : Instr.mayFault i
  case false =>
    obtain ⟨q, v, -, hexec, -⟩ := exec_writesReg hd hf s
    rw [hexec, State.writeG_eq, Host.Outcome.next.injEq] at h
    exact h ▸ State.sameBut_writes hs q d v
  case true =>
    cases i <;> cases hf
    cases hd
    exact State.sameBut_spget hs h

/-! ### Compare and predicate instructions -/

/-- Writing the predicates of a compare leaves the others (R142). -/
theorem State.writeCond_getP (s : State) {pd pc i : BitVec 3} (c : Bool) (hd : i ≠ pd) (hc : i ≠ pc) :
    (s.writeCond pd pc c).getP i = s.getP i := by
  unfold State.writeCond
  dsimp only
  split
  · exact State.getP_setP_ne s c hd
  · rw [State.getP_setP_ne _ _ hc, State.getP_setP_ne s c hd]

theorem State.sameAround_writeCond (s : State) (pd pc : BitVec 3) (c : Bool) : s.sameAround (s.writeCond pd pc c) := by
  unfold State.writeCond
  dsimp only
  split
  · exact State.sameAround_setP s pd c
  · exact State.sameAround_trans (State.sameAround_setP s pd c) (State.sameAround_setP _ pc _)

theorem State.setP_getG (s : State) (i : BitVec 3) (v : Bool) (r : BitVec 5) : (s.setP i v).getG r = s.getG r := by
  simp [State.getG, Ctl.getG]

theorem State.writeCond_getG (s : State) (pd pc : BitVec 3) (c : Bool) (r : BitVec 5) :
    (s.writeCond pd pc c).getG r = s.getG r := by
  unfold State.writeCond
  dsimp only
  split
  · exact State.setP_getG s pd c r
  · rw [State.setP_getG, State.setP_getG]
/-- What CMP and FCMP leave (R142, R143). -/
theorem State.frame_writeCond (s : State) (pd pc : BitVec 3) (c : Bool) {t : State}
    (h : (s.writeCond pd pc c).retire = .next t) :
    ((∀ r, t.getG r = s.getG r) ∧ s.sameAround t) ∧ ∀ i, i ≠ pd → i ≠ pc → t.getP i = s.getP i := by
  rw [State.retire_eq, Host.Outcome.next.injEq] at h
  subst h
  refine ⟨⟨fun r => ?_, State.sameAround_trans (State.sameAround_writeCond s pd pc c) (State.sameAround_retired _ _)⟩,
    fun i hd hc => ?_⟩
  · rw [State.retired_getG, State.writeCond_getG]
  · rw [State.retired_getP, State.writeCond_getP s c hd hc]

/-- What a qualified instruction leaves that writes predicates alone, those in `same` not among them (R144, R146). -/
theorem State.frame_qualified {s u t : State} {q : Qual} {same : BitVec 3 → Prop} (hpc : u.ctl.pc = s.ctl.pc)
    (hg : ∀ r, u.getG r = s.getG r) (hu : s.sameAround u) (hp : ∀ i, same i → u.getP i = s.getP i)
    (h : (s.qualified q fun _ => u.retire) = .next t) :
    ((∀ r, t.getG r = s.getG r) ∧ s.sameAround t) ∧ ∀ i, same i → t.getP i = s.getP i := by
  rw [State.completes_eq s q u hpc, Host.Outcome.next.injEq] at h
  subst h
  exact ⟨⟨fun r => State.completes_getG s u q r (hg r), State.sameAround_completes q hu⟩,
    fun i hi => State.completes_getP s u q i (hp i hi)⟩

/-- Settles O19: register-writing instructions by the rule of register writes and SPGET's fault, the others by what they write
of the predicates. -/
theorem registerInstructionFrames : Obligations.RegisterInstructionFrames := by
  unfold Obligations.RegisterInstructionFrames
  refine ⟨fun i d s t hs hd h => State.sameBut_of_writesReg hs hd h, fun s t q pd pc pa pb a rhs cond tt mask => ?_⟩
  refine ⟨?compare, ?plog, ?pload⟩
  case compare =>
    rintro (h | h)
    · exact State.frame_writeCond s pd pc _ h
    · exact State.frame_writeCond s pd pc _ h
  case plog =>
    exact State.frame_qualified (Ctl.setP_pc s.ctl pd _) (State.setP_getG s pd _) (State.sameAround_setP s pd _)
      fun i hi => State.getP_setP_ne s _ hi
  case pload =>
    exact State.frame_qualified rfl (fun _ => rfl) (State.sameAround_withCtl s rfl (Ctl.sameSpecial_refl _))
      fun i hi => Ctl.getP_pload_of_not s.ctl _ hi

end Sys2Proof.Machine
end

section
/-! PROOF. Encoding inverts decoding: every format is the concatenation of its fields, and `gate` lets no other bit through
(R14, R129 to R134). -/

namespace Sys2Proof

/-! ### A number as the concatenation of its fields -/

theorem fld_eq_cat {w lo k n a b : Nat} (hn : n ≤ k) (hb : fld w lo n = b) (ha : fld w (lo + n) (k - n) = a) :
    fld w lo k = cat a n b := by
  obtain ⟨m, rfl⟩ := Nat.exists_eq_add_of_le hn
  subst ha hb
  rw [Nat.add_sub_cancel_left, fld, fld, fld, cat, Nat.pow_add 2 n m, Nat.mod_mul, Nat.pow_add 2 lo n, Nat.div_div_eq_div_mul,
    Nat.mul_comm (2 ^ n), Nat.add_comm]

/-- A field is as wide as its lowest bits if and only if those above them are 0. -/
theorem fld_eq_fld_iff {w lo k n : Nat} (hn : n ≤ k) : fld w lo k = fld w lo n ↔ fld w (lo + n) (k - n) = 0 := by
  rw [fld_eq_cat hn rfl rfl, cat, Nat.add_eq_right, mul_eq_zero_iff_right (Nat.two_pow_pos n).ne']

/-- A field inside one that is 0. -/
theorem fld_eq_zero_of_fld {w lo n lo' k : Nat} (h : fld w lo n = 0) (hlo : lo ≤ lo') (hk : lo' + k ≤ lo + n) :
    fld w lo' k = 0 := by
  obtain ⟨j, rfl⟩ := Nat.exists_eq_add_of_le hlo
  obtain ⟨m, hm⟩ : ∃ m, n = j + (k + m) := ⟨n - (j + k), by omega⟩
  have htop : fld w (lo + j) (k + m) = 0 := by
    rw [fld_eq_cat (n := j) (by omega) rfl rfl, cat, hm] at h
    have hpos := Nat.two_pow_pos j
    simpa [hpos.ne'] using Nat.eq_zero_of_add_eq_zero_right h
  rw [fld_eq_cat (n := k) (by omega) rfl rfl, cat] at htop
  exact Nat.eq_zero_of_add_eq_zero_left htop

theorem bv_toNat (n w lo : Nat) : (bv n w lo).toNat = fld w lo n :=
  (BitVec.toNat_ofNat ..).trans (Nat.mod_eq_of_lt (fld_lt w lo n))

theorem b2n_bitOf (w i : Nat) : b2n (bitOf w i) = fld w i 1 := by
  have h := fld_lt w i 1
  rw [bitOf_eq_fld]
  generalize fld w i 1 = x at h
  interval_cases x <;> rfl

/-- What `gate` accepts: no reserved bit is set and the fields are well formed (R132). -/
theorem gate_eq_ok_iff {w : Nat} {zs : List (Nat × Nat)} {i j : Instr} :
    gate w zs i = .ok j ↔ (∀ z ∈ zs, fld w z.1 z.2 = 0) ∧ i = j ∧ j.wf = true := by
  refine ⟨fun h => ?_, fun ⟨hz, hij, hj⟩ => gate_eq_ok hz hij hj⟩
  unfold gate at h
  split at h
  · cases h
  · next hz =>
    split at h
    · next hwf =>
      cases h
      exact ⟨by simpa using hz, rfl, hwf⟩
    · cases h

/-- A word is the concatenation of the fields of the CC format (R131). -/
theorem encCC_fld {w op : Nat} (hw : w < 2 ^ 64) (hop : fld w 56 8 = op) (hz : ∀ z ∈ ccZero w, fld w z.1 z.2 = 0) :
    encCC op (fld w 53 3) (fld w 50 3) (fld w 45 5) (ccRhs w) (fld w 36 4) = w := by
  have hb := b2n_bitOf w 35
  conv_rhs => rw [← fld_self hw]
  symm
  unfold ccZero at hz
  unfold ccRhs
  cases h : bitOf w 35
  all_goals
    simp only [h, Bool.false_eq_true, if_true, if_false, List.forall_mem_cons, List.not_mem_nil, false_imp_iff,
      implies_true, and_true] at hz hb ⊢
    simp only [encCC, bv_toNat]
    repeat' with_reducible refine fld_eq_cat (by decide) ?_ ?_
  case false.refine_1 =>
    exact fld_eq_cat (a := 0) (b := 0) (n := 35) (by decide) (fld_eq_cat (a := 0) (n := 3) (by decide) hz.2 hz.1) hb.symm
  all_goals simp only [Nat.reduceAdd, Nat.reduceSub, hop, hz, ← hb, b2n]
  all_goals rfl

/-- What the control core's decoder accepts is well formed and encodes to the word: opcode by opcode, the encoding is a
concatenation whose parts are fields of the word. -/
theorem encode_of_decodeControl {w : Nat} (hw : w < 2 ^ 64) {i : Instr} (h : decodeControl w = .ok i) :
    i.wf = true ∧ i.agent = some .control ∧ encode i = w := by
  unfold decodeControl at h
  split at h
  case h_79 =>
    obtain ⟨-, rfl, hwf⟩ := gate_eq_ok_iff.1 h
    exact ⟨hwf, rfl, Nat.mod_eq_of_lt hw⟩
  all_goals
    obtain ⟨hz, rfl, hwf⟩ := gate_eq_ok_iff.1 h
    clear h
    refine ⟨hwf, rfl, ?_⟩
    clear hwf
    rename_i hop
  case h_54 | h_58 =>
    simp only [encode, bv_toNat]
    exact encCC_fld hw hop hz
  all_goals
    conv_rhs => rw [← fld_self hw]
    symm
    simp only [List.forall_mem_cons, List.not_mem_nil, false_imp_iff, implies_true, and_true] at hz
  case h_4 => exact fld_eq_cat (a := 3) (n := 56) (by decide) hz hop
  all_goals
    simp only [encode, encCR, encCI, encCE, encCM, encCT, encTop, encQual, qualAt, bv_toNat, b2n_bitOf]
    repeat' with_reducible refine fld_eq_cat (by decide) ?_ ?_
  case h_70.refine_2.refine_1 | h_70.refine_2.refine_2.refine_1 =>
    exact fld_eq_zero_of_fld hz.2.2.2 (by decide) (by decide)
  case h_74.refine_1 | h_74.refine_2.refine_1 | h_75.refine_1 | h_75.refine_2.refine_1 =>
    exact fld_eq_zero_of_fld hz (by decide) (by decide)
  all_goals simp only [fld_eq_fld_iff, Nat.reduceAdd, Nat.reduceSub, Nat.reduceLeDiff, hop, hz]

/-- A word is the concatenation of the common fields of a command and its operands (R14). -/
theorem encCmd_fld {w op x : Nat} (hw : w < 2 ^ 64) (hop : fld w 47 7 = op) (hx : fld w 0 26 = x) :
    encCmd (headAt w) op x = w := by
  conv_rhs => rw [← fld_self hw]
  symm
  simp only [encCmd, encWait, headAt, waitAt, bv_toNat]
  repeat' with_reducible refine fld_eq_cat (by decide) ?_ ?_
  all_goals simp only [Nat.reduceAdd, Nat.reduceSub, hop, hx]

theorem encode_of_decodeGeneric {e : EngId} {w : Nat} (hw : w < 2 ^ 64) {i : Instr} (h : decodeGeneric e w = .ok i) :
    i.wf = true ∧ i.agent = some (.engine e) ∧ encode i = w := by
  unfold decodeGeneric at h
  split at h
  all_goals
    obtain ⟨hz, rfl, hwf⟩ := gate_eq_ok_iff.1 h
    clear h
    refine ⟨hwf, rfl, ?_⟩
    clear hwf
    rename_i hop
  case h_5 => exact Nat.mod_eq_of_lt hw
  case h_1 => exact encCmd_fld hw hop (bv_toNat ..).symm
  all_goals
    refine encCmd_fld hw hop ?_
    simp only [List.forall_mem_cons, List.not_mem_nil, false_imp_iff, implies_true, and_true] at hz
    repeat' with_reducible refine fld_eq_cat (by decide) ?_ ?_
  all_goals simp only [bv_toNat, Nat.reduceAdd, Nat.reduceSub, hz]

/-- What an engine's decoder accepts, as for the control core. -/
theorem encode_of_decodeEngine {e : EngId} {w : Nat} (hw : w < 2 ^ 64) {i : Instr} (h : decodeEngine e w = .ok i) :
    i.wf = true ∧ i.agent = some (.engine e) ∧ encode i = w := by
  cases e
  all_goals simp only [decodeEngine, decodeMatrix, decodeFlume, decodeSluice] at h
  case' matrix | flume =>
    split at h
    case h_12 => exact encode_of_decodeGeneric hw h
  case' sluice =>
    split at h
    case h_11 => exact encode_of_decodeGeneric hw h
  all_goals
    obtain ⟨hz, rfl, hwf⟩ := gate_eq_ok_iff.1 h
    clear h
    refine ⟨hwf, rfl, ?_⟩
    clear hwf
    refine encCmd_fld hw ‹_› ?_
    simp only [List.forall_mem_cons, List.not_mem_nil, false_imp_iff, implies_true, and_true] at hz
    simp only [encSlots, bv_toNat, b2n_bitOf]
    repeat' with_reducible refine fld_eq_cat (by decide) ?_ ?_
  all_goals simp only [fld_eq_fld_iff, Nat.reduceAdd, Nat.reduceSub, Nat.reduceLeDiff, hz]

/-! ### The obligation -/

/-- Settles O3: opcode by opcode, a word that decodes is the concatenation of the fields that its encoding puts together. -/
theorem encodeInvertsDecode : Obligations.EncodeInvertsDecode := by
  unfold Obligations.EncodeInvertsDecode
  exact fun w hw => ⟨fun i h => encode_of_decodeControl hw h, fun e i h => encode_of_decodeEngine hw h⟩

end Sys2Proof
end

section
/-! PROOF. What every operation keeps (O6): the canonical form of the stores, aligned PCs and branch targets, and that no core is
listed twice and the cores out of focus stand in their order. One relation says that an operation keeps each of them from any
state that has it; the operations are then composed by its reflexivity and transitivity. -/

namespace Sys2Proof.Machine

/-! ### The four properties -/

/-- A core's tasks have aligned PCs and branch targets. -/
def Core.aligned (c : Core) : Prop := c.task.aligned ∧ c.stagedTask.aligned

theorem State.aligned_iff {s : State} : s.aligned ↔ s.cur.aligned ∧ ∀ c ∈ s.rest, c.aligned := by
  simp [State.aligned, State.cores, Core.aligned]

/-- No core number that `x` admits is listed twice. Saving a context puts a core on the list that has no number of its own
(`State.asSaved`), so the numbers are counted without it. -/
def State.distinctOff (x : Nat → Bool) (s : State) : Prop := ((s.cores.map (·.pcore)).filter x).Nodup

/-- The cores out of focus are listed by rising numbers, a number perhaps more than once. -/
def State.sorted (s : State) : Prop := (s.rest.map (·.pcore)).Pairwise (· ≤ ·)

theorem State.distinct_iff_distinctOff {s : State} : s.distinct ↔ s.distinctOff fun _ => true := by
  simp [State.distinct, State.distinctOff]

/-- Listed in order, each once, is listed by rising numbers and none twice. -/
theorem State.ordered_iff {s : State} : s.ordered ↔ s.sorted ∧ s.distinct := by
  rw [State.distinct_iff]
  constructor
  · rintro ⟨hlt, hcur⟩
    exact ⟨hlt.imp Nat.le_of_lt, hcur, hlt.imp Nat.ne_of_lt⟩
  · rintro ⟨hle, hcur, hnodup⟩
    exact ⟨(hle.and hnodup).imp fun ⟨h, hne⟩ => Nat.lt_of_le_of_ne h hne, hcur⟩

/-! ### Keeping them -/

/-- From `s` to `t` each of the properties is kept. -/
structure State.keeps (s t : State) : Prop where
  canonical : s.canonical → t.canonical
  aligned : s.aligned → t.aligned
  distinct : ∀ x, s.distinctOff x → t.distinctOff x
  sorted : s.sorted → t.sorted

namespace State.keeps

@[refl, simp] theorem refl (s : State) : s.keeps s := ⟨id, id, fun _ => id, id⟩

theorem trans {s t u : State} (h : s.keeps t) (h' : t.keeps u) : s.keeps u :=
  ⟨h'.canonical ∘ h.canonical, h'.aligned ∘ h.aligned, fun x => h'.distinct x ∘ h.distinct x, h'.sorted ∘ h.sorted⟩

/-- The last step first: it says what the steps before it are to reach. -/
theorem via {s t u : State} (h' : t.keeps u) (h : s.keeps t) : s.keeps u := h.trans h'

/-- A step after which alignment rests on the state before both. -/
theorem trans_of_pcores {s u t : State} (h : s.keeps u) (hp : t.cores.map (·.pcore) = u.cores.map (·.pcore))
    (hc : u.canonical → t.canonical) (ha : s.aligned → u.aligned → t.aligned) : s.keeps t := by
  refine ⟨hc ∘ h.canonical, fun hs => ha hs (h.aligned hs), fun x hx => ?_, fun hs => ?_⟩
  · rw [State.distinctOff, hp]
    exact h.distinct x hx
  · have hrest : t.rest.map (·.pcore) = u.rest.map (·.pcore) := (List.cons.inj hp).2
    rw [State.sorted, hrest]
    exact h.sorted hs

/-- Where the list of core numbers stays, only the tasks are left to look at. -/
theorem of_pcores {s t : State} (hp : t.cores.map (·.pcore) = s.cores.map (·.pcore)) (hc : s.canonical → t.canonical)
    (ha : s.aligned → t.aligned) : s.keeps t := (refl s).trans_of_pcores hp hc fun _ => ha

/-- What changes neither memory nor a core. -/
theorem of_eq {s t : State} (hm : t.mem = s.mem) (hc : t.cur = s.cur) (hr : t.rest = s.rest) : s.keeps t := by
  have hcores : t.cores = s.cores := by rw [State.cores, State.cores, hc, hr]
  refine of_pcores (by rw [hcores]) ?_ ?_
  · rw [State.canonical, State.canonical, hm, hcores]
    exact id
  · rw [State.aligned, State.aligned, hcores]
    exact id

/-- What changes the stores of the tasks and of memory alone. -/
theorem of_outlines {s t : State} (h : t.outlines = s.outlines) (hc : s.canonical → t.canonical) : s.keeps t := by
  have hmap {β : Type} (f : Core → β) (hf : ∀ c, f c.outline = f c) : t.cores.map f = s.cores.map f := by
    have hcongr := congrArg (List.map f) h
    simpa [State.outlines, Function.comp_def, hf] using hcongr
  refine of_pcores (hmap _ fun _ => rfl) hc ?_
  have haligned := hmap Core.aligned fun _ => rfl
  have hiff (u : State) : u.aligned ↔ ∀ p ∈ u.cores.map Core.aligned, p :=
    (List.forall_mem_map (P := fun p : Prop => p)).symm
  rw [hiff, hiff, haligned]
  exact id

theorem foldl {α : Type} {f : State → α → State} (hf : ∀ (u : State) (a : α), u.keeps (f u a)) (l : List α) (s : State) :
    s.keeps (l.foldl f s) := by
  induction l generalizing s with
  | nil => exact refl s
  | cons a l ih => exact (hf s a).trans (ih _)

/-- What happens or does not happen. -/
theorem ite {s t u : State} {p : Prop} [Decidable p] (ht : p → s.keeps t) (hu : ¬p → s.keeps u) : s.keeps (if p then t else u) := by
  split
  · exact ht ‹_›
  · exact hu ‹_›

end State.keeps

/-! ### Tasks and cores -/

/-- A task for another one: the canonical form and the alignment are kept. -/
structure Task.keeps (t u : Task) : Prop where
  canonical : t.canonical → u.canonical
  aligned : t.aligned → u.aligned

namespace Task.keeps

@[refl] theorem refl (t : Task) : t.keeps t := ⟨id, id⟩

theorem trans {t u v : Task} (h : t.keeps u) (h' : u.keeps v) : t.keeps v :=
  ⟨h'.canonical ∘ h.canonical, h'.aligned ∘ h.aligned⟩

theorem via {t u v : Task} (h' : u.keeps v) (h : t.keeps u) : t.keeps v := h.trans h'

theorem foldl {α : Type} {f : Task → α → Task} (hf : ∀ (u : Task) (a : α), u.keeps (f u a)) (l : List α) (t : Task) :
    t.keeps (l.foldl f t) := by
  induction l generalizing t with
  | nil => exact refl t
  | cons a l ih => exact (hf t a).trans (ih _)

theorem setEng (t : Task) (e : EngId) (g : Eng) : t.keeps (t.setEng e g) := by
  cases e <;> exact ⟨id, id⟩

/-- Control registers for others, with the same G and J registers and an aligned PC. -/
theorem ctl (t : Task) {c : Ctl} (hg : c.g = t.ctl.g) (hj : c.j = t.ctl.j)
    (hpc : t.ctl.pc.toNat % 8 = 0 → c.pc.toNat % 8 = 0) : t.keeps { t with ctl := c } := by
  constructor
  · simp only [Task.canonical, hg, hj]
    exact id
  · rintro ⟨h, hall⟩
    exact ⟨hpc h, by rw [hj]; exact hall⟩

end Task.keeps

theorem Task.blank_aligned : Task.blank.aligned := ⟨rfl, fun _ h => nomatch h⟩

/-- A core for another one of its number. -/
structure Core.keeps (c d : Core) : Prop where
  pcore : d.pcore = c.pcore
  canonical : c.canonical → d.canonical
  aligned : c.aligned → d.aligned

namespace Core.keeps

theorem refl (c : Core) : c.keeps c := ⟨rfl, id, id⟩

theorem trans {c d e : Core} (h : c.keeps d) (h' : d.keeps e) : c.keeps e :=
  ⟨h'.pcore.trans h.pcore, h'.canonical ∘ h.canonical, h'.aligned ∘ h.aligned⟩

theorem task {c : Core} {t : Task} (h : c.task.keeps t) : c.keeps { c with task := t } :=
  ⟨rfl, And.imp_left h.canonical, And.imp_left h.aligned⟩

theorem stagedTask {c : Core} {t : Task} (h : c.stagedTask.keeps t) : c.keeps { c with stagedTask := t } :=
  ⟨rfl, And.imp_right h.canonical, And.imp_right h.aligned⟩

theorem ite {c d e : Core} {p : Prop} [Decidable p] (hd : p → c.keeps d) (he : ¬p → c.keeps e) :
    c.keeps (if p then d else e) := by
  split
  · exact hd ‹_›
  · exact he ‹_›

end Core.keeps

theorem Core.blank_aligned (n : Nat) : (Core.blank n).aligned := ⟨Task.blank_aligned, Task.blank_aligned⟩

namespace State.keeps

/-- What changes the focused core alone. -/
theorem cur {s : State} {c : Core} (h : s.cur.keeps c) : s.keeps { s with cur := c } := by
  refine of_pcores (congrArg (· :: s.rest.map Core.pcore) h.pcore) ?_ ?_
  · rw [State.canonical_iff, State.canonical_iff]
    exact And.imp_right (And.imp_left h.canonical)
  · rw [State.aligned_iff, State.aligned_iff]
    exact And.imp_left h.aligned

/-- What changes the cores out of focus, each by itself. -/
theorem mapRest {s : State} {f : Core → Core} (h : ∀ c : Core, c.keeps (f c)) : s.keeps { s with rest := s.rest.map f } := by
  refine of_pcores (congrArg (s.cur.pcore :: ·) ?_) ?_ ?_
  · rw [List.map_map]
    exact List.map_congr_left fun c _ => (h c).pcore
  · rw [State.canonical_iff, State.canonical_iff]
    exact And.imp_right (And.imp_right fun hrest => List.forall_mem_map.2 fun c hc => (h c).canonical (hrest c hc))
  · rw [State.aligned_iff, State.aligned_iff]
    exact And.imp_right fun hrest => List.forall_mem_map.2 fun c hc => (h c).aligned (hrest c hc)

theorem mapCores {f : Core → Core} (h : ∀ c : Core, c.keeps (f c)) (s : State) : s.keeps (s.mapCores f) :=
  (cur (h s.cur)).trans (mapRest (s := { s with cur := f s.cur }) h)

theorem withTask {s : State} {t : Task} (h : s.task.keeps t) : s.keeps (s.withTask t) := cur (Core.keeps.task h)

/-- What holds translations and instruction words changes no register and no store. -/
theorem heldOnly {s t : State} (h : s.heldOnly t) : s.keeps t := by
  obtain ⟨tl, ic, n, xl, rfl⟩ := h
  exact (withTask (t := { s.task with tlb := tl, icache := ic }) ⟨id, id⟩).trans (of_eq rfl rfl rfl)

theorem setEng (s : State) (e : EngId) (g : Eng) : s.keeps (s.setEng e g) := withTask (.setEng s.task e g)

/-- Control registers with the same G and J registers and an aligned PC. -/
theorem withCtl {s : State} {c : Ctl} (hg : c.g = s.ctl.g) (hj : c.j = s.ctl.j)
    (hpc : s.ctl.pc.toNat % 8 = 0 → c.pc.toNat % 8 = 0) : s.keeps (s.withCtl c) := withTask (.ctl s.task hg hj hpc)

theorem setG (s : State) (d : BitVec 5) (v : Word) : s.keeps (s.setG d v) := by
  refine of_pcores rfl (State.canonical_setG · d v) ?_
  rw [State.aligned_iff, State.aligned_iff]
  refine And.imp_left (And.imp_left ?_)
  rintro ⟨hpc, hj⟩
  exact ⟨by simpa using hpc, by simpa using hj⟩

theorem setP (s : State) (i : BitVec 3) (b : Bool) : s.keeps (s.setP i b) :=
  withCtl (Ctl.setP_g ..) (Ctl.setP_j ..) (by rw [Ctl.setP_pc]; exact id)

end State.keeps

/-- What a sparse table lists after a write is the written value or was there. -/
theorem mem_spSet {β : Type} [DecidableEq β] {d v : β} {t : Sparse β} {k : Nat} {e : Nat × β} (h : e ∈ spSet d t k v) :
    e = (k, v) ∨ e ∈ t := by
  induction t with
  | nil =>
    unfold spSet at h
    split at h
    · cases h
    · exact .inl (List.mem_singleton.1 h)
  | cons x t ih =>
    obtain ⟨a, y⟩ := x
    simp only [spSet] at h
    split_ifs at h
    · exact .inr h
    · exact (List.mem_cons.1 h).imp_right id
    · exact .inr (List.mem_cons_of_mem _ h)
    · exact (List.mem_cons.1 h).imp_right (List.mem_cons_of_mem _)
    · rcases List.mem_cons.1 h with rfl | h
      · exact .inr List.mem_cons_self
      · exact (ih h).imp_right (List.mem_cons_of_mem _)

namespace State.keeps

/-- A J register is written with an aligned target. -/
theorem thenSetJ {s u : State} (hu : s.keeps u) (j : BitVec 3) {v : JReg} (hv : s.aligned → v.taddr.toNat % 8 = 0) :
    s.keeps (u.setJ j v) := by
  refine hu.trans_of_pcores rfl (State.canonical_setJ · j v) fun hs h => ?_
  rw [State.aligned_iff] at h ⊢
  obtain ⟨⟨⟨hpc, hall⟩, hstaged⟩, hrest⟩ := h
  refine ⟨⟨⟨hpc, fun e he => ?_⟩, hstaged⟩, hrest⟩
  rcases mem_spSet he with rfl | he
  · exact hv hs
  · exact hall e he

theorem setJ (s : State) (j : BitVec 3) {v : JReg} (hv : s.aligned → v.taddr.toNat % 8 = 0) : s.keeps (s.setJ j v) :=
  thenSetJ (refl s) j hv

end State.keeps

end Sys2Proof.Machine
end

section
/-! PROOF. Moving the focus keeps the four properties (O6), and so does what is done at another core. -/

namespace Sys2Proof.Machine

/-! ### Inserting a core in order -/

theorem insertCore_sorted {c : Core} {l : List Core} (h : (l.map (·.pcore)).Pairwise (· ≤ ·)) :
    ((insertCore c l).map (·.pcore)).Pairwise (· ≤ ·) := by
  induction l with
  | nil => exact List.pairwise_singleton ..
  | cons d t ih =>
    obtain ⟨hd, ht⟩ := List.pairwise_cons.1 h
    unfold insertCore
    split
    · next hlt =>
      refine List.pairwise_cons.2 ⟨fun n hn => ?_, h⟩
      rcases List.mem_cons.1 hn with rfl | hn
      · exact hlt.le
      · exact hlt.le.trans (hd n hn)
    · next hge =>
      refine List.pairwise_cons.2 ⟨fun n hn => ?_, ih ht⟩
      obtain ⟨e, he, rfl⟩ := List.mem_map.1 hn
      rcases insertCore_mem he with rfl | he
      · exact Nat.le_of_not_lt hge
      · exact hd _ (List.mem_map_of_mem he)

theorem filter_sorted {p : Core → Bool} {l : List Core} (h : (l.map (·.pcore)).Pairwise (· ≤ ·)) :
    ((l.filter p).map (·.pcore)).Pairwise (· ≤ ·) := h.sublist (List.filter_sublist.map _)

/-! ### The focus -/

/-- The core numbers listed after a change of focus, but for the one in focus, are among those listed before without it. -/
theorem State.focus_pcores_subperm {s : State} {n : Nat} (h : s.cur.pcore ≠ n) :
    ((s.focus n).rest.map (·.pcore)).Subperm ((s.cores.map (·.pcore)).filter (· != n)) := by
  have hcur : (s.cur.pcore != n) = true := by simpa using h
  have hlist : (s.cores.map (·.pcore)).filter (· != n) = s.cur.pcore :: (s.rest.filter (·.pcore != n)).map (·.pcore) := by
    rw [State.cores, List.map_cons, List.filter_cons, if_pos hcur, List.filter_map]
    rfl
  rw [State.focus_rest h, hlist]
  split
  · exact (List.sublist_cons_self ..).subperm
  · exact ((insertCore_perm ..).map _).subperm

theorem State.distinctOff_focus {s : State} {x : Nat → Bool} (h : s.distinctOff x) (n : Nat) : (s.focus n).distinctOff x := by
  by_cases hn : s.cur.pcore = n
  · rw [State.focus, if_pos hn]
    exact h
  · have hsub := State.focus_pcores_subperm hn
    have hnot : n ∉ (s.focus n).rest.map (·.pcore) := fun hmem => by simpa using hsub.subset hmem
    have hrest : (((s.focus n).rest.map (·.pcore)).filter x).Nodup := by
      obtain ⟨l, hperm, hl⟩ := hsub.filter x
      rw [List.filter_comm] at hl
      exact hperm.nodup_iff.1 ((h.sublist List.filter_sublist).sublist hl)
    rw [State.distinctOff, State.cores, List.map_cons, State.focus_pcore, List.filter_cons]
    split
    · exact List.nodup_cons.2 ⟨fun hmem => hnot (List.mem_of_mem_filter hmem), hrest⟩
    · exact hrest

theorem State.sorted_focus {s : State} (h : s.sorted) (n : Nat) : (s.focus n).sorted := by
  by_cases hn : s.cur.pcore = n
  · rw [State.focus, if_pos hn]
    exact h
  · rw [State.sorted, State.focus_rest hn]
    split
    · exact filter_sorted h
    · exact insertCore_sorted (filter_sorted h)

/-- The core that comes into focus was listed, or is blank. -/
theorem State.aligned_focus {s : State} (h : s.aligned) (n : Nat) : (s.focus n).aligned := by
  by_cases hn : s.cur.pcore = n
  · rw [State.focus, if_pos hn]
    exact h
  · obtain ⟨hcur, hrest⟩ := State.aligned_iff.1 h
    rw [State.aligned_iff, State.focus_rest hn, State.focus_cur hn]
    have hfilter : ∀ c ∈ s.rest.filter (·.pcore != n), c.aligned := fun c hc => hrest c (List.mem_of_mem_filter hc)
    constructor
    · unfold State.coreAt
      cases hfind : s.cores.find? fun c => c.pcore == n with
      | none => exact Core.blank_aligned n
      | some c => exact h c (List.mem_of_find?_eq_some hfind)
    · split
      · exact hfilter
      · intro c hc
        rcases insertCore_mem hc with rfl | hc
        · exact hcur
        · exact hfilter c hc

namespace State.keeps

theorem focus (s : State) (n : Nat) : s.keeps (s.focus n) :=
  ⟨(State.canonical_focus · n), (State.aligned_focus · n), fun _ h => State.distinctOff_focus h n, (State.sorted_focus · n)⟩

theorem onCore {f : State → State} (hf : ∀ u : State, u.keeps (f u)) (s : State) (n : Nat) : s.keeps (s.onCore n f) :=
  ((focus s n).trans (hf _)).trans (focus _ _)

end State.keeps

end Sys2Proof.Machine
end

section
/-! PROOF. The operations over the stores, the parts of a command and what reads and writes find in flight keep the four properties
(O6): most of them change the stores of the focused task alone, the others are done core by core. -/

namespace Sys2Proof.Machine.State.keeps

/-! ### Stores, updates and parts of commands -/

theorem choose (s : State) : s.keeps s.choose.2 := of_eq rfl rfl rfl

/-- A free choice that is made only where it is not forced. -/
theorem pick (s : State) (p : Prop) [Decidable p] (b : Bool) : s.keeps (if p then (b, s) else s.choose).2 := by
  split
  · exact refl s
  · exact choose s

theorem wrByte (s : State) (w : BWrite) : s.keeps (s.wrByte w) := of_outlines (s.outlines_wrByte w) (State.canonical_wrByte · w)

theorem wrBytes (s : State) (ws : List BWrite) : s.keeps (s.wrBytes ws) :=
  of_outlines (s.outlines_wrBytes ws) (State.canonical_wrBytes · ws)

theorem wrNat (s : State) (sp : Space) (a n v : Nat) : s.keeps (s.wrNat sp a n v) := wrBytes s _

theorem perform (s : State) (acc : Bool) (ws : List BWrite) (fs : List (Nat × Flag)) : s.keeps (s.perform acc ws fs) :=
  of_outlines (s.outlines_perform acc ws fs) (State.canonical_perform · acc ws fs)

theorem sluDeliver (op : SluOp) (olds : List (Nat × Nat)) (s : State) : s.keeps (op.deliver olds s) :=
  of_outlines (op.outlines_deliver olds s) (op.canonical_deliver olds)

theorem sluPerform (op : SluOp) (s : State) : s.keeps (op.perform s).s := of_outlines (op.outlines_perform s) op.canonical_perform

theorem seed (s : State) (x : BitVec 32) : s.keeps (s.withTask { s.task with sluGen := x }) := withTask ⟨id, id⟩

theorem doFold (s : State) (f : FoldOp) : s.keeps (s.doFold f) := wrNat s _ _ _ _

theorem reduce (s : State) (sp : Space) (rop fmt : Nat) (x : RedElem) : s.keeps (s.reduce sp rop fmt x) :=
  of_outlines (s.outlines_reduce sp rop fmt x) (State.canonical_reduce · sp rop fmt x)

theorem applyAt (s : State) (r : Req) (p : Space → Nat → Bool) : s.keeps (s.applyAt r p).1 :=
  of_outlines (s.outlines_applyAt r p) (State.canonical_applyAt · r p)

theorem seeded (s : State) (f : Flight) : s.keeps (s.seeded f) := of_outlines (s.outlines_seeded f) (State.canonical_seeded · f)

theorem drawsFor (s : State) (f : Flight) (p : Space → Nat → Bool) : s.keeps (s.drawsFor f p) :=
  of_outlines (s.outlines_drawsFor f p) (State.canonical_drawsFor · f p)

theorem sluParts (s : State) (f : Flight) (p : Space → Nat → Bool) : s.keeps (s.sluParts f p) :=
  of_outlines (s.outlines_sluParts f p) (State.canonical_sluParts · f p)

theorem landOwn (s : State) (e : EngId) (seq : Nat) (p : Space → Nat → Bool) : s.keeps (s.landOwn e seq p) :=
  of_outlines (s.outlines_landOwn e seq p) (State.canonical_landOwn · e seq p)

theorem landPart (s : State) (e : EngId) (seq : Nat) (p : Space → Nat → Bool) : s.keeps (s.landPart e seq p) :=
  of_outlines (s.outlines_landPart e seq p) (State.canonical_landPart · e seq p)

theorem landAt (s : State) (h : Nat × Space) (a n : Nat) (l : List (EngId × Flight)) : s.keeps (s.landAt h a n l) :=
  of_outlines (s.outlines_landAt h a n l) (State.canonical_landAt · h a n l)

/-! ### What comes behind what has been seen -/

theorem behindDrawn (s : State) (h : Nat × Space) (a n : Nat) : s.keeps (s.behindDrawn h a n) := landAt s h a n _

theorem behind (s : State) (h : Nat × Space) (a n : Nat) : s.keeps (s.behind h a n) :=
  of_outlines (s.outlines_behind h a n) (State.canonical_behind · h a n)

theorem behindOthers (s : State) (h : Nat × Space) (a n : Nat) : s.keeps (s.behindOthers h a n) :=
  foldl (fun u m => onCore (fun v => behind v h a n) u m) _ s

theorem behindSeen (s : State) (sp : Space) (a n : Nat) : s.keeps (s.behindSeen sp a n) :=
  (behind s _ a n).trans (behindOthers _ _ a n)

theorem overDrawn (s : State) (e : EngId) (ps : List (Space × Nat)) : s.keeps (s.overDrawn e ps) :=
  ite (fun _ => refl s) fun _ => foldl (fun u _ => behindDrawn u _ _ _) ps s

theorem overOthers (s : State) (ps : List (Space × Nat)) : s.keeps (s.overOthers ps) :=
  ite (fun _ => refl s) fun _ => foldl (fun u _ => behindOthers u _ _ _) ps s

theorem overAhead (s : State) (e : EngId) (ps : List (Space × Nat)) : s.keeps (s.overAhead e ps) :=
  (overDrawn s e ps).trans (overOthers _ ps)

/-! ### What a read finds -/

theorem reqPart (s : State) (e : EngId) (tag : BitVec 32) (p : Space → Nat → Bool) : s.keeps (s.reqPart e tag p) :=
  foldl (fun u r => ite (fun _ => refl u) fun _ =>
    ((overAhead u e _).trans (applyAt _ r p)).trans (setEng _ e _)) _ s

theorem showReqs (s : State) (e : EngId) (f : Flight) (want : Space → Nat → Bool) (key : Space → Nat → Nat) :
    s.keeps (s.showReqs e f want key) :=
  foldl (fun u r => foldl (fun v _ => (choose v).trans (ite (fun _ => reqPart _ e r.tag _) fun _ => refl _)) _ u) _ s

theorem showAt (s : State) (want : Space → Nat → Bool) (key : Flight → Space → Nat → Nat) : s.keeps (s.showAt want key) := by
  refine foldl (fun u e => foldl (fun v f => ite (fun _ => refl v) fun _ => ?_) _ u) _ s
  refine (foldl (fun w _ => ?_) _ v).trans (showReqs _ e f want (key f))
  exact (pick w _ true).trans (ite (fun _ => (overAhead _ e _).trans (landPart _ e f.seq _)) fun _ => refl _)

theorem showFor (s : State) (sp : Space) (a n : Nat) : s.keeps (s.showFor sp a n) :=
  (showAt s _ _).trans (foldl (fun u m => onCore (fun v => showAt v _ _) u m) _ _)

theorem pickSeen (s : State) (here : Space → Nat → Bool) (l : List (EngId × Flight)) (later : List ((Nat × Space) × Nat))
    (found : List Found) : s.keeps (s.pickSeen here l later found).2 := by
  induction l generalizing later found s with
  | nil => exact refl s
  | cons x t ih =>
    obtain ⟨e, f⟩ := x
    unfold State.pickSeen
    extract_lets ps mine under sure free first
    have hpick : s.keeps (if (mine.any f.saw || (under || first) && sure) = true then (true, s)
        else if free = true then s.choose else (false, s)).2 := by
      split_ifs
      · exact refl s
      · exact choose s
      · exact refl s
    generalize (if (mine.any f.saw || (under || first) && sure) = true then (true, s)
        else if free = true then s.choose else (false, s)) = r at hpick ⊢
    obtain ⟨whole, u⟩ := r
    dsimp only at hpick ⊢
    have hdraws (p : Space → Nat → Bool) :
        u.keeps (match whole, f.op with | true, .slu _ => u.drawsFor f p | _, _ => u) := by
      split
      · exact drawsFor u f p
      · exact refl u
    split_ifs
    · exact hpick.trans ((hdraws _).trans ((setEng _ e _).trans (ih _ _ _)))
    · exact hpick.trans ((hdraws _).trans (ih _ _ _))
    · exact hpick.trans (ih u _ _)

theorem glimpse (s : State) (sp : Space) (a : Nat) : s.keeps (s.glimpse sp a).1 := by
  have h := pickSeen s (fun x b => s.home s.cur x == s.home s.cur sp && b / 64 == a / 64) s.toLand.reverse [] []
  unfold State.glimpse
  exact h

/-- A load keeps the four properties. -/
theorem loaded (s : State) (sp : Space) (a n : Nat) : s.keeps (s.loaded sp a n).2 := by
  rw [State.loaded_eq]
  dsimp only
  exact (showFor s sp a n).trans (glimpse _ sp a)

end Sys2Proof.Machine.State.keeps
end

section
/-! PROOF. Faults, retirement and the instructions of the control core that compute, load, store and transfer keep the four properties
(O6). -/

namespace Sys2Proof.Machine

/-! ### Faults and retirement -/

/-- The next instruction's address is aligned where this one's is. -/
theorem pc_add_8_aligned {pc : Word} (h : pc.toNat % 8 = 0) : (pc + 8).toNat % 8 = 0 := by
  rw [BitVec.toNat_add, show (8 : Word).toNat = 8 from rfl]
  omega

theorem andNot7_aligned (x : Word) : (x &&& ~~~7#64).toNat % 8 = 0 := by
  rw [andNot7_toNat]
  exact Nat.mul_mod_left _ _

/-- A sparse table reads the default or a value that it lists. -/
theorem spGet_mem {β : Type} (d : β) (t : Sparse β) (k : Nat) : spGet d t k = d ∨ ∃ e ∈ t, e.2 = spGet d t k := by
  induction t with
  | nil => exact .inl rfl
  | cons x t ih =>
    obtain ⟨a, y⟩ := x
    unfold spGet
    split_ifs
    · exact .inl rfl
    · exact .inr ⟨_, List.mem_cons_self, rfl⟩
    · exact ih.imp_right fun ⟨e, he, heq⟩ => ⟨e, List.mem_cons_of_mem _ he, heq⟩

/-- A J register of an aligned task has an aligned target, also where none is listed. -/
theorem State.getJ_aligned {s : State} (h : s.aligned) (j : BitVec 3) : (s.ctl.getJ j).taddr.toNat % 8 = 0 := by
  obtain ⟨⟨⟨-, hall⟩, -⟩, -⟩ := State.aligned_iff.1 h
  unfold Ctl.getJ
  rcases spGet_mem JReg.blank s.ctl.j j.toNat with hblank | ⟨e, he, heq⟩
  · rw [hblank]
    rfl
  · rw [← heq]
    exact hall e he

namespace State.keeps

theorem takeFault (s : State) (st : StreamId) (tr : Trap) (pc w : Word) (n : Nat) : s.keeps (s.takeFault st tr pc w n) := by
  have htask (t : Task) (fs : List FaultRec) (h : s.task.keeps t) : s.keeps { s.withTask t with faults := fs } :=
    (withTask h).trans (of_eq rfl rfl rfl)
  unfold State.takeFault
  refine htask _ _ ?_
  split
  · exact ⟨id, id⟩
  · exact ⟨id, id⟩

theorem trapHere (s : State) (tr : Trap) : s.keeps (s.trapHere tr) := by
  have hctl : s.keeps (s.withCtl { s.ctl with waiting := false }) := withCtl rfl rfl id
  exact hctl.trans (takeFault _ _ _ _ _ _)

/-- The remote path's own registers (R75). -/
theorem setRemote (s : State) (r : Option Nat) (age : Nat) :
    s.keeps (s.withCtl { s.ctl with remote := r, remoteAge := age }) := withCtl rfl rfl id

theorem retired (s : State) {pc : Word} (h : s.ctl.pc.toNat % 8 = 0 → pc.toNat % 8 = 0) : s.keeps (s.retired pc) := by
  have hctl : s.keeps (s.withCtl { s.ctl with pc, waiting := false }) := withCtl rfl rfl h
  exact ite (fun _ => hctl.trans (takeFault _ _ _ _ _ _)) fun _ => hctl

end State.keeps

/-! ### What an instruction answers -/

/-- Every next state that `o` answers keeps the four properties of `s`. -/
def State.leads (s : State) (o : Out) : Prop := ∀ t, o = .next t → s.keeps t

namespace State.leads

theorem next {s t : State} (h : s.keeps t) : s.leads (.next t) := by
  rintro u hu
  cases hu
  exact h

theorem after {s u : State} {o : Out} (h : s.keeps u) (ho : u.leads o) : s.leads o := fun t ht => h.trans (ho t ht)

/-- The answer first: it says what state it is of. -/
theorem via {s u : State} {o : Out} (ho : u.leads o) (h : s.keeps u) : s.leads o := after h ho

theorem ite {s : State} {o o' : Out} {p : Prop} [Decidable p] (h : p → s.leads o) (h' : ¬p → s.leads o') :
    s.leads (if p then o else o') := by
  split
  · exact h ‹_›
  · exact h' ‹_›

theorem retireTo (s : State) {pc : Word} (h : s.ctl.pc.toNat % 8 = 0 → pc.toNat % 8 = 0) : s.leads (s.retireTo pc) :=
  next (.retired s h)

theorem retire (s : State) : s.leads s.retire := retireTo s pc_add_8_aligned

theorem fail (s : State) (tr : Trap) : s.leads (s.fail tr) := next (.trapHere s tr)

theorem wait (s : State) : s.leads s.wait := next (.withCtl rfl rfl id)

theorem qualified {s : State} {q : Qual} {k : State → Out} (h : s.leads (k s)) : s.leads (s.qualified q k) :=
  ite (fun _ => h) fun _ => retire s

theorem writeG (s : State) (q : Qual) (d : BitVec 5) (v : Word) : s.leads (s.writeG q d v) :=
  qualified (after (.setG s d v) (retire _))

theorem opWrite (s : State) (q : Qual) {f : Task → Task} (h : s.task.keeps (f s.task)) : s.leads (s.opWrite q f) :=
  qualified (ite (fun _ => fail s _) fun _ => after (.withTask h) (retire _))

theorem afterSeen {s : State} {wide : Bool} {k : State → Out} (h : s.leads (k s)) : s.leads (s.afterSeen wide k) :=
  ite (fun _ => wait s) fun _ => h

theorem remoteGate {s : State} {sp : Space} {va : Nat} {k : State → Out} (h : ∀ u, State.leads u (k u)) :
    s.leads (s.remoteGate sp va k) :=
  ite (fun _ => ite (fun _ => after (.setRemote s none 0) (h _)) fun _ => after (.setRemote s (some va) 0) (wait _)) fun _ => h s

/-! ### Loads and stores -/

theorem load (s : State) (d : BitVec 5) (va : Nat) (sz : BitVec 2) (sx : Bool) : s.leads (s.load d va sz sx) := by
  unfold State.load
  have h := keeps.heldOnly (s.target_heldOnly va (2 ^ sz.toNat) .load)
  generalize s.target va (2 ^ sz.toNat) .load = r at h
  obtain ⟨r, u⟩ := r
  refine after h ?_
  cases r with
  | trap tr => exact fail u tr
  | held => exact wait u
  | at_ sp a =>
    dsimp only
    split
    · exact fail u _
    · exact remoteGate fun v => after (.loaded v sp a (2 ^ sz.toNat)) (after (.setG _ d _) (retire _))

theorem store (s : State) (d : BitVec 5) (va : Nat) (sz : BitVec 2) : s.leads (s.store d va sz) := by
  unfold State.store
  have h := keeps.heldOnly (s.target_heldOnly va (2 ^ sz.toNat) .store)
  generalize s.target va (2 ^ sz.toNat) .store = r at h
  obtain ⟨r, u⟩ := r
  refine after h ?_
  cases r with
  | trap tr => exact fail u tr
  | held => exact wait u
  | at_ sp a => exact remoteGate fun v => after (.behindSeen v sp a _) (after (.wrNat _ sp a _ _) (retire _))

/-! ### Branch targets and transfers -/

theorem prepare (s : State) (j : BitVec 3) (taddr : Word) : s.leads (s.prepare j taddr).retire :=
  after (.setJ s j fun _ => andNot7_aligned taddr) (retire _)

end State.leads

namespace State.keeps

theorem prefetch (s : State) (va : Nat) : s.keeps (s.prefetch va).2 := heldOnly (s.prefetch_heldOnly va)

theorem enter (s : State) (va : Nat) (buf : List (Nat × Word)) : s.keeps (s.enter va buf) := withTask ⟨id, id⟩

/-- The fetch of a transfer writes the J register with the target that it holds (R158). -/
theorem transferFetch (s : State) (j : BitVec 3) : s.keeps (s.transferFetch j).2 := by
  have hheld := s.prefetch_heldOnly (s.ctl.getJ j).taddr.toNat
  unfold State.transferFetch
  dsimp only
  generalize s.prefetch (s.ctl.getJ j).taddr.toNat = r at hheld ⊢
  obtain ⟨r, u⟩ := r
  have htarget : u.aligned → (s.ctl.getJ j).taddr.toNat % 8 = 0 := fun h => State.heldOnly_ctl hheld ▸ State.getJ_aligned h j
  split
  · exact refl s
  · exact refl s
  · cases r
    · exact (heldOnly hheld).trans (setJ u j (v := ⟨_, .stale, []⟩) htarget)
    · exact (heldOnly hheld).trans (setJ u j (v := ⟨_, .ready, _⟩) htarget)

theorem shadowPush (s : State) : s.keeps s.shadowPush.2 := by
  unfold State.shadowPush
  split
  · exact refl s
  · exact heldOnly (s.shadowTarget_heldOnly _ _)

end State.keeps

namespace State.leads

theorem execXfer (j p : BitVec 3) (pn : Bool) (s : State) : s.leads (execXfer j p pn s) := by
  refine qualified ?_
  have h := keeps.transferFetch s j
  dsimp only
  generalize s.transferFetch j = r at h
  obtain ⟨r, u⟩ := r
  refine after h ?_
  cases r with
  | error tr => exact fail u tr
  | ok ws => exact after (.enter u _ ws) (retireTo _ fun _ => andNot7_aligned _)

/-- The push writes SSP and G31, and leaves J registers and PC to the retirement. -/
theorem execXcall (j p : BitVec 3) (pn : Bool) (s : State) : s.leads (execXcall j p pn s) := by
  refine qualified ?_
  have h := keeps.transferFetch s j
  dsimp only
  generalize s.transferFetch j = r at h
  obtain ⟨r, u⟩ := r
  cases r with
  | error tr => exact after h (fail u tr)
  | ok ws =>
    have hpush := h.trans (keeps.shadowPush u)
    dsimp only
    generalize u.shadowPush = r at hpush
    obtain ⟨r, v⟩ := r
    cases r with
    | error tr => exact after (hpush.thenSetJ j fun hs => State.getJ_aligned hs j) (fail _ _)
    | ok pa =>
      dsimp only at hpush ⊢
      generalize v.ctl.pc + 8 = link
      have hwr := hpush.trans ((keeps.behindSeen v .mem pa 8).trans (.wrNat _ .mem pa 8 link.toNat))
      generalize (v.behindSeen .mem pa 8).wrNat .mem pa 8 link.toNat = w at hwr
      have hssp : w.keeps (w.withCtl { w.ctl with ssp := w.ctl.ssp - 8 }) := .withCtl rfl rfl id
      refine after (hwr.trans (hssp.trans (.setG _ 31 link))) ?_
      exact after (.enter _ _ ws) (retireTo _ fun _ => andNot7_aligned _)

theorem execRet (q : Qual) (s : State) : s.leads (execRet q s) := by
  refine qualified (ite (fun _ => fail s _) fun _ => ?_)
  have h := keeps.heldOnly (s.shadowTarget_heldOnly s.ctl.ssp.toNat .pop)
  generalize s.shadowTarget s.ctl.ssp.toNat .pop = r at h
  obtain ⟨r, u⟩ := r
  refine after h ?_
  cases r with
  | error tr => exact fail u tr
  | ok pa =>
    dsimp only
    split
    · exact fail u _
    · refine after (.loaded u .mem pa 8) (ite (fun _ => fail _ _) fun _ => ?_)
      generalize (u.loaded .mem pa 8).2 = v
      have hfetch := keeps.prefetch v (u.getG 31).toNat
      generalize v.prefetch (u.getG 31).toNat = r at hfetch
      obtain ⟨r, w⟩ := r
      refine after hfetch ?_
      cases r with
      | error tr => exact fail w _
      | ok ws =>
        have hssp : w.keeps (w.withCtl { w.ctl with ssp := w.ctl.ssp + 8 }) := .withCtl rfl rfl id
        exact after hssp (after (.enter _ _ ws) (retireTo _ fun _ => andNot7_aligned _))

end State.leads
end Sys2Proof.Machine
end

section
/-! PROOF. The other instructions of the control core, and what a launch's end writes, keep the four properties (O6). -/

namespace Sys2Proof

variable {β : Type} [DecidableEq β] {d : β}

/-! ### The canonical form as an order of the keys -/

theorem spWfFrom_iff {lo : Nat} {t : Sparse β} :
    spWfFrom d lo t = true ↔ (t.map (·.1)).Pairwise (· < ·) ∧ ∀ e ∈ t, lo ≤ e.1 ∧ e.2 ≠ d := by
  induction t generalizing lo with
  | nil => simp [spWfFrom]
  | cons e t ih =>
    obtain ⟨a, x⟩ := e
    rw [spWfFrom_cons, ih, List.map_cons, List.pairwise_cons, List.forall_mem_cons, List.forall_mem_map]
    constructor
    · rintro ⟨hlo, hx, hkeys, hall⟩
      exact ⟨⟨fun e he => (hall e he).1, hkeys⟩, ⟨hlo, hx⟩, fun e he => ⟨by have := (hall e he).1; omega, (hall e he).2⟩⟩
    · rintro ⟨⟨hlt, hkeys⟩, ⟨hlo, hx⟩, hall⟩
      exact ⟨hlo, hx, hkeys, fun e he => ⟨hlt e he, (hall e he).2⟩⟩

theorem spWf_iff {t : Sparse β} : spWf d t = true ↔ (t.map (·.1)).Pairwise (· < ·) ∧ ∀ e ∈ t, e.2 ≠ d := by
  simp [spWf, spWfFrom_iff]

/-- Values may be changed at their keys, none to the default. -/
theorem spWf_mapEntries {f : Nat × β → β} {t : Sparse β} (hf : ∀ e ∈ t, e.2 ≠ d → f e ≠ d) (h : spWf d t = true) :
    spWf d (t.map fun e => (e.1, f e)) = true := by
  obtain ⟨hkeys, hvals⟩ := spWf_iff.1 h
  refine spWf_iff.2 ⟨?_, List.forall_mem_map.2 fun e he => hf e he (hvals e he)⟩
  rwa [List.map_map]

end Sys2Proof

namespace Sys2Proof.Machine

/-! ### Tasks -/

theorem JReg.staled_taddr (r : JReg) : r.staled.taddr = r.taddr := by
  unfold JReg.staled
  split <;> rfl

theorem JReg.staled_ne_blank {r : JReg} (h : r ≠ JReg.blank) : r.staled ≠ JReg.blank := by
  unfold JReg.staled
  split
  · exact h
  · exact fun hblank => nomatch congrArg JReg.st hblank

namespace Task.keeps

/-- J registers that go STALE keep their targets, and none becomes blank (R158). -/
theorem staled (t : Task) : t.keeps { t with ctl := { t.ctl with j := t.ctl.j.map fun e => (e.1, e.2.staled) } } := by
  constructor
  · rintro ⟨h1, h2, h3⟩
    exact ⟨h1, spWf_mapEntries (fun _ _ => JReg.staled_ne_blank) h2, h3⟩
  · rintro ⟨hpc, hj⟩
    refine ⟨hpc, List.forall_mem_map.2 fun e he => ?_⟩
    rw [JReg.staled_taddr]
    exact hj e he

theorem invalidate (t : Task) (lo hi : Nat) (whole : Bool) : t.keeps (t.invalidate lo hi whole) := (staled t).trans ⟨id, id⟩

theorem setTword (t : Task) (tid w : Nat) (v : Word) : t.keeps (t.setTword tid w v) :=
  ⟨fun ⟨h1, h2, h3, h⟩ => ⟨h1, h2, spWf_spSet h3, h⟩, id⟩

theorem setPat (t : Task) (k : Nat) (v : Word) : t.keeps { t with pat := spSet 0 t.pat k v } :=
  ⟨fun ⟨h1, h2, h3, h4, h⟩ => ⟨h1, h2, h3, spWf_spSet h4, h⟩, id⟩

theorem setSh (t : Task) (k : Nat) (v : Word) : t.keeps { t with sh := spSet 0 t.sh k v } :=
  ⟨fun ⟨h1, h2, h3, h4, h5, h⟩ => ⟨h1, h2, h3, h4, spWf_spSet h5, h⟩, id⟩

/-- FORK starts engines and gathers what was pending (R16, R166). -/
theorem forked (start : Eng → Nat → Eng) (l : List (EngId × Nat)) (t : Task) : t.keeps (t.forked start l) :=
  foldl (f := Task.forkOne start) (fun _ p => (setEng _ p.1 _).via ⟨id, id⟩) l t

theorem forkTask (s : State) (fn : BitVec 4) (l : List (EngId × Nat)) : s.task.keeps (s.forkTask fn l) :=
  (forked _ l s.task).trans ⟨id, id⟩

end Task.keeps

/-- A core whose resident task leaves it. -/
theorem Core.keeps.blankTask (c : Core) (slot : SlotSt) : c.keeps { c with slot, task := Task.blank } :=
  ⟨rfl, fun ⟨_, h⟩ => ⟨Task.blank_canonical, h⟩, fun ⟨_, h⟩ => ⟨Task.blank_aligned, h⟩⟩

/-! ### The end of a launch -/

namespace State.keeps

theorem setLaunch (s : State) (l : Launch) : s.keeps (s.setLaunch l) := of_eq rfl rfl rfl

theorem submit (s : State) (die part : Nat) (r : LaunchWords) : s.keeps (s.submit die part r).2 := by
  unfold State.submit
  split
  · exact refl s
  · exact of_eq rfl rfl rfl

theorem writeCompletion (s : State) (l : Launch) (status fcode : Nat) : s.keeps (s.writeCompletion l status fcode) := by
  unfold State.writeCompletion
  split
  · exact of_eq rfl rfl rfl
  · exact ((((wrNat s ..).trans (wrNat _ ..)).trans (wrNat _ ..)).trans (wrNat _ ..)).trans (wrNat _ ..)

theorem finishLaunch (s : State) (l : Launch) (status fcode : Nat) : s.keeps (s.finishLaunch l status fcode) :=
  (setLaunch s _).trans (writeCompletion _ l status fcode)

theorem uncover (s : State) : s.keeps s.uncover := of_eq rfl rfl rfl

theorem setGangs (s : State) (gs : List Gang) : s.keeps { s with gangs := gs } := of_eq rfl rfl rfl

theorem retireTask (s : State) : s.keeps s.retireTask := by
  unfold State.retireTask
  extract_lets t _ _ u
  have hcore : s.uncover.cur.keeps u.cur := .blankTask s.cur .empty
  have hu : s.keeps u := (uncover s).trans (cur hcore)
  split
  · exact hu
  · extract_lets l v w
    have hv : u.keeps v := setLaunch u l
    have hw : v.keeps w := setGangs v _
    exact hu.trans (hv.trans (hw.trans (ite (fun _ => finishLaunch w l 0 0) fun _ => refl w)))

theorem invalidatePart (s : State) (part : Nat) : s.keeps (s.invalidatePart part) :=
  mapCores (fun c => Core.keeps.ite (fun _ => .task (.invalidate ..)) fun _ => .refl c) s

theorem leaveIinv (s : State) (lid lcn : Nat) : s.keeps (s.leaveIinv lid lcn) := of_eq rfl rfl rfl

theorem leaveBarrier (s : State) (lid lcn : Nat) : s.keeps (s.leaveBarrier lid lcn) := of_eq rfl rfl rfl

theorem leaveWaits (s : State) (lid lcn : Nat) : s.keeps (s.leaveWaits lid lcn) :=
  (leaveIinv s lid lcn).trans (leaveBarrier _ lid lcn)

/-- Lists in memory are loaded word by word. -/
theorem loadWords (s : State) (n va : Nat) : s.keeps (s.loadWords n va).2 := by
  induction n generalizing s va with
  | zero => exact refl s
  | succ n ih =>
    have h := heldOnly (s.target_heldOnly va 8 .load)
    unfold State.loadWords
    generalize s.target va 8 .load = r at h
    obtain ⟨r, u⟩ := r
    refine h.trans ?_
    cases r with
    | trap tr => exact refl u
    | held => exact refl u
    | at_ sp a =>
      dsimp only
      split
      · exact refl u
      · refine (loaded u sp a 8).trans ?_
        have hrest := ih (u.loaded sp a 8).2 (va + 8)
        generalize (u.loaded sp a 8).2.loadWords n (va + 8) = r at hrest
        obtain ⟨r, v⟩ := r
        cases r <;> exact hrest

theorem primeList (s : State) (n va : Nat) (ls : List (Nat × Leaf)) : s.keeps (s.primeList n va ls).2 := by
  induction n generalizing s va ls with
  | zero => exact refl s
  | succ n ih =>
    have h := loadWords s 1 va
    unfold State.primeList
    generalize s.loadWords 1 va = r at h
    obtain ⟨r, u⟩ := r
    refine h.trans ?_
    cases r with
    | trap tr => exact refl u
    | held => exact refl u
    | words ws =>
      dsimp only
      split
      · exact ih u _ _
      · exact refl u
      · have hleaf := heldOnly (u.leafFor_heldOnly (ws.headD 0).toNat)
        generalize u.leafFor (ws.headD 0).toNat = r at hleaf
        obtain ⟨r, v⟩ := r
        refine hleaf.trans ?_
        cases r with
        | error c => exact refl v
        | ok l => exact ih v _ _

theorem putPayload (s : State) (p : Space × Nat) (bs : List Byte) : s.keeps (s.putPayload p bs) := wrBytes s _

end State.keeps

/-! ### Instructions -/

namespace State.leads

theorem execHalt (q : Qual) (s : State) : s.leads (execHalt q s) :=
  qualified (ite (fun _ => next (.retireTask s)) fun _ => wait s)

theorem execTrap (q : Qual) (imm16 : BitVec 16) (s : State) : s.leads (execTrap q imm16 s) := by
  have hpc : s.keeps (s.setPc (s.ctl.pc + 8)) := .withCtl rfl rfl pc_add_8_aligned
  exact qualified (next (hpc.trans (.takeFault _ _ _ _ _ _)))

theorem execSpset (q : Qual) (a : BitVec 5) (fn : BitVec 8) (s : State) : s.leads (execSpset q a fn s) := by
  have hssp : s.keeps (s.withCtl { s.ctl with ssp := s.getG a }) := .withCtl rfl rfl id
  exact qualified (ite (fun _ => fail s _) fun _ => ite (fun _ => after hssp (retire _)) fun _ => fail s _)

theorem execSpget (q : Qual) (d : BitVec 5) (fn : BitVec 8) (s : State) : s.leads (execSpget q d fn s) := by
  refine qualified ?_
  split
  · exact after (.setG s d _) (retire _)
  · exact fail s _

theorem execIinv (q : Qual) (a b : BitVec 5) (scope : BitVec 3) (whole : Bool) (s : State) :
    s.leads (execIinv q a b scope whole s) := by
  have hiinvs (u : State) (n : Nat) (is : List Iinv) : u.keeps { u with nextIinv := n, iinvs := is } := .of_eq rfl rfl rfl
  refine qualified ?_
  dsimp only
  split
  · exact ite (fun _ => after (hiinvs s _ _) (retire _)) fun _ => wait s
  · exact after (.leaveIinv s _ _) (after (hiinvs _ _ _) (wait _))

theorem execIinvInvalidationPoint (id : Nat) (s : State) : s.leads (execIinvInvalidationPoint id s) := by
  have hiinvs (u : State) (is : List Iinv) : u.keeps { u with iinvs := is } := .of_eq rfl rfl rfl
  unfold Machine.execIinvInvalidationPoint
  split
  · exact next (.refl s)
  · exact next (keeps.trans (.withTask (.invalidate ..)) (hiinvs _ _))

theorem execPrime (q : Qual) (a b : BitVec 5) (s : State) : s.leads (execPrime q a b s) := by
  refine qualified (ite (fun _ => fail s _) fun _ => ite (fun _ => fail s _) fun _ => ite (fun _ => fail s _) fun _ => ?_)
  have h := keeps.primeList s (s.getG b).toNat (s.getG a).toNat []
  generalize s.primeList (s.getG b).toNat (s.getG a).toNat [] = r at h
  obtain ⟨r, u⟩ := r
  refine after h ?_
  cases r with
  | trap tr => exact fail u tr
  | held => exact wait u
  | pins ls => exact (retire _).via (.withTask ⟨id, id⟩)

theorem execFork (q : Qual) (d a b : BitVec 5) (fn : BitVec 4) (s : State) : s.leads (execFork q d a b fn s) := by
  refine qualified ?_
  dsimp only
  split
  · exact fail s _
  · split
    · exact fail s _
    · exact ite (fun _ => wait s) fun _ => (retire _).via (.withTask (.forkTask s fn _))

theorem execJoin (q : Qual) (d : BitVec 5) (s : State) : s.leads (execJoin q d s) := by
  have hjoined : s.keeps (s.withTask s.task.joined) := .withTask ⟨id, id⟩
  exact qualified (ite (fun _ => after (hjoined.trans (.setG _ d _)) (retire _)) fun _ => wait s)

theorem execTwait (q : Qual) (d a : BitVec 5) (eng : BitVec 2) (seq20 : BitVec 20) (s : State) :
    s.leads (execTwait q d a eng seq20 s) := by
  refine qualified ?_
  split
  · exact fail s _
  · split
    · exact after (.setG s d _) (retire _)
    · exact wait s

theorem execQcancel (q : Qual) (mask : BitVec 3) (s : State) : s.leads (execQcancel q mask s) := by
  refine qualified (after (.withTask (.foldl (fun t e => ?_) engines s.task)) (retire _))
  split
  · exact .setEng t e _
  · exact .refl t

/-! ### Barriers -/

theorem barrier (s : State) (arr : Arrival) {done : List Byte → State → Out} (h : ∀ bs u, State.leads u (done bs u)) :
    s.leads (s.barrier arr done) := by
  have hdeparts (ds : List Depart) : s.keeps { s with departs := ds } := .of_eq rfl rfl rfl
  have harrivals (u : State) (as : List Arrival) : u.keeps { u with arrivals := as } := .of_eq rfl rfl rfl
  unfold State.barrier
  split
  · exact after (hdeparts _) (ite (fun _ => h _ _) fun _ => fail _ _)
  · exact ite (fun _ => wait s) fun _ => after (.leaveBarrier s _ _) (after (harrivals _ _) (wait _))

theorem execBar (q : Qual) (scope : BitVec 3) (bid : BitVec 6) (s : State) : s.leads (execBar q scope bid s) :=
  qualified (ite (fun _ => fail s _) fun _ => ite (fun _ => retire s) fun _ => barrier s _ fun _ u => retire u)

theorem execBarr (q : Qual) (a b : BitVec 5) (scope : BitVec 3) (bid : BitVec 6) (rop rtype : BitVec 3) (s : State) :
    s.leads (execBarr q a b scope bid rop rtype s) := by
  refine qualified (ite (fun _ => fail s _) fun _ => ite (fun _ => fail s _) fun _ => ite (fun _ => fail s _) fun _ => ?_)
  have hput (u : State) (dst : Space × Nat) (bs : List Byte) :
      u.leads (((u.behindSeen dst.1 dst.2 64).putPayload dst bs).retire) :=
    after (.behindSeen u _ _ _) (after (.putPayload _ _ _) (retire _))
  split
  · exact fail s _
  · exact fail s _
  · split
    · exact fail s _
    · exact after (.showFor s _ _ _) (ite (fun _ => hput _ _ _) fun _ => barrier _ _ fun bs u => hput u _ bs)

theorem execBarrierDeparture (lid : Nat) (scope : BitVec 3) (unit : Nat) (bid : BitVec 6) (s : State) :
    s.leads (execBarrierDeparture lid scope unit bid s) := by
  unfold Machine.execBarrierDeparture
  dsimp only
  split
  · exact next (.refl s)
  · exact ite (fun _ => next (.refl s)) fun _ => next (.of_eq rfl rfl rfl)

/-! ### LAUNCH -/

theorem execLaunch (q : Qual) (d a : BitVec 5) (s : State) : s.leads (execLaunch q d a s) := by
  refine qualified (ite (fun _ => fail s _) fun _ => ?_)
  have h := keeps.loadWords s 8 (s.getG a).toNat
  generalize s.loadWords 8 (s.getG a).toNat = r at h
  obtain ⟨r, u⟩ := r
  refine after h ?_
  cases r with
  | trap tr => exact fail u tr
  | held => exact wait u
  | words ws =>
    refine ite (fun _ => fail u _) fun _ => afterSeen (after (.submit u _ _ _) (after (.setG _ d _) (retire _)))

end State.leads

end Sys2Proof.Machine
end

section
/-! PROOF. Issuing a command keeps the four properties (O6) if its body does; the generic commands, the sequencer and the commands of the
matrix engine. -/

namespace Sys2Proof.Machine

/-! ### What a body answers -/

/-- Every state that `f` finds in an answer of `r` keeps the four properties of `s`. -/
def State.yields {α : Type} (s : State) (f : α → State) (r : Except Trap α) : Prop := ∀ x, r = .ok x → s.keeps (f x)

namespace State.yields

variable {α β : Type} {s : State} {f : β → State}

theorem ok {x : β} (h : s.keeps (f x)) : s.yields f (.ok x) := by
  rintro y hy
  cases hy
  exact h

theorem error (tr : Trap) : s.yields f (.error tr) := fun _ h => nomatch h

theorem after {u : State} {r : Except Trap β} (h : s.keeps u) (hr : u.yields f r) : s.yields f r := fun x hx => h.trans (hr x hx)

/-- What comes after a check, or after a read that leaves the state as it is. -/
theorem bind {r : Except Trap α} {k : α → Except Trap β} (h : ∀ x, s.yields f (k x)) : s.yields f (r >>= k) := by
  cases r with
  | error tr => exact error tr
  | ok x => exact h x

/-- What comes after something that changes the state. -/
theorem andThen {r : Except Trap α} {g : α → State} {k : α → Except Trap β} (hr : s.yields g r)
    (h : ∀ x, (g x).yields f (k x)) : s.yields f (r >>= k) := by
  cases r with
  | error tr => exact error tr
  | ok x => exact after (hr x rfl) (h x)

theorem ite {r r' : Except Trap β} {p : Prop} [Decidable p] (h : p → s.yields f r) (h' : ¬p → s.yields f r') :
    s.yields f (if p then r else r') := by
  split
  · exact h ‹_›
  · exact h' ‹_›

end State.yields

/-! ### Issue -/

namespace State.keeps

theorem failAt (s : State) (e : EngId) (tr : Trap) : s.keeps (s.failAt e tr) := by
  unfold State.failAt
  split
  · exact takeFault s _ _ _ _ _
  · exact refl s

theorem stopAt (s : State) (e : EngId) (f : Flight) (tr : Trap) (ktag conf : BitVec 32) : s.keeps (s.stopAt e f tr ktag conf) :=
  (setEng s e _).trans (takeFault _ _ _ _ _ _)

theorem stopNow (s : State) (e : EngId) : s.keeps (s.stopNow e) := by
  rcases s.stopNow_cases e with h | ⟨f, tr, -, -, -, h⟩
  · rw [h]
  · rw [h]
    exact stopAt s e _ tr 0 0

theorem issuedAs (s : State) (e : EngId) (h : CmdHead) (r : Res) (q : QEnt) (k : Cost) (i : Issued) :
    s.keeps (s.issuedAs e h r q k i) := (setEng s e _).trans (stopNow _ e)

end State.keeps

namespace State.leads

/-- All that an issue can do: nothing, a fault at the head, or the command in flight. -/
theorem issueAs {s : State} {e : EngId} {h : CmdHead} {r : Res} {cost : State → Cost} {body : State → Except Trap (State × Issued)}
    {ready : Ready} (hb : s.yields Prod.fst (body s)) : s.leads (s.issueAs e h r cost body ready) := by
  unfold State.issueAs
  split
  · exact next (.failAt s e _)
  · split
    · exact next (.failAt s e _)
    · next u i hu => exact ite (fun _ => next (.refl s)) fun _ => next ((hb _ hu).trans (.issuedAs u e h r _ _ i))
  · exact next (.refl s)

theorem issue {s : State} {e : EngId} {h : CmdHead} {r : Res} {cost : State → Cost} {body : State → Except Trap (State × Issued)}
    (hb : s.yields Prod.fst (body s)) : s.leads (s.issue e h r cost body) := issueAs hb

/-- A command with no effect of its own at issue. -/
theorem issueAlone (s : State) (e : EngId) (h : CmdHead) (r : Res) (cost : State → Cost) (i : Issued) :
    s.leads (s.issue e h r cost fun s => .ok (s, i)) := issue (.ok (.refl s))

theorem failFirst (s : State) (e : EngId) (r : Res) (c : Code) : s.leads (s.failFirst e r c) := by
  unfold State.failFirst
  split
  · split
    · exact next (.refl s)
    · exact next (.failAt s e _)
  · exact next (.refl s)

/-! ### The generic commands -/

theorem execIdle (e : EngId) (h : CmdHead) (extra : BitVec 26) (s : State) : s.leads (execIdle e h extra s) := by
  have hissue := issueAlone s e h .none noCost { instant := true }
  unfold Machine.execIdle
  split
  · next u heq => exact after (hissue u heq) (ite (fun _ => next (.refl u)) fun _ => next (.setEng u e _))
  · exact hissue

theorem execRep (e : EngId) (h : CmdHead) (body : BitVec 4) (countm1 : BitVec 12) (addr tid wstep : BitVec 3) (s : State) :
    s.leads (execRep e h body countm1 addr tid wstep s) := by
  have hissue := issueAlone s e h .none noCost { instant := true }
  unfold Machine.execRep
  dsimp only
  split
  · refine ite (fun _ => next (.takeFault s _ _ _ _ _)) fun _ => ite (fun _ => ?_) fun _ => ite (fun _ => next (.failAt s e _)) fun _ => ?_
    · exact ite (fun _ => next (.failAt s e _)) fun _ => next (.refl s)
    · split
      · next u heq => exact after (hissue u heq) (next (.setEng u e _))
      · exact hissue
  · exact next (.failAt s e _)
  · exact next (.refl s)

theorem execEfence (e : EngId) (h : CmdHead) (classes : BitVec 16) (scope : BitVec 3) (s : State) :
    s.leads (execEfence e h classes scope s) := by
  unfold Machine.execEfence
  dsimp only
  split
  · next u heq =>
    have hu := issue (.ite (fun _ => .ok (.refl s)) fun _ => .ite (fun _ => .error _) fun _ => .ok (.refl s)) u heq
    exact after hu (ite (fun _ => next (.refl u)) fun _ => next (.setEng u e _))
  · exact issue (.ite (fun _ => .ok (.refl s)) fun _ => .ite (fun _ => .error _) fun _ => .ok (.refl s))

theorem execEndStream (e : EngId) (h : CmdHead) (s : State) : s.leads (execEndStream e h s) := by
  have hissue := issueAlone s e h .none noCost { instant := true }
  unfold Machine.execEndStream
  dsimp only
  split
  · next u heq => exact after (hissue u heq) (ite (fun _ => next (.refl u)) fun _ => next (.setEng u e _))
  · exact hissue

theorem execCancelledAtHead (e : EngId) (s : State) : s.leads (execCancelledAtHead e s) := by
  unfold Machine.execCancelledAtHead
  dsimp only
  split
  · exact next (.refl s)
  · exact ite (fun _ => next (.setEng s e _)) fun _ => next (.refl s)

/-! ### The sequencer -/

theorem execSequencerFetch (e : EngId) (s : State) : s.leads (execSequencerFetch e s) := by
  refine ite (fun _ => ite (fun _ => ?_) fun _ => ?_) fun _ => next (.refl s)
  · rcases hnext : s.nextWord e with ⟨r, u⟩
    refine after (.heldOnly (State.nextWord_heldOnly hnext)) ?_
    cases r with
    | ok n => exact ite (fun _ => next (.setEng u e _)) fun _ => next (.setEng u e _)
    | error tr => exact ite (fun _ => next (.takeFault u _ _ _ _ _)) fun _ => next (.refl u)
  · exact ite (fun _ => next (.takeFault s _ _ _ _ _)) fun _ => next (.refl s)

theorem overdue (s : State) (e : EngId) : s.leads (s.overdue e) := by
  refine ite (fun _ => ?_) fun _ => next (.refl s)
  generalize s.nextWord e = r
  obtain ⟨r, u⟩ := r
  cases r with
  | ok n => exact ite (fun _ => next (.takeFault s _ _ _ _ _)) fun _ => next (.refl s)
  | error tr => exact next (.refl s)

theorem execFrameStart (e : EngId) (s : State) : s.leads (execFrameStart e s) :=
  ite (fun _ => next (.setEng s e _)) fun _ => next (.refl s)

end State.leads

/-! ### Sources -/

theorem State.keeps.asRead (s : State) (e : EngId) : s.keeps (s.asRead e) := by
  unfold State.asRead
  extract_lets lid u
  have hu : s.keeps u := by
    unfold u
    split
    · exact refl s
    · exact showAt s _ _
  refine hu.trans (foldl (fun v c => ?_) _ u)
  exact onCore (fun w => showAt w _ _) v c.pcore

theorem State.keeps.mapPages (s : State) (k : Acc) (timed : Bool) (ps : List Nat) : s.keeps (s.mapPages k timed ps).2 :=
  heldOnly (s.mapPages_heldOnly k timed ps)

theorem State.yields.readIn (s : State) (e : EngId) (rs : List Run) : s.yields Prod.snd (s.readIn e rs) :=
  after (.mapPages s .load (s.eng e).strict (pagesOf rs)) (bind fun _ => bind fun _ => ok (.refl _))

theorem State.yields.readEnv (s : State) (e : EngId) (vs : List View) : s.yields Prod.snd (s.readEnv e vs) :=
  after (.asRead s e) (readIn _ e _)

end Sys2Proof.Machine
end

section
/-! PROOF. The commands of the matrix engine keep the four properties (O6): what their bodies change at issue is the lane states and
the drain's flags, beside the translations that they hold and what their reads show. -/

namespace Sys2Proof.Machine

/-- The lanes of an engine's generator are left in another state (R71). -/
theorem State.keeps.drainLanes (s : State) (x : Sparse (BitVec 32)) : s.keeps (s.withTask { s.task with drainGen := x }) :=
  withTask ⟨id, id⟩

theorem State.keeps.flumeLanes (s : State) (x : Sparse (BitVec 32)) : s.keeps (s.withTask { s.task with flumeGen := x }) :=
  withTask ⟨id, id⟩

namespace State.yields

theorem mmaBody (a b c : BitVec 6) (sem : Semi) (acc ta tb : Bool) (s : State) : s.yields Prod.fst (mmaBody a b c sem acc ta tb s) := by
  refine bind fun _ => bind fun va => bind fun vb => bind fun vc => bind fun _ => ?_
  refine after (.asRead s .matrix) (bind fun _ => bind fun _ => bind fun _ => bind fun _ => ?_)
  generalize s.asRead .matrix = u
  dsimp only
  refine bind fun _ => bind fun _ => bind fun _ => bind fun _ => ite (fun _ => ok (.refl u)) fun _ => ?_
  exact andThen (readIn u .matrix _) fun _ => bind fun _ => ok (.refl _)

theorem acczBody (c : BitVec 6) (s : State) : s.yields Prod.fst (acczBody c s) :=
  bind fun _ => bind fun _ => bind fun _ => bind fun _ => bind fun _ => ok (.refl s)

theorem acccpBody (a c : BitVec 6) (zsrc : Bool) (s : State) : s.yields Prod.fst (acccpBody a c zsrc s) :=
  bind fun _ => bind fun va => bind fun _ => bind fun _ => bind fun _ => bind fun _ =>
    andThen (readEnv s .matrix [va]) fun _ => ok (.refl _)

theorem wfillBody (a c : BitVec 6) (s : State) : s.yields Prod.fst (wfillBody a c s) :=
  bind fun _ => bind fun _ => bind fun _ => bind fun _ => bind fun _ =>
    after (.asRead s .matrix) (bind fun _ => bind fun _ => bind fun _ => bind fun _ => ok (.refl _))

theorem winvBody (c : BitVec 6) (whole : Bool) (s : State) : s.yields Prod.fst (winvBody c whole s) := by
  refine ite (fun _ => ok (.refl s)) fun _ => bind fun _ => bind fun vc => bind fun _ => bind fun _ => ?_
  have hread : s.keeps (if vc.t.layout = 3 then s.asRead .matrix else s) := .ite (fun _ => .asRead s .matrix) fun _ => .refl s
  exact after hread (bind fun _ => bind fun _ => bind fun _ => ok (.refl _))

theorem rankCommand (a c : BitVec 6) (len : Nat → Nat) (small : Nat → Bool) (f : List Num → List Nat) (s : State) :
    s.yields Prod.fst (rankCommand a c len small f s) :=
  bind fun _ => bind fun va => bind fun _ => bind fun _ => bind fun _ => bind fun _ =>
    andThen (readEnv s .matrix [va]) fun _ => ok (.refl _)

theorem seedOperand (e : EngId) (a : BitVec 6) (s : State) : s.yields Prod.fst (seedOperand e a s) :=
  bind fun _ => bind fun _ => bind fun _ => bind fun _ =>
    after (.asRead s e) (andThen (readIn _ e _) fun _ => ok (.refl _))

theorem mseedBody (a : BitVec 6) (s : State) : s.yields Prod.fst (mseedBody a s) :=
  bind fun _ => andThen (seedOperand .matrix a s) fun x => ok (.drainLanes x.1 _)

theorem drainBody (amax : Bool) (a c : BitVec 6) (sh : BitVec 3) (s : State) : s.yields Prod.fst (drainBody amax a c sh s) := by
  refine bind fun _ => bind fun va => bind fun vc => bind fun _ => bind fun _ => bind fun _ => bind fun _ => ?_
  dsimp only
  refine after (.mapPages s .store _ _) (bind fun _ => andThen (readEnv _ .matrix _) fun x => ok ?_)
  exact (State.keeps.setEng _ .matrix _).via (.drainLanes x.2 _)

end State.yields
end Sys2Proof.Machine
end

section
/-! PROOF. The commands of the flume and of the sluice keep the four properties (O6): at issue they change lane states, flags and the
requests that they send, beside what their reads hold and show. -/

namespace Sys2Proof.Machine

/-! ### The flume -/

namespace State.keeps

theorem setFresh (s : State) (n : Nat) : s.keeps { s with fresh := n } := of_eq rfl rfl rfl

theorem flumeElems (s r : State) (op : FluOp) (k : Nat) (il : List Run) : s.keeps (s.flumeElems r op k il).2 := by
  unfold State.flumeElems
  dsimp only
  refine (State.keeps.setEng _ .flume _).via ?_
  refine (keeps.ite (fun _ => .refl _) fun _ => .flumeLanes _ _).via ?_
  refine (keeps.ite (fun _ => .setFresh _ _) fun _ => .refl _).via ?_
  exact (mapPages s ..).trans (mapPages _ ..)

theorem sendPutr (s : State) (seq : Nat) (op : FluOp) (rop : Nat) (red : List (Nat × RedElem)) :
    s.keeps (s.sendPutr seq op rop red) := setEng s .flume _

theorem sluGo (s : State) (op : SluOp) (written : List View) : s.keeps (s.sluGo op written).1 := by
  unfold State.sluGo
  dsimp only
  split
  · exact setEng s .sluice _
  · exact refl s

end State.keeps

namespace State.yields

theorem flumeGo (s : State) (op : FluOp) (il : Option View) : s.yields Prod.fst (s.flumeGo op il) := by
  refine bind fun _ => ite (fun _ => ok (.refl s)) fun _ => ?_
  refine after (.asRead s .flume) ?_
  generalize s.asRead .flume = u
  dsimp only
  refine bind fun _ => bind fun _ => bind fun _ => bind fun _ => ok ?_
  dsimp only
  refine (keeps.flumeElems _ _ _ _ _).via ?_
  exact .mapPages u ..

theorem copyBody (a c : BitVec 6) (s : State) : s.yields Prod.fst (copyBody a c s) :=
  bind fun _ => bind fun _ => bind fun _ => bind fun _ => bind fun _ => bind fun _ => flumeGo s _ _

theorem fillBody (a c : BitVec 6) (zero : Bool) (s : State) : s.yields Prod.fst (fillBody a c zero s) := by
  refine bind fun _ => ?_
  extract_lets k
  have hrest (va : View) : s.yields Prod.fst (k va) :=
    bind fun _ => bind fun _ => bind fun _ => bind fun _ => flumeGo s _ _
  exact ite (fun _ => bind hrest) fun _ => bind hrest

theorem gatherBody (scatter skip : Bool) (a b c : BitVec 6) (s : State) : s.yields Prod.fst (gatherBody scatter skip a b c s) :=
  bind fun _ => bind fun _ => bind fun _ => bind fun _ => bind fun _ => bind fun _ => bind fun _ => flumeGo s _ _

theorem gathpBody (a b c : BitVec 6) (pshift : BitVec 6) (skip : Bool) (s : State) :
    s.yields Prod.fst (gathpBody a b c pshift skip s) :=
  bind fun _ => bind fun _ => bind fun _ => bind fun _ => bind fun _ => bind fun _ => bind fun _ => flumeGo s _ _

theorem exp24Body (a c : BitVec 6) (s : State) : s.yields Prod.fst (exp24Body a c s) :=
  bind fun _ => bind fun _ => bind fun _ => bind fun _ => bind fun _ => bind fun _ => flumeGo s _ _

theorem bcastBody (a c : BitVec 6) (scope : BitVec 3) (s : State) : s.yields Prod.fst (bcastBody a c scope s) :=
  bind fun _ => bind fun _ => bind fun _ => bind fun _ => bind fun _ => bind fun _ => flumeGo s _ _

theorem cmpbBody (a b c : BitVec 6) (s : State) : s.yields Prod.fst (cmpbBody a b c s) :=
  bind fun _ => bind fun _ => bind fun _ => bind fun _ => bind fun _ => bind fun _ => bind fun _ => flumeGo s _ _

theorem putrBody (a c : BitVec 6) (rop : BitVec 2) (s : State) : s.yields Prod.fst (putrBody a c rop s) := by
  refine bind fun _ => bind fun _ => bind fun _ => bind fun _ => bind fun _ => bind fun _ => bind fun _ => ?_
  refine after (.asRead s .flume) ?_
  generalize s.asRead .flume = u
  dsimp only
  exact bind fun _ => ok ((keeps.sendPutr ..).via (.flumeElems u ..))

theorem fseedBody (a : BitVec 6) (s : State) : s.yields Prod.fst (fseedBody a s) :=
  bind fun _ => andThen (seedOperand .flume a s) fun x => ok (.via (.flumeLanes _ _) (.setEng x.1 .flume _))

theorem pfetchBody (a : BitVec 6) (s : State) : s.yields Prod.fst (pfetchBody a s) :=
  bind fun _ => bind fun _ => bind fun _ => bind fun _ => ok (.mapPages s ..)

/-! ### The sluice -/

theorem sluBody (kind : SluKind) (a : BitVec 6) (b : Option (BitVec 6)) (c : BitVec 6) (skip bWritten cWritten : Bool)
    (kinds : List Nat) (fmtBad : View → Option View → Bool) (bShort : View → Nat → Bool) (s : State) :
    s.yields Prod.fst (sluBody kind a b c skip bWritten cWritten kinds fmtBad bShort s) := by
  refine bind fun _ => bind fun _ => ?_
  extract_lets n u rows view k
  have hread : s.keeps u := .asRead s .sluice
  have hrest (vb : Option View) : s.yields Prod.fst (k vb) := by
    refine bind fun _ => bind fun _ => bind fun _ => bind fun _ => ?_
    refine bind fun _ => bind fun _ => bind fun _ => bind fun _ => ok ?_
    exact hread.trans ((keeps.sluGo ..).via ((keeps.setEng _ .sluice _).via (.mapPages u ..)))
  split
  · exact bind hrest
  · exact bind hrest

theorem cmergeBody (a c : BitVec 6) (s : State) : s.yields Prod.fst (cmergeBody a c s) :=
  bind fun _ => bind fun _ => bind fun _ => bind fun _ => bind fun _ => bind fun _ =>
    ok ((keeps.asRead s .sluice).trans (.sluGo _ _ _))

theorem creadBody (a c : BitVec 6) (s : State) : s.yields Prod.fst (creadBody a c s) := by
  refine bind fun _ => bind fun _ => bind fun _ => bind fun _ => bind fun _ => bind fun _ => ?_
  refine after (.asRead s .sluice) ?_
  generalize s.asRead .sluice = u
  dsimp only
  exact bind fun _ => bind fun _ => ok ((keeps.sluGo ..).via (.mapPages u ..))

theorem sseedBody (a : BitVec 6) (s : State) : s.yields Prod.fst (sseedBody a s) := by
  refine bind fun _ => andThen (seedOperand .sluice a s) ?_
  rintro ⟨u, seed, v⟩
  dsimp only
  split
  · exact ok (.setEng u .sluice _)
  · exact ok (.seed u _)

end State.yields

/-- In a timed frame a prefetch is refused at its stamp (R254). -/
theorem State.leads.execPfetch (h : CmdHead) (a : BitVec 6) (s : State) : s.leads (execPfetch h a s) := by
  unfold Machine.execPfetch
  dsimp only
  split
  · split
    · exact next (.failAt s .flume _)
    · exact next (.refl s)
    · exact next (.failAt s .flume _)
  · exact issue (.pfetchBody a s)

end Sys2Proof.Machine
end

section
/-! PROOF. Landing, requests and their timeouts, and the continuation of a stopped command keep the four properties (O6). -/

namespace Sys2Proof.Machine

/-- Weights that land change no register (R206, R207). -/
theorem Task.landWeights_aligned {t : Task} {cells : List (Nat × Byte)} {lines : List (Nat × Nat)} (h : t.aligned) :
    (t.landWeights cells lines).aligned := by
  have hctl : (t.landWeights cells lines).ctl = t.ctl := by
    change ((t.dropLines lines).fillWeights cells).outline.ctl = t.ctl
    rw [Task.outline_fillWeights]
    rfl
  simpa only [Task.aligned, hctl] using h

/-- RANGE bits are in the words of the tile descriptors. -/
theorem Task.keeps.setRanges (t : Task) (tids : List Nat) : t.keeps (t.setRanges tids) :=
  foldl (fun u n => setTword u n 0 _) tids t

namespace State.keeps

/-! ### Lanes and requests -/

theorem rewind (s : State) (op : FluOp) (gens : Sparse (BitVec 32)) : s.keeps (s.rewind op gens).1 := by
  unfold State.rewind
  split
  · exact flumeLanes s gens
  · exact refl s

theorem rewindSent (s : State) (f : Flight) (k : Nat) : s.keeps (s.rewindSent f k).1 := by
  unfold State.rewindSent
  split
  · split
    · exact rewind s _ _
    · exact refl s
  · exact refl s

theorem resumeSent (s : State) (f : Flight) : s.keeps (s.resumeSent f).1 := by
  unfold State.resumeSent
  split
  · split
    · exact rewind s _ _
    · exact refl s
  · exact refl s

theorem deliverConfirmed (s : State) (e : EngId) (f : Flight) : s.keeps (s.deliverConfirmed e f) := by
  unfold State.deliverConfirmed
  split
  · exact (setEng _ e _).via (sluDeliver _ _ s)
  · exact refl s

theorem applyReq (s : State) (r : Req) : s.keeps (s.applyReq r).1 := by
  unfold State.applyReq
  split
  · refine foldl (fun u x => ?_) _ s
    exact reduce u _ _ _ x
  · exact sluPerform _ s
  · exact doFold s _

theorem setTagsSeen (s : State) (ts : List TagSeen) : s.keeps { s with tagsSeen := ts } := of_eq rfl rfl rfl

theorem arrive (s : State) (e : EngId) (r : Req) : s.keeps (s.arrive e r) := by
  unfold State.arrive
  dsimp only
  split
  · exact setEng s e _
  · split
    · exact refl s
    · split
      · split
        · exact (stopAt _ e _ _ _ _).via ((deliverConfirmed _ e _).via (rewindSent s _ _))
        · exact refl s
      · refine (setTagsSeen _ _).via ((setEng _ e _).via ?_)
        exact (overAhead s e _).trans (applyReq _ r)

/-! ### Landing -/

theorem sluLand (op : SluOp) (seed : Option (BitVec 32)) (s : State) : s.keeps (op.land seed s).1 := by
  have hdone := (sluPerform op s).trans (sluDeliver op ((op.perform s).olds ++ op.olds) _)
  unfold SluOp.land
  dsimp only
  split
  · exact hdone
  · split
    · exact hdone.trans (keeps.seed _ _)
    · exact hdone

theorem landOp (s : State) (e : EngId) (f : Flight) : s.keeps (s.landOp e f).1 := by
  unfold State.landOp
  split
  · next op hop =>
    dsimp only
    split
    · have hback := sluDeliver op (((s.eng e).reqs.filter fun r => r.seq == f.seq).flatMap (·.olds)).reverse s
      split
      · exact hback.trans (keeps.seed _ _)
      · exact hback
    · exact sluLand op _ s
  · split
    · exact refl s
    · exact doFold s _
  · exact withTask ⟨fun h => Task.canonical_landWeights h _ _, Task.landWeights_aligned⟩
  · exact refl s

theorem exhume (s : State) (bs : List Buried) : s.keeps (s.exhume bs) :=
  of_outlines (s.outlines_exhume bs) (State.canonical_exhume · bs)

theorem rebury (s : State) (bs : List Buried) (t : State) : t.keeps (s.rebury bs t) :=
  of_outlines (s.outlines_rebury bs t) (State.canonical_rebury s bs)

theorem landing (s : State) (e : EngId) (f : Flight) : s.keeps (s.landing e f) :=
  ((overAhead s e _).trans (exhume _ _)).trans (perform _ _ _ _)

theorem landEffects (s : State) (e : EngId) (f : Flight) : s.keeps (s.landEffects e f).1 := by
  unfold State.landEffects
  dsimp only
  refine (setEng _ e _).via ?_
  refine (withTask (.setRanges _ f.ranges)).via ?_
  exact (rebury _ _ _).via ((landing s e f).trans (landOp _ e f))

/-! ### Timeouts -/

theorem redPut (s : State) (sp : Space) (x : RedElem) (v : Nat) : s.keeps (s.redPut sp x v) := wrBytes s _

theorem sluPut (s : State) (v : View) (e code : Nat) : s.keeps (s.sluPut v e code) :=
  of_outlines (s.outlines_sluPut v e code) (State.canonical_sluPut · v e code)

theorem scramble (s : State) (r : Req) : s.keeps (s.scramble r) := by
  have hput (u : State) (x : RedElem) : u.keeps { u.redPut r.tgt x (Config.freeWord u.fresh).toNat with fresh := u.fresh + 1 } :=
    (redPut u r.tgt x _).trans (of_eq rfl rfl rfl)
  have hone (u : State) (v : View) (e : Nat) :
      u.keeps { u.sluPut v e (Config.freeWord u.fresh).toNat with fresh := u.fresh + 1 } :=
    (sluPut u v e _).trans (of_eq rfl rfl rfl)
  unfold State.scramble
  split
  · exact foldl hput _ s
  · exact hput s _
  · dsimp only
    split
    · exact (foldl (fun u i => ite (fun _ => hone u _ i) fun _ => refl u) _ _).via (foldl (fun u e => hone u _ e) _ s)
    · exact foldl (fun u e => hone u _ e) _ s

theorem settleTimeout (s : State) (e : EngId) : s.keeps (s.settleTimeout e) := by
  unfold State.settleTimeout
  dsimp only
  split
  · exact refl s
  · split
    · exact refl s
    · split
      · exact refl s
      · refine (stopAt _ e _ _ _ _).via ((deliverConfirmed _ e _).via ?_)
        refine (choose s).trans ?_
        generalize s.choose.2 = u
        have hsent (p : Prop) [Decidable p] (l : List Req) : u.keeps (if p then l.foldl State.scramble u else u) :=
          ite (fun _ => foldl scramble l u) fun _ => refl u
        split
        · dsimp only
          exact hsent _ _
        · refine (rewindSent _ _ _).via ?_
          exact hsent _ _

end State.keeps

namespace State.leads

theorem execReductionRequest (e : EngId) (tag : BitVec 32) (s : State) : s.leads (execReductionRequest e tag s) := by
  unfold Machine.execReductionRequest
  split
  · exact next (.refl s)
  · exact ite (fun _ => next (.arrive s e _)) fun _ => next (.refl s)

theorem execCommandLands (e : EngId) (seq : Nat) (s : State) : s.leads (execCommandLands e seq s) := by
  unfold Machine.execCommandLands
  split
  · exact next (.refl s)
  · next f hf =>
    refine ite (fun _ => next (.refl s)) fun _ => ?_
    have heffects := keeps.landEffects s e f
    generalize s.landEffects e f = r at heffects
    obtain ⟨u, bad⟩ := r
    dsimp only at heffects ⊢
    split
    · exact next (.stopAt s e f _ _ _)
    · refine after heffects ?_
      split
      · exact next (.stopAt u e _ _ _ _)
      · exact next (.stopAt u e _ _ 0 0)
      · have hland (fs : List Flight) : u.keeps (u.setEng e { u.eng e with flight := fs }) := .setEng u e _
        refine after (hland _) (ite (fun _ => next (.arrive _ e _)) fun _ => next (.refl _))
      · exact next (.setEng u e _)

theorem execRemoteConfirmation (e : EngId) (tag : BitVec 32) (s : State) : s.leads (execRemoteConfirmation e tag s) :=
  ite (fun _ => next ((keeps.setEng s e _).trans (.settleTimeout _ e))) fun _ => next (.refl s)

theorem execPutrRequestTimeout (e : EngId) (tag : BitVec 32) (s : State) : s.leads (execPutrRequestTimeout e tag s) := by
  unfold Machine.execPutrRequestTimeout
  dsimp only
  split
  · exact ite (fun _ => next ((keeps.setEng s e _).trans (.settleTimeout _ e))) fun _ => next (.refl s)
  · exact next (.refl s)

end State.leads

namespace State.keeps

theorem castSome (f : Flight) (ends : List FluEnd) (k t : Nat) (ns : List Nat) (s : State) :
    s.keeps (s.castSome f ends k t ns).1 := by
  induction ns generalizing s with
  | nil => exact refl s
  | cons n ns ih => exact (setFresh s _).trans (ih _)

theorem cutRemote (s : State) (e : EngId) (f : Flight) : s.keeps (s.cutRemote e f) := by
  unfold State.cutRemote
  split
  · dsimp only
    split
    · exact refl s
    · split
      · exact refl s
      · refine (stopAt _ e _ _ _ _).via ((rewind _ _ _).via ((wrBytes _ _).via ?_))
        split
        · split
          · exact setFresh s _
          · exact (castSome ..).via (setFresh s _)
        · exact setFresh s _
  · exact refl s

end State.keeps

theorem State.leads.execRemoteTimeout (agent : StreamId) (s : State) : s.leads (execRemoteTimeout agent s) := by
  cases agent with
  | control =>
    unfold Machine.execRemoteTimeout
    dsimp only
    split
    · exact ite (fun _ => next ((keeps.setRemote s none 0).trans (.trapHere _ _))) fun _ => next (.refl s)
    · exact next (.refl s)
  | engine e =>
    unfold Machine.execRemoteTimeout
    dsimp only
    split
    · exact ite (fun _ => next (.cutRemote s e _)) fun _ => next (.refl s)
    · exact next (.refl s)

/-! ### Going on -/

namespace State.keeps

theorem redoFlume (s : State) (f : Flight) (op : FluOp) (k : Nat) : s.keeps (s.redoFlume f op k).2 := by
  unfold State.redoFlume
  dsimp only
  have helems (r : State) : s.keeps ((s.asRead .flume).flumeElems r op k []).2 := (asRead s .flume).trans (flumeElems ..)
  split
  · exact (sendPutr ..).via (helems _)
  · exact helems _

theorem continueEng (s : State) (e : EngId) : s.keeps (s.continueEng e) := by
  unfold State.continueEng
  dsimp only
  split
  · exact refl s
  · split
    · exact refl s
    · refine (setEng _ e _).via ?_
      split
      · exact (redoFlume ..).via (setEng s e _)
      · exact (resumeSent ..).via (setEng s e _)

end State.keeps
end Sys2Proof.Machine
end

section
/-! PROOF. Boot, power states, cutting what is in flight and fatal errors keep the four properties (O6). -/

namespace Sys2Proof.Machine

namespace State.keeps

/-! ### Boot and power -/

/-- A package with one core, which holds no task. -/
theorem blank {s t : State} (hm : s.canonical → Memory.wf t.mem = true) {n : Nat} (hc : t.cur = Core.blank n) (hr : t.rest = []) :
    s.keeps t := by
  refine ⟨fun h => ?_, fun _ => ?_, fun x _ => ?_, fun _ => ?_⟩
  · rw [State.canonical_iff, hc, hr]
    exact ⟨hm h, ⟨Task.blank_canonical, Task.blank_canonical⟩, fun _ hmem => nomatch hmem⟩
  · rw [State.aligned_iff, hc, hr]
    exact ⟨Core.blank_aligned n, fun _ hmem => nomatch hmem⟩
  · rw [State.distinctOff, State.cores, hr]
    exact (List.nodup_singleton _).filter x
  · rw [State.sorted, hr]
    exact .nil

theorem loseAll (s : State) : s.keeps s.loseAll := blank (fun h => Memory.wf_loseAll h.1) rfl rfl

theorem startExit (s : State) : s.keeps s.startExit := ite (fun _ => of_eq rfl rfl rfl) fun _ => refl s

theorem setParts (s : State) (ps : List Partition) : s.keeps { s with parts := ps } := of_eq rfl rfl rfl

theorem wakeFor (s : State) (part : Nat) : s.keeps (s.wakeFor part) := (startExit s).trans (setParts _ _)

theorem setPower (s : State) (p : PowerSt) : s.keeps { s with power := p } := of_eq rfl rfl rfl

theorem settlePower (s : State) : s.keeps s.settlePower := by
  have hdeep : s.keeps { s.loseAll with power := .s3 } := (loseAll s).trans (setPower _ _)
  unfold State.settlePower
  split
  · exact refl s
  · split
    · exact ite (fun _ => refl s) fun _ => startExit s
    · exact hdeep
    · exact refl s
    · exact startExit s
    · exact hdeep
    · exact setPower s _
    · exact setParts s _

/-! ### Cutting what is in flight -/

theorem cutUnits (acc : Bool) (us : List (List BWrite)) (s : State) : s.keeps (s.cutUnits acc us) := by
  induction us generalizing s with
  | nil => exact refl s
  | cons u us ih =>
    have hpick := pick s ((u.any fun w => w.mask == 0) = true) true
    exact hpick.trans ((ite (fun _ => perform _ acc u []) fun _ => refl _).trans (ih _))

theorem cutFlight (s : State) (e : EngId) (f : Flight) : s.keeps (s.cutFlight e f) := by
  have hcut := (cutUnits f.acc f.parts s).trans (choose _)
  unfold State.cutFlight
  dsimp only
  split
  · exact hcut
  · refine hcut.trans ?_
    split
    · split
      · exact refl _
      · exact (landOp _ e _).via (setFresh _ _)
    · exact landOp _ e f
    · exact refl _

theorem cutReq (e : EngId) (s : State) (r : Req) : s.keeps (State.cutReq e s r) := by
  unfold State.cutReq
  dsimp only
  split
  · exact refl s
  · split
    · exact (choose s).trans (applyReq _ r)
    · exact choose s

theorem cutInFlight (s : State) : s.keeps s.cutInFlight :=
  (foldl (fun u _ => foldl (fun v f => cutFlight v _ f) _ u) _ s).trans
    (foldl (fun u e => foldl (cutReq e) _ u) _ _)

theorem stopDies (s : State) : s.keeps s.stopDies := foldl (fun u n => onCore cutInFlight u n) _ s

theorem fatal (s : State) (cause : BitVec 8) (addr : Word) : s.keeps (s.fatal cause addr) :=
  blank (fun h => Memory.wf_fatal h cause addr) rfl rfl

end State.keeps

namespace State.leads

theorem execBoot (s : State) : s.leads (execBoot s) :=
  ite (fun _ => next (.refl s)) fun _ => ite (fun _ => next (.of_eq rfl rfl rfl)) fun _ => next (.of_eq rfl rfl rfl)

theorem execFirmwareUpdate (img : SignedImage) (cut : Bool) (s : State) : s.leads (execFirmwareUpdate img cut s) :=
  ite (fun _ => next (.refl s)) fun _ => ite (fun _ => next (.of_eq rfl rfl rfl)) fun _ => next (.of_eq rfl rfl rfl)

theorem execPowerRequest (part : Nat) (host : Bool) (w : Word) (s : State) : s.leads (execPowerRequest part host w s) := by
  have htol (n : Nat) : s.keeps { s with hostTol := n } := .of_eq rfl rfl rfl
  refine ite (fun _ => next (.refl s)) fun _ => ite (fun _ => next ?_) fun _ => next ?_
  · exact (htol _).trans (.settlePower _)
  · exact (keeps.setParts s _).trans (.settlePower _)

theorem execPowerStateExit (s : State) : s.leads (execPowerStateExit s) :=
  ite (fun _ => ite (fun _ => next (.of_eq rfl rfl rfl)) fun _ => next (.of_eq rfl rfl rfl)) fun _ => next (.of_eq rfl rfl rfl)

theorem execWeirSample (die : Nat) (limit : Bool) (d : Nat) (s : State) : s.leads (execWeirSample die limit d s) :=
  ite (fun _ => next (.of_eq rfl rfl rfl)) fun _ => next (.refl s)

end State.leads
end Sys2Proof.Machine
end

section
/-! PROOF. Binding, scheduling and the slot table keep the four properties (O6), but for the fill of a slot. -/

namespace Sys2Proof.Machine

/-! ### Slots -/

namespace Core.keeps

theorem unstage (c : Core) : c.keeps c.unstage :=
  ⟨rfl, fun h => ⟨h.1, Task.blank_canonical⟩, fun h => ⟨h.1, Task.blank_aligned⟩⟩

theorem vacate (c : Core) : c.keeps c.vacate :=
  ⟨rfl, fun h => ⟨Task.blank_canonical, h.2⟩, fun h => ⟨Task.blank_aligned, h.2⟩⟩

/-- The staged task swaps into the resident slot (R297). -/
theorem swapIn (c : Core) (slot : SlotSt) (released : Bool) :
    c.keeps { c.unstage with slot, task := c.stagedTask, released } :=
  ⟨rfl, fun h => ⟨h.2, Task.blank_canonical⟩, fun h => ⟨h.2, Task.blank_aligned⟩⟩

theorem release (c : Core) : c.keeps { c with released := true } := ⟨rfl, id, id⟩

end Core.keeps

namespace State.keeps

theorem mapBinds (s : State) (p : BindRec → Bool) (f : BindRec → BindRec) : s.keeps (s.mapBinds p f) := of_eq rfl rfl rfl

theorem mapGang (s : State) (lid idx : Nat) (f : Gang → Gang) : s.keeps (s.mapGang lid idx f) := of_eq rfl rfl rfl

theorem putBind (s : State) (die : Nat) (v : BindRec) : s.keeps (s.putBind die v) := of_eq rfl rfl rfl

theorem vacate (s : State) : s.keeps { s with cur := s.cur.vacate } := cur (.vacate s.cur)

theorem unstage (s : State) : s.keeps { s with cur := s.cur.unstage } := cur (.unstage s.cur)

theorem discard (s : State) : s.keeps s.discard := by
  have hleaves (u : State) : u.keeps { u.uncover with cur := u.cur.vacate } := (uncover u).trans (vacate u.uncover)
  exact (cutInFlight s).trans (hleaves _)

theorem dropLaunch (s : State) (lid : Nat) : s.keeps (s.dropLaunch lid) := by
  unfold State.dropLaunch
  dsimp only
  refine (setGangs _ _).via ((mapCores (fun c => ?_) _).via ((mapBinds _ _ _).via ?_))
  · exact Core.keeps.ite (fun _ => .unstage c) fun _ => .refl c
  · exact foldl (fun u n => onCore discard u n) _ s

theorem settleSaved (s : State) (l : Launch) (idx : Nat) : s.keeps (s.settleSaved l idx) := by
  unfold State.settleSaved
  split
  · exact refl s
  · exact ite (fun _ => setGangs s _) fun _ => refl s

theorem noteSaved (s : State) (lid lcn addr : Nat) : s.keeps (s.noteSaved lid lcn addr) := by
  unfold State.noteSaved
  split
  · exact refl s
  · exact (mapGang s _ _ _).trans (settleSaved _ _ _)

/-! ### The slot table -/

theorem startFill (s : State) (die : Nat) (r : BindRec) : s.keeps (s.startFill die r) := by
  unfold State.startFill
  split
  · split
    · refine (putBind s die _).trans (onCore (fun u => cur ?_) _ _)
      exact ⟨rfl, fun h => ⟨h.1, Task.blank_canonical⟩, fun h => ⟨h.1, Task.blank_aligned⟩⟩
    · exact refl s
  · exact putBind s die _

theorem startSave (s : State) (r : BindRec) : s.keeps (s.startSave r) := by
  have hends (n : Nat) : s.keeps (s.mapBinds (fun x => x == r) fun x => { x with status := n }) := mapBinds s _ _
  unfold State.startSave
  dsimp only
  split
  · split
    · refine (mapGang s _ _ _).trans (onCore (fun u => cur ?_) _ _)
      exact ⟨rfl, id, id⟩
    · split
      · exact (hends 2).trans (settleSaved _ _ _)
      · exact hends 3
  · exact hends 3

theorem swapIn (s : State) (r : BindRec) : s.keeps (s.swapIn r) := by
  unfold State.swapIn
  split
  · exact (mapBinds s _ _).trans (onCore (fun u => cur (.swapIn u.cur _ _)) _ _)
  · exact refl s

/-! ### A saved context on a core of its own -/

/-- Without the cores of a number the others are listed as often as before. -/
theorem distinctOff_without {s : State} {x : Nat → Bool} {n : Nat} (h : s.distinctOff fun k => x k && k != n) :
    State.distinctOff x { s with rest := s.rest.filter fun c => c.pcore != n } := by
  have hrest : ((s.rest.filter fun c => c.pcore != n).map (·.pcore)).filter x
      = (s.rest.map (·.pcore)).filter fun k => x k && k != n := by
    rw [← List.filter_filter, List.filter_map (f := Core.pcore) (p := fun k => k != n)]
    rfl
  rw [State.distinctOff, State.cores, List.map_cons, List.filter_cons] at h
  rw [State.distinctOff, State.cores, List.map_cons, List.filter_cons, hrest]
  by_cases hn : s.cur.pcore = n
  · have hnot : s.cur.pcore ∉ (s.rest.map (·.pcore)).filter fun k => x k && k != n := by simp [hn]
    have hnodup : ((s.rest.map (·.pcore)).filter fun k => x k && k != n).Nodup := by simpa [hn] using h
    split
    · exact List.nodup_cons.2 ⟨hnot, hnodup⟩
    · exact hnodup
  · have hx : (x s.cur.pcore && s.cur.pcore != n) = x s.cur.pcore := by simp [hn]
    rwa [hx] at h

/-- A core of another number comes into focus, the focused one joins the others in their order. -/
theorem distinctOff_beside {s : State} {x : Nat → Bool} (h : s.distinctOff x) (c : Core) :
    State.distinctOff (fun k => x k && k != c.pcore) { s with cur := c, rest := insertCore s.cur s.rest } := by
  have hperm : ((insertCore s.cur s.rest).map (·.pcore)).Perm (s.cores.map (·.pcore)) := (insertCore_perm ..).map _
  have hoff : ((s.cores.map (·.pcore)).filter fun k => x k && k != c.pcore).Nodup := by
    rw [← List.filter_filter, List.filter_comm]
    exact List.Nodup.sublist List.filter_sublist h
  rw [State.distinctOff, State.cores, List.map_cons, List.filter_cons_of_neg (by simp)]
  exact (hperm.filter _).nodup_iff.2 hoff

/-- A core beside the others for a time: it comes into focus, something is done, and it leaves the list. -/
theorem beside {s t : State} {c : Core} (hc : c.canonical) (ha : c.aligned)
    (h : State.keeps { s with cur := c, rest := insertCore s.cur s.rest } t) :
    s.keeps { t with rest := t.rest.filter fun d => d.pcore != c.pcore } := by
  have hmem {P : Core → Prop} (hcur : P s.cur) (hrest : ∀ d ∈ s.rest, P d) : ∀ d ∈ insertCore s.cur s.rest, P d := by
    intro d hd
    rcases insertCore_mem hd with rfl | hd
    · exact hcur
    · exact hrest d hd
  refine ⟨fun hs => ?_, fun hs => ?_, fun x hx => ?_, fun hs => ?_⟩
  · obtain ⟨hm, hcur, hrest⟩ := State.canonical_iff.1 hs
    obtain ⟨hm', hcur', hrest'⟩ := State.canonical_iff.1 (h.canonical (State.canonical_iff.2 ⟨hm, hc, hmem hcur hrest⟩))
    exact State.canonical_iff.2 ⟨hm', hcur', fun d hd => hrest' d (List.mem_of_mem_filter hd)⟩
  · obtain ⟨hcur, hrest⟩ := State.aligned_iff.1 hs
    obtain ⟨hcur', hrest'⟩ := State.aligned_iff.1 (h.aligned (State.aligned_iff.2 ⟨ha, hmem hcur hrest⟩))
    exact State.aligned_iff.2 ⟨hcur', fun d hd => hrest' d (List.mem_of_mem_filter hd)⟩
  · exact distinctOff_without (h.distinct _ (distinctOff_beside hx c))
  · exact filter_sorted (h.sorted (insertCore_sorted hs))

theorem setSaved (s : State) (l : List (Nat × SavedRest)) : s.keeps { s with saved := l } := of_eq rfl rfl rfl

/-- What keeps the properties may be done at a saved context as if it stood on a core (R303). -/
theorem asSaved (s : State) (e : Nat × SavedRest) {f : State → State} (hf : ∀ u : State, u.keeps (f u)) : s.keeps (s.asSaved e f) := by
  unfold State.asSaved
  dsimp only
  refine (setSaved _ _).via (beside (c := ?_) ?_ ?_ ((focus _ _).via (hf _)))
  · exact ⟨Task.blank_canonical, Task.blank_canonical⟩
  · exact ⟨Task.blank_aligned, Task.blank_aligned⟩

theorem deliverHeld (s : State) (lid : Nat) : s.keeps (s.deliverHeld lid) := by
  refine foldl (fun u e => asSaved u e fun v => foldl (fun w g => ?_) _ v) _ s
  refine (foldl (fun x r => ite (fun _ => arrive x g r) fun _ => refl x) _ w).trans (foldl (fun x f => ?_) _ _)
  have hlands := leads.execCommandLands g f.seq x
  split
  · next y hy => exact hlands y hy
  · exact refl x

theorem landReached (s : State) : s.keeps s.landReached := by
  refine foldl (fun u e => foldl (fun v f => ?_) _ u) _ s
  exact ite (fun _ => refl v) fun _ => landPart v e f.seq _

/-! ### Images that are written -/

/-- What changes memory alone. -/
theorem of_mem {s t : State} (hc : t.cur = s.cur) (hr : t.rest = s.rest) (hm : Memory.wf s.mem = true → Memory.wf t.mem = true) :
    s.keeps t := by
  refine of_pcores (by rw [State.cores, State.cores, hc, hr]) ?_ ?_
  · rw [State.canonical_iff, State.canonical_iff, hc, hr]
    exact And.imp_left hm
  · rw [State.aligned_iff, State.aligned_iff, hc, hr]
    exact id

theorem writeImage (s : State) (t : Task) (pa : Nat) : s.keeps (s.writeImage t pa) :=
  of_mem (t := s.writeImage t pa) (by rw [State.writeImage]) (by rw [State.writeImage]) fun h => Memory.wf_writeImage h t pa

theorem callReturns (s : State) (part lid : Nat) : s.keeps (s.callReturns part lid) := of_eq rfl rfl rfl

theorem schedule (s : State) : s.keeps s.schedule := by
  unfold State.schedule
  split
  · exact refl s
  · split
    · exact refl s
    · exact (mapGang _ _ _ _).via (of_eq rfl rfl rfl)

end State.keeps

namespace State.leads

theorem execBind (die : Nat) (s : State) : s.leads (execBind die s) := by
  unfold Machine.execBind
  split
  · exact ite (fun _ => next (.startFill s die _)) fun _ => next (.refl s)
  · exact next (.refl s)

theorem execResume (die : Nat) (s : State) : s.leads (execResume die s) := by
  unfold Machine.execResume
  split
  · exact ite (fun _ => next (.startFill s die _)) fun _ => next (.refl s)
  · exact next (.refl s)

theorem execPreempt (die : Nat) (s : State) : s.leads (execPreempt die s) := by
  unfold Machine.execPreempt
  split
  · refine ite (fun _ => next (.refl s)) fun _ => next ?_
    exact (keeps.putBind s die _).trans (.ite (fun _ => .foldl keeps.startSave _ _) fun _ => .refl _)
  · exact next (.refl s)

theorem execKill (die : Nat) (s : State) : s.leads (execKill die s) := by
  unfold Machine.execKill
  split
  · refine ite (fun _ => next (.refl s)) fun _ => ?_
    extract_lets u cs v w x y
    have hstopped : s.keeps v := (keeps.putBind s die _).trans (.foldl (fun u n => .onCore keeps.discard u n) cs u)
    have hx : s.keeps x := hstopped.trans ((keeps.dropLaunch v _).trans (.mapBinds w _ _))
    have hy : x.keeps y := .of_eq rfl rfl rfl
    refine ite (fun _ => next hx) fun _ => after (hx.trans hy) ?_
    split
    · exact next (.ite (fun _ => .refl y) fun _ => .finishLaunch y _ 2 0)
    · exact next (.refl y)
  · exact next (.refl s)

theorem execBindActionOther (die : Nat) (s : State) : s.leads (execBindActionOther die s) := by
  unfold Machine.execBindActionOther
  split
  · exact ite (fun _ => next (.putBind s die _)) fun _ => next (.refl s)
  · exact next (.refl s)

theorem execGangSwap (tag : BitVec 16) (s : State) : s.leads (execGangSwap tag s) := by
  have hrelease (u : State) (n : Nat) : u.keeps (u.onCore n fun v => { v with cur := { v.cur with released := true } }) :=
    .onCore (fun v => .cur (.release v.cur)) u n
  unfold Machine.execGangSwap
  dsimp only
  split
  · exact next (.refl s)
  · generalize s.binds.filter (s.inGroup tag.toNat) = rs
    have hswaps : s.keeps (rs.foldl State.swapIn s) := .foldl keeps.swapIn rs s
    refine ite (fun _ => after hswaps (ite (fun _ => ?_) fun _ => next (.refl _))) fun _ => next (.refl s)
    have hreleases := keeps.foldl (fun (u : State) (r : BindRec) => hrelease u r.pcore) rs (rs.foldl State.swapIn s)
    split
    · exact next (hreleases.trans ((keeps.mapGang _ _ _ _).trans (.deliverHeld _ _)))
    · exact next hreleases

theorem execContextSaved (s : State) : s.leads (execContextSaved s) := by
  refine ite (fun _ => next (.refl s)) fun _ => ite (fun _ => next (.fatal s 1 0)) fun _ => next ?_
  have hleaves (u : State) (l : List (Nat × SavedRest)) : u.keeps { u with saved := l, cur := u.cur.vacate } :=
    (keeps.vacate u).trans (.setSaved _ l)
  refine (keeps.noteSaved _ _ _ _).via ((keeps.mapBinds _ _ _).via ((hleaves _ _).via ?_))
  exact (keeps.writeImage _ _ _).via ((keeps.landReached s).trans (.uncover _))

theorem execHypervisorLaunchCall (die : Nat) (caller : Caller) (r : LaunchWords) (s : State) :
    s.leads (execHypervisorLaunchCall die caller r s) := by
  refine ite (fun _ => next (.refl s)) fun _ => ite (fun _ => next (.callReturns s _ 0)) fun _ => ?_
  exact next ((keeps.callReturns _ _ _).via ((keeps.wakeFor _ _).via (.submit s die caller.part r)))

theorem execLaunchDispatch (die prio : Nat) (s : State) : s.leads (execLaunchDispatch die prio s) := by
  refine ite (fun _ => next (.refl s)) fun _ => ?_
  split
  · exact next (.refl s)
  · exact ite (fun _ => next (.finishLaunch s _ 1 0)) fun _ => next ((keeps.setLaunch s _).trans (.setGangs _ _))

theorem execQuantumExpiry (lid gang : Nat) (s : State) : s.leads (execQuantumExpiry lid gang s) := by
  unfold Machine.execQuantumExpiry
  split
  · exact ite (fun _ => next ((keeps.mapGang _ _ _ _).via (.of_eq rfl rfl rfl))) fun _ => next (.refl s)
  · exact next (.refl s)

theorem execAgingPromotion (lid gang : Nat) (s : State) : s.leads (execAgingPromotion lid gang s) := next (.mapGang s _ _ _)

end State.leads
end Sys2Proof.Machine
end

section
/-! PROOF. Tasks that come from images have stores in canonical form and aligned addresses (O6): an image as read is itself a sparse
table in canonical form, and what is loaded from it are parts of that table or tables built in order. -/

namespace Sys2Proof

variable {β γ : Type} [DecidableEq β] {d : β}

/-! ### Tables from tables -/

theorem spWf_filter {f : Nat × β → Bool} {t : Sparse β} (h : spWf d t = true) : spWf d (t.filter f) = true := spWfFrom_filter h

/-- Keys may be renamed in their order. -/
theorem spWf_mapKeys {f : Nat → Nat} {t : Sparse β} (h : spWf d t = true)
    (hf : ∀ a ∈ t, ∀ b ∈ t, a.1 < b.1 → f a.1 < f b.1) : spWf d (t.map fun e => (f e.1, e.2)) = true := by
  obtain ⟨hkeys, hvals⟩ := spWf_iff.1 h
  rw [List.pairwise_map] at hkeys
  refine spWf_iff.2 ⟨?_, List.forall_mem_map.2 hvals⟩
  rw [List.pairwise_map, List.pairwise_map]
  exact hkeys.imp_of_mem fun ha hb hlt => hf _ ha _ hb hlt

/-- One table after another whose keys are greater. -/
theorem spWf_append {t u : Sparse β} (ht : spWf d t = true) (hu : spWf d u = true) (h : ∀ a ∈ t, ∀ b ∈ u, a.1 < b.1) :
    spWf d (t ++ u) = true := by
  obtain ⟨htkeys, htvals⟩ := spWf_iff.1 ht
  obtain ⟨hukeys, huvals⟩ := spWf_iff.1 hu
  refine spWf_iff.2 ⟨?_, List.forall_mem_append.2 ⟨htvals, huvals⟩⟩
  rw [List.map_append]
  refine List.pairwise_append.2 ⟨htkeys, hukeys, ?_⟩
  rw [List.forall_mem_map]
  exact fun a ha => List.forall_mem_map.2 (h a ha)

/-- Tables for the members of a list, all keys of one below those of the next. -/
theorem spWf_flatMap {l : List γ} {f : γ → Sparse β} (hf : ∀ x ∈ l, spWf d (f x) = true)
    (h : l.Pairwise fun x y => ∀ a ∈ f x, ∀ b ∈ f y, a.1 < b.1) : spWf d (l.flatMap f) = true := by
  induction l with
  | nil => rfl
  | cons x l ih =>
    obtain ⟨hx, hl⟩ := List.pairwise_cons.1 h
    rw [List.flatMap_cons]
    refine spWf_append (hf x List.mem_cons_self) (ih (fun y hy => hf y (List.mem_cons_of_mem _ hy)) hl) fun a ha b hb => ?_
    obtain ⟨y, hy, hb⟩ := List.mem_flatMap.1 hb
    exact hx y hy a ha b hb

theorem spWf_single {k : Nat} {v : β} (h : v ≠ d) : spWf d [(k, v)] = true :=
  spWf_iff.2 ⟨List.pairwise_singleton .., by simpa using h⟩

/-- A table built from the right of what is not the default. -/
theorem spWf_foldr {f : Nat → β} {l : List Nat} (h : l.Pairwise (· < ·)) :
    spWf d (l.foldr (fun k t => if f k = d then t else (k, f k) :: t) []) = true := by
  have hmem (l : List Nat) (e : Nat × β) (he : e ∈ l.foldr (fun k t => if f k = d then t else (k, f k) :: t) []) : e.1 ∈ l := by
    induction l with
    | nil => cases he
    | cons k l ih =>
      rw [List.foldr_cons] at he
      split at he
      · exact List.mem_cons_of_mem _ (ih he)
      · rcases List.mem_cons.1 he with rfl | he
        · exact List.mem_cons_self
        · exact List.mem_cons_of_mem _ (ih he)
  induction l with
  | nil => rfl
  | cons k l ih =>
    obtain ⟨hk, hl⟩ := List.pairwise_cons.1 h
    rw [List.foldr_cons]
    split
    · exact ih hl
    · refine spWf_append (spWf_single ‹_›) (ih hl) fun a ha b hb => ?_
      rw [List.mem_singleton.1 ha]
      exact hk _ (hmem l b hb)

omit [DecidableEq β] in
/-- Building a table from the right is joining the tables that are put before it. -/
theorem foldr_append_eq_flatMap {l : List γ} {f : γ → Sparse β} : l.foldr (fun x t => f x ++ t) [] = l.flatMap f := by
  induction l with
  | nil => rfl
  | cons x l ih => rw [List.foldr_cons, ih, List.flatMap_cons]

theorem numbered_pairwise {R : γ → γ → Prop} {l : List γ} (h : l.Pairwise R) (k : Nat) :
    (numbered k l).Pairwise fun a b => R a.2 b.2 := by
  induction l generalizing k with
  | nil => exact .nil
  | cons x l ih =>
    obtain ⟨hx, hl⟩ := List.pairwise_cons.1 h
    refine List.pairwise_cons.2 ⟨fun p hp => hx p.2 ?_, ih hl _⟩
    rw [Machine.numbered_eq_zipIdx] at hp
    obtain ⟨q, hq, rfl⟩ := List.mem_map.1 hp
    exact List.fst_mem_of_mem_zipIdx hq

namespace Machine

/-! ### Reading an image -/

/-- What is listed of memory from one address on, renumbered. -/
theorem State.cellsAt_wf {s : State} (h : Memory.wf s.mem = true) (pa n off : Nat) : Memory.wf (s.cellsAt pa n off) = true := by
  refine spWf_mapKeys (f := fun a => a - pa + off) (spWfFrom_filter h) fun a ha b _ hlt => ?_
  have hpa := (List.mem_filter.1 ha).2
  simp only [Bool.and_eq_true, decide_eq_true_eq] at hpa
  omega

theorem State.mem_cellsAt {s : State} {pa n off : Nat} {e : Nat × Byte} (h : e ∈ s.cellsAt pa n off) :
    off ≤ e.1 ∧ e.1 < off + n := by
  obtain ⟨c, hc, rfl⟩ := List.mem_map.1 h
  have hpa := (List.mem_filter.1 hc).2
  simp only [Bool.and_eq_true, decide_eq_true_eq] at hpa
  constructor <;> dsimp only <;> omega

theorem State.physImage_ok {s : State} {pa n off : Nat} {i : Img} (h : s.physImage pa n off = .ok i) : i = s.cellsAt pa n off := by
  unfold State.physImage at h
  split at h
  · cases h
  · exact (Except.ok.inj h).symm

/-- A virtual image comes page by page, in the order of its offsets. -/
theorem State.virtImage_wf {s : State} (hm : Memory.wf s.mem = true) {part queue va size fuel off : Nat} {i : Img}
    (h : s.virtImage part queue va size fuel off = .ok i) : Memory.wf i = true ∧ ∀ e ∈ i, off ≤ e.1 := by
  induction fuel generalizing off i with
  | zero =>
    cases h
    exact ⟨rfl, fun _ he => nomatch he⟩
  | succ fuel ih =>
    unfold State.virtImage at h
    dsimp only at h
    split at h
    · cases h
    · next j hj =>
      obtain ⟨pa, -, hpage⟩ := ok_of_bind_ok hj
      have hj := State.physImage_ok hpage
      split at h
      · cases h
      · next t ht =>
        obtain ⟨htwf, htoff⟩ := ih ht
        cases h
        rw [hj]
        refine ⟨spWf_append (State.cellsAt_wf hm ..) htwf fun a ha b hb => ?_,
          List.forall_mem_append.2 ⟨fun e he => ?_, fun e he => ?_⟩⟩
        · exact (State.mem_cellsAt ha).2.trans_le (htoff b hb)
        · exact (State.mem_cellsAt he).1
        · exact (Nat.le_add_right ..).trans (htoff e he)

theorem State.readImage_wf {s : State} (hm : Memory.wf s.mem = true) {part queue addr : Nat} {virt : Bool} {i : Img}
    (h : s.readImage part queue addr virt = .ok i) : Memory.wf i = true := by
  obtain ⟨head, -, h⟩ := ok_of_bind_ok h
  dsimp only at h
  split at h
  · exact (State.virtImage_wf hm h).1
  · rw [State.physImage_ok h]
    exact State.cellsAt_wf hm ..

/-! ### Parts of an image -/

namespace Img

theorem area_wf {i : Img} (h : Memory.wf i = true) (off n : Nat) : Memory.wf (i.area off n) = true := by
  refine spWf_mapKeys (f := fun a => a - off) (spWfFrom_filter h) fun a ha b _ hlt => ?_
  have hoff := (List.mem_filter.1 ha).2
  simp only [Bool.and_eq_true, decide_eq_true_eq] at hoff
  omega

theorem mem_area {i : Img} {off n : Nat} {e : Nat × Byte} (h : e ∈ i.area off n) : e.1 < n := by
  obtain ⟨c, hc, rfl⟩ := List.mem_map.1 h
  have hoff := (List.mem_filter.1 hc).2
  simp only [Bool.and_eq_true, decide_eq_true_eq] at hoff
  dsimp only
  omega

theorem words_wf (i : Img) (off n : Nat) : spWf 0 (i.words off n) = true :=
  spWf_foldr (f := fun k => i.word (off + 8 * k)) List.pairwise_lt_range

theorem jregs_wf (i : Img) : spWf JReg.blank i.jregs = true :=
  List.foldlRecOn (motive := fun t => spWf JReg.blank t = true) _ _ rfl fun _ ht _ _ => spWf_spSet ht

theorem jregs_aligned (i : Img) : ∀ e ∈ i.jregs, e.2.taddr.toNat % 8 = 0 := by
  refine List.foldlRecOn (motive := fun t : Sparse JReg => ∀ e ∈ t, e.2.taddr.toNat % 8 = 0) _ _ (fun _ h => nomatch h)
    fun t ht k _ e he => ?_
  rcases mem_spSet he with rfl | he
  · dsimp only
    rw [JReg.staled_taddr]
    exact andNot7_aligned _
  · exact ht e he

theorem scratch_wf {i : Img} (h : Memory.wf i = true) : Memory.wf i.scratch = true := by
  have hbanks (m : BitVec 32) : (banksOf m).Pairwise (· < ·) := List.pairwise_lt_range.filter _
  refine spWf_flatMap (fun b _ => ?_) ((numbered_pairwise (hbanks _) 0).imp fun hlt x hx y hy => ?_)
  · exact spWf_mapKeys (f := fun a => 0x10000 * b.2 + a) (area_wf h _ _) fun x _ y _ hlt => by omega
  · obtain ⟨c, hc, rfl⟩ := List.mem_map.1 hx
    obtain ⟨e, -, rfl⟩ := List.mem_map.1 hy
    have hcell := mem_area hc
    dsimp only
    omega

/-- The flags of the four words of one byte. -/
def flagsAt (k b : Nat) : Sparse Flag :=
  (List.range 4).filterMap fun j =>
    let f : Flag := ⟨b / 4 ^ j % 2 == 1, b / 4 ^ j / 2 % 2 == 1⟩
    if f = Flag.fresh then none else some (4 * k + j, f)

theorem mem_flagsAt {k b : Nat} {e : Nat × Flag} (h : e ∈ flagsAt k b) : ∃ j < 4, e.1 = 4 * k + j ∧ e.2 ≠ Flag.fresh := by
  obtain ⟨j, hj, he⟩ := List.mem_filterMap.1 h
  dsimp only at he
  split_ifs at he with hfresh
  cases he
  exact ⟨j, List.mem_range.1 hj, rfl, hfresh⟩

theorem flagsAt_wf (k b : Nat) : spWf Flag.fresh (flagsAt k b) = true := by
  refine spWf_iff.2 ⟨?_, fun e he => ?_⟩
  · rw [List.pairwise_map]
    refine List.Pairwise.filterMap _ (fun j j' hlt e he e' he' => ?_) (List.pairwise_lt_range (n := 4))
    dsimp only at he he'
    split_ifs at he he'
    cases he
    cases he'
    exact Nat.add_lt_add_left hlt _
  · obtain ⟨j, -, -, hfresh⟩ := mem_flagsAt he
    exact hfresh

theorem flags_wf (i : Img) : spWf Flag.fresh i.flags = true := by
  have heq (n : Nat) : (List.range n).foldr (fun k t =>
        let b := (spGet emptyByte i (0x48000 + k)).toNat
        if b == 0x55 then t else flagsAt k b ++ t) []
      = (List.range n).flatMap fun k =>
        if (spGet emptyByte i (0x48000 + k)).toNat == 0x55 then [] else flagsAt k (spGet emptyByte i (0x48000 + k)).toNat := by
    rw [← foldr_append_eq_flatMap]
    congr 1
    funext k t
    dsimp only
    split <;> rfl
  have hflags := heq 0x4000
  rw [show i.flags = _ from hflags]
  refine spWf_flatMap (fun k _ => ?_) (List.pairwise_lt_range.imp fun hlt a ha b hb => ?_)
  · split
    · rfl
    · exact flagsAt_wf ..
  · split_ifs at ha hb
    · cases ha
    · cases ha
    · cases hb
    · obtain ⟨j, hj, ha, -⟩ := mem_flagsAt ha
      obtain ⟨j', -, hb, -⟩ := mem_flagsAt hb
      omega

/-! ### Filling a task -/

theorem weights_wf {i : Img} (h : Memory.wf i = true) : Memory.wf (if i.hasWb then i.area i.wbAt 0x40000 else []) = true := by
  split
  · exact area_wf h _ _
  · rfl

theorem common_aligned (i : Img) (t : Task) : (i.common t).aligned := by
  unfold Task.aligned Img.common
  dsimp only
  exact ⟨andNot7_aligned _, jregs_aligned i⟩

theorem restore_canonical {i : Img} (h : Memory.wf i = true) (t : Task) (phys : Bool) (r : SavedRest) :
    (i.restore t phys r).canonical := by
  unfold Task.canonical Img.restore Img.common
  dsimp only
  exact ⟨spWf_filter (words_wf ..), jregs_wf i, words_wf .., words_wf .., words_wf .., area_wf h _ _, scratch_wf h, weights_wf h,
    flags_wf i⟩

theorem restore_aligned (i : Img) (t : Task) (phys : Bool) (r : SavedRest) : (i.restore t phys r).aligned := by
  unfold Task.aligned Img.restore
  dsimp only
  exact common_aligned i t

theorem launch_keeps {i : Img} {t u : Task} {phys : Bool} (h : i.launch t phys = some u) :
    (Memory.wf i = true → u.canonical) ∧ u.aligned := by
  unfold Img.launch at h
  split at h
  · cases h
  · rw [← Option.some.inj h]
    unfold Task.canonical Task.aligned
    dsimp only
    refine ⟨fun hwf => ?_, common_aligned i t⟩
    unfold Img.common
    dsimp only
    exact ⟨spWf_filter (words_wf ..), jregs_wf i, words_wf .., words_wf .., words_wf .., area_wf hwf _ _, scratch_wf hwf,
      weights_wf hwf, rfl⟩

end Img

end Machine
end Sys2Proof
end

section
/-! PROOF. The fill of a slot, edits of contexts and the continuation of tasks keep the four properties (O6). -/

namespace Sys2Proof.Machine

/-! ### Tasks that are filled, released or edited -/

namespace Task.keeps

theorem ite {t u v : Task} {p : Prop} [Decidable p] (hu : p → t.keeps u) (hv : ¬p → t.keeps v) : t.keeps (if p then u else v) := by
  split
  · exact hu ‹_›
  · exact hv ‹_›

theorem engines (t : Task) (m f s : Eng) : t.keeps { t with m, f, s } := ⟨id, id⟩

theorem unpark (t : Task) : t.keeps t.unpark := ⟨id, id⟩

theorem withRegion (s : State) (t : Task) : t.keeps (s.withRegion t) := ctl t rfl rfl id

end Task.keeps

namespace State.keeps

/-- A task stands in the staged slot whose stores are in canonical form if the package's are. -/
theorem thenStaged {s u : State} (hu : s.keeps u) {t : Task} (hc : s.canonical → t.canonical) (ha : t.aligned) :
    s.keeps (u.stagedWith t) := by
  refine ⟨fun h => ?_, fun h => ?_, fun x => hu.distinct x, hu.sorted⟩
  · obtain ⟨hm, hcur, hrest⟩ := State.canonical_iff.1 (hu.canonical h)
    exact State.canonical_iff.2 ⟨hm, ⟨hcur.1, hc h⟩, hrest⟩
  · obtain ⟨hcur, hrest⟩ := State.aligned_iff.1 (hu.aligned h)
    exact State.aligned_iff.2 ⟨⟨hcur.1, ha⟩, hrest⟩

theorem bindError (s : State) : s.keeps s.bindError := mapBinds s _ _

theorem refuseFill (s : State) (l : Launch) (fcode : Nat) : s.keeps (s.refuseFill l fcode) :=
  (dropLaunch s l.lid).trans (ite (fun _ => refl _) fun _ => finishLaunch _ l 3 fcode)

theorem refuseBind (s : State) : s.keeps { s.bindError with cur := s.cur.unstage } := (bindError s).trans (unstage s.bindError)

end State.keeps

theorem State.leads.execContextFill (s : State) : s.leads (execContextFill s) := by
  unfold Machine.execContextFill
  split
  · exact next (.refl s)
  · split
    · exact next (.refuseBind s)
    · next l hl =>
      extract_lets t _ saved
      split
      · exact ite (fun _ => next (.refuseBind s)) fun _ => next (.refuseFill s l _)
      · next img himg =>
        have hwf (h : s.canonical) : Memory.wf img = true := State.readImage_wf (State.canonical_beheld h).1 himg
        refine ite (fun _ => ite (fun _ => ?_) fun _ => next (.refuseBind s)) fun _ => ite (fun _ => ?_) fun _ => next (.refuseFill s l 0)
        · extract_lets r u v w x
          have hu : r.keeps u := .engines r _ _ _
          have hv : u.keeps v := .ite (fun _ => .refl u) fun _ => .unpark u
          have hw : s.keeps w := by
            unfold w
            exact .ite (fun _ => .leaveWaits s _ _) fun _ => .refl s
          have hregion : r.keeps (if v.ctl.pc = saved.pc then v else w.withRegion v) :=
            (hu.trans hv).trans (.ite (fun _ => .refl v) fun _ => .withRegion w v)
          have hx : s.keeps x := .thenStaged hw (fun h => hregion.canonical (Img.restore_canonical (hwf h) t _ saved))
            (hregion.aligned (Img.restore_aligned img t _ saved))
          exact next (hx.trans (.setSaved x _))
        · split
          · next u hu =>
            obtain ⟨hcanonical, haligned⟩ := Img.launch_keeps hu
            have hregion := Task.keeps.withRegion s u
            exact next (.thenStaged (.refl s) (fun h => hregion.canonical (hcanonical (hwf h))) (hregion.aligned haligned))
          · exact next (.refuseFill s l 0)

end Sys2Proof.Machine
end

section
/-! PROOF. Edits of contexts, the continuation of tasks, shoot-downs and what the package does around its cores keep the four
properties (O6). -/

namespace Sys2Proof.Machine

namespace Task.keeps

/-- A word of the context is changed: the task is loaded again from its image, but for the J registers of other words (R309). -/
theorem editWord (t : Task) (off : Nat) (v : Word) : t.keeps (t.editWord off v) := by
  unfold Task.editWord
  extract_lets cells img u inJ k covers j
  have hwf : Memory.wf img = true := spWf_spSetMany (spWf_spSetMany rfl)
  have hcanonical : u.canonical := Img.restore_canonical hwf t _ _
  have haligned : u.aligned := Img.restore_aligned img t _ _
  have hj (h : spWf JReg.blank t.ctl.j = true) : spWf JReg.blank j = true := by
    unfold j
    split
    · exact spWf_spSet h
    · exact h
  have hjaligned (h : ∀ e ∈ t.ctl.j, e.2.taddr.toNat % 8 = 0) : ∀ e ∈ j, e.2.taddr.toNat % 8 = 0 := by
    unfold j
    split
    · intro e he
      rcases mem_spSet he with rfl | he
      · rcases spGet_mem JReg.blank u.ctl.j k with hblank | ⟨x, hx, heq⟩
        · rw [hblank]
          rfl
        · rw [← heq]
          exact haligned.2 x hx
      · exact h e he
    · exact h
  clear_value j u
  obtain ⟨hg, -, hrest⟩ := hcanonical
  exact ⟨fun ⟨_, hj0, _⟩ => ⟨hg, hj hj0, hrest⟩, fun ⟨_, hj0⟩ => ⟨haligned.1, hjaligned hj0⟩⟩

theorem shotDown (t : Task) (lo hi : Nat) : t.keeps (t.shotDown lo hi) := ⟨id, id⟩

end Task.keeps

namespace State.keeps

/-! ### Continuing -/

theorem continueTask (s : State) : s.keeps s.continueTask :=
  ite (fun _ => refl s) fun _ => (withTask (.unpark s.task)).trans (foldl continueEng _ _)

theorem releaseSaved (s : State) (lid idx : Nat) : s.keeps (s.releaseSaved lid idx) := setSaved s _

theorem releaseStaged (s : State) (lid idx : Nat) : s.keeps (s.releaseStaged lid idx) :=
  mapCores (fun c => .ite (fun _ => .stagedTask (.unpark c.stagedTask)) fun _ => .refl c) s

/-! ### Editing -/

theorem emulatedBy (s : State) (e : EngId) (landing : Nat) (ws : List BWrite) (nan sat : Bool) :
    s.keeps (s.emulatedBy e landing ws nan sat) := by
  unfold State.emulatedBy
  dsimp only
  split
  · exact refl s
  · exact (setEng _ e _).via (ite (fun _ => refl s) fun _ => wrBytes s ws)

/-- After an emulated transfer the J registers that it wrote are STALE (R174). -/
theorem afterEmulation (s u : State) (wrote : Option (BitVec 3)) : u.keeps (s.afterEmulation u wrote) := by
  have hst (p : Prop) [Decidable p] (r : JReg) :
      (if p then r else r.staled).taddr = r.taddr ∧ (r ≠ JReg.blank → (if p then r else r.staled) ≠ JReg.blank) := by
    split
    · exact ⟨rfl, id⟩
    · exact ⟨r.staled_taddr, JReg.staled_ne_blank⟩
  refine withTask ⟨?_, ?_⟩
  · rintro ⟨hg, hj, hrest⟩
    exact ⟨hg, spWf_mapEntries (fun e _ => (hst _ e.2).2) hj, hrest⟩
  · rintro ⟨hpc, hj⟩
    refine ⟨hpc, List.forall_mem_map.2 fun e he => ?_⟩
    rw [(hst _ e.2).1]
    exact hj e he

theorem editWord (s : State) (off : Nat) (v : Word) : s.keeps (s.editWord off v) := by
  unfold State.editWord
  dsimp only
  have hedit : s.keeps (s.withTask (if off = 0x258 then s.withRegion (s.task.editWord off v) else s.task.editWord off v)) :=
    withTask ((Task.keeps.editWord s.task off v).trans (.ite (fun _ => .withRegion s _) fun _ => .refl _))
  split
  · exact hedit.trans (leaveWaits _ _ _)
  · exact hedit

theorem editImage (s : State) (addr off : Nat) (v : Word) : s.keeps (s.editImage addr off v) := by
  unfold State.editImage
  split
  · exact refl s
  · exact (releaseSaved s _ _).trans (wrNat _ ..)

theorem setFaults (s : State) (fs : List FaultRec) : s.keeps { s with faults := fs } := of_eq rfl rfl rfl

theorem unpinImage (s : State) (lo hi addr : Nat) : s.keeps (s.unpinImage lo hi addr) :=
  foldl (fun u _ => ite (fun _ => wrNat u ..) fun _ => refl u) _ s

/-! ### The loader, ports and the mailbox -/

theorem loaderPut (s : State) (part va : Nat) (bs : List Byte) : s.keeps (s.loaderPut part va bs) := by
  refine foldl (fun u b => ?_) _ s
  split
  · exact wrBytes u _
  · exact refl u

theorem loaderWord (s : State) (part va v : Nat) : s.keeps (s.loaderWord part va v) := loaderPut s ..

theorem putRecords (s : State) (part dir : Nat) (os : List CodeObject) (k : Nat) (links : List Symbol) :
    s.keeps (s.putRecords part dir os k links) :=
  foldl (fun u _ => (loaderWord u ..).trans (loaderWord _ ..)) _ s

theorem putTargets (s : State) (part dir : Nat) (os : List CodeObject) (o : CodeObject) (links : List Symbol) :
    s.keeps (s.putTargets part dir os o links) :=
  foldl (fun u _ => ite (fun _ => loaderWord u ..) fun _ => refl u) _ s

theorem setRing (s : State) (r : PortRing) : s.keeps (s.setRing r) := ite (fun _ => of_eq rfl rfl rfl) fun _ => refl s

theorem splitPort (s : State) (port : Nat) : s.keeps (s.splitPort port) := ite (fun _ => of_eq rfl rfl rfl) fun _ => refl s

theorem putRing (s : State) (r : PortRing) : s.keeps (s.putRing r) := of_eq rfl rfl rfl

theorem sendFrame (s : State) (port prio n : Nat) : s.keeps (s.sendFrame port prio n) := by
  unfold State.sendFrame
  split
  · exact refl s
  · split
    · exact refl s
    · split
      · exact refl s
      · exact putRing s _

theorem storeFrame (s : State) (r : PortRing) (data : List Byte) : s.keeps (s.storeFrame r data) := by
  unfold State.storeFrame
  dsimp only
  split
  · exact refl s
  · exact (wrBytes s _).trans (putRing _ _)

theorem mailRead (s : State) (part : Nat) : s.keeps (s.mailRead part) := by
  unfold State.mailRead
  split
  · exact refl s
  · exact setParts s _

theorem mailFree (s : State) (part : Nat) : s.keeps (s.mailFree part) := by
  unfold State.mailFree
  split
  · exact refl s
  · exact wrNat s ..

end State.keeps

namespace State.leads

theorem execTaskContinue (lid gang : Nat) (s : State) : s.leads (execTaskContinue lid gang s) := by
  refine next (((keeps.releaseStaged s lid gang).trans (.releaseSaved _ lid gang)).trans (.foldl (fun u n => ?_) _ _))
  exact .onCore keeps.continueTask u n

theorem emulate (s : State) (e : EngId) (landing : Nat) (ws : List (Nat × Byte)) (nan sat : Bool) :
    s.leads (s.emulate e landing ws nan sat) := by
  unfold State.emulate
  split
  · exact issueAs (yields.sluBody _ _ _ _ _ _ _ _ _ _ s)
  · exact issueAs (yields.cmergeBody _ _ s)
  · exact issueAs (yields.creadBody _ _ s)
  · exact next (.emulatedBy s _ _ _ _ _)

theorem execPrep (j p : BitVec 3) (pn : Bool) (off : BitVec 48) (s : State) : s.leads (execPrep j p pn off s) :=
  qualified (prepare s j _)

theorem execPrepr (q : Qual) (j : BitVec 3) (a : BitVec 5) (s : State) : s.leads (execPrepr q j a s) := qualified (prepare s j _)

theorem emulateDisplaced (s : State) (w : Word) : s.leads (s.emulateDisplaced w) := by
  unfold State.emulateDisplaced
  extract_lets _ u wrote o
  have hu : s.keeps u := .withCtl rfl rfl id
  have ho : u.leads o := by
    unfold o
    split
    · exact execPrep _ _ _ _ u
    · exact execPrepr _ _ _ u
    · exact execXfer _ _ _ u
    · exact execXcall _ _ _ u
    · exact execRet _ u
    · exact next (.refl u)
  clear_value o
  split
  · next v => exact next (hu.trans ((ho v rfl).trans (.afterEmulation s v _)))
  · exact after hu ho

theorem editParked (s : State) (c : ContextEdit) : s.leads (s.editParked c) := by
  unfold State.editParked
  split
  · exact next (.editWord s _ _)
  · exact emulate s _ _ _ _ _
  · exact ite (fun _ => next (.refl s)) fun _ => emulateDisplaced s _
  · split
    · exact next ((keeps.setFaults _ _).via (.withTask ⟨id, id⟩))
    · exact next (.refl s)
  · exact next (.refl s)

theorem execTaskEdit (c : ContextEdit) (s : State) : s.leads (execTaskEdit c s) := by
  unfold Machine.execTaskEdit
  split
  · exact next (.wrBytes s _)
  · refine next ?_
    cases s.debugPart with
    | none => exact .refl s
    | some q => exact .invalidatePart s q.1
  · exact next (.editImage s _ _ _)
  · exact ite (fun _ => editParked s c) fun _ => next (.refl s)

theorem execShootdown (part lo hi : Nat) (s : State) : s.leads (execShootdown part lo hi s) := by
  unfold Machine.execShootdown
  extract_lets mine others u v
  have hu : s.keeps u := by
    refine keeps.mapCores (fun c => ?_) s
    have htask : c.keeps { c with task := if c.task.part = part then c.task.shotDown lo hi else c.task } :=
      .task (.ite (fun _ => .shotDown c.task lo hi) fun _ => .refl _)
    have hstaged : c.stagedTask.keeps (if c.stagedTask.part = part then c.stagedTask.shotDown lo hi else c.stagedTask) :=
      .ite (fun _ => .shotDown c.stagedTask lo hi) fun _ => .refl _
    exact htask.trans (.stagedTask hstaged)
  have hv : u.keeps v := by
    refine keeps.foldl (fun w e => ?_) _ u
    exact .unpinImage w lo hi e.1
  have hlist (w : State) (xs : List DieXlat) (hs : List Shoot) : w.keeps { w with xlat := xs, shoots := hs } := .of_eq rfl rfl rfl
  exact ite (fun _ => next (hlist s _ _)) fun _ => next ((hu.trans hv).trans (hlist v _ _))

theorem execFaultRecordDelivery (part : Nat) (s : State) : s.leads (execFaultRecordDelivery part s) := by
  unfold Machine.execFaultRecordDelivery
  split
  · refine ite (fun _ => next (.refl s)) fun _ => ?_
    extract_lets u v
    have hu : s.keeps u := .foldl (fun w x => .wrNat w ..) _ s
    have hv : u.keeps v := .wrNat u ..
    exact next ((hu.trans hv).trans (.of_eq rfl rfl rfl))
  · exact next (.refl s)

theorem execAttestationRequest (part : Nat) (nonce : List Byte) (s : State) : s.leads (execAttestationRequest part nonce s) := by
  unfold Machine.execAttestationRequest
  split
  · exact next (.refl s)
  · exact ite (fun _ => next (.refl s)) fun _ => next (.of_eq rfl rfl rfl)

theorem execFatalError (cause : BitVec 8) (addr : Word) (s : State) : s.leads (execFatalError cause addr s) :=
  ite (fun _ => next (.fatal s cause addr)) fun _ => next (.refl s)

theorem execWatchdogTimeout (die : Nat) (s : State) : s.leads (execWatchdogTimeout die s) :=
  ite (fun _ => next (.fatal s 2 0)) fun _ => next (.refl s)

theorem execFlitReplay (lane : Nat) (s : State) : s.leads (execFlitReplay lane s) :=
  ite (fun _ => next (.of_eq rfl rfl rfl)) fun _ => next (.refl s)

theorem execLaneFailure (lane : Nat) (s : State) : s.leads (execLaneFailure lane s) := by
  have hdown (l : List Nat) : s.keeps { s with lanesDown := l } := .of_eq rfl rfl rfl
  exact ite (fun _ => next (.refl s)) fun _ => ite (fun _ => next ((hdown _).trans (.fatal _ 3 0))) fun _ => next (hdown _)

theorem execScaleOutFrameReceive (port : Nat) (pause : Bool) (data : List Byte) (s : State) :
    s.leads (execScaleOutFrameReceive port pause data s) := by
  unfold Machine.execScaleOutFrameReceive
  split
  · exact next (.refl s)
  · exact ite (fun _ => next (.refl s)) fun _ => next (.ite (fun _ => .putRing s _) fun _ => .storeFrame s _ _)

theorem execCodeObjectLoad (part : Nat) (o : CodeObject) (s : State) : s.leads (execCodeObjectLoad part o s) := by
  unfold Machine.execCodeObjectLoad
  split
  · exact next (.refl s)
  · refine ite (fun _ => next (.setParts s _)) fun _ => ?_
    extract_lets os u v w x y
    have hv : s.keeps v := (keeps.foldl (fun z b => .loaderPut z ..) _ s).trans (.foldl (fun z l => .loaderWord z ..) _ u)
    have hx : v.keeps x := (keeps.putRecords v ..).trans (.ite (fun _ => .refl w) fun _ => .loaderWord w ..)
    have hy : x.keeps y := .ite (fun _ => (keeps.invalidatePart x part).trans (.putTargets _ ..)) fun _ => .refl x
    exact next ((hv.trans (hx.trans hy)).trans (.setParts y _))

end State.leads

end Sys2Proof.Machine
end

section
/-! PROOF. Every instruction, command and event, every move and so every step keeps the four properties (O6). -/

namespace Sys2Proof.Machine

namespace State.keeps

theorem writeCond (s : State) (pd pc : BitVec 3) (c : Bool) : s.keeps (s.writeCond pd pc c) :=
  (setP s pd c).trans (ite (fun _ => refl _) fun _ => setP _ pc !c)

theorem pload (s : State) (mask x : BitVec 8) : s.keeps (s.withCtl (s.ctl.pload mask x)) := withCtl rfl rfl id

end State.keeps

namespace State.leads

theorem writesReg {i : Instr} {d : BitVec 5} (hd : i.writesReg = some d) (s : State) : s.leads (exec i s) := by
  cases hf : Instr.mayFault i
  case true =>
    cases i <;> cases hf
    exact execSpget _ _ _ s
  case false =>
    obtain ⟨q, v, -, hexec, -⟩ := exec_writesReg hd hf s
    rw [hexec]
    exact writeG s q d v

/-- JCLR keeps the target (R162). -/
theorem execJclr (q : Qual) (j : BitVec 3) (s : State) : s.leads (execJclr q j s) :=
  qualified (after (.setJ s j (v := ⟨_, .empty, []⟩) fun h => getJ_aligned h j) (retire _))

/-- The completion of a prefetch keeps the target (R158). -/
theorem execPrefetchComplete (j : BitVec 3) (s : State) : s.leads (execPrefetchComplete j s) := by
  refine ite (fun _ => ?_) fun _ => next (.refl s)
  have hfetch := keeps.prefetch s (s.ctl.getJ j).taddr.toNat
  generalize s.prefetch (s.ctl.getJ j).taddr.toNat = r at hfetch
  obtain ⟨r, u⟩ := r
  cases r with
  | error tr => exact next (hfetch.thenSetJ j (v := ⟨_, .stale, []⟩) fun h => getJ_aligned h j)
  | ok ws => exact next (hfetch.thenSetJ j (v := ⟨_, .ready, ws⟩) fun h => getJ_aligned h j)

theorem execTset (q : Qual) (a : BitVec 5) (tid : BitVec 6) (word : BitVec 3) (s : State) : s.leads (execTset q a tid word s) :=
  opWrite s q (f := fun t => t.setTword tid.toNat word.toNat (s.getG a)) (.setTword s.task ..)

theorem execPatw (q : Qual) (a : BitVec 5) (pat : BitVec 4) (s : State) : s.leads (execPatw q a pat s) :=
  opWrite s q (f := fun t => { t with pat := spSet 0 t.pat pat.toNat (s.getG a) }) (.setPat s.task ..)

theorem execShpw (q : Qual) (a : BitVec 5) (sh : BitVec 3) (word : BitVec 2) (s : State) : s.leads (execShpw q a sh word s) :=
  opWrite s q (f := fun t => { t with sh := spSet 0 t.sh (4 * sh.toNat + word.toNat) (s.getG a) }) (.setSh s.task ..)

theorem execPlog (q : Qual) (pd pa pb : BitVec 3) (tt : BitVec 4) (s : State) : s.leads (execPlog q pd pa pb tt s) := by
  refine qualified ?_
  exact after (.setP s pd _) (retire _)

theorem execPload (q : Qual) (a : BitVec 5) (pmask : BitVec 8) (s : State) : s.leads (execPload q a pmask s) := by
  refine qualified ?_
  exact after (.pload s pmask _) (retire _)

theorem execLd (q : Qual) (d a x : BitVec 5) (cls : BitVec 4) (sz : BitVec 2) (sx : Bool) (off : BitVec 26) (s : State) :
    s.leads (execLd q d a x cls sz sx off s) := by
  refine qualified ?_
  exact load s d _ sz sx

theorem execLda (q : Qual) (d a x : BitVec 5) (cls : BitVec 4) (scope : BitVec 3) (sz : BitVec 2) (sx : Bool) (mask : BitVec 16)
    (off : BitVec 10) (s : State) : s.leads (execLda q d a x cls scope sz sx mask off s) := by
  refine qualified ?_
  exact load s d _ sz sx

theorem execSt (q : Qual) (d a x : BitVec 5) (cls : BitVec 4) (sz : BitVec 2) (off : BitVec 26) (s : State) :
    s.leads (execSt q d a x cls sz off s) := by
  refine qualified ?_
  exact store s d _ sz

theorem execStl (q : Qual) (d a x : BitVec 5) (cls : BitVec 4) (scope : BitVec 3) (sz : BitVec 2) (mask : BitVec 16)
    (off : BitVec 10) (s : State) : s.leads (execStl q d a x cls scope sz mask off s) := by
  refine qualified (afterSeen ?_)
  exact store s d _ sz

theorem execFence (q : Qual) (before after : BitVec 16) (scope : BitVec 3) (s : State) :
    s.leads (execFence q before after scope s) := by
  refine qualified (afterSeen ?_)
  exact retire s

/-- An answer that is another one by the equation of an instruction. -/
theorem of_eq {s : State} {o o' : Out} (h : o = o') (ho : s.leads o') : s.leads o := h ▸ ho

/-- Every instruction of the control core that writes no G register of its own accord, by its own law. -/
theorem ofOther {i : Instr} (ha : i.agent = some .control) (hd : i.writesReg = none) (s : State) : s.leads (exec i s) := by
  cases i with
  | nop _ => exact qualified (retire s)
  | halt q => exact execHalt q s
  | trap q imm16 => exact execTrap q imm16 s
  | brk => exact fail s _
  | spset q a fn => exact execSpset q a fn s
  | iinv q a b scope whole => exact execIinv q a b scope whole s
  | prime q a b => exact execPrime q a b s
  | fork q d a b fn => exact execFork q d a b fn s
  | join q d => exact execJoin q d s
  | twait q d a eng seq20 => exact execTwait q d a eng seq20 s
  | qcancel q mask => exact execQcancel q mask s
  | tset q a tid word => exact execTset q a tid word s
  | patw q a pat => exact execPatw q a pat s
  | shpw q a sh word => exact execShpw q a sh word s
  | bar q scope bid => exact execBar q scope bid s
  | barr q a b scope bid rop rtype => exact execBarr q a b scope bid rop rtype s
  | launch q d a => exact execLaunch q d a s
  | cmp pd pc _ _ _ => exact after (.writeCond s pd pc _) (retire _)
  | plog q pd pa pb tt => exact execPlog q pd pa pb tt s
  | pload q a pmask => exact execPload q a pmask s
  | fcmp pd pc _ _ _ => exact after (.writeCond s pd pc _) (retire _)
  | ld q d a x cls sz sx off => exact execLd q d a x cls sz sx off s
  | st q d a x cls sz off => exact execSt q d a x cls sz off s
  | lda q d a x cls scope sz sx mask off => exact execLda q d a x cls scope sz sx mask off s
  | stl q d a x cls scope sz mask off => exact execStl q d a x cls scope sz mask off s
  | pref _ _ _ _ => exact qualified (retire s)
  | fence q before after scope => exact execFence q before after scope s
  | prep j p pn off => exact execPrep j p pn off s
  | prepr q j a => exact execPrepr q j a s
  | xfer j p pn => exact execXfer j p pn s
  | xcall j p pn => exact execXcall j p pn s
  | ret q => exact execRet q s
  | jclr q j => exact execJclr q j s
  | opcodeNotListed _ => exact fail s _
  | _ => cases ha <;> cases hd

/-- Every instruction of the control core, by its own law. -/
theorem ofControl {i : Instr} (ha : i.agent = some .control) (s : State) : s.leads (exec i s) := by
  cases hd : i.writesReg with
  | some d => exact writesReg hd s
  | none => exact ofOther ha hd s

/-- Every command of the engines, by the law of its body. -/
theorem ofCommand {i : Instr} {h : CmdHead} (hh : i.cmdHead = some h) (s : State) : s.leads (exec i s) := by
  cases i with
  | idle e h extra => exact execIdle e h extra s
  | rep e h body countm1 addr tid wstep => exact execRep e h body countm1 addr tid wstep s
  | efence e h classes scope => exact execEfence e h classes scope s
  | endStream e h => exact execEndStream e h s
  | mma _ _ _ _ _ _ _ _ => exact of_eq (exec_mma ..) (issue (yields.mmaBody _ _ _ _ _ _ _ s))
  | accz _ _ => exact of_eq (exec_accz ..) (issue (yields.acczBody _ s))
  | acccp _ _ _ _ => exact of_eq (exec_acccp ..) (issue (yields.acccpBody _ _ _ s))
  | wfill _ _ _ => exact of_eq (exec_wfill ..) (issue (yields.wfillBody _ _ s))
  | winv _ _ _ => exact of_eq (exec_winv ..) (issue (yields.winvBody _ _ s))
  | part _ _ _ _ => exact of_eq (exec_part ..) (issue (yields.rankCommand _ _ _ _ _ s))
  | rank _ _ _ _ => exact of_eq (exec_rank ..) (issue (yields.rankCommand _ _ _ _ _ s))
  | topk _ _ _ _ _ => exact of_eq (exec_topk ..) (issue (yields.rankCommand _ _ _ _ _ s))
  | drain _ _ _ _ => exact of_eq (exec_drain ..) (issue (yields.drainBody _ _ _ _ s))
  | amax _ _ _ _ => exact of_eq (exec_amax ..) (issue (yields.drainBody _ _ _ _ s))
  | mseed _ _ => exact of_eq (exec_mseed ..) (issue (yields.mseedBody _ s))
  | copy _ _ _ => exact of_eq (exec_copy ..) (issue (yields.copyBody _ _ s))
  | fill _ _ _ _ => exact of_eq (exec_fill ..) (issue (yields.fillBody _ _ _ s))
  | gather _ _ _ _ _ => exact of_eq (exec_gather ..) (issue (yields.gatherBody _ _ _ _ _ s))
  | scatter _ _ _ _ _ => exact of_eq (exec_scatter ..) (issue (yields.gatherBody _ _ _ _ _ s))
  | gathp _ _ _ _ _ _ => exact of_eq (exec_gathp ..) (issue (yields.gathpBody _ _ _ _ _ s))
  | exp24 _ _ _ => exact of_eq (exec_exp24 ..) (issue (yields.exp24Body _ _ s))
  | putr _ _ _ _ => exact of_eq (exec_putr ..) (issue (yields.putrBody _ _ _ s))
  | bcast _ _ _ _ => exact of_eq (exec_bcast ..) (issue (yields.bcastBody _ _ _ s))
  | fseed _ _ => exact of_eq (exec_fseed ..) (issue (yields.fseedBody _ s))
  | pfetch h a => exact execPfetch h a s
  | cmpb _ _ _ _ => exact of_eq (exec_cmpb ..) (issue (yields.cmpbBody _ _ _ s))
  | sacc _ _ _ _ _ _ => exact of_eq (exec_sacc ..) (issue (yields.sluBody _ _ _ _ _ _ _ _ _ _ s))
  | sfetch _ _ _ _ _ _ => exact of_eq (exec_sfetch ..) (issue (yields.sluBody _ _ _ _ _ _ _ _ _ _ s))
  | scas _ _ _ _ _ => exact of_eq (exec_scas ..) (issue (yields.sluBody _ _ _ _ _ _ _ _ _ _ s))
  | bset _ _ _ _ => exact of_eq (exec_bset ..) (issue (yields.sluBody _ _ _ _ _ _ _ _ _ _ s))
  | bclr _ _ _ _ => exact of_eq (exec_bclr ..) (issue (yields.sluBody _ _ _ _ _ _ _ _ _ _ s))
  | btest _ _ _ _ _ _ => exact of_eq (exec_btest ..) (issue (yields.sluBody _ _ _ _ _ _ _ _ _ _ s))
  | cinc _ _ _ _ => exact of_eq (exec_cinc ..) (ite (fun _ => issue (yields.sluBody _ _ _ _ _ _ _ _ _ _ s)) fun _ => failFirst s _ _ _)
  | cmerge _ _ _ => exact of_eq (exec_cmerge ..) (ite (fun _ => issue (yields.cmergeBody _ _ s)) fun _ => failFirst s _ _ _)
  | cread _ _ _ => exact of_eq (exec_cread ..) (ite (fun _ => issue (yields.creadBody _ _ s)) fun _ => failFirst s _ _ _)
  | sseed _ _ => exact of_eq (exec_sseed ..) (issue (yields.sseedBody _ s))
  | _ => cases hh

/-- Every event, by its own law. -/
theorem ofEvent {i : Instr} (ha : i.agent = none) (s : State) : s.leads (exec i s) := by
  cases i with
  | sequencerFetch e => exact execSequencerFetch e s
  | frameStart e => exact execFrameStart e s
  | commandLands e seq => exact execCommandLands e seq s
  | cancelledAtHead e => exact execCancelledAtHead e s
  | prefetchComplete j => exact execPrefetchComplete j s
  | iinvInvalidationPoint id => exact execIinvInvalidationPoint id s
  | barrierDeparture lid scope unit bid => exact execBarrierDeparture lid scope unit bid s
  | remoteTimeout agent => exact execRemoteTimeout agent s
  | putrRequestTimeout e tag => exact execPutrRequestTimeout e tag s
  | remoteConfirmation e tag => exact execRemoteConfirmation e tag s
  | reductionRequest e tag => exact execReductionRequest e tag s
  | hypervisorLaunchCall die caller r => exact execHypervisorLaunchCall die caller r s
  | launchDispatch die prio => exact execLaunchDispatch die prio s
  | bind die => exact execBind die s
  | resume die => exact execResume die s
  | preempt die => exact execPreempt die s
  | kill die => exact execKill die s
  | bindActionOther die => exact execBindActionOther die s
  | contextFill => exact execContextFill s
  | gangSwap tag => exact execGangSwap tag s
  | contextSaved => exact execContextSaved s
  | quantumExpiry lid gang => exact execQuantumExpiry lid gang s
  | agingPromotion lid gang => exact execAgingPromotion lid gang s
  | faultRecordDelivery part => exact execFaultRecordDelivery part s
  | taskContinue lid gang => exact execTaskContinue lid gang s
  | taskEdit edit => exact execTaskEdit edit s
  | shootdown part lo hi => exact execShootdown part lo hi s
  | powerRequest part host w => exact execPowerRequest part host w s
  | weirSample die limit d => exact execWeirSample die limit d s
  | boot => exact execBoot s
  | firmwareUpdate img cut => exact execFirmwareUpdate img cut s
  | attestationRequest part nonce => exact execAttestationRequest part nonce s
  | fatalError cause addr => exact execFatalError cause addr s
  | watchdogTimeout die => exact execWatchdogTimeout die s
  | flitReplay lane => exact execFlitReplay lane s
  | laneFailure lane => exact execLaneFailure lane s
  | codeObjectLoad part obj => exact execCodeObjectLoad part obj s
  | powerStateExit => exact execPowerStateExit s
  | scaleOutFrameReceive port pause data => exact execScaleOutFrameReceive port pause data s
  | _ => cases ha

/-- Every instruction, command and event: the words of the control core, the commands, an engine's word that is no command, and
the events. -/
theorem exec (i : Instr) (s : State) : s.leads (exec i s) := by
  cases ha : i.agent with
  | none => exact ofEvent ha s
  | some st =>
    cases st with
    | control => exact ofControl ha s
    | engine e =>
      cases hh : i.cmdHead with
      | some h => exact ofCommand hh s
      | none =>
        cases i with
        | engineOpcodeNotListed e w => exact failFirst s e _ _
        | _ => cases ha <;> cases hh

/-! ### Moves -/

theorem execute (s : State) : s.leads s.execute := by
  unfold State.execute
  split
  · exact exec _ s
  · exact fail s _

theorem fetchExecute (s : State) : s.leads s.fetchExecute := by
  refine ite (fun _ => next (.takeFault s _ _ _ _ _)) fun _ => ?_
  have hfetch := keeps.heldOnly (s.fetchWord_heldOnly s.ctl.pc.toNat)
  generalize s.fetchWord s.ctl.pc.toNat = r at hfetch
  obtain ⟨r, u⟩ := r
  refine after hfetch ?_
  cases r with
  | error tr => exact next (.takeFault u _ _ _ _ _)
  | ok w =>
    have hir : u.keeps (u.withCtl { u.ctl with ir := w }) := .withCtl rfl rfl id
    exact after hir (execute _)

theorem controlMove (s : State) : s.leads s.controlMove :=
  ite (fun _ => next (.refl s)) fun _ => ite (fun _ => execute s) fun _ => fetchExecute s

theorem issueMove (s : State) (e : EngId) : s.leads (s.issueMove e) := by
  unfold State.issueMove
  split
  · exact overdue s e
  · split
    · exact exec _ s
    · exact failFirst s e _ _

end State.leads

namespace State.keeps

/-! ### The clock and the plan -/

theorem goOn (s : State) : s.keeps s.goOn := ite (fun _ => foldl continueEng _ s) fun _ => refl s

theorem tickCore (s : State) : s.keeps s.tickCore := by
  unfold State.tickCore
  split
  · exact refl s
  · exact (goOn _).via (withTask ⟨id, id⟩)

theorem tick (s : State) : s.keeps s.tick := by
  have hclock (u : State) (n : Nat) : u.keeps { u with now := n } := of_eq rfl rfl rfl
  exact (foldl (fun u n => onCore tickCore u n) _ s).trans (hclock _ _)

theorem newCycle (s : State) : s.keeps s.newCycle := of_eq rfl rfl rfl

end State.keeps

theorem State.leads.makeMove (s : State) (m : Move) : s.leads (s.makeMove m) := by
  cases m with
  | control c => exact after (.focus s c) (controlMove _)
  | issue c e => exact after (.focus s c) (issueMove _ e)
  | event c i => exact after (.focus s c) (exec i _)
  | record r => exact next (.of_eq rfl rfl rfl)
  | policy => exact next ((keeps.schedule s).trans (.settlePower _))
  | ring r => exact next (.setRing s r)
  | split p => exact next (.splitPort s p)
  | send p prio n => exact next (.sendFrame s p prio n)
  | mailRead p => exact next (.mailRead s p)
  | mailFree p => exact next (.mailFree s p)
  | tick => exact next (.tick s)

theorem State.leads.step (s : State) : s.leads (step s) := by
  unfold Machine.step State.advance
  split
  · exact next (.newCycle s)
  · next m ms hagenda =>
    have hrest : s.keeps { s with agenda := ms } := .of_eq rfl rfl rfl
    exact after hrest (makeMove _ m)

/-! ### The obligation -/

/-- Settles O6, by a relation between states that says each property is kept and that every operation satisfies: it is composed along
the operations of each instruction, each event and each move. -/
theorem stepKeepsInvariants : Obligations.StepKeepsInvariants := by
  unfold Obligations.StepKeepsInvariants
  intro s t hstep
  have hkeeps := State.leads.step s t hstep
  have hdistinct : s.distinct → t.distinct := by
    simp only [State.distinct_iff_distinctOff]
    exact hkeeps.distinct _
  refine ⟨hkeeps.canonical, hdistinct, fun hs => ?_, hkeeps.aligned⟩
  obtain ⟨hsorted, hs⟩ := State.ordered_iff.1 hs
  exact State.ordered_iff.2 ⟨hkeeps.sorted hsorted, hdistinct hs⟩

end Sys2Proof.Machine
end

section
/-! PROOF. XFER by the state of its J register (R158, R160), and the accesses to the operand registers (R170). -/

namespace Sys2Proof.Machine

/-! ### XFER -/

/-- Control moves to a target whose words are in hand; nothing else changes. -/
def State.transfers (v : State) (taddr : Word) (ws : List (Nat × Word)) : State :=
  (v.enter taddr.toNat ws).retired (taddr &&& ~~~7#64)

section
variable {s v : State} {j p : BitVec 3} {pn : Bool} (hq : s.holds ⟨p, pn⟩ = true)
include hq

theorem State.xfer_fault {tr : Trap} (h : s.transferFetch j = (.error tr, v)) :
    exec (.xfer j p pn) s = .next (v.trapHere tr) := by
  show execXfer j p pn s = _
  rw [execXfer, State.qualified_eq, if_pos hq, h, ← State.fail_eq]

theorem State.xfer_transfers {ws : List (Nat × Word)} (h : s.transferFetch j = (.ok ws, v)) :
    exec (.xfer j p pn) s = .next (v.transfers (s.ctl.getJ j).taddr ws) := by
  show execXfer j p pn s = _
  rw [execXfer, State.qualified_eq, if_pos hq, h, State.transfers, ← State.retireTo_eq]

end

/-- The control registers but for PC and the bounds of the code region stay. -/
theorem State.transfers_ctl (v : State) (taddr : Word) (ws : List (Nat × Word)) :
    ∃ lo hi, (v.transfers taddr ws).ctl = { v.ctl with clo := lo, chi := hi, pc := taddr &&& ~~~7#64, waiting := false } :=
  ⟨_, _, State.retired_ctl ..⟩

theorem State.sameBytes_transfers (v : State) (taddr : Word) (ws : List (Nat × Word)) :
    v.sameBytes (v.transfers taddr ws) := fun sp a => by
  rw [State.transfers, State.retired_rdByte, State.rdByte_enter]

/-- Settles O27: the state of the J register gives the fetch, and the transfer that follows writes PC alone. -/
theorem transferControl : Obligations.TransferControl := by
  unfold Obligations.TransferControl
  intro s j p pn hq r goes
  have hgoes : ∀ u v ws, s.transferFetch j = (.ok ws, v) → s.fetchedFrom v → v.ctl.j = u.ctl.j →
      ∃ t, exec (.xfer j p pn) s = .next t ∧ goes u t := by
    intro u v ws hfetch hv hj
    obtain ⟨lo, hi, ht⟩ := State.transfers_ctl v r.taddr ws
    rw [State.fetchedFrom_ctl hv, hj] at ht
    refine ⟨_, State.xfer_transfers hq hfetch, by rw [ht], by rw [ht], fun g => ?_, by rw [ht], by rw [ht], by rw [ht],
      by rw [ht]; exact Ctl.sameSpecial_refl _, fun sp a => ?_⟩
    · rw [State.getG, ht]
      rfl
    · exact (State.sameBytes_transfers v r.taddr ws sp a).trans (State.fetchedFrom_sameBytes hv sp a)
  refine ⟨fun h => State.xfer_fault hq (State.transferFetch_empty h),
    fun h => hgoes s s _ (State.transferFetch_ready h) s.fetchedFrom_refl rfl,
    fun h => ⟨fun u ws hu => ?_, fun u tr hu => State.xfer_fault hq (State.transferFetch_fails h hu)⟩⟩
  have hheld := State.heldOnly_of_prefetch hu
  refine hgoes _ _ _ (State.transferFetch_fetches h hu) (State.fetchedFrom_setJ hheld _ _) ?_
  rw [State.setJ, State.heldOnly_ctl hheld]
  rfl

/-! ### Operand registers -/

theorem exec_tset (q : Qual) (a : BitVec 5) (tid : BitVec 6) (word : BitVec 3) (s : State) : exec (.tset q a tid word) s
    = s.opWrite q fun t => t.setTword tid.toNat word.toNat (s.getG a) := rfl

theorem exec_patw (q : Qual) (a : BitVec 5) (pat : BitVec 4) (s : State) : exec (.patw q a pat) s
    = s.opWrite q fun t => { t with pat := spSet 0 t.pat pat.toNat (s.getG a) } := rfl

theorem exec_shpw (q : Qual) (a : BitVec 5) (sh : BitVec 3) (word : BitVec 2) (s : State) : exec (.shpw q a sh word) s
    = s.opWrite q fun t => { t with sh := spSet 0 t.sh (4 * sh.toNat + word.toNat) (s.getG a) } := rfl

/-- Outside a timed frame a write of an operand register is a qualified instruction like any other. -/
theorem State.opWrite_elastic {s : State} (h : s.ctl.timedOpen = false) (q : Qual) {f : Task → Task}
    (hf : (f s.task).ctl = s.ctl) : s.opWrite q f = .next (s.completes q (s.withTask (f s.task))) := by
  rw [← State.completes_eq s q _ (congrArg Ctl.pc hf), State.opWrite, State.qualified_eq, State.qualified_eq, h]
  rfl

theorem State.opWrite_timed {s : State} (h : s.ctl.timedOpen = true) {q : Qual} (hq : s.holds q = true) (f : Task → Task) :
    s.opWrite q f = .next (s.trapHere { code := .timedState }) := by
  rw [State.opWrite, State.qualified_eq, if_pos hq, if_pos h, State.fail_eq]

/-- Settles O33: writes by the mode of the open frame, reads by the rule of instructions that write one G register. -/
theorem operandRegisters : Obligations.OperandRegisters := by
  unfold Obligations.OperandRegisters
  intro s q a d tid word pat sh sw t v
  refine ⟨fun h => ⟨?_, ?_, ?_⟩, fun h hq => ⟨?_, ?_, ?_⟩, ?_, ?_, ?_⟩
  · rw [exec_tset, State.opWrite_elastic h q rfl]
    rfl
  · rw [exec_patw, State.opWrite_elastic h q rfl]
  · rw [exec_shpw, State.opWrite_elastic h q rfl]
  · rw [exec_tset, State.opWrite_timed h hq]
  · rw [exec_patw, State.opWrite_timed h hq]
  · rw [exec_shpw, State.opWrite_timed h hq]
  · exact State.writeG_eq s q d _
  · exact State.writeG_eq s q d _
  · exact State.writeG_eq s q d _

end Sys2Proof.Machine
end

section
/-! PROOF. TRAP of a task whose control core waits for a remote access does not stop that core (R174, R305). -/

namespace Sys2Proof.Machine

/-! ### The counterexample -/

/-- A resident task whose control core waits, with a remote access in progress. -/
def heldRemote : State :=
  { State.reset with
    cur := { Core.blank 0 with slot := .resident, task := { Task.blank with
      ctl := { Ctl.blank with waiting := true, remote := some 0 } } } }

/-- TRAP keeps the control core waiting, and a parked core that waits for a remote access goes on until that has come to its end. -/
theorem canRun_after_trap :
    ∃ t, exec (.trap ⟨0, false⟩ 0) heldRemote = .next t ∧ t.canRun = true := ⟨_, rfl, by decide⟩

/-- Refutes O30: the statement is of every state, also of one in which the control core is still waiting with a remote access in
progress. TRAP leaves both as they are, so that the core may execute although it is parked. -/
theorem not_trapsBreaksAndSteps : ¬ Obligations.TrapsBreaksAndSteps := by
  unfold Obligations.TrapsBreaksAndSteps
  intro h
  obtain ⟨t, r, hexec, -, -, ⟨-, -, -, hstops⟩, -, -⟩ := (h.1 heldRemote ⟨0, false⟩ 0 (by decide)).1 rfl
  obtain ⟨u, hu, hruns⟩ := canRun_after_trap
  rw [hu, Host.Outcome.next.injEq] at hexec
  rw [hexec, hstops] at hruns
  cases hruns

end Sys2Proof.Machine
end

section
/-! PROOF. The package around its cores and its memory: stores, and what reads and writes find in flight, leave all of it alone (launches,
records, barriers, faults and the rest). -/

namespace Sys2Proof.Machine

/-! ### All but cores, memory and free choices -/

/-- The package without its cores, its memory, the held translations and the counter of free choices. -/
def State.shell (s : State) : State :=
  { s with cur := Core.blank 0, rest := [], mem := [], badMem := [], fresh := 0, xlat := [] }

@[simp] theorem State.shell_withTask (s : State) (t : Task) : (s.withTask t).shell = s.shell := rfl

@[simp] theorem State.shell_withCtl (s : State) (c : Ctl) : (s.withCtl c).shell = s.shell := rfl

@[simp] theorem State.shell_setEng (s : State) (e : EngId) (g : Eng) : (s.setEng e g).shell = s.shell := rfl

@[simp] theorem State.shell_putFlags (s : State) (fs : List (Nat × Flag)) : (s.putFlags fs).shell = s.shell := rfl

@[simp] theorem State.shell_choose (s : State) : s.choose.2.shell = s.shell := rfl

theorem State.shell_foldl {α : Type} {f : State → α → State} (hf : ∀ u a, (f u a).shell = u.shell) (l : List α) (s : State) :
    (l.foldl f s).shell = s.shell :=
  List.foldlRecOn (motive := fun u => u.shell = s.shell) l f rfl fun u hu a _ => (hf u a).trans hu

@[simp] theorem State.shell_focus (s : State) (n : Nat) : (s.focus n).shell = s.shell := by
  unfold State.focus
  split <;> rfl

theorem State.shell_onCore {f : State → State} (hf : ∀ u, (f u).shell = u.shell) (s : State) (n : Nat) :
    (s.onCore n f).shell = s.shell := by
  rw [State.onCore, State.shell_focus, hf, State.shell_focus]

/-! ### Stores -/

@[simp] theorem State.shell_wrByte (s : State) (w : BWrite) : (s.wrByte w).shell = s.shell := by
  by_cases hm : w.mask = 0
  · rw [State.wrByte_none hm]
  by_cases hsp : w.sp = .mem
  · rw [State.wrByte_mem s hsp hm]
    rfl
  · rw [State.wrByte_holder s hsp hm, State.atHolder]
    split <;> rfl

@[simp] theorem State.shell_unmark (s : State) (p : Space × Nat) : (s.unmark p).shell = s.shell := by
  unfold State.unmark
  split
  · rfl
  · split <;> rfl
  · rfl

@[simp] theorem State.shell_unmarkAll (s : State) (ws : List BWrite) : (s.unmarkAll ws).shell = s.shell :=
  State.unmarkAll_induction (P := fun u => u.shell = s.shell) (fun u p hu => (u.shell_unmark p).trans hu) rfl ws

@[simp] theorem State.shell_wrBytes (s : State) (ws : List BWrite) : (s.wrBytes ws).shell = s.shell :=
  (State.shell_unmarkAll _ ws).trans (State.shell_foldl State.shell_wrByte ws s)

@[simp] theorem State.shell_wrNat (s : State) (sp : Space) (a n v : Nat) : (s.wrNat sp a n v).shell = s.shell := s.shell_wrBytes _

theorem State.shell_wrAcc (s : State) (w : BWrite) : (s.wrAcc w).shell = s.shell := by
  unfold State.wrAcc
  split <;> rfl

@[simp] theorem State.shell_perform (s : State) (acc : Bool) (ws : List BWrite) (fs : List (Nat × Flag)) :
    (s.perform acc ws fs).shell = s.shell := by
  rw [State.perform, State.shell_putFlags, State.shell_unmarkAll]
  cases acc
  case false => exact State.shell_foldl State.shell_wrByte ws s
  case true => exact State.shell_foldl State.shell_wrAcc ws s

@[simp] theorem State.shell_putPayload (s : State) (p : Space × Nat) (bs : List Byte) : (s.putPayload p bs).shell = s.shell :=
  s.shell_wrBytes _

/-! ### The sluice's updates -/

@[simp] theorem State.shell_sluPut (s : State) (v : View) (e code : Nat) : (s.sluPut v e code).shell = s.shell := s.shell_wrBytes _

@[simp] theorem State.shell_sluDraw (s : State) : s.sluDraw.2.shell = s.shell := rfl

@[simp] theorem State.shell_countUp (s : State) (v : View) (e : Nat) : (s.countUp v e).shell = s.shell := by
  unfold State.countUp
  dsimp only
  split_ifs <;> simp

@[simp] theorem shell_mergeTrials (k lim n j z : Nat) (s : State) : (mergeTrials k lim n j z s).2.shell = s.shell := by
  induction n generalizing j z s with
  | zero => rfl
  | succ n ih =>
    unfold mergeTrials
    dsimp only
    split
    · exact ih ..
    · exact (ih ..).trans s.shell_sluDraw

@[simp] theorem State.shell_mergeInto (s : State) (v : View) (e y : Nat) : (s.mergeInto v e y).shell = s.shell := by
  unfold State.mergeInto
  dsimp only
  split <;> simp

@[simp] theorem State.shell_raise (s : State) (v : View) (e d : Nat) : (s.raise v e d).shell = s.shell := by
  unfold State.raise
  split <;> simp

@[simp] theorem SluOp.shell_element (op : SluOp) (i e : Nat) (s : State) : (op.element i e s).1.shell = s.shell := by
  unfold SluOp.element
  split
  case h_2 => dsimp only; split <;> simp
  case h_5 | h_6 => cases op.raised i <;> simp
  all_goals simp

theorem SluOp.shell_elements (op : SluOp) (n i : Nat) (r : SluRun) : (op.elements n i r).s.shell = r.s.shell := by
  induction n generalizing i r with
  | zero => rfl
  | succ n ih =>
    unfold SluOp.elements
    split
    · exact ih ..
    · split
      · rfl
      · exact (ih ..).trans (op.shell_element ..)

theorem SluOp.shell_windows (op : SluOp) (sop fuel lo : Nat) (r : SluRun) : (op.windows sop fuel lo r).s.shell = r.s.shell := by
  induction fuel generalizing lo r with
  | zero => rfl
  | succ n ih =>
    unfold SluOp.windows
    dsimp only
    split
    · rfl
    · split
      · rfl
      · exact (ih ..).trans (State.shell_foldl (fun _ _ => State.shell_sluPut ..) _ _)

@[simp] theorem SluOp.shell_perform (op : SluOp) (s : State) : (op.perform s).s.shell = s.shell := by
  unfold SluOp.perform
  dsimp only
  split
  case h_4 => exact op.shell_elements ..
  all_goals exact op.shell_windows ..

@[simp] theorem SluOp.shell_deliver (op : SluOp) (olds : List (Nat × Nat)) (s : State) : (op.deliver olds s).shell = s.shell := by
  unfold SluOp.deliver
  split
  · exact State.shell_foldl (fun u _ => (State.shell_setEng ..).trans (u.shell_sluPut ..)) _ s
  · exact State.shell_foldl (fun u _ => u.shell_wrBytes _) _ s

@[simp] theorem SluOp.shell_performAt (op : SluOp) (p : Space → Nat → Bool) (s : State) :
    (op.performAt p s).1.shell = s.shell := (op.shell_deliver ..).trans (SluOp.shell_perform ..)

theorem State.shell_applyAt (s : State) (r : Req) (p : Space → Nat → Bool) : (s.applyAt r p).1.shell = s.shell := by
  unfold State.applyAt
  split
  · refine State.shell_foldl (fun u x => ?_) _ s
    unfold State.reduce
    split
    · rfl
    · exact u.shell_wrBytes _
  · exact SluOp.shell_performAt ..
  · rfl

/-! ### Parts of a command -/

@[simp] theorem State.shell_exhume (s : State) (bs : List Buried) : (s.exhume bs).shell = s.shell :=
  State.shell_foldl (fun _ _ => State.shell_wrByte ..) bs s

@[simp] theorem State.shell_rebury (s : State) (bs : List Buried) (t : State) : (s.rebury bs t).shell = t.shell := by
  unfold State.rebury
  split
  · rfl
  · refine (State.shell_foldl (fun _ _ => State.shell_wrByte ..) bs _).trans ?_
    exact State.shell_foldl (fun _ _ => State.shell_setEng ..) bs t

theorem State.shell_beneath (s : State) (e : EngId) (f : Flight) {act : State → State} (ha : ∀ u, (act u).shell = u.shell) :
    (s.beneath e f act).shell = s.shell := (State.shell_rebury ..).trans ((ha _).trans (s.shell_exhume _))

@[simp] theorem State.shell_seeded (s : State) (f : Flight) : (s.seeded f).shell = s.shell := by
  unfold State.seeded
  split <;> rfl

@[simp] theorem State.shell_weightPart (s : State) (op : LandOp) (p : Space → Nat → Bool) :
    (s.weightPart op p).2.2.2.shell = s.shell := by
  unfold State.weightPart
  split <;> rfl

@[simp] theorem State.shell_foldPart (s : State) (e : EngId) (f : Flight) (p : Space → Nat → Bool) :
    (s.foldPart e f p).shell = s.shell := by
  unfold State.foldPart
  split
  · split
    · exact s.shell_wrBytes _
    · rfl
  · rfl

@[simp] theorem State.shell_landOwn (s : State) (e : EngId) (seq : Nat) (p : Space → Nat → Bool) :
    (s.landOwn e seq p).shell = s.shell := by
  unfold State.landOwn
  split
  · rfl
  · refine s.shell_beneath e _ fun u => ?_
    dsimp only
    rw [State.shell_foldPart, State.shell_setEng, State.shell_weightPart, State.shell_perform]

@[simp] theorem State.shell_sluPart (s : State) (f : Flight) (p : Space → Nat → Bool) : (s.sluPart f p).shell = s.shell := by
  refine s.shell_beneath .sluice f fun u => ?_
  split
  · dsimp only
    split
    · rw [State.shell_setEng, SluOp.shell_deliver]
    · rw [State.shell_setEng, SluOp.shell_performAt]
  · rfl

@[simp] theorem State.shell_sluBack (fs : List Flight) (p : Space → Nat → Bool) (s : State) :
    (State.sluBack fs p s).shell = s.shell := by
  induction fs generalizing p with
  | nil => rfl
  | cons f t ih =>
    unfold State.sluBack
    split
    · exact (State.shell_sluPart ..).trans (ih _)
    · exact ih _

theorem State.shell_takeDraws (fs : List (EngId × Flight)) (w s : State) : (State.takeDraws fs w s).shell = s.shell := by
  induction fs generalizing w s with
  | nil => rfl
  | cons x t ih =>
    unfold State.takeDraws
    split
    · split
      · exact (ih ..).trans (State.shell_seeded ..)
      · dsimp only
        split
        · rfl
        · rw [ih, State.shell_seeded]
          rfl
    · exact ih ..

@[simp] theorem State.shell_drawsFor (s : State) (f : Flight) (p : Space → Nat → Bool) : (s.drawsFor f p).shell = s.shell := by
  unfold State.drawsFor
  split
  · exact State.shell_takeDraws ..
  · rfl

theorem State.shell_sluParts (s : State) (f : Flight) (p : Space → Nat → Bool) : (s.sluParts f p).shell = s.shell := by
  unfold State.sluParts
  split
  · split
    · rfl
    · exact (State.shell_sluBack ..).trans (s.shell_drawsFor f p)
  · rfl

@[simp] theorem State.shell_landPart (s : State) (e : EngId) (seq : Nat) (p : Space → Nat → Bool) :
    (s.landPart e seq p).shell = s.shell := by
  unfold State.landPart
  split
  · rfl
  · exact (State.shell_sluParts ..).trans (s.shell_landOwn e seq p)

/-! ### What comes before a write, and what a read finds -/

theorem State.shell_landAt (s : State) (h : Nat × Space) (a n : Nat) (l : List (EngId × Flight)) :
    (s.landAt h a n l).shell = s.shell := State.shell_foldl (fun _ _ => State.shell_landPart ..) l s

theorem State.shell_behind (s : State) (h : Nat × Space) (a n : Nat) : (s.behind h a n).shell = s.shell :=
  (State.shell_landAt ..).trans (s.shell_landAt h a n _)

theorem State.shell_behindOthers (s : State) (h : Nat × Space) (a n : Nat) : (s.behindOthers h a n).shell = s.shell :=
  State.shell_foldl (fun u m => u.shell_onCore (fun v => v.shell_behind h a n) m) _ s

@[simp] theorem State.shell_behindSeen (s : State) (sp : Space) (a n : Nat) : (s.behindSeen sp a n).shell = s.shell :=
  (State.shell_behindOthers ..).trans (s.shell_behind _ a n)

theorem State.shell_overAhead (s : State) (e : EngId) (ps : List (Space × Nat)) : (s.overAhead e ps).shell = s.shell := by
  have hdrawn : (s.overDrawn e ps).shell = s.shell := by
    unfold State.overDrawn
    split
    · rfl
    · exact State.shell_foldl (fun u _ => u.shell_landAt ..) ps s
  unfold State.overAhead State.overOthers
  split
  · exact hdrawn
  · exact (State.shell_foldl (fun u _ => u.shell_behindOthers ..) ps _).trans hdrawn

theorem State.shell_reqPart (s : State) (e : EngId) (tag : BitVec 32) (p : Space → Nat → Bool) :
    (s.reqPart e tag p).shell = s.shell := by
  refine State.shell_foldl (fun u r => ?_) _ s
  split
  · rfl
  · dsimp only
    rw [State.shell_setEng, State.shell_applyAt, State.shell_overAhead]

theorem State.shell_showReqs (s : State) (e : EngId) (f : Flight) (want : Space → Nat → Bool) (key : Space → Nat → Nat) :
    (s.showReqs e f want key).shell = s.shell := by
  refine State.shell_foldl (fun u r => State.shell_foldl (fun v k => ?_) _ u) _ s
  dsimp only
  split
  · exact State.shell_reqPart ..
  · rfl

theorem State.shell_showAt (s : State) (want : Space → Nat → Bool) (key : Flight → Space → Nat → Nat) :
    (s.showAt want key).shell = s.shell := by
  refine State.shell_foldl (fun u e => State.shell_foldl (fun u f => ?_) _ u) _ s
  split
  · rfl
  · refine (State.shell_showReqs ..).trans (State.shell_foldl (fun v k => ?_) _ u)
    have hland (w : State) (p : Space → Nat → Bool) (ps : List (Space × Nat)) :
        ((w.overAhead e ps).landPart e f.seq p).shell = w.shell := (State.shell_landPart ..).trans (w.shell_overAhead e ps)
    dsimp only
    split
    · split
      · exact hland _ _ _
      · rfl
    · split
      · exact (hland _ _ _).trans v.shell_choose
      · exact v.shell_choose

@[simp] theorem State.shell_showFor (s : State) (sp : Space) (a n : Nat) : (s.showFor sp a n).shell = s.shell := by
  unfold State.showFor
  exact (State.shell_foldl (fun u m => u.shell_onCore (fun v => v.shell_showAt _ _) m) _ _).trans (s.shell_showAt _ _)

@[simp] theorem State.shell_asRead (s : State) (e : EngId) : (s.asRead e).shell = s.shell := by
  have hown : (if (s.eng e).strict then s else s.showAt (fun _ _ => true) fun _ _ a => a / 64).shell = s.shell := by
    split
    · rfl
    · exact s.shell_showAt _ _
  unfold State.asRead
  refine Eq.trans (State.shell_foldl (fun u c => ?_) _ _) hown
  exact u.shell_onCore (fun v => v.shell_showAt _ _) c.pcore

end Sys2Proof.Machine
end

section
/-! PROOF. HALT (R176, R293), and IINV with its invalidation points (R158, R163). -/

namespace Sys2Proof.Machine

/-! ### The end of a task -/

/-- A launch that replaces the one of its LAUNCHID is found in its place. -/
theorem State.findLaunch_setLaunch {s : State} {l m : Launch} (h : s.findLaunch m.lid = some l) :
    (s.setLaunch m).findLaunch m.lid = some m := by
  have hl := List.find?_some h
  have hP : ((fun x : Launch => x.lid == m.lid) ∘ fun x => if x.lid = m.lid then m else x) = fun x => x.lid == m.lid := by
    funext x
    by_cases hx : x.lid = m.lid <;> simp [hx]
  unfold State.findLaunch State.setLaunch at *
  rw [List.find?_map, hP, h, Option.map_some, if_pos (by simpa using hl)]

theorem State.cur_wrNat_mem (s : State) (a n v : Nat) : (s.wrNat .mem a n v).cur = s.cur :=
  (List.cons.inj (s.cores_wrNat_mem a n v)).1

theorem State.rest_wrNat_mem (s : State) (a n v : Nat) : (s.wrNat .mem a n v).rest = s.rest :=
  (List.cons.inj (s.cores_wrNat_mem a n v)).2

theorem State.launches_of_shell {s u : State} (h : u.shell = s.shell) : u.launches = s.launches :=
  show u.shell.launches = s.shell.launches by rw [h]

/-- A completion record is written to memory, or a fault record says that it could not be (R293). -/
theorem State.writeCompletion_frame (s : State) (l : Launch) (status fcode : Nat) :
    (s.writeCompletion l status fcode).cur = s.cur ∧ (s.writeCompletion l status fcode).rest = s.rest ∧
      (s.writeCompletion l status fcode).launches = s.launches := by
  unfold State.writeCompletion
  split
  · exact ⟨rfl, rfl, rfl⟩
  · dsimp only
    refine ⟨?_, ?_, State.launches_of_shell ?_⟩
    · simp only [State.cur_wrNat_mem]
    · simp only [State.rest_wrNat_mem]
    · simp only [State.shell_wrNat]

/-- A launch with the task of a launch core number halted (R293). -/
def Launch.halts (l : Launch) (lcn time : Nat) : Launch :=
  { l with halted := l.halted ++ [lcn], maxTime := max l.maxTime time }

/-- A task that retires leaves its slot and no other core is touched (R176). -/
theorem State.retireTask_slot (s : State) :
    s.retireTask.cur = { s.cur with slot := .empty, task := Task.blank } ∧ s.retireTask.rest = s.rest := by
  unfold State.retireTask
  dsimp only
  split
  · exact ⟨rfl, rfl⟩
  · split
    · obtain ⟨hcur, hrest, -⟩ := State.writeCompletion_frame (State.setLaunch _ _) _ 0 0
      exact ⟨hcur, hrest⟩
    · exact ⟨rfl, rfl⟩

/-- The launch of a task that retires counts it as halted and may end by it (R293). -/
theorem State.retireTask_counts {s : State} {l : Launch} (h : s.findLaunch s.task.lid = some l) :
    ∃ u : State, u.launches = (s.setLaunch (l.halts s.task.lcn s.ctl.tasktime)).launches ∧
      (s.retireTask = u ∨ s.retireTask = u.finishLaunch (l.halts s.task.lcn s.ctl.tasktime) 0 0) := by
  unfold State.retireTask
  dsimp only
  split
  · next hnone => cases h.symm.trans hnone
  · next m hsome =>
    obtain rfl : l = m := Option.some.inj (h.symm.trans hsome)
    split
    · refine ⟨_, ?_, .inr rfl⟩
      rfl
    · refine ⟨_, ?_, .inl rfl⟩
      rfl

/-- The launch of a task that retires is found with the task halted (R293). -/
theorem State.retireTask_launch {s : State} {l : Launch} (h : s.findLaunch s.task.lid = some l) :
    ∃ m, s.retireTask.findLaunch s.task.lid = some m ∧ m.halted = l.halted ++ [s.task.lcn] ∧
      m.maxTime = max l.maxTime s.ctl.tasktime := by
  obtain ⟨u, hu, hs⟩ := State.retireTask_counts h
  have hlid : l.lid = s.task.lid := by simpa using List.find?_some h
  rw [← hlid] at h ⊢
  have hset : u.findLaunch l.lid = some (l.halts s.task.lcn s.ctl.tasktime) := by
    rw [State.findLaunch, hu]
    exact State.findLaunch_setLaunch (m := l.halts _ _) h
  rcases hs with hs | hs
  · exact ⟨_, hs ▸ hset, rfl, rfl⟩
  · refine ⟨{ l.halts s.task.lcn s.ctl.tasktime with st := .finished }, ?_, rfl, rfl⟩
    rw [hs, State.finishLaunch, State.findLaunch, (State.writeCompletion_frame ..).2.2]
    exact State.findLaunch_setLaunch (m := { l.halts _ _ with st := .finished }) hset

/-- Settles O37: HALT waits, or the task retires. -/
theorem haltRetiresTask : Obligations.HaltRetiresTask := by
  unfold Obligations.HaltRetiresTask
  intro s q hq
  have hexec : exec (.halt q) s = if s.task.framesDone then .next s.retireTask else s.wait := by
    show execHalt q s = _
    rw [execHalt, State.qualified_eq, if_pos hq]
  refine ⟨fun h => by rw [hexec, h]; rfl, fun h => ⟨s.retireTask, by rw [hexec, h]; rfl, ?_⟩⟩
  obtain ⟨hcur, hrest⟩ := s.retireTask_slot
  exact ⟨by rw [hcur], hrest, by rw [hcur], by rw [hcur], fun l hl => State.retireTask_launch hl⟩

/-! ### IINV (R163) -/

/-- The bytes of the 64-byte lines that a range touches. -/
theorem touched_lines (a b va : Nat) :
    a / 64 * 64 ≤ va ∧ va < (if b = 0 then a / 64 * 64 else (a + b + 63) / 64 * 64) ↔ ∃ x, x / 64 = va / 64 ∧ a ≤ x ∧ x < a + b := by
  refine ⟨fun ⟨hlo, hhi⟩ => ?_, fun ⟨x, hx, ha, hb⟩ => ?_⟩
  · split at hhi
    · omega
    · exact ⟨max a (va / 64 * 64), by omega, by omega, by omega⟩
  · rw [if_neg (by omega)]
    omega

theorem sameUnit_iff (scope m n : Nat) : sameUnit scope m n = true ↔
    match scope with | 0 => m = n | 1 => m / 4 = n / 4 | 2 => m / 144 = n / 144 | _ => True := by
  unfold sameUnit
  split <;> simp

theorem State.mem_covered (s : State) (scope n : Nat) : n ∈ s.covered scope ↔
    ∃ c ∈ s.cores, c.pcore = n ∧ c.slot = .resident ∧ c.task.part = s.task.part ∧
      match scope with
        | 0 => s.cur.pcore = n | 1 => s.cur.pcore / 4 = n / 4 | 2 => s.cur.pcore / 144 = n / 144 | _ => True := by
  rw [← sameUnit_iff scope s.cur.pcore n]
  unfold State.covered
  simp only [List.mem_map, List.mem_filter, Bool.and_eq_true, beq_iff_eq]
  constructor
  · rintro ⟨c, ⟨hc, ⟨hslot, hpart⟩, hunit⟩, rfl⟩
    exact ⟨c, hc, rfl, hslot, hpart, hunit⟩
  · rintro ⟨c, hc, rfl, hslot, hpart, hunit⟩
    exact ⟨c, ⟨hc, ⟨hslot, hpart⟩, hunit⟩, rfl⟩

/-- A table of which every value has been changed, the default staying itself. -/
theorem spGet_map {β : Type} {d : β} {f : β → β} (hd : f d = d) (t : Sparse β) (k : Nat) :
    spGet d (t.map fun e => (e.1, f e.2)) k = f (spGet d t k) := by
  induction t with
  | nil => exact hd.symm
  | cons e t ih =>
    rw [List.map_cons, spGet, spGet, ih]
    split_ifs <;> simp [hd]

/-- A J register at an invalidation point: EMPTY stays, anything else is STALE (R158). -/
theorem Task.getJ_invalidate (t : Task) (lo hi : Nat) (whole : Bool) (j : BitVec 3) :
    (t.invalidate lo hi whole).ctl.getJ j = (t.ctl.getJ j).staled := spGet_map (f := JReg.staled) rfl _ _

theorem Task.mem_icache_invalidate (t : Task) (lo hi : Nat) (whole : Bool) (w : Nat × Word) :
    w ∈ (t.invalidate lo hi whole).icache ↔ w ∈ t.icache ∧ whole = false ∧ ¬(lo ≤ w.1 ∧ w.1 < hi) := by
  cases whole
  case true => simp [Task.invalidate]
  case false =>
    simp only [Task.invalidate, Bool.false_eq_true, if_false, List.mem_filter, true_and, Bool.not_eq_true',
      Bool.and_eq_false_iff, decide_eq_false_iff_not, not_and_or]

/-- No invalidation that has this number still awaits the core that passes its point. -/
theorem not_mem_todo_of_passed {is : List Iinv} {p : Iinv → Bool} {id n : Nat} {x : Iinv}
    (h : x ∈ (is.map fun i => if i.id = id then { i with todo := i.todo.filter (· != n) } else i).filter p) (hx : x.id = id) :
    n ∉ x.todo := by
  obtain ⟨i, -, rfl⟩ := List.mem_map.1 (List.mem_filter.1 h).1
  by_cases hi : i.id = id
  · rw [if_pos hi]
    simp
  · rw [if_neg hi] at hx
    contradiction

/-- An invalidation that has ended leaves the list (R163). -/
def State.endIinv (s : State) (id : Nat) : State := { s with iinvs := s.iinvs.filter fun x => x.id != id }

/-- The focused task begins an invalidation, and goes on without the one that it had (R163). -/
def State.beginIinv (s : State) (lo hi scope : Nat) (whole : Bool) : State :=
  { s.leaveIinv s.task.lid s.task.lcn with
    nextIinv := s.nextIinv + 1
    iinvs := (s.leaveIinv s.task.lid s.task.lcn).iinvs
      ++ [⟨s.nextIinv, s.task.lid, s.task.lcn, lo, hi, scope, whole, false, s.covered scope⟩] }

theorem State.retired_iinvs (s : State) (pc : Word) : (s.retired pc).iinvs = s.iinvs := by
  unfold State.retired
  dsimp only
  split <;> rfl

/-- The range of IINV (R163). -/
theorem iinvEnd (a b : BitVec 64) :
    (if b.toNat = 0 then a.toNat / 64 * 64 else ceilDiv (a.toNat + b.toNat) 64 * 64)
      = if b = 0 then a.toNat / 64 * 64 else (a.toNat + b.toNat + 63) / 64 * 64 := by
  have hz : b.toNat = 0 ↔ b = 0 := ⟨BitVec.eq_of_toNat_eq (y := 0), fun h => by rw [h]; rfl⟩
  simp only [hz]
  rfl

/-- Settles O40: IINV by the invalidation that it finds in progress; a point by what it leaves of cache and J registers. -/
theorem instructionInvalidate : Obligations.InstructionInvalidate := by
  unfold Obligations.InstructionInvalidate
  refine ⟨fun s q a b scope whole hq => ?_, fun s id i hi => ?_⟩
  · intro own lo hi mine
    have hexec : exec (.iinv q a b scope whole) s = match s.iinvs.find? mine with
        | some i => if i.todo.isEmpty then (s.endIinv i.id).retire else s.wait
        | none => (s.beginIinv lo hi scope.toNat whole).wait := by
      show execIinv q a b scope whole s = _
      rw [execIinv, State.qualified_eq, if_pos hq]
      dsimp only
      rw [iinvEnd]
      rfl
    refine ⟨fun hnone => ?_, fun i hsome htodo => ?_, fun i hsome htodo => ?_⟩
    · rw [hnone] at hexec
      refine ⟨_, hexec, rfl, _, rfl, ?_, fun va => ?_, State.mem_covered s scope.toNat⟩
      · simp [mine, own]
      · rw [← touched_lines]
        have hz : s.getG b = 0 ↔ (s.getG b).toNat = 0 := ⟨fun h => by rw [h]; rfl, BitVec.eq_of_toNat_eq (y := 0)⟩
        simp only [hi, hz]
        rfl
    · rw [hsome] at hexec
      exact ⟨_, hexec.trans (if_pos (by rw [htodo]; rfl)), State.retired_pc .., State.retired_iinvs ..⟩
    · rw [hsome] at hexec
      exact hexec.trans (if_neg (by simpa using htodo))
  · refine ⟨_, by show execIinvInvalidationPoint id s = _; rw [execIinvInvalidationPoint, hi], ?_⟩
    exact ⟨Task.mem_icache_invalidate s.task i.lo i.hi i.whole, Task.getJ_invalidate s.task i.lo i.hi i.whole, fun g => rfl,
      fun x hx => not_mem_todo_of_passed hx⟩

end Sys2Proof.Machine
end

section
/-! PROOF. BAR and BARR (R171, R172): arrival, departure, the payload and its reduction. -/

namespace Sys2Proof.Machine

/-! ### A barrier by the departure or the arrival that it finds -/

section

variable {s : State} {arr : Arrival} {done : List Byte → State → Out}

theorem State.barrier_departs {x : Depart} (h : s.departs.find? (fun x => x.lid == arr.lid && x.lcn == arr.lcn && x.scope == arr.scope
    && x.bid == arr.bid) = some x) :
    s.barrier arr done = if x.ok
      then done x.payload { s with departs := s.departs.filter fun y => !(y.lid == arr.lid && y.lcn == arr.lcn) }
      else State.fail { s with departs := s.departs.filter fun y => !(y.lid == arr.lid && y.lcn == arr.lcn) }
        { code := .geometry } := by
  unfold State.barrier
  rw [h]

theorem State.barrier_waits (h : s.departs.find? (fun x => x.lid == arr.lid && x.lcn == arr.lcn && x.scope == arr.scope
    && x.bid == arr.bid) = none) (ha : s.arrivals.any (fun x => x.lid == arr.lid && x.lcn == arr.lcn && x.scope == arr.scope
    && x.bid == arr.bid) = true) : s.barrier arr done = s.wait := by
  unfold State.barrier
  rw [h]
  exact if_pos ha

theorem State.barrier_arrives (h : s.departs.find? (fun x => x.lid == arr.lid && x.lcn == arr.lcn && x.scope == arr.scope
    && x.bid == arr.bid) = none) (ha : s.arrivals.any (fun x => x.lid == arr.lid && x.lcn == arr.lcn && x.scope == arr.scope
    && x.bid == arr.bid) = false) :
    s.barrier arr done = State.wait { s.leaveBarrier arr.lid arr.lcn with
      arrivals := (s.leaveBarrier arr.lid arr.lcn).arrivals ++ [arr] } := by
  unfold State.barrier
  rw [h]
  exact if_neg (by rw [ha]; exact Bool.false_ne_true)

end

/-- BAR: TIMED-STATE, scope core, or the barrier (R171). -/
theorem exec_bar {s : State} {q : Qual} (hq : s.holds q = true) (scope : BitVec 3) (bid : BitVec 6) :
    exec (.bar q scope bid) s =
      if (s.ctl.frame && s.ctl.timed) = true then .next (s.trapHere { code := .timedState })
      else if scope = 0 then .next (s.retired (s.ctl.pc + 8))
      else s.barrier ⟨s.task.lid, s.task.lcn, scope, s.unitOf scope.toNat s.task.lcn, bid, false, 0, 0, [], 0⟩
        fun _ s => s.retire := by
  show execBar q scope bid s = _
  rw [execBar, State.qualified_eq, if_pos hq]
  rfl

/-! ### Payloads -/

theorem le_of_mem_numbered {β : Type} {p : Nat × β} {l : List β} {k : Nat} (h : p ∈ numbered k l) : k ≤ p.1 := by
  rw [numbered_eq_zipIdx] at h
  obtain ⟨x, hx, rfl⟩ := List.mem_map.1 h
  exact List.le_snd_of_mem_zipIdx hx

/-- Whole bytes that go to adjacent places of a store read back. -/
theorem State.rdByte_foldl_numbered {sp : Space} (hsp : sp ≠ .wbuf) (bs : List Byte) {s : State} (hs : s.canonical)
    (hh : (s.holder sp).isSome) (a : Nat) {k : Nat} (hk : k < bs.length) :
    (((numbered a bs).map fun b => (⟨sp, b.1, 0xFF, b.2⟩ : BWrite)).foldl State.wrByte s).rdByte sp (a + k) = bs[k] := by
  induction bs generalizing s a k with
  | nil => cases hk
  | cons b bs ih =>
    rw [numbered, List.map_cons, List.foldl_cons]
    have hs' := State.canonical_wrByte hs ⟨sp, a, 0xFF, b⟩
    cases k with
    | zero =>
      rw [State.rdByte_foldl_wrByte_ne hs' fun w hw hplace => ?_]
      · exact (State.rdByte_wrByte_self hs (w := ⟨sp, a, 0xFF, b⟩) hsp hh (by simp)).trans (mergeByte_all _ b)
      · obtain ⟨p, hp, rfl⟩ := List.mem_map.1 hw
        have hle := le_of_mem_numbered hp
        obtain ⟨-, -, hat⟩ := (State.place_eq_iff ..).1 hplace
        dsimp only at hat
        omega
    | succ k =>
      rw [show a + (k + 1) = a + 1 + k by omega]
      exact ih hs' (by rwa [State.holder_wrByte_isSome]) (a + 1) (Nat.lt_of_succ_lt_succ hk)

theorem State.payload_putPayload {s : State} (hs : s.canonical) {p : Space × Nat} (hsp : p.1 ≠ .wbuf)
    (hh : (s.holder p.1).isSome) {bs : List Byte} (hlen : bs.length = 64) : (s.putPayload p bs).payload p = bs := by
  refine List.ext_getElem (by simp [State.payload, hlen]) fun k _ hk => ?_
  simp only [State.payload, List.getElem_map, List.getElem_range]
  rw [State.putPayload, State.wrBytes, State.rdByte_unmarkAll]
  exact State.rdByte_foldl_numbered hsp bs hs hh p.2 hk

theorem ownWindow_space {va : Nat} {p : Space × Nat} (h : ownWindow va = some p) : p.1 = .reg ∨ p.1 = .scr := by
  unfold ownWindow at h
  split at h
  · cases h
    exact .inl rfl
  · cases h
    exact .inr rfl
  · cases h

/-! ### The reduction (R172) -/

theorem pairUp_length (op : Nat → Nat → Nat) (l : List Nat) : (pairUp op l).length = (l.length + 1) / 2 := by
  induction l using pairUp.induct with
  | case1 x y t ih =>
    rw [pairUp, List.length_cons, ih, List.length_cons, List.length_cons]
    omega
  | case2 l h =>
    match l with
    | [] => rfl
    | [_] => simp [pairUp]
    | x :: y :: t => exact absurd rfl (h x y t)

theorem getElem?_pairUp (op : Nat → Nat → Nat) (l : List Nat) (k : Nat) :
    (pairUp op l)[k]? = match l[2 * k]?, l[2 * k + 1]? with
      | some x, some y => some (op x y)
      | some x, none => some x
      | none, _ => none := by
  induction l using pairUp.induct generalizing k with
  | case1 x y t ih =>
    cases k with
    | zero => rfl
    | succ k => exact ih k
  | case2 l h =>
    match l with
    | [] => rfl
    | [_] => cases k <;> rfl
    | x :: y :: t => exact absurd rfl (h x y t)

/-- Fuel as long as the list is enough, and more changes nothing. -/
theorem reduceTree_fuel (op : Nat → Nat → Nat) {n m : Nat} {l : List Nat} (hn : l.length ≤ n) (hm : l.length ≤ m) :
    reduceTree op n l = reduceTree op m l := by
  induction n generalizing m l with
  | zero =>
    obtain rfl := List.length_eq_zero_iff.1 (Nat.le_zero.1 hn)
    cases m <;> rfl
  | succ n ih =>
    cases m with
    | zero =>
      obtain rfl := List.length_eq_zero_iff.1 (Nat.le_zero.1 hm)
      rfl
    | succ m =>
      rw [reduceTree, reduceTree]
      split
      · rfl
      · have hlen := pairUp_length op l
        exact ih (by omega) (by omega)

theorem reduceTree_step (op : Nat → Nat → Nat) {l : List Nat} (h : 1 < l.length) :
    reduceTree op l.length l = reduceTree op ((l.length + 1) / 2) (pairUp op l) := by
  obtain ⟨n, hn⟩ := Nat.exists_eq_add_of_lt h
  have hlen := pairUp_length op l
  rw [show l.length = (l.length - 1) + 1 by omega, reduceTree, if_neg (by omega), ← show l.length = (l.length - 1) + 1 by omega]
  exact reduceTree_fuel op (by omega) (by omega)

/-- Of chunks of `n` bytes in a row, the chunk at position `k`. -/
theorem take_drop_flatMap {α β : Type} {f : α → List β} {n : Nat} (hf : ∀ a, (f a).length = n) (l : List α) {k : Nat}
    (hk : k < l.length) : ((l.flatMap f).drop (n * k)).take n = f l[k] := by
  induction l generalizing k with
  | nil => cases hk
  | cons a l ih =>
    cases k with
    | zero => simp [hf a]
    | succ k =>
      rw [List.flatMap_cons, show n * (k + 1) = (f a).length + n * k by rw [hf a]; ring, List.drop_length_add_append]
      exact ih (Nat.lt_of_succ_lt_succ hk)

/-- The bytes of an element of a BARR payload (R172). -/
def barrBytes (rtype : Nat) : Nat := if rtype = 2 ∨ rtype = 3 then 8 else 4

theorem reducePayload_eq (rop rtype : Nat) (ps : List (List Byte)) :
    reducePayload rop rtype ps = (List.range (64 / barrBytes rtype)).flatMap fun k =>
      leBytes (barrBytes rtype) (reduceTree (barrOp rop rtype) ps.length
        (ps.map fun p => leNat ((p.drop (barrBytes rtype * k)).take (barrBytes rtype)))) := by
  unfold reducePayload barrBytes
  simp only [Bool.or_eq_true, decide_eq_true_eq]

theorem barrBytes_cases (rtype : Nat) : barrBytes rtype = 8 ∨ barrBytes rtype = 4 := by
  unfold barrBytes
  split
  · exact .inl rfl
  · exact .inr rfl

theorem reducePayload_length (rop rtype : Nat) (ps : List (List Byte)) : (reducePayload rop rtype ps).length = 64 := by
  rw [reducePayload_eq, List.length_flatMap]
  simp only [leBytes_length, List.map_const', List.sum_replicate, List.length_range]
  rcases barrBytes_cases rtype with h | h <;> rw [h] <;> rfl

theorem reducePayload_elem (rop rtype : Nat) (ps : List (List Byte)) {k : Nat} (hk : k < 64 / barrBytes rtype) :
    leNat (((reducePayload rop rtype ps).drop (barrBytes rtype * k)).take (barrBytes rtype))
      = reduceTree (barrOp rop rtype) ps.length
          (ps.map fun p => leNat ((p.drop (barrBytes rtype * k)).take (barrBytes rtype))) % 2 ^ (8 * barrBytes rtype) := by
  rw [reducePayload_eq, take_drop_flatMap (fun _ => leBytes_length _ _) _ (by simpa using hk), leNat_leBytes, List.getElem_range, Nat.pow_mul]

/-! ### The departure of a generation -/

theorem barrierDeparture_waits {s : State} {lid unit : Nat} {scope : BitVec 3} {bid : BitVec 6}
    (h : ∃ n ∈ s.participants lid scope.toNat unit, (s.left ++ s.arrivals).find? (fun a =>
      (a.lid == lid && a.scope == scope && a.unit == unit && a.bid == bid) && a.lcn == n) = none) :
    exec (.barrierDeparture lid scope unit bid) s = .next s := by
  show execBarrierDeparture lid scope unit bid s = _
  unfold execBarrierDeparture
  dsimp only
  split
  · rfl
  · next a0 t _ =>
    refine if_pos fun hlen => ?_
    obtain ⟨n, hn, hnone⟩ := h
    rw [List.filterMap_length_eq_length] at hlen
    have := hlen n hn
    rw [hnone] at this
    cases this

/-- The arrivals that leave the list of those whose task is past the barrier: for each of the numbers, which are distinct, the first. -/
theorem eraseEach {p : Nat → Arrival → Bool} (hp : ∀ n m a, p n a = true → p m a = true → n = m) {ns : List Nat} (hns : ns.Nodup)
    (l : List Arrival) (h : ∀ n ∈ ns, l.any (p n) = true) :
    (ns.foldl (fun l n => l.eraseP (p n)) l).Sublist l ∧ (ns.foldl (fun l n => l.eraseP (p n)) l).length + ns.length = l.length := by
  induction ns generalizing l with
  | nil => exact ⟨.refl l, rfl⟩
  | cons n ns ih =>
    obtain ⟨hnew, hrest⟩ := List.nodup_cons.1 hns
    obtain ⟨a, ha, hna⟩ := List.any_eq_true.1 (h n List.mem_cons_self)
    have hlen := List.length_eraseP_add_one ha hna
    obtain ⟨hsub, hcount⟩ := ih hrest (l.eraseP (p n)) fun m hm => by
      obtain ⟨b, hb, hmb⟩ := List.any_eq_true.1 (h m (List.mem_cons_of_mem n hm))
      refine List.any_eq_true.2 ⟨b, (List.mem_eraseP_of_neg fun hnb => hnew ?_).2 hb, hmb⟩
      exact hp n m b hnb hmb ▸ hm
    exact ⟨hsub.trans List.eraseP_sublist, by rw [List.foldl_cons, List.length_cons]; omega⟩

theorem State.participants_nodup (s : State) (lid scope unit : Nat) : (s.participants lid scope unit).Nodup := by
  unfold State.participants
  cases s.findLaunch lid with
  | none => exact List.nodup_nil
  | some l => exact List.nodup_range.filter _

/-- The arrivals of the participants are theirs, one each and in their order. -/
theorem arrivals_by_rank {at_ : Nat → Option Arrival} {lid : Nat} (hat : ∀ n a, at_ n = some a → a.lid = lid ∧ a.lcn = n)
    {ps : List Nat} {as : List Arrival} (h : ps.map at_ = as.map some) : as.map (fun a => (a.lid, a.lcn)) = ps.map fun n => (lid, n) := by
  induction ps generalizing as with
  | nil => rw [List.map_eq_nil_iff.1 h.symm]; rfl
  | cons n ps ih =>
    match as, h with
    | a :: as, h =>
      obtain ⟨ha, has⟩ := List.cons.inj h
      obtain ⟨hlid, hlcn⟩ := hat n a ha
      rw [List.map_cons, List.map_cons, ih has, hlid, hlcn]

/-- Every arrival of a generation agrees with the first. -/
def Arrival.agrees (a0 : Arrival) (as : List Arrival) : Bool :=
  (a0 :: as).all fun a => a.barr == a0.barr && a.rop == a0.rop && a.rtype == a0.rtype

/-- The participants agree on the instruction, ROP and RTYPE if each agrees with the first (R171). -/
theorem Arrival.agrees_iff (a0 : Arrival) (as : List Arrival) :
    a0.agrees as = true ↔ ∀ x ∈ a0 :: as, ∀ y ∈ a0 :: as, x.barr = y.barr ∧ x.rop = y.rop ∧ x.rtype = y.rtype := by
  simp only [Arrival.agrees, List.all_eq_true, Bool.and_eq_true, beq_iff_eq, and_assoc]
  refine ⟨fun h x hx y hy => ?_, fun h x hx => h x hx a0 List.mem_cons_self⟩
  obtain ⟨hbarr, hrop, hrtype⟩ := h x hx
  obtain ⟨hbarr', hrop', hrtype'⟩ := h y hy
  exact ⟨hbarr.trans hbarr'.symm, hrop.trans hrop'.symm, hrtype.trans hrtype'.symm⟩

section

variable (s : State) (lid unit : Nat) (scope : BitVec 3) (bid : BitVec 6)

/-- The payload with which a generation departs (R172). -/
def Arrival.reduced (a0 : Arrival) (as : List Arrival) : List Byte :=
  if a0.agrees as && a0.barr then reducePayload a0.rop a0.rtype ((a0 :: as).map (·.payload)) else []

theorem Arrival.reduced_eq {a0 x : Arrival} {as : List Arrival} (hx : x ∈ a0 :: as) (h : a0.agrees as = true) (hbarr : x.barr = true) :
    a0.reduced as = reducePayload x.rop x.rtype ((a0 :: as).map (·.payload)) := by
  obtain ⟨hb, hrop, hrtype⟩ := (a0.agrees_iff as).1 h a0 List.mem_cons_self x hx
  rw [Arrival.reduced, h, hb, hbarr, hrop, hrtype]
  rfl

/-- An arrival of a generation of a barrier. -/
def Arrival.isOf (a : Arrival) : Bool := a.lid == lid && a.scope == scope && a.unit == unit && a.bid == bid

/-- The arrival of a launch core number in a generation. -/
def State.arrivalOf (n : Nat) : Option Arrival :=
  (s.left ++ s.arrivals).find? fun a => a.isOf lid unit scope bid && a.lcn == n

/-- An edit has taken the task of a launch core number past the barrier (log entry 110). -/
def State.past (n : Nat) : Bool := s.left.any fun a => a.isOf lid unit scope bid && a.lcn == n

theorem barrierDeparture_departs {a0 : Arrival} {as : List Arrival}
    (h : (s.participants lid scope.toNat unit).map (s.arrivalOf lid unit scope bid) = (a0 :: as).map some) :
    exec (.barrierDeparture lid scope unit bid) s =
      let gone := (s.participants lid scope.toNat unit).filter (s.past lid unit scope bid)
      .next { s with
        arrivals := s.arrivals.filter fun a => !a.isOf lid unit scope bid || gone.contains a.lcn
        left := gone.foldl (fun l n => l.eraseP fun a => a.isOf lid unit scope bid && a.lcn == n) s.left
        departs := s.departs ++ ((a0 :: as).filter fun a => !gone.contains a.lcn).map fun a => ⟨a.lid, a.lcn, scope, bid,
          a0.agrees as, a0.reduced as⟩ } := by
  have hfilter : (s.participants lid scope.toNat unit).filterMap (fun n => (s.left ++ s.arrivals).find? fun a =>
      (a.lid == lid && a.scope == scope && a.unit == unit && a.bid == bid) && a.lcn == n) = a0 :: as := by
    have hid := congrArg (List.filterMap id) h
    rw [List.filterMap_map, List.filterMap_map] at hid
    exact hid.trans (List.filterMap_some ..)
  show execBarrierDeparture lid scope unit bid s = _
  unfold execBarrierDeparture
  dsimp only
  rw [hfilter]
  refine if_neg fun hlen => hlen ?_
  simpa using (congrArg List.length h).symm

theorem State.arrivalOf_lcn {n : Nat} {a : Arrival} (h : s.arrivalOf lid unit scope bid n = some a) : a.lid = lid ∧ a.lcn = n := by
  have hfound := List.find?_some h
  simp only [Arrival.isOf, Bool.and_eq_true, beq_iff_eq] at hfound
  obtain ⟨⟨⟨⟨hlid, -⟩, -⟩, -⟩, hlcn⟩ := hfound
  exact ⟨hlid, hlcn⟩

end

theorem contains_filter (ps : List Nat) (p : Nat → Bool) (n : Nat) : (ps.filter p).contains n = (ps.contains n && p n) := by
  rw [Bool.eq_iff_iff]
  simp

/-- The departures are those of the participants that are still at the barrier (log entry 110). -/
theorem departures_eq {at_ : Nat → Option Arrival} {lid : Nat} (hat : ∀ n a, at_ n = some a → a.lid = lid ∧ a.lcn = n)
    {ps : List Nat} {as : List Arrival} (h : ps.map at_ = as.map some) (gone : Nat → Bool) (scope : BitVec 3) (bid : BitVec 6)
    (ok : Bool) (bs : List Byte) :
    (as.filter fun a => !(ps.filter gone).contains a.lcn).map (fun a => (⟨a.lid, a.lcn, scope, bid, ok, bs⟩ : Depart))
      = (ps.filter fun n => !gone n).map fun n => ⟨lid, n, scope, bid, ok, bs⟩ := by
  have hpairs := congrArg (fun l => (l.filter fun x : Nat × Nat => !(ps.filter gone).contains x.2).map
    fun x => (⟨x.1, x.2, scope, bid, ok, bs⟩ : Depart)) (arrivals_by_rank hat h)
  simp only [List.filter_map, List.map_map] at hpairs
  refine hpairs.trans (congrArg _ (List.filter_congr fun n hn => ?_))
  show (!(ps.filter gone).contains n) = !gone n
  rw [contains_filter, List.contains_iff_mem.2 hn, Bool.true_and]

/-! ### BARR: what its read shows leaves the task and its barriers alone -/

theorem State.keepsOutlines_lid {s u : State} (hs : s.distinct) (h : s.keepsOutlines u) : u.task.lid = s.task.lid := by
  have hlid := congrArg (fun c : Core => c.task.lid) (State.keepsOutlines_cur hs h)
  exact hlid

theorem State.keepsOutlines_lcn {s u : State} (hs : s.distinct) (h : s.keepsOutlines u) : u.task.lcn = s.task.lcn := by
  have hlcn := congrArg (fun c : Core => c.task.lcn) (State.keepsOutlines_cur hs h)
  exact hlcn

theorem State.departs_of_shell {s u : State} (h : u.shell = s.shell) : u.departs = s.departs :=
  show u.shell.departs = s.shell.departs by rw [h]

theorem State.arrivals_of_shell {s u : State} (h : u.shell = s.shell) : u.arrivals = s.arrivals :=
  show u.shell.arrivals = s.shell.arrivals by rw [h]

theorem State.left_of_shell {s u : State} (h : u.shell = s.shell) : u.left = s.left :=
  show u.shell.left = s.shell.left by rw [h]

theorem State.unitOf_of_shell {s u : State} (h : u.shell = s.shell) (scope lcn : Nat) : u.unitOf scope lcn = s.unitOf scope lcn :=
  show u.shell.unitOf scope lcn = s.shell.unitOf scope lcn by rw [h]

theorem State.retired_departs (s : State) (pc : Word) : (s.retired pc).departs = s.departs := by
  unfold State.retired
  dsimp only
  split <;> rfl

/-- What BARR does when it departs (R172): it writes the payload and retires. -/
def State.barrEnds (s : State) (dst : Space × Nat) (bs : List Byte) : State :=
  State.retired ((s.behindSeen dst.1 dst.2 64).putPayload dst bs) (s.ctl.pc + 8)

theorem State.outlines_putPayload (s : State) (p : Space × Nat) (bs : List Byte) : (s.putPayload p bs).outlines = s.outlines :=
  s.outlines_wrBytes _

theorem State.barrWrite_ctl {s : State} (hs : s.distinct) (dst : Space × Nat) (bs : List Byte) :
    ((s.behindSeen dst.1 dst.2 64).putPayload dst bs).ctl = s.ctl :=
  State.keepsOutlines_ctl hs (State.keepsOutlines_trans (s.keepsOutlines_behindSeen dst.1 dst.2 64)
    (State.keepsOutlines_of_eq (State.outlines_putPayload ..)))

theorem State.barrWrite_retire {s : State} (hs : s.distinct) (dst : Space × Nat) (bs : List Byte) :
    ((s.behindSeen dst.1 dst.2 64).putPayload dst bs).retire = .next (s.barrEnds dst bs) := by
  rw [State.retire_eq, State.barrWrite_ctl hs]
  rfl

theorem State.barrEnds_pc (s : State) (dst : Space × Nat) (bs : List Byte) : (s.barrEnds dst bs).ctl.pc = s.ctl.pc + 8 :=
  State.retired_pc ..

theorem State.barrEnds_departs (s : State) (dst : Space × Nat) (bs : List Byte) : (s.barrEnds dst bs).departs = s.departs := by
  rw [State.barrEnds, State.retired_departs]
  exact State.departs_of_shell ((State.shell_putPayload ..).trans (State.shell_behindSeen ..))

theorem State.payload_barrEnds {s : State} (hs : s.canonical) {dst : Space × Nat} (hsp : dst.1 = .reg ∨ dst.1 = .scr) {bs : List Byte}
    (hlen : bs.length = 64) : (s.barrEnds dst bs).payload dst = bs := by
  have hbuf : dst.1 ≠ .wbuf := by rcases hsp with h | h <;> rw [h] <;> decide
  have hfar (k : Nat) : dst.1 ≠ .far k := by rcases hsp with h | h <;> rw [h] <;> simp
  refine Eq.trans ?_ (State.payload_putPayload (State.canonical_behindSeen hs dst.1 dst.2 64) hbuf
    (State.holder_isSome fun k hk => absurd hk (hfar k)) hlen)
  simp only [State.payload, State.barrEnds, State.retired_rdByte]

/-- With nothing in flight a read shows nothing. -/
theorem State.showFor_still {s : State} (h : s.still) (sp : Space) (a n : Nat) : s.showFor sp a n = s :=
  State.showFor_idle (h s.cur List.mem_cons_self) (fun c hc => by
    simp [Core.inFlight, engines, h c (List.mem_cons_of_mem _ hc)]) sp a n

theorem State.canonical_departs {s : State} (h : s.canonical) (ds : List Depart) : State.canonical { s with departs := ds } := h

theorem State.distinct_departs {s : State} (h : s.distinct) (ds : List Depart) : State.distinct { s with departs := ds } := h

/-- The arrival of the focused task by BARR (R172). -/
def State.barrArrival (s : State) (scope : BitVec 3) (bid : BitVec 6) (rop rtype : Nat) (p : List Byte) (dest : Nat) : Arrival :=
  ⟨s.task.lid, s.task.lcn, scope, s.unitOf scope.toNat s.task.lcn, bid, true, rop, rtype, p, dest⟩

/-- BARR at a barrier, in the state in which its read has shown what it finds in flight (R172). -/
def State.barrMeets (s : State) (scope : BitVec 3) (bid : BitVec 6) (rop rtype dest : Nat) (src dst : Space × Nat) : Out :=
  s.barrier (s.barrArrival scope bid rop rtype (s.payload src) dest)
    fun bs s => ((s.behindSeen dst.1 dst.2 64).putPayload dst bs).retire

section

variable {s u : State} (hs : s.distinct) (hkeeps : s.keepsOutlines u) (hshell : u.shell = s.shell) (scope : BitVec 3) (bid : BitVec 6)
  (rop rtype dest : Nat) (src dst : Space × Nat)
include hs hkeeps hshell

/-- What shows is no arrival and no departure and moves no task. -/
theorem State.barrMeets_eq : u.barrMeets scope bid rop rtype dest src dst = u.barrier
    (s.barrArrival scope bid rop rtype (u.payload src) dest)
    fun bs s => ((s.behindSeen dst.1 dst.2 64).putPayload dst bs).retire := by
  rw [State.barrMeets, State.barrArrival, State.barrArrival, State.keepsOutlines_lid hs hkeeps, State.keepsOutlines_lcn hs hkeeps,
    State.unitOf_of_shell hshell]

theorem State.barrMeets_waits
    (hnone : s.departs.find? (fun x => (x.lid == s.task.lid && x.lcn == s.task.lcn) && x.scope == scope && x.bid == bid) = none)
    (hhere : s.arrivals.any (fun x => (x.lid == s.task.lid && x.lcn == s.task.lcn) && x.scope == scope && x.bid == bid) = true) :
    u.barrMeets scope bid rop rtype dest src dst = .next u.waits := by
  rw [State.barrMeets_eq hs hkeeps hshell]
  refine State.barrier_waits ?_ ?_
  · rw [State.departs_of_shell hshell]
    exact hnone
  · rw [State.arrivals_of_shell hshell]
    exact hhere

theorem State.barrMeets_arrives
    (hnone : s.departs.find? (fun x => (x.lid == s.task.lid && x.lcn == s.task.lcn) && x.scope == scope && x.bid == bid) = none)
    (hhere : s.arrivals.any (fun x => (x.lid == s.task.lid && x.lcn == s.task.lcn) && x.scope == scope && x.bid == bid) = false) :
    u.barrMeets scope bid rop rtype dest src dst = .next (State.waits { u with
      arrivals := (s.arrivals.filter fun x => !(x.lid == s.task.lid && x.lcn == s.task.lcn))
        ++ [s.barrArrival scope bid rop rtype (u.payload src) dest]
      left := s.left ++ s.arrivals.filter fun x => x.lid == s.task.lid && x.lcn == s.task.lcn
      departs := s.departs.filter fun x => !(x.lid == s.task.lid && x.lcn == s.task.lcn) }) := by
  rw [State.barrMeets_eq hs hkeeps hshell, State.barrier_arrives]
  · rw [State.leaveBarrier, State.departs_of_shell hshell, State.arrivals_of_shell hshell, State.left_of_shell hshell]
    rfl
  · rw [State.departs_of_shell hshell]
    exact hnone
  · rw [State.arrivals_of_shell hshell]
    exact hhere

theorem State.barrMeets_departs {x : Depart}
    (hx : s.departs.find? (fun x => (x.lid == s.task.lid && x.lcn == s.task.lcn) && x.scope == scope && x.bid == bid) = some x) :
    let v := { u with departs := s.departs.filter fun y => !(y.lid == s.task.lid && y.lcn == s.task.lcn) }
    u.barrMeets scope bid rop rtype dest src dst
      = .next (if x.ok then v.barrEnds dst x.payload else v.trapHere { code := .geometry }) := by
  obtain ⟨hdistinct, -, -⟩ := hkeeps hs
  rw [State.barrMeets_eq hs hkeeps hshell, State.barrier_departs (by rw [State.departs_of_shell hshell]; exact hx),
    State.departs_of_shell hshell]
  cases x.ok
  · rfl
  · exact State.barrWrite_retire (State.distinct_departs hdistinct _) dst x.payload

end

/-! ### The obligation -/

/-- Settles O38: BAR and BARR by the departure or arrival that they find; a departure by its arrivals in rank order; the tree by its
rounds. -/
theorem barriersMeet : Obligations.BarriersMeet := by
  unfold Obligations.BarriersMeet
  refine ⟨fun s q scope bid hq => ?_, fun s q a b scope bid rop rtype hq => ?_, fun s lid unit scope bid => ?_, fun op l => ?_⟩
  · have hexec := exec_bar hq scope bid
    refine ⟨fun ht => by rw [hexec, if_pos ht], fun ht => ?_⟩
    rw [if_neg (by simp [ht])] at hexec
    refine ⟨fun h => by rw [hexec, if_pos h], fun h => ?_⟩
    rw [if_neg h] at hexec
    rw [hexec]
    refine ⟨fun h h' => State.barrier_arrives h h', fun h h' => State.barrier_waits h h', fun x hx => ?_⟩
    rw [State.barrier_departs hx]
    cases x.ok <;> rfl
  · intro va vb i own mine here
    have hexec : exec i s = execBarr q a b scope bid rop rtype s := rfl
    rw [execBarr, State.qualified_eq, if_pos hq] at hexec
    refine ⟨fun hva => ?_, fun hva hvb => ?_, fun hva hvb ht => ?_, fun hva hvb ht => ⟨fun hsrc => ?_, fun hsrc hdst => ?_, ?_⟩⟩
    · exact hexec.trans (if_pos (bne_iff_ne.2 hva))
    all_goals rw [if_neg (by simpa using hva)] at hexec
    · exact hexec.trans (if_pos (bne_iff_ne.2 hvb))
    all_goals rw [if_neg (by simpa using hvb)] at hexec
    · exact hexec.trans (if_pos ht)
    all_goals rw [if_neg (by simpa [Ctl.timedOpen] using ht)] at hexec
    · rw [hsrc] at hexec
      exact hexec
    · obtain ⟨src, hsrc⟩ := Option.ne_none_iff_exists'.1 hsrc
      rw [hsrc, hdst] at hexec
      exact hexec
    · intro src dst hsrc hdst
      rw [hsrc, hdst] at hexec
      refine ⟨fun tr htr => ?_, fun hs hread => ?_⟩
      · dsimp only at hexec
        rw [htr] at hexec
        exact hexec
      · dsimp only at hexec
        rw [hread] at hexec
        have hctl := State.keepsOutlines_ctl hs (s.keepsOutlines_showFor src.1 src.2 64)
        refine ⟨fun h => State.showFor_still h .., fun h0 => ⟨?_, fun h => State.behindSeen_unseen h ..⟩, fun h0 hnone => ?_,
          fun x h0 hx => ?_⟩
        · obtain ⟨hdistinct, -, -⟩ := s.keepsOutlines_showFor src.1 src.2 64 hs
          rw [← hctl]
          exact hexec.trans ((if_pos h0).trans (State.barrWrite_retire hdistinct ..))
        all_goals replace hexec := hexec.trans (if_neg h0)
        all_goals
          have hkeeps := s.keepsOutlines_showFor src.1 src.2 64
          have hshell := s.shell_showFor src.1 src.2 64
        · exact ⟨fun h => hexec.trans (State.barrMeets_waits hs hkeeps hshell scope bid _ _ _ src dst hnone h),
            fun h => hexec.trans (State.barrMeets_arrives hs hkeeps hshell scope bid _ _ _ src dst hnone h)⟩
        · replace hexec := hexec.trans (State.barrMeets_departs hs hkeeps hshell scope bid _ _ _ src dst hx)
          refine ⟨fun hok => by rw [hexec, hok]; rfl, fun hok => ⟨_, hexec, ?_⟩⟩
          rw [hok, if_pos rfl]
          refine ⟨(State.barrEnds_pc ..).trans ?_, State.barrEnds_departs .., fun hcan hlen => ?_⟩
          · exact congrArg (fun c : Ctl => c.pc + 8) hctl
          · exact State.payload_barrEnds (State.canonical_departs (State.canonical_showFor hcan ..) _) (ownWindow_space hdst) hlen
  · intro ps here at_ gone
    refine ⟨barrierDeparture_waits, fun as hps has => ?_⟩
    match as, has with
    | [], has => exact absurd (List.map_eq_nil_iff.1 has) hps
    | a0 :: as, has =>
      have hexec := barrierDeparture_departs s lid unit scope bid has
      have hcontains (n : Nat) : (ps.filter gone).contains n = (ps.contains n && gone n) := contains_filter ps gone n
      have herase := eraseEach (p := fun n a => here a && a.lcn == n) (fun n m a hn hm => by
        simp only [Bool.and_eq_true, beq_iff_eq] at hn hm
        exact hn.2.symm.trans hm.2) ((s.participants_nodup lid scope.toNat unit).filter gone) s.left fun n hn =>
          (List.mem_filter.1 hn).2
      refine ⟨_, a0.agrees as, a0.reduced as, hexec, ?_, ?_, herase.1, herase.2, a0.agrees_iff as, ?_⟩
      · simp only [← hcontains]
        rfl
      · exact congrArg (s.departs ++ ·) (departures_eq (fun n a => s.arrivalOf_lcn lid unit scope bid) has gone scope bid _ _)
      · intro x hx hok hbarr n elem
        rw [Arrival.reduced_eq hx hok hbarr]
        refine ⟨reducePayload_length .., fun k hk => ?_⟩
        have helem := reducePayload_elem x.rop x.rtype ((a0 :: as).map (·.payload)) hk
        rw [List.map_map, List.length_map] at helem
        exact helem
  · exact ⟨fun x => rfl, reduceTree_step op, pairUp_length op l, getElem?_pairUp op l⟩

end Sys2Proof.Machine
end

section
/-! PROOF. Launch, dispatch, bind, fill and gang swap (R291, R292, R295 to R297, R301, R302). -/

namespace Sys2Proof.Machine

/-! ### A launch call (R292) -/

theorem State.startExit_eq (s : State) : ∃ x, s.startExit = { s with exitAt := x } := by
  unfold State.startExit
  split
  · exact ⟨_, rfl⟩
  · exact ⟨_, rfl⟩

theorem State.wakeFor_eq (s : State) (part : Nat) :
    ∃ x, s.wakeFor part = { s with exitAt := x, parts := s.parts.map fun p => if p.id = part then p.wake s.now else p } := by
  obtain ⟨x, hx⟩ := s.startExit_eq
  exact ⟨x, by rw [State.wakeFor, hx]⟩

/-- A launch call changes nothing but its answer and what waits to run (R292, R325). -/
theorem State.callReturns_wakeFor (s : State) (part lid n : Nat) :
    ((s.wakeFor part).callReturns n lid).launches = s.launches ∧ ((s.wakeFor part).callReturns n lid).nextLid = s.nextLid ∧
      s.sameBytes ((s.wakeFor part).callReturns n lid) := by
  obtain ⟨x, hx⟩ := s.wakeFor_eq part
  rw [hx]
  exact ⟨rfl, rfl, fun sp a => rfl⟩

theorem State.lastCall_callReturns (s : State) (part lid : Nat) : ∀ q ∈ (s.callReturns part lid).parts, q.id = part → q.lastCall = lid := by
  intro q hq hid
  obtain ⟨p, -, rfl⟩ := List.mem_map.1 hq
  by_cases hp : p.id = part
  · rw [if_pos hp]
  · rw [if_neg hp] at hid
    exact absurd hid hp

/-- The call is open: the die exists and the caller's partition runs, a host's through its virtual function and its link (R320). -/
theorem hypervisorLaunchCall_open {s : State} {die part : Nat} {host : Bool} {p : Partition} (hp : s.partOf part = some p) :
    (s.dies ≤ die || !((s.partOf part).any fun p => p.running && (!host || (p.vf && s.hostLink)))) = true ↔
      ¬(die < s.dies ∧ p.running = true ∧ (host = true → p.vf = true ∧ s.hostLink = true)) := by
  rw [hp]
  cases host <;> simp [or_iff_not_imp_left]

theorem exec_hypervisorLaunchCall {s : State} {die part : Nat} {host : Bool} {p : Partition} (hp : s.partOf part = some p)
    (hopen : die < s.dies ∧ p.running = true ∧ (host = true → p.vf = true ∧ s.hostLink = true)) (r : LaunchWords) :
    exec (.hypervisorLaunchCall die ⟨part, host⟩ r) s =
      if r.bad then .next (s.callReturns part 0)
      else .next (((s.submit die part r).2.wakeFor part).callReturns part (s.submit die part r).1) := by
  show execHypervisorLaunchCall die ⟨part, host⟩ r s = _
  unfold execHypervisorLaunchCall
  dsimp only
  rw [if_neg fun h => (hypervisorLaunchCall_open hp).1 h hopen]

theorem State.submit_full {s : State} {die : Nat} {r : LaunchWords} (h : 256 ≤ s.queueLen die r.prio) (part : Nat) :
    s.submit die part r = (0, s) := if_pos h

theorem State.submit_accepted {s : State} {die : Nat} {r : LaunchWords} (h : s.queueLen die r.prio < 256) (part : Nat) :
    s.submit die part r = (s.nextLid, { s with
      nextLid := s.nextLid + 1, launches := s.launches ++ [⟨s.nextLid, part, die, r, .queued, [], 0⟩] }) := if_neg (Nat.not_le.2 h)

/-! ### Something done at one core -/

/-- Of the listed cores the one in focus is replaced. -/
theorem State.coreAt_of_cur {s u : State} (hp : u.cur.pcore = s.cur.pcore) (hr : u.rest = s.rest) (n : Nat) :
    u.coreAt n = if n = s.cur.pcore then u.cur else s.coreAt n := by
  unfold State.coreAt State.cores
  rw [hr, List.find?_cons, List.find?_cons, hp]
  by_cases hn : n = s.cur.pcore
  · simp [hn]
  · have hne : (s.cur.pcore == n) = false := by simpa using Ne.symm hn
    rw [hne, if_neg hn]

theorem State.distinct_of_cur {s u : State} (hp : u.cur.pcore = s.cur.pcore) (hr : u.rest = s.rest) (h : s.distinct) : u.distinct := by
  rw [State.distinct_iff] at h ⊢
  rwa [hp, hr]

theorem State.cur_focus (s : State) (n : Nat) : (s.focus n).cur = s.coreAt n := by
  by_cases hn : s.cur.pcore = n
  · rw [State.focus, if_pos hn, ← hn, State.coreAt_cur]
  · exact State.focus_cur hn

section

variable {s : State} (hs : s.distinct) {g : Core → Core} (hg : ∀ c : Core, (g c).pcore = c.pcore) (n : Nat)
include hs hg

/-- A change of one core changes that core alone. -/
theorem State.coreAt_onCore_cur (k : Nat) :
    (s.onCore n fun u => { u with cur := g u.cur }).coreAt k = if k = n then g (s.coreAt k) else s.coreAt k := by
  have hu := State.distinct_focus hs n
  have hp : (State.cur { s.focus n with cur := g (s.focus n).cur }).pcore = (s.focus n).cur.pcore := hg _
  rw [State.onCore, State.coreAt_focus (State.distinct_of_cur hp rfl hu), State.coreAt_of_cur hp rfl, State.focus_pcore,
    State.coreAt_focus hs]
  by_cases hk : k = n
  · rw [if_pos hk, if_pos hk, hk]
    exact congrArg g (s.cur_focus n)
  · rw [if_neg hk, if_neg hk]

theorem State.distinct_onCore_cur : (s.onCore n fun u => { u with cur := g u.cur }).distinct := by
  have hu : State.distinct { s.focus n with cur := g (s.focus n).cur } :=
    State.distinct_of_cur (hg _) rfl (State.distinct_focus hs n)
  exact State.distinct_focus hu s.cur.pcore

end

theorem State.mem_focus (s : State) (n : Nat) : (s.focus n).mem = s.mem := by
  unfold State.focus
  split <;> rfl

theorem State.mem_onCore_cur (s : State) (n : Nat) (g : Core → Core) : (s.onCore n fun u => { u with cur := g u.cur }).mem = s.mem :=
  (State.mem_focus ..).trans (s.mem_focus n)

theorem State.saved_of_shell {s u : State} (h : u.shell = s.shell) : u.saved = s.saved :=
  show u.shell.saved = s.shell.saved by rw [h]

theorem State.saved_onCore_cur (s : State) (n : Nat) (g : Core → Core) :
    (s.onCore n fun u => { u with cur := g u.cur }).saved = s.saved :=
  State.saved_of_shell (State.shell_onCore (f := fun u => { u with cur := g u.cur }) (fun _ => rfl) s n)

/-- One core after another is changed, each once; `ok` says when the step changes its core. -/
theorem State.coreAt_foldl {α : Type} {f : State → α → State} {key : α → Nat} {g : Core → Core} {ok : Core → α → Prop}
    (hf : ∀ (u : State) (a : α), u.distinct → ok (u.coreAt (key a)) a →
      (f u a).distinct ∧ ∀ n, (f u a).coreAt n = if n = key a then g (u.coreAt n) else u.coreAt n)
    {l : List α} (hl : (l.map key).Nodup) {u : State} (hu : u.distinct) (hok : ∀ a ∈ l, ok (u.coreAt (key a)) a) :
    (l.foldl f u).distinct ∧ ∀ n, (l.foldl f u).coreAt n = if n ∈ l.map key then g (u.coreAt n) else u.coreAt n := by
  induction l generalizing u with
  | nil => exact ⟨hu, fun n => rfl⟩
  | cons a l ih =>
    obtain ⟨hnew, hrest⟩ := List.nodup_cons.1 hl
    obtain ⟨hdistinct, hcore⟩ := hf u a hu (hok a List.mem_cons_self)
    have hother : ∀ b ∈ l, (f u a).coreAt (key b) = u.coreAt (key b) := fun b hb => by
      rw [hcore, if_neg]
      exact fun hkey => hnew (List.mem_map.2 ⟨b, hb, hkey⟩)
    obtain ⟨hdistinct', hcore'⟩ := ih hrest hdistinct fun b hb => by
      rw [hother b hb]
      exact hok b (List.mem_cons_of_mem a hb)
    refine ⟨hdistinct', fun n => ?_⟩
    rw [List.foldl_cons, hcore', hcore]
    by_cases hn : n = key a
    · rw [if_neg (hn ▸ hnew), if_pos hn, if_pos (by simp [hn])]
    · simp [hn]

/-! ### BIND and RESUME (R296) -/

theorem State.clocked_iff (s : State) (l : Launch) : s.clocked l = true ↔
    s.power = .s0 ∧ s.exitAt = none ∧ ∀ p, s.partOf l.part = some p → p.power = .s0 := by
  unfold State.clocked
  cases s.partOf l.part <;> simp [and_assoc]

/-- The staged slot that a record names begins to fill (R296). -/
def BindRec.fills (r : BindRec) (c : Core) : Core :=
  { c with
    staged := .filling, stagedTask := { Task.blank with lid := r.lid, lcn := r.lcn }, stagedTag := r.tag
    fillFrom := r.addr, fillVirt := r.virt && r.action == 1, fillCtx := r.action == 2 }

/-- An active launch's record waits for the clocks, or the slot begins to fill. -/
theorem State.startFill_eq {s : State} {r : BindRec} {l : Launch} (hl : s.findLaunch r.lid = some l) (hactive : l.st = .active)
    (hempty : (s.coreAt r.pcore).staged = .empty) (die : Nat) :
    s.startFill die r = if s.clocked l then (s.putBind die { r with started := true }).onCore r.pcore fun s =>
      { s with cur := r.fills s.cur } else s := by
  unfold State.startFill
  rw [hl, if_pos (by simp [hactive]), hempty]
  simp [BindRec.fills]

theorem State.coreAt_startFill {s : State} (hs : s.distinct) (die : Nat) (r : BindRec) (n : Nat) :
    ((s.putBind die { r with started := true }).onCore r.pcore fun s => { s with cur := r.fills s.cur }).coreAt n
      = if n = r.pcore then r.fills (s.coreAt r.pcore) else s.coreAt n := by
  have hs' : (s.putBind die { r with started := true }).distinct := hs
  refine (State.coreAt_onCore_cur (g := r.fills) hs' (fun _ => rfl) r.pcore n).trans ?_
  by_cases hn : n = r.pcore
  · rw [if_pos hn, if_pos hn, hn]
    rfl
  · rw [if_neg hn, if_neg hn]
    rfl

/-! ### GANG_SWAP (R297) -/

/-- The staged task swaps into the resident slot. -/
def Core.swapsIn (c : Core) : Core := { c.unstage with slot := .resident, task := c.stagedTask, released := false }

/-- The record's task stands staged in the core, whose resident slot is EMPTY. -/
def BindRec.readyIn (r : BindRec) (c : Core) : Prop :=
  (r.started && c.staged == .staged && c.stagedTag == r.tag && c.stagedTask.lid == r.lid && c.stagedTask.lcn == r.lcn) = true ∧
    c.slot = .empty

/-- The records that a swap of the record's core completes. -/
def BindRec.completes (r x : BindRec) : Bool :=
  x.tag == r.tag && x.lid == r.lid && x.lcn == r.lcn && x.status == 0 && (x.action == 1 || x.action == 2)

theorem State.swapIn_eq {s : State} {r : BindRec} (h : r.readyIn (s.coreAt r.pcore)) :
    s.swapIn r = (s.mapBinds r.completes fun x => { x with status := 1 }).onCore r.pcore fun u => { u with cur := u.cur.swapsIn } := by
  obtain ⟨hstaged, hslot⟩ := h
  refine if_pos (Bool.and_eq_true_iff.2 ⟨hstaged, ?_⟩)
  rw [hslot]
  rfl

theorem State.swapIn_frame (s : State) (r : BindRec) : (s.swapIn r).mem = s.mem ∧ (s.swapIn r).saved = s.saved := by
  unfold State.swapIn
  split
  · exact ⟨State.mem_onCore_cur _ _ Core.swapsIn, State.saved_onCore_cur _ _ Core.swapsIn⟩
  · exact ⟨rfl, rfl⟩

theorem State.swapIn_foldl_frame (s : State) (rs : List BindRec) :
    (rs.foldl State.swapIn s).mem = s.mem ∧ (rs.foldl State.swapIn s).saved = s.saved :=
  List.foldlRecOn (motive := fun u : State => u.mem = s.mem ∧ u.saved = s.saved) rs _ ⟨rfl, rfl⟩ fun u ⟨hmem, hsaved⟩ r _ =>
    ⟨(u.swapIn_frame r).1.trans hmem, (u.swapIn_frame r).2.trans hsaved⟩

/-- Every record of the group is ready: each core swaps. -/
theorem State.swapIn_foldl {s : State} (hs : s.distinct) {rs : List BindRec} (hrs : (rs.map (·.pcore)).Nodup)
    (h : ∀ r ∈ rs, r.readyIn (s.coreAt r.pcore)) :
    (rs.foldl State.swapIn s).distinct ∧ ∀ r ∈ rs, (rs.foldl State.swapIn s).coreAt r.pcore = (s.coreAt r.pcore).swapsIn := by
  obtain ⟨hdistinct, hcore⟩ := State.coreAt_foldl (f := State.swapIn) (ok := fun c r => r.readyIn c) (g := Core.swapsIn) (fun u r hu hr => by
    have hu' : (u.mapBinds r.completes fun x => { x with status := 1 }).distinct := hu
    rw [State.swapIn_eq hr]
    exact ⟨State.distinct_onCore_cur (g := Core.swapsIn) hu' (fun _ => rfl) _,
      State.coreAt_onCore_cur (g := Core.swapsIn) hu' (fun _ => rfl) _⟩) hrs hs h
  exact ⟨hdistinct, fun r hr => by rw [hcore, if_pos (List.mem_map_of_mem hr)]⟩

/-- The last swap releases every task of the group. -/
def State.releaseAll (s : State) (rs : List BindRec) : State :=
  rs.foldl (fun s r => s.onCore r.pcore fun s => { s with cur := { s.cur with released := true } }) s

theorem State.releaseAll_frame (s : State) (rs : List BindRec) : (s.releaseAll rs).mem = s.mem ∧ (s.releaseAll rs).saved = s.saved :=
  List.foldlRecOn (motive := fun u => u.mem = s.mem ∧ u.saved = s.saved) rs _ ⟨rfl, rfl⟩ fun u ⟨hmem, hsaved⟩ _ _ =>
    ⟨(State.mem_onCore_cur u _ fun c => { c with released := true }).trans hmem,
      (State.saved_onCore_cur u _ fun c => { c with released := true }).trans hsaved⟩

theorem State.releaseAll_coreAt {s : State} (hs : s.distinct) {rs : List BindRec} (hrs : (rs.map (·.pcore)).Nodup) :
    ∀ r ∈ rs, (s.releaseAll rs).coreAt r.pcore = { s.coreAt r.pcore with released := true } := by
  obtain ⟨-, hcore⟩ := State.coreAt_foldl (key := BindRec.pcore) (ok := fun _ _ => True) (g := fun c => { c with released := true })
    (f := fun s r => s.onCore r.pcore fun s => { s with cur := { s.cur with released := true } })
    (fun u r hu _ => ⟨State.distinct_onCore_cur (g := fun c => { c with released := true }) hu (fun _ => rfl) _,
      State.coreAt_onCore_cur (g := fun c => { c with released := true }) hu (fun _ => rfl) _⟩) hrs hs fun _ _ => trivial
  exact fun r hr => by rw [State.releaseAll, hcore, if_pos (List.mem_map_of_mem hr)]

/-- With nothing saved of a launch nothing is delivered. -/
theorem State.deliverHeld_nothing {s : State} {lid : Nat} (h : ∀ e ∈ s.saved, e.2.lid ≠ lid) : s.deliverHeld lid = s := by
  unfold State.deliverHeld
  rw [List.filter_eq_nil_iff.2 fun e he => by simpa using h e he]
  rfl

theorem exec_gangSwap_waits {s : State} {tag : BitVec 16}
    (h : ((s.binds.filter (s.inGroup tag.toNat)).any fun r => !s.stagedFor r && !s.swappedFor r) = true) :
    exec (.gangSwap tag) s = .next s := by
  show execGangSwap tag s = _
  obtain ⟨r, hr, hnot⟩ := List.any_eq_true.1 h
  unfold execGangSwap
  dsimp only
  split
  · rfl
  · refine if_neg fun hcond => ?_
    simp only [Bool.and_eq_true, List.all_eq_true] at hcond
    have hstands := hcond.2 r hr
    rw [← Bool.not_or, hstands] at hnot
    cases hnot

theorem exec_gangSwap_releases {s : State} {tag : BitVec 16} {r0 : BindRec} {rs : List BindRec}
    (h : s.binds.filter (s.inGroup tag.toNat) = r0 :: rs) (hlen : (r0 :: rs).length = r0.groupn)
    (hcommit : (r0 :: rs).any (·.commit) = true) (hstaged : ∀ r ∈ r0 :: rs, s.stagedFor r = true)
    (hswapped : ((r0 :: rs).all ((r0 :: rs).foldl State.swapIn s).swappedFor) = true) :
    ∃ u : State, u.coreAt = (((r0 :: rs).foldl State.swapIn s).releaseAll (r0 :: rs)).coreAt ∧
      u.mem = (((r0 :: rs).foldl State.swapIn s).releaseAll (r0 :: rs)).mem ∧
      u.saved = (((r0 :: rs).foldl State.swapIn s).releaseAll (r0 :: rs)).saved ∧
      (exec (.gangSwap tag) s = .next u ∨ exec (.gangSwap tag) s = .next (u.deliverHeld r0.lid)) := by
  have hexec : exec (.gangSwap tag) s = execGangSwap tag s := rfl
  unfold execGangSwap at hexec
  dsimp only at hexec
  rw [h] at hexec
  dsimp only at hexec
  rw [if_pos, if_pos hswapped] at hexec
  · split at hexec
    · refine ⟨_, ?_, ?_, ?_, .inr hexec⟩ <;> rfl
    · refine ⟨_, ?_, ?_, ?_, .inl hexec⟩ <;> rfl
  · simp only [Bool.and_eq_true, List.all_eq_true, decide_eq_true_eq, Bool.or_eq_true]
    exact ⟨⟨hlen, hcommit⟩, fun r hr => .inl (hstaged r hr)⟩

/-! ### CONTEXT_FILL (R301, R302) -/

/-- A table that lists, by rising keys, the values `w` that are not 0, without key 0. -/
theorem spGet_foldr {w : Nat → Word} {ks : List Nat} (hks : ks.Pairwise (· < ·)) {k : Nat} (h0 : k ≠ 0) :
    spGet 0 ((ks.foldr (fun k t => if w k = 0 then t else (k, w k) :: t) []).filter (·.1 != 0)) k = if k ∈ ks then w k else 0 := by
  induction ks with
  | nil => rfl
  | cons a ks ih =>
    obtain ⟨ha, hks⟩ := List.pairwise_cons.1 hks
    have hnot : a ∉ ks := fun h => Nat.lt_irrefl a (ha a h)
    rw [List.foldr_cons]
    by_cases hw : w a = 0
    · rw [if_pos hw, ih hks]
      by_cases hk : k = a
      · rw [hk, if_neg hnot, if_pos List.mem_cons_self, hw]
      · simp [hk]
    · rw [if_neg hw]
      by_cases ha0 : a = 0
      · rw [List.filter_cons_of_neg (by simp [ha0]), ih hks]
        simp [ha0, h0]
      · rw [List.filter_cons_of_pos (by simp [ha0]), spGet, ih hks]
        by_cases hlt : k < a
        · rw [if_pos hlt, if_neg]
          intro hk
          rcases List.mem_cons.1 hk with rfl | hk
          · exact Nat.lt_irrefl _ hlt
          · exact Nat.lt_asymm hlt (ha k hk)
        · rw [if_neg hlt]
          by_cases hk : k = a <;> simp [hk]

/-- A register of an area of words is its word, but for G0, which has none. -/
theorem Img.spGet_words (i : Img) (off n : Nat) {k : Nat} (hk : k < n) (h0 : k ≠ 0) :
    spGet 0 ((i.words off n).filter (·.1 != 0)) k = i.word (off + 8 * k) :=
  (spGet_foldr (w := fun k => i.word (off + 8 * k)) List.pairwise_lt_range h0).trans (if_pos (List.mem_range.2 hk))

theorem Img.common_g (i : Img) (t : Task) : (i.common t).ctl.g = (i.words 0x100 32).filter (·.1 != 0) := by
  unfold Img.common
  dsimp only


theorem Img.common_getG (i : Img) (t : Task) {r : BitVec 5} (h : r ≠ 0) : (i.common t).ctl.getG r = i.word (0x100 + 8 * r.toNat) := by
  have h0 : r.toNat ≠ 0 := fun h' => h (BitVec.eq_of_toNat_eq (y := 0) h')
  rw [Ctl.getG, if_neg h, Img.common_g, i.spGet_words _ _ r.isLt h0]

/-- The J registers of an image: EMPTY or STALE (R119). -/
theorem Img.jregs_st (i : Img) : ∀ e ∈ i.jregs, e.2.st = .empty ∨ e.2.st = .stale := by
  refine List.foldlRecOn (motive := fun t : Sparse JReg => ∀ e ∈ t, e.2.st = .empty ∨ e.2.st = .stale) _ _
    (fun _ h => nomatch h) fun t ht k _ e he => ?_
  rcases mem_spSet he with rfl | he
  · dsimp only
    exact JReg.staled_st _
  · exact ht e he

/-- The shadow stack that a launch gives a task is empty: SSP stands at HI (R120, R302). -/
theorem shadowFor_ssp (ssl : Word) (n : Nat) (h : (shadowFor ssl n).1 ≠ 0) (c : Ctl) (hc : c.ssl = (shadowFor ssl n).1) :
    (shadowFor ssl n).2.toNat = c.shadowHi % 2 ^ 64 := by
  unfold Ctl.shadowHi Ctl.shadowLo
  rw [hc]
  by_cases hz : ssl = 0
  · exact absurd (by rw [shadowFor, if_pos hz]) h
  · rw [shadowFor, if_neg hz]
    dsimp only
    have hmod : (ssl + BitVec.ofNat 64 (n * (ssl.toNat % 2 ^ 16 + 1) * 2 ^ 16)).toNat % 2 ^ 16 = ssl.toNat % 2 ^ 16 := by
      rw [BitVec.toNat_add, BitVec.toNat_ofNat]
      omega
    rw [BitVec.toNat_ofNat, hmod]

/-- The identity that a fill leaves a task (R121). -/
theorem Img.common_identity (i : Img) (t : Task) : (i.common t).lid = t.lid ∧ (i.common t).lcn = t.lcn ∧
    (i.common t).argptr = t.argptr ∧ (i.common t).pins = i.pins := by
  unfold Img.common
  exact ⟨rfl, rfl, rfl, rfl⟩

/-- The control registers that a fill loads, and those that it leaves (R302). -/
theorem Img.common_ctl (i : Img) (t : Task) : (i.common t).ctl = { t.ctl with
    g := (i.words 0x100 32).filter (·.1 != 0), p := BitVec.ofNat 8 (i.word 0x200).toNat, j := i.jregs
    pc := i.word 0x258 &&& ~~~7#64, pending := i.word 0x278, step := bitOf (i.word 0x270).toNat 7 } := by
  unfold Img.common
  dsimp only

/-- What a launch image gives a task (R302). -/
theorem Img.launch_eq {i : Img} {t u : Task} {phys : Bool} (h : i.launch t phys = some u) :
    u.lid = t.lid ∧ u.lcn = t.lcn ∧ u.argptr = t.argptr ∧ u.pins = i.pins ∧ u.flags = [] ∧
      u.ctl = { (i.common t).ctl with ssl := (shadowFor (i.word 0x250) t.lcn).1, ssp := (shadowFor (i.word 0x250) t.lcn).2, phys } := by
  unfold Img.launch at h
  split at h
  · cases h
  · obtain ⟨hlid, hlcn, hargptr, hpins⟩ := i.common_identity t
    generalize i.common t = c at *
    rw [← hlid, ← hlcn, ← hargptr, ← hpins]
    dsimp only at h
    generalize shadowFor (i.word 0x250) c.lcn = x at *
    obtain rfl := Option.some.inj h
    exact ⟨rfl, rfl, rfl, rfl, rfl, rfl⟩

/-- A launch leaves the clocks, the frame and the wait of the identity (R302; log entry 91). -/
theorem Img.launch_ctl {i : Img} {t u : Task} {phys : Bool} (h : i.launch t phys = some u) :
    u.ctl.phys = phys ∧ u.ctl.pc = i.word 0x258 &&& ~~~7#64 ∧ u.ctl.g = (i.common t).ctl.g ∧ u.ctl.j = i.jregs ∧
      u.ctl.framecnt = t.ctl.framecnt ∧ u.ctl.tasktime = t.ctl.tasktime ∧ u.ctl.frame = t.ctl.frame ∧
      u.ctl.timed = t.ctl.timed ∧ u.ctl.degr = t.ctl.degr ∧ u.ctl.waiting = t.ctl.waiting := by
  obtain ⟨-, -, -, -, -, hctl⟩ := Img.launch_eq h
  have hc := i.common_ctl t
  generalize (i.common t).ctl = c at *
  rw [hctl]
  refine ⟨rfl, ?_, rfl, ?_, ?_, ?_, ?_, ?_, ?_, ?_⟩ <;> rw [hc]

theorem Img.launch_ssp {i : Img} {t u : Task} {phys : Bool} (h : i.launch t phys = some u) (hssl : u.ctl.ssl ≠ 0) :
    u.ctl.ssp.toNat = u.ctl.shadowHi % 2 ^ 64 := by
  obtain ⟨-, -, -, -, -, hctl⟩ := Img.launch_eq h
  generalize (i.common t).ctl = c at hctl
  have hlow : u.ctl.ssl = (shadowFor (i.word 0x250) t.lcn).1 := by rw [hctl]
  have hhigh : u.ctl.ssp = (shadowFor (i.word 0x250) t.lcn).2 := by rw [hctl]
  rw [hhigh]
  exact shadowFor_ssp _ _ (hlow ▸ hssl) _ hlow

/-- The task that a context image restores, in the state in which its engines stand again (R302, R303). -/
def State.restored (s : State) (l : Launch) (img : Img) (r : SavedRest) : Task :=
  let t := img.restore (s.identity l s.cur.stagedTask.lcn) l.rec_.phys r
  let t := { t with m := s.rearm t.m, f := s.rearm t.f, s := s.rearm t.s }
  if r.parkAll || r.parkCtl then t else t.unpark

theorem State.restored_ctl (s : State) (l : Launch) (img : Img) (r : SavedRest) :
    (s.restored l img r).ctl = (img.restore (s.identity l s.cur.stagedTask.lcn) l.rec_.phys r).ctl := by
  unfold State.restored
  split <;> rfl

theorem State.restored_park (s : State) (l : Launch) (img : Img) (r : SavedRest) :
    (s.restored l img r).parkAll = r.parkAll ∧ (s.restored l img r).parkCtl = r.parkCtl := by
  unfold State.restored
  dsimp only
  split
  · exact ⟨rfl, rfl⟩
  · next h =>
    obtain ⟨hall, hctl⟩ := Bool.or_eq_false_iff.1 (Bool.not_eq_true _ ▸ h)
    exact ⟨hall.symm, hctl.symm⟩

theorem State.withRegion_frame (s : State) (t : Task) : (s.withRegion t).parkAll = t.parkAll ∧ (s.withRegion t).parkCtl = t.parkCtl ∧
    (s.withRegion t).ctl.pc = t.ctl.pc ∧ (s.withRegion t).ctl.g = t.ctl.g := ⟨rfl, rfl, rfl, rfl⟩

/-- The staged slot has taken a task from a context image, which is no longer saved. -/
def State.stagedFrom (s : State) (t : Task) : State :=
  { s.stagedWith t with saved := s.saved.filter fun e => e.1 != s.cur.fillFrom }

/-- The staged slot takes a task from a context image: its waits go if an edit has taken it past them, and it has the region of its
PC. -/
def State.fillsContext (s : State) (t : Task) (r : SavedRest) : State :=
  let u := if r.waiting && !t.ctl.waiting then s.leaveWaits t.lid t.lcn else s
  u.stagedFrom (if t.ctl.pc = r.pc then t else u.withRegion t)

theorem State.fillsContext_eq (s : State) (t : Task) (r : SavedRest) :
    ∃ v : State, v.cur = s.cur ∧ v.mem = s.mem ∧
      (s.fillsContext t r = v.stagedFrom t ∨ s.fillsContext t r = v.stagedFrom (v.withRegion t)) := by
  have hleaves : ∃ v : State, v.cur = s.cur ∧ v.mem = s.mem ∧
      (if r.waiting && !t.ctl.waiting then s.leaveWaits t.lid t.lcn else s) = v := by
    split
    · exact ⟨s.leaveWaits t.lid t.lcn, rfl, rfl, rfl⟩
    · exact ⟨s, rfl, rfl, rfl⟩
  obtain ⟨v, hcur, hmem, hv⟩ := hleaves
  refine ⟨v, hcur, hmem, ?_⟩
  unfold State.fillsContext
  rw [hv]
  dsimp only
  split
  · exact .inl rfl
  · exact .inr rfl

/-- A fill from a context image stages the task that it restores, with the region of its code (R302). -/
theorem exec_contextFill_context {s : State} {l : Launch} {img : Img} {r : Nat × SavedRest} (hfilling : s.cur.staged = .filling)
    (hl : s.findLaunch s.cur.stagedTask.lid = some l) (hctx : s.cur.fillCtx = true)
    (himg : s.beheld.readImage l.part l.queue s.cur.fillFrom s.cur.fillVirt = .ok img) (hheader : img.header 2 = true)
    (hr : s.saved.find? (fun e => e.1 == s.cur.fillFrom) = some r) :
    ∃ (v : State) (t : Task), exec .contextFill s = .next (v.stagedFrom t) ∧ v.cur = s.cur ∧ v.mem = s.mem ∧ (t = s.restored l img r.2 ∨ t = v.withRegion (s.restored l img r.2)) := by
  have hexec : exec .contextFill s = execContextFill s := rfl
  rw [execContextFill, if_neg (fun h => h hfilling), hl] at hexec
  dsimp only at hexec
  rw [himg] at hexec
  dsimp only at hexec
  rw [if_pos hctx, if_pos hheader, hr] at hexec
  change exec .contextFill s = .next (s.fillsContext (s.restored l img r.2) r.2) at hexec
  obtain ⟨v, hcur, hmem, hv⟩ := s.fillsContext_eq (s.restored l img r.2) r.2
  rcases hv with hv | hv
  · exact ⟨v, _, hexec.trans (congrArg _ hv), hcur, hmem, .inl rfl⟩
  · exact ⟨v, _, hexec.trans (congrArg _ hv), hcur, hmem, .inr rfl⟩

/-- A fill from a launch image stages the task that the image gives, with the region of its code (R302). -/
theorem exec_contextFill_launch {s : State} {l : Launch} {img : Img} {u : Task} (hfilling : s.cur.staged = .filling)
    (hl : s.findLaunch s.cur.stagedTask.lid = some l) (hctx : s.cur.fillCtx = false)
    (himg : s.beheld.readImage l.part l.queue s.cur.fillFrom s.cur.fillVirt = .ok img) (hheader : img.header 1 = true)
    (hu : img.launch (s.identity l s.cur.stagedTask.lcn) l.rec_.phys = some u) :
    exec .contextFill s = .next (s.stagedWith (s.withRegion u)) := by
  have hexec : exec .contextFill s = execContextFill s := rfl
  rw [execContextFill, if_neg (fun h => h hfilling), hl] at hexec
  dsimp only at hexec
  rw [himg] at hexec
  dsimp only at hexec
  rw [if_neg (by rw [hctx]; exact Bool.false_ne_true), if_pos hheader, hu] at hexec
  exact hexec

/-- The control registers that a context image gives a task whose fill loads `c` (R302): PC and the G registers are those. -/
theorem Img.restore_ctl (i : Img) (t : Task) (phys : Bool) (r : SavedRest) :
    (i.restore t phys r).ctl.pc = (i.common t).ctl.pc ∧ (i.restore t phys r).ctl.g = (i.common t).ctl.g := by
  unfold Img.restore
  generalize i.common t = c
  exact ⟨rfl, rfl⟩

theorem Ctl.getG_congr {c d : Ctl} (h : c.g = d.g) (r : BitVec 5) : c.getG r = d.getG r := by
  rw [Ctl.getG, Ctl.getG, h]

/-! ### The obligation -/

/-- Settles O55: the call by its checks, the fills by what an image gives a task, the swap core by core. -/
theorem headgateStartsTasks : Obligations.HeadgateStartsTasks := by
  unfold Obligations.HeadgateStartsTasks
  refine ⟨fun s die part host r p hp => ?_, fun s die prio l hpower hexit hl => ?_, fun s die r l hs hr hl hactive hempty => ?_,
    fun s l img r hfilling hl hctx himg hheader hr => ?_, fun s l img u hfilling hl hctx himg hheader hu => ?_, fun s tag hs => ?_⟩
  · intro open_ back
    refine ⟨fun h => if_pos ((hypervisorLaunchCall_open hp).2 h), fun h hrefused => ?_, fun h hbad hroom => ?_⟩
    · have hexec := exec_hypervisorLaunchCall hp h r
      by_cases hbad : r.bad = true
      · rw [if_pos hbad] at hexec
        exact ⟨_, hexec, rfl, rfl, s.lastCall_callReturns part 0, fun _ _ => rfl⟩
      · rw [if_neg hbad, State.submit_full (hrefused.resolve_left hbad)] at hexec
        obtain ⟨hlaunches, hlid, hbytes⟩ := s.callReturns_wakeFor part 0 part
        exact ⟨_, hexec, hlaunches, hlid, State.lastCall_callReturns _ part 0, hbytes⟩
    · have hexec := exec_hypervisorLaunchCall hp h r
      rw [if_neg (by rw [hbad]; exact Bool.false_ne_true), State.submit_accepted hroom] at hexec
      obtain ⟨hlaunches, hlid, hbytes⟩ := State.callReturns_wakeFor { s with
        nextLid := s.nextLid + 1, launches := s.launches ++ [⟨s.nextLid, part, die, r, .queued, [], 0⟩] } part s.nextLid part
      exact ⟨_, hexec, hlid, State.lastCall_callReturns _ part s.nextLid, hlaunches, hbytes⟩
  · have hexec : exec (.launchDispatch die prio) s = execLaunchDispatch die prio s := rfl
    rw [execLaunchDispatch, if_neg (by simp [hpower, hexit]), hl] at hexec
    refine ⟨fun h => hexec.trans (if_pos h), fun h => ⟨_, hexec.trans (if_neg (by rw [h]; exact Bool.false_ne_true)), rfl, rfl⟩⟩
  · intro clocked i hi
    have hexec : exec i s = .next (s.startFill die r) := by
      rcases hi with ⟨rfl, ha⟩ | ⟨rfl, ha⟩
      · show execBind die s = _
        rw [execBind, hr]
        exact if_pos ha
      · show execResume die s = _
        rw [execResume, hr]
        exact if_pos ha
    rw [State.startFill_eq hl hactive hempty] at hexec
    refine ⟨fun h => ?_, fun h => ?_⟩
    · rw [if_neg fun hc => h ((s.clocked_iff l).1 hc)] at hexec
      exact hexec
    · rw [if_pos ((s.clocked_iff l).2 h)] at hexec
      have hcore := State.coreAt_startFill hs die r r.pcore
      rw [if_pos rfl] at hcore
      refine ⟨_, hexec, ?_⟩
      rw [hcore]
      exact ⟨rfl, rfl, rfl, rfl, rfl, rfl, rfl, rfl, fun n hn => (State.coreAt_startFill hs die r n).trans (if_neg hn)⟩
  · obtain ⟨v, t, hexec, hcur, hmem, ht⟩ := exec_contextFill_context hfilling hl hctx himg hheader hr
    obtain ⟨hpc, hg⟩ := img.restore_ctl (s.identity l s.cur.stagedTask.lcn) l.rec_.phys r.2
    obtain ⟨hparkAll, hparkCtl⟩ := s.restored_park l img r.2
    have hframe : t.parkAll = (s.restored l img r.2).parkAll ∧ t.parkCtl = (s.restored l img r.2).parkCtl ∧
        t.ctl.pc = (s.restored l img r.2).ctl.pc ∧ t.ctl.g = (s.restored l img r.2).ctl.g := by
      rcases ht with rfl | rfl
      · exact ⟨rfl, rfl, rfl, rfl⟩
      · exact v.withRegion_frame _
    obtain ⟨htAll, htCtl, htpc, htg⟩ := hframe
    rw [s.restored_ctl] at htpc htg
    refine ⟨_, hexec, rfl, htAll.trans hparkAll, htCtl.trans hparkCtl, htpc.trans (hpc.trans ?_), fun x hx => ?_, ?_, hmem⟩
    · rw [img.common_ctl]
    · exact (Ctl.getG_congr (htg.trans hg) x).trans (img.common_getG _ hx)
    · rw [← hcur]
      rfl
  · obtain ⟨hlid, hlcn, hargptr, hpins, hflags, -⟩ := img.launch_eq hu
    have hg (r : BitVec 5) (hr : r ≠ 0) := img.common_getG (s.identity l s.cur.stagedTask.lcn) hr
    obtain ⟨hphys, hpc, hgs, hj, hframecnt, htasktime, hframe, htimed, hdegr, hwaiting⟩ := img.launch_ctl hu
    refine ⟨_, exec_contextFill_launch hfilling hl hctx himg hheader hu, rfl, rfl, rfl, rfl, rfl, rfl, hlid, hlcn, hargptr, hphys, hpc,
      hframecnt, htasktime, hframe, htimed, hdegr, hwaiting, hpins, fun r hr => (Ctl.getG_congr hgs r).trans (hg r hr),
      img.launch_ssp hu, fun w => by rw [hflags]; rfl, ?_⟩
    rw [hj]
    exact img.jregs_st
  · intro rs
    refine ⟨exec_gangSwap_waits, fun hne hready hcommit hnodup hsaved => ?_⟩
    obtain ⟨r0, t, hrs⟩ := List.exists_cons_of_ne_nil hne
    have hswaps : ∀ r ∈ r0 :: t, r.readyIn (s.coreAt r.pcore) := fun r hr => by
      obtain ⟨-, hstaged, hslot⟩ := hready r (hrs ▸ hr)
      exact ⟨hstaged, hslot⟩
    rw [hrs] at hready hcommit hnodup hsaved
    obtain ⟨hlen, -, -⟩ := hready r0 List.mem_cons_self
    obtain ⟨hdistinct, hcore⟩ := State.swapIn_foldl hs hnodup hswaps
    have hreleased := State.releaseAll_coreAt hdistinct hnodup
    have hstood : ((r0 :: t).all ((r0 :: t).foldl State.swapIn s).swappedFor) = true := List.all_eq_true.2 fun r hr => by
      obtain ⟨hstaged, -⟩ := hswaps r hr
      simp only [Bool.and_eq_true] at hstaged
      obtain ⟨⟨-, hlid⟩, hlcn⟩ := hstaged
      show ((List.foldl State.swapIn s (r0 :: t)).coreAt r.pcore).holdsTask r.lid r.lcn = true
      rw [hcore r hr]
      simp [Core.holdsTask, Core.swapsIn, beq_iff_eq.1 hlid, beq_iff_eq.1 hlcn]
    obtain ⟨u, hu, hmem, hsaved', hexec⟩ := exec_gangSwap_releases hrs hlen.symm (List.any_eq_true.2 hcommit)
      (fun r hr => (hready r hr).2.1) hstood
    obtain ⟨hmem₁, hsaved₁⟩ := State.releaseAll_frame ((r0 :: t).foldl State.swapIn s) (r0 :: t)
    obtain ⟨hmem₂, hsaved₂⟩ := State.swapIn_foldl_frame s (r0 :: t)
    rw [State.deliverHeld_nothing fun e he => hsaved e (by rwa [← hsaved₂, ← hsaved₁, ← hsaved']) r0 List.mem_cons_self,
      or_self] at hexec
    refine ⟨u, hexec, hmem.trans (hmem₁.trans hmem₂), fun r hr => ?_⟩
    rw [hrs] at hr
    rw [hu, hreleased r hr, hcore r hr]
    exact ⟨rfl, rfl, rfl, rfl⟩

end Sys2Proof.Machine
end

section
/-! PROOF. Delivery of fault records (R307): eight words written side by side. -/

namespace Sys2Proof.Machine

/-! ### Writes to physical memory -/

theorem State.memOnly_refl (s : State) : s.memOnly s := ⟨s.mem, s.badMem, rfl⟩

theorem State.memOnly_trans {s u v : State} (h : s.memOnly u) (h' : u.memOnly v) : s.memOnly v := by
  obtain ⟨m, b, rfl⟩ := h
  obtain ⟨m', b', rfl⟩ := h'
  exact ⟨m', b', rfl⟩

theorem State.memOnly_wrNat (s : State) (a n v : Nat) : s.memOnly (s.wrNat .mem a n v) :=
  s.memOnly_wrBytes fun _ hw => (mem_natWrites hw).1

/-- A byte of memory is at the place of another only if it is that one. -/
theorem State.place_mem_iff (s : State) (sp : Space) (a b : Nat) : s.place sp a = s.place .mem b ↔ sp = .mem ∧ a = b := by
  cases sp with
  | mem => simp [State.place]
  | far n => by_cases h : n = s.task.lcn <;> simp [State.place, h]
  | _ => simp [State.place]

theorem State.sameBytesBut_mem_iff (s t : State) (a n : Nat) : s.sameBytesBut t .mem a n ↔
    ∀ sp b, (sp = .mem → b < a ∨ a + n ≤ b) → t.rdByte sp b = s.rdByte sp b := by
  refine forall_congr' fun sp => forall_congr' fun b => imp_congr_left ?_
  simp only [ne_eq, State.place_mem_iff, not_and]
  refine ⟨fun h hsp => ?_, fun h k hk hsp hb => ?_⟩
  · by_contra hin
    exact h (b - a) (by omega) hsp (by omega)
  · have := h hsp
    omega

theorem State.rdNat_congr_range {s t : State} {sp : Space} {a n : Nat} (h : ∀ k, k < n → t.rdByte sp (a + k) = s.rdByte sp (a + k)) :
    t.rdNat sp a n = s.rdNat sp a n := by
  induction n generalizing a with
  | zero => rfl
  | succ n ih =>
    have h0 : t.rdByte sp a = s.rdByte sp a := h 0 (Nat.succ_pos n)
    rw [State.rdNat, State.rdNat, h0, ih]
    intro k hk
    rw [show a + 1 + k = a + (k + 1) by omega]
    exact h (k + 1) (by omega)

theorem State.rdNat_of_sameBytesBut {s t : State} {a n b m : Nat} (h : s.sameBytesBut t .mem a n) (hb : b + m ≤ a ∨ a + n ≤ b) :
    t.rdNat .mem b m = s.rdNat .mem b m :=
  State.rdNat_congr_range fun k hk => (State.sameBytesBut_mem_iff s t a n).1 h .mem (b + k) fun _ => by omega

/-- Words, each with its offset, are written from `a` on. -/
def State.putWords (s : State) (a : Nat) (ws : List (Nat × Nat)) : State := ws.foldl (fun s w => s.wrNat .mem (a + w.1) 8 w.2) s

theorem State.memOnly_putWords (s : State) (a : Nat) (ws : List (Nat × Nat)) : s.memOnly (s.putWords a ws) :=
  List.foldlRecOn (motive := s.memOnly) ws _ s.memOnly_refl fun u hu w _ => State.memOnly_trans hu (u.memOnly_wrNat (a + w.1) 8 w.2)

/-- Only bytes in the reach of the words change. -/
theorem State.sameBytesBut_putWords {n : Nat} (a : Nat) {ws : List (Nat × Nat)} (hws : ∀ w ∈ ws, w.1 + 8 ≤ n) {s : State}
    (hs : s.canonical) : s.sameBytesBut (s.putWords a ws) .mem a n := by
  induction ws generalizing s with
  | nil => exact fun sp b _ => rfl
  | cons w ws ih =>
    obtain ⟨hw, hws⟩ := List.forall_mem_cons.1 hws
    have hfirst := (State.sameBytesBut_mem_iff ..).1 (State.sameBytesBut_wrNat hs .mem (a + w.1) 8 w.2)
    have hrest := (State.sameBytesBut_mem_iff ..).1 (ih hws (State.canonical_wrNat hs .mem (a + w.1) 8 w.2))
    refine (State.sameBytesBut_mem_iff ..).2 fun sp b hb => (hrest sp b hb).trans (hfirst sp b fun hsp => ?_)
    have := hb hsp
    omega

/-- A word apart from those that are written stays. -/
theorem State.rdNat_putWords_ne (a : Nat) {ws : List (Nat × Nat)} {o : Nat} (hws : ∀ w ∈ ws, o + 8 ≤ w.1 ∨ w.1 + 8 ≤ o) {s : State}
    (hs : s.canonical) : (s.putWords a ws).rdNat .mem (a + o) 8 = s.rdNat .mem (a + o) 8 := by
  induction ws generalizing s with
  | nil => rfl
  | cons w ws ih =>
    obtain ⟨hw, hws⟩ := List.forall_mem_cons.1 hws
    refine (ih hws (State.canonical_wrNat hs .mem (a + w.1) 8 w.2)).trans ?_
    exact State.rdNat_of_sameBytesBut (State.sameBytesBut_wrNat hs .mem (a + w.1) 8 w.2) (by omega)

/-- Words that lie apart read back. -/
theorem State.rdNat_putWords (a : Nat) {ws : List (Nat × Nat)} (hws : ws.Pairwise fun w x => w.1 + 8 ≤ x.1 ∨ x.1 + 8 ≤ w.1) {s : State}
    (hs : s.canonical) : ∀ w ∈ ws, (s.putWords a ws).rdNat .mem (a + w.1) 8 = w.2 % 2 ^ 64 := by
  induction ws generalizing s with
  | nil => exact fun _ h => nomatch h
  | cons w ws ih =>
    obtain ⟨hw, hws⟩ := List.pairwise_cons.1 hws
    have hs' := State.canonical_wrNat hs .mem (a + w.1) 8 w.2
    refine List.forall_mem_cons.2 ⟨?_, ih hws hs'⟩
    exact (State.rdNat_putWords_ne a hw hs').trans (State.rdNat_wrNat hs (by simp) rfl _ _ _)

/-! ### The delivery -/

/-- The words of a record by their places in the slot, LID the last to be written (R306, R307). -/
def FaultRec.slotWords (r : FaultRec) : List (Nat × Nat) := (r.early.map fun w => (w.1, w.2.toNat)) ++ [(8, r.lid)]

theorem dropFault_length {part : Nat} {rs : List FaultRec} {r : FaultRec} (h : rs.find? (fun r => r.part == part) = some r) :
    (dropFault part rs).length + 1 = rs.length := by
  induction rs with
  | nil => cases h
  | cons x rs ih =>
    rw [List.find?_cons] at h
    by_cases hx : x.part = part
    · rw [dropFault, if_pos hx, List.length_cons]
    · rw [show (x.part == part) = false by simpa using hx] at h
      rw [dropFault, if_neg hx, List.length_cons, List.length_cons, ih h]

theorem exec_faultRecordDelivery {s : State} {part : Nat} {p : Partition} {r : FaultRec} (hp : s.partOf part = some p)
    (hr : s.faults.find? (fun r => r.part == part) = some r) (hslots : p.ringSlots ≠ 0) :
    exec (.faultRecordDelivery part) s = if s.rdNat .mem (p.slotAt + 8) 8 ≠ 0 then .next s else
      .next { s.putWords p.slotAt r.slotWords with
        faults := dropFault part s.faults
        parts := s.parts.map fun q => if q.id = part then { q with ringAt := (q.ringAt + 1) % q.ringSlots } else q } := by
  show execFaultRecordDelivery part s = _
  unfold execFaultRecordDelivery
  rw [hp, hr]
  dsimp only
  by_cases hfree : s.rdNat .mem (p.slotAt + 8) 8 ≠ 0
  · rw [if_pos hfree, if_pos (by simp [hfree])]
  · rw [if_neg hfree, if_neg (by simpa [hslots] using hfree)]
    have hput : (r.early.foldl (fun (s : State) w => s.wrNat .mem (p.slotAt + w.1) 8 w.2.toNat) s).wrNat .mem (p.slotAt + 8) 8 r.lid
        = s.putWords p.slotAt r.slotWords := by
      rw [State.putWords, FaultRec.slotWords, List.foldl_append, List.foldl_map]
      rfl
    rw [hput]
    obtain ⟨m, b, hm⟩ := s.memOnly_putWords p.slotAt r.slotWords
    rw [hm]

end Sys2Proof.Machine
end

section
/-! PROOF. Continuing (R309): tasks stand where they stood, none is parked again, and the gang's park latches are released. -/

namespace Sys2Proof.Machine

/-! ### What parks nothing -/

/-- The resident task of a core is the same one and stands where it stood, and is not parked where it was not. -/
def Core.eases (c d : Core) : Prop :=
  d.task.lid = c.task.lid ∧ d.task.lcn = c.task.lcn ∧ d.task.ctl = c.task.ctl ∧
    (c.task.parkAll = false → d.task.parkAll = false) ∧ (c.task.parkCtl = false → d.task.parkCtl = false)

theorem Core.eases.refl (c : Core) : c.eases c := ⟨rfl, rfl, rfl, id, id⟩

theorem Core.eases.trans {c d e : Core} (h : c.eases d) (h' : d.eases e) : c.eases e := by
  obtain ⟨hlid, hlcn, hctl, hall, hown⟩ := h
  obtain ⟨hlid', hlcn', hctl', hall', hown'⟩ := h'
  exact ⟨hlid'.trans hlid, hlcn'.trans hlcn, hctl'.trans hctl, hall' ∘ hall, hown' ∘ hown⟩

/-- The package around the cores is as it was, and every resident task stands where it stood, none of them newly parked. -/
def State.eases (s u : State) : Prop :=
  u.shell = s.shell ∧ (s.distinct → u.distinct ∧ u.cur.pcore = s.cur.pcore ∧ ∀ n, (s.coreAt n).eases (u.coreAt n))

namespace State.eases

theorem refl (s : State) : s.eases s := ⟨rfl, fun h => ⟨h, rfl, fun _ => .refl _⟩⟩

theorem trans {s u v : State} (h : s.eases u) (h' : u.eases v) : s.eases v := by
  refine ⟨h'.1.trans h.1, fun hs => ?_⟩
  obtain ⟨hu, hp, hc⟩ := h.2 hs
  obtain ⟨hv, hp', hc'⟩ := h'.2 hu
  exact ⟨hv, hp'.trans hp, fun n => (hc n).trans (hc' n)⟩

/-- What changes the core in focus alone. -/
theorem of_cur {s u : State} (hshell : u.shell = s.shell) (hr : u.rest = s.rest) (hp : u.cur.pcore = s.cur.pcore)
    (hc : s.cur.eases u.cur) : s.eases u := by
  refine ⟨hshell, fun hs => ⟨State.distinct_of_cur hp hr hs, hp, fun n => ?_⟩⟩
  rw [State.coreAt_of_cur hp hr]
  split
  · next hn => rwa [hn, State.coreAt_cur]
  · exact .refl _

theorem of_keepsOutlines {s u : State} (hshell : u.shell = s.shell) (h : s.keepsOutlines u) : s.eases u := by
  refine ⟨hshell, fun hs => ?_⟩
  obtain ⟨hu, hp, hc⟩ := h hs
  refine ⟨hu, hp, fun n => ?_⟩
  have hlid := congrArg (fun c : Core => c.task.lid) (hc n)
  have hlcn := congrArg (fun c : Core => c.task.lcn) (hc n)
  have hctl := congrArg (fun c : Core => c.task.ctl) (hc n)
  have hall := congrArg (fun c : Core => c.task.parkAll) (hc n)
  have hown := congrArg (fun c : Core => c.task.parkCtl) (hc n)
  generalize u.coreAt n = d at *
  generalize s.coreAt n = c at *
  exact ⟨hlid, hlcn, hctl, fun h => hall.trans h, fun h => hown.trans h⟩

theorem heldOnly {s u : State} (h : s.heldOnly u) : s.eases u := by
  obtain ⟨tl, ic, n, xl, rfl⟩ := h
  exact of_cur rfl rfl rfl ⟨rfl, rfl, rfl, id, id⟩

theorem setEng (s : State) (e : EngId) (g : Eng) : s.eases (s.setEng e g) := by
  cases e <;> exact of_cur rfl rfl rfl ⟨rfl, rfl, rfl, id, id⟩

theorem flumeLanes (s : State) (gens : Sparse (BitVec 32)) : s.eases (s.withTask { s.task with flumeGen := gens }) :=
  of_cur rfl rfl rfl ⟨rfl, rfl, rfl, id, id⟩

theorem setFresh (s : State) (n : Nat) : s.eases { s with fresh := n } := of_cur rfl rfl rfl ⟨rfl, rfl, rfl, id, id⟩

theorem ite {s u v : State} {p : Prop} [Decidable p] (hu : s.eases u) (hv : s.eases v) : s.eases (if p then u else v) := by
  split
  · exact hu
  · exact hv

theorem foldl {α : Type} {f : State → α → State} (hf : ∀ (u : State) (a : α), u.eases (f u a)) (l : List α) (s : State) : s.eases (l.foldl f s) :=
  List.foldlRecOn (motive := s.eases) l f (refl s) fun u hu a _ => hu.trans (hf u a)

/-! ### A stopped command goes on -/

theorem flumeElems (s r : State) (op : FluOp) (k : Nat) (il : List Run) : s.eases (s.flumeElems r op k il).2 := by
  unfold State.flumeElems
  dsimp only
  refine trans ?_ (setEng _ .flume _)
  refine trans ?_ (ite (refl _) (flumeLanes _ _))
  refine trans ?_ (ite (setFresh _ _) (refl _))
  exact trans (heldOnly (s.mapPages_heldOnly ..)) (heldOnly (State.mapPages_heldOnly ..))

theorem redoFlume (s : State) (f : Flight) (op : FluOp) (k : Nat) : s.eases (s.redoFlume f op k).2 := by
  have hread : s.eases (s.asRead .flume) := of_keepsOutlines (s.shell_asRead .flume) (s.keepsOutlines_asRead .flume)
  unfold State.redoFlume
  dsimp only
  split
  · exact trans (trans hread (flumeElems ..)) (setEng _ .flume _)
  · exact trans hread (flumeElems ..)

theorem rewind (s : State) (op : FluOp) (gens : Sparse (BitVec 32)) : s.eases (s.rewind op gens).1 := by
  unfold State.rewind
  split
  · exact flumeLanes s gens
  · exact refl s

theorem resumeSent (s : State) (f : Flight) : s.eases (s.resumeSent f).1 := by
  unfold State.resumeSent
  split
  · split
    · exact rewind s _ _
    · exact refl s
  · exact refl s

theorem continueEng (s : State) (e : EngId) : s.eases (s.continueEng e) := by
  unfold State.continueEng
  dsimp only
  split
  · exact refl s
  · split
    · exact refl s
    · refine trans ?_ (setEng _ e _)
      split
      · exact trans (setEng s e _) (redoFlume ..)
      · exact trans (setEng s e _) (resumeSent ..)

theorem unpark (s : State) : s.eases (s.withTask s.task.unpark) := of_cur rfl rfl rfl ⟨rfl, rfl, rfl, fun _ => rfl, fun _ => rfl⟩

theorem continueTask (s : State) : s.eases s.continueTask := ite (refl s) (trans (unpark s) (foldl continueEng _ _))

theorem onCore {f : State → State} (hf : ∀ u : State, u.eases (f u)) (s : State) (n : Nat) : s.eases (s.onCore n f) := by
  refine ⟨State.shell_onCore (fun u => (hf u).1) s n, fun hs => ?_⟩
  obtain ⟨hu, hp, hc⟩ := (hf (s.focus n)).2 (State.distinct_focus hs n)
  refine ⟨State.distinct_focus hu _, State.focus_pcore .., fun k => ?_⟩
  rw [State.onCore, State.coreAt_focus hu, ← State.coreAt_focus hs n k]
  exact hc k

end State.eases

/-! ### The gang is continued -/

/-- The resident task of a core is not parked. -/
def Core.runs (c : Core) : Prop := c.task.parkAll = false ∧ c.task.parkCtl = false

theorem Core.runs_of_eases {c d : Core} (h : c.eases d) (hc : c.runs) : d.runs := by
  obtain ⟨-, -, -, hall, hown⟩ := h
  exact ⟨hall hc.1, hown hc.2⟩

theorem State.faults_of_shell {s u : State} (h : u.shell = s.shell) : u.faults = s.faults :=
  show u.shell.faults = s.shell.faults by rw [h]

theorem State.coreAt_of_pcore {s : State} {n : Nat} (h : s.cur.pcore = n) : s.coreAt n = s.cur := h ▸ s.coreAt_cur

/-- A task of which no record is undelivered runs once it is continued (R305, R309). -/
theorem State.continueTask_runs {s : State} (hs : s.distinct) (h : s.undelivered s.task.lid s.task.lcn = false) : s.continueTask.cur.runs := by
  rw [State.continueTask, if_neg (by rw [h]; exact Bool.false_ne_true)]
  obtain ⟨-, hp, hc⟩ := (State.eases.foldl State.eases.continueEng engines (s.withTask s.task.unpark)).2 hs
  have hcur := hc (s.withTask s.task.unpark).cur.pcore
  rw [State.coreAt_cur, State.coreAt_of_pcore hp] at hcur
  exact Core.runs_of_eases hcur ⟨rfl, rfl⟩

/-- Continuing the cores of a list eases the package, and the tasks on them run that have no record undelivered. -/
theorem State.continue_foldl (ns : List Nat) (s : State) : s.eases (ns.foldl (fun s n => s.onCore n State.continueTask) s) ∧
    (s.distinct → ∀ n ∈ ns, s.undelivered (s.coreAt n).task.lid (s.coreAt n).task.lcn = false →
      ((ns.foldl (fun s n => s.onCore n State.continueTask) s).coreAt n).runs) := by
  induction ns generalizing s with
  | nil => exact ⟨.refl s, fun _ _ h => nomatch h⟩
  | cons m ns ih =>
    have hfirst := State.eases.onCore State.eases.continueTask s m
    obtain ⟨hrest, hruns⟩ := ih (s.onCore m State.continueTask)
    refine ⟨hfirst.trans hrest, fun hs n hn hdelivered => ?_⟩
    obtain ⟨hu, -, hc⟩ := hfirst.2 hs
    rw [List.foldl_cons]
    rcases List.mem_cons.1 hn with rfl | hn
    · obtain ⟨-, -, hlater⟩ := hrest.2 hu
      refine Core.runs_of_eases (hlater n) ?_
      obtain ⟨hv, hp, -⟩ := (State.eases.continueTask (s.focus n)).2 (State.distinct_focus hs n)
      rw [State.onCore, State.coreAt_focus hv, State.coreAt_of_pcore (hp.trans (State.focus_pcore ..))]
      refine State.continueTask_runs (State.distinct_focus hs n) ?_
      rw [State.undelivered, State.faults_of_shell (s.shell_focus n), State.task, State.cur_focus]
      exact hdelivered
    · refine hruns hu n hn ?_
      obtain ⟨hlid, hlcn, -⟩ := hc n
      rw [State.undelivered, State.faults_of_shell hfirst.1, hlid, hlcn]
      exact hdelivered

/-! ### Staged and saved tasks -/

theorem State.coreAt_mapCores (s : State) {f : Core → Core} (hf : ∀ c : Core, (f c).pcore = c.pcore) {n : Nat}
    (hblank : f (Core.blank n) = Core.blank n) : (s.mapCores f).coreAt n = f (s.coreAt n) := by
  unfold State.coreAt
  rw [show (s.mapCores f).cores = s.cores.map f from rfl, List.find?_map,
    show (fun c : Core => c.pcore == n) ∘ f = fun c => c.pcore == n from funext fun c => by rw [Function.comp, hf]]
  cases s.cores.find? fun c => c.pcore == n with
  | none => exact hblank.symm
  | some c => rfl

theorem State.distinct_mapCores {s : State} (hs : s.distinct) {f : Core → Core} (hf : ∀ c : Core, (f c).pcore = c.pcore) :
    (s.mapCores f).distinct := by
  unfold State.distinct
  rw [show (s.mapCores f).cores = s.cores.map f from rfl, List.map_map,
    show Core.pcore ∘ f = Core.pcore from funext hf]
  exact hs

/-- What releasing its staged tasks does to a core: nothing to the resident task (R309). -/
theorem State.coreAt_releaseStaged (s : State) (lid idx n : Nat) : ((s.releaseStaged lid idx).coreAt n).task = (s.coreAt n).task := by
  rw [State.releaseStaged, State.coreAt_mapCores]
  · split <;> rfl
  · intro c
    split <;> rfl
  · exact if_neg (by simp [Core.blank])

theorem State.distinct_releaseStaged {s : State} (hs : s.distinct) (lid idx : Nat) : (s.releaseStaged lid idx).distinct :=
  State.distinct_mapCores hs fun c => by split <;> rfl

theorem State.coreAt_of_mem {s : State} (hs : s.distinct) {c : Core} (hc : c ∈ s.cores) : s.coreAt c.pcore = c := by
  unfold State.coreAt
  cases h : s.cores.find? fun d => d.pcore == c.pcore with
  | none => exact absurd BEq.rfl (List.find?_eq_none.1 h c hc)
  | some d => exact List.inj_on_of_nodup_map hs (List.mem_of_find?_eq_some h) hc (by simpa using List.find?_some h)

/-- The gang of a launch has been continued: its tasks on the cores of `gangAt`, those staged and those saved (R309). -/
theorem State.continued {s : State} (hs : s.distinct) (lid gang : Nat) {c : Core} (hc : c ∈ s.cores)
    (hgang : c.pcore ∈ s.gangAt lid gang) (hdelivered : s.undelivered c.task.lid c.task.lcn = false) {t : State}
    (hexec : exec (.taskContinue lid gang) s = .next t) : (t.coreAt c.pcore).runs ∧ (t.coreAt c.pcore).task.ctl = c.task.ctl := by
  obtain rfl := Host.Outcome.next.inj hexec
  have hcore : s.coreAt c.pcore = c := State.coreAt_of_mem hs hc
  have htask : ((s.releaseStaged lid gang).releaseSaved lid gang).coreAt c.pcore = (s.releaseStaged lid gang).coreAt c.pcore := rfl
  have hstands := s.coreAt_releaseStaged lid gang c.pcore
  rw [hcore] at hstands
  have hdistinct : ((s.releaseStaged lid gang).releaseSaved lid gang).distinct := State.distinct_releaseStaged hs lid gang
  obtain ⟨heases, hruns⟩ := State.continue_foldl (s.gangAt lid gang) ((s.releaseStaged lid gang).releaseSaved lid gang)
  refine ⟨hruns hdistinct _ hgang ?_, ?_⟩
  · rw [htask, hstands]
    exact hdelivered
  · obtain ⟨-, -, heach⟩ := heases.2 hdistinct
    obtain ⟨-, -, hctl, -, -⟩ := heach c.pcore
    rw [htask, hstands] at hctl
    exact hctl

/-- A saved task of the gang of which no record is undelivered is released (R309; log entry 85). -/
theorem State.mem_releaseSaved {s : State} {lid gang : Nat} {l : Launch} {e : Nat × SavedRest} (hl : s.findLaunch lid = some l)
    (he : e ∈ s.saved) (hlid : e.2.lid = lid) (hgang : (s.gangCores l gang).contains e.2.lcn = true)
    (hdelivered : s.undelivered lid e.2.lcn = false) :
    ∃ x ∈ (s.releaseSaved lid gang).saved, x.1 = e.1 ∧ x.2.parkAll = false ∧ x.2.parkCtl = false := by
  refine ⟨_, List.mem_map_of_mem he, ?_⟩
  have hreleasable : s.releasable lid gang e.2.lid e.2.lcn = true := by
    simp [State.releasable, hlid, hl, List.contains_iff_mem.1 hgang, hdelivered]
  rw [if_pos hreleasable]
  exact ⟨rfl, rfl, rfl⟩

theorem exec_taskContinue_saved (s : State) (lid gang : Nat) :
    ∃ t, exec (.taskContinue lid gang) s = .next t ∧ t.saved = ((s.releaseStaged lid gang).releaseSaved lid gang).saved :=
  ⟨_, rfl, State.saved_of_shell (State.continue_foldl _ _).1.1⟩

end Sys2Proof.Machine
end

section
/-! PROOF. A word of a context edited in place (R309): the image of the task, one of its words changed, and what a restore reads of it. -/

namespace Sys2Proof.Machine

/-! ### Words of an image -/

/-- Writes at other keys leave a table's value. -/
theorem spGet_spSetMany_ne {β : Type} [DecidableEq β] {d : β} {t : Sparse β} (ht : spWf d t = true) {ws : List (Nat × β)} {k : Nat}
    (h : ∀ w ∈ ws, w.1 ≠ k) : spGet d (spSetMany d t ws) k = spGet d t k := by
  induction ws generalizing t with
  | nil => rfl
  | cons w ws ih =>
    obtain ⟨hw, hws⟩ := List.forall_mem_cons.1 h
    exact (ih (spWf_spSet ht) hws).trans (spGet_spSet_ne ht hw.symm)

theorem spSetMany_append {β : Type} [DecidableEq β] (d : β) (t : Sparse β) (ws xs : List (Nat × β)) :
    spSetMany d t (ws ++ xs) = spSetMany d (spSetMany d t ws) xs := List.foldl_append ..

theorem spRange_congr {β : Type} {d : β} {t u : Sparse β} {a n : Nat} (h : ∀ k, a ≤ k → k < a + n → spGet d u k = spGet d t k) :
    spRange d u a n = spRange d t a n := by
  induction n generalizing a with
  | zero => rfl
  | succ n ih =>
    rw [spRange, spRange, h a (Nat.le_refl a) (by omega), ih fun k hlo hhi => h k (by omega) (by omega)]

/-- Values written side by side read back. -/
theorem spRange_spSetMany_numbered {β : Type} [DecidableEq β] {d : β} {t : Sparse β} (ht : spWf d t = true) (vs : List β) (a : Nat) :
    spRange d (spSetMany d t (numbered a vs)) a vs.length = vs := by
  induction vs generalizing t a with
  | nil => rfl
  | cons v vs ih =>
    have ht' : spWf d (spSet d t a v) = true := spWf_spSet ht
    have hfirst : spGet d (spSetMany d t (numbered a (v :: vs))) a = v := by
      refine (spGet_spSetMany_ne (t := spSet d t a v) ht' fun w hw => ?_).trans (spGet_spSet_self ht)
      have := le_of_mem_numbered hw
      omega
    rw [List.length_cons, spRange, hfirst]
    exact congrArg (v :: ·) (ih ht' (a + 1))

/-- Write a word of an image. -/
def Img.putWord (i : Img) (off v : Nat) : Img := spSetMany emptyByte i (numbered off (leBytes 8 v))

theorem Img.putWord_wf {i : Img} (h : Memory.wf i = true) (off v : Nat) : Memory.wf (i.putWord off v) = true := spWf_spSetMany h

theorem Img.word_putWord_self {i : Img} (h : Memory.wf i = true) (off : Nat) (v : Word) : (i.putWord off v.toNat).word off = v := by
  have hbytes := spRange_spSetMany_numbered h (leBytes 8 v.toNat) off
  rw [leBytes_length] at hbytes
  rw [Img.word, Img.putWord, hbytes, leNat_leBytes]
  exact BitVec.eq_of_toNat_eq (by rw [BitVec.toNat_ofNat]; have := v.isLt; omega)

theorem mem_numbered_lt {β : Type} {p : Nat × β} {l : List β} {k : Nat} (h : p ∈ numbered k l) : p.1 < k + l.length := by
  rw [numbered_eq_zipIdx] at h
  obtain ⟨x, hx, rfl⟩ := List.mem_map.1 h
  exact List.snd_lt_add_of_mem_zipIdx hx

/-- Writes apart from a word leave it. -/
theorem Img.word_spSetMany {i : Img} (h : Memory.wf i = true) {ws : List (Nat × Byte)} {off : Nat}
    (hws : ∀ w ∈ ws, w.1 < off ∨ off + 8 ≤ w.1) : Img.word (spSetMany emptyByte i ws) off = i.word off := by
  rw [Img.word, Img.word, spRange_congr fun k hlo hhi => spGet_spSetMany_ne h fun w hw hk => ?_]
  have := hws w hw
  omega

theorem Img.word_putWord_ne {i : Img} (h : Memory.wf i = true) {off off' : Nat} (v : Nat) (hoff : off + 8 ≤ off' ∨ off' + 8 ≤ off) :
    (i.putWord off v).word off' = i.word off' :=
  Img.word_spSetMany h fun w hw => by
    have hlo := le_of_mem_numbered hw
    have hhi := mem_numbered_lt hw
    rw [leBytes_length] at hhi
    omega

/-! ### A table of words in an image -/

/-- Write a table of words from `base` on. -/
def Img.putTable (i : Img) (base : Nat) (t : Sparse Word) : Img := t.foldl (fun i e => i.putWord (base + 8 * e.1) e.2.toNat) i

theorem Img.putTable_wf {i : Img} (h : Memory.wf i = true) (base : Nat) (t : Sparse Word) : Memory.wf (i.putTable base t) = true :=
  List.foldlRecOn (motive := fun i => Memory.wf i = true) t _ h fun _ hi _ _ => Img.putWord_wf hi _ _

/-- A word of the table reads back, one that is not listed stays. -/
theorem Img.word_putTable {lo base : Nat} {t : Sparse Word} (ht : spWfFrom 0 lo t = true) {i : Img} (hi : Memory.wf i = true) (k : Nat) :
    (i.putTable base t).word (base + 8 * k) = if spGet 0 t k = 0 then i.word (base + 8 * k) else spGet 0 t k := by
  induction t generalizing i lo with
  | nil => rfl
  | cons e t ih =>
    obtain ⟨a, v⟩ := e
    obtain ⟨hlo, hv, ht'⟩ := spWfFrom_cons.1 ht
    refine (ih ht' (Img.putWord_wf hi (base + 8 * a) v.toNat)).trans ?_
    by_cases hk : k = a
    · rw [hk, spGet_below ht' (Nat.lt_succ_self a), if_pos rfl, Img.word_putWord_self hi,
        show spGet 0 ((a, v) :: t) a = v by simp [spGet], if_neg hv]
    · rw [Img.word_putWord_ne hi v.toNat (by omega)]
      by_cases hlt : k < a
      · rw [spGet_below ht' (by omega)]
        simp [spGet, hlt]
      · simp [spGet, hlt, hk]

theorem spGet_filter_pos {β : Type} {d : β} (t : Sparse β) {k : Nat} (h : k ≠ 0) : spGet d (t.filter (·.1 != 0)) k = spGet d t k := by
  induction t with
  | nil => rfl
  | cons e t ih =>
    obtain ⟨a, v⟩ := e
    by_cases ha : a = 0
    · rw [List.filter_cons_of_neg (by simp [ha]), ih]
      simp [spGet, ha, h]
    · rw [List.filter_cons_of_pos (by simp [ha]), spGet, spGet, ih]

/-! ### The image of a task -/

/-- The bytes of a word of an image. -/
def wordBytes (w : Nat × Nat) : List (Nat × Byte) := numbered w.1 (leBytes 8 w.2)

theorem wordBytes_from {n : Nat} {ws : List (Nat × Nat)} (h : ∀ w ∈ ws, n ≤ w.1) : ∀ b ∈ ws.flatMap wordBytes, n ≤ b.1 := by
  intro b hb
  obtain ⟨w, hw, hb⟩ := List.mem_flatMap.1 hb
  exact (h w hw).trans (le_of_mem_numbered hb)

/-- The header of an image, below the G registers (R301). -/
def imageHeader (kind : Nat) (mask : BitVec 32) (wb : Bool) : List (Nat × Nat) :=
  [(0x0, 2 ^ 48 + kind * 2 ^ 40), (0x8, mask.toNat), (0x10, b2n wb), (0x18, imageSize (banksOf mask).length wb)]

/-- The G registers of a task as words of its image. -/
def Task.gWords (t : Task) : List (Nat × Nat) := (t.ctl.g.filter (·.1 != 0)).map fun e => (0x100 + 8 * e.1, e.2.toNat)

theorem Eng.areaWords_from (g : Eng) (e : EngId) : ∀ w ∈ g.areaWords e, 0x200 ≤ w.1 := by
  intro w hw
  have he : 0x2000 ≤ engAt e := Nat.le_add_right ..
  rcases List.mem_append.1 hw with hw | hw
  · obtain ⟨q, -, hw⟩ := List.mem_flatMap.1 hw
    rcases List.mem_cons.1 hw with rfl | hw
    · dsimp only
      omega
    · rw [List.mem_singleton.1 hw]
      dsimp only
      omega
  · simp only [List.mem_cons, List.not_mem_nil, or_false] at hw
    rcases hw with rfl | rfl | rfl | rfl | rfl | rfl <;> dsimp only <;> omega

theorem Task.slotWords_from (t : Task) (e : EngId) : ∀ w ∈ t.slotWords e, 0x200 ≤ w.1 := by
  intro w hw
  obtain ⟨k, -, hk⟩ := List.mem_filterMap.1 hw
  obtain ⟨x, -, rfl⟩ := Option.map_eq_some_iff.1 hk
  dsimp only
  omega

theorem pinWords_from (ps : List (Nat × Leaf)) : ∀ w ∈ pinWords ps, 0x200 ≤ w.1 := by
  intro w hw
  obtain ⟨p, -, hw⟩ := List.mem_flatMap.1 hw
  simp only [List.mem_cons, List.not_mem_nil, or_false] at hw
  rcases hw with rfl | rfl <;> dsimp only <;> omega

/-- Header and G registers stand first among the words of an image, everything else above them (R301). -/
theorem Task.imageWords_split (t : Task) (kind : Nat) (mask : BitVec 32) (wb : Bool) :
    ∃ ws, t.imageWords kind mask wb = imageHeader kind mask wb ++ (t.gWords ++ ws) ∧ ∀ w ∈ ws, 0x200 ≤ w.1 := by
  refine ⟨_, by simp only [Task.imageWords, List.append_assoc]; rfl, ?_⟩
  have hengines : ∀ w ∈ engines.flatMap (fun e => (t.eng e).areaWords e ++ t.slotWords e), 0x200 ≤ w.1 := by
    intro w hw
    obtain ⟨e, -, hw⟩ := List.mem_flatMap.1 hw
    exact (List.mem_append.1 hw).elim ((t.eng e).areaWords_from e w) (t.slotWords_from e w)
  simp only [List.forall_mem_append, List.forall_mem_map, List.forall_mem_cons]
  exact ⟨by simp, fun j _ => by omega, by simp, fun j _ => by omega, fun j _ => by omega, fun j _ => by omega, hengines, by simp,
    pinWords_from t.pins⟩

/-- The same of its bytes. -/
theorem Task.imageBytes_split (t : Task) (kind : Nat) (mask : BitVec 32) (wb : Bool) :
    ∃ bs, t.imageBytes kind mask wb = (imageHeader kind mask wb).flatMap wordBytes ++ (t.gWords.flatMap wordBytes ++ bs) ∧
      ∀ b ∈ bs, 0x200 ≤ b.1 := by
  obtain ⟨ws, hws, hfrom⟩ := t.imageWords_split kind mask wb
  refine ⟨_, by
    simp only [Task.imageBytes, hws, List.flatMap_append, List.append_assoc]
    rfl, ?_⟩
  have hlanes (base : Nat) (hbase : 0x200 ≤ base) (g : Sparse (BitVec 32)) :
      ∀ b ∈ (List.range 128).flatMap fun i => numbered (base + 4 * i) (leBytes 4 (spGet seedZero g i).toNat), 0x200 ≤ b.1 := by
    intro b hb
    obtain ⟨i, -, hb⟩ := List.mem_flatMap.1 hb
    have := le_of_mem_numbered hb
    omega
  have hbanks : ∀ b ∈ (numbered 0 (banksOf mask)).flatMap (fun b =>
      (t.scr.filter fun c => c.1 / 0x10000 == b.2).map fun c => (0x50000 + 0x10000 * b.1 + c.1 % 0x10000, c.2)), 0x200 ≤ b.1 := by
    intro b hb
    obtain ⟨n, -, hb⟩ := List.mem_flatMap.1 hb
    obtain ⟨c, -, rfl⟩ := List.mem_map.1 hb
    dsimp only
    omega
  simp only [List.forall_mem_append, List.forall_mem_map]
  refine ⟨wordBytes_from hfrom, hlanes _ (by omega) _, hlanes _ (by omega) _, fun c _ => by omega, fun k _ => by omega, hbanks, ?_⟩
  split
  · simp only [List.forall_mem_append, List.forall_mem_map]
    exact ⟨fun c _ => by omega, fun k _ => by omega⟩
  · exact List.forall_mem_nil _

/-- The image of a task in which a word of its context has been changed. -/
def Task.editedImage (t : Task) (off : Nat) (v : Word) : Img :=
  Img.putWord (spSetMany emptyByte [] (t.imageBytes 2 0xFFFFFFFF#32 true)) off v.toNat

theorem Task.editWord_ctl (t : Task) (off : Nat) (v : Word) :
    (t.editWord off v).ctl.g = ((t.editedImage off v).common t).ctl.g := by
  unfold Task.editWord
  dsimp only
  exact (Img.restore_ctl (t.editedImage off v) t t.ctl.phys t.savedRest).2

theorem spSetMany_wordBytes (i : Img) (base : Nat) (g : Sparse Word) :
    spSetMany emptyByte i ((g.map fun e => (base + 8 * e.1, e.2.toNat)).flatMap wordBytes) = i.putTable base g := by
  rw [spSetMany, List.foldl_flatMap, List.foldl_map]
  rfl

/-- A G register is in the image that a task writes (R301). -/
theorem Task.word_imageBytes {t : Task} (hg : spWf 0 t.ctl.g = true) (kind : Nat) (mask : BitVec 32) (wb : Bool) {k : Nat} (h0 : k ≠ 0)
    (hk : k < 32) : Img.word (spSetMany emptyByte [] (t.imageBytes kind mask wb)) (0x100 + 8 * k) = spGet 0 t.ctl.g k := by
  obtain ⟨bs, hbs, hfrom⟩ := t.imageBytes_split kind mask wb
  have hheader : Memory.wf (spSetMany emptyByte [] ((imageHeader kind mask wb).flatMap wordBytes)) = true := spWf_spSetMany rfl
  have hempty : Img.word (spSetMany emptyByte [] ((imageHeader kind mask wb).flatMap wordBytes)) (0x100 + 8 * k) = 0 := by
    refine (Img.word_spSetMany rfl fun b hb => .inl ?_).trans rfl
    obtain ⟨w, hw, hb⟩ := List.mem_flatMap.1 hb
    have hlt := mem_numbered_lt hb
    rw [leBytes_length] at hlt
    simp only [imageHeader, List.mem_cons, List.not_mem_nil, or_false] at hw
    rcases hw with rfl | rfl | rfl | rfl <;> dsimp only at hlt <;> omega
  rw [hbs, spSetMany_append, spSetMany_append, Task.gWords, spSetMany_wordBytes,
    Img.word_spSetMany (Img.putTable_wf hheader _ _) fun b hb => .inr (Nat.le_trans (by omega) (hfrom b hb)),
    Img.word_putTable (spWf_filter hg) hheader, hempty, spGet_filter_pos _ h0]
  split
  · next h => exact h.symm
  · rfl

/-- An edit of a G register changes that register alone (R309). -/
theorem Task.editWord_getG {t : Task} (hg : spWf 0 t.ctl.g = true) {r : BitVec 5} (hr : r ≠ 0) (v : Word) (x : BitVec 5) :
    (t.editWord (0x100 + 8 * r.toNat) v).ctl.getG x = if x = r then v else t.ctl.getG x := by
  have hcells : Memory.wf (spSetMany emptyByte [] (t.imageBytes 2 0xFFFFFFFF#32 true)) = true := spWf_spSetMany rfl
  by_cases hx : x = 0
  · rw [hx, if_neg (Ne.symm hr), Ctl.getG, if_pos rfl, Ctl.getG, if_pos rfl]
  have hx0 : x.toNat ≠ 0 := fun h => hx (BitVec.eq_of_toNat_eq (y := 0) h)
  rw [Ctl.getG_congr (t.editWord_ctl _ v), Img.common_getG _ _ hx, Task.editedImage]
  by_cases hxr : x = r
  · rw [if_pos hxr, hxr, Img.word_putWord_self hcells]
  · have hne : x.toNat ≠ r.toNat := fun h => hxr (BitVec.eq_of_toNat_eq h)
    rw [if_neg hxr, Img.word_putWord_ne hcells v.toNat (by omega), Task.word_imageBytes hg _ _ _ hx0 x.isLt, Ctl.getG, if_neg hx]

end Sys2Proof.Machine
end

section
/-! PROOF. Commands that have been emulated (R286, R310). -/

namespace Sys2Proof.Machine

/-! ### Stores leave the engines of the focused task -/

theorem State.wrByte_eng (s : State) (w : BWrite) (e : EngId) : (s.wrByte w).eng e = s.eng e := by
  by_cases hm : w.mask = 0
  · rw [State.wrByte_none hm]
  by_cases hsp : w.sp = .mem
  · rw [State.wrByte_mem s hsp hm]
    rfl
  rw [State.wrByte_holder s hsp hm, State.atHolder]
  split
  · unfold Task.putByte
    split <;> rfl
  · rfl

theorem State.unmark_eng (s : State) (p : Space × Nat) (e : EngId) : (s.unmark p).eng e = s.eng e := by
  unfold State.unmark
  split
  · rfl
  · split <;> rfl
  · rfl

theorem State.wrBytes_eng (s : State) (ws : List BWrite) (e : EngId) : (s.wrBytes ws).eng e = s.eng e :=
  State.unmarkAll_induction (P := fun u => u.eng e = s.eng e) (fun u p hu => (u.unmark_eng p e).trans hu)
    (List.foldlRecOn (motive := fun u : State => u.eng e = s.eng e) ws _ rfl fun u hu w _ => (u.wrByte_eng w e).trans hu) ws

theorem State.ctl_of_outlines {s u : State} (h : u.outlines = s.outlines) : u.ctl = s.ctl := by
  have hcur : u.cur.outline = s.cur.outline := (List.cons.inj h).1
  have hctl := congrArg (fun c : Core => c.task.ctl) hcur
  exact hctl

/-! ### The words of the counting commands -/

/-- The commands of the counting unit (R286). -/
def isCounting : Instr → Bool
  | .cinc .. | .cmerge .. | .cread .. => true
  | _ => false

theorem gate_ok {w : Nat} {zs : List (Nat × Nat)} {i j : Instr} (h : gate w zs i = .ok j) : j = i := by
  unfold gate at h
  split at h
  · cases h
  · split at h
    · cases h
      rfl
    · cases h

theorem decodeGeneric_counting {e : EngId} {w : Nat} {i : Instr} (h : decodeGeneric e w = .ok i) : isCounting i = false := by
  unfold decodeGeneric at h
  dsimp only at h
  split at h <;> rw [gate_ok h] <;> rfl

/-- No other word is a counting command (R285). -/
theorem decodeSluice_counting {w : Nat} {i : Instr} (h : decodeSluice w = .ok i) (hop : fld w 47 7 < 6 ∨ 8 < fld w 47 7) :
    isCounting i = false := by
  unfold decodeSluice at h
  dsimp only at h
  split at h
  case h_7 | h_8 | h_9 => omega
  case h_11 => exact decodeGeneric_counting h
  all_goals
    rw [gate_ok h]
    rfl

/-! ### Emulation -/

/-- The head of an engine's queue that is no counting command has been emulated. -/
theorem State.emulate_eq {s : State} {e : EngId} {q : QEnt} (hq : (s.eng e).head = some q)
    (hop : e = .sluice → opOf q.word < 6 ∨ 8 < opOf q.word) (landing : Nat) (ws : List (Nat × Byte)) (nan sat : Bool) :
    s.emulate e landing ws nan sat = .next (s.emulatedBy e landing (ws.filterMap s.emulatedWrite) nan sat) := by
  unfold State.emulate
  rw [hq, Option.map_some]
  cases e with
  | matrix => rfl
  | flume => rfl
  | sluice =>
    have hcounting : ∀ i, decodeSluice q.word.toNat = .ok i → isCounting i = false := fun i h => decodeSluice_counting h (hop rfl)
    simp only [decodeEngine]
    generalize decodeSluice q.word.toNat = d at hcounting
    split
    · next h => cases hcounting _ (Option.some.inj h)
    · next h => cases hcounting _ (Option.some.inj h)
    · next h => cases hcounting _ (Option.some.inj h)
    · rfl

/-- The engine past an emulated command. -/
def Eng.emulated (g : Eng) (q : QEnt) (landing : Nat) (ws : List BWrite) (nan sat : Bool) : Eng :=
  Eng.issued { g with nan := g.nan || nan, sat := g.sat || sat } (headAt q.word.toNat) q .none { lat := landing - g.cnt }
    { writes := ws, cont := 1, instant := !(g.strict && decide (g.cnt < landing)) }

theorem State.emulatedBy_eq {s : State} {e : EngId} {q : QEnt} (hq : (s.eng e).head = some q) (landing : Nat) (ws : List BWrite)
    (nan sat : Bool) : s.emulatedBy e landing ws nan sat =
      (if (s.eng e).strict && decide ((s.eng e).cnt < landing) then s else s.wrBytes ws).setEng e
        ((s.eng e).emulated q landing ws nan sat) := by
  have heng : (if (s.eng e).strict && decide ((s.eng e).cnt < landing) then s else s.wrBytes ws).eng e = s.eng e := by
    split
    · rfl
    · exact s.wrBytes_eng ws e
  unfold State.emulatedBy
  dsimp only
  rw [hq]
  dsimp only
  rw [heng]
  rfl

/-- An emulated command has its number and its token and leaves the queue; what it raises is added. -/
theorem Eng.emulated_frame (g : Eng) (q : QEnt) (landing : Nat) (ws : List BWrite) (nan sat : Bool) :
    (g.emulated q landing ws nan sat).seq = (g.seq + 1) % 2 ^ 48 ∧ (g.emulated q landing ws nan sat).queue = g.pop.queue ∧
      (g.emulated q landing ws nan sat).nan = (g.nan || nan) ∧ (g.emulated q landing ws nan sat).sat = (g.sat || sat) ∧
      ⟨g.seq, g.nextStamp (headAt q.word.toNat).idle.toNat, !(g.strict && decide (g.cnt < landing)), false⟩
        ∈ (g.emulated q landing ws nan sat).toks := by
  unfold Eng.emulated Eng.issued Eng.pop Eng.occupy
  dsimp only
  cases g.rep with
  | none => exact ⟨rfl, rfl, rfl, rfl, List.mem_cons_self⟩
  | some r =>
    dsimp only
    split
    · exact ⟨rfl, rfl, rfl, rfl, List.mem_cons_self⟩
    · split
      · exact ⟨rfl, rfl, rfl, rfl, List.mem_cons_self⟩
      · exact ⟨rfl, rfl, rfl, rfl, List.mem_cons_self⟩

/-- Out of a timed frame, or at its landing cycle, nothing is left in flight; before it the command is, as recorded. -/
theorem Eng.emulated_flight (g : Eng) (q : QEnt) (landing : Nat) (ws : List BWrite) (nan sat : Bool) :
    (¬(g.strict = true ∧ g.cnt < landing) → (g.emulated q landing ws nan sat).flight = g.flight) ∧
      (g.strict = true ∧ g.cnt < landing → ∃ f ∈ (g.emulated q landing ws nan sat).flight,
        f.seq = g.seq ∧ f.land = landing ∧ f.timed = true ∧ f.writes = ws) := by
  refine ⟨fun h => ?_, fun ⟨hstrict, hcnt⟩ => ?_⟩
  · have hlate : (g.strict && decide (g.cnt < landing)) = false := by simpa using h
    unfold Eng.emulated Eng.issued
    rw [hlate]
    rfl
  · have hlate : (g.strict && decide (g.cnt < landing)) = true := by simp [hstrict, hcnt]
    unfold Eng.emulated Eng.issued
    rw [hlate]
    refine ⟨_, List.mem_append_right _ (List.mem_singleton.2 rfl), rfl, ?_, hstrict, rfl⟩
    exact Nat.add_sub_cancel' (Nat.le_of_lt hcnt)

/-! ### Counting commands by their own unit (R286) -/

section

variable {s u : State} {q : QEnt} {i : Issued} (hq : (s.eng .sluice).head = some q) (hheld : i.held = false) {h : CmdHead} {a c : BitVec 6}
  (landing : Nat) (ws : List (Nat × Byte)) (nan sat : Bool)
include hq hheld

theorem State.emulateAs_eq {cost : State → Cost} {body : State → Except Trap (State × Issued)} (hbody : body s = .ok (u, i))
    (hgo : s.readyNow .sluice h .a (cost s).lat = .go) : s.emulateAs h cost body = .next (u.issuedAs .sluice h .a q (cost s) i) := by
  unfold State.emulateAs State.issueAs
  rw [hgo, hq]
  dsimp only
  rw [hbody]
  exact if_neg (by rw [hheld]; exact Bool.false_ne_true)

theorem State.emulate_cinc {skip : Bool} (hd : decodeEngine .sluice q.word.toNat = .ok (.cinc h a c skip)) (hbody : cincBody a c skip s = .ok (u, i))
    (hgo : s.readyNow .sluice h .a (costEach a c s).lat = .go) :
    s.emulate .sluice landing ws nan sat = .next (u.issuedAs .sluice h .a q (costEach a c s) i) := by
  unfold State.emulate
  rw [hq, Option.map_some, hd]
  exact State.emulateAs_eq hq hheld hbody hgo

theorem State.emulate_cmerge (hd : decodeEngine .sluice q.word.toNat = .ok (.cmerge h a c)) (hbody : cmergeBody a c s = .ok (u, i))
    (hgo : s.readyNow .sluice h .a (cmergeCost c s).lat = .go) :
    s.emulate .sluice landing ws nan sat = .next (u.issuedAs .sluice h .a q (cmergeCost c s) i) := by
  unfold State.emulate
  rw [hq, Option.map_some, hd]
  exact State.emulateAs_eq hq hheld hbody hgo

theorem State.emulate_cread (hd : decodeEngine .sluice q.word.toNat = .ok (.cread h a c)) (hbody : creadBody a c s = .ok (u, i))
    (hgo : s.readyNow .sluice h .a (creadCost a s).lat = .go) :
    s.emulate .sluice landing ws nan sat = .next (u.issuedAs .sluice h .a q (creadCost a s) i) := by
  unfold State.emulate
  rw [hq, Option.map_some, hd]
  exact State.emulateAs_eq hq hheld hbody hgo

end

end Sys2Proof.Machine
end

section
/-! PROOF. Displaced transfers that are emulated (R174, R311), unknown words (R310), and the debugger's edits (R309, R311). -/

namespace Sys2Proof.Machine

/-! ### A displaced transfer (R174) -/

/-- The transfers and their preparations, which a BRK may displace. -/
def isTransfer (i : Instr) : Prop := ∃ j p pn q g off,
  i = .xfer j p pn ∨ i = .xcall j p pn ∨ i = .ret q ∨ i = .prep j p pn off ∨ i = .prepr q j g

/-- The state in which the displaced word is performed, at the PC of the BRK and without MODE.STEP. -/
def State.displacing (s : State) (w : Word) : State := s.withCtl { s.ctl with ir := w, step := false }

theorem State.emulateDisplaced_eq {s u : State} {w : Word} {i : Instr} (hd : decodeControl w.toNat = .ok i) (hi : isTransfer i)
    (hu : exec i (s.displacing w) = .next u) : s.emulateDisplaced w = .next (s.afterEmulation u (s.prepares i)) := by
  unfold State.emulateDisplaced
  rw [hd]
  unfold State.displacing at hu
  obtain ⟨j, p, pn, q, g, off, rfl | rfl | rfl | rfl | rfl⟩ := hi <;> dsimp only
  · rw [show execXfer j p pn (s.withCtl { s.ctl with ir := w, step := false }) = .next u from hu]
    rfl
  · rw [show execXcall j p pn (s.withCtl { s.ctl with ir := w, step := false }) = .next u from hu]
    rfl
  · rw [show execRet q (s.withCtl { s.ctl with ir := w, step := false }) = .next u from hu]
    rfl
  · rw [show execPrep j p pn off (s.withCtl { s.ctl with ir := w, step := false }) = .next u from hu]
    rfl
  · rw [show execPrepr q j g (s.withCtl { s.ctl with ir := w, step := false }) = .next u from hu]
    rfl

/-- A value that is not the default reads back, whatever the table. -/
theorem spGet_spSet_value {β : Type} [DecidableEq β] {d v : β} (hv : v ≠ d) (t : Sparse β) (k : Nat) : spGet d (spSet d t k v) k = v := by
  induction t with
  | nil => simp [spSet, hv, spGet]
  | cons e t ih =>
    obtain ⟨a, x⟩ := e
    unfold spSet
    by_cases hlt : k < a
    · simp [hlt, hv, spGet]
    · by_cases ha : k = a
      · simp [ha, hv, spGet]
      · rw [if_neg hlt, if_neg ha, spGet, if_neg hlt, if_neg ha, ih]

/-- A table of which every value has been changed by its key, the default staying itself. -/
theorem spGet_mapKeyed {β : Type} {d : β} {f : Nat → β → β} (hd : ∀ k, f k d = d) (t : Sparse β) (k : Nat) :
    spGet d (t.map fun e => (e.1, f e.1 e.2)) k = f k (spGet d t k) := by
  induction t with
  | nil => exact (hd k).symm
  | cons e t ih =>
    rw [List.map_cons, spGet, spGet, ih]
    by_cases hlt : k < e.1
    · simp [hlt, hd]
    · by_cases ha : k = e.1 <;> simp [hlt, ha]

/-- The J register that a displaced word has prepared is STALE after the emulation, with the TADDR that it has been given. -/
theorem State.afterEmulation_getJ (s u : State) {j : BitVec 3} (h : (u.ctl.getJ j).st ≠ .empty) :
    ((s.afterEmulation u (some j)).ctl.getJ j).taddr = (u.ctl.getJ j).taddr ∧ ((s.afterEmulation u (some j)).ctl.getJ j).st = .stale := by
  have hkey : BitVec.ofNat 3 j.toNat = j := BitVec.ofNat_toNat ..
  have hget : (s.afterEmulation u (some j)).ctl.getJ j = (u.ctl.getJ j).staled := by
    refine (spGet_mapKeyed (f := fun n r =>
      if decide (r = s.ctl.getJ (BitVec.ofNat 3 n)) && some j != some (BitVec.ofNat 3 n) then r else r.staled) (fun k => ?_) u.ctl.j j.toNat).trans ?_
    · split <;> rfl
    · rw [hkey, if_neg (by simp)]
      rfl
  rw [hget, JReg.staled, if_neg h]
  exact ⟨rfl, rfl⟩

theorem Ctl.getJ_setJ (c : Ctl) (j : BitVec 3) {r : JReg} (hr : r ≠ JReg.blank) : (c.setJ j r).getJ j = r := spGet_spSet_value hr _ _

/-- What PREP and PREPR leave in their J register: FETCHING (R159). -/
theorem State.prepare_getJ (s : State) (j : BitVec 3) (taddr : Word) (pc : Word) :
    (((s.prepare j taddr).retired pc).ctl.getJ j).st = .fetching := by
  have hget : ((s.prepare j taddr).retired pc).ctl.getJ j = ⟨taddr &&& ~~~7#64, .fetching, []⟩ := by
    rw [State.retired_ctl]
    exact s.ctl.getJ_setJ j (by simp [JReg.blank])
  rw [hget]

/-- A displaced PREP or PREPR that is not squashed prepares its J register (R127, R159). -/
theorem State.displaced_prepares {s u : State} {w : Word} {i : Instr} (hu : exec i (s.displacing w) = .next u) {j p : BitVec 3} {pn : Bool}
    {q : Qual} {g : BitVec 5} {off : BitVec 48}
    (h : (i = .prep j p pn off ∧ s.holds ⟨p, pn⟩ = true) ∨ (i = .prepr q j g ∧ s.holds q = true)) :
    s.prepares i = some j ∧ (u.ctl.getJ j).st = .fetching := by
  rcases h with ⟨rfl, hq⟩ | ⟨rfl, hq⟩
  · refine ⟨if_pos hq, ?_⟩
    replace hu : execPrep j p pn off (s.displacing w) = .next u := hu
    rw [execPrep, State.qualified_eq, if_pos (show (s.displacing w).holds ⟨p, pn⟩ = true from hq), State.retire_eq] at hu
    cases hu
    exact State.prepare_getJ ..
  · refine ⟨if_pos hq, ?_⟩
    replace hu : execPrepr q j g (s.displacing w) = .next u := hu
    rw [execPrepr, State.qualified_eq, if_pos (show (s.displacing w).holds q = true from hq), State.retire_eq] at hu
    cases hu
    exact State.prepare_getJ ..

/-! ### A word that the emulator does not know (R310) -/

/-- Clearing bits [7:0] rounds a word down to a multiple of 256. -/
theorem andNot255_toNat (x : Word) : (x &&& ~~~0xFF#64).toNat = x.toNat / 2 ^ 8 * 2 ^ 8 := by
  have h255 (i : Nat) : (0xFF#64).getLsbD i = decide (i < 8) := by
    rw [show (0xFF#64) = BitVec.ofNat 64 (2 ^ 8 - 1) from rfl, BitVec.getLsbD_ofNat, Nat.testBit_two_pow_sub_one]
    exact Bool.eq_iff_iff.mpr (by simp; omega)
  have h : x &&& ~~~0xFF#64 = (x >>> 8) <<< 8 := by
    refine BitVec.eq_of_getLsbD_eq fun i hi => ?_
    rw [BitVec.getLsbD_and, BitVec.getLsbD_not, h255, BitVec.getLsbD_shiftLeft, BitVec.getLsbD_ushiftRight]
    by_cases h8 : i < 8
    · simp [h8]
    · simp [h8, hi, show 8 + (i - 8) = i by omega]
  have hlt := x.isLt
  rw [h, BitVec.toNat_shiftLeft, BitVec.toNat_ushiftRight, Nat.shiftRight_eq_div_pow, Nat.shiftLeft_eq]
  omega

theorem FaultRec.illegal_frame (r : FaultRec) : fld r.illegal.w0.toNat 0 8 = 0x01 ∧ fld r.illegal.w0.toNat 8 56 = fld r.w0.toNat 8 56 ∧
    r.illegal.w3 = r.w3 ∧ r.illegal.w4 = r.w4 ∧ r.illegal.lid = r.lid := by
  have hw : r.illegal.w0.toNat = r.w0.toNat / 2 ^ 8 * 2 ^ 8 + 1 := by
    have hcode : (BitVec.ofNat 64 Code.illegal.num).toNat = 1 := rfl
    rw [FaultRec.illegal, BitVec.toNat_or, andNot255_toNat, hcode, Nat.mul_comm,
      ← Nat.two_pow_add_eq_or_of_lt (i := 8) (by omega)]
  refine ⟨?_, ?_, rfl, rfl, rfl⟩
  · rw [hw, fld]
    omega
  · rw [hw, fld, fld]
    omega

/-! ### The debugger's edits (R309, R311) -/

/-- A byte that is stored in memory, alone (R311). -/
theorem State.wrBytes_memByte {s : State} (hs : s.canonical) (pa : Nat) (b : Byte) :
    (s.wrBytes [⟨.mem, pa, 0xFF, b⟩]).rdByte .mem pa = b ∧ s.sameBytesBut (s.wrBytes [⟨.mem, pa, 0xFF, b⟩]) .mem pa 1 ∧
      (s.wrBytes [⟨.mem, pa, 0xFF, b⟩]).ctl = s.ctl := by
  refine ⟨?_, (State.sameBytesBut_mem_iff ..).2 fun sp a ha => ?_, State.ctl_of_outlines (s.outlines_wrBytes _)⟩
  · rw [State.wrBytes, State.rdByte_unmarkAll]
    exact (State.rdByte_mem_wrByte hs pa pa b).trans (if_pos rfl)
  · rw [State.wrBytes, State.rdByte_unmarkAll]
    refine State.rdByte_foldl_wrByte_ne hs fun w hw hplace => ?_
    rw [List.mem_singleton.1 hw, State.place_mem_iff] at hplace
    obtain ⟨hsp, rfl⟩ := hplace
    have := ha hsp
    omega

/-- The store of a debugger to a mapped address is that of its byte (R311; log entry 52). -/
theorem exec_taskEdit_store {s : State} {part va pa : Nat} {queue : Option Nat} (hpart : s.debugPart = some (part, queue))
    (hva : locate va = .virt) (hpa : s.translateIn part queue va .loader = .ok pa) (b : Byte) :
    exec (.taskEdit (.store va [b])) s = .next (s.wrBytes [⟨.mem, pa, 0xFF, b⟩]) := by
  have hwrite : s.mappedWrite (va, b) = some ⟨.mem, pa, 0xFF, b⟩ := by
    rw [State.mappedWrite, hpart, Option.bind_some, hpa]
    rfl
  show execTaskEdit (.store va [b]) s = _
  simp only [execTaskEdit, numbered, List.filterMap_cons, hva, hwrite, List.filterMap_nil]

/-- What an invalidation leaves of a task: no cached word, and J registers that are EMPTY or STALE (R163, R311). -/
theorem Task.invalidate_whole (t : Task) : (t.invalidate 0 0 true).icache = [] ∧
    ∀ e ∈ (t.invalidate 0 0 true).ctl.j, e.2.st = .empty ∨ e.2.st = .stale := by
  refine ⟨rfl, fun e he => ?_⟩
  obtain ⟨x, -, rfl⟩ := List.mem_map.1 he
  exact x.2.staled_st

theorem State.invalidatePart_cores {s : State} {part : Nat} {c : Core} (hc : c ∈ (s.invalidatePart part).cores) (hslot : c.slot ≠ .empty)
    (hpart : c.task.part = part) : c.task.icache = [] ∧ ∀ e ∈ c.task.ctl.j, e.2.st = .empty ∨ e.2.st = .stale := by
  have hcores : (s.invalidatePart part).cores = s.cores.map fun c =>
    if c.slot != .empty && c.task.part = part then { c with task := c.task.invalidate 0 0 true } else c := rfl
  rw [hcores] at hc
  obtain ⟨d, -, rfl⟩ := List.mem_map.1 hc
  by_cases hd : (d.slot != .empty && d.task.part = part) = true
  · rw [if_pos hd]
    exact d.task.invalidate_whole
  · rw [if_neg hd] at hslot hpart
    exact absurd (by simp [hslot, hpart]) hd

end Sys2Proof.Machine
end

section
/-! PROOF. Delivery, continue, edits and emulation (R174, R286, R305 to R307, R309 to R311) together. -/

namespace Sys2Proof.Machine

/-- A record is in its slot, word by word, and LID with it (R306, R307). -/
theorem State.rdNat_slotWords {s : State} (hs : s.canonical) (a : Nat) (r : FaultRec) :
    (s.putWords a r.slotWords).rdNat .mem (a + 8) 8 = r.lid % 2 ^ 64 ∧
      ∀ w ∈ r.early, (s.putWords a r.slotWords).rdNat .mem (a + w.1) 8 = w.2.toNat := by
  have hapart : r.slotWords.Pairwise fun w x => w.1 + 8 ≤ x.1 ∨ x.1 + 8 ≤ w.1 := by
    simp [FaultRec.slotWords, FaultRec.early]
  have hread := State.rdNat_putWords a hapart hs
  refine ⟨hread (8, r.lid) (List.mem_append_right _ List.mem_cons_self), fun w hw => ?_⟩
  exact (hread _ (List.mem_append_left _ (List.mem_map_of_mem hw))).trans (Nat.mod_eq_of_lt w.2.isLt)

/-- Writing words to memory touches no core. -/
theorem State.putWords_frame (s : State) (a : Nat) (ws : List (Nat × Nat)) :
    (s.putWords a ws).cur = s.cur ∧ (s.putWords a ws).rest = s.rest := by
  obtain ⟨m, b, hm⟩ := s.memOnly_putWords a ws
  rw [hm]
  exact ⟨rfl, rfl⟩

/-- Memory is read the same, whatever records and rings there are. -/
theorem State.rdByte_records (s : State) (fs : List FaultRec) (ps : List Partition) (sp : Space) (a : Nat) :
    ({ s with faults := fs, parts := ps } : State).rdByte sp a = s.rdByte sp a := by
  cases sp <;> rfl

/-- An edit of a word of a parked task changes its context, and what it waited for at most (R309). -/
theorem State.editWord_frame (s : State) {off : Nat} (v : Word) (hoff : off ≠ 0x258) :
    (s.editWord off v).task = s.task.editWord off v ∧ (s.editWord off v).cur.slot = s.cur.slot ∧ (s.editWord off v).rest = s.rest ∧
      (s.editWord off v).mem = s.mem := by
  unfold State.editWord
  dsimp only
  rw [if_neg hoff]
  generalize s.task.editWord off v = t
  split <;> exact ⟨rfl, rfl, rfl, rfl⟩

theorem State.getG_of_task {s : State} {t : Task} (h : s.task = t) (x : BitVec 5) : s.getG x = t.ctl.getG x := by
  rw [← h]
  rfl

/-- An edit of a parked task's context reaches it (R309). -/
theorem exec_taskEdit_parked {s : State} (hslot : s.cur.slot = .resident ∨ s.cur.slot = .saving)
    (hparked : s.task.parkAll = true ∨ s.task.parkCtl = true) :
    (∀ off v, exec (.taskEdit (.word off v)) s = .next (s.editWord off v)) ∧
      (∀ e landing ws nan sat, exec (.taskEdit (.emulated e landing ws nan sat)) s = s.emulate e landing ws nan sat) ∧
      (∀ w, s.ctl.waiting = false → exec (.taskEdit (.displaced w)) s = s.emulateDisplaced w) ∧
      ∀ st r, s.recordOf st = some r → exec (.taskEdit (.unknownWord st)) s
        = .next { s.withTask { s.task with recs := s.task.noteRec r.illegal } with faults := s.faults ++ [r.illegal] } := by
  have hcond : ((s.cur.slot == .resident || s.cur.slot == .saving) && (s.task.parkAll || s.task.parkCtl)) = true := by
    rcases hslot with h | h <;> rcases hparked with h' | h' <;> simp [h, h']
  refine ⟨fun off v => if_pos hcond, fun e landing ws nan sat => if_pos hcond, fun w hw => (if_pos hcond).trans ?_,
    fun st r hr => (if_pos hcond).trans ?_⟩
  · show (if s.ctl.waiting then Host.Outcome.next s else s.emulateDisplaced w) = _
    rw [if_neg (by rw [hw]; exact Bool.false_ne_true)]
  · rw [State.editParked, hr]

/-- Only the write of a word and the release of the saved gang come of an edit of a saved image (R309; log entry 85). -/
theorem State.editImage_eq {s : State} {addr : Nat} {e : Nat × SavedRest} (he : s.saved.find? (fun e => e.1 == addr) = some e)
    (off : Nat) (v : Word) : ∃ idx, (∀ l, s.findLaunch e.2.lid = some l → idx = s.gangOf l.rec_ e.2.lcn) ∧
      s.editImage addr off v = (s.releaseSaved e.2.lid idx).wrNat .mem (addr + off) 8 v.toNat := by
  refine ⟨((s.findLaunch e.2.lid).map fun l => s.gangOf l.rec_ e.2.lcn).getD 0, fun l hl => by rw [hl]; rfl, ?_⟩
  rw [State.editImage, he]

/-- An edit of a saved image writes its word, alone, and no resident task is touched (R309). -/
theorem State.releaseSaved_wrNat {s : State} (hs : s.canonical) (lid idx a : Nat) (v : Word) :
    let t := (s.releaseSaved lid idx).wrNat .mem a 8 v.toNat
    t.rdNat .mem a 8 = v.toNat ∧ s.sameBytesBut t .mem a 8 ∧ t.cur = s.cur ∧ t.saved = (s.releaseSaved lid idx).saved := by
  have hs' : (s.releaseSaved lid idx).canonical := hs
  have hbytes : s.sameBytes (s.releaseSaved lid idx) := fun sp b => by cases sp <;> rfl
  refine ⟨(State.rdNat_wrNat hs' (by simp) rfl _ _ _).trans (Nat.mod_eq_of_lt v.isLt), ?_, State.cur_wrNat_mem ..,
    State.saved_of_shell (State.shell_wrNat ..)⟩
  refine (State.sameBytesBut_mem_iff ..).2 fun sp b hb => ?_
  exact ((State.sameBytesBut_mem_iff ..).1 (State.sameBytesBut_wrNat hs' .mem a 8 v.toNat) sp b hb).trans (hbytes sp b)

/-- What an emulated command shows on a task that is parked: at once, or at the landing cycle that is recorded (R309). -/
theorem State.emulatedBy_frame {s : State} {e : EngId} {q : QEnt} (hq : (s.eng e).head = some q) (landing : Nat) (bs : List BWrite)
    (nan sat : Bool) :
    let g := s.eng e
    let late := g.strict = true ∧ g.cnt < landing
    let t := s.emulatedBy e landing bs nan sat
    t.eng e = g.emulated q landing bs nan sat ∧ t.ctl = s.ctl ∧ (¬late → (s.wrBytes bs).sameBytes t) ∧ (late → s.sameBytes t) := by
  dsimp only
  rw [State.emulatedBy_eq hq]
  refine ⟨State.eng_setEng .., (State.setEng_task_ctl ..).trans ?_, fun h => ?_, fun ⟨hstrict, hcnt⟩ => ?_⟩
  · split
    · rfl
    · exact State.ctl_of_outlines (s.outlines_wrBytes bs)
  · rw [if_neg (by simpa using h)]
    exact State.rdByte_setEng _ e _
  · rw [if_pos (by simp [hstrict, hcnt])]
    exact State.rdByte_setEng _ e _

/-- Settles O57. Delivery writes eight words apart from each other (`rdNat_putWords`); a continued gang only eases its cores
(`State.eases`) and each task without a record is unparked; an edited word goes through the context image
(`Task.editWord_getG`); an emulated command is issued with what the emulator gives (`State.emulatedBy_eq`), a displaced transfer is
performed without MODE.STEP (`State.emulateDisplaced_eq`). -/
theorem faultsAreDeliveredAndContinued : Obligations.FaultsAreDeliveredAndContinued := by
  unfold Obligations.FaultsAreDeliveredAndContinued
  refine ⟨fun s part p r hs hp hr hslots => ?deliver, fun s lid gang hs => ?goOn, fun s lid gang l e hl he hlid hgang hdelivered => ?saved,
    fun s hslot hparked => ?parked, fun s hs => ?debugger⟩
  case deliver =>
    intro at_
    have hexec := exec_faultRecordDelivery hp hr hslots
    refine ⟨fun h => hexec.trans (if_pos h), fun h => ⟨_, hexec.trans (if_neg (not_not_intro h)), ?_⟩⟩
    have hbytes := State.rdByte_records (s.putWords at_ r.slotWords) (dropFault part s.faults)
      (s.parts.map fun q => if q.id = part then { q with ringAt := (q.ringAt + 1) % q.ringSlots } else q)
    have hnat (o : Nat) := State.rdNat_congr_range (n := 8) (a := at_ + o) fun k _ => hbytes .mem (at_ + o + k)
    obtain ⟨hlid, hwords⟩ := State.rdNat_slotWords hs at_ r
    simp only [FaultRec.early, List.forall_mem_cons] at hwords
    obtain ⟨h0, h2, h3, h4, h5, h6, h7, -⟩ := hwords
    obtain ⟨hcur, hrest⟩ := s.putWords_frame at_ r.slotWords
    have hreach : ∀ w ∈ r.slotWords, w.1 + 8 ≤ 64 := by simp [FaultRec.slotWords, FaultRec.early]
    refine ⟨⟨(hnat 0).trans h0, (hnat 8).trans hlid, (hnat 16).trans h2, (hnat 24).trans h3, (hnat 32).trans h4, (hnat 40).trans h5,
      (hnat 48).trans h6, (hnat 56).trans h7⟩, dropFault_length hr, hcur, hrest, fun sp a ha => (hbytes sp a).trans ?_, rfl⟩
    exact State.sameBytesBut_putWords at_ hreach hs sp a ha
  case goOn =>
    obtain ⟨t, hexec, -⟩ := exec_taskContinue_saved s lid gang
    refine ⟨t, hexec, fun c hc hgang hdelivered => ?_⟩
    obtain ⟨⟨hall, hctl⟩, hstands⟩ := State.continued hs lid gang hc hgang hdelivered hexec
    exact ⟨hall, hctl, hstands⟩
  case saved =>
    obtain ⟨t, hexec, hsaved⟩ := exec_taskContinue_saved s lid gang
    refine ⟨t, hexec, ?_⟩
    rw [hsaved]
    exact State.mem_releaseSaved (s := s.releaseStaged lid gang) hl he hlid hgang hdelivered
  case parked =>
    obtain ⟨hword, hemulated, hdisplaced, hunknown⟩ := exec_taskEdit_parked hslot hparked
    refine ⟨fun r v hs hr => ?_, fun e landing ws nan sat q hq hop => ?_, fun landing ws nan sat q u i hq hheld => ?_,
      fun w i u hwaiting hd hi hu => ?_, fun st r hr => ?_⟩
    · have hoff : 0x100 + 8 * r.toNat ≠ 0x258 := by have := r.isLt; omega
      obtain ⟨htask, hslot', hrest, hmem⟩ := s.editWord_frame v hoff
      have hget (x : BitVec 5) : (s.editWord (0x100 + 8 * r.toNat) v).getG x = if x = r then v else s.getG x :=
        (State.getG_of_task htask x).trans (Task.editWord_getG (State.canonical_task hs).1 hr v x)
      exact ⟨_, hword _ v, (hget r).trans (if_pos rfl), hslot', fun x hx => (hget x).trans (if_neg hx), hrest, hmem⟩
    · intro g late bs
      obtain ⟨heng, hctl, hnow, hlater⟩ := State.emulatedBy_frame hq landing bs nan sat
      obtain ⟨hseq, hqueue, hnan, hsat, htok⟩ := g.emulated_frame q landing bs nan sat
      obtain ⟨hlanded, hflies⟩ := g.emulated_flight q landing bs nan sat
      refine ⟨_, (hemulated ..).trans (State.emulate_eq hq hop ..), ?_⟩
      rw [heng]
      refine ⟨hseq, hqueue, hnan, hsat, hctl, ⟨_, htok, rfl, rfl, ?_⟩, fun h => ⟨hlanded h, hnow h⟩, fun h => ⟨hlater h, hflies h⟩⟩
      simp [late, imp_iff_not_or]
    · intro as_ h a c skip
      exact ⟨fun hd hbody hgo => (hemulated ..).trans (State.emulate_cinc hq hheld landing ws nan sat hd hbody hgo),
        fun hd hbody hgo => (hemulated ..).trans (State.emulate_cmerge hq hheld landing ws nan sat hd hbody hgo),
        fun hd hbody hgo => (hemulated ..).trans (State.emulate_cread hq hheld landing ws nan sat hd hbody hgo)⟩
    · have hexec := (hdisplaced w hwaiting).trans (State.emulateDisplaced_eq hd hi hu)
      refine ⟨_, hexec, rfl, rfl, rfl, rfl, State.rdByte_withCtl u _, rfl, fun j p pn q g off h => ?_⟩
      obtain ⟨hprepares, hfetching⟩ := State.displaced_prepares hu h
      rw [hprepares]
      exact s.afterEmulation_getJ u (by rw [hfetching]; decide)
    · obtain ⟨hcode, hword', hw3, hw4, hlid⟩ := r.illegal_frame
      exact ⟨_, _, hunknown st r hr, rfl, hcode, hword', hw3, hw4, hlid⟩
  case debugger =>
    refine ⟨fun va b pa hslot hva hpa => ?_, fun p va b pa hslot hp hva hpa => ?_, fun n hn => ?_, fun addr off v e he => ?_⟩
    · have hpart : s.debugPart = some (s.task.part, some s.task.queue) := if_neg hslot
      exact ⟨_, exec_taskEdit_store hpart hva hpa b, State.wrBytes_memByte hs pa b⟩
    · have hpart : s.debugPart = some (p.id, none) := (if_pos hslot).trans (by rw [hp]; rfl)
      obtain ⟨hbyte, hothers, -⟩ := State.wrBytes_memByte hs pa b
      exact ⟨_, exec_taskEdit_store hpart hva hpa b, hbyte, hothers⟩
    · have hpart : ∃ q, s.debugPart = some (n, q) := by
        rcases hn with ⟨hslot, rfl⟩ | ⟨hslot, p, hp, rfl⟩
        · exact ⟨_, if_neg hslot⟩
        · exact ⟨none, (if_pos hslot).trans (by rw [hp]; rfl)⟩
      obtain ⟨q, hq⟩ := hpart
      refine ⟨s.invalidatePart n, ?_, rfl, fun c hc hslot hn => State.invalidatePart_cores hc hslot hn⟩
      show execTaskEdit .invalidate s = _
      rw [execTaskEdit, hq]
      rfl
    · obtain ⟨idx, hidx, hedit⟩ := State.editImage_eq he off v
      obtain ⟨hread, hothers, hcur, hsaved⟩ := State.releaseSaved_wrNat hs e.2.lid idx (addr + off) v
      refine ⟨_, congrArg Host.Outcome.next hedit, hread, hothers, hcur, fun l hl hgang hdelivered => ?_⟩
      have haddr : e.1 = addr := by simpa using List.find?_some he
      rw [hsaved, ← haddr]
      exact State.mem_releaseSaved hl (List.mem_of_find?_eq_some he) rfl (hidx l hl ▸ hgang) hdelivered

end Sys2Proof.Machine
end
